-- ==== Sys2Proof/Word.lean ====
section
/-!
DEFINITION. The word types of the Izlum Krepen (R4, R49) and their plainest conversions.
-/
namespace Sys2Proof

abbrev Byte := BitVec 8
/-- A lane's register value, an instruction word, a shared-memory word (R49). -/
abbrev Word32 := BitVec 32
/-- A uniform register, an address being computed (R49, R115). -/
abbrev Word64 := BitVec 64
/-- A set of lanes of one squad: bit L stands for lane L (R13). -/
abbrev LaneMask := BitVec 32

end Sys2Proof
end

