-- ==== Sys2Proof/Config.lean ====
section
/-!
DEFINITION. What the IZK-7400 fixes for every run (figures of R2 and of the rules that quote it) and the FREE VALUES:
constants without a body, of which nothing can be proved, applied to the counter `State.free` and a place (log 3, DESIGN CHOICE).
-/
namespace Sys2Proof.Config

/-! ### Figures of the part -/

/-- R10: dies, clusters of a die, cores of a cluster. -/
def dies : Nat := 4
def clustersPerDie : Nat := 16
def coresPerCluster : Nat := 4
def clusters : Nat := 64
def cores : Nat := 256
/-- R2, R13: resident squads of a core, issue slots of a core. -/
def squadsPerCore : Nat := 32
def slotsPerCore : Nat := 4
/-- R15: cycles between regroup ticks. -/
def regroupCycles : Nat := 4
/-- R220: cycles of a `yield`. -/
def yieldCycles : Nat := 64
/-- R278: the age of the override. -/
def ageOverride : Nat := 256
/-- R112: units and the largest size of a shared window. -/
def sharedUnit : Nat := 16384
def sharedBytes : Nat := 2097152
/-- R113: units and the largest size of a scratchpad window. -/
def scratchUnit : Nat := 65536
def scratchBytes : Nat := 67108864
/-- R125: units of a spill stack. -/
def spillUnit : Nat := 65536
/-- R95, R231: shared entries of the near-copy queue and of the matrix FIFO. -/
def copySlots : Nat := 64
def fifoEntries : Nat := 32
/-- R96: the greatest class count. -/
def counterMax : Nat := 255
/-- R140: entries of the glide buffer and bytes of a sector. -/
def glideEntries : Nat := 64
def sectorBytes : Nat := 32
/-- R157: sync records of a core and of a die. -/
def coreSyncRecords : Nat := 256
def dieSyncRecords : Nat := 1024
/-- R172: physical registers of a core and each squad's floor, by file. -/
def physV : Nat := 4096
def physS : Nat := 2048
def physA : Nat := 512
def floorV : Nat := 64
def floorS : Nat := 32
def floorA : Nat := 8
/-- R81, R77: sizes of the moraine and of the page-request queue's parts. -/
def moraineFrames : Nat := 8192
def requestReserve : Nat := 32
def requestShared : Nat := 512
def requestSharedEach : Nat := 256
/-- R79: frames of a pool and demand-filled ranges of a context. -/
def poolFrames : Nat := 1048576
def demandRanges : Nat := 16
/-- R75, R76: entries of a cluster's translation cache and of its instruction translation cache; R69: bytes of an interleaved unit. -/
def clusterTlb : Nat := 2048
def fetchTlb : Nat := 256
def channelUnit : Nat := 2048
/-- R248: the clause array's extent. -/
def clauseVars : Nat := 1024
def clauseCols : Nat := 4096
/-- R330: the longest lease of the management semaphore, in microseconds. -/
def leaseMicros : Nat := 100000
/-- R314: the module cap's least and greatest value, in watts. -/
def capMin : Nat := 900
/-- Log 14, DESIGN CHOICE. -/
def capMax : Nat := 1800
/-- R332: the feature vector: NUMVER 1, K1, PAIR and CLAUSE set. -/
def feature : BitVec 64 := 0x701#64

/-! ### Figures the manual leaves to the implementation (log 14, DESIGN CHOICE) -/

/-- DESIGN CHOICE (log 14): current units of a cluster's arbiter before any policy has set them. -/
def arbiterBudget : Nat := 128

/-! ### Free values (log 3, DESIGN CHOICE): no body, so no proof can see what they are -/

/-- A free choice between two allowed outcomes: argument one is `State.free`, argument two the place. Log 3, DESIGN CHOICE. -/
opaque freeBit : Nat → Nat → Bool
/-- A free byte, such as what a decryption under a wrong key yields (R324). Log 3, DESIGN CHOICE. -/
opaque freeByte : Nat → Nat → BitVec 8
/-- A free word, such as a key drawn at random (R317, R325). Log 3, DESIGN CHOICE. -/
opaque freeWord : Nat → Nat → BitVec 64

/-- R69: the LPDDR6 channel of its die, modulo 32, that a 2 KiB unit belongs to: a function of the unit's number (log 13, DESIGN CHOICE). -/
opaque unitChannel : Nat → Nat
/-- The expander share that a 64 KiB frame belongs to: a function of the frame number (log 13, DESIGN CHOICE). -/
opaque frameShare : Nat → Nat

/-- R314: the clip and the cluster budget that the policy gives a share in watts (log 70, DESIGN CHOICE). -/
opaque shareClip : Nat → BitVec 3
/-- Log 70, DESIGN CHOICE. -/
opaque shareBudget : Nat → Nat

/-! ### Cryptography the manual names and does not define (log 4, DESIGN CHOICE) -/

/-- The SM3 digest of a byte string, as a 256-bit number whose low byte is the digest's first byte. Log 4, DESIGN CHOICE. -/
opaque sm3 : List (BitVec 8) → BitVec 256
/-- The SM2 signature, 64 bytes, by the device identity key over a digest (R326, R328, R341). Log 4, DESIGN CHOICE. -/
opaque sm2Sign : BitVec 256 → BitVec 512
/-- Whether an SM2 signature verifies under a public key over a digest (R336). Log 4, DESIGN CHOICE. -/
opaque sm2Verify : BitVec 512 → BitVec 256 → BitVec 512 → Bool
/-- The fused digest of the firmware key and the digest of the device identity public key (R326, R336). Log 4, DESIGN CHOICE. -/
opaque firmwareKeyDigest : BitVec 256
/-- Log 4, DESIGN CHOICE. -/
opaque identityKeyDigest : BitVec 256
/-- R326: the SM3 digest of the 8-byte addresses, ascending, of the 2 KiB units between two addresses that a predicate holds of, and how many
there are. Log 4, DESIGN CHOICE. -/
opaque unitsDigest : (Nat → Bool) → Nat → Nat → BitVec 256
/-- Log 4, DESIGN CHOICE. -/
opaque unitsCount : (Nat → Bool) → Nat → Nat → Nat
/-- The ciphertext of a 32-byte unit written under a key (R324, R331): key identity, unit number, plain bytes; and one byte of it. Log 4, DESIGN CHOICE. -/
opaque cipherUnit : Nat → Nat → List (BitVec 8) → Nat → BitVec 8
/-- The scheduled word Slamir puts in place of a Walfer word (R42): firn key, offset, word. Only the fields of R42
are taken from it. -/
opaque slamirWord : BitVec 256 → Nat → BitVec 32 → BitVec 32

/-- R84: the length of a line of the instruction caches, as a power of two: the manual gives none (log 65, DEDUCED). -/
opaque codeLineBits : Nat

end Sys2Proof.Config
end

