-- ==== Sys2Proof/Syntax.lean ====
section
/-!
DEFINITION. The instruction syntax: register names (R22), source fields (R24), guards (R30), the fields of the S, L, K, X and T
forms (R25, R27, R31, R32, R34, R35), what the event rows of the opcode table carry, and `Instr`, one constructor per row.
-/
namespace Sys2Proof

/-- R22: the 8-bit register names. `reserved` carries the codes 0xDD–0xEE and 0xF4–0xFE. -/
inductive Name where
  | v (n : Fin 128) | s (n : Fin 64) | a (n : Fin 16)
  | zero | lane | qlane | sq | gx | gy | gz | ngx | ngy | ngz | nsq | argsz | ctx
  | reserved (code : BitVec 8)
  | lit
  | latch (k : Fin 4)
  | none
  deriving DecidableEq, Repr

/-- R24: a 9-bit source field: the name and the last-read bit. -/
structure Src where
  name : Name
  last : Bool
  deriving DecidableEq, Repr

/-- R27, R30: the guard fields; `reg = none` is unguarded. -/
structure Guard where
  reg : Name
  bit : BitVec 5
  sense : Bool
  deriving DecidableEq, Repr

/-- R27, R31, R32: the fields of an L, K or X form. `lit` is the K literal, `top` bit 31 of word 0. -/
structure Ops where
  hold : Bool
  top : Bool
  a : Src
  b : Src
  c : Src
  d : Name
  nwb : Bool
  guard : Guard
  lit : Option Word32
  deriving DecidableEq, Repr

/-- R35: a test word. `y` keeps its nine bits, since `bset` and `bclr` read a bit number there. -/
structure TestWord where
  top : Byte
  y : BitVec 9
  x : BitVec 9
  cond : BitVec 6
  deriving DecidableEq, Repr

/-- R35: a leaf word. -/
structure LeafWord where
  field : BitVec 24
  mid : BitVec 5
  kind : BitVec 3
  deriving DecidableEq, Repr

/-- R34–R36: a tree: its header fields, its tests and leaves in ascending heap position, and its operations' words in
order, stem first. -/
structure Tree where
  top : BitVec 16
  stem : BitVec 2
  nodeMask : BitVec 7
  len : BitVec 5
  top1 : BitVec 4
  arcMap : BitVec 28
  /-- Words 2 to LEN − 1. -/
  body : List Word32
  deriving DecidableEq, Repr

/-- R9, R282: privilege levels. -/
inductive Level where
  | user | supervisor | hypervisor
  deriving DecidableEq, Repr

/-- R331: the two host ports. -/
inductive HostPort where
  | h0 | h1
  deriving DecidableEq, Repr

/-- R331: an address as a host reaches it: through one of its ports. -/
structure PortAddr where
  port : HostPort
  addr : Nat
  deriving DecidableEq, Repr

/-- R331, R332: a host function: the physical function (`vf = none`) or a virtual function of a port. -/
structure HostFn where
  port : HostPort
  vf : Option (Fin 16)
  deriving DecidableEq, Repr

/-- R333: what every host command carries besides its own arguments. -/
structure Command where
  fn : HostFn
  tag : BitVec 16
  deriving DecidableEq, Repr

/-- R110, R111: what a peer of a collective brings: its rank, the parameters it compares, its rank list's agreement,
and its source block. Log 57, DESIGN CHOICE. -/
structure Peer where
  rank : Nat
  op : Nat
  red : Nat
  format : Nat
  count : Nat
  length : Nat
  listAgrees : Bool
  source : List Byte
  deriving DecidableEq, Repr

/-- R73, R75–R78, R128: who walks the page tables. -/
inductive Walker where
  | copy (copy : Nat) (piece : Nat)
  /-- An entry of a far context; 0 is the read at CHHEAD. -/
  | far (chain entry : Nat)
  /-- R272, R280: the scheduler: 0 for a grid's trigger word, 1 and 2 for its dependence words. -/
  | grid (grid word : Nat)
  | fetch (squad lane : Nat)
  | spill (squad offset : Nat)
  deriving DecidableEq, Repr

/-- R294: the engine operation that met an internal error. -/
inductive EngineOp where
  | matrix (core : Nat)
  | rowStats (core : Nat)
  | clause (cluster : Nat)
  | nearCopy (copy : Nat)
  deriving DecidableEq, Repr

/-- R301: what is restored: a squad to its group's core, or a group to a core of its span's die. -/
inductive Restore where
  | squad (squad : Nat)
  | group (group core : Nat)
  deriving DecidableEq, Repr

/-- R20 and the whole of spec/opcode_table.json: the 249 instruction rows, each with the fields of its words, and the
80 event rows, each with what the outside world or the engine's own timing chooses about it. -/
inductive Instr where
  /-- NOP (R43). Does nothing; may be guarded and carry HOLD. -/
  | nop (o : Ops)
  /-- MOV (R177). Copies the one source in A or B to D, or follows R169 for an affine destination. -/
  | mov (o : Ops)
  /-- MOV_S (R26). S-form register move, the same as L-form mov with B absent. -/
  | movS (d a : Name)
  /-- MOV_SI (R26). S-form move of a sign-extended 16-bit immediate built from A and B. -/
  | movSi (d : Name) (imm : BitVec 16)
  /-- ADD (R177). D := a + b modulo 2^W, or the affine sum of R169. -/
  | add (o : Ops)
  /-- ADD_S (R26). S-form register add. -/
  | addS (d a b : Name)
  /-- ADD_SI (R26). S-form add of a signed 8-bit immediate. -/
  | addSi (d a : Name) (imm : Byte)
  /-- SUB (R177). D := a − b modulo 2^W, or the affine difference of R169. -/
  | sub (o : Ops)
  /-- SUB_S (R26). S-form register subtract. -/
  | subS (d a b : Name)
  /-- MUL (R177). D := low W bits of a × b, or affine × uniform by R169. -/
  | mul (o : Ops)
  /-- MUL_S (R26). S-form register multiply. -/
  | mulS (d a b : Name)
  /-- MULHI (R177). D := high W bits of the signed 2W-bit product. -/
  | mulhi (o : Ops)
  /-- MULHI_U (R177). D := high W bits of the unsigned product. -/
  | mulhiU (o : Ops)
  /-- MAD (R177). D := low W bits of a × b + c. -/
  | mad (o : Ops)
  /-- MIN (R177). D := signed minimum of a and b. -/
  | min (o : Ops)
  /-- MIN_S (R26). S-form signed minimum. -/
  | minS (d a b : Name)
  /-- MAX (R177). D := signed maximum of a and b. -/
  | max (o : Ops)
  /-- MAX_S (R26). S-form signed maximum. -/
  | maxS (d a b : Name)
  /-- MIN_U (R177). D := unsigned minimum. -/
  | minU (o : Ops)
  /-- MAX_U (R177). D := unsigned maximum. -/
  | maxU (o : Ops)
  /-- ABS (R177). D := signed absolute value of a. -/
  | abs (o : Ops)
  /-- NEG (R177). D := −a. -/
  | neg (o : Ops)
  /-- AND (R177). D := a and b. -/
  | and (o : Ops)
  /-- AND_S (R26). S-form register and. -/
  | andS (d a b : Name)
  /-- AND_SI (R26). S-form and with a zero-extended 8-bit immediate. -/
  | andSi (d a : Name) (imm : Byte)
  /-- OR (R177). D := a or b. -/
  | or (o : Ops)
  /-- OR_S (R26). S-form register or. -/
  | orS (d a b : Name)
  /-- OR_SI (R26). S-form or with a zero-extended 8-bit immediate. -/
  | orSi (d a : Name) (imm : Byte)
  /-- XOR (R177). D := a xor b. -/
  | xor (o : Ops)
  /-- XOR_S (R26). S-form register xor. -/
  | xorS (d a b : Name)
  /-- XOR_SI (R26). S-form xor with a zero-extended 8-bit immediate. -/
  | xorSi (d a : Name) (imm : Byte)
  /-- NOT (R177). D := not a. -/
  | not (o : Ops)
  /-- ANDN (R177). D := a and not b. -/
  | andn (o : Ops)
  /-- SHL (R177). D := a shifted left by b, 0 for b ≥ W, or affine by R169. -/
  | shl (o : Ops)
  /-- SHL_S (R26). S-form register shift left. -/
  | shlS (d a b : Name)
  /-- SHL_SI (R26). S-form shift left by an unsigned 8-bit immediate. -/
  | shlSi (d a : Name) (imm : Byte)
  /-- SHR (R177). D := a logically shifted right by b. -/
  | shr (o : Ops)
  /-- SHR_S (R26). S-form register logical shift right. -/
  | shrS (d a b : Name)
  /-- SHR_SI (R26). S-form logical shift right by an immediate. -/
  | shrSi (d a : Name) (imm : Byte)
  /-- SRA (R177). D := a arithmetically shifted right by b. -/
  | sra (o : Ops)
  /-- SRA_S (R26). S-form register arithmetic shift right. -/
  | sraS (d a b : Name)
  /-- SRA_SI (R26). S-form arithmetic shift right by an immediate. -/
  | sraSi (d a : Name) (imm : Byte)
  /-- ROTL (R177). D := a rotated left by b mod W. -/
  | rotl (o : Ops)
  /-- CLZ (R177). D := count of leading zero bits of a. -/
  | clz (o : Ops)
  /-- POPC (R177). D := count of set bits of a. -/
  | popc (o : Ops)
  /-- BREV (R177). D := a with its bits reversed. -/
  | brev (o : Ops)
  /-- BFE (R178). Extracts a bit field of a, zero-extended. -/
  | bfe (o : Ops)
  /-- BFE_S (R178). Extracts a bit field of a, sign-extended. -/
  | bfeS (o : Ops)
  /-- BFI (R178). Inserts low bits of a into a field of c. -/
  | bfi (o : Ops)
  /-- SEL (R177). D := a if bit 0 of c is 1, else b. -/
  | sel (o : Ops)
  /-- SETB_EQ (R179). Sets bit n of D to a = b. -/
  | setbEq (o : Ops)
  /-- SETB_NE (R179). Sets bit n of D to a ≠ b. -/
  | setbNe (o : Ops)
  /-- SETB_LT (R179). Sets bit n of D to signed a < b. -/
  | setbLt (o : Ops)
  /-- SETB_LE (R179). Sets bit n of D to signed a ≤ b. -/
  | setbLe (o : Ops)
  /-- SETB_GT (R179). Sets bit n of D to signed a > b. -/
  | setbGt (o : Ops)
  /-- SETB_GE (R179). Sets bit n of D to signed a ≥ b. -/
  | setbGe (o : Ops)
  /-- SETB_LTU (R179). Sets bit n of D to unsigned a < b. -/
  | setbLtu (o : Ops)
  /-- SETB_LEU (R179). Sets bit n of D to unsigned a ≤ b. -/
  | setbLeu (o : Ops)
  /-- SETB_GTU (R179). Sets bit n of D to unsigned a > b. -/
  | setbGtu (o : Ops)
  /-- SETB_GEU (R179). Sets bit n of D to unsigned a ≥ b. -/
  | setbGeu (o : Ops)
  /-- ADD_W (R180). 64-bit add into a varying register pair. -/
  | addW (o : Ops)
  /-- SUB_W (R180). 64-bit subtract into a varying register pair. -/
  | subW (o : Ops)
  /-- MUL_WIDE (R180). Exact signed 32×32 product into a varying pair. -/
  | mulWide (o : Ops)
  /-- SEXT (R180). Sign-extends the low n bits of a. -/
  | sext (o : Ops)
  /-- ZEXT (R180). Zero-extends the low n bits of a. -/
  | zext (o : Ops)
  /-- PROM (R181). Widens a uniform or affine value to an affine or varying register. -/
  | prom (o : Ops)
  /-- RDLANE (R182). Reads one lane's value of A into a uniform register. -/
  | rdlane (o : Ops)
  /-- WRLANE (R182). Writes a uniform value into one lane of a varying register. -/
  | wrlane (o : Ops)
  /-- RED_ADD (R183). Sum reduction over the bundle's contributing lanes. -/
  | redAdd (o : Ops)
  /-- RED_MIN (R183). Signed minimum reduction. -/
  | redMin (o : Ops)
  /-- RED_MAX (R183). Signed maximum reduction. -/
  | redMax (o : Ops)
  /-- RED_MIN_U (R183). Unsigned minimum reduction. -/
  | redMinU (o : Ops)
  /-- RED_AND (R183). Bitwise and reduction. -/
  | redAnd (o : Ops)
  /-- RED_OR (R183). Bitwise or reduction. -/
  | redOr (o : Ops)
  /-- RED_XOR (R183). Bitwise xor reduction. -/
  | redXor (o : Ops)
  /-- BALLOT (R184). Forms the lane mask of a tested bit of A. -/
  | ballot (o : Ops)
  /-- MATCH (R184). Gives each lane the mask of lanes with an equal A. -/
  | matchLanes (o : Ops)
  /-- ACTMASK (R184). Gives the mask of contributing lanes. -/
  | actmask (o : Ops)
  /-- TOAFF (R185). Narrows a varying value to an affine register, or raises NotAffine. -/
  | toaff (o : Ops)
  /-- QSWP (R186). Reads A from a partner lane of the quad by mode. -/
  | qswp (o : Ops)
  /-- QBC (R186). Broadcasts A from one lane of each quad. -/
  | qbc (o : Ops)
  /-- SHFL_IDX (R187). Shuffle from an indexed lane of the bundle. -/
  | shflIdx (o : Ops)
  /-- SHFL_UP (R187). Shuffle from lane L − b. -/
  | shflUp (o : Ops)
  /-- SHFL_DOWN (R187). Shuffle from lane L + b. -/
  | shflDown (o : Ops)
  /-- SHFL_XOR (R187). Shuffle from lane L xor b. -/
  | shflXor (o : Ops)
  /-- MPFX (R184). Counts set mask bits below each lane. -/
  | mpfx (o : Ops)
  /-- FADD (R193). FP32 addition rounded under FCTL.RM. -/
  | fadd (o : Ops)
  /-- FADD_S (R26). S-form FP32 addition. -/
  | faddS (d a b : Name)
  /-- FSUB (R193). FP32 subtraction. -/
  | fsub (o : Ops)
  /-- FSUB_S (R26). S-form FP32 subtraction. -/
  | fsubS (d a b : Name)
  /-- FMUL (R193). FP32 multiplication. -/
  | fmul (o : Ops)
  /-- FMUL_S (R26). S-form FP32 multiplication. -/
  | fmulS (d a b : Name)
  /-- FFMA (R193). Fused multiply-add with one rounding. -/
  | ffma (o : Ops)
  /-- FMIN (R194). FP32 minimum with NaN handling. -/
  | fmin (o : Ops)
  /-- FMAX (R194). FP32 maximum with NaN handling. -/
  | fmax (o : Ops)
  /-- FABS (R195). Clears bit 31 of a. -/
  | fabs (o : Ops)
  /-- FNEG (R195). Inverts bit 31 of a. -/
  | fneg (o : Ops)
  /-- FSETB_EQ (R196). Sets bit n of D to FP32 a = b. -/
  | fsetbEq (o : Ops)
  /-- FSETB_NE (R196). Sets bit n of D to FP32 a ≠ b or NaN. -/
  | fsetbNe (o : Ops)
  /-- FSETB_LT (R196). Sets bit n of D to ordered a < b. -/
  | fsetbLt (o : Ops)
  /-- FSETB_LE (R196). Sets bit n of D to ordered a ≤ b. -/
  | fsetbLe (o : Ops)
  /-- FSETB_GT (R196). Sets bit n of D to ordered a > b. -/
  | fsetbGt (o : Ops)
  /-- FSETB_GE (R196). Sets bit n of D to ordered a ≥ b. -/
  | fsetbGe (o : Ops)
  /-- FSETB_UN (R196). Sets bit n of D when either operand is NaN. -/
  | fsetbUn (o : Ops)
  /-- FRND_RN (R197). Rounds to an integral FP32 value, nearest-even. -/
  | frndRn (o : Ops)
  /-- FRND_RZ (R197). Rounds to an integral value toward zero. -/
  | frndRz (o : Ops)
  /-- FRND_RD (R197). Rounds to an integral value downward. -/
  | frndRd (o : Ops)
  /-- FRND_RU (R197). Rounds to an integral value upward. -/
  | frndRu (o : Ops)
  /-- FCVT (R198). Performs the format conversion named by its code. -/
  | fcvt (o : Ops)
  /-- F2I (R199). Converts FP32 to INT32 in a named mode with saturation. -/
  | f2i (o : Ops)
  /-- F2U (R199). Converts FP32 to UINT32 in a named mode with saturation. -/
  | f2u (o : Ops)
  /-- I2F (R200). Converts INT32 to FP32 under FCTL.RM. -/
  | i2f (o : Ops)
  /-- U2F (R200). Converts UINT32 to FP32 under FCTL.RM. -/
  | u2f (o : Ops)
  /-- HADD2 (R201). Packed FP16 addition. -/
  | hadd2 (o : Ops)
  /-- HMUL2 (R201). Packed FP16 multiplication. -/
  | hmul2 (o : Ops)
  /-- HFMA2 (R201). Packed FP16 fused multiply-add. -/
  | hfma2 (o : Ops)
  /-- BFADD2 (R201). Packed BF16 addition. -/
  | bfadd2 (o : Ops)
  /-- BFMUL2 (R201). Packed BF16 multiplication. -/
  | bfmul2 (o : Ops)
  /-- BFFMA2 (R201). Packed BF16 fused multiply-add. -/
  | bffma2 (o : Ops)
  /-- RCP (R202). Correctly rounded reciprocal. -/
  | rcp (o : Ops)
  /-- RSQ (R202). Reciprocal square root. -/
  | rsq (o : Ops)
  /-- SQRT (R202). Correctly rounded square root. -/
  | sqrt (o : Ops)
  /-- EX2 (R202). Base-2 exponential. -/
  | ex2 (o : Ops)
  /-- LG2 (R202). Base-2 logarithm. -/
  | lg2 (o : Ops)
  /-- SIN (R202). Sine of a in radians. -/
  | sin (o : Ops)
  /-- COS (R202). Cosine of a in radians. -/
  | cos (o : Ops)
  /-- TANH (R202). Hyperbolic tangent. -/
  | tanh (o : Ops)
  /-- LDS_B (R120). Loads 1 byte of shared memory, zero-extended. -/
  | ldsB (o : Ops)
  /-- LDS_B_S (R26). S-form byte load from shared memory with an 8-bit offset. -/
  | ldsBS (d a : Name) (imm : Byte)
  /-- LDS_H (R120). Loads 2 bytes of shared memory. -/
  | ldsH (o : Ops)
  /-- LDS_W (R120). Loads 4 bytes of shared memory. -/
  | ldsW (o : Ops)
  /-- LDS_W_S (R26). S-form word load from shared memory with a scaled offset. -/
  | ldsWS (d a : Name) (imm : Byte)
  /-- LDS_D (R120). Loads 8 bytes of shared memory. -/
  | ldsD (o : Ops)
  /-- LDS_Q (R120). Loads 16 bytes of shared memory into four registers. -/
  | ldsQ (o : Ops)
  /-- STS_B (R120). Stores 1 byte to shared memory. -/
  | stsB (o : Ops)
  /-- STS_H (R120). Stores 2 bytes to shared memory. -/
  | stsH (o : Ops)
  /-- STS_W (R120). Stores 4 bytes to shared memory. -/
  | stsW (o : Ops)
  /-- STS_W_S (R26). S-form word store to shared memory with a scaled offset. -/
  | stsWS (a : Name) (imm : Byte) (c : Name)
  /-- STS_D (R120). Stores 8 bytes to shared memory. -/
  | stsD (o : Ops)
  /-- STS_Q (R120). Stores 16 bytes to shared memory. -/
  | stsQ (o : Ops)
  /-- LDP_W (R120). Loads 4 bytes of scratchpad. -/
  | ldpW (o : Ops)
  /-- LDP_W_S (R26). S-form word load from the scratchpad. -/
  | ldpWS (d a : Name) (imm : Byte)
  /-- LDP_D (R120). Loads 8 bytes of scratchpad. -/
  | ldpD (o : Ops)
  /-- LDP_Q (R120). Loads 16 bytes of scratchpad. -/
  | ldpQ (o : Ops)
  /-- STP_W (R120). Stores 4 bytes to scratchpad. -/
  | stpW (o : Ops)
  /-- STP_D (R120). Stores 8 bytes to scratchpad. -/
  | stpD (o : Ops)
  /-- STP_Q (R120). Stores 16 bytes to scratchpad. -/
  | stpQ (o : Ops)
  /-- LDK (R126). Loads 8 bytes from the squad's spill stack. -/
  | ldk (o : Ops)
  /-- STK (R126). Stores 8 bytes to the squad's spill stack. -/
  | stk (o : Ops)
  /-- LDS_ACQ (R122). Acquire load of a shared word at group scope. -/
  | ldsAcq (o : Ops)
  /-- STS_REL (R122). Release store of a shared word at group scope. -/
  | stsRel (o : Ops)
  /-- LDP_ACQ (R122). Acquire load of a scratchpad word at span scope. -/
  | ldpAcq (o : Ops)
  /-- STP_REL (R122). Release store of a scratchpad word at span scope. -/
  | stpRel (o : Ops)
  /-- ATOMS_ADD (R123). Atomic add on a shared word. -/
  | atomsAdd (o : Ops)
  /-- ATOMS_MIN (R123). Atomic signed minimum on a shared word. -/
  | atomsMin (o : Ops)
  /-- ATOMS_MAX (R123). Atomic signed maximum on a shared word. -/
  | atomsMax (o : Ops)
  /-- ATOMS_MIN_U (R123). Atomic unsigned minimum on a shared word. -/
  | atomsMinU (o : Ops)
  /-- ATOMS_MAX_U (R123). Atomic unsigned maximum on a shared word. -/
  | atomsMaxU (o : Ops)
  /-- ATOMS_AND (R123). Atomic and on a shared word. -/
  | atomsAnd (o : Ops)
  /-- ATOMS_OR (R123). Atomic or on a shared word. -/
  | atomsOr (o : Ops)
  /-- ATOMS_XOR (R123). Atomic xor on a shared word. -/
  | atomsXor (o : Ops)
  /-- ATOMS_EXCH (R123). Atomic exchange on a shared word. -/
  | atomsExch (o : Ops)
  /-- ATOMS_CAS (R123). Atomic compare-and-swap on a shared word. -/
  | atomsCas (o : Ops)
  /-- ATOMP_ADD (R123). Atomic add on a scratchpad word. -/
  | atompAdd (o : Ops)
  /-- ATOMP_MIN (R123). Atomic signed minimum on a scratchpad word. -/
  | atompMin (o : Ops)
  /-- ATOMP_MAX (R123). Atomic signed maximum on a scratchpad word. -/
  | atompMax (o : Ops)
  /-- ATOMP_MIN_U (R123). Atomic unsigned minimum on a scratchpad word. -/
  | atompMinU (o : Ops)
  /-- ATOMP_MAX_U (R123). Atomic unsigned maximum on a scratchpad word. -/
  | atompMaxU (o : Ops)
  /-- ATOMP_AND (R123). Atomic and on a scratchpad word. -/
  | atompAnd (o : Ops)
  /-- ATOMP_OR (R123). Atomic or on a scratchpad word. -/
  | atompOr (o : Ops)
  /-- ATOMP_XOR (R123). Atomic xor on a scratchpad word. -/
  | atompXor (o : Ops)
  /-- ATOMP_EXCH (R123). Atomic exchange on a scratchpad word. -/
  | atompExch (o : Ops)
  /-- ATOMP_CAS (R123). Atomic compare-and-swap on a scratchpad word. -/
  | atompCas (o : Ops)
  /-- FENCE (R129). Orders the lane's accesses at a scope and acts as release and acquire. -/
  | fence (o : Ops)
  /-- BAR_INIT (R134). Sets a barrier's arrival count. -/
  | barInit (o : Ops)
  /-- BAR_ARV (R135). Marks lanes arrived at a barrier without waiting. -/
  | barArv (o : Ops)
  /-- BAR_WAIT (R135). Holds lanes until the squad's pending phase completes. -/
  | barWait (o : Ops)
  /-- BAR_SYNC (R135). Arrives at a barrier and holds until the phase completes. -/
  | barSync (o : Ops)
  /-- BAR_GLIDE (R139). Arrives at a barrier and may continue speculatively behind a checkpoint. -/
  | barGlide (o : Ops)
  /-- SPAN_SYNC (R137). Arrives at the span barrier and holds until every live lane of the span arrives. -/
  | spanSync (o : Ops)
  /-- SW_ARM (R103). Arms a sync word with a target, reading its generation. -/
  | swArm (o : Ops)
  /-- SW_WAIT (R104). Waits until a sync word's generation changes or FAULT is set. -/
  | swWait (o : Ops)
  /-- WAITC (R99). Waits until a class counter falls to a bound, reporting held faults. -/
  | waitc (o : Ops)
  /-- WAITL (R100). Waits until a landing register reads zero. -/
  | waitl (o : Ops)
  /-- BRA (R213). Branches active lanes to a relative target. -/
  | bra (o : Ops)
  /-- BRX (R213). Branches active lanes to a register target. -/
  | brx (o : Ops)
  /-- CALL (R214). Branches to a relative target and writes a link. -/
  | call (o : Ops)
  /-- CALX (R214). Branches to a register target and writes a link. -/
  | calx (o : Ops)
  /-- RET (R214). Continues lanes at the address in a link register. -/
  | ret (o : Ops)
  /-- EXIT (R215). Ends active lanes, waiting for outstanding work when the squad's last lanes exit. -/
  | exit (o : Ops)
  /-- MEET (R216). Sets each lane's meeting address and participation mask. -/
  | meet (o : Ops)
  /-- YIELD (R220). Lowers the issue priority of active lanes for 64 cycles. -/
  | yield (o : Ops)
  /-- TRAP (R221). Raises SoftTrap with a code for active lanes. -/
  | trap (o : Ops)
  /-- ERET (R291). Returns handler lanes to the frame's resume PC and clears the busy bit. -/
  | eret (o : Ops)
  /-- SVC (R221). Raises a supervisor call to STVEC. -/
  | svc (o : Ops)
  /-- IDEM_BEGIN (R222). Enters an idempotent region, recording entry state. -/
  | idemBegin (o : Ops)
  /-- IDEM_END (R222). Leaves an idempotent region. -/
  | idemEnd (o : Ops)
  /-- TRIG (R224). Sets the squad's trigger bit for early release of dependents. -/
  | trig (o : Ops)
  /-- BRK (R221). Raises Breakpoint with a code. -/
  | brk (o : Ops)
  /-- SYSR (R284). Reads a system register into a uniform register. -/
  | sysr (o : Ops)
  /-- SYSW (R284). Writes a system register that has no behaviour row of its own. -/
  | sysw (o : Ops)
  /-- TIME (R329). Reads guest time, never falling. -/
  | time (o : Ops)
  /-- ICINV (R84). Invalidates instruction cache lines and firn entries of a range. -/
  | icinv (o : Ops)
  /-- TLBINV (R82). Invalidates translations, optionally entering a frame into the moraine. -/
  | tlbinv (o : Ops)
  /-- KEY_LOAD (R323). Loads a key blob into a key slot and zeroes the blob. -/
  | keyLoad (o : Ops)
  /-- KEY_BIND (R324). Binds a key slot to a partition. -/
  | keyBind (o : Ops)
  /-- SCRUB (R325). Starts whiteout of a partition by ending its contexts and halting its far contexts. -/
  | scrub (o : Ops)
  /-- RWATCH_SET_RANGE (R327). Sets a watched physical range of a partition. -/
  | rwatchSetRange (o : Ops)
  /-- PART_MAKE (R320). Moves a record's resources from the root to a free slot, making it BUILDING. -/
  | partMake (o : Ops)
  /-- PART_GIVE (R320). Binds or unbinds a host function to a slot or slice group. -/
  | partGive (o : Ops)
  /-- PART_SLICE (R320). Forms a time-sliced group of building slots. -/
  | partSlice (o : Ops)
  /-- PART_SEAL (R320). Seals a building slot and returns its configuration digest. -/
  | partSeal (o : Ops)
  /-- PART_DROP (R320). Returns a slot's resources to the root and frees it. -/
  | partDrop (o : Ops)
  /-- MGSEM_READ (R330). Reads the management semaphore. -/
  | mgsemRead (o : Ops)
  /-- TREE (R207). Runs each lane down its own path of tests and arc operations, commits and dispatches by leaf. -/
  | tree (t : Tree)
  /-- CP (R91). Posts a near copy between two tensor records. -/
  | cp (o : Ops)
  /-- CP_GAT (R91). Posts a gathering near copy driven by an index list. -/
  | cpGat (o : Ops)
  /-- CP_SCT (R91). Posts a scattering near copy driven by an index list. -/
  | cpSct (o : Ops)
  /-- TID_SET (R89). Loads a tensor record from shared memory into the table. -/
  | tidSet (o : Ops)
  /-- TID_GET (R90). Reads 8 bytes of a tensor record. -/
  | tidGet (o : Ops)
  /-- MX_MMA (R234). Posts a matrix multiply-accumulate into a tile. -/
  | mxMma (o : Ops)
  /-- MX_PAIR (R234). Posts a paired multiply-accumulate across a twin. -/
  | mxPair (o : Ops)
  /-- MX_ZERO (R237). Posts zeroing of a tile. -/
  | mxZero (o : Ops)
  /-- MX_LDACC (R238). Posts a load of FP32 values into a tile. -/
  | mxLdacc (o : Ops)
  /-- MX_DRAIN (R239). Posts scaling, rounding and storing of a tile to a record. -/
  | mxDrain (o : Ops)
  /-- MX_BURST (R240). Starts and holds the array's ramp-up for announced work. -/
  | mxBurst (o : Ops)
  /-- RS_ROW (R241). Posts row maximum, sum and sum of squares of a tile half. -/
  | rsRow (o : Ops)
  /-- CLA_CLR (R254). Configures and clears the clause array. -/
  | claClr (o : Ops)
  /-- CLA_LDC (R255). Loads a literal list into a clause column. -/
  | claLdc (o : Ops)
  /-- CLA_DEC (R256). Opens a decision level and assigns a literal. -/
  | claDec (o : Ops)
  /-- CLA_PROP (R257). Runs unit-propagation rounds until quiet or conflict. -/
  | claProp (o : Ops)
  /-- CLA_BACK (R258). Backtracks to a level, clearing CONF. -/
  | claBack (o : Ops)
  /-- CLA_TRL (R259). Replies with the row record at a trail position. -/
  | claTrl (o : Ops)
  /-- CLA_CFL (R259). Replies with one literal of a column. -/
  | claCfl (o : Ops)
  /-- CLA_VAL (R259). Replies with the row record of a variable. -/
  | claVal (o : Ops)
  /-- CLA_LVL (R259). Replies with LEVEL and trail length. -/
  | claLvl (o : Ops)
  /-- CLA_STAT (R260). Replies with CONF, CCOL, V and C. -/
  | claStat (o : Ops)
  /-- CHN_ADV (R109). Advances a far chain's PEND count as a device-scope release. -/
  | chnAdv (o : Ops)
  /-- CHN_SEQ (R109). Reads a chain's LATEST value. -/
  | chnSeq (o : Ops)
  /-- CHN_WAIT (R109). Waits until a chain's LATEST reaches a value. -/
  | chnWait (o : Ops)
  /-- SETPERF (R313). Sets the squad's performance level request. -/
  | setperf (o : Ops)
  /-- CHCTL_WRITE (R105). Write to CHCTL setting RUN and WEIGHT, where writing 1 to HALTED clears it and resumes the context at CHHEAD. -/
  | chctlWrite (o : Ops)
  /-- KEY_UNBIND (R324). Unbinds a key slot, stamping it against reload. -/
  | keyUnbind (o : Ops)
  /-- RWATCH_CLEAR_RANGE (R327). Clears a watched range. -/
  | rwatchClearRange (o : Ops)
  /-- RWATCH_SET_RING (R327). Sets the log ring. -/
  | rwatchSetRing (o : Ops)
  /-- RWATCH_WRITE_HEAD (R328). Writes a signed log head to shared memory. -/
  | rwatchWriteHead (o : Ops)
  /-- MGSEM_ACQUIRE (R330). Acquires the management semaphore for the device if free or expired. -/
  | mgsemAcquire (o : Ops)
  /-- MGSEM_RENEW (R330). Renews the device's lease of the semaphore. -/
  | mgsemRenew (o : Ops)
  /-- MGSEM_RELEASE (R330). Releases the device's hold of the semaphore. -/
  | mgsemRelease (o : Ops)
  /-- REGROUP_TICK (R15). Every 4 cycles each core re-forms bundles of issuable lanes by program counter. -/
  | regroupTick (core : Nat)
  /-- YIELD_EXPIRE (R220). A lane's 64 cycles under yield pass. -/
  | yieldExpire (squad lane : Nat)
  /-- COPY_START (R95). A queued near copy starts in queue order, finding record faults before any byte moves. -/
  | copyStart (core : Nat)
  /-- COPY_PIECE_LAND (R93). A piece of a copy lands, lowering the landing register and raising the sync word. -/
  | copyPieceLand (copy piece : Nat) (dataOk : Bool)
  /-- PAGE_WALK (R73). A walker finishes a page-table walk with an outcome. -/
  | pageWalk (w : Walker)
  /-- STEWARD_PAGE_SERVICE (R79). In hardware mode the steward answers a page request Retry or Fail. -/
  | stewardPageService (entry : Nat)
  /-- QCOUNT_ADVANCE (R80). QCOUNT moves up one once earlier accesses complete, attempted every 1 µs. -/
  | qcountAdvance
  /-- MATRIX_OP_START (R232). The FIFO head starts once its predecessor completed and its reservation is granted. -/
  | matrixOpStart (core : Nat)
  /-- MATRIX_OP_COMPLETE (R232). A matrix operation completes, writing its results, counting off and arriving on its barrier. -/
  | matrixOpComplete (core : Nat)
  /-- MX_BURST_HOLD_EXPIRE (R240). The burst hold ends after 256 cycles without an operation start. -/
  | mxBurstHoldExpire (core : Nat)
  /-- ARRAY_RAMP_DOWN_END (R244). The 16 ramp-down filler cycles end and the array becomes idle. -/
  | arrayRampDownEnd (core : Nat)
  /-- RS_ROW_COMPLETE (R242). Row statistics complete and write D to D+2 of each lane. -/
  | rsRowComplete (core : Nat)
  /-- CLA_COMMAND_COMPLETE (R251). A clause command finishes, writes its reply and lowers the counter. -/
  | claCommandComplete (cluster : Nat)
  /-- RESERVATION_GRANT (R308). The power arbiter grants the oldest request that fits. -/
  | reservationGrant (cluster : Nat)
  /-- RESERVATION_RETURN (R308). A reservation's units return to the arbiter. -/
  | reservationReturn (cluster request : Nat)
  /-- CHAIN_COPY_ENTRY (R106). A far context fetches an entry at CHHEAD and performs a kind-0 copy. -/
  | chainCopyEntry (chain : Nat)
  /-- CHAIN_FILL_ENTRY (R106). A far context performs a kind-1 fill. -/
  | chainFillEntry (chain : Nat)
  /-- CHAIN_COLLECTIVE_ENTRY (R110). A collective entry compares parameters with its peers and moves data. -/
  | chainCollectiveEntry (chain : Nat) (peers : List Peer)
  /-- CHAIN_GRID_LAUNCH_ENTRY (R268). A kind-3 entry reads its descriptor and arguments and appends a grid to a queue. -/
  | chainGridLaunchEntry (chain : Nat)
  /-- FAR_BEAT (R108). A far engine issues a 64-byte beat by weighted round. -/
  | farBeat (engine : Nat)
  /-- CHAIN_ENTRY_COMPLETE (R107). An entry completes in chain order, writing its completion word, LATEST and PEND. -/
  | chainEntryComplete (chain : Nat)
  /-- COLLECTIVE_PEER_KILL (R111). A participant is killed; peers' entries complete with bit 63 within 2 µs. -/
  | collectivePeerKill (chain rank : Nat)
  /-- FLOE_LINK_FAIL (R337). An uncorrectable Floe link failure acts as a kill for collectives crossing it. -/
  | floeLinkFail (port : Nat)
  /-- GRID_ADMIT (R272). The scheduler admits the highest-priority admissible queue head. -/
  | gridAdmit
  /-- GROUP_PLACE (R275). A group is placed on a fitting core with its launch state. -/
  | groupPlace (grid : Nat) (cores : List Nat)
  /-- GRID_COMPLETE (R281). Every group ended and writes performed; the completion word is written. -/
  | gridComplete (grid : Nat)
  /-- TRAP_ENTRY (R287). A waiting trap event enters its handler once its frame is free. -/
  | trapEntry (squad : Nat)
  /-- ADDRESS_BREAKPOINT (R302). A lane reaches a breakpoint address and raises Breakpoint. -/
  | addressBreakpoint (squad : Nat) (lanes : LaneMask) (k : Nat)
  /-- ENGINE_ERROR (R294). An engine operation meets an uncorrectable error and raises a machine check. -/
  | engineError (op : EngineOp)
  /-- SQUAD_EVICT (R296). A squad is saved and its core slot freed. -/
  | squadEvict (squad : Nat)
  /-- GROUP_EVICT (R299). After its FIFO, clause and shared-window copies finish, a group is saved and freed. -/
  | groupEvict (group : Nat)
  /-- FULL_SAVE_TIMEOUT (R298). A squad not reconverged within 20 µs receives a full save. -/
  | fullSaveTimeout (squad : Nat)
  /-- SQUAD_RESTORE (R301). An evicted squad or group is restored with unchanged state. -/
  | squadRestore (target : Restore)
  /-- GROUP_DISCARD (R300). An idempotent group is discarded after its local work completes. -/
  | groupDiscard (group : Nat)
  /-- GROUP_RESTART (R223). A discarded group restarts at its entry state. -/
  | groupRestart (group core : Nat)
  /-- SLICE_TURN (R320). A quantum expires and the next slice-group member takes the clusters. -/
  | sliceTurn (leader : Nat)
  /-- ISLAND_LEVEL_CHANGE (R310). An island's level changes within 2 µs of its cause. -/
  | islandLevelChange (island : Nat)
  /-- FROST_ENTER (R312). An island at level 0 whose squads have waited 2 µs enters frost. -/
  | frostEnter (island : Nat)
  /-- FROST_EXIT (R312). An island leaves frost 150 ns after a squad becomes ready. -/
  | frostExit (island : Nat)
  /-- PERMAFROST_ENTER (R316). A cluster with all islands frosted for 100 µs enters retention. -/
  | permafrostEnter (cluster : Nat)
  /-- PERMAFROST_EXIT (R316). A cluster leaves permafrost 20 µs after a wake cause and checks retention. -/
  | permafrostExit (cluster : Nat) (passed : Bool)
  /-- POWER_RECLAIM (R314). Lent power is reclaimed within 8 µs of the owner's demand rising. -/
  | powerReclaim (owner : Nat)
  /-- LATENCY_WINDOW (R322). Every 10 µs best-effort request rates halve or double by critical latency; `missed` tells which. -/
  | latencyWindow (missed : Bool)
  /-- LOG_RECORD_CLOSE (R327). At each millisecond open range-log records close and are appended to the ring. -/
  | logRecordClose (slot : Nat)
  /-- WHITEOUT (R325). After QCOUNT moves twice the partition's resources are cleared, keys refreshed and the receipt written. -/
  | whiteout (slot : Nat)
  /-- EVENT_POST (R334). An event is written to a function's event ring when room exists and raises MSI-X. -/
  | eventPost (fn : HostFn)
  /-- POWER_ON (R336). The device tests clusters, assigns spares and awaits firmware. -/
  | powerOn (bad : BitVec 64)
  /-- CONVENTIONAL_RESET (R336). A conventional reset returns the device to awaiting firmware and empties the firn cache. -/
  | conventionalReset
  /-- FIRMWARE_VERIFY_DONE (R336). Image verification ends; the steward starts or BadImage is posted. -/
  | firmwareVerifyDone (expanders : List Nat)
  /-- SLAMIR_TRANSLATE (R339). A translation of a Walfer range finishes and its firn entry becomes valid. -/
  | slamirTranslate (request : Nat)
  /-- LOADFW (R336). Host command to load and verify a firmware image. -/
  | loadfw (c : Command) (addr len : Nat)
  /-- SETMODE (R335). Host command selecting hardware or host-assisted mode for a function. -/
  | setmode (c : Command) (function : Nat) (assisted : Bool)
  /-- PRQANS (R78). Host command answering a page request Retry or Fail. -/
  | prqans (c : Command) (entry : Nat) (fail : Bool)
  /-- ADMIT (R273). Host command admitting or refusing a grid. -/
  | admitAnswer (c : Command) (ctx queue : Nat) (refuse : Bool)
  /-- POWERSET (R333). Host command setting a partition's clip and budget. -/
  | powerset (c : Command) (slot clip budget : Nat)
  /-- XLATE (R339). Host command looking up or translating a Walfer range. -/
  | xlate (c : Command) (ctx start len : Nat)
  /-- XLDONE (R339). Host command offering scheduled bytes for a translation request. -/
  | xldone (c : Command) (request addr : Nat)
  /-- DEBUG_ATTACH (R302). Attaches a debugger to a context. -/
  | debugAttach (c : Command) (ctx : Nat)
  /-- DEBUG_DETACH (R302). Detaches the debugger. -/
  | debugDetach (c : Command) (ctx : Nat)
  /-- DEBUG_HALT (R302). Halts a context's groups at instruction boundaries. -/
  | debugHalt (c : Command) (ctx : Nat)
  /-- DEBUG_RESUME (R304). Resumes a halted group. -/
  | debugResume (c : Command) (ctx : Nat)
  /-- DEBUG_SET_BREAKPOINT (R302). Sets address breakpoint k of a context. -/
  | debugSetBreakpoint (c : Command) (ctx k : Nat) (addr : BitVec 64)
  /-- DEBUG_DUMP (R303). Dumps a halted group's state to host memory. -/
  | debugDump (c : Command) (ctx addr : Nat)
  /-- PAUSE (R333). Host command evicting or discarding every group of a context. -/
  | pause (c : Command) (ctx : Nat)
  /-- PAUSE_RESTORE (R333). Host command restoring a paused context's groups. -/
  | pauseRestore (c : Command) (ctx : Nat) (cores : List Nat)
  /-- FLOEROUTE (R337). Host command setting a Floe route entry. -/
  | floeroute (c : Command) (index fabid device : Nat) (ports : BitVec 12)
  /-- FLOEROUTE_POD (R337). Host command setting the device's own pod number. -/
  | floeroutePod (c : Command) (fabid device : Nat) (ports : BitVec 12)
  /-- COMM (R338). Host command setting up a communicator's rank list. -/
  | comm (c : Command) (comm count addr : Nat)
  /-- HEALTH (R341). Host command writing the health record. -/
  | health (c : Command) (addr : Nat)
  /-- DEMAND_REGISTER (R79). Host command registering a demand-filled range. -/
  | demandRegister (c : Command) (ctx start len key : Nat) (watch : Bool)
  /-- DEMAND_REMOVE (R79). Host command removing a demand-filled range. -/
  | demandRemove (c : Command) (ctx start len : Nat)
  /-- FRAMES (R79). Host command adding frames to the partition's free-frame pool. -/
  | frames (c : Command) (addr count : Nat)
  /-- CTXMAKE (R321). Host command creating a context. -/
  | ctxmake (c : Command) (number : Nat) (level : Level) (ptroot stvec : BitVec 64)
  /-- CTXEND (R321). Host command ending a context. -/
  | ctxend (c : Command) (number : Nat)
  /-- HPSEM_READ (R330). HPSEM write performing the read operation. -/
  | hpsemRead (port : HostPort)
  /-- HPSEM_ACQUIRE (R330). HPSEM write acquiring the semaphore for the port. -/
  | hpsemAcquire (port : HostPort)
  /-- HPSEM_RENEW (R330). HPSEM write renewing the port's lease. -/
  | hpsemRenew (port : HostPort)
  /-- HPSEM_RELEASE (R330). HPSEM write releasing the port's hold. -/
  | hpsemRelease (port : HostPort)
  /-- HOST_MEMORY_ACCESS (R331). A host's CXL.mem read or write reaches the device's LPDDR6 range as an access under R146, returning ciphertext for encrypted frames, counted by QCOUNT, logged as host read or write for watched pages, and waking a permafrost cluster. -/
  | hostMemoryAccess (at_ : PortAddr) (len : Nat) (data : Option (List Byte))
  /-- MANAGEMENT_SEMAPHORE_LEASE_EXPIRY (R330). The remaining lease of the management semaphore counts down to zero, so an acquire by another party then succeeds. -/
  | managementSemaphoreLeaseExpiry
  deriving DecidableEq, Repr

end Sys2Proof
end

