-- ==== Sys2Proof/Decode.lean ====
section
/-!
DEFINITION. The instruction words (R20–R36, R43): names, source fields, the four forms, the opcode maps; `decode`, total on
any bytes and rejecting by name, and `encode`, from the same layouts. What is judged at issue and not here: R23, R28, R30–R32
(defects of a defined opcode's fields, `Machine/Shape.lean`) and R37 (`Machine/Tree.lean`).
-/
namespace Sys2Proof

/-! ### Fields -/

/-- Bits [lo + n − 1 : lo] of a word. -/
def fieldAt (w lo n : Nat) : Nat := w / 2 ^ lo % 2 ^ n

/-- R22: the code of a name. -/
def Name.code : Name → BitVec 8
  | .v n => BitVec.ofNat 8 n.val
  | .s n => BitVec.ofNat 8 (0x80 + n.val)
  | .a n => BitVec.ofNat 8 (0xC0 + n.val)
  | .zero => 0xD0#8 | .lane => 0xD1#8 | .qlane => 0xD2#8 | .sq => 0xD3#8
  | .gx => 0xD4#8 | .gy => 0xD5#8 | .gz => 0xD6#8
  | .ngx => 0xD7#8 | .ngy => 0xD8#8 | .ngz => 0xD9#8
  | .nsq => 0xDA#8 | .argsz => 0xDB#8 | .ctx => 0xDC#8
  | .reserved c => c
  | .lit => 0xEF#8
  | .latch k => BitVec.ofNat 8 (0xF0 + k.val)
  | .none => 0xFF#8

/-- R22: the names at 0xD0 and above. -/
def Name.special (c : Nat) : Name :=
  match c with
  | 0xD0 => .zero | 0xD1 => .lane | 0xD2 => .qlane | 0xD3 => .sq
  | 0xD4 => .gx | 0xD5 => .gy | 0xD6 => .gz
  | 0xD7 => .ngx | 0xD8 => .ngy | 0xD9 => .ngz
  | 0xDA => .nsq | 0xDB => .argsz | 0xDC => .ctx
  | 0xEF => .lit
  | 0xF0 => .latch 0 | 0xF1 => .latch 1 | 0xF2 => .latch 2 | 0xF3 => .latch 3
  | 0xFF => .none
  | c => .reserved (BitVec.ofNat 8 c)

/-- R22: the name of a code, read modulo 256. -/
def Name.ofNat (c : Nat) : Name :=
  let n := c % 256
  if h : n < 0x80 then .v ⟨n, h⟩
  else if h : n < 0xC0 then .s ⟨n - 0x80, by omega⟩
  else if h : n < 0xD0 then .a ⟨n - 0xC0, by omega⟩
  else Name.special n

/-- R22: whether the term is one that a code names: a `reserved` term carries a reserved code. -/
def Name.wellFormed : Name → Bool
  | .reserved c => (0xDD ≤ c.toNat && c.toNat ≤ 0xEE) || (0xF4 ≤ c.toNat && c.toNat ≤ 0xFE)
  | _ => true

/-- R24: a source field as a number below 512. -/
def Src.bits (x : Src) : Nat := x.name.code.toNat + if x.last then 256 else 0

def Src.ofNat (n : Nat) : Src := { name := Name.ofNat n, last := n / 256 % 2 == 1 }

/-- R27: word 0 of an L, K or X form. -/
def Ops.word0 (form op : Nat) (o : Ops) : Word32 :=
  BitVec.ofNat 32 (form + 4 * op + 2 ^ 12 * o.a.bits + 2 ^ 21 * o.b.bits + (if o.hold then 2 ^ 30 else 0)
    + if o.top then 2 ^ 31 else 0)

/-- R27: word 1. -/
def Ops.word1 (o : Ops) : Word32 :=
  BitVec.ofNat 32 (o.c.bits + 2 ^ 9 * o.d.code.toNat + (if o.nwb then 2 ^ 17 else 0) + 2 ^ 18 * o.guard.reg.code.toNat
    + 2 ^ 26 * o.guard.bit.toNat + if o.guard.sense then 2 ^ 31 else 0)

/-- R27, R31: the fields of words 0 and 1, and the literal of a K form. -/
def Ops.ofWords (w0 w1 : Nat) (lit : Option Word32) : Ops :=
  { hold := fieldAt w0 30 1 == 1, top := fieldAt w0 31 1 == 1,
    a := Src.ofNat (fieldAt w0 12 9), b := Src.ofNat (fieldAt w0 21 9), c := Src.ofNat (fieldAt w1 0 9),
    d := Name.ofNat (fieldAt w1 9 8), nwb := fieldAt w1 17 1 == 1,
    guard := { reg := Name.ofNat (fieldAt w1 18 8), bit := BitVec.ofNat 5 (fieldAt w1 26 5), sense := fieldAt w1 31 1 == 1 },
    lit := lit }

/-! ### The opcode maps -/

def lRow00 : List (Nat × (Ops → Instr)) :=
  [(0x000, .nop), (0x001, .mov), (0x002, .add), (0x003, .sub), (0x004, .mul), (0x005, .mulhi), (0x006, .mulhiU), (0x007, .mad), (0x008, .min), (0x009, .max), (0x00A, .minU), (0x00B, .maxU), (0x00C, .abs), (0x00D, .neg), (0x00E, .and), (0x00F, .or)]

def lRow01 : List (Nat × (Ops → Instr)) :=
  [(0x010, .xor), (0x011, .not), (0x012, .andn), (0x013, .shl), (0x014, .shr), (0x015, .sra), (0x016, .rotl), (0x017, .clz), (0x018, .popc), (0x019, .brev), (0x01A, .bfe), (0x01B, .bfeS), (0x01C, .bfi), (0x01D, .sel)]

def lRow02 : List (Nat × (Ops → Instr)) :=
  [(0x020, .setbEq), (0x021, .setbNe), (0x022, .setbLt), (0x023, .setbLe), (0x024, .setbGt), (0x025, .setbGe), (0x026, .setbLtu), (0x027, .setbLeu), (0x028, .setbGtu), (0x029, .setbGeu), (0x02C, .addW), (0x02D, .subW), (0x02E, .mulWide), (0x02F, .sext)]

def lRow03 : List (Nat × (Ops → Instr)) :=
  [(0x030, .zext)]

def lRow04 : List (Nat × (Ops → Instr)) :=
  [(0x040, .prom), (0x041, .rdlane), (0x042, .wrlane), (0x043, .redAdd), (0x044, .redMin), (0x045, .redMax), (0x046, .redMinU), (0x047, .redAnd), (0x048, .redOr), (0x049, .redXor), (0x04A, .ballot), (0x04B, .matchLanes), (0x04C, .actmask), (0x04D, .toaff), (0x04E, .qswp), (0x04F, .qbc)]

def lRow05 : List (Nat × (Ops → Instr)) :=
  [(0x050, .shflIdx), (0x051, .shflUp), (0x052, .shflDown), (0x053, .shflXor), (0x054, .mpfx)]

def lRow08 : List (Nat × (Ops → Instr)) :=
  [(0x080, .fadd), (0x081, .fsub), (0x082, .fmul), (0x083, .ffma), (0x084, .fmin), (0x085, .fmax), (0x086, .fabs), (0x087, .fneg), (0x088, .fsetbEq), (0x089, .fsetbNe), (0x08A, .fsetbLt), (0x08B, .fsetbLe), (0x08C, .fsetbGt), (0x08D, .fsetbGe), (0x08E, .fsetbUn), (0x08F, .frndRn)]

def lRow09 : List (Nat × (Ops → Instr)) :=
  [(0x090, .frndRz), (0x091, .frndRd), (0x092, .frndRu), (0x093, .fcvt), (0x094, .f2i), (0x095, .f2u), (0x096, .i2f), (0x097, .u2f), (0x098, .hadd2), (0x099, .hmul2), (0x09A, .hfma2), (0x09B, .bfadd2), (0x09C, .bfmul2), (0x09D, .bffma2)]

def lRow0A : List (Nat × (Ops → Instr)) :=
  [(0x0A0, .rcp), (0x0A1, .rsq), (0x0A2, .sqrt), (0x0A3, .ex2), (0x0A4, .lg2), (0x0A5, .sin), (0x0A6, .cos), (0x0A7, .tanh)]

def lRow10 : List (Nat × (Ops → Instr)) :=
  [(0x100, .ldsB), (0x101, .ldsH), (0x102, .ldsW), (0x103, .ldsD), (0x104, .ldsQ), (0x105, .stsB), (0x106, .stsH), (0x107, .stsW), (0x108, .stsD), (0x109, .stsQ), (0x10A, .ldpW), (0x10B, .ldpD), (0x10C, .ldpQ), (0x10D, .stpW), (0x10E, .stpD), (0x10F, .stpQ)]

def lRow11 : List (Nat × (Ops → Instr)) :=
  [(0x110, .ldk), (0x111, .stk), (0x112, .ldsAcq), (0x113, .stsRel), (0x114, .ldpAcq), (0x115, .stpRel), (0x118, .atomsAdd), (0x119, .atomsMin), (0x11A, .atomsMax), (0x11B, .atomsMinU), (0x11C, .atomsMaxU), (0x11D, .atomsAnd), (0x11E, .atomsOr), (0x11F, .atomsXor)]

def lRow12 : List (Nat × (Ops → Instr)) :=
  [(0x120, .atomsExch), (0x121, .atomsCas), (0x122, .atompAdd), (0x123, .atompMin), (0x124, .atompMax), (0x125, .atompMinU), (0x126, .atompMaxU), (0x127, .atompAnd), (0x128, .atompOr), (0x129, .atompXor), (0x12A, .atompExch), (0x12B, .atompCas)]

def lRow13 : List (Nat × (Ops → Instr)) :=
  [(0x130, .fence)]

def lRow14 : List (Nat × (Ops → Instr)) :=
  [(0x140, .barInit), (0x141, .barArv), (0x142, .barWait), (0x143, .barSync), (0x144, .barGlide), (0x145, .spanSync), (0x146, .swArm), (0x147, .swWait), (0x148, .waitc), (0x149, .waitl)]

def lRow16 : List (Nat × (Ops → Instr)) :=
  [(0x160, .bra), (0x161, .brx), (0x162, .call), (0x163, .calx), (0x164, .ret), (0x165, .exit), (0x166, .meet), (0x167, .yield), (0x168, .trap), (0x169, .eret), (0x16A, .svc), (0x16B, .idemBegin), (0x16C, .idemEnd), (0x16D, .trig), (0x16E, .brk)]

def lRow20 : List (Nat × (Ops → Instr)) :=
  [(0x200, .sysr), (0x201, .sysw), (0x202, .time), (0x203, .icinv), (0x204, .tlbinv), (0x205, .keyLoad), (0x206, .keyBind), (0x207, .scrub), (0x208, .rwatchSetRange), (0x209, .partMake), (0x20A, .partGive), (0x20B, .partSlice), (0x20C, .partSeal), (0x20D, .partDrop), (0x20E, .mgsemRead)]

/-- R43: the L opcodes. Where several rows of the opcode table share one word, the first row's constructor stands here;
the meanings of all of them read the operand that tells them apart. -/
def lTable : List (Nat × (Ops → Instr)) :=
  lRow00 ++ lRow01 ++ lRow02 ++ lRow03 ++ lRow04 ++ lRow05 ++ lRow08 ++ lRow09 ++ lRow0A ++ lRow10 ++ lRow11 ++ lRow12 ++ lRow13 ++ lRow14 ++ lRow16 ++ lRow20

/-- R33: the X functions, by 8 × OP + engine. -/
def xTable : List (Nat × (Ops → Instr)) :=
  [(0x1C00, .cp), (0x1C30, .cpGat), (0x1C38, .cpSct), (0x1C80, .tidSet), (0x1C88, .tidGet), (0x1C01, .mxMma), (0x1C09, .mxPair), (0x1C11, .mxZero), (0x1C19, .mxLdacc), (0x1C21, .mxDrain), (0x1C29, .mxBurst), (0x1C02, .rsRow), (0x1C03, .claClr), (0x1C13, .claLdc), (0x1C1B, .claDec), (0x1C23, .claProp), (0x1C2B, .claBack), (0x1C33, .claTrl), (0x1C3B, .claCfl), (0x1C43, .claVal), (0x1C4B, .claLvl), (0x1C53, .claStat), (0x1C04, .chnAdv), (0x1C0C, .chnSeq), (0x1C14, .chnWait), (0x1C06, .setperf)]

/-- R26: the S opcodes with two source names. -/
def sTable : List (Nat × (Name → Name → Name → Instr)) :=
  [(0x01, .addS), (0x02, .subS), (0x03, .mulS), (0x04, .andS), (0x05, .orS), (0x06, .xorS), (0x07, .shlS), (0x08, .shrS), (0x09, .sraS), (0x0A, .minS), (0x0B, .maxS), (0x0C, .faddS), (0x0D, .fmulS), (0x0E, .fsubS)]

/-- R26: the S opcodes with an 8-bit immediate and a destination. -/
def sImmTable : List (Nat × (Name → Name → Byte → Instr)) :=
  [(0x10, .addSi), (0x11, .shlSi), (0x12, .andSi), (0x13, .orSi), (0x14, .xorSi), (0x15, .shrSi), (0x16, .sraSi), (0x18, .ldsWS), (0x1A, .ldsBS), (0x1B, .ldpWS)]

/-! ### Decoding -/

/-- Why words are no instruction. -/
inductive DecodeError where
  /-- R44: an undefined OP6, L opcode, X engine or X function. -/
  | undefinedOpcode
  /-- R26: a field of an S form that the opcode does not use and that does not hold 0xFF. -/
  | reservedBits
  /-- The bytes end before the instruction does. -/
  | truncated
  deriving DecidableEq, Repr

/-- R20: the length in words of the instruction whose first word is `w`. Log 9, DEDUCED. -/
def formLength (w : Nat) : Nat :=
  match w % 4 with
  | 0 => 1
  | 1 => 2
  | 2 => 3
  | _ => fieldAt w 2 5

/-- R25, R26: an S form. -/
def decodeS (w : Nat) : Except DecodeError Instr :=
  let op := fieldAt w 2 6
  let d := Name.ofNat (fieldAt w 8 8)
  let a := Name.ofNat (fieldAt w 16 8)
  let bc := fieldAt w 24 8
  if op == 0x00 then if bc == 0xFF then .ok (.movS d a) else .error .reservedBits
  else if op == 0x17 then .ok (.movSi d (BitVec.ofNat 16 (256 * fieldAt w 16 8 + bc)))
  else if op == 0x19 then .ok (.stsWS a (BitVec.ofNat 8 bc) d)
  else match sTable.lookup op with
    | some f => .ok (f d a (Name.ofNat bc))
    | none =>
      match sImmTable.lookup op with
      | some f => .ok (f d a (BitVec.ofNat 8 bc))
      | none => .error .undefinedOpcode

/-- R27, R31, R32: an L, K or X form. -/
def decodeL (w0 w1 : Nat) (lit : Option Word32) : Except DecodeError Instr :=
  let op := fieldAt w0 2 10
  let o := Ops.ofWords w0 w1 lit
  match if op < 0x380 then lTable.lookup op else xTable.lookup (8 * op + fieldAt w1 0 3) with
  | some f => .ok (f o)
  | none => .error .undefinedOpcode

/-- R34: a tree's header and the words after it. -/
def decodeT (w0 w1 : Nat) (body : List Word32) : Instr :=
  .tree
    { top := BitVec.ofNat 16 (fieldAt w0 16 16), stem := BitVec.ofNat 2 (fieldAt w0 14 2),
      nodeMask := BitVec.ofNat 7 (fieldAt w0 7 7), len := BitVec.ofNat 5 (fieldAt w0 2 5),
      top1 := BitVec.ofNat 4 (fieldAt w1 28 4), arcMap := BitVec.ofNat 28 (fieldAt w1 0 28), body := body }

/-- R20: the instruction at the head of a list of words, and the words after it. A tree whose LEN is below 2 still has its
two header words read, since R37 judges it (log 9, DEDUCED). -/
def decodeWords : List Word32 → Except DecodeError (Instr × List Word32)
  | [] => .error .truncated
  | w0 :: rest =>
    match w0.toNat % 4, rest with
    | 0, _ => (decodeS w0.toNat).map (·, rest)
    | 1, w1 :: rest => (decodeL w0.toNat w1.toNat none).map (·, rest)
    | 3, [] => if formLength w0.toNat < 2 then .ok (decodeT w0.toNat 0 [], []) else .error .truncated
    | 2, w1 :: w2 :: rest => (decodeL w0.toNat w1.toNat (some w2)).map (·, rest)
    | 3, w1 :: rest =>
      let n := formLength w0.toNat - 2
      if rest.length < n then .error .truncated
      else .ok (decodeT w0.toNat w1.toNat (rest.take n), rest.drop n)
    | _, _ => .error .truncated

/-- R4: little-endian words of a byte string; bytes short of a word are left. -/
def wordsOfBytes : List Byte → List Word32
  | b0 :: b1 :: b2 :: b3 :: rest =>
    BitVec.ofNat 32 (b0.toNat + 256 * b1.toNat + 65536 * b2.toNat + 16777216 * b3.toNat) :: wordsOfBytes rest
  | _ => []

def bytesOfWord (w : Word32) : List Byte :=
  [BitVec.ofNat 8 w.toNat, BitVec.ofNat 8 (w.toNat / 256), BitVec.ofNat 8 (w.toNat / 65536), BitVec.ofNat 8 (w.toNat / 16777216)]

def bytesOfWords (ws : List Word32) : List Byte := ws.flatMap bytesOfWord

/-- R20: the instruction at the head of any byte string, and the words after it. -/
def decode (bytes : List Byte) : Except DecodeError (Instr × List Word32) := decodeWords (wordsOfBytes bytes)

/-- The longest instruction, in words (R20). -/
def maxWords : Nat := 31

/-- The words of a number whose bit 0 is bit 0 of the first word, up to the longest instruction. -/
def tableWords (nbits w : Nat) : List Word32 :=
  (List.range maxWords).map fun i => BitVec.ofNat 32 (w % 2 ^ nbits / 2 ^ (32 * i))

/-- The instruction the decoder reads from bits numbered as the opcode table numbers them. -/
def decodeTableWord (nbits w : Nat) : Option Instr :=
  match decode (bytesOfWords (tableWords nbits w)) with
  | .ok (i, _) => some i
  | .error _ => none

/-! ### Encoding -/

/-- What stands in an instruction's words. -/
inductive Coded where
  | l (op : Nat) (o : Ops)
  | x (op eng : Nat) (o : Ops)
  | s (op6 : Nat) (b a d : BitVec 8)
  | t (t : Tree)
  /-- An event row of the opcode table: no word names it. -/
  | event
  deriving DecidableEq, Repr

/-- The code of an instruction and the fields that go with it; an event has none. -/
def Instr.coded : Instr → Coded
  | .nop o => .l 0x000 o
  | .mov o => .l 0x001 o
  | .add o => .l 0x002 o
  | .sub o => .l 0x003 o
  | .mul o => .l 0x004 o
  | .mulhi o => .l 0x005 o
  | .mulhiU o => .l 0x006 o
  | .mad o => .l 0x007 o
  | .min o => .l 0x008 o
  | .max o => .l 0x009 o
  | .minU o => .l 0x00A o
  | .maxU o => .l 0x00B o
  | .abs o => .l 0x00C o
  | .neg o => .l 0x00D o
  | .and o => .l 0x00E o
  | .or o => .l 0x00F o
  | .xor o => .l 0x010 o
  | .not o => .l 0x011 o
  | .andn o => .l 0x012 o
  | .shl o => .l 0x013 o
  | .shr o => .l 0x014 o
  | .sra o => .l 0x015 o
  | .rotl o => .l 0x016 o
  | .clz o => .l 0x017 o
  | .popc o => .l 0x018 o
  | .brev o => .l 0x019 o
  | .bfe o => .l 0x01A o
  | .bfeS o => .l 0x01B o
  | .bfi o => .l 0x01C o
  | .sel o => .l 0x01D o
  | .setbEq o => .l 0x020 o
  | .setbNe o => .l 0x021 o
  | .setbLt o => .l 0x022 o
  | .setbLe o => .l 0x023 o
  | .setbGt o => .l 0x024 o
  | .setbGe o => .l 0x025 o
  | .setbLtu o => .l 0x026 o
  | .setbLeu o => .l 0x027 o
  | .setbGtu o => .l 0x028 o
  | .setbGeu o => .l 0x029 o
  | .addW o => .l 0x02C o
  | .subW o => .l 0x02D o
  | .mulWide o => .l 0x02E o
  | .sext o => .l 0x02F o
  | .zext o => .l 0x030 o
  | .prom o => .l 0x040 o
  | .rdlane o => .l 0x041 o
  | .wrlane o => .l 0x042 o
  | .redAdd o => .l 0x043 o
  | .redMin o => .l 0x044 o
  | .redMax o => .l 0x045 o
  | .redMinU o => .l 0x046 o
  | .redAnd o => .l 0x047 o
  | .redOr o => .l 0x048 o
  | .redXor o => .l 0x049 o
  | .ballot o => .l 0x04A o
  | .matchLanes o => .l 0x04B o
  | .actmask o => .l 0x04C o
  | .toaff o => .l 0x04D o
  | .qswp o => .l 0x04E o
  | .qbc o => .l 0x04F o
  | .shflIdx o => .l 0x050 o
  | .shflUp o => .l 0x051 o
  | .shflDown o => .l 0x052 o
  | .shflXor o => .l 0x053 o
  | .mpfx o => .l 0x054 o
  | .fadd o => .l 0x080 o
  | .fsub o => .l 0x081 o
  | .fmul o => .l 0x082 o
  | .ffma o => .l 0x083 o
  | .fmin o => .l 0x084 o
  | .fmax o => .l 0x085 o
  | .fabs o => .l 0x086 o
  | .fneg o => .l 0x087 o
  | .fsetbEq o => .l 0x088 o
  | .fsetbNe o => .l 0x089 o
  | .fsetbLt o => .l 0x08A o
  | .fsetbLe o => .l 0x08B o
  | .fsetbGt o => .l 0x08C o
  | .fsetbGe o => .l 0x08D o
  | .fsetbUn o => .l 0x08E o
  | .frndRn o => .l 0x08F o
  | .frndRz o => .l 0x090 o
  | .frndRd o => .l 0x091 o
  | .frndRu o => .l 0x092 o
  | .fcvt o => .l 0x093 o
  | .f2i o => .l 0x094 o
  | .f2u o => .l 0x095 o
  | .i2f o => .l 0x096 o
  | .u2f o => .l 0x097 o
  | .hadd2 o => .l 0x098 o
  | .hmul2 o => .l 0x099 o
  | .hfma2 o => .l 0x09A o
  | .bfadd2 o => .l 0x09B o
  | .bfmul2 o => .l 0x09C o
  | .bffma2 o => .l 0x09D o
  | .rcp o => .l 0x0A0 o
  | .rsq o => .l 0x0A1 o
  | .sqrt o => .l 0x0A2 o
  | .ex2 o => .l 0x0A3 o
  | .lg2 o => .l 0x0A4 o
  | .sin o => .l 0x0A5 o
  | .cos o => .l 0x0A6 o
  | .tanh o => .l 0x0A7 o
  | .ldsB o => .l 0x100 o
  | .ldsH o => .l 0x101 o
  | .ldsW o => .l 0x102 o
  | .ldsD o => .l 0x103 o
  | .ldsQ o => .l 0x104 o
  | .stsB o => .l 0x105 o
  | .stsH o => .l 0x106 o
  | .stsW o => .l 0x107 o
  | .stsD o => .l 0x108 o
  | .stsQ o => .l 0x109 o
  | .ldpW o => .l 0x10A o
  | .ldpD o => .l 0x10B o
  | .ldpQ o => .l 0x10C o
  | .stpW o => .l 0x10D o
  | .stpD o => .l 0x10E o
  | .stpQ o => .l 0x10F o
  | .ldk o => .l 0x110 o
  | .stk o => .l 0x111 o
  | .ldsAcq o => .l 0x112 o
  | .stsRel o => .l 0x113 o
  | .ldpAcq o => .l 0x114 o
  | .stpRel o => .l 0x115 o
  | .atomsAdd o => .l 0x118 o
  | .atomsMin o => .l 0x119 o
  | .atomsMax o => .l 0x11A o
  | .atomsMinU o => .l 0x11B o
  | .atomsMaxU o => .l 0x11C o
  | .atomsAnd o => .l 0x11D o
  | .atomsOr o => .l 0x11E o
  | .atomsXor o => .l 0x11F o
  | .atomsExch o => .l 0x120 o
  | .atomsCas o => .l 0x121 o
  | .atompAdd o => .l 0x122 o
  | .atompMin o => .l 0x123 o
  | .atompMax o => .l 0x124 o
  | .atompMinU o => .l 0x125 o
  | .atompMaxU o => .l 0x126 o
  | .atompAnd o => .l 0x127 o
  | .atompOr o => .l 0x128 o
  | .atompXor o => .l 0x129 o
  | .atompExch o => .l 0x12A o
  | .atompCas o => .l 0x12B o
  | .fence o => .l 0x130 o
  | .barInit o => .l 0x140 o
  | .barArv o => .l 0x141 o
  | .barWait o => .l 0x142 o
  | .barSync o => .l 0x143 o
  | .barGlide o => .l 0x144 o
  | .spanSync o => .l 0x145 o
  | .swArm o => .l 0x146 o
  | .swWait o => .l 0x147 o
  | .waitc o => .l 0x148 o
  | .waitl o => .l 0x149 o
  | .bra o => .l 0x160 o
  | .brx o => .l 0x161 o
  | .call o => .l 0x162 o
  | .calx o => .l 0x163 o
  | .ret o => .l 0x164 o
  | .exit o => .l 0x165 o
  | .meet o => .l 0x166 o
  | .yield o => .l 0x167 o
  | .trap o => .l 0x168 o
  | .eret o => .l 0x169 o
  | .svc o => .l 0x16A o
  | .idemBegin o => .l 0x16B o
  | .idemEnd o => .l 0x16C o
  | .trig o => .l 0x16D o
  | .brk o => .l 0x16E o
  | .sysr o => .l 0x200 o
  | .sysw o => .l 0x201 o
  | .chctlWrite o => .l 0x201 o
  | .time o => .l 0x202 o
  | .icinv o => .l 0x203 o
  | .tlbinv o => .l 0x204 o
  | .keyLoad o => .l 0x205 o
  | .keyBind o => .l 0x206 o
  | .keyUnbind o => .l 0x206 o
  | .scrub o => .l 0x207 o
  | .rwatchSetRange o => .l 0x208 o
  | .rwatchClearRange o => .l 0x208 o
  | .rwatchSetRing o => .l 0x208 o
  | .rwatchWriteHead o => .l 0x208 o
  | .partMake o => .l 0x209 o
  | .partGive o => .l 0x20A o
  | .partSlice o => .l 0x20B o
  | .partSeal o => .l 0x20C o
  | .partDrop o => .l 0x20D o
  | .mgsemRead o => .l 0x20E o
  | .mgsemAcquire o => .l 0x20E o
  | .mgsemRenew o => .l 0x20E o
  | .mgsemRelease o => .l 0x20E o
  | .cp o => .x 0x380 0 o
  | .cpGat o => .x 0x386 0 o
  | .cpSct o => .x 0x387 0 o
  | .tidSet o => .x 0x390 0 o
  | .tidGet o => .x 0x391 0 o
  | .mxMma o => .x 0x380 1 o
  | .mxPair o => .x 0x381 1 o
  | .mxZero o => .x 0x382 1 o
  | .mxLdacc o => .x 0x383 1 o
  | .mxDrain o => .x 0x384 1 o
  | .mxBurst o => .x 0x385 1 o
  | .rsRow o => .x 0x380 2 o
  | .claClr o => .x 0x380 3 o
  | .claLdc o => .x 0x382 3 o
  | .claDec o => .x 0x383 3 o
  | .claProp o => .x 0x384 3 o
  | .claBack o => .x 0x385 3 o
  | .claTrl o => .x 0x386 3 o
  | .claCfl o => .x 0x387 3 o
  | .claVal o => .x 0x388 3 o
  | .claLvl o => .x 0x389 3 o
  | .claStat o => .x 0x38A 3 o
  | .chnAdv o => .x 0x380 4 o
  | .chnSeq o => .x 0x381 4 o
  | .chnWait o => .x 0x382 4 o
  | .setperf o => .x 0x380 6 o
  | .movS d a => .s 0x00 0xFF#8 a.code d.code
  | .movSi d imm => .s 0x17 (BitVec.ofNat 8 imm.toNat) (BitVec.ofNat 8 (imm.toNat / 256)) d.code
  | .addS d a b => .s 0x01 b.code a.code d.code
  | .subS d a b => .s 0x02 b.code a.code d.code
  | .mulS d a b => .s 0x03 b.code a.code d.code
  | .andS d a b => .s 0x04 b.code a.code d.code
  | .orS d a b => .s 0x05 b.code a.code d.code
  | .xorS d a b => .s 0x06 b.code a.code d.code
  | .shlS d a b => .s 0x07 b.code a.code d.code
  | .shrS d a b => .s 0x08 b.code a.code d.code
  | .sraS d a b => .s 0x09 b.code a.code d.code
  | .minS d a b => .s 0x0A b.code a.code d.code
  | .maxS d a b => .s 0x0B b.code a.code d.code
  | .faddS d a b => .s 0x0C b.code a.code d.code
  | .fmulS d a b => .s 0x0D b.code a.code d.code
  | .fsubS d a b => .s 0x0E b.code a.code d.code
  | .addSi d a imm => .s 0x10 imm a.code d.code
  | .shlSi d a imm => .s 0x11 imm a.code d.code
  | .andSi d a imm => .s 0x12 imm a.code d.code
  | .orSi d a imm => .s 0x13 imm a.code d.code
  | .xorSi d a imm => .s 0x14 imm a.code d.code
  | .shrSi d a imm => .s 0x15 imm a.code d.code
  | .sraSi d a imm => .s 0x16 imm a.code d.code
  | .ldsWS d a imm => .s 0x18 imm a.code d.code
  | .ldsBS d a imm => .s 0x1A imm a.code d.code
  | .ldpWS d a imm => .s 0x1B imm a.code d.code
  | .stsWS a imm c => .s 0x19 imm a.code c.code
  | .tree t => .t t
  | .regroupTick _ => .event
  | .yieldExpire _ _ => .event
  | .copyStart _ => .event
  | .copyPieceLand _ _ _ => .event
  | .pageWalk _ => .event
  | .stewardPageService _ => .event
  | .qcountAdvance => .event
  | .matrixOpStart _ => .event
  | .matrixOpComplete _ => .event
  | .mxBurstHoldExpire _ => .event
  | .arrayRampDownEnd _ => .event
  | .rsRowComplete _ => .event
  | .claCommandComplete _ => .event
  | .reservationGrant _ => .event
  | .reservationReturn _ _ => .event
  | .chainCopyEntry _ => .event
  | .chainFillEntry _ => .event
  | .chainCollectiveEntry _ _ => .event
  | .chainGridLaunchEntry _ => .event
  | .farBeat _ => .event
  | .chainEntryComplete _ => .event
  | .collectivePeerKill _ _ => .event
  | .floeLinkFail _ => .event
  | .gridAdmit => .event
  | .groupPlace _ _ => .event
  | .gridComplete _ => .event
  | .trapEntry _ => .event
  | .addressBreakpoint _ _ _ => .event
  | .engineError _ => .event
  | .squadEvict _ => .event
  | .groupEvict _ => .event
  | .fullSaveTimeout _ => .event
  | .squadRestore _ => .event
  | .groupDiscard _ => .event
  | .groupRestart _ _ => .event
  | .sliceTurn _ => .event
  | .islandLevelChange _ => .event
  | .frostEnter _ => .event
  | .frostExit _ => .event
  | .permafrostEnter _ => .event
  | .permafrostExit _ _ => .event
  | .powerReclaim _ => .event
  | .latencyWindow _ => .event
  | .logRecordClose _ => .event
  | .whiteout _ => .event
  | .eventPost _ => .event
  | .powerOn _ => .event
  | .conventionalReset => .event
  | .firmwareVerifyDone _ => .event
  | .slamirTranslate _ => .event
  | .loadfw _ _ _ => .event
  | .setmode _ _ _ => .event
  | .prqans _ _ _ => .event
  | .admitAnswer _ _ _ _ => .event
  | .powerset _ _ _ _ => .event
  | .xlate _ _ _ _ => .event
  | .xldone _ _ _ => .event
  | .debugAttach _ _ => .event
  | .debugDetach _ _ => .event
  | .debugHalt _ _ => .event
  | .debugResume _ _ => .event
  | .debugSetBreakpoint _ _ _ _ => .event
  | .debugDump _ _ _ => .event
  | .pause _ _ => .event
  | .pauseRestore _ _ _ => .event
  | .floeroute _ _ _ _ _ => .event
  | .floeroutePod _ _ _ _ => .event
  | .comm _ _ _ _ => .event
  | .health _ _ => .event
  | .demandRegister _ _ _ _ _ _ => .event
  | .demandRemove _ _ _ _ => .event
  | .frames _ _ _ => .event
  | .ctxmake _ _ _ _ _ => .event
  | .ctxend _ _ => .event
  | .hpsemRead _ => .event
  | .hpsemAcquire _ => .event
  | .hpsemRenew _ => .event
  | .hpsemRelease _ => .event
  | .hostMemoryAccess _ _ _ => .event
  | .managementSemaphoreLeaseExpiry => .event

/-- The words of an instruction; an event has none. -/
def encode (i : Instr) : List Word32 :=
  match i.coded with
  | .l op o | .x op _ o =>
    match o.lit with
    | none => [o.word0 1 op, o.word1]
    | some w => [o.word0 2 op, o.word1, w]
  | .s op6 b a d => [BitVec.ofNat 32 (4 * op6 + 2 ^ 8 * d.toNat + 2 ^ 16 * a.toNat + 2 ^ 24 * b.toNat)]
  | .t t =>
    BitVec.ofNat 32 (3 + 4 * t.len.toNat + 2 ^ 7 * t.nodeMask.toNat + 2 ^ 14 * t.stem.toNat + 2 ^ 16 * t.top.toNat)
      :: BitVec.ofNat 32 (t.arcMap.toNat + 2 ^ 28 * t.top1.toNat) :: t.body
  | .event => []

/-- The length in bytes of an instruction (R20); 0 for an event. -/
def Instr.bytes (i : Instr) : Nat :=
  match i.coded with
  | .l _ o | .x _ _ o => if o.lit.isSome then 12 else 8
  | .s _ _ _ _ => 4
  | .t t => 4 * t.len.toNat
  | .event => 0

end Sys2Proof
end

