-- ==== Sys2Proof/Machine/State.lean ====
section
/-!
DEFINITION. The state of the device: every piece of state the manual gives it, as plain data, and `State.reset`.
Collections by number are sorted association lists (`Map`); memories are sorted cell lists in one canonical form.
-/
namespace Sys2Proof.Machine

/-- A finite map by number, sorted by key; `Machine/Maps.lean` holds its operations. -/
abbrev Map (V : Type) := List (Nat × V)

/-- Bytes by address, addresses strictly rising, no entry 0 (an unlisted byte reads 0: R112, R113 for the windows, log 1, DESIGN CHOICE
for main memory). -/
abbrev Memory := List Host.Cell

/-! ### Stops -/

/-- Why the machine stops with a fault. -/
inductive Fault where
  /-- HOST_MEMORY_ACCESS: an address outside the LPDDR6 range that R331 exposes to the host. Safe: the model stops. -/
  | hostRange
  deriving DecidableEq, Repr

/-- Why a step has no meaning. -/
inductive Refusal where
  /-- An arm of `exec` not written yet. Safe. -/
  | notModelled (mnemonic : String)
  /-- An event row whose condition the manual sets does not hold: the device never takes that step then. Raised by the event
  rows' meanings. Safe. -/
  | notDue (event : String)
  /-- An instruction is to be performed and no bundle of a resident squad is issuing. Raised by the shared issue operation.
  Safe: the manual has no instruction without a bundle (R15). -/
  | noBundle
  /-- The agenda names lanes that form no bundle that can issue (R15, R277), a register that no function has (R332), or a module cap
  that R314 does not allow. Raised by `step`. Safe. -/
  | badMove
  deriving DecidableEq, Repr

/-! ### Lanes and squads -/

/-- R14, R215. -/
inductive LaneKind where
  | absent | helper | live | exited
  deriving DecidableEq, Repr

/-- R135, R137, R217: where a lane is held. -/
inductive HoldAt where
  | none | meeting | barrier (n : Nat) | spanBarrier
  deriving DecidableEq, Repr

/-- R277, R297, R312: what a lane's bundle waits for. -/
inductive WaitKind where
  | none
  /-- `waitc` on a class (0 is `cp`). -/
  | counter (cls : Nat)
  | landing | syncWord | chain
  /-- A full queue, a counter at its limit, a gliding squad's stall, another instruction in progress. -/
  | post
  /-- R141: an instruction that a gliding squad does not issue. -/
  | glide
  /-- An unanswered page request of a fetch or of a spill-stack access (R76, R128). -/
  | page
  deriving DecidableEq, Repr

/-- R287–R291: the handler a lane runs. `stvecOverTvec` returns to the TVEC handler. -/
inductive Handler where
  | none | tvec | stvec | stvecOverTvec
  deriving DecidableEq, Repr

/-- R38: a latch record: the destination of the last fill, and whether it captured a pair. -/
structure LatchRec where
  name : Name
  pair : Bool
  deriving DecidableEq, Repr

/-- The state of one lane (R13). -/
structure Lane where
  kind : LaneKind
  pc : Word64
  hold : HoldAt
  wait : WaitKind
  parked : Bool
  handler : Handler
  /-- R287, R291: the handler out of which an event took the lane, until it enters its own. -/
  taken : Handler
  /-- R135, R137: the barrier at which an event found the lane held: the hold stands again when the lane returns. -/
  heldAt : HoldAt
  /-- R290: the words of the barrier instruction at which the lane was last held. -/
  barWords : List Word32
  level : Level
  meetAt : Option Word64
  meetMask : LaneMask
  /-- R220: the cycle until which the lane is under `yield`. -/
  yieldUntil : Option Nat
  /-- R349: the scope of the lane's last fence. -/
  fence : Option Nat
  /-- R38: one record per latch. -/
  latchRec : List (Option LatchRec)
  deriving DecidableEq, Repr

/-- R166: a mapped varying name: 32 lane values. -/
structure VReg where
  lanes : List Word32
  spilled : Bool
  deriving DecidableEq, Repr

/-- R166: a mapped uniform name. -/
structure SReg where
  val : Word64
  spilled : Bool
  deriving DecidableEq, Repr

/-- R166: a mapped affine name. -/
structure AReg where
  base : Word64
  stride : Word32
  spilled : Bool
  deriving DecidableEq, Repr

/-- R171: the squad's map: a name that is not listed is unmapped. -/
structure Files where
  v : Map VReg
  s : Map SReg
  a : Map AReg
  deriving DecidableEq, Repr

/-- R38: what a latch holds. -/
inductive LatchVal where
  | varying (lo hi : List Word32)
  | uniform (w : Word64)
  | affine (base : Word64) (stride : Word32)
  deriving DecidableEq, Repr

/-- R38, R41: a latch fill; `pending` while its captured registers stand unwritten. -/
structure Fill where
  name : Name
  pair : Bool
  val : LatchVal
  pending : Bool
  deriving DecidableEq, Repr

/-- R39: the run of an issue slot. -/
structure Run where
  squad : Nat
  lanes : LaneMask
  fills : List (Option Fill)
  deriving DecidableEq, Repr

/-- R155, R165: what a squad, a record or an operation has acquired: squad epochs by squad key, group epochs by group key,
engine operations known complete, and the code releases (R165). -/
structure Clock where
  squads : Map Nat
  groups : Map Nat
  ops : List Nat
  /-- Every engine operation numbered below this counts as known (R157: an acquire from a lost object). -/
  floor : Nat
  /-- R165: the code releases acquired; every one up to `code` counts as acquired too (R157: an acquire from a lost object). -/
  codes : List Nat
  code : Nat
  deriving DecidableEq, Repr

/-- R155, R349: how an access counts. -/
inductive AccessClass where
  | plain | sync | fence (scope : Nat)
  deriving DecidableEq, Repr

/-- R155: one recorded access. -/
structure Access where
  group : Nat
  squad : Nat
  epoch : Nat
  groupEpoch : Nat
  cls : AccessClass
  /-- R153: 0 squad, 1 copy, 2 matrix, 3 row statistics, 4 clause array, 5 far engine or collective. -/
  kind : Nat
  /-- The engine operation, when one made the access. -/
  op : Option Nat
  deriving DecidableEq, Repr

/-- R149, R349: what the fence-published writes to a word publish: the writer's group and squad, the fence's scope, and its clock. -/
structure FencePub where
  group : Nat
  squad : Nat
  scope : Nat
  clock : Clock
  deriving DecidableEq, Repr

/-- R155: a word's tag; `pubs` is what a fence after a load of the word acquires. -/
structure WordTag where
  writer : Option Access
  readers : List Access
  pubs : List FencePub
  deriving DecidableEq, Repr

/-- R153, R161: a race an engine operation met as the second, held until its poster's covering wait. -/
structure RaceReport where
  sub : BitVec 16
  word : Word64
  other : Word32
  deriving DecidableEq, Repr

/-- R94, R98: a copy's fault. -/
structure CopyFault where
  sub : BitVec 16
  addr : Word64
  deriving DecidableEq, Repr

/-- R97: an operation outstanding in a class of the squad, in post order. It stays listed while its class counts it, or
while a fault or a race report of it is held. -/
structure OutOp where
  id : Nat
  /-- 0 `cp`, 1 `mx`, 2 `rs`, 3 `cla`, 4 `chn`. -/
  cls : Nat
  done : Bool
  counted : Bool
  fault : Option CopyFault
  race : Option RaceReport
  /-- R100: the landing register. -/
  landing : Option Nat
  /-- R104: the sync word its post named, and the generations its bytes were counted into. -/
  sync : Option Nat
  gens : List Word32
  /-- R161: the barrier and phase in which the operation arrived. -/
  arrived : Option (Nat × Nat)
  /-- R242, R251: registers written at completion. -/
  replies : List Name
  /-- R149, R232: what its completion releases besides its own accesses. -/
  clock : Clock
  /-- R162: what the values that it read from main memory were released with. -/
  got : Clock
  deriving DecidableEq, Repr

/-- R130: a squad's fields for one barrier. Log 40, DEDUCED. -/
structure SquadBar where
  larr : LaneMask
  pend : Bool
  armed : Bool
  /-- R142: with PEND, the squad's epoch from its arrival on. -/
  since : Nat
  /-- R133: what the arrivals of the completed phases released in which the squad had arrived, until its wait returns. -/
  due : Clock
  deriving DecidableEq, Repr

/-- R139–R143: a glide. -/
structure Glide where
  barrier : Nat
  files : Files
  latchRecs : List (List (Option LatchRec))
  fflags : Word64
  pc : Word64
  /-- Buffered bytes by offset, zeros among them. -/
  buffer : Map Byte
  sectors : List Nat
  reads : List Nat
  liveReads : List Nat
  /-- The lane whose store last wrote each buffered word. -/
  writers : Map Nat
  /-- R140, R173: the names written since, whose registers the checkpoint holds back. -/
  renamed : List Name
  deriving DecidableEq, Repr

/-- R222: an idempotent region. -/
structure Region where
  taint : Bool
  entry : Word64
  lanes : LaneMask
  fctl : Word64
  fflags : Word64
  glideEn : Bool
  deriving DecidableEq, Repr

/-- R286, R287, R290: a trap event, with everything its frame will hold but the level and the flags set at entry. -/
structure TrapEvent where
  cause : BitVec 16
  sub : BitVec 16
  lanes : LaneMask
  pc : Word64
  addr : Word64
  lane : Nat
  level : Nat
  node : Nat
  slot : Nat
  resume : Word64
  words : List Word32
  other : Word32
  /-- `svc` and machine checks go to STVEC (R287). -/
  toStvec : Bool
  /-- Raised by lanes that were running the TVEC handler (R289). -/
  inHandler : Bool
  /-- R302: a Breakpoint event of a group with a debugger attached halts it. -/
  halts : Bool
  /-- R287: the cycle in which it was raised. -/
  raisedAt : Nat
  deriving DecidableEq, Repr

/-- R15, R278: a bundle: its lanes and its age. -/
structure Bundle where
  lanes : LaneMask
  age : Nat
  /-- R277: the cycle of its last issue. -/
  last : Option Nat
  deriving DecidableEq, Repr

/-- R296–R298. -/
inductive Residency where
  | resident
  | evicted (full : Bool)
  deriving DecidableEq, Repr

/-- A squad (R13). Its key in `State.squads` is `squadKey grid group sq`. -/
structure Squad where
  grid : Nat
  group : Nat
  sq : Nat
  /-- The core slot (R277). -/
  slot : Nat
  residency : Residency
  ended : Bool
  lanes : List Lane
  files : Files
  /-- R173: the names by how recently an instruction used them. -/
  recent : List Name
  tvec : Word64
  fctl : Word64
  fflags : Word64
  spBase : Word64
  spSize : Word64
  glideEn : Bool
  glides : Nat
  rolls : Nat
  races : Nat
  misses : Nat
  perfReq : Nat
  frostSeen : Bool
  /-- R287: TBUSY and SBUSY, each with the entry level of its handler. -/
  tBusy : Option Level
  sBusy : Option Level
  events : List TrapEvent
  /-- R287: the events that entered in the cycle in which they were raised, each with whether it went to STVEC. -/
  entered : List (Bool × TrapEvent)
  ops : List OutOp
  bars : List SquadBar
  glide : Option Glide
  region : Option Region
  trig : Bool
  clock : Clock
  /-- R349: the writers' clocks of the fence-published writes read since the last fence, with their scopes. -/
  fenceSeen : List (Nat × Clock)
  /-- R349: the clock and scope that this squad's fence-published writes publish, per lane's last fence. -/
  published : Map Clock
  bundles : List Bundle
  /-- R298: when an eviction was requested and is not yet performed. -/
  evictSince : Option Nat
  /-- R189, R204, R211: cycles for which its last instruction occupied the slot. -/
  cost : Nat
  deriving DecidableEq, Repr

/-! ### Groups, spans, grids -/

/-- R130, R133: a hardware barrier, and what the arrivals of the current phase release. -/
structure Barrier where
  count : Nat
  arrived : Nat
  phase : Nat
  epend : Nat
  joining : Clock
  deriving DecidableEq, Repr

/-- R248: a literal of a clause. -/
structure Lit where
  var : Nat
  neg : Bool
  deriving DecidableEq, Repr

/-- R248: an assigned row; a row that is not listed is U with LEVEL 0, REASON 0, POS 0x7FF. -/
structure ClauseRow where
  val : Bool
  level : Nat
  reason : Nat
  pos : Nat
  deriving DecidableEq, Repr

/-- R248: the clause array: columns by number, each its literals in ascending variable order; rows by variable. -/
structure Clause where
  vars : Nat
  cols : Nat
  columns : Map (List Lit)
  rows : Map ClauseRow
  trail : List Nat
  level : Nat
  conf : Bool
  ccol : Nat
  deriving DecidableEq, Repr

/-- R230: an accumulator tile: FP32 bits at 64 m + n (an unlisted element is +0), and the scale pair. -/
structure Tile where
  elems : Map Word32
  set : Bool
  tsa : Word32
  tsb : Word32
  deriving DecidableEq, Repr

/-- R296: what a group's eviction saves besides the group's own fields. -/
structure SavedGroup where
  tiles : Map Tile
  followerTiles : Map Tile
  clause : Option Clause
  deriving DecidableEq, Repr

/-- R275, R289, R296, R300. -/
inductive GroupStatus where
  | placed | evicted | discarded | ended
  deriving DecidableEq, Repr

/-- A group (R13). Its key in `State.groups` is `groupKey grid g`. -/
structure Group where
  grid : Nat
  g : Nat
  span : Nat
  core : Nat
  shUnit : Nat
  shSize : Nat
  nsq : Nat
  shared : Memory
  tags : Map WordTag
  barriers : List Barrier
  epoch : Nat
  status : GroupStatus
  matrix : Bool
  pair : Bool
  clause : Bool
  halted : Bool
  saved : Option SavedGroup
  deriving DecidableEq, Repr

/-- R113, R137, R150: a span: its scratchpad window, tags, span barrier record, and the clocks gathered for its sync words' current
generations, by offset. -/
structure Span where
  grid : Nat
  index : Nat
  die : Nat
  base : Option Nat
  size : Nat
  mem : Memory
  tags : Map WordTag
  joining : Clock
  arriving : Map Clock
  deriving DecidableEq, Repr

/-- R269: the fields of a launch descriptor. -/
structure LaunchDesc where
  entry : Word64
  spill : Word64
  trig : Word64
  dep0 : Word64
  val0 : Word64
  dep1 : Word64
  val1 : Word64
  ngx : Nat
  ngy : Nat
  ngz : Nat
  shared : Nat
  scratch : Nat
  lanes : Nat
  nsq : Nat
  barriers : Nat
  vregs : Nat
  sregs : Nat
  aregs : Nat
  spanSz : Nat
  spSize : Nat
  matrix : Bool
  pair : Bool
  clause : Bool
  spanSync : Bool
  k1 : Bool
  deriving DecidableEq, Repr

/-- R272, R273, R281. -/
inductive GridStatus where
  | queued
  /-- An admission request stands, or was answered Admit (R273). -/
  | requested | granted
  | admitted | complete | cancelled
  deriving DecidableEq, Repr

/-- A grid (R268–R281). -/
structure Grid where
  ctx : Nat
  chain : Nat
  entryAddr : Word64
  entryId : Nat
  seq : Word64
  queue : Nat
  desc : LaunchDesc
  descAddr : Word64
  args : List Byte
  status : GridStatus
  /-- R272: what its dependence words' writers released with them. -/
  acquired : Clock
  next : Nat
  groupsEnded : Nat
  failed : Bool
  triggered : Bool
  deriving DecidableEq, Repr

/-! ### Contexts and partitions -/

/-- R85: a tensor record. -/
structure TensorRec where
  base : Word64
  space : Byte
  format : Byte
  block : Byte
  layout : Byte
  dim0 : BitVec 16
  dim1 : BitVec 16
  stride : Word32
  scaleOff : Word32
  tscale : Word32
  sync : Word32
  deriving DecidableEq, Repr

/-- R271: a grid queue. -/
structure GridQueue where
  en : Bool
  prio : Nat
  admitted : Nat
  waiting : List Nat
  deriving DecidableEq, Repr

/-- R79: a demand-filled range. -/
structure DemandRange where
  start : Nat
  len : Nat
  key : Nat
  watch : Bool
  deriving DecidableEq, Repr

/-- R282, R283, R321: a context; its key is CTXID = slot × 256 + local number. -/
structure Context where
  level : Level
  ptroot : Word64
  stvec : Word64
  tensors : Map TensorRec
  queues : Map GridQueue
  gqsel : Nat
  toffset : Word64
  frozen : Bool
  lastTime : Nat
  pausedAt : Option Nat
  /-- R333: a pause in progress, and the command that asked for it. -/
  pausing : Option Command
  /-- R321: the context has ended and is gone once QCOUNT has this value. -/
  ending : Option Nat
  energy : Word64
  demand : List DemandRange
  debugger : Option HostFn
  breaks : Map Word64
  deriving DecidableEq, Repr

/-- R318. -/
inductive SlotState where
  | free | building | sealed | white
  deriving DecidableEq, Repr

/-- R327: a watched range or the log ring: physical base and length. -/
structure PhysRange where
  base : Nat
  len : Nat
  deriving DecidableEq, Repr

/-- R327, R328: an open log record. -/
structure OpenRec where
  range : Nat
  ctx : Nat
  kind : Nat
  first : Nat
  last : Nat
  bytes : Nat
  accesses : Nat
  deriving DecidableEq, Repr

/-- R325: a whiteout in progress: who waits, where the receipt goes, and the start values. -/
structure WhiteoutRun where
  squad : Nat
  receipt : Nat
  startQ : Nat
  startNs : Nat
  /-- The time in nanoseconds at which the slot became WHITE. -/
  ended : Option Nat
  /-- R326: the receipt. -/
  bytes : List Byte
  deriving DecidableEq, Repr

/-- R317, R318: a partition slot. -/
structure Partition where
  status : SlotState
  record : List Byte
  clusters : BitVec 64
  channels : BitVec 128
  xshare : List Nat
  floe : BitVec 12
  critical : Bool
  farctx : BitVec 256
  keys : BitVec 64
  power : Nat
  latency : Nat
  fabid : Nat
  digest : BitVec 256
  /-- R320: the leader of its slice group, and for a leader the quantum and the member whose turn it is. -/
  leader : Option Nat
  quantum : Nat
  turn : Nat
  turnSince : Nat
  pool : List Nat
  ranges : Map PhysRange
  ring : Option PhysRange
  openRecs : List OpenRec
  logCount : Nat
  logOverflow : Nat
  /-- R327: the records appended to the ring since it was set. -/
  ringCount : Nat
  logChain : BitVec 256
  clip : Nat
  /-- R322: the request rate is the full rate divided by 2^rate. -/
  rate : Nat
  /-- R314: its demand when power was last lent to it or reclaimed for it. -/
  demandSeen : Nat
  /-- R322: the latencies of the copy reads of main memory completed in the current window, for a critical partition. -/
  latencies : List Nat
  chsel : Nat
  whiteout : Option WhiteoutRun
  deriving DecidableEq, Repr

/-! ### Engines -/

/-- R91. -/
inductive CopyKind where
  | plain | gather | scatter
  deriving DecidableEq, Repr

/-- R80: a piece whose physical accesses have been sent out: the piece, the translations of its pages (virtual page,
physical page, key slot, watch), the QCOUNT value and the time at issue (R322), and the watched ranges then, by partition (R327). -/
structure IssuedPiece where
  piece : Nat
  pages : List (Nat × Nat × Nat × Bool)
  q : Nat
  at_ : Nat
  ranges : Map (Map PhysRange)
  deriving DecidableEq, Repr

/-- R91–R95: a near copy in its core's queue. -/
structure Copy where
  id : Nat
  squad : Nat
  kind : CopyKind
  srcTid : Nat
  dstTid : Nat
  src : TensorRec
  dst : TensorRec
  c0 : Nat
  r0 : Nat
  indexOff : Nat
  index : List Nat
  sync : Bool
  landing : Option Nat
  reserved : Bool
  started : Bool
  landed : List Nat
  /-- R93, R127: the words of the source that were read, by their number, each once. -/
  taken : Map Nat
  issued : List IssuedPiece
  /-- R94: pieces that are known to fault. -/
  broken : List (Nat × CopyFault)
  clock : Clock
  epoch : Nat
  /-- R142: the phase of each barrier whose arrival the poster had made at the post. -/
  arrivedAt : List (Option Nat)
  deriving DecidableEq, Repr

/-- R234–R239. -/
inductive MxKind where
  | mma | pair | zero | ldacc | drain
  deriving DecidableEq, Repr

/-- R231, R232: an entry of a matrix FIFO. -/
structure MxOp where
  id : Nat
  squad : Nat
  kind : MxKind
  tile : Nat
  barrier : Nat
  acc : Bool
  a : TensorRec
  b : TensorRec
  off : Nat
  row : Nat
  reserved : Bool
  started : Bool
  startedAt : Nat
  clock : Clock
  epoch : Nat
  deriving DecidableEq, Repr

/-- R241, R242: a row-statistics operation. -/
structure RsOp where
  id : Nat
  squad : Nat
  d : Nat
  tile : Nat
  half : Bool
  lanes : LaneMask
  /-- R243: the first cycle of its 16, once its tile is available. -/
  startedAt : Option Nat
  deriving DecidableEq, Repr

/-- R244: the array's ramp. -/
inductive ArrayState where
  | idle
  | rampUp (since : Nat)
  | busy
  | rampDown (since : Nat)
  deriving DecidableEq, Repr

/-- R240: an `mx.burst` hold, and when it was set or an operation last started. -/
structure Burst where
  left : Nat
  since : Nat
  deriving DecidableEq, Repr

/-- R157: a sync record: the object's key and the joined clocks; most recently used first. -/
structure SyncRec where
  key : Nat
  clock : Clock
  deriving DecidableEq, Repr

/-- R166, R17: a core. Log 49, DEDUCED. -/
structure Core where
  copies : List Copy
  fifo : List MxOp
  rs : List RsOp
  tiles : Map Tile
  tileOwner : Option Nat
  array : ArrayState
  burst : Option Burst
  sync : List SyncRec
  runs : Map Run
  /-- R232: the completed FIFO operations and what came before them. -/
  fifoClock : Clock
  deriving DecidableEq, Repr

/-- R250, R251: a clause-array command in execution, by its function code: its reply is written at completion. -/
structure ClaRun where
  squad : Nat
  id : Nat
  fn : Nat
  d : Name
  reply : Word64
  cycles : Nat
  deriving DecidableEq, Repr

/-- R308: a current reservation. -/
structure Reservation where
  id : Nat
  /-- 0 matrix, 1 vector pipe, 2 near copy, 3 clause array. -/
  cls : Nat
  owner : Nat
  units : Nat
  granted : Bool
  at_ : Nat
  deriving DecidableEq, Repr

/-- R75, R76: where a cached translation stands. -/
inductive TlbUse where
  | data | fetch
  deriving DecidableEq, Repr

/-- R75: a cached translation, tagged with the context and the page size. -/
structure TlbEntry where
  cluster : Nat
  use : TlbUse
  ctx : Nat
  va : Nat
  size : Nat
  pa : Nat
  r : Bool
  w : Bool
  x : Bool
  key : Nat
  watch : Bool
  deriving DecidableEq, Repr

/-- A cluster: the clause array, the power arbiter, permafrost. -/
structure Cluster where
  clause : Clause
  clauseOwner : Option Nat
  clauseRun : Option ClaRun
  budget : Nat
  queue : List Reservation
  permafrost : Bool
  frostSince : Nat
  /-- R316: the cycle of the wake cause. -/
  wakeAt : Option Nat
  checkFails : Nat
  retired : Bool
  deriving DecidableEq, Repr

/-- R310–R312: a voltage island; `idleSince` is the cycle since which every resident squad has waited; `waking` is when a squad
became ready in frost. -/
structure Island where
  level : Nat
  frost : Bool
  idleSince : Nat
  waking : Option Nat
  deriving DecidableEq, Repr

/-- R338: a communicator. -/
structure Comm where
  slot : Nat
  count : Nat
  list : List Byte
  deriving DecidableEq, Repr

/-- R106, R107: an entry in execution. -/
structure FarEntry where
  id : Nat
  addr : Word64
  kind : Nat
  ctx : Nat
  fence : Bool
  notify : Bool
  length : Nat
  src : Word64
  dst : Word64
  params : Word64
  completion : Word64
  seq : Word64
  moved : Nat
  done : Bool
  fault : Option Nat
  aborted : Bool
  /-- R268: the grid of a kind-3 entry has joined its queue. -/
  queued : Bool
  /-- R110: the participants of a collective on other devices that have joined. -/
  peers : List Peer
  /-- R338: the communicator as it stood when the entry started. -/
  comm : Option Comm
  deriving DecidableEq, Repr

/-- R109: an advance of a squad: its operation and the entries still to complete, counted from the chain's head. -/
structure Advance where
  squad : Nat
  op : Nat
  left : Nat
  clock : Clock
  epoch : Nat
  deriving DecidableEq, Repr

/-- R105, R107: a far context. -/
structure FarCtx where
  head : Word64
  run : Bool
  halted : Bool
  fcode : Nat
  weight : Nat
  pend : Nat
  latest : Word64
  ctx : Nat
  entries : List FarEntry
  advances : List Advance
  /-- R107, R149: what the completion words written so far release. -/
  clock : Clock
  /-- R106: the last NEXT followed was zero. -/
  atEnd : Bool
  deriving DecidableEq, Repr

/-- R108: a far engine's round: the context it serves and the beats left to it. -/
structure FarRound where
  ctx : Nat
  beats : Nat
  deriving DecidableEq, Repr

/-! ### Main memory's machinery -/

/-- R323, R324: a key slot; `keyId` is the identity of the key it holds: one number for each algorithm and material (`State.keyring`). -/
structure KeySlot where
  alg : Nat
  material : List Byte
  keyId : Nat
  bound : Option Nat
  stamp : Nat
  deriving DecidableEq, Repr

/-- R77, R78: a page request. -/
structure PageReq where
  va : Nat
  ctx : Nat
  slot : Nat
  kind : Nat
  requester : Nat
  entryAddr : Nat
  level : Nat
  outcome : Nat
  assisted : Bool
  /-- R79: the demand-filled range that the request fell in when it was raised. -/
  range : Option DemandRange
  waiters : List Walker
  deriving DecidableEq, Repr

/-- R81: a frame in the moraine. -/
structure MoraineEntry where
  frame : Nat
  size : Nat
  slot : Nat
  stamp : Nat
  deriving DecidableEq, Repr

/-- R162: bytes of main memory that a near copy of a squad wrote, by operation, and what a fence of the squad has released of them. -/
structure OutCopy where
  lo : Nat
  hi : Nat
  squad : Nat
  op : Nat
  clock : Option Clock
  deriving DecidableEq, Repr

/-- R79, R81, R325: memory that the device zeroed. -/
inductive Zeroed where
  /-- Physical addresses from `lo` below `hi`. -/
  | range (lo hi : Nat)
  /-- What a slot owned, with the channels and the expander shares of every slot. -/
  | owned (slot : Nat) (held : List (BitVec 128 × List Nat))
  deriving DecidableEq, Repr

/-- Memory that was zeroed, and the identity of the key it was written under; `none` reads as zero under any key. -/
structure Clearing where
  what : Zeroed
  keyId : Option Nat
  deriving DecidableEq, Repr

/-- R165: a byte that a rewrite changed, whose old value a fetch may still return; `op` is the rewrite, `by_` the copy or far entry while
it runs, `born` the last code release before it completed. -/
structure StaleCode where
  pa : Nat
  old : Byte
  op : Nat
  by_ : Option Nat
  born : Nat
  deriving DecidableEq, Repr

/-- R84, R165: an `icinv` that retired: its context, its range, and the code release that it is. -/
structure CodeInval where
  ctx : Nat
  lo : Nat
  hi : Nat
  release : Nat
  deriving DecidableEq, Repr

/-! ### Host side -/

/-- R320: what a function is bound to. -/
inductive Binding where
  | slot (n : Nat)
  | slice (leader : Nat)
  deriving DecidableEq, Repr

/-- R333, R334: an event. -/
structure HostEvent where
  kind : Nat
  tag : BitVec 16
  status : Nat
  payload : List Byte
  deriving DecidableEq, Repr

/-- R332: a function's registers, and the events that wait for room in its ring. -/
structure FnRegs where
  bound : Option Binding
  cmdBase : Word64
  cmdSize : Nat
  cmdTail : Nat
  cmdHead : Nat
  evBase : Word64
  evSize : Nat
  evHead : Nat
  evTail : Nat
  waiting : List HostEvent
  /-- MSI-X vector 0 raised so many times (R334). -/
  msix : Nat
  deriving DecidableEq, Repr

/-- R335, R336: the firmware. -/
structure Firmware where
  wait : Bool
  verifying : Option (Command × Nat × Nat)
  loaded : Bool
  microcode : Word32
  translator : Word32
  /-- R335: host-assisted mode of functions 0–4. -/
  assisted : List Bool
  expanders : List Nat
  /-- R331: the bytes of the expanders that were there at the first firmware load since power-on. -/
  present : Option (List Nat)
  deriving DecidableEq, Repr

/-- R339: a firn entry: the scheduled words of a range. -/
structure FirnEntry where
  ctx : Nat
  start : Nat
  words : List Word32
  key : BitVec 256
  stale : Bool
  deriving DecidableEq, Repr

/-- R339: a translation that has been asked for. -/
structure TransReq where
  tag : Nat
  ctx : Nat
  start : Nat
  len : Nat
  key : BitVec 256
  cmd : Command
  assisted : Bool
  deriving DecidableEq, Repr

/-- R337: a Floe route entry. -/
structure Route where
  fabid : Nat
  device : Nat
  ports : BitVec 12
  deriving DecidableEq, Repr

/-- R330: the management semaphore: owner 0 free, 1 H0, 2 H1, 3 device. -/
structure Semaphore where
  owner : Nat
  leaseEnd : Nat
  deriving DecidableEq, Repr

/-! ### The machine -/

/-- The model's own: one move of the device (log 2, DESIGN CHOICE). -/
inductive Move where
  /-- The bundle of these lanes issues its next instruction. -/
  | issue (squad : Nat) (lanes : LaneMask)
  /-- An event row of the opcode table happens. -/
  | event (i : Instr)
  /-- Time passes: core cycles and nanoseconds of the reference clock (R329). -/
  | elapse (cycles ns : Nat)
  /-- R332: a host reads, or writes, a register of a function. -/
  | hostRead (fn : HostFn) (offset : Nat)
  | hostWrite (fn : HostFn) (offset : Nat) (w : Word64)
  /-- R314: system software sets the module cap. -/
  | setCap (watts : Nat)
  /-- R70: the data of a 32-byte unit of LPDDR6 or expander memory can no longer be corrected. -/
  | spoil (unit : Nat)
  /-- R314: power that partitions do not draw is lent to one. -/
  | lend (slot : Nat)
  /-- R331: a host enables, or disables, CXL.mem on its port. -/
  | enableMem (port : HostPort) (on : Bool)
  /-- R336: MCTP over I3C reads a register of a port's physical function, or the health record. -/
  | i3c (port : HostPort) (offset : Option Nat)
  deriving DecidableEq, Repr

/-- The model's own: the bundle whose instruction is being performed, the address, and its fetched words (R46). -/
structure Issuing where
  squad : Nat
  lanes : LaneMask
  pc : Word64
  words : List Word32
  deriving DecidableEq, Repr

/-- The device. INVENTORY.md lists each field with the rule that names it. -/
structure State where
  agenda : List Move
  issuing : Option Issuing
  free : Nat
  nextId : Nat
  cycle : Nat
  ns : Nat
  mem : Memory
  /-- R324: the key identity each 32-byte unit was last written under; an unlisted unit was never written. -/
  unitKeys : Map Nat
  /-- R325: what the device zeroed, the last first, for the units written since by no one. -/
  clearings : List Clearing
  /-- R324: the identity of each key that was loaded: its number, algorithm and material. -/
  keyring : List (Nat × Nat × List Byte)
  /-- R70: the 32-byte units of LPDDR6 and expander memory whose data can no longer be corrected. -/
  spoiled : List Nat
  /-- R162: what near copies wrote to main memory. -/
  outcopies : List OutCopy
  stale : List StaleCode
  icinvs : List CodeInval
  codeRelease : Nat
  tlb : List TlbEntry
  qcount : Nat
  moraine : List MoraineEntry
  requests : Map PageReq
  /-- R78: the waiting far and scheduler accesses that were answered Fail. -/
  refused : List Walker
  keys : Map KeySlot
  parts : Map Partition
  ctxs : Map Context
  grids : Map Grid
  spans : Map Span
  groups : Map Group
  squads : Map Squad
  cores : Map Core
  clusters : Map Cluster
  islands : Map Island
  chains : Map FarCtx
  rounds : Map FarRound
  /-- R157: the shared-memory objects that are lost. -/
  sharedLost : List Nat
  dieSync : Map (List SyncRec)
  dieLost : Map (List Nat)
  fns : Map FnRegs
  /-- R321: completion events that wait for a QCOUNT value: function, value, event. -/
  delayed : List (Nat × Nat × HostEvent)
  firmware : Firmware
  firn : List FirnEntry
  transReqs : List TransReq
  sem : Semaphore
  routes : Map Route
  podNumber : Nat
  comms : Map Comm
  spares : List Nat
  retirements : Nat
  retiredClusters : BitVec 64
  powerCap : Nat
  /-- R322: when the last latency window ended. -/
  windowEnd : Nat
  /-- R319: the squads at partition or key instructions, in issue order: the first runs, the others are held. -/
  partQueue : List Nat
  /-- R332, R333: the doorbells rung, in the order they arrived: a function, and the CMDTAIL written. -/
  doorbells : List (Nat × Nat)
  /-- R331: whether CXL.mem is enabled on H0 and H1. -/
  cxlMem : List Bool
  /-- R331: the bytes that the last host read returned. -/
  hostReply : List Byte
  deriving DecidableEq, Repr

/-! ### Reset -/

def Clock.zero : Clock := { squads := [], groups := [], ops := [], floor := 0, codes := [], code := 0 }

/-- R249, R254: the clause array as after `cla.clr` with V and C. -/
def Clause.cleared (v c : Nat) : Clause :=
  { vars := v, cols := c, columns := [], rows := [], trail := [], level := 0, conf := false, ccol := 0 }

/-- R230: a tile at placement. -/
def Tile.zero : Tile := { elems := [], set := false, tsa := 0#32, tsb := 0#32 }

def Core.zero : Core :=
  { copies := [], fifo := [], rs := [], tiles := [], tileOwner := none, array := .idle, burst := none,
    sync := [], runs := [], fifoClock := Clock.zero }

/-- R248, R249; the budget by log 14, DESIGN CHOICE. -/
def Cluster.zero (budget : Nat) : Cluster :=
  { clause := Clause.cleared 1024 4096, clauseOwner := none, clauseRun := none, budget := budget, queue := [],
    permafrost := false, frostSince := 0, wakeAt := none, checkFails := 0, retired := false }

/-- R311: an island with no resident squad runs at level 0. -/
def Island.zero : Island := { level := 0, frost := false, idleSince := 0, waking := none }

/-- R105: the reset values; CHHEAD and LATEST by log 5, DESIGN CHOICE. -/
def FarCtx.zero : FarCtx :=
  { head := 0#64, run := false, halted := false, fcode := 0, weight := 0, pend := 0, latest := 0#64, ctx := 0, entries := [],
    advances := [], clock := Clock.zero, atEnd := false }

/-- R85: every tensor record is zero at context creation. -/
def TensorRec.zero : TensorRec :=
  { base := 0#64, space := 0#8, format := 0#8, block := 0#8, layout := 0#8, dim0 := 0#16, dim1 := 0#16, stride := 0#32,
    scaleOff := 0#32, tscale := 0#32, sync := 0#32 }

/-- R271: a grid queue at context creation. -/
def GridQueue.zero : GridQueue := { en := true, prio := 0, admitted := 0, waiting := [] }

/-- R323: an unloaded, unbound key slot. -/
def KeySlot.zero : KeySlot := { alg := 0, material := [], keyId := 0, bound := none, stamp := 0 }

/-- R332: a function's registers at reset (log 5, DESIGN CHOICE). -/
def FnRegs.zero : FnRegs :=
  { bound := none, cmdBase := 0#64, cmdSize := 16, cmdTail := 0, cmdHead := 0, evBase := 0#64, evSize := 16, evHead := 0,
    evTail := 0, waiting := [], msix := 0 }

/-- R318: a FREE slot. Clip 7 and the full rate by log 14, DESIGN CHOICE. Log 5, DESIGN CHOICE. -/
def Partition.free : Partition :=
  { status := .free, record := [], clusters := 0#64, channels := 0#128, xshare := [0, 0, 0, 0], floe := 0#12, critical := false,
    farctx := 0#256, keys := 0#64, power := 0, latency := 0, fabid := 0, digest := 0#256, leader := none, quantum := 0, turn := 0,
    turnSince := 0, pool := [], ranges := [], ring := none, openRecs := [], logCount := 0, logOverflow := 0, ringCount := 0, logChain := 0#256,
    clip := 7, rate := 0, demandSeen := 0, latencies := [], chsel := 0, whiteout := none }

/-- R317: the root partition owns every resource of the device; its state before the firmware has sealed it by log 6, DEDUCED. Log 14, DESIGN CHOICE. -/
def Partition.root : Partition :=
  { Partition.free with
    status := .building, clusters := BitVec.allOnes 64, channels := BitVec.allOnes 128, xshare := [15, 15, 15, 15],
    floe := BitVec.allOnes 12, farctx := BitVec.allOnes 256, keys := BitVec.allOnes 64, power := 1800 }

/-- R336: the device at power-on: it awaits firmware, no context exists, nothing is resident. Log 1, DESIGN CHOICE. Log 5, DESIGN CHOICE. Log 6, DEDUCED. Log 14, DESIGN CHOICE. -/
def State.reset : State :=
  { agenda := [], issuing := none, free := 0, nextId := 1, cycle := 0, ns := 0, mem := [], unitKeys := [], clearings := [], keyring := [], spoiled := [], stale := [], icinvs := [],
    codeRelease := 0, tlb := [], qcount := 0, moraine := [], requests := [], refused := [], keys := [], parts := [(0, Partition.root)],
    ctxs := [], grids := [], spans := [], groups := [], squads := [], cores := [], clusters := [], islands := [], chains := [],
    rounds := [], sharedLost := [], outcopies := [], dieSync := [], dieLost := [], fns := [], delayed := [],
    firmware :=
      { wait := true, verifying := none, loaded := false, microcode := 0#32, translator := 0#32,
        assisted := [false, false, false, false, false], expanders := [0, 0, 0, 0], present := none },
    firn := [], transReqs := [], sem := { owner := 0, leaseEnd := 0 }, routes := [], podNumber := 0, comms := [],
    spares := [1, 1, 1, 1], retirements := 0, retiredClusters := 0#64, powerCap := 1800, windowEnd := 0, partQueue := [], doorbells := [], cxlMem := [false, false], hostReply := [] }

end Sys2Proof.Machine
end

