-- ==== Sys2Proof/Machine/Maps.lean ====
section
/-!
DEFINITION. Operations over maps by number and over memories. A map is sorted by key with no key twice; a memory is sorted by
address, no address twice, no byte 0 (an unlisted byte reads 0), so that equal contents are equal data.
-/
namespace Sys2Proof.Machine

/-! ### Maps -/

/-- The value at a key. -/
def mapGet {V : Type} : Map V → Nat → Option V
  | [], _ => none
  | (k, v) :: m, a => if a = k then some v else mapGet m a

def mapSet {V : Type} : Map V → Nat → V → Map V
  | [], a, x => [(a, x)]
  | (k, v) :: m, a, x =>
    if a < k then (a, x) :: (k, v) :: m else if a = k then (a, x) :: m else (k, v) :: mapSet m a x

def mapErase {V : Type} (m : Map V) (a : Nat) : Map V := List.filter (fun c => c.1 != a) m

/-- Changes the value at a key that is present. -/
def mapMod {V : Type} (m : Map V) (a : Nat) (f : V → V) : Map V :=
  match mapGet m a with
  | some v => mapSet m a (f v)
  | none => m

/-- Changes the value at a key, starting from `d` where the key is absent. -/
def mapUpd {V : Type} (m : Map V) (a : Nat) (d : V) (f : V → V) : Map V := mapSet m a (f ((mapGet m a).getD d))

/-- Whether the keys rise strictly. -/
def mapSorted {V : Type} : Map V → Bool
  | [] => true
  | [_] => true
  | (k, _) :: (k', v') :: m => k < k' && mapSorted ((k', v') :: m)

/-- Changes every value. -/
def mapAll {V : Type} (m : Map V) (f : Nat → V → V) : Map V := List.map (fun (k, v) => (k, f k v)) m

/-- The entries whose value meets a condition. -/
def mapFilter {V : Type} (m : Map V) (p : Nat → V → Bool) : Map V := List.filter (fun (k, v) => p k v) m

/-- The greater value at each key. -/
def mapJoin (m n : Map Nat) : Map Nat := n.foldl (fun acc (k, v) => mapUpd acc k 0 (Nat.max v)) m

/-! ### Memories -/

/-- The byte at an address. Log 1, DESIGN CHOICE. -/
def memRead (m : Memory) (a : Nat) : Byte := (mapGet m a).getD 0#8

/-- Writes one byte; a byte 0 is unlisted. -/
def memWrite (m : Memory) (a : Nat) (b : Byte) : Memory := if b = 0#8 then mapErase m a else mapSet m a b

/-- The canonical form of a memory. -/
def memWf (m : Memory) : Bool := mapSorted m && m.all fun c => c.2 != 0#8

abbrev Memory.wf (m : Memory) : Bool := memWf m

/-- The `n` bytes from an address. -/
def memReadN (m : Memory) (a : Nat) : Nat → List Byte
  | 0 => []
  | n + 1 => memRead m a :: memReadN m (a + 1) n

/-- Writes a list of bytes from an address. -/
def memWriteN (m : Memory) (a : Nat) : List Byte → Memory
  | [] => m
  | b :: bs => memWriteN (memWrite m a b) (a + 1) bs

/-- Removes every entry in a range of addresses, so that the range reads 0. -/
def memZero (m : Memory) (a n : Nat) : Memory := List.filter (fun c => c.1 < a || a + n ≤ c.1) m

/-! ### Bytes and numbers (R4: little-endian) -/

def leNat : List Byte → Nat
  | [] => 0
  | b :: bs => b.toNat + 256 * leNat bs

def leBytes : Nat → Nat → List Byte
  | 0, _ => []
  | n + 1, v => BitVec.ofNat 8 v :: leBytes n (v / 256)

/-- A little-endian field of a byte string. -/
def leField (bs : List Byte) (at_ n : Nat) : Nat := leNat ((bs.drop at_).take n)

/-- The number of `n` bytes at an address. -/
def memNat (m : Memory) (a n : Nat) : Nat := leNat (memReadN m a n)

/-! ### Lanes and masks -/

def laneCount : Nat := 32

/-- The mask of the lanes that meet a condition. -/
def maskOf (p : Nat → Bool) : LaneMask :=
  (List.range 32).foldr (fun i m => if p i then m ||| BitVec.twoPow 32 i else m) 0#32

/-- The lanes of a mask, ascending. -/
def lanesOf (m : LaneMask) : List Nat := (List.range 32).filter m.getLsbD

/-- The lowest lane of a mask; 0 for none. -/
def lowLane (m : LaneMask) : Nat := (lanesOf m).headD 0

/-- Changes the elements at the positions of a mask; the first element stands at position `i`. -/
def atLanes {α : Type} (m : LaneMask) (f : Nat → α → α) (i : Nat) : List α → List α
  | [] => []
  | x :: xs => (if m.getLsbD i then f i x else x) :: atLanes m f (i + 1) xs

/-- One value per lane. -/
def perLane {α : Type} (f : Nat → α) : List α := (List.range 32).map f

/-- Whether `a` is contained in `b`. -/
def maskLe (a b : LaneMask) : Bool := a &&& ~~~b == 0#32

end Sys2Proof.Machine
end

