-- ==== Sys2Proof/Machine/Lookup.lean ====
section
/-!
DEFINITION. Where things stand in the state: keys of groups, squads and spans, the objects behind them, and one operation per
object that changes it. Free values and fresh numbers.
-/
namespace Sys2Proof.Machine

/-! ### Keys -/

def gridSpan : Nat := 2 ^ 48
/-- The key of group `g` of a grid. -/
def groupKey (grid g : Nat) : Nat := grid * gridSpan + g
/-- The key of squad `k` of a group. -/
def squadKey (group k : Nat) : Nat := group * 32 + k
/-- The key of span `i` of a grid. -/
def spanKey (grid i : Nat) : Nat := grid * gridSpan + i

/-- The group of a squad key, the grid and the index of a group key. -/
def groupOfSquad (key : Nat) : Nat := key / 32
def gridOfGroup (gk : Nat) : Nat := gk / gridSpan
def indexOfGroup (gk : Nat) : Nat := gk % gridSpan

/-! ### Objects -/

def State.squad? (s : State) (k : Nat) : Option Squad := mapGet s.squads k
def State.setSquad (s : State) (k : Nat) (q : Squad) : State := { s with squads := mapSet s.squads k q }
def State.modSquad (s : State) (k : Nat) (f : Squad → Squad) : State := { s with squads := mapMod s.squads k f }
def State.group? (s : State) (k : Nat) : Option Group := mapGet s.groups k
def State.modGroup (s : State) (k : Nat) (f : Group → Group) : State := { s with groups := mapMod s.groups k f }
def State.grid? (s : State) (k : Nat) : Option Grid := mapGet s.grids k
def State.modGrid (s : State) (k : Nat) (f : Grid → Grid) : State := { s with grids := mapMod s.grids k f }
def State.span? (s : State) (k : Nat) : Option Span := mapGet s.spans k
def State.modSpan (s : State) (k : Nat) (f : Span → Span) : State := { s with spans := mapMod s.spans k f }
def State.ctx? (s : State) (k : Nat) : Option Context := mapGet s.ctxs k
def State.modCtx (s : State) (k : Nat) (f : Context → Context) : State := { s with ctxs := mapMod s.ctxs k f }
def State.part? (s : State) (k : Nat) : Option Partition := mapGet s.parts k
def State.part (s : State) (k : Nat) : Partition := (mapGet s.parts k).getD Partition.free
def State.modPart (s : State) (k : Nat) (f : Partition → Partition) : State :=
  { s with parts := mapUpd s.parts k Partition.free f }
/-- A core; one that nothing has touched stands as at reset. -/
def State.core (s : State) (c : Nat) : Core := (mapGet s.cores c).getD Core.zero
def State.modCore (s : State) (c : Nat) (f : Core → Core) : State := { s with cores := mapUpd s.cores c Core.zero f }
def State.cluster (s : State) (c : Nat) : Cluster := (mapGet s.clusters c).getD (Cluster.zero Config.arbiterBudget)
def State.modCluster (s : State) (c : Nat) (f : Cluster → Cluster) : State :=
  { s with clusters := mapUpd s.clusters c (Cluster.zero Config.arbiterBudget) f }
def State.island (s : State) (i : Nat) : Island := (mapGet s.islands i).getD Island.zero
def State.modIsland (s : State) (i : Nat) (f : Island → Island) : State := { s with islands := mapUpd s.islands i Island.zero f }
def State.chain (s : State) (c : Nat) : FarCtx := (mapGet s.chains c).getD FarCtx.zero
def State.modChain (s : State) (c : Nat) (f : FarCtx → FarCtx) : State := { s with chains := mapUpd s.chains c FarCtx.zero f }
def State.key (s : State) (k : Nat) : KeySlot := (mapGet s.keys k).getD KeySlot.zero
def State.modKey (s : State) (k : Nat) (f : KeySlot → KeySlot) : State := { s with keys := mapUpd s.keys k KeySlot.zero f }
def State.fn (s : State) (k : Nat) : FnRegs := (mapGet s.fns k).getD FnRegs.zero
def State.modFn (s : State) (k : Nat) (f : FnRegs → FnRegs) : State := { s with fns := mapUpd s.fns k FnRegs.zero f }

/-- R10: the cluster of a core, the die of a cluster, of a core. -/
def clusterOf (core : Nat) : Nat := core / 4
def dieOf (core : Nat) : Nat := core / 64
def dieOfCluster (c : Nat) : Nat := c / 16

/-- R13: the span of a squad, its group's core. -/
def State.spanOf (s : State) (q : Squad) : Nat := ((s.group? (groupKey q.grid q.group)).map (·.span)).getD 0
def State.coreOf (s : State) (q : Squad) : Nat := ((s.group? (groupKey q.grid q.group)).map (·.core)).getD 0
/-- R276: the context a squad runs in, and the partition slot of a context (R321). -/
def State.ctxOf (s : State) (q : Squad) : Nat := ((s.grid? q.grid).map (·.ctx)).getD 0
def slotOf (ctx : Nat) : Nat := ctx / 256
def Squad.groupKey (q : Squad) : Nat := Machine.groupKey q.grid q.group

/-! ### Lanes -/

def Lane.blank : Lane :=
  { kind := .absent, pc := 0#64, hold := .none, wait := .none, parked := false, handler := .none, taken := .none, heldAt := .none, barWords := [], level := .user, meetAt := none,
    meetMask := 0#32, yieldUntil := none, fence := none, latchRec := [none, none, none, none] }

/-- Squad k of group g of a grid, without lanes; also what stands for a squad that has ended. -/
def Squad.blank (grid g k : Nat) : Squad :=
  { grid := grid, group := g, sq := k, slot := 0, residency := .resident, ended := false, lanes := [],
    files := { v := [], s := [], a := [] }, recent := [], tvec := 0#64, fctl := 0#64, fflags := 0#64, spBase := 0#64, spSize := 0#64,
    glideEn := true, glides := 0, rolls := 0, races := 0, misses := 0, perfReq := 7, frostSeen := false, tBusy := none, sBusy := none,
    events := [], entered := [], ops := [], bars := [], glide := none, region := none, trig := false, clock := Clock.zero, fenceSeen := [],
    published := [], bundles := [], evictSince := none, cost := 0 }

/-- The squad of a key, or what stands for it once it has ended. -/
def State.squadOr (s : State) (key : Nat) : Squad :=
  (s.squad? key).getD (Squad.blank (gridOfGroup (groupOfSquad key)) (indexOfGroup (groupOfSquad key)) (key % 32))

def Squad.lane (q : Squad) (i : Nat) : Lane := q.lanes.getD i Lane.blank
/-- Changes the lanes of a mask. -/
def Squad.onLanes (q : Squad) (m : LaneMask) (f : Lane → Lane) : Squad := { q with lanes := atLanes m (fun _ l => f l) 0 q.lanes }
def Squad.onLanesI (q : Squad) (m : LaneMask) (f : Nat → Lane → Lane) : Squad := { q with lanes := atLanes m f 0 q.lanes }
/-- R14, R170: the live lanes, parked and held ones among them. -/
def Squad.live (q : Squad) : LaneMask := maskOf fun i => (q.lane i).kind == .live
def Squad.helpers (q : Squad) : LaneMask := maskOf fun i => (q.lane i).kind == .helper
def Squad.handlers (q : Squad) (h : Handler) : LaneMask := maskOf fun i => (q.lane i).handler == h
def Squad.parkedLanes (q : Squad) : LaneMask := maskOf fun i => (q.lane i).parked
/-- R15: a lane that may stand in a bundle: live or helper, and neither parked (unless it runs a handler, R288) nor held. -/
def Lane.issuable (l : Lane) : Bool :=
  (l.kind == .live || l.kind == .helper) && (!l.parked || l.handler != .none) && l.hold == .none

def squadBarNone : SquadBar := { larr := 0#32, pend := false, armed := false, since := 0, due := Clock.zero }
/-- R130: a squad's fields for a barrier. -/
def Squad.bar (q : Squad) (b : Nat) : SquadBar := q.bars.getD b squadBarNone

/-- R269: the groups of a span; 0 stands for 64. -/
def LaunchDesc.perSpan (d : LaunchDesc) : Nat := if d.spanSz = 0 then 64 else d.spanSz

/-- The level of a lane set: its lowest lane's. -/
def Squad.levelOf (q : Squad) (m : LaneMask) : Level := (q.lane (lowLane m)).level

def levelNum : Level → Nat
  | .user => 0
  | .supervisor => 1
  | .hypervisor => 2
def levelLt (a b : Level) : Bool := levelNum a < levelNum b
def levelMax (a b : Level) : Level := if levelLt a b then b else a

/-! ### Free values and fresh numbers -/

/-- Places of free values: one number per rule that leaves a value open. -/
def placeBase (k i : Nat) : Nat := k * 2 ^ 64 + i
def State.freeBit (s : State) (k i : Nat) : Bool := Config.freeBit s.free (placeBase k i)
def State.freeByte (s : State) (k i : Nat) : Byte := Config.freeByte s.free (placeBase k i)
def State.freeWord (s : State) (k i : Nat) : Word64 := Config.freeWord s.free (placeBase k i)
/-- A number never used before. -/
def State.fresh (s : State) : Nat × State := (s.nextId, { s with nextId := s.nextId + 1 })

/-! ### Host functions (R332, R334) -/

def portNum : HostPort → Nat
  | .h0 => 0
  | .h1 => 1
/-- The key of a function in `fns`. -/
def fnKey (f : HostFn) : Nat := portNum f.port * 17 + match f.vf with
  | none => 0
  | some k => k.val + 1

/-- R334: an event waits for room in its function's ring; EVENT_POST writes it. -/
def State.post (s : State) (fn : Nat) (e : HostEvent) : State := s.modFn fn fun r => { r with waiting := r.waiting ++ [e] }

/-- R334: to the physical functions of both ports. -/
def State.postBoth (s : State) (e : HostEvent) : State := (s.post 0 e).post 17 e

/-- R320: the partition slots a binding reaches: a slot, or every member of a slice group. -/
def State.boundTo (s : State) (b : Binding) (slot : Nat) : Bool :=
  match b with
  | .slot n => n == slot
  | .slice leader => (s.part slot).leader == some leader

/-- R332, R334: whether a function belongs to a partition: a physical one to the root. -/
def State.fnServes (s : State) (fn slot : Nat) : Bool :=
  if fn % 17 = 0 then slot == 0
  else match (s.fn fn).bound with
    | some b => s.boundTo b slot
    | none => false

/-- R334: every function bound to a partition. -/
def State.postPart (s : State) (slot : Nat) (e : HostEvent) : State :=
  ((List.range 34).filter fun f => s.fnServes f slot).foldl (fun s f => s.post f e) s

end Sys2Proof.Machine
end

