-- ==== Sys2Proof/Machine/Num.lean ====
section
/-!
DEFINITION. The number formats (R48–R65): a code's exact value, rounding an exact value once to a format, and the exact
arithmetic between them. Every finite value of every format is ± m × 2^e, so sums and products are computed exactly.
-/
namespace Sys2Proof.Machine

/-- R51, R58–R61: a value: NaN (signalling or quiet), an infinity, or ± m × 2^e. -/
inductive Num where
  | nan (signalling : Bool)
  | inf (neg : Bool)
  | fin (neg : Bool) (m : Nat) (e : Int)
  deriving DecidableEq, Repr

/-- A binary format: fraction bits, exponent bits, bias, the magnitude codes of the largest finite value, of infinity and of
NaN where it has them. -/
structure Fmt where
  frac : Nat
  expo : Nat
  bias : Nat
  largest : Nat
  infinity : Option Nat
  nan : Option Nat
  deriving DecidableEq, Repr

def fp32 : Fmt := { frac := 23, expo := 8, bias := 127, largest := 0x7F7FFFFF, infinity := some 0x7F800000, nan := some 0x7FC00000 }
def fp16 : Fmt := { frac := 10, expo := 5, bias := 15, largest := 0x7BFF, infinity := some 0x7C00, nan := some 0x7E00 }
def bf16 : Fmt := { frac := 7, expo := 8, bias := 127, largest := 0x7F7F, infinity := some 0x7F80, nan := some 0x7FC0 }
/-- R58. -/
def e4m3 : Fmt := { frac := 3, expo := 4, bias := 7, largest := 0x7E, infinity := none, nan := some 0x7F }
def e5m2 : Fmt := { frac := 2, expo := 5, bias := 15, largest := 0x7B, infinity := some 0x7C, nan := some 0x7F }
/-- R59, R60. -/
def e3m2 : Fmt := { frac := 2, expo := 3, bias := 3, largest := 0x1F, infinity := none, nan := none }
def e2m3 : Fmt := { frac := 3, expo := 2, bias := 1, largest := 0x1F, infinity := none, nan := none }
def e2m1 : Fmt := { frac := 1, expo := 2, bias := 1, largest := 0x7, infinity := none, nan := none }

def Fmt.bits (f : Fmt) : Nat := f.frac + f.expo + 1

/-- R51, R58: the value of a code. -/
def Fmt.decode (f : Fmt) (code : Nat) : Num :=
  let neg := code / 2 ^ (f.frac + f.expo) % 2 == 1
  let mag := code % 2 ^ (f.frac + f.expo)
  let e := mag / 2 ^ f.frac
  let m := mag % 2 ^ f.frac
  if mag ≤ f.largest then
    if e = 0 then .fin neg m (1 - (f.bias : Int) - f.frac)
    else .fin neg (m + 2 ^ f.frac) ((e : Int) - f.bias - f.frac)
  else if f.infinity = some mag then .inf neg
  else .nan (f.infinity.isSome && m / 2 ^ (f.frac - 1) % 2 == 0)

/-- R60: the value of an MXINT8 code. -/
def mxint8Decode (code : Nat) : Num :=
  let c := code % 256
  if c < 128 then .fin false c (-6) else .fin true (256 - c) (-6)

/-! ### Rounding -/

/-- R53: the rounding modes. -/
inductive Rm where
  | near | zero | down | up
  deriving DecidableEq, Repr

def rmOf (n : Nat) : Rm := if n % 4 = 0 then .near else if n % 4 = 1 then .zero else if n % 4 = 2 then .down else .up

/-- Whether a quotient `q` with remainder `r` out of `d` goes up in magnitude. -/
def roundsUp (rm : Rm) (neg : Bool) (q r d : Nat) : Bool :=
  match rm with
  | .near => 2 * r > d || (2 * r == d && q % 2 == 1)
  | .zero => false
  | .down => neg && r != 0
  | .up => !neg && r != 0

/-- m × 2^e as a multiple of 2^q, rounded once: the multiple, and whether it is inexact. -/
def roundAt (rm : Rm) (neg : Bool) (m : Nat) (e q : Int) : Nat × Bool :=
  if q ≤ e then (m * 2 ^ (e - q).toNat, false)
  else
    let d := 2 ^ (q - e).toNat
    (m / d + if roundsUp rm neg (m / d) (m % d) d then 1 else 0, m % d != 0)

/-- The number of bits of m. -/
def natSize (m : Nat) : Nat := if m = 0 then 0 else Nat.log2 m + 1

/-- The exponent of the last place of m × 2^e in a format of unbounded exponent range above its least exponent. -/
def Fmt.place (f : Fmt) (m : Nat) (e : Int) : Int :=
  max (e + natSize m - (f.frac + 1)) (1 - (f.bias : Int) - f.frac)

/-- ± m × 2^e rounded once to a format with its exponent unbounded above: the magnitude code, beyond `largest` on overflow, and
whether it is inexact. -/
def Fmt.roundCode (f : Fmt) (rm : Rm) (neg : Bool) (m : Nat) (e : Int) : Nat × Bool :=
  let q := f.place m e
  let (n, inexact) := roundAt rm neg m e q
  let n' := if n = 2 ^ (f.frac + 1) then 2 ^ f.frac else n
  let q' := if n = 2 ^ (f.frac + 1) then q + 1 else q
  if n' < 2 ^ f.frac then (n', inexact)
  else ((q' + f.frac + f.bias).toNat * 2 ^ f.frac + (n' - 2 ^ f.frac), inexact)

def Fmt.signed (f : Fmt) (neg : Bool) (mag : Nat) : Nat := if neg then mag + 2 ^ (f.frac + f.expo) else mag

/-! ### Exact arithmetic -/

def Num.isNan : Num → Bool
  | .nan _ => true
  | _ => false

def Num.isSnan : Num → Bool
  | .nan s => s
  | _ => false

def Num.neg : Num → Num
  | .nan s => .nan s
  | .inf n => .inf !n
  | .fin n m e => .fin (!n) m e

/-- × 2^k. -/
def Num.scale (k : Int) : Num → Num
  | .fin n m e => .fin n m (e + k)
  | x => x

/-- The value as a multiple of 2^q, for q at most its exponent. -/
def signedAt (neg : Bool) (m : Nat) (e q : Int) : Int :=
  let v : Int := (m * 2 ^ (e - q).toNat : Nat)
  if neg then -v else v

/-- R52: an exact sum of two numbers neither of which is NaN; `none` for ∞ − ∞. -/
def Num.add (rm : Rm) : Num → Num → Option Num
  | .inf a, .inf b => if a = b then some (.inf a) else none
  | .inf a, _ => some (.inf a)
  | _, .inf b => some (.inf b)
  | .fin a m e, .fin b n f =>
    if m = 0 ∧ n = 0 then some (.fin (if a = b then a else rm = .down) 0 0)
    else
      let q := min e f
      let v := signedAt a m e q + signedAt b n f q
      if v = 0 then some (.fin (rm = .down) 0 0) else some (.fin (v < 0) v.natAbs q)
  | .nan s, _ => some (.nan s)
  | _, .nan s => some (.nan s)

/-- An exact product of two numbers neither of which is NaN; `none` for 0 × ∞. -/
def Num.mul : Num → Num → Option Num
  | .inf a, .inf b => some (.inf (a != b))
  | .inf a, .fin b n _ => if n = 0 then none else some (.inf (a != b))
  | .fin a m _, .inf b => if m = 0 then none else some (.inf (a != b))
  | .fin a m e, .fin b n f => some (.fin (a != b) (m * n) (e + f))
  | .nan s, _ => some (.nan s)
  | _, .nan s => some (.nan s)

/-- The order of two numbers neither of which is NaN, with −0 equal to +0. -/
def Num.cmp : Num → Num → Ordering
  | .inf a, .inf b => if a = b then .eq else if a then .lt else .gt
  | .inf a, _ => if a then .lt else .gt
  | _, .inf b => if b then .gt else .lt
  | .fin a m e, .fin b n f =>
    let q := min e f
    compare (signedAt a m e q) (signedAt b n f q)
  | _, _ => .eq

/-- The integer a finite value rounds to. -/
def roundInt (rm : Rm) (neg : Bool) (m : Nat) (e : Int) : Int × Bool :=
  let (n, inexact) := roundAt rm neg m e 0
  (if neg then -(n : Int) else n, inexact)

/-! ### Square roots and the functions of R202, in fixed point (log 8, DEDUCED) -/

/-- The bits of ⌊√n⌋ from bit k − 1 down. -/
def isqrtFrom (n : Nat) : Nat → Nat → Nat
  | 0, r => r
  | k + 1, r => isqrtFrom n k (if (r + 2 ^ k) * (r + 2 ^ k) ≤ n then r + 2 ^ k else r)

/-- ⌊√n⌋. -/
def isqrt (n : Nat) : Nat := isqrtFrom n (natSize n / 2 + 1) 0

/-- A number known to be strictly between n × 2^e and (n + 1) × 2^e. -/
def between (neg : Bool) (n : Nat) (e : Int) : Num := .fin neg (2 * n + 1) (e - 1)

/-- √(m × 2^e), as an exact value or as one between neighbours far finer than any format. -/
def sqrtNum (m : Nat) (e : Int) : Num :=
  let k : Nat := 128 + (e % 2).toNat
  let n := m * 2 ^ k
  let r := isqrt n
  let f := (e - k) / 2
  if r * r = n then .fin false r f else between false r f

/-- 1 / √(m × 2^e). -/
def rsqrtNum (m : Nat) (e : Int) : Num :=
  let k : Nat := 256 + (e % 2).toNat
  let n := 2 ^ k / m
  let r := isqrt n
  let f := (-e - k) / 2
  if r * r = n ∧ 2 ^ k % m = 0 then .fin false r f else between false r f

/-- 1 / (m × 2^e). -/
def recipNum (neg : Bool) (m : Nat) (e : Int) : Num :=
  if 2 ^ 200 % m = 0 then .fin neg (2 ^ 200 / m) (-e - 200) else between neg (2 ^ 200 / m) (-e - 200)

/-- The fixed point: 2^−360. -/
def fx : Nat := 360
/-- ⌊π × 2^480⌋. -/
def piBits : Nat := 0x3243f6a8885a308d313198a2e03707344a4093822299f31d0082efa98ec4e6c89452821e638d01377be5466cf34e90c6cc0ac29b7c97c50dd3f84d5b5
/-- ⌊ln 2 × 2^360⌋. -/
def ln2Bits : Nat := 0xb17217f7d1cf79abc9e3b39803f2f6af40f343267298b62d8a0d175b8baafa2be7b876206debac98559552fb4a

/-- Σ x^k / k! from the term `t` of index `k`, in fixed point, for 0 ≤ x < 1. -/
def expSeries (x : Nat) : Nat → Nat → Nat → Nat
  | 0, _, _ => 0
  | n + 1, k, t => t + expSeries x n (k + 1) (t * x / 2 ^ fx / (k + 1))

/-- e^x for 0 ≤ x < 1. -/
def expFx (x : Nat) : Nat := expSeries x 90 0 (2 ^ fx)

/-- Σ z^(2k+1) / (2k+1), in fixed point; `t` is z^(2k+1). -/
def atanhSeries (zz : Nat) : Nat → Nat → Nat → Nat
  | 0, _, _ => 0
  | n + 1, k, t => t / (2 * k + 1) + atanhSeries zz n (k + 1) (t * zz / 2 ^ fx)

/-- Σ (−1)^k x^(2k+i) / (2k+i)!, in fixed point; `t` is the term's magnitude. -/
def trigSeries (xx : Nat) : Nat → Nat → Nat → Int
  | 0, _, _ => 0
  | n + 1, i, t => (t : Int) - trigSeries xx n (i + 2) (t * xx / 2 ^ fx / ((i + 1) * (i + 2)))

/-- A fixed-point value as a number, known not to be exact. -/
def ofFx (v : Int) : Num := between (v < 0) v.natAbs (-(fx : Int))

/-- 2^a for a = ± m × 2^e with |a| < 160, a not an integer. Log 8, DEDUCED. -/
def exp2Num (neg : Bool) (m : Nat) (e : Int) : Num :=
  let v := signedAt neg m e (min e (-(fx : Int)))
  let d : Int := 2 ^ (-(min e (-(fx : Int)))).toNat
  let n := v / d
  let f := (v % d).toNat * 2 ^ fx / d.toNat
  match ofFx (expFx (f * ln2Bits / 2 ^ fx)) with
  | .fin s m' e' => .fin s m' (e' + n)
  | x => x

/-- log2 of m × 2^e, not a power of two. -/
def log2Num (m : Nat) (e : Int) : Num :=
  let k := natSize m
  -- the mantissa in [1/2, 1), doubled where it is below 3/4
  let up := 4 * m < 3 * 2 ^ k
  let q := if up then k - 1 else k
  let whole : Int := e + q
  let num : Int := (m : Int) - 2 ^ q
  let z := num.natAbs * 2 ^ fx / (m + 2 ^ q)
  let s := 2 * atanhSeries (z * z / 2 ^ fx) 90 0 z
  let l : Int := (s * 2 ^ fx / ln2Bits : Nat)
  ofFx (whole * 2 ^ fx + if num < 0 then -l else l)

/-- The quadrant and the remainder of m × 2^e modulo π/2, in fixed point. -/
def reduce (m : Nat) (e : Int) : Nat × Nat :=
  let x := if 0 ≤ e + 480 then m * 2 ^ (e + 480).toNat else m / 2 ^ (-(e + 480)).toNat
  let h := piBits / 2
  (x / h % 4, x % h / 2 ^ (480 - fx))

def sinFx (x : Nat) : Int := trigSeries (x * x / 2 ^ fx) 60 1 x
def cosFx (x : Nat) : Int := trigSeries (x * x / 2 ^ fx) 60 0 (2 ^ fx)

def sinNum (neg : Bool) (m : Nat) (e : Int) : Num :=
  let (q, r) := reduce m e
  let v := if q = 0 then sinFx r else if q = 1 then cosFx r else if q = 2 then -sinFx r else -cosFx r
  ofFx (if neg then -v else v)

def cosNum (m : Nat) (e : Int) : Num :=
  let (q, r) := reduce m e
  ofFx (if q = 0 then cosFx r else if q = 1 then -sinFx r else if q = 2 then -cosFx r else sinFx r)

/-- tanh of ± m × 2^e, below 10 in magnitude. -/
def tanhNum (neg : Bool) (m : Nat) (e : Int) : Num :=
  let x := 2 * if 0 ≤ e + fx then m * 2 ^ (e + fx).toNat else m / 2 ^ (-(e + fx)).toNat
  let ex := expFx (x % ln2Bits) * 2 ^ (x / ln2Bits)
  let v := (ex - 2 ^ fx) * 2 ^ fx / (ex + 2 ^ fx)
  between neg v (-(fx : Int))

end Sys2Proof.Machine
end

