-- ==== Sys2Proof/Machine/Flags.lean ====
section
/-!
DEFINITION. The floating-point flags (R54, R55) and every delivered result with the flags it raises: arithmetic (R193, R194,
R201), comparison (R196), rounding to an integral value (R197), conversions (R67, R198–R200), special functions (R202, R203),
and the block encoding of R65. Also the integer comparisons of R179 and R205.
-/
namespace Sys2Proof.Machine

/-! ### Flags -/

/-- R54: FFLAGS, bit 0 NV, 1 DZ, 2 OF, 3 UF, 4 NX. -/
abbrev Flags := BitVec 5

def flagNV : Flags := 0x01#5
def flagDZ : Flags := 0x02#5
def flagOF : Flags := 0x04#5
def flagUF : Flags := 0x08#5
def flagNX : Flags := 0x10#5

/-- A delivered code and the flags it raises. -/
structure FRes where
  bits : Nat
  flags : Flags
  deriving DecidableEq, Repr

/-- R55: NV for a signalling NaN among the operands. -/
def snanFlag (xs : List Num) : Flags := if xs.any Num.isSnan then flagNV else 0#5

/-- R55: OF, UF and NX of a rounded code. UF: nonzero, inexact, and below the smallest normal after rounding (log 10, DEDUCED). -/
def roundFlags (f : Fmt) (mag : Nat) (inexact : Bool) : Flags :=
  (if f.largest < mag then flagOF ||| flagNX else 0#5)
    ||| (if inexact && mag < 2 ^ f.frac then flagUF else 0#5) ||| if inexact then flagNX else 0#5

/-- R57: the magnitude code an overflow delivers. -/
def overflowCode (f : Fmt) (rm : Rm) (neg : Bool) : Nat :=
  let toInf := rm == .near || (rm == .down && neg) || (rm == .up && !neg)
  match f.infinity with
  | some i => if toInf then i else f.largest
  | none => f.largest

/-- R52, R55, R57: an exact value delivered in an IEEE format. -/
def deliver (f : Fmt) (rm : Rm) : Num → FRes
  | .nan _ => { bits := f.nan.getD 0, flags := 0#5 }
  | .inf n => { bits := f.signed n (f.infinity.getD 0), flags := 0#5 }
  | .fin n m e =>
    let (mag, inexact) := f.roundCode rm n m e
    { bits := f.signed n (if f.largest < mag then overflowCode f rm n else mag), flags := roundFlags f mag inexact }

/-- R52: the canonical NaN, with NV where `nv`. -/
def nanRes (f : Fmt) (nv : Bool) : FRes := { bits := f.nan.getD 0, flags := if nv then flagNV else 0#5 }

/-! ### Arithmetic -/

/-- R193, R201. -/
def fAdd (f : Fmt) (rm : Rm) (x y : Nat) : FRes :=
  let a := f.decode x
  let b := f.decode y
  if a.isNan || b.isNan then nanRes f (a.isSnan || b.isSnan)
  else match a.add rm b with
    | some r => deliver f rm r
    | none => nanRes f true

/-- R193: x − y counts as x + (−y) (R52). -/
def fSub (f : Fmt) (rm : Rm) (x y : Nat) : FRes :=
  let a := f.decode x
  let b := f.decode y
  if a.isNan || b.isNan then nanRes f (a.isSnan || b.isSnan)
  else match a.add rm b.neg with
    | some r => deliver f rm r
    | none => nanRes f true

def fMul (f : Fmt) (rm : Rm) (x y : Nat) : FRes :=
  let a := f.decode x
  let b := f.decode y
  if a.isNan || b.isNan then nanRes f (a.isSnan || b.isSnan)
  else match a.mul b with
    | some r => deliver f rm r
    | none => nanRes f true

/-- R193: exact product and sum, one rounding; 0 × ∞ + c raises NV even when c is a quiet NaN. -/
def fFma (f : Fmt) (rm : Rm) (x y z : Nat) : FRes :=
  let a := f.decode x
  let b := f.decode y
  let c := f.decode z
  let sn := a.isSnan || b.isSnan || c.isSnan
  if a.isNan || b.isNan then nanRes f sn
  else match a.mul b with
    | none => nanRes f true
    | some p =>
      if c.isNan then nanRes f sn
      else match p.add rm c with
        | some r => deliver f rm r
        | none => nanRes f true

/-- R194: −0 orders below +0. -/
def fLess (f : Fmt) (x y : Nat) : Bool :=
  match (f.decode x).cmp (f.decode y) with
  | .lt => true
  | .gt => false
  | .eq => x / 2 ^ (f.bits - 1) % 2 == 1 && y / 2 ^ (f.bits - 1) % 2 == 0

/-- R194. -/
def fMinMax (f : Fmt) (wantMax : Bool) (x y : Nat) : FRes :=
  let a := f.decode x
  let b := f.decode y
  let fl := snanFlag [a, b]
  if a.isNan && b.isNan then { bits := f.nan.getD 0, flags := fl }
  else if a.isNan then { bits := y, flags := fl }
  else if b.isNan then { bits := x, flags := fl }
  else { bits := if fLess f x y != wantMax then x else y, flags := fl }

/-! ### Comparisons -/

/-- R179, R205: the integer relations. -/
inductive ICmp where
  | eq | ne | lt | le | gt | ge | ltu | leu | gtu | geu
  deriving DecidableEq, Repr

/-- R179: signed without a u, unsigned with one. -/
def ICmp.holds {w : Nat} : ICmp → BitVec w → BitVec w → Bool
  | .eq, a, b => a == b
  | .ne, a, b => a != b
  | .lt, a, b => a.slt b
  | .le, a, b => a.sle b
  | .gt, a, b => b.slt a
  | .ge, a, b => b.sle a
  | .ltu, a, b => a.ult b
  | .leu, a, b => a.ule b
  | .gtu, a, b => b.ult a
  | .geu, a, b => b.ule a

/-- R196, R205: the floating relations; `ord` is the tree's `ford`. -/
inductive FCmp where
  | eq | ne | lt | le | gt | ge | un | ord
  deriving DecidableEq, Repr

def FCmp.holds (c : FCmp) (x y : Nat) : Bool :=
  let a := fp32.decode x
  let b := fp32.decode y
  let nan := a.isNan || b.isNan
  match c with
  | .eq => !nan && a.cmp b == .eq
  | .ne => nan || a.cmp b != .eq
  | .lt => !nan && a.cmp b == .lt
  | .le => !nan && a.cmp b != .gt
  | .gt => !nan && a.cmp b == .gt
  | .ge => !nan && a.cmp b != .lt
  | .un => nan
  | .ord => !nan

/-- R196: NV for any NaN under the ordered relations, else for a signalling NaN. -/
def FCmp.flags (c : FCmp) (x y : Nat) : Flags :=
  let a := fp32.decode x
  let b := fp32.decode y
  match c with
  | .lt | .le | .gt | .ge => if a.isNan || b.isNan then flagNV else 0#5
  | _ => snanFlag [a, b]

/-! ### Rounding to integers -/

/-- R197. -/
def fRnd (rm : Rm) (x : Nat) : FRes :=
  match fp32.decode x with
  | .nan s => nanRes fp32 s
  | .inf _ => { bits := x, flags := 0#5 }
  | .fin n m e =>
    if 0 ≤ e ∨ m = 0 then { bits := x, flags := 0#5 }
    else { bits := (deliver fp32 rm (.fin n (roundAt rm n m e 0).1 0)).bits, flags := 0#5 }

/-- R199. -/
def f2iRes (rm : Rm) (x : Nat) : FRes :=
  match fp32.decode x with
  | .nan _ => { bits := 0, flags := flagNV }
  | .inf n => { bits := if n then 0x80000000 else 0x7FFFFFFF, flags := flagNV }
  | .fin n m e =>
    let (r, inexact) := roundInt rm n m e
    if 2 ^ 31 ≤ r then { bits := 0x7FFFFFFF, flags := flagNV }
    else if r < -(2 ^ 31) then { bits := 0x80000000, flags := flagNV }
    else { bits := (r % 2 ^ 32).toNat, flags := if inexact then flagNX else 0#5 }

/-- R199. -/
def f2uRes (rm : Rm) (x : Nat) : FRes :=
  match fp32.decode x with
  | .nan _ => { bits := 0, flags := flagNV }
  | .inf n => { bits := if n then 0 else 0xFFFFFFFF, flags := flagNV }
  | .fin n m e =>
    let (r, inexact) := roundInt rm n m e
    if 2 ^ 32 ≤ r then { bits := 0xFFFFFFFF, flags := flagNV }
    else if r < 0 then { bits := 0, flags := flagNV }
    else { bits := r.toNat, flags := if inexact then flagNX else 0#5 }

/-- R200. -/
def i2fRes (rm : Rm) (x : BitVec 32) : FRes := deliver fp32 rm (.fin (x.toInt < 0) x.toInt.natAbs 0)

def u2fRes (rm : Rm) (x : BitVec 32) : FRes := deliver fp32 rm (.fin false x.toNat 0)

/-! ### Element formats -/

/-- R64, R66: an MX element format. -/
inductive Elem where
  | fmt (f : Fmt)
  | mxint8
  deriving DecidableEq, Repr

/-- The element formats in the order of their codes (R64, R67). -/
def Elem.ofIndex : Nat → Option Elem
  | 0 => some (.fmt e4m3)
  | 1 => some (.fmt e5m2)
  | 2 => some (.fmt e3m2)
  | 3 => some (.fmt e2m3)
  | 4 => some (.fmt e2m1)
  | 5 => some .mxint8
  | _ => none

def Elem.bits : Elem → Nat
  | .fmt f => f.bits
  | .mxint8 => 8

def Elem.decode : Elem → Nat → Num
  | .fmt f, c => f.decode (c % 2 ^ f.bits)
  | .mxint8, c => mxint8Decode c

/-- R65: emax. -/
def Elem.emax : Elem → Int
  | .fmt f => ((f.largest / 2 ^ f.frac : Nat) : Int) - f.bias
  | .mxint8 => 0

/-- R67: ± m × 2^e to a multiple of 2^−6, saturated. -/
def mxint8Encode (n : Bool) (m : Nat) (e : Int) : FRes :=
  let (k, inexact) := roundAt .near n m e (-6)
  if n then
    if 128 < k then { bits := 0x80, flags := flagOF ||| flagNX }
    else { bits := (256 - k) % 256, flags := if inexact then (if k = 0 then flagUF ||| flagNX else flagNX) else 0#5 }
  else if 127 < k then { bits := 0x7F, flags := flagOF ||| flagNX }
  else { bits := k, flags := if inexact then (if k = 0 then flagUF ||| flagNX else flagNX) else 0#5 }

/-- R65, R67: a finite value in an element format, nearest-even, saturated. -/
def Elem.encodeFin : Elem → Bool → Nat → Int → FRes
  | .mxint8, n, m, e => mxint8Encode n m e
  | .fmt f, n, m, e =>
    let (mag, inexact) := f.roundCode .near n m e
    { bits := f.signed n (min mag f.largest), flags := roundFlags f mag inexact }

/-- R67: codes 0x10–0x15. -/
def Elem.encode (el : Elem) : Num → FRes
  | .fin n m e => el.encodeFin n m e
  | .inf n =>
    match el with
    | .mxint8 => { bits := if n then 0x80 else 0x7F, flags := flagNV }
    | .fmt f =>
      match f.infinity with
      | some i => { bits := f.signed n i, flags := 0#5 }
      | none => { bits := f.signed n f.largest, flags := flagNV }
  | .nan s =>
    match el with
    | .mxint8 => { bits := 0x7F, flags := flagNV }
    | .fmt f =>
      match f.nan with
      | some c => { bits := c, flags := if s then flagNV else 0#5 }
      | none => { bits := f.largest, flags := flagNV }

/-- ⌊log2⌋ of a nonzero m × 2^e. -/
def floorLog2 (m : Nat) (e : Int) : Int := e + natSize m - 1

/-- The greater magnitude. -/
def magMax : Num → Num → Num
  | .fin _ m e, .fin _ n f => if Num.cmp (.fin false m e) (.fin false n f) == .lt then .fin false n f else .fin false m e
  | x, _ => x

/-- R65, R239: a block's scale code and its element codes; an exponent above 127 is set to 127. -/
def encodeBlock (el : Elem) (vs : List Num) : Nat × List Nat :=
  if vs.any fun v => match v with | .fin _ _ _ => false | _ => true then (0xFF, vs.map fun _ => 0)
  else
    let x : Int :=
      match vs.foldl magMax (.fin false 0 0) with
      | .fin _ m e => if m = 0 then -127 else min (max (floorLog2 m e - el.emax) (-127)) 127
      | _ => -127
    ((x + 127).toNat, vs.map fun v => (el.encode (v.scale (-x))).bits)

/-! ### fcvt (R66, R67) -/

/-- R66: k is B[7:0] signed. -/
def shiftOf (b : Nat) : Int := if b % 256 < 128 then (b % 256 : Nat) else ((b % 256 : Nat) : Int) - 256

def toIeee (f : Fmt) (rm : Rm) (x : Nat) : FRes :=
  match fp32.decode x with
  | .nan s => nanRes f s
  | v => deliver f rm v

def fromIeee (f : Fmt) (x : Nat) : FRes :=
  match f.decode x with
  | .nan s => nanRes fp32 s
  | v => deliver fp32 .near v

/-- R67; `none` for a code that is not listed. -/
def fcvtRes (code : Nat) (rm : Rm) (a b : Nat) : Option FRes :=
  match code with
  | 0x01 => some (toIeee fp16 rm a)
  | 0x02 => some (toIeee bf16 rm a)
  | 0x03 => some (fromIeee fp16 (a % 65536))
  | 0x04 => some (fromIeee bf16 (a % 65536))
  | 0x05 => some (fromIeee fp16 (a / 65536))
  | 0x06 => some (fromIeee bf16 (a / 65536))
  | 0x07 =>
    let x := toIeee fp16 rm a
    let y := toIeee fp16 rm b
    some { bits := x.bits + 65536 * y.bits, flags := x.flags ||| y.flags }
  | 0x08 =>
    let x := toIeee bf16 rm a
    let y := toIeee bf16 rm b
    some { bits := x.bits + 65536 * y.bits, flags := x.flags ||| y.flags }
  | code =>
    if code < 0x10 then none
    else if code < 0x18 then
      (Elem.ofIndex (code - 0x10)).map fun el => el.encode ((fp32.decode a).scale (-shiftOf b))
    else
      (Elem.ofIndex (code - 0x18)).map fun el =>
        match el.decode a with
        | .nan s => nanRes fp32 s
        | v => deliver fp32 .near (v.scale (shiftOf b))

/-- R67: whether a code reads B. -/
def fcvtReadsB (code : Nat) : Bool := code = 0x07 || code = 0x08 || 0x10 ≤ code

/-- R67: whether a code is listed. -/
def fcvtListed (code : Nat) : Bool := (fcvtRes code .near 0 0).isSome

/-! ### Packed forms (R201) -/

def packed (f : Nat → Nat → Nat → FRes) (a b c : Nat) : FRes :=
  let lo := f (a % 65536) (b % 65536) (c % 65536)
  let hi := f (a / 65536) (b / 65536) (c / 65536)
  { bits := lo.bits + 65536 * hi.bits, flags := lo.flags ||| hi.flags }

/-! ### Special functions (R202, R203; log 8, DEDUCED) -/

inductive Special where
  | rcp | rsq | sqrt | ex2 | lg2 | sin | cos | tanh
  deriving DecidableEq, Repr

def zeroRes (neg : Bool) : FRes := { bits := fp32.signed neg 0, flags := 0#5 }
def infRes (neg : Bool) (fl : Flags) : FRes := { bits := fp32.signed neg 0x7F800000, flags := fl }
def oneRes (neg : Bool) (fl : Flags) : FRes := { bits := fp32.signed neg 0x3F800000, flags := fl }

/-- R203: the row of an infinity. -/
def Special.atInf (s : Special) (neg : Bool) : FRes :=
  match s with
  | .rcp => zeroRes neg
  | .rsq => if neg then nanRes fp32 true else zeroRes false
  | .sqrt | .lg2 => if neg then nanRes fp32 true else infRes false 0#5
  | .ex2 => if neg then zeroRes false else infRes false 0#5
  | .sin | .cos => nanRes fp32 true
  | .tanh => oneRes neg 0#5

/-- R203: the rows of the zeros. -/
def Special.atZero (s : Special) (neg : Bool) : FRes :=
  match s with
  | .rcp | .rsq => infRes neg flagDZ
  | .sqrt | .sin | .tanh => zeroRes neg
  | .ex2 | .cos => oneRes false 0#5
  | .lg2 => infRes true flagDZ

/-- ± m × 2^e is below 2^n in magnitude. -/
def magBelow (m : Nat) (e : Int) (n : Int) : Bool := m = 0 || floorLog2 m e < n

/-- R202, R203: a nonzero finite a. -/
def Special.atFin (s : Special) (rm : Rm) (x : Nat) (neg : Bool) (m : Nat) (e : Int) : FRes :=
  match s with
  | .rcp => deliver fp32 rm (recipNum neg m e)
  | .sqrt => if neg then nanRes fp32 true else deliver fp32 rm (sqrtNum m e)
  | .rsq => if neg then nanRes fp32 true else deliver fp32 .near (rsqrtNum m e)
  | .ex2 =>
    let v := signedAt neg m e (min e 0)
    let d : Int := 2 ^ (-(min e 0)).toNat
    if 128 * d ≤ v then infRes false (flagOF ||| flagNX)
    else if v ≤ -150 * d then { bits := 0, flags := flagUF ||| flagNX }
    else if v % d = 0 then deliver fp32 .near (.fin false 1 (v / d))
    else deliver fp32 .near (exp2Num neg m e)
  | .lg2 =>
    if neg then nanRes fp32 true
    else if m = 2 ^ Nat.log2 m then
      let k := e + Nat.log2 m
      deliver fp32 .near (.fin (k < 0) k.natAbs 0)
    else deliver fp32 .near (log2Num m e)
  | .sin => if magBelow m e (-126) then { bits := x, flags := flagUF ||| flagNX } else deliver fp32 .near (sinNum neg m e)
  | .cos => deliver fp32 .near (cosNum m e)
  | .tanh =>
    if magBelow m e (-126) then { bits := x, flags := flagUF ||| flagNX }
    else if 10 * 2 ^ 24 ≤ (roundAt .zero false m e (-24)).1 then oneRes neg flagNX
    else deliver fp32 .near (tanhNum neg m e)

def Special.res (s : Special) (rm : Rm) (x : Nat) : FRes :=
  match fp32.decode x with
  | .nan sg => nanRes fp32 sg
  | .inf n => s.atInf n
  | .fin n m e => if m = 0 then s.atZero n else s.atFin rm x n m e

end Sys2Proof.Machine
end

