-- ==== Sys2Proof/Machine/Shape.lean ====
section
/-!
DEFINITION. What is judged of an instruction's fields when it issues (R23, R24, R27–R33, R44–R46): the class of each name, how
an opcode uses each field, and the defect of lowest code.
-/
namespace Sys2Proof.Machine

/-- R22: the class of a source; `absent` is `none`. -/
inductive Cls where
  | varying | uniform | affine | absent
  deriving DecidableEq, Repr

/-- R40: what a latch would supply to the lanes of the bundle: nothing, or a class and whether a pair. -/
inductive LatchSupply where
  | empty
  | holds (cls : Cls) (pair : Bool)
  deriving DecidableEq, Repr

/-- R22: the class of a name; a latch has its fill's. A latch that holds nothing has none (`Use.classes`). -/
def nameCls (latch : Fin 4 → LatchSupply) : Name → Cls
  | .v _ | .qlane => .varying
  | .a _ | .lane => .affine
  | .none => .absent
  | .latch k =>
    match latch k with
    | .empty => .varying
    | .holds c _ => c
  | _ => .uniform

/-- How an opcode uses a source field. -/
inductive Use where
  /-- R28: holds 0x0FF. -/
  | unused
  /-- Read; `regs` registers when the name is varying, `aligned` when they start at a multiple of `regs` (R23). -/
  | src (regs : Nat) (aligned : Bool)
  /-- A number in the field, judged by its bits. -/
  | number (ok : Nat → Bool)

/-- How an opcode uses its destination field. -/
inductive Dst where
  | unused
  /-- A register result of `regs` registers when varying; `none` discards it (R28). -/
  | reg (regs : Nat)
  deriving DecidableEq, Repr

/-- How an opcode takes a K literal (R31, R32, R212). -/
inductive KForm where
  /-- As its B operand, if it reads one. -/
  | asB
  /-- Only K form is defined. -/
  | required
  /-- R32: an X function that reads A and no B; the literal is its A operand. -/
  | asA
  deriving DecidableEq, Repr

/-- An opcode's use of its fields. `rule` judges the classes of D, A, B and C. -/
structure Shape where
  a : Use
  b : Use
  c : Use
  d : Dst
  rule : Cls → Cls → Cls → Cls → Bool
  k : KForm
  /-- R30: only a uniform guard, whatever D is. -/
  uniGuard : Bool
  /-- R32: an X-form post. -/
  post : Bool
  /-- The level below which the opcode raises Privilege (R282). -/
  level : Level
  /-- An undefined code within the opcode (R66). -/
  undefined : Bool
  /-- K literals are zero-extended (R178). -/
  zeroExt : Bool
  /-- R170: subject to the uniformity rule whatever D is. -/
  full : Bool
  /-- What stood in D counts in the result of a lane that executes. -/
  readsD : Bool
  /-- R141: stalls a glide. -/
  stalls : Bool
  /-- Cycles of its slot (R189, R204). -/
  cost : Nat

/-! ### Class rules -/

def Cls.isUni (c : Cls) : Bool := c == .uniform
def Cls.uniOrAbsent (c : Cls) : Bool := c == .uniform || c == .absent
def Cls.noAffine (c : Cls) : Bool := c != .affine

/-- R167: any class into a varying D, only uniform ones into a uniform D, no affine D. An absent D takes any (log 11, DEDUCED). -/
def ruleInt (d a b c : Cls) : Bool :=
  match d with
  | .varying | .absent => true
  | .uniform => a.uniOrAbsent && b.uniOrAbsent && c.uniOrAbsent
  | .affine => false

/-- R167, R169: also affine ± affine, affine ± uniform, uniform ± affine. -/
def ruleAdd (d a b c : Cls) : Bool :=
  match d with
  | .affine => (a == .affine && (b == .affine || b == .uniform)) || (a == .uniform && b == .affine)
  | _ => ruleInt d a b c

/-- R167, R169: also affine × uniform. -/
def ruleMul (d a b c : Cls) : Bool :=
  match d with
  | .affine => a == .affine && b == .uniform
  | _ => ruleInt d a b c

/-- R167, R169, R177: also an affine copy, from whichever field holds the source. -/
def ruleMov (d a b c : Cls) : Bool :=
  match d with
  | .affine => (a == .affine && b == .absent) || (a == .absent && b == .affine)
  | _ => ruleInt d a b c

/-- R180: a varying D, or none. -/
def ruleVar (d _a _b _c : Cls) : Bool := d == .varying || d == .absent

/-! ### Shapes -/

def Shape.base : Shape :=
  { a := .unused, b := .unused, c := .unused, d := .unused, rule := fun _ _ _ _ => true, k := .asB, uniGuard := false,
    post := false, level := .user, undefined := false, zeroExt := false, full := false, readsD := false, stalls := false, cost := 1 }

def src1 : Use := .src 1 true

/-- One, two or three sources and a result. -/
def shA (rule : Cls → Cls → Cls → Cls → Bool) : Shape := { Shape.base with a := src1, d := .reg 1, rule := rule }
def shAB (rule : Cls → Cls → Cls → Cls → Bool) : Shape := { shA rule with b := src1 }
def shABC (rule : Cls → Cls → Cls → Cls → Bool) : Shape := { shAB rule with c := src1 }

/-- No operands. -/
def shNone : Shape := Shape.base

/-- A number in C and nothing else. -/
def shNum (ok : Nat → Bool) : Shape := { Shape.base with c := .number ok }

/-! ### Judging -/

/-- R23: whether a register group starts where it may and ends within the file. -/
def groupOk (n regs size : Nat) (aligned : Bool) : Bool := (!aligned || n % regs == 0) && n + regs ≤ size

/-- R23, R124: the registers of a multi-register operand. Log 11, DEDUCED. -/
def nameGroupOk (regs : Nat) (aligned : Bool) : Name → Bool
  | .v n => groupOk n.val regs 128 aligned
  | .s n => aligned || groupOk n.val regs 64 aligned
  | .latch _ => true
  | .a _ => aligned
  | .qlane => regs == 1
  | _ => regs == 1 || aligned

/-- R24: names that a last-read bit may stand on. -/
def nameRenamed : Name → Bool
  | .v _ | .s _ | .a _ | .latch _ => true
  | _ => false

def nameReserved : Name → Bool
  | .reserved _ => true
  | _ => false

/-- R22: a name usable as a destination, or none. -/
def nameIsDest : Name → Bool
  | .v _ | .s _ | .a _ | .none => true
  | _ => false

def nameIsLatch : Name → Bool
  | .latch _ => true
  | _ => false

/-- R23, R24, R28: a source field's reserved-bits defects. `litHere` where 0xEF may stand. Log 29, DEDUCED. -/
def Use.reserved (u : Use) (x : Src) (litHere : Bool) : Bool :=
  match u with
  | .unused => x != { name := .none, last := false }
  | .number ok => !ok x.bits
  | .src _ _ => nameReserved x.name || (x.name == .lit && !litHere) || (x.last && !nameRenamed x.name)

/-- R23, R40: a source field's operand-class defects by itself. Log 11, DEDUCED. -/
def Use.badClass (u : Use) (latch : Fin 4 → LatchSupply) (sForm : Bool) (x : Src) : Bool :=
  match u with
  | .unused | .number _ => false
  | .src regs aligned =>
    x.name == .none || !nameGroupOk regs aligned x.name || (sForm && nameIsLatch x.name) ||
      match x.name with
      | .latch k =>
        match latch k with
        | .holds .varying pair => (if pair then 2 else 1) < regs
        | .holds .uniform _ => !aligned && 1 < regs
        | _ => false
      | _ => false

def Use.isSrc : Use → Bool
  | .src _ _ => true
  | _ => false

/-- The class of a field for the class rule: absent where it is no source. -/
def Use.cls (u : Use) (latch : Fin 4 → LatchSupply) (x : Src) : Cls := if u.isSrc then nameCls latch x.name else .absent

/-- R40, R45: the classes that a field may turn out to have: a latch without a fill has none yet, and it raises LatchEmpty only where no
class defect stands. -/
def Use.classes (u : Use) (latch : Fin 4 → LatchSupply) (x : Src) : List Cls :=
  match u, x.name with
  | .src _ _, .latch k =>
    match latch k with
    | .empty => [.varying, .uniform, .affine]
    | .holds c _ => [c]
  | _, _ => [u.cls latch x]

/-- R31, R32: how the K form is used: the fields after it is resolved, or `none` for a defect. A K form read as A stands in A
with 0xEF in B. Log 29, DEDUCED. -/
def Shape.kDefect (sh : Shape) (o : Ops) : Bool :=
  match sh.k with
  | .asB => o.lit.isSome && o.b != { name := .lit, last := false }
  | .required => o.lit.isNone || o.b != { name := .lit, last := false }
  | .asA => o.lit.isSome && (o.b != { name := .lit, last := false } || o.a != { name := .none, last := false })

/-- R31, R32: the use of A and B in the form at hand. -/
def Shape.uses (sh : Shape) (o : Ops) : Use × Use :=
  if sh.k == .asA && o.lit.isSome then (.unused, src1) else (sh.a, sh.b)

/-- R44: ReservedBits. Log 29, DEDUCED. -/
def Shape.reserved (sh : Shape) (o : Ops) : Bool :=
  let (ua, ub) := sh.uses o
  o.top || sh.kDefect o
    || ua.reserved o.a false || ub.reserved o.b o.lit.isSome || sh.c.reserved o.c false
    || nameReserved o.d || o.d == .lit
    || (match sh.d with
        | .unused => o.d != .none || o.nwb
        | .reg _ => o.nwb && (o.d == .none || sh.post))
    || nameReserved o.guard.reg || o.guard.reg == .lit
    || (o.guard.reg == .none && (o.guard.bit != 0#5 || o.guard.sense))

/-- R30: the class of a guard name; a latch is refused before its class counts. -/
def guardCls (g : Guard) : Cls := nameCls (fun _ => .empty) g.reg

/-- R30: a guard that the opcode does not accept. -/
def Shape.guardDefect (sh : Shape) (o : Ops) (d : Cls) : Bool :=
  nameIsLatch o.guard.reg ||
    ((guardCls o.guard == .varying || guardCls o.guard == .affine)
      && (sh.uniGuard || sh.post || (sh.d != .unused && (d == .uniform || d == .affine))))

/-- The class of the destination: absent where there is none. -/
def Shape.dCls (sh : Shape) (o : Ops) : Cls := if sh.d == .unused then .absent else nameCls (fun _ => .empty) o.d

/-- R44: OperandClass. -/
def Shape.badClass (sh : Shape) (latch : Fin 4 → LatchSupply) (sForm : Bool) (o : Ops) : Bool :=
  let (ua, ub) := sh.uses o
  let d := sh.dCls o
  ua.badClass latch sForm o.a || ub.badClass latch sForm o.b || sh.c.badClass latch sForm o.c
    || (match sh.d with
        | .unused => false
        | .reg regs => !nameIsDest o.d || !nameGroupOk regs true o.d)
    || !((ua.classes latch o.a).any fun a => (ub.classes latch o.b).any fun b => (sh.c.classes latch o.c).any fun c => sh.rule d a b c)
    || sh.guardDefect o d

/-- R44: LatchEmpty. -/
def Shape.latchEmpty (sh : Shape) (latch : Fin 4 → LatchSupply) (o : Ops) : Bool :=
  let (ua, ub) := sh.uses o
  let e (u : Use) (x : Src) : Bool :=
    u.isSrc && match x.name with
      | .latch k => latch k == .empty
      | _ => false
  e ua o.a || e ub o.b || e sh.c o.c

/-- R44, R45: the sub-cause of IllegalInstruction of lowest code. -/
def Shape.defect (sh : Shape) (latch : Fin 4 → LatchSupply) (sForm : Bool) (o : Ops) : Option (BitVec 16) :=
  if sh.undefined then some 0x0001#16
  else if sh.reserved o then some 0x0002#16
  else if sh.badClass latch sForm o then some 0x0003#16
  else if sh.latchEmpty latch o then some 0x0004#16
  else none

/-! ### S forms as L forms (R26) -/

def noSrc : Src := { name := .none, last := false }
def noGuard : Guard := { reg := .none, bit := 0#5, sense := false }
def plainSrc (n : Name) : Src := { name := n, last := false }

/-- R26: D, A, B of an S form. -/
def sOps (d a b : Name) : Ops :=
  { hold := false, top := false, a := plainSrc a, b := plainSrc b, c := noSrc, d := d, nwb := false, guard := noGuard, lit := none }

/-- R26: D, A and an immediate, which acts as a uniform literal. -/
def sImm (d a : Name) (lit : Word32) : Ops :=
  { hold := false, top := false, a := plainSrc a, b := plainSrc .lit, c := noSrc, d := d, nwb := false, guard := noGuard, lit := some lit }

/-- R26: the store form. -/
def sStore (a : Name) (lit : Word32) (c : Name) : Ops := { sImm .none a lit with c := plainSrc c }

end Sys2Proof.Machine
end

