-- ==== Sys2Proof/Machine/Operands.lean ====
section
/-!
DEFINITION. Every operand form: register files (R166, R171), special names (R22, R276), latches (R38–R41), literals (R31),
values at 32 and 64 bits (R168, R190), pairs, address terms (R115), guards (R30), and register writes and releases (R24).
-/
namespace Sys2Proof.Machine

/-- What issues: the squad, the bundle's lanes, the address and length in bytes of the instruction, its words, its fields. -/
structure Cx where
  key : Nat
  lanes : LaneMask
  pc : Word64
  len : Nat
  words : List Word32
  sForm : Bool
  o : Ops
  deriving DecidableEq, Repr

/-! ### Register files -/

def zeros : List Word32 := List.replicate 32 0#32

/-- Log 45, DEDUCED. -/
def Files.readV (f : Files) (n : Nat) : List Word32 := ((mapGet f.v n).map (·.lanes)).getD zeros
def Files.readS (f : Files) (n : Nat) : Word64 := ((mapGet f.s n).map (·.val)).getD 0#64
def Files.readA (f : Files) (n : Nat) : Word64 × Word32 := ((mapGet f.a n).map fun r => (r.base, r.stride)).getD (0#64, 0#32)

/-- R171: a write maps the name for all lanes; lanes the write does not reach keep their value, or read zero if the name was
unmapped. -/
def Files.writeV (f : Files) (n : Nat) (m : LaneMask) (vals : List Word32) : Files :=
  let old := f.readV n
  let new := perLane fun i => if m.getLsbD i then vals.getD i 0#32 else old.getD i 0#32
  if m = 0#32 then f else { f with v := mapSet f.v n { lanes := new, spilled := false } }
def Files.writeS (f : Files) (n : Nat) (w : Word64) : Files := { f with s := mapSet f.s n { val := w, spilled := false } }
def Files.writeA (f : Files) (n : Nat) (base : Word64) (stride : Word32) : Files :=
  { f with a := mapSet f.a n { base := base, stride := stride, spilled := false } }

/-- R24: a released name is unmapped. -/
def Files.release (f : Files) : Name → Files
  | .v n => { f with v := mapErase f.v n.val }
  | .s n => { f with s := mapErase f.s n.val }
  | .a n => { f with a := mapErase f.a n.val }
  | _ => f

/-- The register `k` after a name in its file. -/
def nameAfter (k : Nat) : Name → Name
  | .v n => .v ⟨(n.val + k) % 128, Nat.mod_lt _ (by decide)⟩
  | .s n => .s ⟨(n.val + k) % 64, Nat.mod_lt _ (by decide)⟩
  | n => n

/-! ### Values -/

/-- A source operand as read: lane values of one or two registers, or a uniform value, or base and stride. -/
structure Opnd where
  cls : Cls
  lo : List Word32
  hi : List Word32
  w : Word64
  stride : Word32
  deriving DecidableEq, Repr

def Opnd.absent : Opnd := { cls := .absent, lo := zeros, hi := zeros, w := 0#64, stride := 0#32 }
def Opnd.uni (w : Word64) : Opnd := { Opnd.absent with cls := .uniform, w := w }
def Opnd.aff (b : Word64) (st : Word32) : Opnd := { Opnd.absent with cls := .affine, w := b, stride := st }
def Opnd.vary (lo hi : List Word32) : Opnd := { Opnd.absent with cls := .varying, lo := lo, hi := hi }

/-- R166: lane L of an affine value. -/
def affineAt (base : Word64) (stride : Word32) (L : Nat) : Word64 := base + stride.signExtend 64 * BitVec.ofNat 64 L

/-- R115, R168: the 64-bit value for a lane: a varying lane value zero-extended, a uniform value, an affine lane value. -/
def Opnd.at64 (x : Opnd) (L : Nat) : Word64 :=
  match x.cls with
  | .varying => (x.lo.getD L 0#32).zeroExtend 64
  | .uniform => x.w
  | .affine => affineAt x.w x.stride L
  | .absent => 0#64

/-- R168, R190: the low 32 bits of the value for a lane. -/
def Opnd.at32 (x : Opnd) (L : Nat) : Word32 := (x.at64 L).truncate 32

/-- R168: the 64-bit pair operand for a lane. -/
def Opnd.pairAt (x : Opnd) (L : Nat) : Word64 :=
  match x.cls with
  | .varying => (x.hi.getD L 0#32) ++ (x.lo.getD L 0#32)
  | _ => x.at64 L

/-- R168: the 64-bit value of an operand for a uniform destination. -/
def Opnd.uniVal (x : Opnd) : Word64 := x.at64 0

/-! ### Special names -/

/-- R276: the value of a uniform special name. -/
def specialVal (s : State) (q : Squad) (n : Name) : Word64 :=
  match s.grid? q.grid with
  | none => 0#64
  | some g =>
    let d := g.desc
    BitVec.ofNat 64 <| match n with
      | .sq => q.sq
      | .gx => q.group % d.ngx
      | .gy => q.group / d.ngx % d.ngy
      | .gz => q.group / (d.ngx * d.ngy)
      | .ngx => d.ngx
      | .ngy => d.ngy
      | .ngz => d.ngz
      | .nsq => d.nsq
      | .argsz => g.args.length
      | .ctx => g.ctx
      | _ => 0

/-- R22: a name's value, no latch and no literal. -/
def readName (s : State) (q : Squad) (f : Files) (n : Name) : Opnd :=
  match n with
  | .v n => .vary (f.readV n.val) (f.readV (n.val + 1))
  | .s n => .uni (f.readS n.val)
  | .a n => let (b, st) := f.readA n.val; .aff b st
  | .lane => .aff 0#64 1#32
  | .qlane => .vary (perLane fun i => BitVec.ofNat 32 (i % 4)) zeros
  | .none => .absent
  | n => .uni (specialVal s q n)

/-! ### Latches -/

/-- R277: the issue slot of a squad. -/
def Squad.issueSlot (q : Squad) : Nat := q.slot % 4

/-- R39: the run that the bundle stands in, if it stands in one. -/
def currentRun (s : State) (key : Nat) (q : Squad) (lanes : LaneMask) : Option Run :=
  match mapGet (s.core (s.coreOf q)).runs q.issueSlot with
  | some r => if r.squad = key ∧ r.lanes = lanes then some r else none
  | none => none

def Run.fill (r : Option Run) (k : Fin 4) : Option Fill := r.bind fun r => r.fills.getD k.val none

def LatchVal.cls : LatchVal → Cls
  | .varying _ _ => .varying
  | .uniform _ => .uniform
  | .affine _ _ => .affine

def destCls (n : Name) : Cls := nameCls (fun _ => .empty) n

/-- R40: the records of a latch in the bundle's lanes, ascending. -/
def latchRecs (q : Squad) (lanes : LaneMask) (k : Fin 4) : List (Option LatchRec) :=
  (lanesOf lanes).map fun i => (q.lane i).latchRec.getD k.val none

/-- R40: what a latch would supply. Records of the lanes that differ in class count as varying (log 12, DEDUCED). -/
def latchSupply (q : Squad) (run : Option Run) (lanes : LaneMask) (k : Fin 4) : LatchSupply :=
  match Run.fill run k with
  | some f => .holds f.val.cls f.pair
  | none =>
    let rs := latchRecs q lanes k
    if rs.any Option.isNone then .empty
    else match rs.filterMap id with
      | [] => .empty
      | r :: rest =>
        let c := destCls r.name
        .holds (if rest.all fun r' => destCls r'.name == c then c else .varying) (r.pair && rest.all (·.pair))

/-- R40: a latch's value. Records of the lanes that name different registers of one uniform or affine class: the lowest lane's register
serves the bundle. Log 12, DEDUCED. -/
def readLatch (s : State) (q : Squad) (f : Files) (run : Option Run) (lanes : LaneMask) (k : Fin 4) : Opnd :=
  match Run.fill run k with
  | some fl =>
    match fl.val with
    | .varying lo hi => .vary lo hi
    | .uniform w => .uni w
    | .affine b st => .aff b st
  | none =>
    let recOf (i : Nat) : Name := (((q.lane i).latchRec.getD k.val none).map (·.name)).getD .none
    match latchSupply q run lanes k with
    | .holds .varying _ =>
      .vary (perLane fun i => (readName s q f (recOf i)).at32 i) (perLane fun i => (readName s q f (nameAfter 1 (recOf i))).at32 i)
    | _ => readName s q f (recOf (lowLane lanes))

/-- R24, R40: the names that a read with its last-read bit releases. -/
def releasedBy (q : Squad) (run : Option Run) (lanes : LaneMask) (u : Use) (x : Src) : List Name :=
  if !x.last then []
  else match x.name, u with
    | .latch k, _ =>
      match Run.fill run k with
      | some f => if f.pair then [f.name, nameAfter 1 f.name] else [f.name]
      | none => (latchRecs q lanes k).flatMap fun r =>
          match r with
          | some r => if r.pair then [r.name, nameAfter 1 r.name] else [r.name]
          | none => []
    | n, .src regs aligned =>
      match n with
      | .v _ => (List.range regs).map fun i => nameAfter i n
      | .s _ => if aligned then [n] else (List.range regs).map fun i => nameAfter i n
      | _ => [n]
    | n, _ => [n]

/-- R31: the literal as a 64-bit value. -/
def litVal (zeroExt : Bool) (w : Word32) : Word64 := if zeroExt then w.zeroExtend 64 else w.signExtend 64

/-- A source field's operand. -/
def readSrc (s : State) (q : Squad) (f : Files) (run : Option Run) (cx : Cx) (zeroExt : Bool) (x : Src) : Opnd :=
  match x.name with
  | .lit => .uni (litVal zeroExt (cx.o.lit.getD 0#32))
  | .latch k => readLatch s q f run cx.lanes k
  | n => readName s q f n

/-- The three operands of an instruction, the A operand of a K form of R32 taken from its literal. -/
structure Opnds where
  a : Opnd
  b : Opnd
  c : Opnd
  deriving DecidableEq, Repr

def readOpnds (s : State) (q : Squad) (f : Files) (run : Option Run) (cx : Cx) (sh : Shape) : Opnds :=
  let rd (u : Use) (x : Src) : Opnd := if u.isSrc then readSrc s q f run cx sh.zeroExt x else .absent
  if sh.k == .asA && cx.o.lit.isSome then { a := rd src1 cx.o.b, b := .absent, c := rd sh.c cx.o.c }
  else { a := rd sh.a cx.o.a, b := rd sh.b cx.o.b, c := rd sh.c cx.o.c }

/-! ### Guards (R30) -/

/-- R30: whether a lane executes. -/
def guardHolds (s : State) (q : Squad) (f : Files) (g : Guard) (L : Nat) : Bool :=
  g.reg == .none || ((readName s q f g.reg).at64 L).getLsbD g.bit.toNat == g.sense

/-- R30: the lanes of a bundle that execute. -/
def activeLanes (s : State) (q : Squad) (f : Files) (cx : Cx) : LaneMask :=
  maskOf fun i => cx.lanes.getLsbD i && guardHolds s q f cx.o.guard i

/-! ### Address terms (R115) -/

def addressAt (a b : Opnd) (L : Nat) : Word64 := a.at64 L + b.at64 L

/-- R115: whether an affine operand's lane values agree in bits [63:48] over the lanes. -/
def spanOk (x : Opnd) (active : LaneMask) : Bool :=
  x.cls != .affine ||
    match lanesOf active with
    | [] => true
    | L :: ls => ls.all fun k => (x.at64 k).toNat / 2 ^ 48 == (x.at64 L).toNat / 2 ^ 48

/-! ### Results -/

/-- A register result, in the class of its destination: lane values of D, D+1, …, for the lanes of a mask. -/
inductive Result where
  | none
  /-- R38: no lane executed: D keeps its value, which the latch takes; `pair` tells what the instruction would have written. -/
  | kept (pair : Bool)
  | varying (mask : LaneMask) (regs : List (List Word32))
  | uniform (w : Word64)
  | affine (b : Word64) (st : Word32)
  deriving DecidableEq, Repr

/-- Writes lane values to consecutive registers. -/
def writeRegs (f : Files) (n : Nat) (m : LaneMask) : List (List Word32) → Files
  | [] => f
  | vs :: rest => writeRegs (f.writeV n m vs) (n + 1) m rest

/-- Writes a result to a destination of its class; anything else is discarded (R28). -/
def writeResult (f : Files) (d : Name) (r : Result) : Files :=
  match d, r with
  | .v n, .varying m regs => writeRegs f n.val m regs
  | .s n, .uniform w => f.writeS n.val w
  | .a n, .affine b st => f.writeA n.val b st
  | _, _ => f

/-- R41: writes the captured registers of a pending fill. -/
def flushFill (f : Files) (lanes : LaneMask) (fl : Option Fill) : Files :=
  match fl with
  | some fl =>
    if !fl.pending then f
    else match fl.val with
      | .varying lo hi => writeResult f fl.name (.varying lanes (if fl.pair then [lo, hi] else [lo]))
      | .uniform w => writeResult f fl.name (.uniform w)
      | .affine b st => writeResult f fl.name (.affine b st)
  | none => f

/-- R39, R41: the end of a run writes every unwritten latch value into its squad's registers. -/
def endRun (s : State) (core slot : Nat) : State :=
  match mapGet (s.core core).runs slot with
  | none => s
  | some r =>
    let s := s.modSquad r.squad fun q => { q with files := r.fills.foldl (fun f fl => flushFill f r.lanes fl) q.files }
    s.modCore core fun c => { c with runs := mapErase c.runs slot }

/-- R39: the end of whatever run a squad's bundles stand in. -/
def endRunOf (s : State) (key : Nat) : State :=
  match s.squad? key with
  | none => s
  | some q =>
    let core := s.coreOf q
    match mapGet (s.core core).runs q.issueSlot with
    | some r => if r.squad = key then endRun s core q.issueSlot else s
    | none => s

/-- R38: the number of the latch that a destination fills. -/
def latchOf (d : Name) : Nat :=
  match d with
  | .v n => n.val % 4
  | .s n => n.val % 4
  | .a n => n.val % 4
  | _ => 0

/-- R38: what a fill holds after a result: D and D+1 in every lane. -/
def capture (f : Files) (d : Name) (r : Result) : LatchVal :=
  match r, d with
  | .varying m regs, .v n =>
    let get (i : Nat) : List Word32 :=
      let old := f.readV (n.val + i)
      match regs[i]? with
      | some vs => perLane fun L => if m.getLsbD L then vs.getD L 0#32 else old.getD L 0#32
      | none => old
    .varying (get 0) (get 1)
  | .uniform w, _ => .uniform w
  | .affine b st, _ => .affine b st
  | _, .v n => .varying (f.readV n.val) (f.readV (n.val + 1))
  | _, .s n => .uniform (f.readS n.val)
  | _, .a n => .affine (f.readA n.val).1 (f.readA n.val).2
  | _, _ => .uniform 0#64

/-- R38: whether a result makes a pair fill. -/
def Result.pair : Result → Bool
  | .varying _ regs => 2 ≤ regs.length
  | .kept p => p
  | _ => false

def Result.isKept : Result → Bool
  | .kept _ => true
  | _ => false

/-- The registers a result writes when NWB leaves its first two unwritten (R41). -/
def writeRest (f : Files) (d : Name) (r : Result) : Files :=
  match d, r with
  | .v n, .varying m regs => writeRegs f (n.val + 2) m (regs.drop 2)
  | _, _ => f

/-- R38, R41: writes a result and fills its latch: a fill that stood in the latch unwritten is written first, after the operands were
read; an instruction that names a register which such a fill captured has ended the run before (R39, `clashes`). The lanes of `bad`
faulted: the fill does not include them. Log 12, DEDUCED. -/
def writeDest (s : State) (cx : Cx) (fills : Bool) (bad : LaneMask) (r : Result) : State :=
  match s.squad? cx.key, r with
  | none, _ | _, .none => s
  | some q, r =>
    if !nameIsDest cx.o.d || cx.o.d == .none then s
    else if !fills then s.setSquad cx.key { q with files := writeResult q.files cx.o.d r }
    else
      let core := s.coreOf q
      let slot := q.issueSlot
      let k := latchOf cx.o.d
      let run := (currentRun s cx.key q cx.lanes).getD { squad := cx.key, lanes := cx.lanes, fills := [none, none, none, none] }
      let f := flushFill q.files cx.lanes (run.fills.getD k none)
      let held := cx.o.nwb && !r.isKept
      let fill : Fill := { name := cx.o.d, pair := r.pair, val := capture f cx.o.d r, pending := held }
      let f' := if cx.o.nwb then writeRest f cx.o.d r else writeResult f cx.o.d r
      let note (l : Lane) : Lane := { l with latchRec := l.latchRec.set k (some { name := cx.o.d, pair := r.pair }) }
      let s := s.setSquad cx.key ({ q with files := f' }.onLanes (cx.lanes &&& ~~~bad) note)
      s.modCore core fun c => { c with runs := mapSet c.runs slot { run with fills := run.fills.set k (some fill) } }

/-- R24, R41: releases names, and drops the pending fills whose registers are released. -/
def releaseNames (s : State) (cx : Cx) (names : List Name) : State :=
  if names.isEmpty then s
  else match s.squad? cx.key with
    | none => s
    | some q =>
      let s := s.setSquad cx.key { q with files := names.foldl Files.release q.files }
      let clear (fl : Option Fill) : Option Fill :=
        fl.map fun fl => if names.contains fl.name then { fl with pending := false } else fl
      s.modCore (s.coreOf q) fun c => { c with runs := mapMod c.runs q.issueSlot fun r => { r with fills := r.fills.map clear } }

end Sys2Proof.Machine
end

