-- ==== Sys2Proof/Machine/Arbiter.lean ====
section
/-!
DEFINITION. A cluster's power arbiter (R308, R309): requests, grants in strict order, returns; the vector pipe's windows; the
charge of R315.
-/
namespace Sys2Proof.Machine

/-- R308: the classes of a reservation. -/
def resMatrix : Nat := 0
def resVector : Nat := 1
def resCopy : Nat := 2
def resClause : Nat := 3

/-- R308: the units a reservation of a class takes. -/
def unitsOf (cls : Nat) : Nat := if cls = resMatrix then 16 else if cls = resVector then 2 else if cls = resCopy then 1 else 4

def unitsUsed (q : List Reservation) : Nat := (q.filter (·.granted)).foldl (fun n r => n + r.units) 0

/-- R308: the first request that waits is granted if it fits; a later one never before it. -/
def grantNext (budget used cycle : Nat) : List Reservation → List Reservation
  | [] => []
  | r :: rs =>
    if r.granted then r :: grantNext budget used cycle rs
    else if used + r.units ≤ budget then { r with granted := true, at_ := cycle } :: rs
    else r :: rs

/-- Whether a grant is due. -/
def grantDue (c : Cluster) : Bool :=
  match c.queue.find? (!·.granted) with
  | some r => unitsUsed c.queue + r.units ≤ c.budget
  | none => false

def State.grantIn (s : State) (cluster : Nat) : State :=
  s.modCluster cluster fun c => { c with queue := grantNext c.budget (unitsUsed c.queue) s.cycle c.queue }

/-- The reservation of an owner in a class. -/
def State.reservation (s : State) (cluster cls owner : Nat) : Option Reservation :=
  (s.cluster cluster).queue.find? fun r => r.cls == cls && r.owner == owner

/-- R308: a request joins the queue; it is granted at once if nothing waits before it and it fits. -/
def State.ask (s : State) (cluster cls owner : Nat) : State :=
  let (id, s) := s.fresh
  let r : Reservation := { id := id, cls := cls, owner := owner, units := unitsOf cls, granted := false, at_ := 0 }
  (s.modCluster cluster fun c => { c with queue := c.queue ++ [r] }).grantIn cluster

/-- R308: units are returned. -/
def State.giveBack (s : State) (cluster cls owner : Nat) : State :=
  s.modCluster cluster fun c => { c with queue := c.queue.filter fun r => !(r.cls == cls && r.owner == owner) }

/-- Requests a reservation unless it is requested already; whether it is granted. -/
def State.want (s : State) (cluster cls owner : Nat) : Bool × State :=
  let s := if (s.reservation cluster cls owner).isSome then s else s.ask cluster cls owner
  (((s.reservation cluster cls owner).map (·.granted)).getD false, s)

/-! ### The vector pipe (R309, R315) -/

/-- R308: cycles of a window. -/
def windowCycles : Nat := 64

/-- R309: the window of an issue slot of a core: an expired one is returned, and a new one requested. -/
def vectorWindow (s : State) (q : Squad) : Bool × State :=
  let core := s.coreOf q
  let cl := clusterOf core
  let owner := 4 * core + q.issueSlot
  let s := match s.reservation cl resVector owner with
    | some r => if r.granted && r.at_ + windowCycles ≤ s.cycle then s.giveBack cl resVector owner else s
    | none => s
  s.want cl resVector owner

/-- R310: the weight of an island's level. -/
def levelWeight (n : Nat) : Nat := [3, 3, 4, 6, 8, 10, 13, 16].getD n 16

/-- R315: the vector-pipe cycles of an instruction of a bundle are charged to its context. -/
def chargeFor (s : State) (q : Squad) (lanes : LaneMask) (cycles : Nat) : Nat :=
  cycles * (lanesOf lanes).length * levelWeight (s.island (4 * s.coreOf q + q.issueSlot)).level

def State.charge (s : State) (ctx n : Nat) : State := s.modCtx ctx fun c => { c with energy := c.energy + BitVec.ofNat 64 n }

end Sys2Proof.Machine
end

