-- ==== Sys2Proof/Machine/Memory.lean ====
section
/-!
DEFINITION. Main memory: the physical space (R69), page tables and walks (R71–R73), cached translations (R75), page requests
(R77, R78), keys (R324), range logs (R327), and reads and writes of physical bytes.
-/
namespace Sys2Proof.Machine

/-! ### The physical space -/

inductive Backing where
  | lpddr (die : Nat) | expander (port : Nat) | host | unbacked
  deriving DecidableEq, Repr

/-- R69; a port backs as many bytes as its expander holds, read at firmware load (R331). -/
def State.region (s : State) (pa : Nat) : Backing :=
  if pa < 2 ^ 40 then .lpddr (pa / 2 ^ 38)
  else if 2 ^ 41 ≤ pa ∧ pa < 5 * 2 ^ 41 then
    let n := pa / 2 ^ 41 - 1
    if pa % 2 ^ 41 < s.firmware.expanders.getD n 0 then .expander n else .unbacked
  else if 2 ^ 51 ≤ pa ∧ pa < 2 ^ 52 then .host
  else .unbacked

/-- The slots of 0–15 that meet a condition: the only one, or one of the free choice at a place. Log 13, DESIGN CHOICE. -/
def pickSlot (choice : Nat → Nat) (pa : Nat) (p : Nat → Bool) : Option Nat :=
  match (List.range 16).filter p with
  | [] => none
  | [k] => some k
  | ks => ks[choice pa % ks.length]?

/-- R69, R317: the partition that owns the memory at an address: the owner of the LPDDR6 channel of its 2 KiB unit, or a holder of a
share of its port. Which channel of a die and which share an address belongs to is free (log 13, DESIGN CHOICE). -/
def State.ownerIn (s : State) (held : Nat → BitVec 128 × List Nat) (pa : Nat) : Option Nat :=
  match s.region pa with
  | .lpddr d =>
    let onDie (k : Nat) : Bool := (held k).1.toNat / 2 ^ (32 * d) % 2 ^ 32 != 0
    let onChannel (k : Nat) : Bool := (held k).1.getLsbD (32 * d + Config.unitChannel (pa / Config.channelUnit) % 32)
    match (List.range 16).filter onDie with
    | [k] => some k
    | _ => (List.range 16).find? onChannel
  | .expander n => pickSlot Config.frameShare (pa / 65536) fun k => (held k).2.getD n 0 != 0
  | _ => none
def State.holding (s : State) (k : Nat) : BitVec 128 × List Nat := ((s.part k).channels, (s.part k).xshare)
def State.ownerOf (s : State) (pa : Nat) : Option Nat := s.ownerIn s.holding pa

/-- R317: whether a partition owns the memory at an address. -/
def State.owns (s : State) (slot pa : Nat) : Bool := s.ownerOf pa == some slot

/-- R69, R317: whether a partition owns all of a range, unit by unit of an interleave. -/
def State.ownsRange (s : State) (slot pa n : Nat) : Bool :=
  (List.range ((pa % Config.channelUnit + n + Config.channelUnit - 1) / Config.channelUnit)).all fun i =>
    s.owns slot (pa + i * Config.channelUnit)

/-- R70, R317: whether an address is backed for a partition: an expander port on which its weight is 0 backs nothing for it (log 79, DESIGN
CHOICE). -/
def State.backs (s : State) (slot pa : Nat) : Bool :=
  match s.region pa with
  | .lpddr _ | .host => true
  | .expander n => (s.part slot).xshare.getD n 0 != 0
  | .unbacked => false

/-- R70: whether the data of some bytes of LPDDR6 or expander memory can be corrected. Log 79, DESIGN CHOICE. -/
def State.sound (s : State) (pa n : Nat) : Bool :=
  2 ^ 51 ≤ pa || s.spoiled.all fun u => 32 * u + 32 ≤ pa || pa + n ≤ 32 * u

/-! ### Page tables -/

inductive Need where
  | read | write | fetch | both
  deriving DecidableEq, Repr

/-- R72: what a leaf gives: the physical address of the byte sought, the page's size in bits, its permissions. -/
structure Leaf where
  pa : Nat
  bits : Nat
  r : Bool
  w : Bool
  x : Bool
  key : Nat
  watch : Bool
  deriving DecidableEq, Repr

def Leaf.grants (l : Leaf) : Need → Bool
  | .read => l.r
  | .write => l.w
  | .fetch => l.x
  | .both => l.r && l.w

/-- R73: how a walk fails: R78's outcome code, the address of the entry it stopped at and that entry's level (log 80, DESIGN CHOICE). -/
structure WalkFail where
  outcome : Nat
  entry : Nat
  level : Nat
  deriving DecidableEq, Repr

/-- R71: index shift, index bits and leaf SIZE code of the levels. -/
def walkLevels : List (Nat × Nat × Nat) := [(33, 15, 3), (27, 6, 2), (21, 6, 1), (16, 5, 0)]

/-- R71–R73: a walk from a table through the levels left. It reads plain bytes, whatever key their unit was written under; a stop at a
table that cannot be walked reports the entry's place in that table; a leaf that is malformed is Malformed, whatever it permits
(log 80, DESIGN CHOICE). -/
def walkFrom (s : State) (va : Nat) (need : Need) : Nat → Nat → List (Nat × Nat × Nat) → Except WalkFail Leaf
  | table, level, [] => .error { outcome := 3, entry := table, level := level }
  | table, level, (shift, bits, size) :: rest =>
    let at_ := table + 8 * fieldAt va shift bits
    let fail (o : Nat) : Except WalkFail Leaf := .error { outcome := o, entry := at_, level := level }
    match s.region table with
    | .unbacked | .host => fail 3
    | _ =>
      let e := memNat s.mem at_ 8
      if fieldAt e 0 1 = 0 then fail 1
      else
        let frame := fieldAt e 16 36 * 2 ^ 16
        if fieldAt e 4 1 = 0 then (if level = 4 then fail 3 else walkFrom s va need frame (level + 1) rest)
        else if fieldAt e 6 2 ≠ size ∨ frame % 2 ^ shift ≠ 0 then fail 3
        else
          let l : Leaf :=
            { pa := frame + va % 2 ^ shift, bits := shift, r := fieldAt e 1 1 == 1, w := fieldAt e 2 1 == 1,
              x := fieldAt e 3 1 == 1, key := fieldAt e 57 6, watch := fieldAt e 63 1 == 1 }
          if l.grants need then .ok l else fail 2

/-- R71: a walk from a context's PTROOT. -/
def walk (s : State) (ctx va : Nat) (need : Need) : Except WalkFail Leaf :=
  walkFrom s va need (((s.ctx? ctx).map (·.ptroot.toNat)).getD 0) 1 walkLevels

/-! ### Cached translations (R75) -/

/-- Where a translation is cached: a cluster's data or fetch cache, or a far engine's context (64 + chain). -/
structure Cache where
  cluster : Nat
  use : TlbUse
  deriving DecidableEq, Repr

def TlbEntry.covers (e : TlbEntry) (c : Cache) (ctx va : Nat) : Bool :=
  e.cluster == c.cluster && e.use == c.use && e.ctx == ctx && e.va == va / 2 ^ e.size

def TlbEntry.leaf (e : TlbEntry) (va : Nat) : Leaf :=
  { pa := e.pa + va % 2 ^ e.size, bits := e.size, r := e.r, w := e.w, x := e.x, key := e.key, watch := e.watch }

def Leaf.cached (l : Leaf) (c : Cache) (ctx va : Nat) : TlbEntry :=
  { cluster := c.cluster, use := c.use, ctx := ctx, va := va / 2 ^ l.bits, size := l.bits, pa := l.pa - va % 2 ^ l.bits,
    r := l.r, w := l.w, x := l.x, key := l.key, watch := l.watch }

/-- R75, R76: the entries a cache holds; the spec gives a far context's none (log 65, DEDUCED). -/
def Cache.room (c : Cache) : Option Nat :=
  if c.use = .fetch then some Config.fetchTlb else if c.cluster < 64 then some Config.clusterTlb else none

def TlbEntry.inCache (e : TlbEntry) (c : Cache) : Bool := e.cluster == c.cluster && e.use == c.use

/-- R17, R75: a walk's translation takes its place in a cache, the first; what covers the same address goes, and what falls out of the
cache. -/
def fillTlb (tlb : List TlbEntry) (c : Cache) (ctx va : Nat) (l : Leaf) : List TlbEntry :=
  let kept := l.cached c ctx va :: tlb.filter fun e => !e.covers c ctx va
  match c.room with
  | none => kept
  | some n =>
    let mine := kept.filter (·.inCache c)
    if mine.length ≤ n then kept else mine.take n ++ kept.filter fun e => !e.inCache c

/-- R75: a walk, its translation cached. -/
def walkIn (s : State) (c : Cache) (ctx va : Nat) (need : Need) : Except WalkFail Leaf × State :=
  match walk s ctx va need with
  | .ok l => (.ok l, { s with tlb := fillTlb s.tlb c ctx va l })
  | .error f => (.error f, s)

/-- R75: a translation: by a walk, or by a cached one, which may still be used after its entry has changed in memory: which of
two that differ is used is free. Log 65, DEDUCED. -/
def translate (s : State) (c : Cache) (ctx va : Nat) (need : Need) : Except WalkFail Leaf × State :=
  match s.tlb.find? (·.covers c ctx va) with
  | some e =>
    let old := e.leaf va
    if old.grants need && ((walk s ctx va need).toOption == some old || s.freeBit 75 va) then (.ok old, s) else walkIn s c ctx va need
  | none => walkIn s c ctx va need

/-! ### Keys (R324) and logs (R327) -/

/-- R324: whether a page's key slot is loaded and bound to the accessing context's partition. Host memory ignores KEY. -/
def State.keyOk (s : State) (slot : Nat) (l : Leaf) : Bool :=
  match s.region l.pa with
  | .host => true
  | _ => (s.key l.key).keyId != 0 && (s.key l.key).bound == some slot

/-- R327: a record covers one millisecond. -/
def logNs : Nat := 1000000

/-- R327: adds an access to the open record of its range, context, kind and millisecond, or opens one. -/
def noteRec (ns range ctx kind bytes : Nat) : List OpenRec → List OpenRec
  | [] => [{ range := range, ctx := ctx, kind := kind, first := ns, last := ns, bytes := bytes, accesses := 1 }]
  | r :: rs =>
    if r.range = range ∧ r.ctx = ctx ∧ r.kind = kind ∧ r.first / logNs = ns / logNs then
      { r with last := ns, bytes := r.bytes + bytes, accesses := min (r.accesses + 1) (2 ^ 32 - 1) } :: rs
    else r :: noteRec ns range ctx kind bytes rs

/-- The bytes of [a, a + n) that lie in [b, b + m). -/
def overlap (a n b m : Nat) : Nat := min (a + n) (b + m) - max a b

/-- R327: the watched ranges of every partition. -/
def State.watching (s : State) : Map (Map PhysRange) := List.map (fun (k, p) => (k, p.ranges)) s.parts

/-- R327: logs an access against some watched ranges, those of the partition that owns the frame. Log 67, DEDUCED. -/
def State.logUnder (s : State) (ranges : Map (Map PhysRange)) (ctx kind pa n : Nat) : State :=
  { s with
    parts := mapAll s.parts fun k p =>
      if s.owns k pa then
        { p with
          openRecs := ((mapGet ranges k).getD []).foldl (fun rs (i, r) =>
            let b := overlap pa n r.base r.len
            if b = 0 then rs else noteRec s.ns i ctx kind b rs) p.openRecs }
      else p }
/-- R327: logs an access against the watched ranges as they are. -/
def State.logAccess (s : State) (ctx kind pa n : Nat) : State := s.logUnder s.watching ctx kind pa n

/-- R328: the kinds of a log record. -/
def logCopyRead : Nat := 0
def logCopyWrite : Nat := 1
def logFarRead : Nat := 2
def logFarWrite : Nat := 3
def logHostRead : Nat := 4
def logHostWrite : Nat := 5
def logCollective : Nat := 6
def logFetch : Nat := 7
def logSpill : Nat := 8

/-! ### Physical bytes -/

/-- R324, R325: whether memory that was zeroed holds an address. -/
def Zeroed.holds (s : State) (z : Zeroed) (pa : Nat) : Bool :=
  match z with
  | .range lo hi => lo ≤ pa && pa < hi
  | .owned slot held => s.ownerIn (fun k => held.getD k (0#128, [])) pa == some slot

/-- R324: the identity of the key that a unit was last written under; none where it was never written, or zeroed under no key. Log 21, DEDUCED. -/
def State.unitKey (s : State) (u : Nat) : Option Nat :=
  match mapGet s.unitKeys u with
  | some k => some k
  | none => (s.clearings.find? fun c => c.what.holds s (32 * u)).bind (·.keyId)

/-- R79, R81: a range of frames becomes zero; it reads as zero under any key (log 21, DEDUCED). -/
def State.zeroFrames (s : State) (pa n : Nat) : State :=
  { s with mem := memZero s.mem pa n, unitKeys := mapFilter s.unitKeys (fun u _ => u < pa / 32 || (pa + n + 31) / 32 ≤ u),
           clearings := if s.clearings.isEmpty then [] else { what := .range pa (pa + n), keyId := none } :: s.clearings,
           spoiled := s.spoiled.filter fun u => u < pa / 32 || (pa + n + 31) / 32 ≤ u }

/-- R324: one byte read under a key: the byte written, if its unit was last written under that key or never; else free. Log 4, DESIGN CHOICE. -/
def State.readPhys (s : State) (keyId pa : Nat) : Byte :=
  if 2 ^ 51 ≤ pa then memRead s.mem pa
  else match s.unitKey (pa / 32) with
    | none => memRead s.mem pa
    | some k => if k = keyId then memRead s.mem pa else s.freeByte 324 pa

/-- R324: a unit written under another key than before keeps none of its other bytes readable. What is written can be read again (R70,
log 79, DESIGN CHOICE). -/
def State.rekey (s : State) (keyId pa : Nat) : State :=
  if 2 ^ 51 ≤ pa then s
  else
    let u := pa / 32
    let s' := { s with unitKeys := mapSet s.unitKeys u keyId, spoiled := s.spoiled.filter (· != u) }
    match s.unitKey u with
    | none => s'
    | some k =>
      if k = keyId then s'
      else { s' with mem := memWriteN s.mem (32 * u) (perLane fun i => s.freeByte 324 (32 * u + i)) }

/-- R324: one byte written under a key. -/
def State.writePhys (s : State) (keyId pa : Nat) (b : Byte) : State :=
  let s := s.rekey keyId pa
  { s with mem := memWrite s.mem pa b }

def State.readPhysN (s : State) (keyId pa : Nat) : Nat → List Byte
  | 0 => []
  | n + 1 => s.readPhys keyId pa :: s.readPhysN keyId (pa + 1) n

def State.writePhysN (s : State) (keyId pa : Nat) : List Byte → State
  | [] => s
  | b :: bs => (s.writePhys keyId pa b).writePhysN keyId (pa + 1) bs

/-- R165: bytes that a copy or far entry rewrites may still be fetched as they were. -/
def State.markStale (s : State) (by_ : Option Nat) (op pa : Nat) : List Byte → State
  | [] => s
  | b :: bs =>
    let old := memRead s.mem pa
    let c : StaleCode := { pa := pa, old := old, op := op, by_ := by_, born := s.codeRelease }
    (if old = b then s else { s with stale := c :: s.stale }).markStale by_ op (pa + 1) bs

/-- R165: the copy or far entry is complete: an `icinv` from now on covers what it rewrote. -/
def State.sealStale (s : State) (id : Nat) : State :=
  let done (c : StaleCode) : StaleCode := if c.by_ = some id then { c with by_ := none, born := s.codeRelease } else c
  { s with stale := s.stale.map done }

/-! ### Page requests (R77, R78) -/

/-- R77: a free entry for a partition: in its reserve, else in the shared part, of which it holds at most 256. -/
def State.freeEntry (s : State) (slot : Nat) : Option Nat :=
  let free (i : Nat) : Bool := (mapGet s.requests i).isNone
  match ((List.range 32).map (32 * slot + ·)).find? free with
  | some i => some i
  | none =>
    if (mapFilter s.requests fun i r => 512 ≤ i && r.slot == slot).length < 256 then
      ((List.range 512).map (512 + ·)).find? free
    else none

/-- R78: the record of 32 bytes. The entry at which the walk stopped is given by its address (log 80, DESIGN CHOICE). -/
def PageReq.record (r : PageReq) (index : Nat) : List Byte :=
  leBytes 8 r.va ++ leBytes 2 r.ctx ++ leBytes 1 r.slot ++ leBytes 1 r.kind ++ leBytes 2 r.requester ++ leBytes 2 index
    ++ leBytes 8 r.entryAddr ++ leBytes 1 r.level ++ leBytes 1 r.outcome ++ leBytes 6 0

/-- R79: the demand-filled range of a context that an address falls in. -/
def State.demandAt (s : State) (ctx va : Nat) : Option DemandRange :=
  (s.ctx? ctx).bind fun c => c.demand.find? fun d => d.start ≤ va && va < d.start + d.len

/-- R77: a translation failure becomes a page request; the same context, 64 KiB page and kind share one. With no entry free the
walk is made again later. In host-assisted mode both physical functions are told (R334). Log 65, DEDUCED. -/
def State.request (s : State) (va ctx kind requester : Nat) (f : WalkFail) (who : Walker) : State :=
  let same (r : PageReq) : Bool := r.ctx == ctx && r.va / 65536 == va / 65536 && r.kind == kind
  match s.requests.find? fun (_, r) => same r with
  | some (i, r) =>
    if who ∈ r.waiters then s else { s with requests := mapSet s.requests i { r with waiters := r.waiters ++ [who] } }
  | none =>
    match s.freeEntry (slotOf ctx) with
    | none => s
    | some i =>
      let assisted := s.firmware.assisted.getD 0 false
      let r : PageReq :=
        { va := va, ctx := ctx, slot := slotOf ctx, kind := kind, requester := requester, entryAddr := f.entry, level := f.level,
          outcome := f.outcome, assisted := assisted, range := s.demandAt ctx va, waiters := [who] }
      let s := { s with requests := mapSet s.requests i r }
      if assisted then s.postBoth { kind := 2, tag := BitVec.ofNat 16 i, status := 0, payload := r.record i } else s

/-- Whether a walker waits at an unanswered request. -/
def State.waitsFor (s : State) (who : Walker) : Bool := s.requests.any fun (_, r) => who ∈ r.waiters

/-! ### Spill-stack accesses (R128) -/

inductive SpillOut (α : Type) where
  | done (v : α) (s : State)
  /-- A page request of kind 3 stands. -/
  | wait (s : State)
  /-- The access cannot be made: the group ends. -/
  | dead (s : State)

/-- R128: translates the byte at an offset of a squad's spill stack; its page must grant R and W. -/
def spillLeaf (s : State) (key : Nat) (q : Squad) (off : Nat) : SpillOut Leaf :=
  let ctx := s.ctxOf q
  let va := (q.spBase.toNat + off) % 2 ^ 64
  if s.waitsFor (.spill key off) then .wait s
  else if 2 ^ 48 ≤ va then .dead s
  else match translate s { cluster := clusterOf (s.coreOf q), use := .data } ctx va .both with
    | (.ok l, s) =>
      if !s.backs (slotOf ctx) l.pa || !s.keyOk (slotOf ctx) l then .dead s else .done l s
    | (.error f, s) =>
      if f.outcome = 1 then .wait (s.request va ctx 3 (s.coreOf q) f (.spill key off)) else .dead s

/-- R128: whether an access of `n` bytes can be made now, with nothing read or written. -/
def spillProbe (s : State) (key : Nat) (q : Squad) (off n : Nat) : SpillOut Unit :=
  match spillLeaf s key q off with
  | .wait s => .wait s
  | .dead s => .dead s
  | .done _ s =>
    let first := min n (65536 - (q.spBase.toNat + off) % 65536)
    if first = n then .done () s
    else match spillLeaf s key q (off + first) with
      | .wait s => .wait s
      | .dead s => .dead s
      | .done _ s => .done () s

/-- R128: the bytes of one spill-stack access stay within one 64 KiB page but where they cross one; data that cannot be corrected end the
group. -/
def spillRead (s : State) (key : Nat) (q : Squad) (off n : Nat) : SpillOut (List Byte) :=
  let first := min n (65536 - (q.spBase.toNat + off) % 65536)
  match spillLeaf s key q off with
  | .wait s => .wait s
  | .dead s => .dead s
  | .done l s =>
    let id := (s.key l.key).keyId
    let head := s.readPhysN id l.pa first
    if !s.sound l.pa first then .dead s else
    let s := if l.watch then s.logAccess (s.ctxOf q) logSpill l.pa first else s
    if first = n then .done head s
    else match spillLeaf s key q (off + first) with
      | .wait s => .wait s
      | .dead s => .dead s
      | .done l s =>
        if !s.sound l.pa (n - first) then .dead s else
        let s' := if l.watch then s.logAccess (s.ctxOf q) logSpill l.pa (n - first) else s
        .done (head ++ s.readPhysN (s.key l.key).keyId l.pa (n - first)) s'

def spillWrite (s : State) (key : Nat) (q : Squad) (off : Nat) (bs : List Byte) : SpillOut Unit :=
  let n := bs.length
  let first := min n (65536 - (q.spBase.toNat + off) % 65536)
  match spillLeaf s key q off with
  | .wait s => .wait s
  | .dead s => .dead s
  | .done l s =>
    let put (s : State) (l : Leaf) (bs : List Byte) : State :=
      let s := s.writePhysN (s.key l.key).keyId l.pa bs
      if l.watch then s.logAccess (s.ctxOf q) logSpill l.pa bs.length else s
    if first = n then .done () (put s l bs)
    else match spillLeaf s key q (off + first) with
      | .wait s => .wait s
      | .dead s => .dead s
      | .done l' s => .done () (put (put s l (bs.take first)) l' (bs.drop first))

end Sys2Proof.Machine
end

