-- ==== Sys2Proof/Machine/Reach.lean ====
section
/-!
DEFINITION. Memory as far contexts and the scheduler reach it (R94, R105, R272, R280): virtual addresses through a context's page
tables, scratchpad offsets through its spans' windows; trigger words.
-/
namespace Sys2Proof.Machine

/-- How a reach into memory ends. -/
inductive MemOut (α : Type) where
  | done (v : α) (s : State)
  /-- R77: a page request stands, or no entry was free for one: the access walks again later. -/
  | wait (s : State)
  /-- R94: a CopyFault sub-cause and address. -/
  | fail (sub : BitVec 16) (addr : Word64) (s : State)

/-- R94, R324: the sub-causes of data and translation faults. -/
def subWindow : BitVec 16 := 0x0004#16
def subUnbacked : BitVec 16 := 0x0010#16
def subTranslation : BitVec 16 := 0x0011#16
def subDataLoss : BitVec 16 := 0x0012#16
def subKey : BitVec 16 := 0x0013#16

/-- Who reaches: the context, where translations are cached, who waits at page requests, the requester of R78, the kinds its
accesses are logged with, the far entry, and the squad and operation that posted it. Log 18, DEDUCED. -/
structure Reach where
  ctx : Nat
  cache : Cache
  walker : Walker
  requester : Nat
  logRead : Nat
  logWrite : Nat
  by_ : Option Nat
  poster : Option Advance
  deriving DecidableEq, Repr

/-- R105: a far context of a chain, for an entry; 0 is the read at CHHEAD. -/
def farReach (chain entry ctx : Nat) : Reach :=
  { ctx := ctx, cache := { cluster := 64 + chain, use := .data }, walker := .far chain entry, requester := 0x8000 + chain / 8,
    logRead := logFarRead, logWrite := logFarWrite, by_ := none, poster := none }

/-- R272, R280: the scheduler, for a word of a grid, through the far context that launched it. -/
def gridReach (chain ctx grid word : Nat) : Reach := { farReach chain 0 ctx with walker := .grid grid word }

/-- R78: whether the request that an access waited at was answered Fail; the mark is used up. -/
def State.answeredFail (s : State) (w : Walker) : Bool := s.refused.contains w
def State.clearFail (s : State) (w : Walker) : State := { s with refused := s.refused.filter (· != w) }

/-- R70–R78, R324: one page of a virtual range: the leaf of its first byte. -/
def reachLeaf (s : State) (r : Reach) (write : Bool) (va : Nat) : MemOut Leaf :=
  if 2 ^ 48 ≤ va then .fail subTranslation (BitVec.ofNat 64 va) s
  else if s.waitsFor r.walker then .wait s
  else if s.answeredFail r.walker then .fail subTranslation (BitVec.ofNat 64 va) (s.clearFail r.walker)
  else match translate s r.cache r.ctx va (if write then .write else .read) with
    | (.error f, s) => .wait (s.request va r.ctx (if write then 1 else 0) r.requester f r.walker)
    | (.ok l, s) =>
      if !s.backs (slotOf r.ctx) l.pa then .fail subUnbacked (BitVec.ofNat 64 va) s
      else if !s.keyOk (slotOf r.ctx) l then .fail subKey (BitVec.ofNat 64 va) s
      else .done l s

/-- Bytes of a range that lie in the first 64 KiB page. -/
def firstPart (va n : Nat) : Nat := min n (65536 - va % 65536)

/-- Reads a virtual range, page by page; data that cannot be corrected are lost (R70). -/
def readVirt (s : State) (r : Reach) (va n : Nat) : Nat → MemOut (List Byte)
  | 0 => .done [] s
  | fuel + 1 =>
    if n = 0 then .done [] s
    else match reachLeaf s r false va with
      | .wait s => .wait s
      | .fail c a s => .fail c a s
      | .done l s =>
        let k := firstPart va n
        if !s.sound l.pa k then .fail subDataLoss (BitVec.ofNat 64 va) s else
        let bs := s.readPhysN (s.key l.key).keyId l.pa k
        let s := if l.watch then s.logAccess r.ctx r.logRead l.pa k else s
        match readVirt s r (va + k) (n - k) fuel with
        | .done rest s => .done (bs ++ rest) s
        | o => o

/-- Writes a virtual range, page by page. -/
def writeVirt (s : State) (r : Reach) (va : Nat) (bs : List Byte) : Nat → MemOut Unit
  | 0 => .done () s
  | fuel + 1 =>
    if bs.isEmpty then .done () s
    else match reachLeaf s r true va with
      | .wait s => .wait s
      | .fail c a s => .fail c a s
      | .done l s =>
        let k := firstPart va bs.length
        let head := bs.take k
        let s := s.markStale r.by_ (r.by_.getD 0) l.pa head
        let s := s.writePhysN (s.key l.key).keyId l.pa head
        let s := if l.watch then s.logAccess r.ctx r.logWrite l.pa k else s
        writeVirt s r (va + k) (bs.drop k) fuel

/-- R105: the span window of a context on a die that holds a scratchpad offset of the die: its key and the offset in it. -/
def scratchAt (s : State) (ctx die off n : Nat) : Option (Nat × Nat) :=
  let hit (p : Span) : Bool :=
    p.die == die && ((s.grid? p.grid).map (·.ctx)) == some ctx && match p.base with
      | some b => b ≤ off && off + n ≤ b + p.size
      | none => false
  (s.spans.find? fun (_, p) => hit p).map fun (k, p) => (k, off - p.base.getD 0)

def isScratch (a : Word64) : Bool := a.msb
def scratchOff (a : Word64) : Nat := a.toNat % 2 ^ 26

/-- R105: reads, or writes, a range named by a far address, with no operation of a squad behind it (R161). Log 18, DEDUCED. -/
def plainRead (s : State) (r : Reach) (die : Nat) (a : Word64) (n : Nat) : MemOut (List Byte) :=
  if isScratch a then
    match scratchAt s r.ctx die (scratchOff a) n with
    | some (k, x) => .done (memReadN (((s.span? k).map (·.mem)).getD []) x n) s
    | none => .fail subWindow (BitVec.ofNat 64 (scratchOff a)) s
  else readVirt s r a.toNat n (n / 65536 + 2)

/-- R105. Log 18, DEDUCED. -/
def plainWrite (s : State) (r : Reach) (die : Nat) (a : Word64) (bs : List Byte) : MemOut Unit :=
  if isScratch a then
    match scratchAt s r.ctx die (scratchOff a) bs.length with
    | some (k, x) => .done () (s.modSpan k fun p => { p with mem := memWriteN p.mem x bs })
    | none => .fail subWindow (BitVec.ofNat 64 (scratchOff a)) s
  else writeVirt s r a.toNat bs (bs.length / 65536 + 2)

/-! ### Triggers (R224, R280) -/

def Grid.groupCount (g : Grid) : Nat := g.desc.ngx * g.desc.ngy * g.desc.ngz

/-- R107: bit 63 marks a fault or an abort. -/
def mark63 (w : Word64) : Word64 := w ||| 0x8000000000000000#64

/-- R224, R280: whether every squad of a grid, unplaced groups' among them, has set its trigger bit or ended; an ended grid's
unplaced groups are never placed (R289). R272: a cancelled grid's trigger word is due at once. -/
def gridTriggers (s : State) (grid : Nat) : Bool :=
  match s.grid? grid with
  | none => false
  | some g =>
    !g.triggered && (g.status == .cancelled || (g.status == .admitted && (g.failed || g.next == g.groupCount)
      && s.squads.all fun (_, q) => q.grid != grid || q.ended || q.trig))

/-- R272, R280: what the trigger word receives. -/
def Grid.triggerValue (g : Grid) : Word64 := if g.status = .cancelled then mark63 g.seq else g.seq

/-- R272, R280: the trigger write, when it is due and its address can be written; TRIG 0 releases nothing. Log 22, DEDUCED. Log 61, DEDUCED. -/
def tryTrigger (s : State) (grid : Nat) : State :=
  if !gridTriggers s grid then s
  else match s.grid? grid with
    | none => s
    | some g =>
      let done (s : State) : State := s.modGrid grid fun g => { g with triggered := true }
      if g.desc.trig = 0#64 then done s
      else match plainWrite s (gridReach g.chain g.ctx grid 0) (g.chain / 64) g.desc.trig (leBytes 8 g.triggerValue.toNat) with
        | .done _ s => done s
        | .wait s => s
        | .fail _ _ s => done s

end Sys2Proof.Machine
end

