-- ==== Sys2Proof/Machine/Race.lean ====
section
/-!
DEFINITION. Race detection (R146–R161, R349): clocks, releases and acquires, sync records with their lost objects, word tags, the
conflict and ordering tests, and what a race reports.
-/
namespace Sys2Proof.Machine

/-! ### Clocks -/

def Clock.join (a b : Clock) : Clock :=
  { squads := mapJoin a.squads b.squads, groups := mapJoin a.groups b.groups,
    ops := b.ops.foldl (fun acc x => if x ∈ acc then acc else x :: acc) a.ops,
    floor := max a.floor b.floor, codes := b.codes.foldl (fun acc x => if x ∈ acc then acc else x :: acc) a.codes,
    code := max a.code b.code }

/-- The token of a piece of an engine operation's accesses, and of the whole operation. -/
def opSpan : Nat := 2 ^ 48
def opTok (id piece : Nat) : Nat := id * opSpan + piece + 1
def opWhole (id : Nat) : Nat := id * opSpan

def Clock.addOp (c : Clock) (tok : Nat) : Clock := if tok ∈ c.ops then c else { c with ops := tok :: c.ops }

/-- Whether a clock knows an engine operation's access complete. Log 36, DEDUCED. -/
def Clock.knows (c : Clock) (tok : Nat) : Bool :=
  tok ∈ c.ops || opWhole (tok / opSpan) ∈ c.ops || tok / opSpan < c.floor

def Squad.epoch (q : Squad) (key : Nat) : Nat := (mapGet q.clock.squads key).getD 0

/-- R19: a scope of span or wider also publishes the group's epoch (R155). -/
def scopeSpan : Nat := 3

/-- R155: a release: the clock it publishes; the squad's epoch rises, and its group's at span scope or wider. -/
def release (s : State) (key scope : Nat) : Clock × State :=
  match s.squad? key with
  | none => (Clock.zero, s)
  | some q =>
    let gk := q.groupKey
    let ge := ((s.group? gk).map (·.epoch)).getD 0
    let c := if scopeSpan ≤ scope then { q.clock with groups := mapUpd q.clock.groups gk 0 (max ge) } else q.clock
    let s := s.setSquad key { q with clock := { q.clock with squads := mapUpd q.clock.squads key 0 (· + 1) } }
    (c, if scopeSpan ≤ scope then s.modGroup gk fun g => { g with epoch := g.epoch + 1 } else s)

/-- R157: an acquire joins a clock into the acquirer's. -/
def acquire (s : State) (key : Nat) (c : Clock) : State := s.modSquad key fun q => { q with clock := q.clock.join c }

/-- R157: the clock of every squad of a group and every group of its span as they stand. Log 36, DEDUCED. -/
def State.nowClock (s : State) (gk : Nat) : Clock :=
  let span := ((s.group? gk).map (·.span)).getD 0
  { squads := (s.squads.filter fun (_, q) => q.groupKey == gk).map fun (k, q) => (k, q.epoch k),
    groups := (s.groups.filter fun (_, g) => g.span == span && g.grid == gridOfGroup gk).map fun (k, g) => (k, g.epoch),
    ops := [], floor := s.nextId, codes := [], code := s.codeRelease }

/-! ### Sync records (R157) -/

/-- The keys of objects: a word of a group's shared window, a word of a span's scratchpad window, a sync word's completed
generations. -/
def objShared (gk off : Nat) : Nat := gk * 2 ^ 32 + off
def objScratch (span off : Nat) : Nat := span * 2 ^ 32 + off
def objSyncWord (span off : Nat) : Nat := span * 2 ^ 32 + off + 1

/-- A release into a table of at most `size` records, the most recently used first; a record that falls out is lost. -/
def recRelease (size : Nat) (recs : List SyncRec) (lost : List Nat) (key : Nat) (c : Clock) : List SyncRec × List Nat :=
  let old := ((recs.find? (·.key == key)).map (·.clock)).getD Clock.zero
  let recs := { key := key, clock := old.join c } :: recs.filter (·.key != key)
  if size < recs.length then
    let gone := (recs.drop size).map (·.key)
    (recs.take size, gone ++ lost.filter fun k => !gone.contains k)
  else (recs, lost)

/-- A use of a record keeps it recent. -/
def recTouch (recs : List SyncRec) (key : Nat) : List SyncRec := recs.filter (·.key == key) ++ recs.filter (·.key != key)

/-- Where an object's record stands: a core's table or a die's. -/
inductive Table where
  | core (n : Nat) | die (n : Nat)
  deriving DecidableEq, Repr

def State.recs (s : State) : Table → List SyncRec × List Nat
  | .core n => ((s.core n).sync, s.sharedLost)
  | .die n => ((mapGet s.dieSync n).getD [], (mapGet s.dieLost n).getD [])

def State.setRecs (s : State) (t : Table) (recs : List SyncRec) (lost : List Nat) : State :=
  match t with
  | .core n => { s.modCore n fun c => { c with sync := recs } with sharedLost := lost }
  | .die n => { s with dieSync := mapSet s.dieSync n recs, dieLost := mapSet s.dieLost n lost }

def Table.size : Table → Nat
  | .core _ => Config.coreSyncRecords
  | .die _ => Config.dieSyncRecords

/-- R157: joins a released clock into an object's record. -/
def releaseTo (s : State) (t : Table) (obj : Nat) (c : Clock) : State :=
  let (recs, lost) := s.recs t
  let (recs, lost) := recRelease t.size recs lost obj c
  s.setRecs t recs lost

/-- R157: what an acquire of an object brings a squad of a group: its record, or, from a lost object, every current epoch. The
flag tells a lost one. -/
def acquireFrom (s : State) (t : Table) (obj gk : Nat) : Clock × Bool × State :=
  let (recs, lost) := s.recs t
  if obj ∈ lost then (s.nowClock gk, true, s)
  else match recs.find? (·.key == obj) with
    | some r => (r.clock, false, s.setRecs t (recTouch recs obj) lost)
    | none => (Clock.zero, false, s)

/-- R157: an acquire by a squad. Log 36, DEDUCED. -/
def acquireObj (s : State) (key : Nat) (t : Table) (obj : Nat) : State :=
  match s.squad? key with
  | none => s
  | some q =>
    let (c, miss, s) := acquireFrom s t obj q.groupKey
    let s := acquire s key c
    if miss then s.modSquad key fun q => { q with misses := (q.misses + 1) % 2 ^ 32 } else s

/-! ### Conflicts (R147, R349) -/

/-- The agent that accesses now: its record, its clock and its group. -/
structure Agent where
  acc : Access
  clock : Clock
  grid : Nat
  deriving DecidableEq, Repr

def Access.sameGroup (a b : Access) : Bool := a.group == b.group

/-- R147: a squad and its copies are one agent towards each other; an engine operation and itself. -/
def Access.sameAgent (a b : Access) : Bool :=
  a.sameGroup b && a.squad == b.squad &&
    ((a.kind ≤ 1 && b.kind ≤ 1) || (a.op.isSome && a.op.map (· / opSpan) == b.op.map (· / opSpan)))

def Access.sameSquad (a b : Access) : Bool := a.sameGroup b && a.squad == b.squad

/-- R19, R149: the narrowest scope that two agents of one span share: the squad's 1, the group's 2, the span's 3. -/
def Access.shared (a b : Access) : Nat := if a.sameSquad b then 1 else if a.sameGroup b then 2 else scopeSpan

/-- R349: a fence-published access towards an agent that lies in the writer's instance of the fence's scope. -/
def Access.fenceIn (a b : Access) : Bool :=
  match a.cls with
  | .fence s => a.shared b ≤ s
  | _ => false

/-- R147, R349: whether an access counts as synchronising towards an agent. -/
def Access.syncTowards (a b : Access) : Bool := a.cls == .sync || a.fenceIn b

/-- R147: whether an earlier access conflicts with the present one. -/
def conflicts (e : Access) (eWrites : Bool) (me : Access) (meWrites : Bool) : Bool :=
  !e.sameAgent me && (eWrites || meWrites)
    && (!e.syncTowards me || !me.syncTowards e)
    && !(eWrites && !meWrites && e.fenceIn me) && !(!eWrites && meWrites && me.fenceIn e)

/-- R155: the ordering test; an engine operation's access is ordered once the operation is known complete. -/
def orderedBefore (e : Access) (me : Agent) : Bool :=
  let gk := groupKey me.grid e.group
  let byGroup := !e.sameGroup me.acc && e.groupEpoch ≤ (mapGet me.clock.groups gk).getD 0
  match e.op with
  | some tok => me.clock.knows tok || byGroup
  | none =>
    if e.sameGroup me.acc then e.epoch ≤ (mapGet me.clock.squads (squadKey gk e.squad)).getD 0 else byGroup

/-- R153: a race: kind 1 read after write, 2 write after read, 3 write after write. -/
structure Race where
  kind : Nat
  other : Access
  mixed : Bool
  deriving DecidableEq, Repr

def Access.before (a b : Access) : Bool := a.group < b.group || (a.group == b.group && a.squad < b.squad)

/-- R155: the entry of lowest group index, then lowest squad index. -/
def firstAccess : List Access → Option Access
  | [] => none
  | a :: rest =>
    match firstAccess rest with
    | some b => if b.before a then some b else some a
    | none => some a

def mkRace (kind : Nat) (e me : Access) : Race :=
  { kind := kind, other := e, mixed := e.syncTowards me != me.syncTowards e }

/-- R155: the check of an access against a word's tag. Log 37, DEDUCED. -/
def checkTag (t : WordTag) (me : Agent) (writes : Bool) : Option Race :=
  let fails (e : Access) (eWrites : Bool) : Bool := conflicts e eWrites me.acc writes && !orderedBefore e me
  let onWriter (kind : Nat) : Option Race :=
    match t.writer with
    | some e => if fails e true then some (mkRace kind e me.acc) else none
    | none => none
  if writes then
    match firstAccess (t.readers.filter fun e => fails e false) with
    | some e => some (mkRace 2 e me.acc)
    | none => onWriter 3
  else onWriter 1

def tagNone : WordTag := { writer := none, readers := [], pubs := [] }

/-- R155: a performed load adds its entry; a plain load removes its own squad's earlier entries, a synchronising one only its
own squad's synchronising entry. -/
def tagRead (t : WordTag) (me : Access) : WordTag :=
  { t with readers := t.readers.filter (fun e => !(e.sameSquad me && (me.cls != .sync || e.cls == .sync))) ++ [me] }

/-- R155: a performed write becomes the writer part; a plain one empties the reader part, another removes its synchronising
entries. -/
def tagWrite (t : WordTag) (me : Access) : WordTag :=
  { t with writer := some me, readers := if me.cls == .plain then [] else t.readers.filter fun e => e.cls != .sync }

/-- R149, R349: a fence-published write adds what its fence released. -/
def tagPublish (t : WordTag) (me : Access) (scope : Nat) (c : Clock) : WordTag :=
  let mine (p : FencePub) : Bool := p.group == me.group && p.squad == me.squad && p.scope == scope
  let old := ((t.pubs.find? mine).map (·.clock)).getD Clock.zero
  { t with pubs := { group := me.group, squad := me.squad, scope := scope, clock := old.join c } :: t.pubs.filter fun p => !mine p }

/-- R149, R349: what a load of the word lets a fence acquire: the scope that the fence must have, and the clock. -/
def tagSeen (t : WordTag) (me : Access) : List (Nat × Clock) :=
  t.pubs.filterMap fun p =>
    let need := if p.group == me.group then (if p.squad == me.squad then 1 else 2) else scopeSpan
    if need ≤ p.scope then some (need, p.clock) else none

/-! ### What a race reports (R153) -/

/-- Bits of the sub-cause: kind, mixed, space, engine. -/
def raceSub (r : Race) (scratch engine : Bool) : BitVec 16 :=
  BitVec.ofNat 16 (r.kind + (if r.mixed then 4 else 0) + (if scratch then 8 else 0) + if engine then 256 else 0)

/-- R153: frame bytes 48–51; the group index within the span. -/
def State.raceOther (s : State) (grid : Nat) (e : Access) : Word32 :=
  let per := ((s.grid? grid).map fun g => if g.desc.spanSz = 0 then 64 else g.desc.spanSz).getD 64
  BitVec.ofNat 32 (e.group % per + 2 ^ 16 * e.squad + 2 ^ 24 * e.kind)

/-! ### Agents -/

/-- R155: a squad's own access of a class. -/
def squadAgent (s : State) (key : Nat) (q : Squad) (cls : AccessClass) : Agent :=
  { acc :=
      { group := q.group, squad := q.sq, epoch := q.epoch key, groupEpoch := ((s.group? q.groupKey).map (·.epoch)).getD 0,
        cls := cls, kind := 0, op := none },
    clock := q.clock, grid := q.grid }

/-- R155, R161: an engine operation's access, recorded under its posting squad. -/
def opAgent (s : State) (key kind tok epoch : Nat) (c : Clock) (cls : AccessClass) : Agent :=
  let gk := groupOfSquad key
  { acc :=
      { group := indexOfGroup gk, squad := key % 32, epoch := epoch, groupEpoch := ((s.group? gk).map (·.epoch)).getD 0, cls := cls,
        kind := kind, op := some tok },
    clock := c, grid := gridOfGroup gk }

end Sys2Proof.Machine
end

