-- ==== Sys2Proof/Machine/Window.lean ====
section
/-!
DEFINITION. Accesses to the shared and scratchpad windows (R112–R124): the checks of R116, loads, stores and atomics of one lane
with their race checks (R153, R155), their ordering (R122, R123, R349), and what a glide does to them (R140, R142).
-/
namespace Sys2Proof.Machine

/-- A fault of one lane: cause, sub-cause, fault address and frame bytes 48–51. -/
structure LaneFault where
  cause : BitVec 16
  sub : BitVec 16
  addr : Word64
  other : Word32
  deriving DecidableEq, Repr

/-! ### Causes (R286) -/

def causeIllegal : BitVec 16 := 0x01#16
def causeTree : BitVec 16 := 0x02#16
def causePrivilege : BitVec 16 := 0x03#16
def causeUniform : BitVec 16 := 0x04#16
def causeAffineOverflow : BitVec 16 := 0x05#16
def causeAffineSpan : BitVec 16 := 0x06#16
def causeAccess : BitVec 16 := 0x07#16
def causeMisaligned : BitVec 16 := 0x08#16
def causeRace : BitVec 16 := 0x09#16
def causeCopy : BitVec 16 := 0x0A#16
def causeLanding : BitVec 16 := 0x0B#16
def causeBarrier : BitVec 16 := 0x0C#16
def causeScale : BitVec 16 := 0x0D#16
def causeFloat : BitVec 16 := 0x0E#16
def causeBreak : BitVec 16 := 0x0F#16
def causeSoft : BitVec 16 := 0x10#16
def causeClause : BitVec 16 := 0x11#16
def causeRetention : BitVec 16 := 0x20#16
def causeEngine : BitVec 16 := 0x21#16

def fault (cause sub : BitVec 16) (addr : Word64) : LaneFault := { cause := cause, sub := sub, addr := addr, other := 0#32 }

/-! ### Windows -/

inductive Space where
  | shared | scratch
  deriving DecidableEq, Repr

/-- R112–R114: the window's size; 0 where the span has none. -/
def winSize (s : State) (q : Squad) : Space → Nat
  | .shared => ((s.group? q.groupKey).map (·.shSize)).getD 0
  | .scratch => ((s.span? (s.spanOf q)).map (·.size)).getD 0

def winMem (s : State) (q : Squad) : Space → Memory
  | .shared => ((s.group? q.groupKey).map (·.shared)).getD []
  | .scratch => ((s.span? (s.spanOf q)).map (·.mem)).getD []

def State.modWin (s : State) (q : Squad) (sp : Space) (f : Memory → Memory) : State :=
  match sp with
  | .shared => s.modGroup q.groupKey fun g => { g with shared := f g.shared }
  | .scratch => s.modSpan (s.spanOf q) fun p => { p with mem := f p.mem }

def winTags (s : State) (q : Squad) : Space → Map WordTag
  | .shared => ((s.group? q.groupKey).map (·.tags)).getD []
  | .scratch => ((s.span? (s.spanOf q)).map (·.tags)).getD []

def winTag (s : State) (q : Squad) (sp : Space) (w : Nat) : WordTag := (mapGet (winTags s q sp) w).getD tagNone

def State.modTag (s : State) (q : Squad) (sp : Space) (w : Nat) (f : WordTag → WordTag) : State :=
  match sp with
  | .shared => s.modGroup q.groupKey fun g => { g with tags := mapUpd g.tags w tagNone f }
  | .scratch => s.modSpan (s.spanOf q) fun p => { p with tags := mapUpd p.tags w tagNone f }

/-- R157: the table and the object of a word. -/
def wordTable (s : State) (q : Squad) : Space → Table
  | .shared => .core (s.coreOf q)
  | .scratch => .die (dieOf (s.coreOf q))
def wordObj (s : State) (q : Squad) (sp : Space) (w : Nat) : Nat :=
  match sp with
  | .shared => objShared q.groupKey w
  | .scratch => objScratch (s.spanOf q) w

/-- R19: the natural scope of a space. -/
def natural : Space → Nat
  | .shared => 2
  | .scratch => 3

/-- R147: the words that `n` bytes at an offset touch. -/
def wordsOf (x n : Nat) : List Nat := (List.range ((x % 4 + n + 3) / 4)).map fun i => x / 4 * 4 + 4 * i

/-- R140: the sectors they touch. -/
def sectorsOf (x n : Nat) : List Nat := (List.range ((x % 32 + n + 31) / 32)).map fun i => x / 32 * 32 + 32 * i

/-- R116: the window check, then the alignment check. Log 37, DEDUCED. -/
def checkAddr (size x n align : Nat) : Option LaneFault :=
  if size < x + n then some (fault causeAccess 0x0001#16 (BitVec.ofNat 64 x))
  else if x % align ≠ 0 then some (fault causeMisaligned 0x0001#16 (BitVec.ofNat 64 x))
  else none

/-- The first race an access meets over its words, and the word. Log 37, DEDUCED. -/
def firstRace (s : State) (q : Squad) (sp : Space) (me : Agent) (writes : Bool) : List Nat → Option (Race × Nat)
  | [] => none
  | w :: ws =>
    match checkTag (winTag s q sp w) me writes with
    | some r => some (r, w)
    | none => firstRace s q sp me writes ws

/-- R153: what a lane takes for a race. Log 37, DEDUCED. -/
def raceFault (s : State) (grid : Nat) (sp : Space) (x : Nat) (r : Race) : LaneFault :=
  { cause := causeRace, sub := raceSub r (sp == .scratch) false, addr := BitVec.ofNat 64 x, other := s.raceOther grid r.other }

/-! ### Glides (R140, R142) -/

def addOnce {α : Type} [DecidableEq α] (xs : List α) (x : α) : List α := if x ∈ xs then xs else x :: xs

/-- R140: a gliding load's byte: the buffer's where it holds it. -/
def glideByte (gl : Glide) (m : Memory) (a : Nat) : Byte := (mapGet gl.buffer a).getD (memRead m a)

def glideBytes (gl : Glide) (m : Memory) (a : Nat) : Nat → List Byte
  | 0 => []
  | n + 1 => glideByte gl m a :: glideBytes gl m (a + 1) n

def bufferBytes (b : Map Byte) (a : Nat) : List Byte → Map Byte
  | [] => b
  | x :: xs => bufferBytes (mapSet b a x) (a + 1) xs

/-- R41, R142: forgets a squad's run without writing its latches. -/
def dropRunOf (s : State) (key : Nat) : State :=
  match s.squad? key with
  | none => s
  | some q => s.modCore (s.coreOf q) fun c => { c with runs := mapFilter c.runs fun _ r => r.squad != key }

/-- R142: a glide rolls back: the checkpoint, with registers that engines completed since kept in it; the lanes are held at the
barrier as by `bar.sync`. -/
def rollGlide (s : State) (key : Nat) : State :=
  match s.squad? key with
  | none => s
  | some q =>
    match q.glide with
    | none => s
    | some gl =>
      let back (i : Nat) (l : Lane) : Lane :=
        if l.kind == .live || l.kind == .helper then
          { l with pc := gl.pc, latchRec := gl.latchRecs.getD i l.latchRec, wait := .none,
                   hold := if l.kind == .live then .barrier gl.barrier else l.hold }
        else l
      let q' := { q with files := gl.files, fflags := gl.fflags, glide := none, rolls := (q.rolls + 1) % 2 ^ 32, bundles := [],
                         lanes := atLanes (BitVec.allOnes 32) back 0 q.lanes }
      (dropRunOf s key).setSquad key q'

/-- R142: whether a squad has arrived in the current phase of a barrier. -/
def Squad.arrived (q : Squad) (b : Nat) : Bool := (q.bars[b]?.map (·.pend)).getD false

/-- R142: a performed write to sectors of a group's window by `who` rolls back the glides it hits; `who b` tells whether the
writer counts as not arrived at barrier b. -/
def hitGlides (s : State) (gk : Nat) (except_ : Option Nat) (who : Nat → Bool) (secs : List Nat) : State :=
  let hit := s.squads.filter fun (k, q) =>
    except_ != some k && q.groupKey == gk && match q.glide with
      | some gl => who gl.barrier && secs.any gl.reads.contains
      | none => false
  hit.foldl (fun s (k, _) => rollGlide s k) s

/-- R142: a squad's write. -/
def squadHits (s : State) (key : Nat) (q : Squad) (x n : Nat) : State :=
  hitGlides s q.groupKey (some key) (fun b => !q.arrived b) (sectorsOf x n)

/-! ### Loads -/

/-- R149, R349: a load of a word that fence-published writes were made to notes what a fence may acquire. -/
def noteFence (s : State) (key : Nat) (q : Squad) (sp : Space) (me : Access) (w : Nat) : State :=
  match tagSeen (winTag s q sp w) me with
  | [] => s
  | seen => s.modSquad key fun q => { q with fenceSeen := seen ++ q.fenceSeen }

/-- R120, R122, R140, R153: one lane's load of `n` bytes. Helper lanes load and are not checked (R14, R148). Log 38, DEDUCED. -/
def loadWin (s : State) (key lane : Nat) (sp : Space) (x n align : Nat) (cls : AccessClass) : Except LaneFault (List Byte) × State :=
  match s.squad? key with
  | none => (.ok [], s)
  | some q =>
    match checkAddr (winSize s q sp) x n align with
    | some f => (.error f, s)
    | none =>
      let helper := (q.lane lane).kind == .helper
      match q.glide, sp with
      | some gl, .shared =>
        let gl' := { gl with reads := (sectorsOf x n).foldl addOnce gl.reads,
                             liveReads := if helper then gl.liveReads else (wordsOf x n).foldl addOnce gl.liveReads }
        (.ok (glideBytes gl (winMem s q sp) x n), s.setSquad key { q with glide := some gl' })
      | _, _ =>
        if helper then (.ok (memReadN (winMem s q sp) x n), s)
        else
          let me := squadAgent s key q cls
          match firstRace s q sp me false (wordsOf x n) with
          | some (r, w) => (.error (raceFault s q.grid sp w r), s)
          | none =>
            let s := (wordsOf x n).foldl (fun s w => noteFence s key q sp me.acc w) s
            let s := (wordsOf x n).foldl (fun s w => s.modTag q sp w (tagRead · me.acc)) s
            let s := if cls == .sync then acquireObj s key (wordTable s q sp) (wordObj s q sp (x / 4 * 4)) else s
            (.ok (memReadN (winMem s q sp) x n), s)

/-! ### Stores -/

/-- R349: a plain store of a lane that has issued a fence is fence-published. -/
def storeCls (q : Squad) (lane : Nat) (cls : AccessClass) : AccessClass :=
  match cls, (q.lane lane).fence with
  | .plain, some sc => .fence sc
  | c, _ => c

/-- What a performed write leaves in its words' tags and sync records. -/
def noteWrite (s : State) (key : Nat) (q : Squad) (lane : Nat) (sp : Space) (me : Access) (w : Nat) : State :=
  let s := s.modTag q sp w (tagWrite · me)
  match me.cls with
  | .fence sc => s.modTag q sp w (tagPublish · me sc ((mapGet q.published lane).getD Clock.zero))
  | .sync =>
    let (c, s) := release s key (natural sp)
    releaseTo s (wordTable s q sp) (wordObj s q sp w) c
  | .plain => s

/-- R120, R122, R140, R153: one lane's store. A helper lane's is discarded (R14). Log 38, DEDUCED. -/
def storeWin (s : State) (key lane : Nat) (sp : Space) (x align : Nat) (bs : List Byte) (cls : AccessClass) : Option LaneFault × State :=
  match s.squad? key with
  | none => (none, s)
  | some q =>
    let n := bs.length
    if (q.lane lane).kind == .helper then (none, s)
    else match checkAddr (winSize s q sp) x n align with
      | some f => (some f, s)
      | none =>
        match q.glide, sp with
        | some gl, .shared =>
          let gl' := { gl with buffer := bufferBytes gl.buffer x bs, sectors := (sectorsOf x n).foldl addOnce gl.sectors,
                               writers := (wordsOf x n).foldl (fun m w => mapSet m w lane) gl.writers }
          (none, s.setSquad key { q with glide := some gl' })
        | _, _ =>
          let me := squadAgent s key q (storeCls q lane cls)
          match firstRace s q sp me true (wordsOf x n) with
          | some (r, w) => (some (raceFault s q.grid sp w r), s)
          | none =>
            let s := s.modWin q sp fun m => memWriteN m x bs
            let s := (wordsOf x n).foldl (fun s w => noteWrite s key q lane sp me.acc w) s
            (none, if sp == .shared then squadHits s key q x n else s)

/-! ### Atomics (R123) -/

/-- R123: the operation of an atomic: the new word, or `none` for a compare that fails. -/
inductive AtomOp where
  | add | min | max | minU | maxU | and | or | xor | exch | cas
  deriving DecidableEq, Repr

def AtomOp.apply (op : AtomOp) (old c c1 : Word32) : Option Word32 :=
  match op with
  | .add => some (old + c)
  | .min => some (if old.slt c then old else c)
  | .max => some (if old.slt c then c else old)
  | .minU => some (if old.ult c then old else c)
  | .maxU => some (if old.ult c then c else old)
  | .and => some (old &&& c)
  | .or => some (old ||| c)
  | .xor => some (old ^^^ c)
  | .exch => some c
  | .cas => if old = c then some c1 else none

/-- R123, R155: one lane's atomic: its old word. A helper lane's is discarded and reads zero (R14). Log 38, DEDUCED. -/
def atomWin (s : State) (key lane : Nat) (sp : Space) (op : AtomOp) (x : Nat) (c c1 : Word32) : Except LaneFault Word32 × State :=
  match s.squad? key with
  | none => (.ok 0#32, s)
  | some q =>
    if (q.lane lane).kind == .helper then (.ok 0#32, s)
    else match checkAddr (winSize s q sp) x 4 4 with
      | some f => (.error f, s)
      | none =>
        let old : Word32 := BitVec.ofNat 32 (memNat (winMem s q sp) x 4)
        let new := op.apply old c c1
        let me := squadAgent s key q .sync
        match checkTag (winTag s q sp x) me new.isSome with
        | some r => (.error (raceFault s q.grid sp x r), s)
        | none =>
          let s := noteFence s key q sp me.acc x
          let s := s.modTag q sp x (tagRead · me.acc)
          let s := acquireObj s key (wordTable s q sp) (wordObj s q sp x)
          match new with
          | none => (.ok old, s)
          | some v =>
            let s := s.modWin q sp fun m => memWriteN m x (leBytes 4 v.toNat)
            let s := noteWrite s key q lane sp me.acc x
            (.ok old, if sp == .shared then squadHits s key q x 4 else s)

end Sys2Proof.Machine
end

