-- ==== Sys2Proof/Machine/Ops.lean ====
section
/-!
DEFINITION. Taking an exception and returning from one (R287–R292), the end of groups and grids (R289), regrouping (R15),
meetings (R217, R218), and the registers that engines write.
-/
namespace Sys2Proof.Machine

/-! ### Registers that engines write (R101, R142, R242, R251) -/

/-- An engine's write of a register of a squad: it stands in a glide's checkpoint too. -/
def engineWrite (s : State) (key : Nat) (f : Files → Files) : State :=
  s.modSquad key fun q => { q with files := f q.files, glide := q.glide.map fun gl => { gl with files := f gl.files } }

/-! ### Regrouping (R15) -/

/-- The lanes that may share a bundle with lane `i`: same program counter, same side of a handler (R288). -/
def Squad.mates (q : Squad) (i : Nat) : LaneMask :=
  maskOf fun j =>
    (q.lane j).issuable && (q.lane i).issuable && (q.lane j).pc == (q.lane i).pc && (q.lane j).handler == (q.lane i).handler

/-- R277: a bundle takes the greatest age among the bundles its lanes came from. -/
def ageOf (old : List Bundle) (m : LaneMask) : Nat :=
  (old.filter fun b => b.lanes &&& m != 0#32).foldl (fun a b => max a b.age) 0

/-- R15: one bundle per program counter, by lowest lane. -/
def Squad.formBundles (q : Squad) : List Bundle :=
  let starts := (List.range 32).filter fun i => (q.lane i).issuable && lowLane (q.mates i) == i
  starts.map fun i => { lanes := q.mates i, age := ageOf q.bundles (q.mates i), last := none }

/-- R15, R39: regroups one squad; a run whose lane set is no bundle any more ends. -/
def regroupSquad (s : State) (key : Nat) : State :=
  match s.squad? key with
  | none => s
  | some q =>
    let bs := q.formBundles
    let s' := s.setSquad key { q with bundles := bs }
    let core := s.coreOf q
    match mapGet (s.core core).runs q.issueSlot with
    | some r => if r.squad = key ∧ (bs.all fun b => b.lanes != r.lanes) then endRun s' core q.issueSlot else s'
    | none => s'

/-- The resident squads of a core, ascending. -/
def State.squadsOn (s : State) (core : Nat) : List Nat :=
  (s.squads.filter fun (_, q) => s.coreOf q == core && q.residency == .resident && !q.ended).map (·.1)

/-- R15: a regroup tick of a core. -/
def regroupCore (s : State) (core : Nat) : State := (s.squadsOn core).foldl regroupSquad s

/-- Takes lanes out of a squad's bundles until the next regroup tick. -/
def Squad.leaveBundles (q : Squad) (m : LaneMask) : Squad :=
  { q with bundles := (q.bundles.map fun b => { b with lanes := b.lanes &&& ~~~m }).filter fun b => b.lanes != 0#32 }

/-! ### Meetings (R217, R218) -/

/-- R217: live lanes that stand at their meeting address are held. -/
def Squad.holdMeet (q : Squad) : Squad :=
  let at_ (l : Lane) : Bool :=
    l.kind == .live && l.hold == .none && (!l.parked || l.handler != .none) && l.meetAt == some l.pc
  let m := maskOf fun i => at_ (q.lane i)
  if m = 0#32 then q else (q.onLanes m fun l => { l with hold := .meeting }).leaveBundles m

/-- R218, R288: the lanes held at an address, and the union of their masks. A handler's lane stays parked for this rule. -/
def Squad.heldAt (q : Squad) (x : Word64) : LaneMask :=
  maskOf fun i => (q.lane i).hold == .meeting && !(q.lane i).parked && (q.lane i).meetAt == some x
def Squad.maskAt (q : Squad) (x : Word64) : LaneMask :=
  (lanesOf (q.heldAt x)).foldl (fun m i => m ||| (q.lane i).meetMask) 0#32

/-- R218: releases the lanes held at an address when every live lane of their masks is among them. -/
def Squad.tryRelease (q : Squad) (x : Word64) : Squad :=
  let h := q.heldAt x
  if h ≠ 0#32 ∧ maskLe (q.maskAt x &&& q.live) h then q.onLanes h fun l => { l with hold := .none, meetAt := none } else q

/-- R217, R218: after any change of program counters or of the live lanes. Log 77, DEDUCED. -/
def Squad.settle (q : Squad) : Squad :=
  let q := q.holdMeet
  (List.range 32).foldl (fun q i => match (q.lane i).meetAt with | some x => q.tryRelease x | none => q) q

/-! ### The end of groups and grids (R289, R112) -/

/-- R299, R300: whether work of a group still runs in its core: FIFO entries, row statistics, a clause command, and near copies
whose source or destination lies in its shared window. -/
def groupWork (s : State) (gk : Nat) (rs : Bool) : Bool :=
  match s.group? gk with
  | none => false
  | some g =>
    let c := s.core g.core
    let mine (k : Nat) : Bool := groupOfSquad k == gk
    c.fifo.any (fun m => mine m.squad) || (rs && c.rs.any fun r => mine r.squad)
      || (match (s.cluster (clusterOf g.core)).clauseRun with
          | some r => mine r.squad
          | none => false)
      || c.copies.any fun k => mine k.squad && (k.src.space == 1#8 || k.dst.space == 1#8)

/-- R112, R230, R249, R289: a group whose squads have all ended and whose local work is done releases its resources. Log 46, DEDUCED. -/
def releaseGroup (s : State) (gk : Nat) : State :=
  match s.group? gk with
  | none => s
  | some g =>
    let mine := s.squads.filter fun (k, _) => groupOfSquad k == gk
    if g.status == .ended || !(mine.all fun (_, q) => q.ended) || groupWork s gk true then s
    else
      let s := s.modGroup gk fun g => { g with status := .ended, shared := [], tags := [], saved := none }
      let s := { s with squads := mapFilter s.squads fun k _ => groupOfSquad k != gk }
      let s := s.modGrid g.grid fun d => { d with groupsEnded := d.groupsEnded + 1 }
      let free (s : State) (c : Nat) : State :=
        s.modCore c fun c => if c.tileOwner == some gk then { c with tileOwner := none, tiles := [] } else c
      let s := if g.matrix then free (free s g.core) (g.core + 1) else s
      if g.clause then
        s.modCluster (clusterOf g.core) fun c =>
          if c.clauseOwner == some gk then { c with clauseOwner := none, clause := Clause.cleared 1024 4096 } else c
      else s

/-- R289: ends a squad at once. -/
def Squad.stop (q : Squad) : Squad :=
  { q with
    ended := true, bundles := [], events := [], entered := [], glide := none, tBusy := none, sBusy := none,
    ops := [],
    lanes := q.lanes.map fun l =>
      { l with kind := if l.kind == .absent then .absent else .exited, hold := .none, wait := .none, parked := false, handler := .none,
               taken := .none, heldAt := .none, meetAt := none } }

/-- R280, R289: the device ends a grid: its squads end at once, its unplaced groups are never placed, its completion value will carry
bit 63, faults of its running work are discarded, and it triggers at that moment. -/
def endGrid (s : State) (grid : Nat) : State :=
  match s.grid? grid with
  | none => s
  | some _ =>
    let s := s.modGrid grid fun d => { d with failed := true }
    let keys := (s.squads.filter fun (_, q) => q.grid == grid).map (·.1)
    let s := keys.foldl (fun s k => (dropRunOf s k).modSquad k Squad.stop) s
    let gks := (s.groups.filter fun (_, g) => g.grid == grid && g.status != .ended).map (·.1)
    tryTrigger (gks.foldl releaseGroup s) grid

/-! ### Taking an exception (R286–R290) -/

/-- R287: an event as its raiser knows it. -/
def TrapEvent.base : TrapEvent :=
  { cause := 0#16, sub := 0#16, lanes := 0#32, pc := 0#64, addr := 0#64, lane := 0, level := 0xFE, node := 0, slot := 0,
    resume := 0#64, words := [], other := 0#32, toStvec := false, inHandler := false, halts := false, raisedAt := 0 }

/-- R290: the 128 bytes of a frame. -/
def TrapEvent.frame (e : TrapEvent) (priv : Level) (esc : Bool) : List Byte :=
  leBytes 2 e.cause.toNat ++ leBytes 2 e.sub.toNat ++ leBytes 4 e.lanes.toNat ++ leBytes 8 e.pc.toNat ++ leBytes 8 e.addr.toNat
    ++ leBytes 1 e.lane ++ leBytes 1 e.level ++ leBytes 1 e.node ++ leBytes 1 e.slot ++ leBytes 8 e.resume.toNat
    ++ leBytes 4 (e.words.getD 0 0#32).toNat ++ leBytes 4 (e.words.getD 1 0#32).toNat ++ leBytes 4 (e.words.getD 2 0#32).toNat
    ++ leBytes 4 e.other.toNat ++ leBytes 1 (levelNum priv)
    ++ leBytes 1 ((if esc then 1 else 0) + if e.inHandler then 2 else 0) ++ List.replicate 74 0#8

def userFrame : Nat := 0x0000
def supervisorFrame : Nat := 0x0F80

/-- R283: the context of a squad. -/
def State.contextOf (s : State) (q : Squad) : Option Context := s.ctx? (s.ctxOf q)
def State.stvecOf (s : State) (q : Squad) : Word64 := ((s.contextOf q).map (·.stvec)).getD 0#64
def State.launchLevel (s : State) (q : Squad) : Level := ((s.contextOf q).map (·.level)).getD .user

/-- R287: whether an event goes to STVEC, as the vectors stand now. Log 34, DEDUCED. -/
def goesToStvec (q : Squad) (e : TrapEvent) : Bool := e.toStvec || e.inHandler || q.tvec == 0#64

/-- R287: whether an event's frame is free now. A Breakpoint event that halts its group waits for none (R302). Log 34, DEDUCED. -/
def frameFree (q : Squad) (e : TrapEvent) : Bool :=
  e.halts || (if goesToStvec q e then q.sBusy.isNone else q.tBusy.isNone)

/-- R287: the first waiting event whose frame is free, with the events before it and after it. Log 34, DEDUCED. -/
def nextEvent (q : Squad) : List TrapEvent → Option (List TrapEvent × TrapEvent × List TrapEvent)
  | [] => none
  | e :: rest =>
    if frameFree q e then some ([], e, rest)
    else match nextEvent q rest with
      | some (a, e', b) => some (e :: a, e', b)
      | none => none

/-- R286: a machine check. -/
def TrapEvent.isCheck (e : TrapEvent) : Bool := 0x20 ≤ e.cause.toNat

/-- R210, R290: an event that a tree raised. -/
def TrapEvent.ofTree (e : TrapEvent) : Bool := e.level != 0xFE

/-- R287: whether of two events raised in one cycle the first enters first: machine checks, then the lowest cause code, then the lowest
first lane; the events that one tree raises keep their order (R210). -/
def TrapEvent.before (e x : TrapEvent) : Bool :=
  e.raisedAt == x.raisedAt && !(e.ofTree && x.ofTree)
    && ((e.isCheck && !x.isCheck)
      || (e.isCheck == x.isCheck
        && (e.cause.toNat < x.cause.toNat || (e.cause == x.cause && lowLane e.lanes < lowLane x.lanes))))

/-- R287: an event joins the waiting ones. -/
def queueEvent (e : TrapEvent) : List TrapEvent → List TrapEvent
  | [] => [e]
  | x :: xs => if e.before x then e :: x :: xs else x :: queueEvent e xs

/-- R287: an event that entered in this cycle, and before which another one raised in this cycle enters, waits after all. -/
def Squad.unenter (q : Squad) (st : Bool) (x : TrapEvent) : Squad :=
  let park (l : Lane) : Lane :=
    { l with pc := x.resume, level := ((if st then q.sBusy else q.tBusy).getD l.level), handler := .none,
             taken := if l.handler == .stvecOverTvec then .tvec else .none }
  { (q.onLanes (x.lanes &&& q.live) park).leaveBundles x.lanes with
    events := queueEvent x q.events, entered := q.entered.filter (· != (st, x)), tBusy := if st then q.tBusy else none,
    sBusy := if st then none else q.sBusy }

/-- R287: the events of this cycle in their order: `e` waits first where it comes before one that has entered the frame that it chooses. -/
def Squad.reorder (q : Squad) (e : TrapEvent) : Squad :=
  match q.entered.find? fun x => x.1 == goesToStvec q e && e.before x.2 with
  | some (st, x) => q.unenter st x
  | none => q

/-- R132, R137, R218, R289: handler lanes that wait, at a barrier, at the span barrier or at a meeting, for a lane of the event: they can
no longer reach `eret`. Log 77, DEDUCED. -/
def Squad.neverReturns (q : Squad) (e : TrapEvent) : Bool :=
  let missing (p : Lane → Bool) : Bool := (lanesOf (e.lanes &&& q.live)).any fun i => p (q.lane i)
  (lanesOf (q.handlers .stvec ||| q.handlers .stvecOverTvec)).any fun i =>
    let l := q.lane i
    match l.hold with
    | .none => false
    | .meeting => l.meetMask &&& e.lanes &&& q.live != 0#32
    | .barrier n =>
      let b := q.bar n
      !b.pend && maskLe (BitVec.twoPow 32 i) b.larr && e.lanes &&& q.live &&& ~~~b.larr != 0#32
    | .spanBarrier => missing fun l => l.heldAt != .spanBarrier

/-- R289: an event that would go to the supervisor frame, which lanes hold that can no longer reach `eret`. -/
def Squad.hopeless (q : Squad) : Bool := q.sBusy.isSome && q.events.any fun e => !e.halts && goesToStvec q e && q.neverReturns e

/-- R144, R302, R303: a group halts: its glides roll back, its unwritten latch values are written. -/
def haltGroup (s : State) (gk : Nat) : State :=
  let keys := (s.squads.filter fun (k, _) => groupOfSquad k == gk).map (·.1)
  let s := keys.foldl (fun s k => endRunOf (rollGlide s k) k) s
  s.modGroup gk fun g => { g with halted := true }

/-- R302: a Breakpoint event with a debugger attached: the user frame is written and the group halts. Log 34, DEDUCED. -/
def haltFor (s : State) (key : Nat) (q : Squad) (e : TrapEvent) : State :=
  let priv := q.levelOf e.lanes
  match spillWrite s key q userFrame (e.frame priv false) with
  | .wait s => s
  | .dead s => endGrid s q.grid
  | .done _ s =>
    let s := s.modSquad key fun q => { q with tBusy := some (q.tBusy.getD priv) }
    let s := haltGroup s q.groupKey
    match (s.contextOf q).bind (·.debugger) with
    | some fn =>
      s.post (fnKey fn) { kind := 7, tag := 0#16, status := 0, payload := leBytes 8 (s.ctxOf q) ++ (e.frame priv false).take 48 }
    | none => s

/-- R287, R289: one attempt to enter a waiting event. Log 34, DEDUCED. -/
def enterOne (s : State) (key : Nat) : State :=
  match s.squad? key with
  | none => s
  | some q =>
    let halted := ((s.group? q.groupKey).map (·.halted)).getD false
    if halted || q.ended || q.residency != .resident then s
    else match nextEvent q q.events with
      | none => if q.hopeless then endGrid s q.grid else s
      | some (before, e, after) =>
        if e.halts then haltFor s key q e
        else
          let st := goesToStvec q e
          let vec := if st then s.stvecOf q else q.tvec
          if st ∧ vec = 0#64 then endGrid s q.grid
          else
            let priv := q.levelOf e.lanes
            match spillWrite s key q (if st then supervisorFrame else userFrame) (e.frame priv (st && !e.toStvec)) with
            | .wait s => s
            | .dead s => endGrid s q.grid
            | .done _ s =>
              let level := if st then levelMax .supervisor (s.launchLevel q) else s.launchLevel q
              let h (l : Lane) : Handler := if !st then .tvec else if l.taken == .tvec then .stvecOverTvec else .stvec
              let q := q.onLanes e.lanes fun l => { l with pc := vec, handler := h l, taken := .none, level := level, parked := true }
              s.setSquad key
                { q with events := before ++ after, tBusy := if st then q.tBusy else some priv,
                         sBusy := if st then some priv else q.sBusy,
                         entered := (if e.raisedAt = s.cycle then [(st, e)] else []) ++ q.entered.filter fun (x : Bool × TrapEvent) => x.2.raisedAt == s.cycle }.settle

/-- R287: events enter in the order they were raised, each as its frame is free. -/
def enterEvents (s : State) (key : Nat) : Nat → State
  | 0 => s
  | n + 1 =>
    let s' := enterOne s key
    let count (s : State) : Nat := ((s.squad? key).map (·.events.length)).getD 0
    if count s' < count s then enterEvents s' key n else s'

/-- R287: whatever waiting events may enter now, enter. Log 77, DEDUCED. -/
def tryEnter (s : State) (key : Nat) : State := enterEvents s key (((s.squad? key).map (·.events.length)).getD 0)

/-- R287: a lane that an event takes: it keeps what it was held at, and which handler it ran. -/
def Lane.park (resume : Word64) (l : Lane) : Lane :=
  { l with
    parked := true, handler := .none, taken := l.handler, wait := .none, hold := .none, pc := resume,
    heldAt := match l.hold with
      | .barrier n => .barrier n
      | .spanBarrier => .spanBarrier
      | _ => l.heldAt }

/-- R287, R289, R302: raises an event: its live lanes park and it enters its handler or waits. A fault in the STVEC handler ends the
grid. Helper lanes' faults are suppressed (R14). -/
def raise (s : State) (key : Nat) (e : TrapEvent) : State :=
  match s.squad? key with
  | none => s
  | some q =>
    let lanes := e.lanes &&& q.live
    if lanes = 0#32 then s
    else
      let inH (h : Handler) : Bool := lanes &&& q.handlers h != 0#32
      let dbg := e.cause == causeBreak && ((s.contextOf q).bind (·.debugger)).isSome
      if !dbg && (inH .stvec || inH .stvecOverTvec) then endGrid s q.grid
      else
        let s := endRunOf s key
        let e' := { e with lanes := lanes, lane := if lanes.getLsbD e.lane then e.lane else lowLane lanes,
                           inHandler := inH .tvec || inH .stvecOverTvec, halts := dbg, raisedAt := s.cycle }
        -- R319: what the lanes issued is issued no more
        let s := ({ s with partQueue := s.partQueue.filter (· != key) }).modSquad key fun q =>
          let q := ((q.onLanes lanes (Lane.park e.resume)).leaveBundles lanes).reorder e'
          { q with events := queueEvent e' q.events, races := if e.cause == causeRace then (q.races + 1) % 2 ^ 16 else q.races }
        tryEnter s key

/-- R287: the lanes of the events that wait. -/
def Squad.queued (q : Squad) : LaneMask := q.events.foldl (fun m e => m ||| (e.lanes &&& q.live)) 0#32

/-- R287, R294, R295: a machine check: one event over every live lane that belongs to no waiting event, to STVEC; a glide rolls back first
(R144). Log 35, DEDUCED. -/
def machineCheck (s : State) (key : Nat) (cause sub : BitVec 16) (addr : Word64) : State :=
  let s := rollGlide s key
  match s.squad? key with
  | none => s
  | some q =>
    let m := q.live &&& ~~~q.queued
    let pc := (q.lane (lowLane m)).pc
    raise s key { TrapEvent.base with cause := cause, sub := sub, lanes := m, pc := pc, resume := pc, addr := addr,
                                      lane := lowLane m, toStvec := true }

/-! ### Returning from an exception (R291, R292) -/

/-- R291: lanes of a handler return to the frame's RESUME at their entry level; those of an escalation rejoin the TVEC
handler. -/
def returnTo (s : State) (key : Nat) (lanes : LaneMask) (st : Bool) (r : Word64) : State :=
  let s := s.modSquad key fun q =>
    let busy := if st then q.sBusy else q.tBusy
    let back (l : Lane) : Lane :=
      let l := { l with pc := r, level := busy.getD l.level, wait := .none, hold := l.heldAt, heldAt := .none }
      if l.handler == .stvecOverTvec then { l with handler := .tvec } else { l with handler := .none, parked := false }
    let q := (q.onLanes lanes back).leaveBundles lanes
    { q with tBusy := if st then q.tBusy else none, sBusy := if st then none else q.sBusy }.settle
  tryEnter s key

/-- R287, R289, R291: the lanes of the TVEC handler, those that an escalation took out of it among them. Log 17, DEDUCED. -/
def Squad.tvecLanes (q : Squad) : LaneMask :=
  q.handlers .tvec ||| q.handlers .stvecOverTvec
    ||| (maskOf fun i => (q.lane i).taken == .tvec || (q.lane i).taken == .stvecOverTvec) &&& q.live

/-- R292: when the last lane of a handler exits, its busy bit clears. -/
def handlersGone (s : State) (key : Nat) : State :=
  let s := s.modSquad key fun q =>
    let stLanes := q.handlers .stvec ||| q.handlers .stvecOverTvec
    let tLanes := q.tvecLanes
    let halts := q.events.any (·.halts)
    { q with sBusy := if stLanes = 0#32 then none else q.sBusy, tBusy := if tLanes = 0#32 && !halts then none else q.tBusy }
  tryEnter s key

/-! ### Outstanding operations (R97, R98) -/

/-- R97: a squad's counter of a class. -/
def Squad.counter (q : Squad) (cls : Nat) : Nat := (q.ops.filter fun o => o.cls == cls && !o.counted).length

/-- R97: counts off, in post order, the completed operations of a class. -/
def countOff (cls : Nat) : List OutOp → List OutOp
  | [] => []
  | o :: os =>
    if o.cls ≠ cls ∨ o.counted then o :: countOff cls os
    else if o.done then { o with counted := true } :: countOff cls os
    else o :: os

/-- What a squad keeps of an operation that is counted off: a held fault or report, or what a covering wait acquires. -/
def completeOp (s : State) (key id : Nat) (f : OutOp → OutOp) : State :=
  s.modSquad key fun q =>
    match q.ops.find? (·.id == id) with
    | none => q
    | some o => { q with ops := countOff o.cls (q.ops.map fun x => if x.id == id then { f x with done := true } else x) }

end Sys2Proof.Machine
end

