-- ==== Sys2Proof/Machine/Barrier.lean ====
section
/-!
DEFINITION. Hardware barriers (R130–R137), the commit of a glide (R143), the span barrier, and lanes that exit (R215).
-/
namespace Sys2Proof.Machine

def barNone : Barrier := { count := 0, arrived := 0, phase := 0, epend := 0, joining := Clock.zero }

def Group.bar (g : Group) (b : Nat) : Barrier := g.barriers.getD b barNone
def Group.modBar (g : Group) (b : Nat) (f : Barrier → Barrier) : Group :=
  { g with barriers := g.barriers.set b (f (g.bar b)) }

def Squad.modBar (q : Squad) (b : Nat) (f : SquadBar → SquadBar) : Squad := { q with bars := q.bars.set b (f (q.bar b)) }

/-- The squads of a group, ascending. -/
def State.squadsOf (s : State) (gk : Nat) : List Nat := (s.squads.filter fun (k, _) => groupOfSquad k == gk).map (·.1)

/-! ### The commit of a glide (R143) -/

/-- R142: a race of a word that the glide read with a write that a squad of the group, or a copy it posted, made after its arrival
in the phase: the phase's completion orders no such write before the read. `arrivals` gives each squad's epoch from its arrival
on; `before` is the glider as it stood at its own arrival. Log 40, DEDUCED. -/
def lateWrite (s : State) (key : Nat) (before : Squad) (arrivals : Map Nat) (w : Nat) : Bool :=
  match (winTag s before .shared w).writer with
  | none => false
  | some e =>
    let late := match mapGet arrivals (squadKey (groupKey before.grid e.group) e.squad) with
      | some n => e.group == before.group && e.kind ≤ 1 && n ≤ e.epoch
      | none => false
    late && (checkTag (winTag s before .shared w) (squadAgent s key before .plain) false).isSome

/-- R143: whether a word read or to be written shows a race. Log 40, DEDUCED. -/
def glideRace (s : State) (key : Nat) (before q : Squad) (arrivals : Map Nat) (gl : Glide) : Option Race :=
  let rd := squadAgent s key q .plain
  match firstRace s q .shared rd false gl.liveReads, gl.liveReads.find? (lateWrite s key before arrivals) with
  | some (r, _), _ => some r
  | none, some w => checkTag (winTag s q .shared w) (squadAgent s key before .plain) false
  | none, none =>
    gl.writers.foldl (fun acc (w, lane) =>
      match acc with
      | some r => some r
      | none => checkTag (winTag s q .shared w) (squadAgent s key q (storeCls q lane .plain)) true) none

/-- R132, R135: a lane held at a barrier passes it; so does one that an event took there. -/
def Lane.passes (b : Nat) (l : Lane) : Lane :=
  { l with hold := if l.hold == .barrier b then .none else l.hold, heldAt := if l.heldAt == .barrier b then .none else l.heldAt }

/-- R143: the phase completed while a squad glides: its stores are performed, or a race rolls it back and it runs again, released
at once. Log 40, DEDUCED. -/
def commitGlide (s : State) (key : Nat) (released : Clock) (arrivals : Map Nat) : State :=
  match s.squad? key with
  | none => s
  | some q =>
    match q.glide with
    | none => s
    | some gl =>
      let before := q
      -- the arrival's acquire (R133), without the squad's own later epochs
      let s := acquire s key released
      let q := { q with clock := q.clock.join released }
      match glideRace s key before q arrivals gl with
      | some _ =>
        let s := rollGlide s key
        s.modSquad key fun q =>
          ((q.onLanes (BitVec.allOnes 32) (Lane.passes gl.barrier)).modBar gl.barrier fun b =>
            { b with armed := false, due := Clock.zero }).settle
      | none =>
        let rd := squadAgent s key q .plain
        let s := gl.liveReads.foldl (fun s w => noteFence s key q .shared rd.acc w) s
        let s := gl.liveReads.foldl (fun s w => s.modTag q .shared w (tagRead · rd.acc)) s
        let s := s.modGroup q.groupKey fun g => { g with shared := gl.buffer.foldl (fun m (a, b) => memWrite m a b) g.shared }
        let s := gl.writers.foldl (fun s (w, lane) =>
          noteWrite s key q lane .shared (squadAgent s key q (storeCls q lane .plain)).acc w) s
        let s := s.modSquad key fun q => { q with glide := none }
        hitGlides s q.groupKey (some key) (fun b => b != gl.barrier && !q.arrived b) gl.sectors

/-! ### Completion and arrival (R132, R133) -/

/-- R161: the report that a squad's return from a barrier raises, for an operation that arrived in the phase that completed. -/
def reportAt (q : Squad) (b phase : Nat) : Option OutOp := q.ops.find? fun o => o.race.isSome && o.arrived == some (b, phase)

/-- R161: a race report, with the addresses the rule gives. -/
def reportRace (s : State) (key : Nat) (lanes : LaneMask) (pc resume : Word64) (words : List Word32) (o : OutOp) : State :=
  match o.race with
  | none => s
  | some r =>
    let s := s.modSquad key fun q => { q with ops := q.ops.map fun x => if x.id == o.id then { x with race := none } else x }
    raise s key { TrapEvent.base with cause := causeRace, sub := r.sub, lanes := lanes, pc := pc, resume := resume, addr := r.word,
                                      lane := lowLane lanes, words := words, other := r.other }

/-- R133: what the squad's arrivals at a barrier have coming, acquired; its wait has returned. -/
def barReturns (s : State) (key b : Nat) : State :=
  match s.squad? key with
  | none => s
  | some q => (acquire s key (q.bar b).due).modSquad key fun q => q.modBar b fun x => { x with armed := false, due := Clock.zero }

/-- R132, R161: releases the lanes of one squad held at a barrier that completed. -/
def releaseAt (s : State) (key b phase : Nat) : State :=
  match s.squad? key with
  | none => s
  | some q =>
    let held := maskOf fun i => (q.lane i).hold == .barrier b
    let taken := maskOf fun i => (q.lane i).heldAt == .barrier b
    if held ||| taken = 0#32 then s
    else
      let s := (barReturns s key b).modSquad key fun q => (q.onLanes (held ||| taken) (Lane.passes b)).settle
      match (s.squad? key).bind fun q => reportAt q b phase with
      | some o =>
        let l := q.lane (lowLane held)
        if held = 0#32 then s else reportRace s key held (l.pc - 8#64) l.pc l.barWords o
      | none => s

/-- R132: completion of a barrier's phase; squads that glide past it commit (R143). -/
def completeBar (s : State) (gk b : Nat) : State :=
  match s.group? gk with
  | none => s
  | some g =>
    let bar := g.bar b
    let c := bar.joining
    let s := s.modGroup gk fun g => g.modBar b fun x =>
      { x with phase := (x.phase + 1) % 65536, arrived := 0, joining := Clock.zero }
    let keys := s.squadsOf gk
    let arrivals : Map Nat := keys.filterMap fun k =>
      (s.squad? k).bind fun q => if (q.bar b).pend then some (k, (q.bar b).since) else none
    let s := keys.foldl (fun s k => s.modSquad k fun q => q.modBar b fun x =>
      { x with pend := false, due := if x.pend then x.due.join c else x.due }) s
    let glider (s : State) (k : Nat) : Bool := ((s.squad? k).bind (·.glide)).any (·.barrier == b)
    let s := keys.foldl (fun s k => if glider s k then commitGlide s k c arrivals else s) s
    keys.foldl (fun s k => releaseAt s k b bar.phase) s

/-- R132: one more arrival, with what it releases; the test of completion. -/
def arriveAt (s : State) (gk b : Nat) (c : Clock) : State :=
  let s := s.modGroup gk fun g => g.modBar b fun x => { x with arrived := x.arrived + 1, joining := x.joining.join c }
  match s.group? gk with
  | some g => if (g.bar b).arrived = (g.bar b).count then completeBar s gk b else s
  | none => s

/-- R132: a squad arrives when every live lane is in LARR. Log 42, DEDUCED. -/
def squadArrives (s : State) (key b : Nat) : State :=
  match s.squad? key with
  | none => s
  | some q =>
    let larr := (q.bar b).larr
    if larr ≠ 0#32 ∧ maskLe q.live larr then
      let (c, s) := release s key 2
      let s := s.modSquad key fun q => q.modBar b fun x =>
        { x with larr := 0#32, pend := true, armed := true, since := q.epoch key }
      arriveAt s q.groupKey b c
    else s

/-- R132, R161: an engine operation's arrival. -/
def engineArrives (s : State) (gk b : Nat) (c : Clock) : State :=
  let s := s.modGroup gk fun g => g.modBar b fun x => { x with epend := x.epend - 1 }
  arriveAt s gk b c

/-! ### The span barrier (R137) -/

/-- The live squads of the groups of a span that have been placed. -/
def State.spanSquads (s : State) (span : Nat) : List Nat :=
  (s.squads.filter fun (_, q) => s.spanOf q == span && !q.ended).map (·.1)

/-- R137: whether every group of a span has been placed; of a grid that has failed, no more will be (R289). -/
def spanPlaced (s : State) (span : Nat) : Bool :=
  match (s.span? span).bind fun p => (s.grid? p.grid).map fun g => (p, g) with
  | some (p, g) => g.failed || min ((p.index + 1) * g.desc.perSpan) (g.desc.ngx * g.desc.ngy * g.desc.ngz) ≤ g.next
  | none => true

/-- R137: whether every live lane of every squad of the span has arrived: it is held, or an event took it there. -/
def spanArrived (s : State) (span : Nat) : Bool :=
  spanPlaced s span && (s.spanSquads span).all fun k =>
    match s.squad? k with
    | some q => (lanesOf q.live).all fun i => (q.lane i).hold == .spanBarrier || (q.lane i).heldAt == .spanBarrier
    | none => true

/-- R137: completion of the span barrier, tested after an arrival or an exit. -/
def trySpan (s : State) (span : Nat) : State :=
  let keys := s.spanSquads span
  let waiting := keys.any fun k => ((s.squad? k).map fun q => q.lanes.any fun l => l.hold == .spanBarrier || l.heldAt == .spanBarrier).getD false
  if !waiting || !spanArrived s span then s
  else
    let c := ((s.span? span).map (·.joining)).getD Clock.zero
    let s := s.modSpan span fun p => { p with joining := Clock.zero }
    keys.foldl (fun s k =>
      (acquire s k c).modSquad k fun q =>
        (q.onLanes (BitVec.allOnes 32) fun l =>
          { l with hold := if l.hold == .spanBarrier then .none else l.hold,
                   heldAt := if l.heldAt == .spanBarrier then .none else l.heldAt }).settle) s

/-! ### Lanes that exit (R215) -/

/-- R215, R132, R137, R218, R292: lanes leave; the release tests are applied again; a squad without live lanes ends. Log 42, DEDUCED. Log 77, DEDUCED. -/
def exitLanes (s : State) (key : Nat) (lanes : LaneMask) : State :=
  match s.squad? key with
  | none => s
  | some q =>
    let lanes := lanes &&& q.live
    let s := endRunOf s key
    let gone (l : Lane) : Lane :=
      { l with kind := .exited, meetAt := none, hold := .none, wait := .none, parked := false, handler := .none,
               taken := .none, heldAt := .none }
    let s := s.modSquad key fun q => ((q.onLanes lanes gone).leaveBundles lanes).settle
    let s := handlersGone s key
    let live := ((s.squad? key).map (·.live)).getD 0#32
    -- R132: the squad arrives with the exit of the lanes that were missing
    let arriveAll (s : State) : State :=
      (List.range q.bars.length).foldl (fun s b =>
        match s.squad? key with
        | some q' => if (q'.bar b).larr ≠ 0#32 then squadArrives s key b else s
        | none => s) s
    let s := arriveAll s
    let s := trySpan s (s.spanOf q)
    if live = 0#32 then
      let s := s.modSquad key Squad.stop
      trySpan (releaseGroup s q.groupKey) (s.spanOf q)
    else s

end Sys2Proof.Machine
end

