-- ==== Sys2Proof/Machine/Rename.lean ====
section
/-!
DEFINITION. The renamer (R125, R171–R174): physical registers and floors, the slots of spilled names, evictions, reloads. Log 23, DEDUCED.
-/
namespace Sys2Proof.Machine

/-! ### Renamer slots (R125, R173, R174) -/

/-- R125: the slots of the three files. -/
def slotV (n : Nat) : Nat := 0x1000 + 128 * n
def slotS (n : Nat) : Nat := 0x5000 + 8 * n
def slotA (n : Nat) : Nat := 0x5200 + 16 * n

def VReg.bytes (r : VReg) : List Byte := r.lanes.flatMap fun w => leBytes 4 w.toNat
def AReg.bytes (r : AReg) : List Byte := leBytes 8 r.base.toNat ++ leBytes 4 r.stride.toNat ++ leBytes 4 0

/-- R173: the slots of the names that are mapped and not spilled, with what they receive. -/
def Files.toSlots (f : Files) : List (Nat × List Byte) :=
  (f.v.filterMap fun (n, r) => if r.spilled then none else some (slotV n, r.bytes))
    ++ (f.s.filterMap fun (n, r) => if r.spilled then none else some (slotS n, leBytes 8 r.val.toNat))
    ++ f.a.filterMap fun (n, r) => if r.spilled then none else some (slotA n, r.bytes)

/-- R174: every mapped name stands spilled. Log 23, DEDUCED. -/
def Files.spill (f : Files) : Files :=
  { v := mapAll f.v fun _ r => { r with spilled := true }, s := mapAll f.s fun _ r => { r with spilled := true },
    a := mapAll f.a fun _ r => { r with spilled := true } }

def writeSlots (s : State) (key : Nat) (q : Squad) : List (Nat × List Byte) → SpillOut Unit
  | [] => .done () s
  | (off, bs) :: rest =>
    match spillWrite s key q off bs with
    | .done _ s => writeSlots s key q rest
    | r => r

def readSlots (s : State) (key : Nat) (q : Squad) : List (Nat × Nat) → SpillOut (List (Nat × List Byte))
  | [] => .done [] s
  | (off, n) :: rest =>
    match spillRead s key q off n with
    | .done bs s =>
      match readSlots s key q rest with
      | .done l s => .done ((off, bs) :: l) s
      | .wait s => .wait s
      | .dead s => .dead s
    | .wait s => .wait s
    | .dead s => .dead s

/-- R173: the spilled names whose slots are given, reloaded from what the slots hold. -/
def Files.reloaded (f : Files) (l : List (Nat × List Byte)) : Files :=
  let at_ (off : Nat) : Option (List Byte) := (l.find? (·.1 == off)).map (·.2)
  let word (bs : List Byte) (i : Nat) : Word32 := BitVec.ofNat 32 (leField bs (4 * i) 4)
  let v (n : Nat) (r : VReg) : VReg :=
    match r.spilled, at_ (slotV n) with
    | true, some bs => { lanes := perLane (word bs), spilled := false }
    | _, _ => r
  let u (n : Nat) (r : SReg) : SReg :=
    match r.spilled, at_ (slotS n) with
    | true, some bs => { val := BitVec.ofNat 64 (leNat bs), spilled := false }
    | _, _ => r
  let a (n : Nat) (r : AReg) : AReg :=
    match r.spilled, at_ (slotA n) with
    | true, some bs => { base := BitVec.ofNat 64 (leField bs 0 8), stride := word bs 2, spilled := false }
    | _, _ => r
  { v := mapAll f.v v, s := mapAll f.s u, a := mapAll f.a a }

/-- R173: the slots of the spilled names, and their sizes. -/
def Files.spilledSlots (f : Files) : List (Nat × Nat) :=
  (f.v.filterMap fun (n, r) => if r.spilled then some (slotV n, 128) else none)
    ++ (f.s.filterMap fun (n, r) => if r.spilled then some (slotS n, 8) else none)
    ++ f.a.filterMap fun (n, r) => if r.spilled then some (slotA n, 16) else none

/-! ### Names and files (R166, R171, R172) -/

/-- R166: the file of a renamed name: 0 varying, 1 uniform, 2 affine. -/
def fileOf : Name → Option Nat
  | .v _ => some 0
  | .s _ => some 1
  | .a _ => some 2
  | _ => none

/-- R166, R172: the physical registers of a file in a core, and a squad's floor. -/
def physRegs (k : Nat) : Nat := [4096, 2048, 512].getD k 0
def floorRegs (k : Nat) : Nat := [64, 32, 8].getD k 0

/-- R125: a name's slot and its size. -/
def slotOfName : Name → Nat × Nat
  | .v n => (slotV n.val, 128)
  | .s n => (slotS n.val, 8)
  | .a n => (slotA n.val, 16)
  | _ => (0, 0)

/-- R171: whether a name is unmapped (`none`), or whether it is spilled. -/
def Files.stateOf (f : Files) : Name → Option Bool
  | .v n => (mapGet f.v n.val).map (·.spilled)
  | .s n => (mapGet f.s n.val).map (·.spilled)
  | .a n => (mapGet f.a n.val).map (·.spilled)
  | _ => none

/-- R171: the names of a file that stand in physical registers, ascending. -/
def Files.held (f : Files) (k : Nat) : List Name :=
  if k = 0 then f.v.filterMap fun (n, r) => if r.spilled then none else if h : n < 128 then some (.v ⟨n, h⟩) else none
  else if k = 1 then f.s.filterMap fun (n, r) => if r.spilled then none else if h : n < 64 then some (.s ⟨n, h⟩) else none
  else f.a.filterMap fun (n, r) => if r.spilled then none else if h : n < 16 then some (.a ⟨n, h⟩) else none

/-- R140, R143, R172: the physical registers of a file that a squad holds, with those that its checkpoint holds back. -/
def Squad.regsHeld (q : Squad) (k : Nat) : Nat :=
  (q.files.held k).length + match q.glide with
    | none => 0
    | some gl => ((gl.files.held k).filter fun n => q.files.stateOf n != some false || gl.renamed.contains n).length

/-- R172: how many registers of a file are lacking when a squad needs `need` more: those beyond what no floor reserves. Log 23, DEDUCED. -/
def regsLacking (s : State) (key : Nat) (q : Squad) (k need : Nat) : Nat :=
  let others := (s.squadsOn (s.coreOf q)).filter (· != key)
  let taken := others.foldl (fun n x => n + max ((s.squadOr x).regsHeld k) (floorRegs k)) 0
  taken + max (q.regsHeld k + need) (floorRegs k) - physRegs k

/-! ### Evictions (R173) -/

/-- R173: how long ago a name was used: its place among the squad's recently used names. -/
def lastUse (recent : List Name) (n : Name) : Nat := recent.findIdx (· == n)

/-- R173: of names of one file, the least recently used; of names never used, the lowest. -/
def oldestName (recent : List Name) : List Name → Option Name
  | [] => none
  | n :: ns =>
    match oldestName recent ns with
    | some m => if lastUse recent n < lastUse recent m then some m else some n
    | none => some n

/-- R173: the names that a number of evictions take, `none` where too few are left. Log 23, DEDUCED. -/
def victims (recent : List Name) : Nat → List Name → Option (List Name)
  | 0, _ => some []
  | k + 1, ns =>
    match oldestName recent ns with
    | none => none
    | some n => (victims recent k (ns.filter (· != n))).map (n :: ·)

/-- R173: names of a file that become spilled. -/
def Files.evict (f : Files) (ns : List Name) : Files :=
  { v := mapAll f.v fun n r => { r with spilled := r.spilled || ns.any fun x => slotOfName x == (slotV n, 128) },
    s := mapAll f.s fun n r => { r with spilled := r.spilled || ns.any fun x => slotOfName x == (slotS n, 8) },
    a := mapAll f.a fun n r => { r with spilled := r.spilled || ns.any fun x => slotOfName x == (slotA n, 16) } }

/-! ### What an instruction needs of the files -/

/-- R173: what an instruction needs of the files: the names it reads, those it writes, and whether it needs what stood in these. -/
structure Needs where
  reads : List Name
  writes : List Name
  keeps : Bool

/-- The renamed names among some, each once. -/
def renamedNames (ns : List Name) : List Name := (ns.filter fun n => (fileOf n).isSome).foldl addOnce []

/-- R173: the spilled names that must be reloaded. -/
def Needs.back (n : Needs) (f : Files) : List Name :=
  (renamedNames (n.reads ++ if n.keeps then n.writes else [])).filter fun x => f.stateOf x == some true

/-- R171, R173: the names that need a physical register afresh; in a glide those too whose register the checkpoint holds back. -/
def Needs.fresh (n : Needs) (q : Squad) : List Name :=
  let back := n.back q.files
  let held (x : Name) : Bool := q.glide.any fun gl => gl.files.stateOf x == some false && !gl.renamed.contains x
  (renamedNames n.writes).filter fun x => (q.files.stateOf x != some false && !back.contains x) || held x

/-- How naming ends. -/
inductive NameOut where
  | ready (s : State)
  | wait (s : State) (w : WaitKind)
  | dead (s : State)

/-- R173: the names that evictions take, file by file; `none` where every register is exempt. -/
def chosen (s : State) (key : Nat) (q : Squad) (need exempt : List Name) : Option (List Name) :=
  (List.range 3).foldl (fun acc k =>
    match acc with
    | none => none
    | some l =>
      let lack := regsLacking s key q k (need.filter fun n => fileOf n == some k).length
      if lack = 0 then some l
      else (victims q.recent lack ((q.files.held k).filter fun n => !exempt.contains n)).map (l ++ ·)) (some [])

/-- R101: whether a uniform name is a busy landing register. -/
def Squad.landingBusy (q : Squad) (n : Name) : Bool :=
  match n with
  | .s k => q.files.readS k.val != 0#64 && q.ops.any fun o => !o.done && o.landing == some k.val
  | _ => false

/-- R173: names as used most recently, and those a glide has renamed. -/
def Squad.used (q : Squad) (ns writes : List Name) : Squad :=
  { q with
    recent := ns ++ q.recent.filter fun n => !ns.contains n
    glide := q.glide.map fun gl => { gl with renamed := writes.foldl addOnce gl.renamed } }

/-- R171–R173: the renamer's part of an instruction: evictions, reloads, and the note of what it used. A gliding squad's registers are
exempt: its glide stalls (R141). Log 23, DEDUCED. -/
def nameRegs (s : State) (key : Nat) (q : Squad) (n : Needs) : NameOut :=
  let ns := renamedNames (n.reads ++ n.writes)
  let back := n.back q.files
  let need := back ++ n.fresh q
  if need.isEmpty then .ready (s.modSquad key fun q => q.used ns (renamedNames n.writes))
  else
    let busy := (q.files.held 1).filter q.landingBusy
    match chosen s key q need (if q.glide.isSome then q.files.held 0 ++ q.files.held 1 ++ q.files.held 2 else ns ++ busy) with
    | none => .wait s (if q.glide.isSome then .glide else .post)
    | some out =>
      match writeSlots s key q (q.files.toSlots.filter fun x => out.any fun n => (slotOfName n).1 == x.1) with
      | .wait s => .wait s .page
      | .dead s => .dead s
      | .done _ s =>
        match readSlots s key q (back.map slotOfName) with
        | .wait s => .wait s .page
        | .dead s => .dead s
        | .done l s =>
          .ready (s.modSquad key fun q => { q with files := (q.files.evict out).reloaded l }.used ns (renamedNames n.writes))

end Sys2Proof.Machine
end

