-- ==== Sys2Proof/Machine/Issue.lean ====
section
/-!
DEFINITION. How every instruction issues: the checks made before it takes effect (R39, R45, R46, R101, R141, R170, R189), its
guard, and how it retires: last-read bits (R24), its result and latch (R38), program counters, lane faults (R116) and traps.
-/
namespace Sys2Proof.Machine

abbrev Out := Host.Outcome State Fault Refusal

/-- What a meaning works with: the state and squad at issue, the instruction, its operands and the lanes that execute. -/
structure Env where
  s : State
  cx : Cx
  q : Squad
  run : Option Run
  sh : Shape
  x : Opnds
  active : LaneMask

/-- What an instruction does once it has issued. -/
structure Effect where
  s : State
  result : Result
  faults : List (Nat × LaneFault)

/-- How an instruction's own part ends. -/
inductive Eff where
  /-- It takes effect; lanes without a fault continue at the next instruction. -/
  | done (e : Effect)
  /-- It takes effect and has set the program counters itself, but for the lanes with a fault. -/
  | jumped (e : Effect)
  /-- It does not issue; the bundle's lanes wait and try again. The state carries what the attempt left behind. -/
  | wait (s : State) (w : WaitKind)
  /-- It raises a fault for every lane of the bundle, with no effect. -/
  | trap (f : LaneFault)
  /-- As `trap`, over a state that the attempt changed; in a glide, where it stalls instead (R141), over the untouched one. -/
  | trapWith (s : State) (f : LaneFault)
  /-- It took effect whole, in this state. -/
  | whole (s : State)

/-! ### Waiting and trapping -/

/-- R277, R39: the bundle does not issue: its lanes wait at the instruction, and its run ends. -/
def stall (s : State) (cx : Cx) (w : WaitKind) : Out :=
  let s := (endRunOf s cx.key).modSquad cx.key fun q => q.onLanes cx.lanes fun l => { l with wait := w }
  .next { s with issuing := none }

/-- Advances the lanes of a mask past the instruction. -/
def advance (s : State) (cx : Cx) (m : LaneMask) : State :=
  s.modSquad cx.key fun q => q.onLanes m fun l => { l with pc := l.pc + BitVec.ofNat 64 cx.len, wait := .none }

/-- After an instruction: meetings are tested, the bundle's instruction is over, its cost is kept. -/
def retire (s : State) (cx : Cx) (cost : Nat) : Out :=
  .next { (s.modSquad cx.key fun q => { q.settle with cost := cost }) with issuing := none }

/-- A fault's event, over lanes, at the instruction. -/
def faultEvent (cx : Cx) (lanes : LaneMask) (lane : Nat) (f : LaneFault) : TrapEvent :=
  { TrapEvent.base with cause := f.cause, sub := f.sub, lanes := lanes, pc := cx.pc, resume := cx.pc, addr := f.addr, lane := lane,
                        words := cx.words.take (cx.len / 4), other := f.other }

/-- R46, R14: every live lane of the bundle takes the fault and no part takes effect; helper lanes, whose fault is suppressed,
continue (log 15, DEDUCED). In a glide the instruction stalls instead (R141). Log 39, DEDUCED. -/
def trapAll (s : State) (cx : Cx) (q : Squad) (cost : Nat) (f : LaneFault) : Out :=
  if q.glide.isSome then stall s cx .glide
  else
    let s := advance s cx (cx.lanes &&& q.helpers)
    retire (raise s cx.key (faultEvent cx cx.lanes (lowLane (cx.lanes &&& q.live)) f)) cx cost

/-- R116: the first fault: lowest cause code, then lowest lane. -/
def firstFault : List (Nat × LaneFault) → Option (Nat × LaneFault)
  | [] => none
  | (L, f) :: rest =>
    match firstFault rest with
    | none => some (L, f)
    | some (K, g) => if g.cause.toNat < f.cause.toNat ∨ (g.cause = f.cause ∧ K < L) then some (K, g) else some (L, f)

/-! ### The checks before an instruction takes effect -/

/-- R170, R288: the lanes that a bundle must hold: the squad's live lanes, or the lanes of its handler (log 17, DEDUCED). -/
def requiredLanes (q : Squad) (lanes : LaneMask) : LaneMask :=
  match (q.lane (lowLane lanes)).handler with
  | .none => q.live
  | .tvec => q.tvecLanes &&& q.live
  | .stvec => q.handlers .stvec &&& q.live
  | .stvecOverTvec => q.handlers .stvecOverTvec &&& q.live

/-- R170: whether an instruction is subject to the uniformity rule. -/
def needsFull (sh : Shape) (o : Ops) : Bool := sh.full || sh.post || sh.dCls o == .uniform || sh.dCls o == .affine

/-- Registers an instruction names: its sources, its guard, its destination. -/
def namesUsed (sh : Shape) (o : Ops) : List Name :=
  let (ua, ub) := sh.uses o
  let grp (u : Use) (n : Name) : List Name :=
    match u with
    | .src regs _ => (List.range regs).map fun i => nameAfter i n
    | _ => []
  let dst : List Name := match sh.d with
    | .reg regs => (List.range regs).map fun i => nameAfter i o.d
    | .unused => []
  grp ua o.a.name ++ grp ub o.b.name ++ grp sh.c o.c.name ++ dst ++ [o.guard.reg]

/-- The registers that an instruction writes: D, D+1, …; a post's D is written by its engine. -/
def namesWritten (sh : Shape) (o : Ops) : List Name :=
  match sh.d with
  | .reg regs => if o.d == .none then [] else (List.range regs).map fun i => nameAfter i o.d
  | .unused => []

/-- R38: the registers that a fill captured. -/
def capturedBy (name : Name) (pair : Bool) : List Name := if pair then [name, nameAfter 1 name] else [name]

/-- R40: the registers that an instruction reads through the records of latches that the run has not filled. -/
def namesRecorded (q : Squad) (run : Option Run) (lanes : LaneMask) (sh : Shape) (o : Ops) : List Name :=
  let (ua, ub) := sh.uses o
  let rec1 (u : Use) (x : Src) : List Name :=
    match u, x.name with
    | .src _ _, .latch k => if (Run.fill run k).isSome then [] else (latchRecs q lanes k).flatMap fun r => (r.map fun r => capturedBy r.name r.pair).getD []
    | _, _ => []
  rec1 ua o.a ++ rec1 ub o.b ++ rec1 sh.c o.c

/-- R39, R41: whether an instruction names a register that a fill of the run captured in such a way that a result would depend on where
the run ends: the run ends before it then, as R39 lets it; it ends before a post, whose engine writes registers later. Log 12, DEDUCED. -/
def clashes (q : Squad) (run : Run) (lanes : LaneMask) (sh : Shape) (sForm : Bool) (o : Ops) : Bool :=
  let named := namesUsed sh o ++ namesRecorded q (some run) lanes sh o
  let (ua, ub) := sh.uses o
  let last (u : Use) (x : Src) : List Name := if nameIsLatch x.name then [] else releasedBy q (some run) lanes u x
  let changed := namesWritten sh o ++ last ua o.a ++ last ub o.b ++ last sh.c o.c
  let refills (k : Nat) : Bool := !sForm && o.d != .none && latchOf o.d == k
  (List.range 4).any fun k =>
    match run.fills.getD k none with
    | none => false
    | some fl =>
      let regs := capturedBy fl.name fl.pair
      sh.post || (fl.pending && named.any regs.contains) || (!refills k && changed.any regs.contains)

/-- R189: whether a register awaits the reply of an outstanding operation. -/
def Squad.awaits (q : Squad) (n : Name) : Bool := q.ops.any fun o => !o.done && o.replies.contains n

/-- R24: the names an instruction's last-read bits release. -/
def releases (e : Env) : List Name :=
  let (ua, ub) := e.sh.uses e.cx.o
  releasedBy e.q e.run e.cx.lanes ua e.cx.o.a ++ releasedBy e.q e.run e.cx.lanes ub e.cx.o.b
    ++ releasedBy e.q e.run e.cx.lanes e.sh.c e.cx.o.c

/-- R101: an instruction that writes or releases a busy landing register; one whose guard is false writes nothing (R30). Log 30, DEDUCED. -/
def hitsLanding (e : Env) : Bool :=
  (e.active != 0#32 && match e.sh.d with
   | .reg _ => e.q.landingBusy e.cx.o.d
   | .unused => false) || (releases e).any e.q.landingBusy

/-- The instruction that is issuing, and its squad. -/
def issuingCx (s : State) (sForm : Bool) (o : Ops) : Option (Cx × Squad) :=
  match s.issuing with
  | none => none
  | some i =>
    match s.squad? i.squad with
    | none => none
    | some q =>
      let len := if sForm then 4 else if o.lit.isSome then 12 else 8
      some ({ key := i.squad, lanes := i.lanes, pc := i.pc, len := len, words := i.words, sForm := sForm, o := o }, q)

/-- R39: a slot that issues from another bundle than its run's ends the run; so does an instruction that clashes with it. -/
def beginIssue (sh : Shape) (s : State) (cx : Cx) (q : Squad) : State :=
  match mapGet (s.core (s.coreOf q)).runs q.issueSlot with
  | some r =>
    if r.squad = cx.key ∧ r.lanes = cx.lanes ∧ clashes q r cx.lanes sh cx.sForm cx.o = false then s
    else endRun s (s.coreOf q) q.issueSlot
  | none => s

/-- R116, R24: what an instruction's own part leaves is retired: releases unless a live lane faulted, the result, the program
counters, and the faulting lanes' event. Log 15, DEDUCED. Log 30, DEDUCED. Log 39, DEDUCED. -/
def finish (e : Env) (fills jumped : Bool) (f : Effect) : Out :=
  let live := f.faults.filter fun (L, _) => (e.q.lane L).kind == .live
  if e.q.glide.isSome && !live.isEmpty then stall e.s e.cx .glide
  else
    let s := if live.isEmpty then releaseNames f.s e.cx (releases e) else f.s
    let bad := maskOf fun i => live.any fun (L, _) => L == i
    let s := writeDest s e.cx fills bad f.result
    let s := if jumped then s else advance s e.cx (e.cx.lanes &&& ~~~bad)
    let s := match firstFault live with
      | some (L, lf) => raise s e.cx.key (faultEvent e.cx bad L lf)
      | none => s
    retire s e.cx e.sh.cost

/-- R166, R309: an instruction with a varying destination runs on the vector pipe (log 16, DEDUCED); a post's is its engine's to write. -/
def usesVector (sh : Shape) (o : Ops) : Bool := sh.dCls o == .varying && !sh.post

/-- Whether a bundle's lanes wait. -/
def isWaiting (s : State) (cx : Cx) : Bool :=
  match s.squad? cx.key with
  | some q => (q.lane (lowLane cx.lanes)).wait != .none
  | none => false

/-- R315: an instruction that issued is charged. Log 16, DEDUCED. -/
def charged (cx : Cx) (ctx n : Nat) : Out → Out
  | .next s => .next (if n = 0 || isWaiting s cx then s else s.charge ctx n)
  | r => r

/-- What an instruction's own part comes to. -/
def conclude (e : Env) (sForm : Bool) : Eff → Out
  | .done f => finish e (!sForm && !e.sh.post) false f
  | .jumped f => finish e (!sForm && !e.sh.post) true f
  | .wait s w => stall s e.cx w
  | .trap f => trapAll e.s e.cx e.q e.sh.cost f
  | .trapWith s f => trapAll (if e.q.glide.isSome then e.s else s) e.cx e.q e.sh.cost f
  | .whole s => retire s e.cx e.sh.cost

/-- What else an instruction is judged by before the uniformity rule: a system-register number, a level (R285, R292). -/
abbrev Extra := Env → Option LaneFault

/-- R30, R39, R40: what an instruction issues with: the run its slot stands in once another bundle's has ended, its operands as read,
the lanes that execute. -/
def envAt (sh : Shape) (s : State) (cx : Cx) (q0 : Squad) : Env :=
  let s := beginIssue sh s cx q0
  let q := (s.squad? cx.key).getD q0
  let run := currentRun s cx.key q cx.lanes
  { s := s, cx := cx, q := q, run := run, sh := sh, x := readOpnds s q q.files run cx sh, active := activeLanes s q q.files cx }

/-- The environment of the instruction that is issuing. -/
def issuingEnv (sh : Shape) (sForm : Bool) (o : Ops) (s : State) : Option Env :=
  (issuingCx s sForm o).map fun (cx, q0) => envAt sh s cx q0

/-- R309: the window of the vector pipe, for an instruction that runs on it. Log 16, DEDUCED. -/
def vectorOpen (e : Env) : Bool × State := if usesVector e.sh e.cx.o then vectorWindow e.s e.q else (true, e.s)

/-- R170: the lanes that an instruction under the uniformity rule lacks. -/
def Env.missing (e : Env) : LaneMask := requiredLanes e.q e.cx.lanes &&& ~~~e.cx.lanes

/-- R315: the vector-pipe cycles that an instruction is charged. Log 16, DEDUCED. -/
def Env.charge (e : Env) : Nat := if usesVector e.sh e.cx.o then chargeFor e.s e.q e.cx.lanes e.sh.cost else 0

/-- How an instruction's own part ends, once every check has passed. -/
def takeEffect (sForm : Bool) (eff : Env → Eff) (e : Env) : Out :=
  match eff e with
  | .wait s w => stall s e.cx w
  | r => charged e.cx (e.s.ctxOf e.q) e.charge (conclude e sForm r)

/-- The registers that an instruction depends on (R189): those it names, and those it reads through latch records. -/
def Env.depends (e : Env) : List Name := namesUsed e.sh e.cx.o ++ namesRecorded e.q e.run e.cx.lanes e.sh e.cx.o

/-- R101, R141, R170, R189: why an instruction without a defect does not take effect. -/
inductive Hindrance where
  | trap (f : LaneFault)
  | stall (w : WaitKind)
  deriving DecidableEq, Repr

/-- R45, R46, R101, R141, R170, R189: the first failed check. Log 30, DEDUCED. -/
def hindrance (extra : Extra) (e : Env) : Option Hindrance :=
  match e.sh.defect (latchSupply e.q e.run e.cx.lanes) e.cx.sForm e.cx.o with
  | some sub => some (.trap (fault causeIllegal sub 0#64))
  | none =>
    match extra e with
    | some f => some (.trap f)
    | none =>
      if levelLt (e.q.levelOf e.cx.lanes) e.sh.level then some (.trap (fault causePrivilege 0x0000#16 0#64))
      else if needsFull e.sh e.cx.o && e.missing != 0#32 then some (.trap (fault causeUniform 0x0000#16 (e.missing.zeroExtend 64)))
      else if e.q.glide.isSome && e.sh.stalls then some (.stall .glide)
      else if e.depends.any e.q.awaits then some (.stall .post)
      else if hitsLanding e then some (.trap (fault causeLanding 0x0000#16 0#64))
      else none

/-- R171, R173: what an instruction needs of the files. A varying D that it may not write in every lane keeps its other lanes. -/
def Env.needs (e : Env) : Needs :=
  let whole := e.cx.o.guard.reg == .none && (List.range 32).all fun i => e.cx.lanes.getLsbD i || (e.q.lane i).kind == .absent
  let (ua, ub) := e.sh.uses e.cx.o
  let grp (u : Use) (n : Name) : List Name :=
    match u with
    | .src regs _ => (List.range regs).map fun i => nameAfter i n
    | _ => []
  { reads := grp ua e.cx.o.a.name ++ grp ub e.cx.o.b.name ++ grp e.sh.c e.cx.o.c.name ++ [e.cx.o.guard.reg]
      ++ namesRecorded e.q e.run e.cx.lanes e.sh e.cx.o,
    writes := if e.sh.post then [] else namesWritten e.sh e.cx.o,
    keeps := e.sh.readsD || (e.sh.dCls e.cx.o == .varying && !whole) }

/-- The same instruction over a later state: its operands and its guard are read there. -/
def Env.over (e : Env) (s : State) (q : Squad) : Env :=
  { e with s := s, q := q, x := readOpnds s q q.files e.run e.cx e.sh, active := activeLanes s q q.files e.cx }

/-- How an instruction comes to have its registers at hand. -/
inductive Naming where
  | ready (e : Env)
  | wait (s : State) (w : WaitKind)
  | dead (s : State)

/-- R173: an instruction with its registers at hand. -/
def Env.name (e : Env) : Naming :=
  match nameRegs e.s e.cx.key e.q e.needs with
  | .wait s w => .wait s w
  | .dead s => .dead s
  | .ready s =>
    match s.squad? e.cx.key with
    | some q => .ready (e.over s q)
    | none => .dead s

/-- What a hindrance comes to, over the state before the instruction. -/
def hinder (e : Env) : Hindrance → Out
  | .trap f => trapAll e.s e.cx e.q e.sh.cost f
  | .stall w => stall e.s e.cx w

/-- R45, R46, R101, R141, R170, R173, R189: the whole issue of an instruction: the first failed check decides; its registers are brought to
hand, and the checks are made on what these hold; then its own part. Log 30, DEDUCED. -/
def issueWith (sh : Shape) (sForm : Bool) (extra : Extra) (eff : Env → Eff) (o : Ops) (s : State) : Out :=
  match issuingEnv sh sForm o s with
  | none => .refused .noBundle
  | some e =>
    match hindrance extra e with
    | some h => hinder e h
    | none =>
      match e.name with
      | .wait s w => stall s e.cx w
      | .dead s => retire (endGrid s e.q.grid) e.cx sh.cost
      | .ready e =>
        match hindrance extra e with
        | some h => hinder e h
        | none =>
          if !(vectorOpen e).1 then stall (vectorOpen e).2 e.cx .post
          else takeEffect sForm eff { e with s := (vectorOpen e).2 }

def noExtra : Extra := fun _ => none

/-- The issue of an instruction without further checks. -/
def issue (sh : Shape) (sForm : Bool) (eff : Env → Eff) (o : Ops) (s : State) : Out := issueWith sh sForm noExtra eff o s

/-- An effect on registers alone. -/
def Env.result (e : Env) (r : Result) : Eff := .done { s := e.s, result := r, faults := [] }

/-- The lanes that execute, ascending. -/
def Env.lanes (e : Env) : List Nat := lanesOf e.active

/-- R14, R176: the executing lanes that are not helper lanes. -/
def Env.contributing (e : Env) : LaneMask := e.active &&& ~~~e.q.helpers

/-- R167: the class of the destination. -/
def Env.dCls (e : Env) : Cls := e.sh.dCls e.cx.o

/-- Whether any lane executes; of a uniform result, whether it is computed (R30). -/
def Env.runs (e : Env) : Bool := e.active != 0#32

end Sys2Proof.Machine
end

