-- ==== Sys2Proof/Machine/Alu.lean ====
section
/-!
DEFINITION. The instructions that act lane by lane on registers, or once on a uniform one (R167–R169, R177, R190–R192), and the
loads: one description of each (`Sem`) that a bundle performs and that a tree performs for one lane (R207).
-/
namespace Sys2Proof.Machine

/-- An integer function at width w of the lane, the C field's bits, a, b, c and the old D. -/
abbrev IntFn := (w : Nat) → Nat → Nat → BitVec w → BitVec w → BitVec w → BitVec w → BitVec w
/-- A floating function of the rounding mode, the C field's bits, a, b, c and the old D. -/
abbrev FloatFn := Rm → Nat → Nat → Nat → Nat → Nat → FRes

/-- What an instruction computes for a lane. -/
inductive Sem where
  | nop
  | int (f : IntFn)
  /-- R180: a 64-bit result into a pair; `pairs` where a and b are read as pairs. -/
  | wide (pairs : Bool) (f : Word64 → Word64 → Word64)
  /-- `signed` where a uniform D takes the result sign-extended (R199). -/
  | float (signed : Bool) (f : FloatFn)
  | load (sp : Space) (n : Nat) (cls : AccessClass)
  | spill

/-- R53: FCTL.RM and the enables in FFLAGS bit order. -/
def Squad.rm (q : Squad) : Rm := rmOf q.fctl.toNat
def Squad.enables (q : Squad) : Flags := BitVec.ofNat 5 (q.fctl.toNat / 16)

/-- R54: ORs flags into FFLAGS. -/
def State.orFlags (s : State) (key : Nat) (fl : Flags) : State :=
  if fl = 0#5 then s else s.modSquad key fun q => { q with fflags := q.fflags ||| fl.zeroExtend 64 }

/-- R192: the fault of a lane that raises an enabled flag, with the value it would have written. -/
def floatFault (q : Squad) (r : FRes) : Option LaneFault :=
  if r.flags &&& q.enables = 0#5 then none
  else some (fault causeFloat ((r.flags &&& q.enables).zeroExtend 16) (BitVec.ofNat 64 (r.bits % 2 ^ 32)))

/-! ### One lane -/

/-- What one lane gets: its values for D, D+1, …, a fault, the flags it raised, and the state after its access. -/
structure LaneOut where
  s : State
  regs : List Word32
  flags : Flags
  fault : Option LaneFault

/-- R125: whether `ldk` and `stk` may touch 8 bytes at an offset at a level. -/
def spillOpen (level : Level) (x : Nat) : Bool :=
  let hits (a b : Nat) : Bool := x < b && a < x + 8
  !(hits 0x1000 0x6000 || (level == .user && hits 0x0F80 0x1000))

/-- R126: the check of an 8-byte spill-stack offset. -/
def spillCheck (q : Squad) (level : Level) (x : Nat) : Option LaneFault :=
  if q.spSize.toNat < x + 8 ∨ !spillOpen level x then some (fault causeAccess 0x0001#16 (BitVec.ofNat 64 x))
  else if x % 4 ≠ 0 then some (fault causeMisaligned 0x0001#16 (BitVec.ofNat 64 x))
  else none

/-- Words of a byte string, as many as the size needs; fewer than four bytes make one, zero-extended (R120). -/
def loadedWords (n : Nat) (bs : List Byte) : List Word32 :=
  (List.range ((n + 3) / 4)).map fun i => BitVec.ofNat 32 (leNat ((bs.drop (4 * i)).take 4))

/-- How a spill-stack access of a lane ends where it cannot be made now. -/
inductive SpillStop where
  | wait (s : State)
  | dead (s : State)

/-- R126, R128: one lane's `ldk`. A helper lane whose access can never be made reads zero (R14). -/
def spillLane (s : State) (key L : Nat) (x : Nat) : Except SpillStop LaneOut :=
  match s.squad? key with
  | none => .ok { s := s, regs := [0#32, 0#32], flags := 0#5, fault := none }
  | some q =>
    match spillCheck q (q.lane L).level x with
    | some f => .ok { s := s, regs := [0#32, 0#32], flags := 0#5, fault := some f }
    | none =>
      match spillRead s key q x 8 with
      | .wait s => .error (.wait s)
      | .dead s' =>
        if (q.lane L).kind == .helper then .ok { s := s, regs := [0#32, 0#32], flags := 0#5, fault := none } else .error (.dead s')
      | .done bs s => .ok { s := s, regs := loadedWords 8 bs, flags := 0#5, fault := none }

/-- One lane's part of an instruction, its operands read, with the old values of D and D+1. -/
def semLane (sem : Sem) (s : State) (q : Squad) (key : Nat) (o : Ops) (x : Opnds) (d0 : Word32) (L : Nat) :
    Except SpillStop LaneOut :=
  let none' : LaneOut := { s := s, regs := [], flags := 0#5, fault := none }
  match sem with
  | .nop => .ok none'
  | .int f => .ok { none' with regs := [f 32 L o.c.bits (x.a.at32 L) (x.b.at32 L) (x.c.at32 L) d0] }
  | .wide pairs f =>
    let rd (y : Opnd) : Word64 := if pairs then y.pairAt L else (y.at32 L).signExtend 64
    let v := f (rd x.a) (rd x.b)
    .ok { none' with regs := [v.truncate 32, (v >>> 32).truncate 32] }
  | .float _ f =>
    let r := f q.rm o.c.bits (x.a.at32 L).toNat (x.b.at32 L).toNat (x.c.at32 L).toNat d0.toNat
    let fl := if (q.lane L).kind == .helper then 0#5 else r.flags
    .ok { none' with regs := [BitVec.ofNat 32 r.bits], flags := fl, fault := if (q.lane L).kind == .helper then none else floatFault q r }
  | .load sp n cls =>
    let at_ := (addressAt x.a x.b L).toNat
    match loadWin s key L sp at_ n n cls with
    | (.ok bs, s) => .ok { none' with s := s, regs := loadedWords n bs }
    | (.error f, s) => .ok { none' with s := s, regs := List.replicate ((n + 3) / 4) 0#32, fault := some f }
  | .spill => spillLane s key L (addressAt x.a x.b L).toNat

/-- How many registers an instruction writes. -/
def Sem.regs : Sem → Nat
  | .nop => 0
  | .int _ | .float _ _ => 1
  | .wide _ _ | .spill => 2
  | .load _ n _ => (n + 3) / 4

/-! ### A bundle -/

/-- What a bundle's lanes got so far. -/
structure Lanes where
  s : State
  vals : Map (List Word32)
  faults : List (Nat × LaneFault)
  flags : Flags

/-- The lanes in ascending order (R119); the state threads through their accesses. -/
def semLanes (sem : Sem) (e : Env) (old : List Word32) (acc : Lanes) : List Nat → Except SpillStop Lanes
  | [] => .ok acc
  | L :: ls =>
    match semLane sem acc.s e.q e.cx.key e.cx.o e.x (old.getD L 0#32) L with
    | .error st => .error st
    | .ok r =>
      semLanes sem e old
        { s := r.s, vals := mapSet acc.vals L r.regs, flags := acc.flags ||| r.flags,
          faults := match r.fault with
            | some f => acc.faults ++ [(L, f)]
            | none => acc.faults } ls

/-- R14, R115: an affine operand's span counts over the lanes that are not helper lanes; where it is too far, all lanes fault. -/
def addrSpans (e : Env) : Bool := spanOk e.x.a e.contributing && spanOk e.x.b e.contributing

/-- R115: lanes whose affine address operand spans too far all fault. -/
def spanFaults (sem : Sem) (e : Env) : Bool :=
  match sem with
  | .load _ _ _ | .spill => !addrSpans e
  | _ => false

def allFault (e : Env) (f : LaneFault) : List (Nat × LaneFault) := e.lanes.map fun L => (L, f)

/-- R14, R38, R115, R123: every lane that executes faults; helper lanes read zero, and the others keep D. -/
def spanTrap (e : Env) (regs : Nat) : Eff :=
  .done { s := e.s, faults := allFault e (fault causeAffineSpan 0x0000#16 0#64),
          result := if e.dCls == .varying then .varying (e.active &&& e.q.helpers) (List.replicate regs zeros) else .none }

/-- The lanes of a mask that did not fault; a helper lane's fault is suppressed (R14). -/
def goodLanes (e : Env) (faults : List (Nat × LaneFault)) : LaneMask :=
  maskOf fun L => e.active.getLsbD L && ((e.q.lane L).kind == .helper || faults.all fun (K, _) => K != L)

/-- The old lane values of a varying destination. -/
def Env.oldD (e : Env) : List Word32 :=
  match e.cx.o.d with
  | .v n => e.q.files.readV n.val
  | _ => zeros

def Env.oldU (e : Env) : Word64 :=
  match e.cx.o.d with
  | .s n => e.q.files.readS n.val
  | _ => 0#64

/-- R173, R128: an access that cannot be made now, or never. -/
def stopped (e : Env) : SpillStop → Eff
  | .wait s => .wait s .page
  | .dead s => .whole (endGrid s e.q.grid)

/-- R168, R177, R191, R192: a varying destination, or none. -/
def semVarying (sem : Sem) (e : Env) : Eff :=
  if spanFaults sem e then spanTrap e sem.regs
  else match semLanes sem e e.oldD { s := e.s, vals := [], faults := [], flags := 0#5 } e.lanes with
    | .error st => stopped e st
    | .ok r =>
      let regs := (List.range sem.regs).map fun i => perLane fun L => ((mapGet r.vals L).getD []).getD i 0#32
      .done
        { s := r.s.orFlags e.cx.key r.flags, faults := r.faults,
          result := if e.dCls == .varying then .varying (goodLanes e r.faults) regs else .none }

/-- The 64-bit value of loaded words. -/
def wordsVal (ws : List Word32) : Word64 := BitVec.ofNat 64 ((ws.getD 0 0#32).toNat + 2 ^ 32 * (ws.getD 1 0#32).toNat)

/-- R120, R167, R190: a uniform destination: computed once. -/
def semUniform (sem : Sem) (e : Env) : Eff :=
  if !e.runs then e.result (.kept false)
  else match sem with
    | .nop | .wide _ _ => e.result .none
    | .int f => e.result (.uniform (f 64 0 e.cx.o.c.bits e.x.a.uniVal e.x.b.uniVal e.x.c.uniVal e.oldU))
    | .float signed f =>
      let old := e.oldU
      let r := f e.q.rm e.cx.o.c.bits (e.x.a.at32 0).toNat (e.x.b.at32 0).toNat (e.x.c.at32 0).toNat (old.toNat)
      let s := e.s.orFlags e.cx.key r.flags
      match floatFault e.q r with
      | some f => .trapWith s f
      | none =>
        .done { s := s, faults := [],
                result := .uniform (if signed then (BitVec.ofNat 32 r.bits).signExtend 64 else BitVec.ofNat 64 r.bits) }
    | .load _ _ _ | .spill =>
      match semLanes sem e zeros { s := e.s, vals := [], faults := [], flags := 0#5 } e.lanes with
      | .error st => stopped e st
      | .ok r =>
        let live := r.faults.filter fun (L, _) => (e.q.lane L).kind == .live
        let v := ((mapGet r.vals (lowLane (goodLanes e r.faults))).getD [])
        .done { s := r.s, faults := r.faults, result := if live.isEmpty then .uniform (wordsVal v) else .none }

/-- R166, R167: the destination's class chooses the datapath. -/
def semEff (sem : Sem) (e : Env) : Eff :=
  match e.dCls with
  | .uniform => semUniform sem e
  | _ => semVarying sem e

/-! ### Affine results (R169) -/

/-- A base and an exact stride. -/
abbrev AffFn := Opnd → Opnd → Word64 × Int

def Opnd.strideInt (x : Opnd) : Int := if x.cls == .affine then x.stride.toInt else 0

/-- R169: a stride out of range traps with the exact stride modulo 2^64. -/
def affEff (f : AffFn) (e : Env) : Eff :=
  if !e.runs then e.result (.kept false)
  else
    let (b, st) := f e.x.a e.x.b
    if st < -(2 ^ 31) ∨ 2 ^ 31 ≤ st then .trap (fault causeAffineOverflow 0x0001#16 (BitVec.ofInt 64 st))
    else e.result (.affine b (BitVec.ofInt 32 st))

/-- R167: an instruction with affine forms. -/
def semOrAff (sem : Sem) (f : AffFn) (e : Env) : Eff := if e.dCls == .affine then affEff f e else semEff sem e

end Sys2Proof.Machine
end

