-- ==== Sys2Proof/Machine/Access.lean ====
section
/-!
DEFINITION. Loads, stores, ordering accesses, atomics, the spill stack's `ldk` and `stk` (R115–R128).
-/
namespace Sys2Proof.Machine

/-! ### Shapes (R121, R124, R126) -/

def wordsIn (n : Nat) : Nat := (n + 3) / 4

/-- R121: any class into a varying D; into a uniform D, uniform address operands and at most 8 bytes. -/
def ruleLoad (n : Nat) (d a b _c : Cls) : Bool :=
  match d with
  | .varying | .absent => true
  | .uniform => n ≤ 8 && a.isUni && b.isUni
  | .affine => false

/-- R121: varying data, or uniform data of at most 8 bytes. -/
def ruleStore (n : Nat) (_d _a _b c : Cls) : Bool := c == .varying || (c == .uniform && n ≤ 8)

/-- R124. -/
def ruleAtom (d _a _b c : Cls) : Bool := (d == .varying || d == .absent) && (c == .varying || c == .uniform)

def shLoad (n : Nat) (stalls : Bool) : Shape :=
  { shAB (ruleLoad n) with d := .reg (wordsIn n), stalls := stalls }
def shStore (n : Nat) (stalls : Bool) : Shape :=
  { Shape.base with a := src1, b := src1, c := .src (wordsIn n) true, rule := ruleStore n, stalls := stalls }
def shAtom (cas : Bool) : Shape :=
  { shAB ruleAtom with c := if cas then .src 2 false else src1, stalls := true }

/-! ### Stored data -/

/-- The bytes lane L stores: the low `n` bytes of C, C+1, … (R120). -/
def dataBytes (e : Env) (n L : Nat) : List Byte :=
  match e.x.c.cls with
  | .varying =>
    let word (i : Nat) : Word32 :=
      if i = 0 then e.x.c.lo.getD L 0#32 else if i = 1 then e.x.c.hi.getD L 0#32
      else (readName e.s e.q e.q.files (nameAfter i e.cx.o.c.name)).at32 L
    ((List.range (wordsIn n)).flatMap fun i => leBytes 4 (word i).toNat).take n
  | _ => leBytes n (e.x.c.at64 L).toNat

/-- R123: the new value of a `cas`, from the register after C. -/
def casNew (e : Env) (L : Nat) : Word32 :=
  match e.x.c.cls with
  | .varying => e.x.c.hi.getD L 0#32
  | _ => (readName e.s e.q e.q.files (nameAfter 1 e.cx.o.c.name)).at32 L

/-! ### Accesses by a bundle, lane by lane (R119) -/

def addrOf (e : Env) (L : Nat) : Nat := (addressAt e.x.a e.x.b L).toNat

/-- What the lanes so far have done. -/
structure Acc where
  s : State
  faults : List (Nat × LaneFault)
  vals : Map Word32

def Acc.fault (a : Acc) (L : Nat) : Option LaneFault → Acc
  | some f => { a with faults := a.faults ++ [(L, f)] }
  | none => a

/-- One lane's store into a window. -/
def storeLane (e : Env) (sp : Space) (n : Nat) (cls : AccessClass) (a : Acc) (L : Nat) : Acc :=
  let (f, s) := storeWin a.s e.cx.key L sp (addrOf e L) n (dataBytes e n L) cls
  Acc.fault { a with s := s } L f

/-- R140: the sectors a gliding squad's store would hold. -/
def glideFits (e : Env) (n : Nat) : Bool :=
  match e.q.glide with
  | none => true
  | some gl =>
    let xs := (lanesOf e.contributing).filter fun L => addrOf e L + n ≤ winSize e.s e.q .shared
    ((xs.flatMap fun L => sectorsOf (addrOf e L) n).foldl addOnce gl.sectors).length ≤ Config.glideEntries

/-- R120, R122: a store of `n` bytes. -/
def storeEff (sp : Space) (n : Nat) (cls : AccessClass) (e : Env) : Eff :=
  if !addrSpans e then spanTrap e 0
  else if sp == .shared && !glideFits e n then .wait e.s .glide
  else
    let r := e.lanes.foldl (storeLane e sp n cls) { s := e.s, faults := [], vals := [] }
    .done { s := r.s, result := .none, faults := r.faults }

/-- One lane's atomic. -/
def atomLane (e : Env) (sp : Space) (op : AtomOp) (a : Acc) (L : Nat) : Acc :=
  match atomWin a.s e.cx.key L sp op (addrOf e L) (e.x.c.at32 L) (casNew e L) with
  | (.ok old, s) => { a with s := s, vals := mapSet a.vals L old }
  | (.error f, s) => Acc.fault { a with s := s } L (some f)

/-- R222: an `atomp` in an idempotent region sets TAINT. -/
def taint (s : State) (key : Nat) : State :=
  s.modSquad key fun q => { q with region := q.region.map fun r => { r with taint := true } }

/-- R123. -/
def atomEff (sp : Space) (op : AtomOp) (e : Env) : Eff :=
  if !addrSpans e then spanTrap e 1
  else
    let r := e.lanes.foldl (atomLane e sp op) { s := e.s, faults := [], vals := [] }
    let s := if sp == .scratch && e.runs then taint r.s e.cx.key else r.s
    let vals := perLane fun L => (mapGet r.vals L).getD 0#32
    .done { s := s, faults := r.faults, result := if e.dCls == .varying then .varying (goodLanes e r.faults) [vals] else .none }

/-! ### The spill stack (R126) -/

/-- R126: a uniform D takes uniform address operands; C is a pair or uniform. -/
def shLdk : Shape := { shLoad 8 false with d := .reg 2 }
def shStk : Shape := shStore 8 true

/-- R128: whether every lane's access can be made, before any is. -/
def spillReady (e : Env) (s : State) : List Nat → SpillOut Unit
  | [] => .done () s
  | L :: ls =>
    match spillCheck e.q (e.q.lane L).level (addrOf e L) with
    | some _ => spillReady e s ls
    | none =>
      match spillProbe s e.cx.key e.q (addrOf e L) 8 with
      | .done _ s => spillReady e s ls
      | .dead s' => if (e.q.lane L).kind == .helper then spillReady e s ls else .dead s'
      | .wait s => .wait s

/-- R126, R128: an instruction of the spill stack, once every lane's access can be made. -/
def spillEff (lanes : Env → List Nat) (go : Env → Eff) (e : Env) : Eff :=
  if !addrSpans e then spanTrap e 2
  else match spillReady e e.s (lanes e) with
    | .wait s => .wait s .page
    | .dead s => .whole (endGrid s e.q.grid)
    | .done _ s => go { e with s := s }

/-- One lane's `stk`. -/
def stkLane (e : Env) (a : Acc) (L : Nat) : Acc :=
  match spillCheck e.q (e.q.lane L).level (addrOf e L) with
  | some f => Acc.fault a L (some f)
  | none =>
    match spillWrite a.s e.cx.key e.q (addrOf e L) (dataBytes e 8 L) with
    | .done _ s | .wait s | .dead s => { a with s := s }

def stkEff (e : Env) : Eff :=
  let r := (lanesOf e.contributing).foldl (stkLane e) { s := e.s, faults := [], vals := [] }
  .done { s := r.s, result := .none, faults := r.faults }

/-- R126. -/
def execLdk (o : Ops) (s : State) : Out := issue shLdk false (spillEff Env.lanes (semEff .spill)) o s

/-- R126: a helper lane's store is discarded (R14). -/
def execStk (o : Ops) (s : State) : Out := issue shStk false (spillEff (fun e => lanesOf e.contributing) stkEff) o s

/-! ### Sized loads and stores (R120) -/

/-- R120. -/
def execLdsB (o : Ops) (s : State) : Out := issue (shLoad 1 false) false (semEff (.load .shared 1 .plain)) o s
/-- R26, R120: the byte offset is the immediate. -/
def execLdsBS (d a : Name) (imm : Byte) (s : State) : Out :=
  issue (shLoad 1 false) true (semEff (.load .shared 1 .plain)) (sImm d a (imm.zeroExtend 32)) s
/-- R120. -/
def execLdsH (o : Ops) (s : State) : Out := issue (shLoad 2 false) false (semEff (.load .shared 2 .plain)) o s
/-- R120. -/
def execLdsW (o : Ops) (s : State) : Out := issue (shLoad 4 false) false (semEff (.load .shared 4 .plain)) o s
/-- R26: the byte offset is four times the immediate. -/
def scaled (imm : Byte) : Word32 := imm.zeroExtend 32 * 4#32
/-- R26, R120. -/
def execLdsWS (d a : Name) (imm : Byte) (s : State) : Out :=
  issue (shLoad 4 false) true (semEff (.load .shared 4 .plain)) (sImm d a (scaled imm)) s
/-- R120. -/
def execLdsD (o : Ops) (s : State) : Out := issue (shLoad 8 false) false (semEff (.load .shared 8 .plain)) o s
/-- R120. -/
def execLdsQ (o : Ops) (s : State) : Out := issue (shLoad 16 false) false (semEff (.load .shared 16 .plain)) o s
/-- R120. -/
def execStsB (o : Ops) (s : State) : Out := issue (shStore 1 false) false (storeEff .shared 1 .plain) o s
/-- R120. -/
def execStsH (o : Ops) (s : State) : Out := issue (shStore 2 false) false (storeEff .shared 2 .plain) o s
/-- R120. -/
def execStsW (o : Ops) (s : State) : Out := issue (shStore 4 false) false (storeEff .shared 4 .plain) o s
/-- R26, R120: D is the data. -/
def execStsWS (a : Name) (imm : Byte) (c : Name) (s : State) : Out :=
  issue (shStore 4 false) true (storeEff .shared 4 .plain) (sStore a (scaled imm) c) s
/-- R120. -/
def execStsD (o : Ops) (s : State) : Out := issue (shStore 8 false) false (storeEff .shared 8 .plain) o s
/-- R120. -/
def execStsQ (o : Ops) (s : State) : Out := issue (shStore 16 false) false (storeEff .shared 16 .plain) o s
/-- R120, R141. -/
def execLdpW (o : Ops) (s : State) : Out := issue (shLoad 4 true) false (semEff (.load .scratch 4 .plain)) o s
/-- R26, R120, R141. -/
def execLdpWS (d a : Name) (imm : Byte) (s : State) : Out :=
  issue (shLoad 4 true) true (semEff (.load .scratch 4 .plain)) (sImm d a (scaled imm)) s
/-- R120, R141. -/
def execLdpD (o : Ops) (s : State) : Out := issue (shLoad 8 true) false (semEff (.load .scratch 8 .plain)) o s
/-- R120, R141. -/
def execLdpQ (o : Ops) (s : State) : Out := issue (shLoad 16 true) false (semEff (.load .scratch 16 .plain)) o s
/-- R120, R141. -/
def execStpW (o : Ops) (s : State) : Out := issue (shStore 4 true) false (storeEff .scratch 4 .plain) o s
/-- R120, R141. -/
def execStpD (o : Ops) (s : State) : Out := issue (shStore 8 true) false (storeEff .scratch 8 .plain) o s
/-- R120, R141. -/
def execStpQ (o : Ops) (s : State) : Out := issue (shStore 16 true) false (storeEff .scratch 16 .plain) o s

/-! ### Ordering accesses (R122) -/

/-- R122. -/
def execLdsAcq (o : Ops) (s : State) : Out := issue (shLoad 4 true) false (semEff (.load .shared 4 .sync)) o s
/-- R122. -/
def execStsRel (o : Ops) (s : State) : Out := issue (shStore 4 true) false (storeEff .shared 4 .sync) o s
/-- R122. -/
def execLdpAcq (o : Ops) (s : State) : Out := issue (shLoad 4 true) false (semEff (.load .scratch 4 .sync)) o s
/-- R122. -/
def execStpRel (o : Ops) (s : State) : Out := issue (shStore 4 true) false (storeEff .scratch 4 .sync) o s

/-! ### Atomics (R123) -/

/-- R123. -/
def execAtomsAdd (o : Ops) (s : State) : Out := issue (shAtom false) false (atomEff .shared .add) o s
/-- R123. -/
def execAtomsMin (o : Ops) (s : State) : Out := issue (shAtom false) false (atomEff .shared .min) o s
/-- R123. -/
def execAtomsMax (o : Ops) (s : State) : Out := issue (shAtom false) false (atomEff .shared .max) o s
/-- R123. -/
def execAtomsMinU (o : Ops) (s : State) : Out := issue (shAtom false) false (atomEff .shared .minU) o s
/-- R123. -/
def execAtomsMaxU (o : Ops) (s : State) : Out := issue (shAtom false) false (atomEff .shared .maxU) o s
/-- R123. -/
def execAtomsAnd (o : Ops) (s : State) : Out := issue (shAtom false) false (atomEff .shared .and) o s
/-- R123. -/
def execAtomsOr (o : Ops) (s : State) : Out := issue (shAtom false) false (atomEff .shared .or) o s
/-- R123. -/
def execAtomsXor (o : Ops) (s : State) : Out := issue (shAtom false) false (atomEff .shared .xor) o s
/-- R123. -/
def execAtomsExch (o : Ops) (s : State) : Out := issue (shAtom false) false (atomEff .shared .exch) o s
/-- R123. -/
def execAtomsCas (o : Ops) (s : State) : Out := issue (shAtom true) false (atomEff .shared .cas) o s
/-- R123. -/
def execAtompAdd (o : Ops) (s : State) : Out := issue (shAtom false) false (atomEff .scratch .add) o s
/-- R123. -/
def execAtompMin (o : Ops) (s : State) : Out := issue (shAtom false) false (atomEff .scratch .min) o s
/-- R123. -/
def execAtompMax (o : Ops) (s : State) : Out := issue (shAtom false) false (atomEff .scratch .max) o s
/-- R123. -/
def execAtompMinU (o : Ops) (s : State) : Out := issue (shAtom false) false (atomEff .scratch .minU) o s
/-- R123. -/
def execAtompMaxU (o : Ops) (s : State) : Out := issue (shAtom false) false (atomEff .scratch .maxU) o s
/-- R123. -/
def execAtompAnd (o : Ops) (s : State) : Out := issue (shAtom false) false (atomEff .scratch .and) o s
/-- R123. -/
def execAtompOr (o : Ops) (s : State) : Out := issue (shAtom false) false (atomEff .scratch .or) o s
/-- R123. -/
def execAtompXor (o : Ops) (s : State) : Out := issue (shAtom false) false (atomEff .scratch .xor) o s
/-- R123. -/
def execAtompExch (o : Ops) (s : State) : Out := issue (shAtom false) false (atomEff .scratch .exch) o s
/-- R123. -/
def execAtompCas (o : Ops) (s : State) : Out := issue (shAtom true) false (atomEff .scratch .cas) o s

end Sys2Proof.Machine
end

