-- ==== Sys2Proof/Machine/Engine.lean ====
section
/-!
DEFINITION. How engine operations access the windows and report (R97, R142, R161): reads and writes under their poster, races met as the
second access, arrivals of sync-word bytes (R102).
-/
namespace Sys2Proof.Machine

/-- R161: an operation's accesses: its posting squad, its number, the piece of it that accesses, its kind of R153, and what its post
released. -/
structure EngOp where
  key : Nat
  id : Nat
  piece : Nat
  kind : Nat
  epoch : Nat
  clock : Clock
  deriving DecidableEq, Repr

def EngOp.agent (s : State) (o : EngOp) (cls : AccessClass) : Agent :=
  opAgent s o.key o.kind (opTok o.id o.piece) o.epoch o.clock cls

/-- R161: a race that an operation's access completes is held for its poster's covering wait. -/
def holdRace (s : State) (o : EngOp) (sp : Space) (found : Option (Race × Nat)) : State :=
  match found with
  | none => s
  | some (r, w) =>
    let rep : RaceReport :=
      { sub := raceSub r (sp == .scratch) true, word := BitVec.ofNat 64 w, other := s.raceOther (gridOfGroup (groupOfSquad o.key)) r.other }
    let hold (x : OutOp) : OutOp := if x.id = o.id ∧ x.race.isNone then { x with race := some rep } else x
    s.modSquad o.key fun q => { q with ops := q.ops.map hold }

/-- The words that bytes at some offsets touch, each once. -/
def wordsAt (offs : List Nat) : List Nat := offs.foldl (fun ws x => if ws.contains (x / 4 * 4) then ws else ws ++ [x / 4 * 4]) []
def sectorsAt (offs : List Nat) : List Nat := offs.foldl (fun ws x => addOnce ws (x / 32 * 32)) []

/-- R155, R161: an operation's read of bytes of a window. -/
def engineRead (s : State) (o : EngOp) (sp : Space) (offs : List Nat) : List Byte × State :=
  let q := s.squadOr o.key
  let ws := wordsAt offs
  let me := o.agent s .plain
  let s := holdRace s o sp (firstRace s q sp me false ws)
  let s := ws.foldl (fun s w => s.modTag q sp w (tagRead · me.acc)) s
  (offs.map (memRead (winMem s q sp)), s)

/-- R142: how an engine's write to a group's window strikes glides: `who b` tells whether its writer counts as not arrived. -/
def engineHits (s : State) (gk : Nat) (sp : Space) (who : Nat → Bool) (offs : List Nat) : State :=
  if sp == .shared then hitGlides s gk none who (sectorsAt offs) else s

/-- R155, R161: an operation's write of bytes of a window. -/
def engineStore (s : State) (o : EngOp) (sp : Space) (who : Nat → Bool) (bs : List (Nat × Byte)) : State :=
  let q := s.squadOr o.key
  let ws := wordsAt (bs.map (·.1))
  let me := o.agent s .plain
  let s := holdRace s o sp (firstRace s q sp me true ws)
  let s := s.modWin q sp fun m => bs.foldl (fun m (a, b) => memWrite m a b) m
  let s := ws.foldl (fun s w => s.modTag q sp w (tagWrite · me.acc)) s
  engineHits s q.groupKey sp who (bs.map (·.1))

/-- R161: an operation's atomic update of a sync word, a synchronising access. -/
def engineSync (s : State) (o : EngOp) (off : Nat) : State :=
  let q := s.squadOr o.key
  let me := o.agent s .sync
  let s := holdRace s o .scratch (firstRace s q .scratch me true (wordsOf off 16))
  (wordsOf off 16).foldl (fun s w => s.modTag q .scratch w fun t => tagWrite (tagRead t me.acc) me.acc) s

/-- R97: whether an operation is still outstanding for its squad. -/
def State.opOpen (s : State) (key id : Nat) : Bool := ((s.squad? key).map fun q => q.ops.any fun o => o.id == id && !o.done).getD false

/-- R92, R97: a post that counts in a class: the operation joins the squad's. -/
def pushOp (s : State) (key : Nat) (o : OutOp) : State := s.modSquad key fun q => { q with ops := q.ops ++ [o] }

def OutOp.new (id cls : Nat) : OutOp :=
  { id := id, cls := cls, done := false, counted := false, fault := none, race := none, landing := none, sync := none, gens := [],
    arrived := none, replies := [], clock := Clock.zero, got := Clock.zero }

/-- R96: whether a class counter is at its limit. -/
def Squad.opsFull (q : Squad) (cls : Nat) : Bool := Config.counterMax ≤ q.counter cls

end Sys2Proof.Machine
end

