-- ==== Sys2Proof/Machine/Sync.lean ====
section
/-!
DEFINITION. Fences (R129, R349), barrier instructions (R134–R137), glides' start (R139), sync words (R102–R104) and the waits that
cover engine operations (R98–R100, R161).
-/
namespace Sys2Proof.Machine

/-! ### Shapes -/

/-- R129: the scope code stands in C. -/
def shFence : Shape := { shNum (fun n => n ≤ 6) with stalls := true }

/-- R134, R135: the barrier number stands in C. -/
def shBar (uni : Bool) : Shape := { shNum (fun n => n < 16) with stalls := true, uniGuard := uni }

/-- R134: B is uniform. -/
def shBarInit : Shape := { shBar true with b := src1, rule := fun _ _ b _ => b == .uniform }

def shSpanSync : Shape := { shNone with stalls := true }

/-- R103, R104: uniform A, B and D; D may be absent. -/
def ruleUni (d a b c : Cls) : Bool := (d == .uniform || d == .absent) && a.uniOrAbsent && b.uniOrAbsent && c.uniOrAbsent
def shSyncWord : Shape := { shAB ruleUni with stalls := true, uniGuard := true }

/-- R99: the class code stands in C. -/
def shWaitc : Shape :=
  { shNum (fun n => n ≤ 4) with b := src1, rule := fun _ _ b _ => b == .uniform, stalls := true, uniGuard := true }

/-- R100: A is s0–s63. -/
def shWaitl (o : Ops) : Shape :=
  { Shape.base with
    a := src1, stalls := true, uniGuard := true,
    rule := fun _ _ _ _ =>
      match o.a.name with
      | .s _ => true
      | _ => false }

/-- An effect on the state alone. -/
def Env.after (_e : Env) (s : State) : Eff := .done { s := s, result := .none, faults := [] }
/-- As `after`, with the program counters already set. -/
def Env.moved (_e : Env) (s : State) : Eff := .jumped { s := s, result := .none, faults := [] }

/-! ### fence (R129, R349) -/

/-- R19: the device's scope. -/
def scopeDevice : Nat := 4

/-- R162, R349: the fence acquires what the loads before it read of fence-published writes that its scope reaches, then publishes the
squad's clock for the stores its lanes issue next. -/
def fenceAt (s : State) (key scope : Nat) (lanes : LaneMask) : State :=
  match s.squad? key with
  | none => s
  | some q =>
    let got := (q.fenceSeen.filter fun (need, _) => need ≤ scope).foldl (fun c (_, d) => c.join d) q.clock
    let s := s.setSquad key { q with clock := got, fenceSeen := q.fenceSeen.filter fun (need, _) => scope < need }
    let (c, s) := release s key scope
    -- R162: the squad's landed copies to main memory are released at device scope or wider
    let waited (x : OutCopy) : Bool := x.squad == key && q.ops.all fun o => o.id != x.op
    let s := if scopeDevice ≤ scope then
        { s with outcopies := s.outcopies.map fun x => if waited x then { x with clock := some ((x.clock.getD Clock.zero).join c) } else x }
      else s
    s.modSquad key fun q =>
      { q.onLanes lanes (fun l => { l with fence := some scope }) with
        published := (lanesOf lanes).foldl (fun m L => mapSet m L c) q.published }

/-- R129. -/
def execFence (o : Ops) (s : State) : Out :=
  issue shFence false
    (fun e => e.after (if e.contributing = 0#32 then e.s else fenceAt e.s e.cx.key o.c.bits e.contributing)) o s

/-! ### Barriers (R134–R136) -/

/-- R136. -/
def barMisuse (sub : BitVec 16) (n : Nat) : LaneFault := fault causeBarrier sub (BitVec.ofNat 64 n)

def Env.group (e : Env) : Nat := e.q.groupKey

/-- The barriers of the group. -/
def Env.bars (e : Env) : List Barrier := ((e.s.group? e.group).map (·.barriers)).getD []

/-- R136: whether any squad of the group has lanes arrived at a barrier. -/
def anyArrived (s : State) (gk n : Nat) : Bool :=
  (s.squadsOf gk).any fun k => ((s.squad? k).map fun q => (q.bar n).larr != 0#32).getD false

/-- R134. Log 42, DEDUCED. -/
def barInitEff (n : Nat) (e : Env) : Eff :=
  if e.contributing = 0#32 then e.after e.s
  else match e.bars[n]? with
    | none => .trap (barMisuse 0x0001#16 n)
    | some b =>
      let count := e.x.b.w.toNat
      if count = 0 ∨ 4096 ≤ count then .trap (barMisuse 0x0002#16 n)
      else if b.arrived ≠ 0 ∨ b.epend ≠ 0 ∨ anyArrived e.s e.group n then .trap (barMisuse 0x0003#16 n)
      else e.after (e.s.modGroup e.group fun g => g.modBar n fun x => { x with count := count })

/-- R135, R136: the checks of an arrival. Log 42, DEDUCED. -/
def arriveFault (n : Nat) (e : Env) : Option LaneFault :=
  if e.bars.length ≤ n then some (barMisuse 0x0001#16 n)
  else if e.contributing &&& (e.q.bar n).larr ≠ 0#32 ∨ (e.q.bar n).pend then some (barMisuse 0x0004#16 n)
  else none

/-- R135: the lanes' bits in LARR. -/
def setArrived (s : State) (key n : Nat) (m : LaneMask) : State :=
  s.modSquad key fun q => q.modBar n fun b => { b with larr := b.larr ||| m }

/-- R135: `bar.arv`. -/
def barArvEff (n : Nat) (e : Env) : Eff :=
  if e.contributing = 0#32 then e.after e.s
  else match arriveFault n e with
    | some f => .trap f
    | none => e.after (squadArrives (setArrived e.s e.cx.key n e.contributing) e.cx.key n)

/-- R15, R290: lanes are held at the instruction and leave their bundle. -/
def holdLanes (s : State) (cx : Cx) (m : LaneMask) (h : HoldAt) : State :=
  s.modSquad cx.key fun q => (q.onLanes m fun l => { l with hold := h, barWords := cx.words.take (cx.len / 4) }).leaveBundles m

/-- R135: `bar.sync`, its checks made: the lanes stand after the instruction, held, and arrive. -/
def barSyncGo (n : Nat) (e : Env) : Eff :=
  let s := advance e.s e.cx e.cx.lanes
  let s := holdLanes s e.cx e.contributing (.barrier n)
  e.moved (squadArrives (setArrived s e.cx.key n e.contributing) e.cx.key n)

def barSyncEff (n : Nat) (e : Env) : Eff :=
  if e.contributing = 0#32 then e.after e.s
  else match arriveFault n e with
    | some f => .trap f
    | none => barSyncGo n e

/-- R161: an operation that arrived at a barrier in a phase that has completed and holds a race report. -/
def reportPast (q : Squad) (n phase : Nat) : Option OutOp :=
  q.ops.find? fun o => o.race.isSome && match o.arrived with
    | some (b, p) => b == n && p != phase
    | none => false

/-- R133, R135, R161: lanes that return from barrier n at once: the acquire, ARMED := 0, and any report due. -/
def barReturn (s : State) (n : Nat) (e : Env) : State :=
  let s := advance s e.cx e.cx.lanes
  match s.group? e.group with
  | none => s
  | some g =>
    let s := barReturns s e.cx.key n
    match (s.squad? e.cx.key).bind fun q => reportPast q n (g.bar n).phase with
    | some o =>
      reportRace s e.cx.key e.contributing e.cx.pc (e.cx.pc + BitVec.ofNat 64 e.cx.len) (e.cx.words.take (e.cx.len / 4)) o
    | none => s

/-- R135: `bar.wait`. -/
def barWaitEff (n : Nat) (e : Env) : Eff :=
  if e.contributing = 0#32 then e.after e.s
  else if e.bars.length ≤ n then .trap (barMisuse 0x0001#16 n)
  else if !(e.q.bar n).armed then .trap (barMisuse 0x0005#16 n)
  else if (e.q.bar n).pend then e.moved (holdLanes (advance e.s e.cx e.cx.lanes) e.cx e.contributing (.barrier n))
  else e.moved (barReturn e.s n e)

/-- R139: the checkpoint, at the instruction after `bar.glide`; latch values still unwritten count as written in it. -/
def startGlide (s : State) (n : Nat) (e : Env) : State :=
  let run := currentRun s e.cx.key e.q e.cx.lanes
  s.modSquad e.cx.key fun q =>
    let files := match run with
      | some r => r.fills.foldl (fun f fl => flushFill f r.lanes fl) q.files
      | none => q.files
    let gl : Glide :=
      { barrier := n, files := files, latchRecs := q.lanes.map (·.latchRec), fflags := q.fflags,
        pc := e.cx.pc + BitVec.ofNat 64 e.cx.len, buffer := [], sectors := [], reads := [], liveReads := [], writers := [], renamed := [] }
    { (q.onLanes e.cx.lanes fun l => { l with barWords := e.cx.words.take (e.cx.len / 4) }).modBar n fun b => { b with armed := false } with glide := some gl, glides := (q.glides + 1) % 2 ^ 16 }

/-- R139: `bar.glide`. -/
def barGlideEff (n : Nat) (e : Env) : Eff :=
  if e.contributing = 0#32 then e.after e.s
  else match arriveFault n e with
    | some f => .trap f
    | none =>
      if !maskLe e.q.live e.cx.lanes || !e.q.glideEn then barSyncGo n e
      else
        let s := squadArrives (setArrived e.s e.cx.key n e.contributing) e.cx.key n
        if ((s.squad? e.cx.key).map fun q => (q.bar n).pend).getD false then e.after (startGlide s n e) else e.moved (barReturn s n e)

/-- R134. -/
def execBarInit (o : Ops) (s : State) : Out := issue shBarInit false (barInitEff o.c.bits) o s
/-- R135. -/
def execBarArv (o : Ops) (s : State) : Out := issue (shBar false) false (barArvEff o.c.bits) o s
/-- R135. -/
def execBarWait (o : Ops) (s : State) : Out := issue (shBar false) false (barWaitEff o.c.bits) o s
/-- R135. -/
def execBarSync (o : Ops) (s : State) : Out := issue (shBar false) false (barSyncEff o.c.bits) o s
/-- R139. -/
def execBarGlide (o : Ops) (s : State) : Out := issue (shBar true) false (barGlideEff o.c.bits) o s

/-- R137: the lanes arrive, a release at span scope, and are held. -/
def spanSyncEff (e : Env) : Eff :=
  if e.contributing = 0#32 then e.after e.s
  else
    let span := e.s.spanOf e.q
    let s := holdLanes (advance e.s e.cx e.cx.lanes) e.cx e.contributing .spanBarrier
    let (c, s) := release s e.cx.key scopeSpan
    let s := s.modSpan span fun p => { p with joining := p.joining.join c }
    e.moved (trySpan s span)

/-- R137. -/
def execSpanSync (o : Ops) (s : State) : Out := issue shSpanSync false spanSyncEff o s

/-! ### Sync words (R102) -/

/-- R102: a sync word's four fields. -/
structure SyncWord where
  target : Nat
  count : Nat
  gen : Nat
  flags : Nat
  deriving DecidableEq, Repr

def readSync (m : Memory) (off : Nat) : SyncWord :=
  { target := memNat m off 4, count := memNat m (off + 4) 4, gen := memNat m (off + 8) 4, flags := memNat m (off + 12) 4 }

def writeSync (m : Memory) (off : Nat) (w : SyncWord) : Memory :=
  memWriteN m off (leBytes 4 w.target ++ leBytes 4 w.count ++ leBytes 4 w.gen ++ leBytes 4 w.flags)

/-- Sets a flag bit. -/
def withFlag (flags bit : Nat) : Nat := if flags / 2 ^ bit % 2 = 1 then flags else flags + 2 ^ bit

/-- R102: the arrival of m bytes and the crossing test; whether it crossed. -/
def SyncWord.arrive (w : SyncWord) (m : Nat) : SyncWord × Bool :=
  let c := (w.count + m) % 2 ^ 32
  if w.target ≠ 0 ∧ w.target ≤ c then
    ({ w with gen := (w.gen + 1) % 2 ^ 32, count := 0, flags := if w.target < c then withFlag w.flags 0 else w.flags }, true)
  else ({ w with count := c }, false)

/-- R150: at a crossing, what the generation's contributors released stands in the word's record. Log 43, DEDUCED. -/
def syncCross (s : State) (span off : Nat) : State :=
  match s.span? span with
  | none => s
  | some p =>
    let c := (mapGet p.arriving off).getD Clock.zero
    let s := s.modSpan span fun p => { p with arriving := mapErase p.arriving off }
    releaseTo s (.die p.die) (objSyncWord span off) c

/-- Writes a sync word of a span, with what a crossing releases. -/
def putSync (s : State) (span off : Nat) (w : SyncWord × Bool) : State :=
  let s := s.modSpan span fun p => { p with mem := writeSync p.mem off w.1 }
  if w.2 then syncCross s span off else s

/-- R103, R104: the checks of a sync word's offset. -/
def syncFault (size off : Nat) : Option LaneFault := checkAddr size off 16 16

/-- R146, R153: the race that an instruction's access to a sync word, a synchronising one, meets; the tags it leaves. Log 43, DEDUCED. -/
def syncAccess (s : State) (e : Env) (off : Nat) (writes : Bool) : Option LaneFault × State :=
  let me := squadAgent s e.cx.key e.q .sync
  match firstRace s e.q .scratch me writes (wordsOf off 16) with
  | some (r, w) => (some (raceFault s e.q.grid .scratch w r), s)
  | none =>
    let note (s : State) (w : Nat) : State :=
      s.modTag e.q .scratch w fun t =>
        let t := tagRead t me.acc
        if writes then tagWrite t me.acc else t
    (none, (wordsOf off 16).foldl note s)

/-- R103: `sw.arm`. Log 43, DEDUCED. -/
def swArmEff (e : Env) : Eff :=
  if e.contributing = 0#32 then e.result (.kept false)
  else
    let span := e.s.spanOf e.q
    let off := e.x.a.w.toNat
    match syncFault (winSize e.s e.q .scratch) off with
    | some f => .trap f
    | none =>
      match syncAccess e.s e off true with
      | (some f, s) => .trapWith s f
      | (none, s) =>
        let w := readSync (winMem s e.q .scratch) off
        let armed : SyncWord := { w with flags := w.flags / 4 * 4, target := e.x.b.w.toNat % 2 ^ 32 }
        .done { s := putSync s span off (armed.arrive 0), result := .uniform (BitVec.ofNat 64 w.gen), faults := [] }

/-- R103. -/
def execSwArm (o : Ops) (s : State) : Out := issue shSyncWord false swArmEff o s

/-! ### Covering waits (R98, R161) -/

/-- The oldest covered operation that holds a report: a race before a fault where it holds both. Log 44, DEDUCED. -/
def heldOp (ops : List OutOp) : Option OutOp := ops.find? fun o => o.race.isSome || o.fault.isSome

/-- A held report as the fault the wait raises. -/
def heldFault (o : OutOp) : LaneFault :=
  match o.race, o.fault with
  | some r, _ => { cause := causeRace, sub := r.sub, addr := r.word, other := r.other }
  | none, some f => fault causeCopy f.sub f.addr
  | none, none => fault causeCopy 0#16 0#64

/-- A report is consumed alone. -/
def consume (id : Nat) (o : OutOp) : OutOp :=
  if o.id = id then (if o.race.isSome then { o with race := none } else { o with fault := none }) else o

/-- R98: an acquire of every byte that the covered operations have landed, and what a fence may then acquire of what they read (R162);
those that nothing counts any more are forgotten. -/
def coverDone (s : State) (key : Nat) (covers : OutOp → Bool) : State :=
  s.modSquad key fun q =>
    { q with
      clock := (q.ops.filter covers).foldl (fun c o => (c.join o.clock).addOp (opWhole o.id)) q.clock,
      fenceSeen := ((q.ops.filter fun o => covers o && o.got != Clock.zero).map fun o => (scopeDevice, o.got)) ++ q.fenceSeen,
      ops := q.ops.filter fun o => !(covers o && o.counted) }

/-- R98: a wait that returns: its report, or its acquire and then `ret`. Log 44, DEDUCED. -/
def coverWith (e : Env) (s : State) (covers : OutOp → Bool) (ret : State → Eff) : Eff :=
  match heldOp (e.q.ops.filter covers) with
  | some o => .trapWith (s.modSquad e.cx.key fun q => { q with ops := q.ops.map (consume o.id) }) (heldFault o)
  | none => ret (coverDone s e.cx.key covers)

/-- R99: `waitc`. -/
def waitcEff (cls : Nat) (e : Env) : Eff :=
  if !e.runs then e.after e.s
  else if e.x.b.w.toNat < e.q.counter cls then .wait e.s (.counter cls)
  else if e.contributing = 0#32 then e.after e.s
  else coverWith e e.s (fun o => o.cls == cls && o.counted) e.after

/-- R99. -/
def execWaitc (o : Ops) (s : State) : Out := issue shWaitc false (waitcEff o.c.bits) o s

def sIndex : Name → Nat
  | .s k => k.val
  | _ => 0

/-- R100: `waitl`. -/
def waitlEff (k : Nat) (e : Env) : Eff :=
  if !e.runs then e.after e.s
  else if e.x.a.w ≠ 0#64 ∧ e.q.ops.any (fun o => !o.done && o.landing == some k) then .wait e.s .landing
  else if e.contributing = 0#32 then e.after e.s
  else coverWith e e.s (fun o => o.landing == some k && o.done) e.after

/-- R100. -/
def execWaitl (o : Ops) (s : State) : Out := issue (shWaitl o) false (waitlEff (sIndex o.a.name)) o s

/-- R104: the copies a return covers. -/
def swCovers (off gen b : Nat) (o : OutOp) : Bool :=
  o.sync == some off && o.done &&
    (o.fault.isSome ||
      (gen != b && o.gens.all fun k => (k.toNat + 2 ^ 32 - b) % 2 ^ 32 < (gen + 2 ^ 32 - b) % 2 ^ 32))

/-- R104: `sw.wait`. Log 43, DEDUCED. -/
def swWaitEff (e : Env) : Eff :=
  if !e.runs then e.result (.kept false)
  else
    let off := e.x.a.w.toNat
    let b := e.x.b.w.toNat % 2 ^ 32
    match syncFault (winSize e.s e.q .scratch) off with
    | some f => .trap f
    | none =>
      let w := readSync (winMem e.s e.q .scratch) off
      if w.gen = b ∧ w.flags / 2 % 2 = 0 then .wait e.s .syncWord
      else if e.contributing = 0#32 then e.result .none
      else match syncAccess e.s e off false with
        | (some f, s) => .trapWith s f
        | (none, s) =>
          coverWith e s (swCovers off w.gen b) fun s =>
            let s := if w.gen ≠ b then acquireObj s e.cx.key (wordTable s e.q .scratch) (objSyncWord (s.spanOf e.q) off) else s
            .done { s := s, result := .uniform (BitVec.ofNat 64 (w.gen + w.flags % 16 * 2 ^ 32)), faults := [] }

/-- R104. -/
def execSwWait (o : Ops) (s : State) : Out := issue shSyncWord false swWaitEff o s

end Sys2Proof.Machine
end

