-- ==== Sys2Proof/Machine/SysMem.lean ====
section
/-!
DEFINITION. How far contexts access memory for the squads that advanced them (R105, R161).
-/
namespace Sys2Proof.Machine

/-- R161: the operation under which a reach accesses a span's window; none for a poster outside the span (log 18, DEDUCED). -/
def Reach.engOp (s : State) (r : Reach) (span : Nat) : Option EngOp :=
  match r.poster, r.by_ with
  | some a, some id =>
    if s.spanOf (s.squadOr a.squad) = span ∧ gridOfGroup (groupOfSquad a.squad) = gridOfGroup span then
      some { key := a.squad, id := a.op, piece := id % 2 ^ 47, kind := 5, epoch := a.epoch, clock := a.clock }
    else none
  | _, _ => none

def offsets (x n : Nat) : List Nat := (List.range n).map (x + ·)

/-- R105: reads a range named by a far address. Log 18, DEDUCED. -/
def farRead (s : State) (r : Reach) (die : Nat) (a : Word64) (n : Nat) : MemOut (List Byte) :=
  match isScratch a, scratchAt s r.ctx die (scratchOff a) n with
  | true, some (k, x) =>
    match r.engOp s k with
    | some o => let (bs, s) := engineRead s o .scratch (offsets x n); .done bs s
    | none => plainRead s r die a n
  | _, _ => plainRead s r die a n

/-- R105: writes a range named by a far address. Log 18, DEDUCED. -/
def farWrite (s : State) (r : Reach) (die : Nat) (a : Word64) (bs : List Byte) : MemOut Unit :=
  match isScratch a, scratchAt s r.ctx die (scratchOff a) bs.length with
  | true, some (k, x) =>
    match r.engOp s k with
    | some o => .done () (engineStore s o .scratch (fun _ => false) ((offsets x bs.length).zip bs))
    | none => plainWrite s r die a bs
  | _, _ => plainWrite s r die a bs

end Sys2Proof.Machine
end

