-- ==== Sys2Proof/Machine/Control.lean ====
section
/-!
DEFINITION. The control instructions (R206, R212–R224) and `eret` (R291, R292).
-/
namespace Sys2Proof.Machine

/-! ### Shapes (R212) -/

def target (a : Cls) : Bool := a == .uniform || a == .varying

def shBra : Shape := { Shape.base with b := src1, k := .required }
def shBrx : Shape := { Shape.base with a := src1, rule := fun _ a _ _ => target a }
def shCall : Shape := { shBra with d := .reg 1, rule := fun d _ _ _ => d != .affine }
def shCalx : Shape := { shBrx with d := .reg 1, rule := fun d a _ _ => d != .affine && target a }
def shMeet : Shape := { Shape.base with a := src1, b := src1, rule := fun _ a b _ => a == .uniform && b == .uniform, stalls := true }
def shCode : Shape := { shNum (fun n => n < 256) with stalls := true }
/-- Squad state, under the uniformity rule. -/
def shSquad : Shape := { Shape.base with uniGuard := true, stalls := true, full := true }

/-! ### Targets (R206) -/

/-- R206: from a literal word offset. -/
def relTarget (p : Word64) (k : Word64) : Word64 := p + 4#64 * k

/-- R206: from a register, for a lane. -/
def regTarget (p : Word64) (x : Opnd) (L : Nat) : Word64 :=
  match x.cls with
  | .varying => (p >>> 32).truncate 32 ++ x.at32 L
  | _ => x.at64 L

/-- R21, R206: a target that cannot be taken. -/
def targetFault (t : Word64) : Option LaneFault :=
  if 2 ^ 48 ≤ t.toNat then some (fault causeAccess 0x0003#16 t)
  else if t.toNat % 4 ≠ 0 then some (fault causeMisaligned 0x0002#16 t)
  else none

/-- The faults of the executing lanes' targets. -/
def targetFaults (e : Env) (t : Nat → Word64) : List (Nat × LaneFault) :=
  e.lanes.filterMap fun L => (targetFault (t L)).map fun f => (L, f)

/-- R213: executing lanes go to their targets; the others, and helper lanes whose fault is suppressed, to the next instruction. Lanes that
go to two or more addresses form no bundle until the next regroup tick. -/
def goTo (e : Env) (t : Nat → Word64) : State :=
  let s := advance e.s e.cx e.cx.lanes
  let ok := maskOf fun L => e.active.getLsbD L && (targetFault (t L)).isNone
  let bad := maskOf fun L => e.active.getLsbD L && (targetFault (t L)).isSome && (e.q.lane L).kind == .live
  let split (q : Squad) : Squad :=
    let on := e.cx.lanes &&& ~~~bad
    if (lanesOf on).all fun L => (q.lane L).pc == (q.lane (lowLane on)).pc then q else q.leaveBundles on
  s.modSquad e.cx.key fun q => split (q.onLanesI ok fun L l => { l with pc := t L })

/-- R214: the link value, in D's class. -/
def linkTo (e : Env) : Result :=
  let v := e.cx.pc + BitVec.ofNat 64 e.cx.len
  match e.dCls with
  | .varying => .varying e.active [perLane fun _ => v.truncate 32]
  | .uniform => if e.runs then .uniform v else .kept false
  | _ => .none

/-- R213, R214: a transfer; a link is written even where the target faults. -/
def transfer (t : Env → Nat → Word64) (link : Bool) (e : Env) : Eff :=
  .jumped { s := goTo e (t e), result := if link then linkTo e else .none, faults := targetFaults e (t e) }

def byLiteral (e : Env) (_L : Nat) : Word64 := relTarget e.cx.pc e.x.b.w
def byA (e : Env) (L : Nat) : Word64 := regTarget e.cx.pc e.x.a L

/-- R213. -/
def execBra (o : Ops) (s : State) : Out := issue shBra false (transfer byLiteral false) o s
/-- R213. -/
def execBrx (o : Ops) (s : State) : Out := issue shBrx false (transfer byA false) o s
/-- R214. -/
def execCall (o : Ops) (s : State) : Out := issue shCall false (transfer byLiteral true) o s
/-- R214. -/
def execCalx (o : Ops) (s : State) : Out := issue shCalx false (transfer byA true) o s
/-- R214. -/
def execRet (o : Ops) (s : State) : Out := issue shBrx false (transfer byA false) o s

/-! ### exit (R215) -/

/-- Whether a squad has work outstanding. -/
def Squad.busy (q : Squad) : Bool := q.ops.any fun o => !o.done || !o.counted

/-- R14, R215: helper lanes that execute `exit` issue nothing more. -/
def endHelpers (s : State) (key : Nat) (m : LaneMask) : State :=
  s.modSquad key fun q => (q.onLanes (m &&& q.helpers) fun l => { l with kind := .exited }).leaveBundles (m &&& q.helpers)

/-- R215: lanes of a squad exit; the last live ones wait for outstanding work and report what a covering wait would. Log 46, DEDUCED. -/
def exitEff (m : LaneMask) (e : Env) : Eff :=
  let last := e.q.live &&& ~~~m == 0#32
  if last && e.q.busy then .wait e.s .post
  else match (if last then heldOp e.q.ops else none) with
    | some o => .trapWith (e.s.modSquad e.cx.key fun q => { q with ops := q.ops.map (consume o.id) }) (heldFault o)
    | none =>
      let s := advance e.s e.cx (e.cx.lanes &&& ~~~e.active)
      e.moved (tryTrigger (exitLanes (endHelpers s e.cx.key e.active) e.cx.key m) e.q.grid)

/-- R215. Log 46, DEDUCED. -/
def execExit (o : Ops) (s : State) : Out :=
  issue { shNone with stalls := true } false
    (fun e =>
      if e.contributing = 0#32 then e.moved (endHelpers (advance e.s e.cx (e.cx.lanes &&& ~~~e.active)) e.cx.key e.active)
      else exitEff e.contributing e) o s

/-! ### meet, yield (R216, R220) -/

def meetTarget (e : Env) : Word64 := if e.cx.o.lit.isSome then relTarget e.cx.pc e.x.b.w else e.x.b.w

/-- R216: helper lanes take no meeting state. Log 47, DEDUCED. -/
def meetEff (e : Env) : Eff :=
  let t := meetTarget e
  if (targetFault t).isSome then .done { s := e.s, result := .none, faults := targetFaults e fun _ => t }
  else e.after (e.s.modSquad e.cx.key fun q =>
    q.onLanes e.contributing fun l => { l with meetAt := some t, meetMask := e.x.a.w.truncate 32 })

/-- R216. -/
def execMeet (o : Ops) (s : State) : Out := issue shMeet false meetEff o s

/-- R220. -/
def execYield (o : Ops) (s : State) : Out :=
  issue shNone false
    (fun e => e.after (e.s.modSquad e.cx.key fun q => q.onLanes e.active fun l => { l with yieldUntil := some (e.s.cycle + Config.yieldCycles + 1) })) o s

/-! ### trap, svc, brk (R221) -/

/-- R221: the executing live lanes raise an event at the instruction; the others continue. -/
def raiseEff (cause sub : BitVec 16) (toStvec : Bool) (e : Env) : Eff :=
  let m := e.contributing
  let s := advance e.s e.cx (e.cx.lanes &&& ~~~m)
  let ev := faultEvent e.cx m (lowLane m) (fault cause sub 0#64)
  e.moved (if m = 0#32 then s else raise s e.cx.key { ev with toStvec := toStvec })

/-- R221. -/
def execTrap (o : Ops) (s : State) : Out := issue shCode false (raiseEff causeSoft (BitVec.ofNat 16 o.c.bits) false) o s
/-- R221. -/
def execSvc (o : Ops) (s : State) : Out := issue shCode false (raiseEff causeSoft (BitVec.ofNat 16 (0x100 + o.c.bits)) true) o s
/-- R221, R302. -/
def execBrk (o : Ops) (s : State) : Out := issue shCode false (raiseEff causeBreak (BitVec.ofNat 16 o.c.bits) false) o s

/-! ### eret (R291, R292) -/

/-- R291: whether lanes run the STVEC handler. -/
def inStvec (h : Handler) : Bool := h == .stvec || h == .stvecOverTvec

/-- R291, R292. -/
def eretEff (e : Env) : Eff :=
  let h := (e.q.lane (lowLane e.cx.lanes)).handler
  if h = .none then .trap (fault causePrivilege 0x0001#16 0#64)
  else if e.missing ≠ 0#32 then .trap (fault causeUniform 0x0000#16 (e.missing.zeroExtend 64))
  else if !e.runs then e.after e.s
  else match spillRead e.s e.cx.key e.q ((if inStvec h then supervisorFrame else userFrame) + 28) 8 with
    | .wait s => .wait s .page
    | .dead s => .whole (endGrid s e.q.grid)
    | .done bs s => e.moved (returnTo s e.cx.key e.cx.lanes (inStvec h) (BitVec.ofNat 64 (leNat bs)))

/-- R291, R292. -/
def execEret (o : Ops) (s : State) : Out := issue { shNone with uniGuard := true, stalls := true } false eretEff o s

/-! ### Regions and triggers (R222, R224) -/

/-- R222. Log 47, DEDUCED. -/
def execIdemBegin (o : Ops) (s : State) : Out :=
  issue shSquad false
    (fun e => if !e.runs then e.after e.s else e.after (e.s.modSquad e.cx.key fun q =>
      let r : Region := { taint := false, entry := e.cx.pc + 8#64, lanes := q.live, fctl := q.fctl, fflags := q.fflags, glideEn := q.glideEn }
      { q with region := some r })) o s

/-- R222. -/
def execIdemEnd (o : Ops) (s : State) : Out :=
  issue shSquad false
    (fun e => if !e.runs then e.after e.s else e.after (e.s.modSquad e.cx.key fun q => { q with region := none })) o s

/-- R224. -/
def execTrig (o : Ops) (s : State) : Out :=
  issue shSquad false
    (fun e => if !e.runs then e.after e.s
      else e.after (tryTrigger (e.s.modSquad e.cx.key fun q => { q with trig := true }) e.q.grid)) o s

end Sys2Proof.Machine
end

