-- ==== Sys2Proof/Machine/Fetch.lean ====
section
/-!
DEFINITION. How a bundle comes to issue (R15, R277): whether it may, its fetch (R21, R42, R76, R165, R339), the breakpoints it may
meet (R302), the passing of time, and the choice of R278.
-/
namespace Sys2Proof.Machine

/-! ### Fetching -/

/-- How a fetch ends. -/
inductive FetchOut where
  | got (words : List Word32) (s : State)
  /-- R76: a page request stands; the lanes stall. -/
  | wait (s : State)
  /-- R21: the first byte that cannot be fetched. -/
  | bad (va : Nat) (s : State)

/-- R165: whether a squad may still fetch a byte as it was: no `icinv` that covers it has retired since the rewrite of which the squad has
acquired the release. -/
def staleFor (s : State) (q : Squad) (ctx va : Nat) (c : StaleCode) : Bool :=
  !s.icinvs.any fun i =>
    c.by_.isNone && i.ctx == ctx && i.lo ≤ va && va < i.hi && c.born < i.release && (i.release ∈ q.clock.codes || i.release ≤ q.clock.code)

/-- R165: the rewrites whose old code one instruction is fetched with: the newest ones, any number of them. Log 32, DESIGN CHOICE. -/
def oldCode (s : State) (va : Nat) : List Nat :=
  match (s.stale.map (·.op)).foldl (fun acc x => if x ∈ acc then acc else acc ++ [x]) [] with
  | [] => []
  | ops => ops.take ((s.freeWord 165 va).toNat % (ops.length + 1))

/-- R165: the byte a squad fetches, at an address and a physical place: the one in memory, or what stood there before the rewrites in
`undone`. -/
def fetchByte (s : State) (q : Squad) (undone : List Nat) (ctx va keyId pa : Nat) : Byte :=
  let before := s.stale.filter fun c => c.pa == pa && undone.contains c.op && staleFor s q ctx va c
  match before.getLast? with
  | some c => c.old
  | none => s.readPhys keyId pa

/-- R339: the scheduled word of a valid firn entry. -/
def firnWord (s : State) (ctx va : Nat) : Option Word32 :=
  match s.firn.find? fun e => e.ctx == ctx && !e.stale && e.start ≤ va && va < e.start + 4 * e.words.length with
  | some e => e.words[(va - e.start) / 4]?
  | none => none

/-- R21, R76: one word of an instruction. -/
def fetchWord (s : State) (key lane : Nat) (q : Squad) (undone : List Nat) (va : Nat) : FetchOut :=
  let ctx := s.ctxOf q
  if 2 ^ 48 ≤ va then .bad va s
  else if s.waitsFor (.fetch key lane) then .wait s
  else match translate s { cluster := clusterOf (s.coreOf q), use := .fetch } ctx va .fetch with
    | (.error f, s) =>
      if f.outcome = 1 then .wait (s.request va ctx 2 (s.coreOf q) f (.fetch key lane)) else .bad va s
    | (.ok l, s) =>
      if !s.backs (slotOf ctx) l.pa || !s.keyOk (slotOf ctx) l then .bad va s
      else
        let s := if l.watch then s.logAccess ctx logFetch l.pa 4 else s
        let id := (s.key l.key).keyId
        let bytes := (List.range 4).map fun i => fetchByte s q undone ctx (va + i) id (l.pa + i)
        .got [(firnWord s ctx va).getD (BitVec.ofNat 32 (leNat bytes))] s

/-- The words of an instruction from an address, `n` of them. -/
def fetchWords (s : State) (key lane : Nat) (q : Squad) (undone : List Nat) (va : Nat) : Nat → FetchOut
  | 0 => .got [] s
  | n + 1 =>
    match fetchWord s key lane q undone va with
    | .got ws s =>
      match fetchWords s key lane q undone (va + 4) n with
      | .got rest s => .got (ws ++ rest) s
      | r => r
    | r => r

/-- R21: the words of the instruction at an address: as many as its first word tells. -/
def fetchInstr (s : State) (key lane : Nat) (q : Squad) (va : Nat) : FetchOut :=
  let undone := oldCode s va
  match fetchWord s key lane q undone va with
  | .got ws s =>
    match fetchWords s key lane q undone (va + 4) (formLength (ws.headD 0#32).toNat - 1) with
    | .got rest s => .got (ws ++ rest) s
    | r => r
  | r => r

/-! ### Whether a bundle may issue -/

/-- R310: the island of a squad. -/
def islandOf (s : State) (q : Squad) : Nat := 4 * s.coreOf q + q.issueSlot

/-- R15, R277, R302, R312: a bundle of a resident squad whose lanes are neither parked nor held, whose group is not halted and
whose island is not in frost, of a squad whose glide does not stall (R141); its lanes stand at one program counter. -/
def canIssue (s : State) (key : Nat) (lanes : LaneMask) : Bool :=
  match s.squad? key with
  | none => false
  | some q =>
    lanes != 0#32 && q.residency == .resident && !q.ended
      && !(((s.group? q.groupKey).map (·.halted)).getD true)
      && !(s.island (islandOf s q)).frost && !(q.glide.isSome && q.lanes.any (·.wait == .glide))
      && q.bundles.any (fun b => b.lanes == lanes)
      && (lanesOf lanes).all fun i => (q.lane i).issuable && (q.lane i).pc == (q.lane (lowLane lanes)).pc

/-! ### Breakpoints (R302) -/

/-- The breakpoint at an address in a context. -/
def breakAt (s : State) (ctx : Nat) (pc : Word64) : Option Nat :=
  (s.ctx? ctx).bind fun c => (c.breaks.find? fun (_, a) => a == pc).map (·.1)

/-- R144, R302: lanes reach breakpoint k: a Breakpoint event before their instruction issues; a glide rolls back first. -/
def breakLanes (s : State) (key : Nat) (lanes : LaneMask) (k : Nat) : State :=
  match s.squad? key with
  | none => s
  | some q =>
    if q.glide.isSome then rollGlide s key
    else
      let pc := (q.lane (lowLane lanes)).pc
      -- R290: the words of the instruction, where they can be fetched
      let (words, s) := match fetchInstr s key (lowLane lanes) q pc.toNat with
        | .got words s => (words, s)
        | _ => ([], s)
      raise s key { TrapEvent.base with cause := causeBreak, sub := BitVec.ofNat 16 (0x100 + k), lanes := lanes, pc := pc, resume := pc,
                                        lane := lowLane lanes, words := words }

/-! ### One bundle's move -/

/-- R277: the bundle's age restarts when it issues. -/
def Squad.issued (q : Squad) (lanes : LaneMask) (cycle : Nat) : Squad :=
  { q with bundles := q.bundles.map fun b => if b.lanes == lanes then { b with age := 0, last := some cycle } else b }

/-- R277: notes that a bundle issued, unless its instruction leaves its lanes waiting. -/
def noteIssued (key : Nat) (lanes : LaneMask) (o : Out) : Out :=
  match o with
  | .next s =>
    .next (s.modSquad key fun q => if (q.lane (lowLane lanes)).wait == .none then q.issued lanes s.cycle else q)
  | o => o

/-- The fields of no instruction, for a fault found before any is known. -/
def blankOps : Ops :=
  { hold := false, top := false, a := noSrc, b := noSrc, c := noSrc, d := .none, nwb := false, guard := noGuard, lit := none }

/-- R21, R44, R76, R291: fetches, decodes and performs a bundle's next instruction with `run`. Log 31, DEDUCED. -/
def issueMove (run : Instr → State → Out) (s : State) (key : Nat) (lanes : LaneMask) : Out :=
  if !canIssue s key lanes then .refused .badMove
  else match s.squad? key with
    | none => .refused .badMove
    | some q =>
      let pc := (q.lane (lowLane lanes)).pc
      let cx (words : List Word32) : Cx :=
        { key := key, lanes := lanes, pc := pc, len := 4 * max 1 words.length, words := words, sForm := false, o := blankOps }
      match breakAt s (s.ctxOf q) pc with
      | some k => .next (breakLanes s key lanes k)
      | none =>
        if pc.toNat % 4 ≠ 0 then trapAll s (cx []) q 1 (fault causeMisaligned 0x0002#16 pc) else
        match fetchInstr s key (lowLane lanes) q pc.toNat with
        | .wait s => stall s (cx []) .page
        | .bad va s => trapAll s (cx []) q 1 (fault causeAccess 0x0002#16 (BitVec.ofNat 64 va))
        | .got words s =>
          match decodeWords words with
          | .ok (i, _) => noteIssued key lanes (run i { s with issuing := some { squad := key, lanes := lanes, pc := pc, words := words } })
          | .error .reservedBits => trapAll s (cx words) q 1 (fault causeIllegal 0x0002#16 0#64)
          | .error _ => trapAll s (cx words) q 1 (fault causeIllegal 0x0001#16 0#64)

/-! ### Time (R15, R277) -/

/-- Whether a bundle's next instruction would issue now: its move does not leave its lanes waiting. -/
def wouldIssue (run : Instr → State → Out) (s : State) (key : Nat) (lanes : LaneMask) : Bool :=
  match issueMove run s key lanes with
  | .next s' => ((s'.squad? key).map fun q => (q.lane (lowLane lanes)).wait == .none).getD true
  | _ => false

/-- R277: n cycles from one on pass for one squad: ready bundles age by those in which they did not issue. -/
def Squad.pass (q : Squad) (cycle n : Nat) (ready : LaneMask → Bool) : Squad :=
  { q with bundles := q.bundles.map fun b =>
      if ready b.lanes then { b with age := b.age + if b.last = some cycle then n - 1 else n } else b }

/-- R312: the waits that let an island frost. -/
def frostWait (w : WaitKind) : Bool := w == .counter 0 || w == .landing || w == .syncWord || w == .chain

/-- R312: whether a squad only waits, none of its bundles ready. -/
def squadIdle (run : Instr → State → Out) (s : State) (key : Nat) (q : Squad) : Bool :=
  (lanesOf q.live).all (fun i => frostWait (q.lane i).wait) && q.bundles.all fun b => !wouldIssue run s key b.lanes

/-- R312: the islands of the squads that do not only wait are not idle. -/
def noteBusy (run : Instr → State → Out) (s : State) (cycle : Nat) : State :=
  s.squads.foldl (fun t (k, q) =>
    if q.residency == .resident && !q.ended && !squadIdle run s k q then t.modIsland (islandOf s q) fun i => { i with idleSince := cycle } else t) s

/-- R15, R329: time passes; a regroup tick falls at every multiple of 4 cycles. Log 33, DEDUCED. -/
def passTime (run : Instr → State → Out) (s : State) (cycles ns : Nat) : State :=
  let squads := mapAll s.squads fun k q => if q.residency == .resident then q.pass s.cycle cycles (wouldIssue run s k) else q
  let s' := { noteBusy run s (s.cycle + cycles) with squads := squads, cycle := s.cycle + cycles, ns := s.ns + ns }
  if s.cycle / Config.regroupCycles = s'.cycle / Config.regroupCycles then s'
  else (s'.squads.map (·.1)).foldl regroupSquad s'

/-! ### The choice of R278 -/

/-- A bundle that could issue, with what R278 compares. -/
structure Cand where
  squad : Nat
  lanes : LaneMask
  age : Nat
  yielded : Bool
  slot : Nat
  /-- R277: the issue slot of the squad's core. -/
  port : Nat
  deriving DecidableEq, Repr

/-- R278: criteria 1, 2, 4 and 5; HOLD is ignored, as R29 allows. -/
def Cand.before (a b : Cand) : Bool :=
  let oldAge (c : Cand) : Nat := if Config.ageOverride ≤ c.age then c.age else 0
  if oldAge a ≠ oldAge b then oldAge b < oldAge a
  else if a.yielded ≠ b.yielded then b.yielded
  else if a.age ≠ b.age then b.age < a.age
  else if a.slot ≠ b.slot then a.slot < b.slot
  else lowLane a.lanes < lowLane b.lanes

/-- The bundles that could issue now. Log 2, DESIGN CHOICE. -/
def candidates (run : Instr → State → Out) (s : State) : List Cand :=
  s.squads.flatMap fun (k, q) =>
    (q.bundles.filter fun b => wouldIssue run s k b.lanes).map fun b =>
      { squad := k, lanes := b.lanes, age := b.age, slot := q.slot, port := islandOf s q,
        yielded := (lanesOf b.lanes).all fun i => (q.lane i).yieldUntil.any fun t => s.cycle < t }

def bestOf : List Cand → Option Cand
  | [] => none
  | c :: cs =>
    match bestOf cs with
    | some d => if d.before c then some d else some c
    | none => some c

/-- R277, R278: the choice of each free issue slot. Log 2, DESIGN CHOICE. -/
def portChoices (cs : List Cand) : List Cand :=
  (cs.foldl (fun ps c => addOnce ps c.port) []).filterMap fun p => bestOf (cs.filter (·.port == p))

end Sys2Proof.Machine
end

