-- ==== Sys2Proof/Machine/Place.lean ====
section
/-!
DEFINITION. Placement (R274–R276): what a group needs of a core, the windows it gets (R112, R113), and the state its squads start
in. Also the pieces `withFetchWord` builds a context from.
-/
namespace Sys2Proof.Machine

def roundUp (n unit : Nat) : Nat := (n + unit - 1) / unit * unit

/-! ### What a core has (R275) -/

/-- The groups placed on a core. -/
def State.groupsOn (s : State) (core : Nat) : List (Nat × Group) := s.groups.filter fun (_, g) => g.core == core && g.status == .placed

/-- The core slots in use: those of its resident squads. -/
def State.slotsUsed (s : State) (core : Nat) : List Nat :=
  (s.squads.filter fun (_, q) => s.coreOf q == core && q.residency == .resident && !q.ended).map fun (_, q) => q.slot

def State.freeSlots (s : State) (core : Nat) : List Nat := (List.range 32).filter fun i => !(s.slotsUsed core).contains i

/-- R112: the lowest free base of a window of `n` units on a core. -/
def State.sharedBase (s : State) (core n : Nat) : Option Nat :=
  let taken := (s.groupsOn core).map fun (_, g) => (g.shUnit, g.shSize / Config.sharedUnit)
  (List.range (128 + 1 - n)).find? fun b => taken.all fun (c, m) => b + n ≤ c || c + m ≤ b

/-- R113: the lowest free base of a span window on a die. -/
def State.scratchBase (s : State) (die n : Nat) : Option Nat :=
  let taken := s.spans.filterMap fun (_, p) =>
    match p.base with
    | some b => if p.die = die then some (b / Config.scratchUnit, p.size / Config.scratchUnit) else none
    | none => none
  (List.range (1024 + 1 - n)).find? fun b => taken.all fun (c, m) => b + n ≤ c || c + m ≤ b

/-- R172: the floors of `n` squads fit in the three files. -/
def floorsFit (n : Nat) : Bool :=
  n * Config.floorV ≤ Config.physV && n * Config.floorS ≤ Config.physS && n * Config.floorA ≤ Config.physA

def sharedSize (request : Nat) : Nat := max Config.sharedUnit (roundUp request Config.sharedUnit)

/-- R230, R249: whether the tiles and the clause array a group needs are free. -/
def enginesFree (s : State) (core : Nat) (matrix pair clause : Bool) : Bool :=
  (!(matrix || pair) || (s.core core).tileOwner.isNone)
    && (!pair || (core % 2 == 0 && (s.core (core + 1)).tileOwner.isNone))
    && (!clause || (s.cluster (clusterOf core)).clauseOwner.isNone)

/-- R275: whether a group of a descriptor fits on a core. -/
def fitsCore (s : State) (core : Nat) (d : LaunchDesc) : Bool :=
  d.nsq ≤ (s.freeSlots core).length && floorsFit ((s.slotsUsed core).length + d.nsq)
    && (s.sharedBase core (sharedSize d.shared / Config.sharedUnit)).isSome && enginesFree s core d.matrix d.pair d.clause

/-! ### Starting values (R276) -/

/-- R14, R276: the kinds of the lanes of squad k: the first of the group's lanes of work, and the rest of their last quad. -/
def laneKind (lanes k i : Nat) : LaneKind :=
  let n := min 32 (lanes - 32 * k)
  if i < n then .live else if i < roundUp n 4 then .helper else .absent

def startLane (kind : LaneKind) (entry : Word64) (level : Level) : Lane := { Lane.blank with kind := kind, pc := entry, level := level }

def barrierAt (count : Nat) : Barrier :=
  { count := count, arrived := 0, phase := 0, epend := 0, joining := Clock.zero }

/-- R276: squad k of group g. -/
def startSquad (grid g k slot : Nat) (d : LaunchDesc) (level : Level) (c : Clock) : Squad :=
  { Squad.blank grid g k with
    slot := slot, lanes := perLane fun i => startLane (laneKind d.lanes k i) d.entry level,
    spBase := d.spill + BitVec.ofNat 64 ((g * d.nsq + k) * d.spSize), spSize := BitVec.ofNat 64 d.spSize,
    bars := List.replicate d.barriers squadBarNone,
    clock := { Clock.zero with squads := [(squadKey (groupKey grid g) k, 1)], codes := c.codes, code := c.code } }

/-- R276, R112, R131: the group's own state. -/
def startGroup (grid g core unit : Nat) (d : LaunchDesc) (args : List Byte) : Group :=
  { grid := grid, g := g, span := spanKey grid (g / d.perSpan), core := core, shUnit := unit,
    shSize := sharedSize d.shared, nsq := d.nsq, shared := memWriteN [] 0 args, tags := [],
    barriers := List.replicate d.barriers (barrierAt d.nsq), epoch := 1, status := .placed, matrix := d.matrix || d.pair,
    pair := d.pair, clause := d.clause, halted := false, saved := none }

/-- R230, R249: the tiles and the clause array a group owns from its placement. -/
def takeEngines (s : State) (gk core : Nat) (matrix pair clause : Bool) : State :=
  let own (s : State) (c : Nat) : State := s.modCore c fun c => { c with tileOwner := some gk, tiles := [], fifoClock := Clock.zero }
  let s := if matrix || pair then own s core else s
  let s := if pair then own s (core + 1) else s
  if clause then s.modCluster (clusterOf core) fun c => { c with clauseOwner := some gk, clause := Clause.cleared 1024 4096 } else s

/-- R113, R274: the span's window, allocated with its first group; `none` where it cannot be. -/
def openSpan (s : State) (grid index die : Nat) (d : LaunchDesc) : Option State :=
  let key := spanKey grid index
  match s.span? key with
  | some _ => some s
  | none =>
    let size := roundUp d.scratch Config.scratchUnit
    let mk (base : Option Nat) : State :=
      let p : Span := { grid := grid, index := index, die := die, base := base, size := size, mem := [], tags := [],
                        joining := Clock.zero, arriving := [] }
      { s with spans := mapSet s.spans key p }
    if size = 0 then some (mk none)
    else (s.scratchBase die (size / Config.scratchUnit)).map fun b => mk (some (b * Config.scratchUnit))

/-- R276: places group g of a grid on a core; the first regroup tick forms its bundles. -/
def placeGroup (s : State) (grid g core : Nat) (d : LaunchDesc) (args : List Byte) (level : Level) : State :=
  let gk := groupKey grid g
  let unit := (s.sharedBase core (sharedSize d.shared / Config.sharedUnit)).getD 0
  let slots := s.freeSlots core
  let c := ((s.grid? grid).map (·.acquired)).getD Clock.zero
  let s := { s with groups := mapSet s.groups gk (startGroup grid g core unit d args) }
  let s := (List.range d.nsq).foldl
    (fun s k => s.setSquad (squadKey gk k) (startSquad grid g k (slots.getD k 0) d level c)) s
  takeEngines s gk core d.matrix d.pair d.clause

/-! ### A context to run one instruction in (log 7, DESIGN CHOICE) -/

/-- R283, R321: a context as CTXMAKE makes it. Log 5, DESIGN CHOICE. Log 7, DESIGN CHOICE. -/
def newContext (level : Level) (ptroot stvec : Word64) : Context :=
  { level := level, ptroot := ptroot, stvec := stvec, tensors := [], queues := [], gqsel := 0, toffset := 0#64, frozen := false,
    lastTime := 0, pausedAt := none, pausing := none, ending := none, energy := 0#64, demand := [], debugger := none, breaks := [] }

/-- A page-table entry (R72): a pointer to a table, or a 64 KiB leaf with R, W and X and key slot 0. -/
def pteTable (table : Nat) : Nat := table + 1
def pteLeaf (frame : Nat) : Nat := frame + 0x1F

/-- Log 7: the tables of a context that maps virtual pages 1 (code) and 2 (spill stack) to the frames after its tables. Log 7, DESIGN CHOICE. -/
def probeTables (m : Memory) : Memory :=
  let put (m : Memory) (a v : Nat) : Memory := memWriteN m a (leBytes 8 v)
  let m := put m 0x100000 (pteTable 0x140000)
  let m := put m 0x140000 (pteTable 0x150000)
  let m := put m 0x150000 (pteTable 0x160000)
  let m := put m 0x160008 (pteLeaf 0x180000)
  put m 0x160010 (pteLeaf 0x190000)

def probeDesc : LaunchDesc :=
  { entry := 0x10000#64, spill := 0x20000#64, trig := 0#64, dep0 := 0#64, val0 := 0#64, dep1 := 0#64, val1 := 0#64, ngx := 1, ngy := 1,
    ngz := 1, shared := 16384, scratch := 65536, lanes := 32, nsq := 1, barriers := 16, vregs := 128, sregs := 64, aregs := 16,
    spanSz := 1, spSize := 65536, matrix := true, pair := false, clause := true, spanSync := true, k1 := true }

def probeGrid : Grid :=
  { ctx := 0, chain := 0, entryAddr := 0#64, entryId := 0, seq := 0#64, queue := 0, desc := probeDesc, descAddr := 0#64,
    args := [], status := .admitted, acquired := Clock.zero, next := 1, groupsEnded := 0, failed := false, triggered := false }

/-- Log 7: context 0 with one grid of one squad placed on core 0, its code at frame 0x180000 and its bundle formed. Log 7, DESIGN CHOICE. -/
def probeState (s : State) (code : List Byte) : State :=
  let s := s.zeroFrames 0x100000 0xA0000
  let s := { s with
    mem := memWriteN (probeTables s.mem) 0x180000 code,
    stale := s.stale.filter fun c => c.pa < 0x100000 || 0x1A0000 ≤ c.pa,
    tlb := s.tlb.filter fun e => e.ctx != 0, firn := s.firn.filter fun e => e.ctx != 0,
    requests := mapFilter s.requests fun _ r => r.ctx != 0,
    keys := mapSet s.keys 0 { KeySlot.zero with keyId := 1, bound := some 0 },
    ctxs := mapSet s.ctxs 0 (newContext .hypervisor 0x100000#64 0#64), grids := mapSet s.grids 0 probeGrid }
  let s := (openSpan { s with spans := mapErase s.spans (spanKey 0 0) } 0 0 0 probeDesc).getD s
  let s := placeGroup { s with squads := mapErase s.squads 0, groups := mapErase s.groups 0 } 0 0 0 probeDesc [] .hypervisor
  let s := s.modIsland 0 fun i => { i with frost := false }
  regroupSquad s 0

end Sys2Proof.Machine
end

