-- ==== Sys2Proof/Machine/System.lean ====
section
/-!
DEFINITION. System registers (R283–R285 and the rules that lay each register out), `time` (R329), `icinv` (R84), `tlbinv`
(R82, R83), `setperf` (R313).
-/
namespace Sys2Proof.Machine

/-! ### The registers (R283) -/

/-- R283: a register's access level; `none` for a number that the table does not list. -/
def sysLevel (n : Nat) : Option Level :=
  if n ≤ 0x009 ∨ (0x010 ≤ n ∧ n ≤ 0x013) then some .user
  else if (0x100 ≤ n ∧ n ≤ 0x102) ∨ (0x120 ≤ n ∧ n ≤ 0x123) ∨ n = 0x130 ∨ n = 0x131 then some .supervisor
  else if n = 0x200 ∨ n = 0x201 then some .hypervisor
  else none

/-- R105: the far context that a partition's CHSEL selects; whether it is the partition's own. -/
def State.selected (s : State) (slot : Nat) : Nat := (s.part slot).chsel
def State.ownsChain (s : State) (slot h : Nat) : Bool := (s.part slot).farctx.getLsbD h

/-- R271: the selected grid queue of a context. -/
def Context.queue (c : Context) (n : Nat) : GridQueue := (mapGet c.queues n).getD GridQueue.zero

def boolNat (b : Bool) : Nat := if b then 1 else 0

/-- R105: CHCTL. -/
def FarCtx.ctl (c : FarCtx) : Nat :=
  c.weight + 2 ^ 4 * boolNat c.run + 2 ^ 7 * boolNat c.halted + 2 ^ 8 * c.fcode + 2 ^ 16 * (c.pend % 2 ^ 48)

/-- R271: GQCTL. -/
def GridQueue.ctl (g : GridQueue) : Nat :=
  g.prio + 2 ^ 8 * boolNat g.en + 2 ^ 16 * min g.waiting.length 65535 + 2 ^ 32 * (g.admitted % 2 ^ 32)

/-- R315: PWRSTAT. -/
def pwrStat (s : State) (q : Squad) : Nat :=
  (s.island (islandOf s q)).level + 2 ^ 4 * q.perfReq + 2 ^ 8 * (s.part (slotOf (s.ctxOf q))).clip + 2 ^ 11 * boolNat q.frostSeen

/-- R283: the registers held per squad, group or span. -/
def readSquadReg (s : State) (q : Squad) (n : Nat) : Word64 :=
  match n with
  | 0x000 => q.tvec
  | 0x001 => q.fctl
  | 0x002 => q.fflags
  | 0x003 => q.spBase
  | 0x004 => q.spSize
  | 0x005 => BitVec.ofNat 64 (boolNat q.glideEn + 2 ^ 16 * q.glides + 2 ^ 32 * q.rolls)
  | 0x006 => BitVec.ofNat 64 (2 ^ 16 * q.races + 2 ^ 32 * q.misses)
  | 0x007 => BitVec.ofNat 64 (winSize s q .shared)
  | 0x008 => BitVec.ofNat 64 (winSize s q .scratch)
  | 0x009 => BitVec.ofNat 64 (pwrStat s q)
  | _ => 0#64

/-- R283: the registers held per context, partition or device. Log 66, DEDUCED. -/
def readContextReg (s : State) (ctx : Nat) (c : Context) (n : Nat) : Word64 :=
  let h := s.selected (slotOf ctx)
  match n with
  | 0x010 => BitVec.ofNat 64 ctx
  | 0x011 => BitVec.ofNat 64 (slotOf ctx)
  | 0x013 => c.energy
  | 0x100 => c.stvec
  | 0x101 => c.ptroot
  | 0x102 => BitVec.ofNat 64 s.qcount
  | 0x120 => BitVec.ofNat 64 h
  | 0x121 => (s.chain h).head
  | 0x122 => BitVec.ofNat 64 (s.chain h).ctl
  | 0x123 => BitVec.ofNat 64 (s.chain h).ctx
  | 0x130 => BitVec.ofNat 64 c.gqsel
  | 0x131 => BitVec.ofNat 64 (c.queue c.gqsel).ctl
  | 0x200 => c.toffset
  | 0x201 => BitVec.ofNat 64 (boolNat c.frozen)
  | _ => 0#64

/-- R284: the value of a register, reserved fields zero. -/
def readReg (s : State) (q : Squad) (lanes : LaneMask) (n : Nat) : Word64 :=
  if n ≤ 0x009 then readSquadReg s q n
  else if n = 0x012 then BitVec.ofNat 64 (levelNum (q.levelOf lanes))
  else readContextReg s (s.ctxOf q) ((s.contextOf q).getD (newContext .user 0#64 0#64)) n

/-! ### Writing (R284) -/

/-- R105: a write to a register of the selected far context, ignored for one of another partition. Log 66, DEDUCED. -/
def writeChain (s : State) (slot : Nat) (f : FarCtx → FarCtx) : State :=
  let h := s.selected slot
  if s.ownsChain slot h then s.modChain h f else s

/-- R105: CHCTL's RW and W1C fields. -/
def FarCtx.setCtl (c : FarCtx) (w : Word64) : FarCtx :=
  { c with weight := w.toNat % 16, run := w.getLsbD 4, halted := c.halted && !w.getLsbD 7 }

/-- R271: GQCTL's RW fields. -/
def Context.setQueue (c : Context) (w : Word64) : Context :=
  { c with queues := mapUpd c.queues c.gqsel GridQueue.zero fun g => { g with prio := w.toNat % 8, en := w.getLsbD 8 } }

/-- R53, R54, R74: the bits of FCTL, FFLAGS and PTROOT that a write reaches. -/
def fctlMask : Word64 := 0x1F3#64
def fflagsMask : Word64 := 0x1F#64
def ptrootMask : Word64 := 0x000FFFFFFFFF0000#64

/-- R284: a write; a read-only register keeps its value. -/
def writeReg (s : State) (key ctx n : Nat) (w : Word64) : State :=
  let slot := slotOf ctx
  match n with
  | 0x000 => s.modSquad key fun q => { q with tvec := w }
  | 0x001 => s.modSquad key fun q => { q with fctl := w &&& fctlMask }
  | 0x002 => s.modSquad key fun q => { q with fflags := w &&& fflagsMask }
  | 0x005 => s.modSquad key fun q => { q with glideEn := w.getLsbD 0 }
  | 0x100 => s.modCtx ctx fun c => { c with stvec := w }
  | 0x101 => s.modCtx ctx fun c => { c with ptroot := w &&& ptrootMask }
  | 0x120 => if s.ownsChain slot (w.toNat % 256) then s.modPart slot fun p => { p with chsel := w.toNat % 256 } else s
  | 0x121 => writeChain s slot fun c => { c with head := w, atEnd := false }
  | 0x122 => writeChain s slot fun c => c.setCtl w
  | 0x123 => writeChain s slot fun c => { c with ctx := w.toNat % 256 }
  | 0x130 => s.modCtx ctx fun c => { c with gqsel := w.toNat % 16 }
  | 0x131 => s.modCtx ctx fun c => c.setQueue w
  | 0x200 => s.modCtx ctx fun c => { c with toffset := w }
  | 0x201 => s.modCtx ctx fun c => { c with frozen := w.getLsbD 0 }
  | _ => s

/-! ### sysr, sysw -/

/-- R284: uniform operands, a uniform guard, the uniformity rule, no gliding. -/
def shSys : Shape := { Shape.base with rule := ruleUni, uniGuard := true, full := true, stalls := true }
def shSysr : Shape := { shSys with b := src1, d := .reg 1 }
/-- `sysw` has no destination, which counts as absent. -/
def shSysw : Shape := { shSys with a := src1, b := src1, rule := fun _ a b _ => a == .uniform && b == .uniform }

/-- The register number: B[11:0]. -/
def sysNum (e : Env) : Nat := e.x.b.w.toNat % 4096

/-- R285: a number that is not listed; then a level. -/
def sysExtra : Extra := fun e =>
  match sysLevel (sysNum e) with
  | none => some (fault causeIllegal 0x0005#16 0#64)
  | some l => if levelLt (e.q.levelOf e.cx.lanes) l then some (fault causePrivilege 0x0000#16 0#64) else none

/-- R284, R315: PWRSTAT's FROST tells of the time since the last read. -/
def sysrEff (e : Env) : Eff :=
  if !e.runs then e.result (.kept false)
  else
    let v := readReg e.s e.q e.cx.lanes (sysNum e)
    let s := if sysNum e = 0x009 then e.s.modSquad e.cx.key fun q => { q with frostSeen := false } else e.s
    .done { s := s, result := .uniform v, faults := [] }

/-- R284. -/
def syswEff (e : Env) : Eff :=
  e.after (if e.runs then writeReg e.s e.cx.key (e.s.ctxOf e.q) (sysNum e) e.x.a.w else e.s)

/-- R284. -/
def execSysr (o : Ops) (s : State) : Out := issueWith shSysr false sysExtra sysrEff o s
/-- R284. -/
def execSysw (o : Ops) (s : State) : Out := issueWith shSysw false sysExtra syswEff o s
/-- R105, R284: the `sysw` whose number is 0x122. -/
def execChctlWrite (o : Ops) (s : State) : Out := issueWith shSysw false sysExtra syswEff o s

/-! ### time (R329) -/

/-- R329: the guest time a context reads next. Log 66, DEDUCED. -/
def guestTime (s : State) (c : Context) : Nat := (max (s.ns + c.toffset.toInt) (c.lastTime + 1)).toNat

/-- R329: a reading. Log 66, DEDUCED. -/
def readTime (s : State) (ctx : Nat) : Word64 × State :=
  match s.ctx? ctx with
  | none => (BitVec.ofNat 64 s.ns, s)
  | some c => (BitVec.ofNat 64 (guestTime s c), s.modCtx ctx fun c => { c with lastTime := guestTime s c })

def timeEff (e : Env) : Eff :=
  if !e.runs then e.result (.kept false)
  else
    let (v, s) := readTime e.s (e.s.ctxOf e.q)
    .done { s := s, result := .uniform v, faults := [] }

/-- R329. -/
def execTime (o : Ops) (s : State) : Out := issue { shSys with d := .reg 1 } false timeEff o s

/-! ### icinv (R84, R165) -/

def accessRange (addr : Word64) : LaneFault := fault causeAccess 0x0005#16 addr

/-- R84: the range that an `icinv` covers, widened to whole cache lines (their length by log 65, DEDUCED). -/
def icRange (a b : Word64) : Nat × Nat :=
  let line := 2 ^ Config.codeLineBits
  let hi := a.toNat + b.toNat
  if b = 0#64 then (0, 2 ^ 48) else (a.toNat - a.toNat % line, hi + (line - hi % line) % line)

/-- R84, R165: the code caches and the firn entries of a range are dropped, a release at device scope for fetch. Log 65, DEDUCED. -/
def dropCode (s : State) (key ctx lo hi : Nat) : State :=
  let r := s.codeRelease + 1
  let old (f : FirnEntry) : FirnEntry :=
    if f.ctx == ctx && f.start < hi && lo < f.start + 4 * f.words.length then { f with stale := true } else f
  let i : CodeInval := { ctx := ctx, lo := lo, hi := hi, release := r }
  let s := { s with codeRelease := r, icinvs := i :: s.icinvs, firn := s.firn.map old }
  s.modSquad key fun q => { q with clock := { q.clock with codes := r :: q.clock.codes } }

def icinvEff (e : Env) : Eff :=
  if !e.runs then e.after e.s
  else
    let (a, b) := (e.x.a.w, e.x.b.w)
    if 2 ^ 48 < a.toNat + b.toNat then .trap (accessRange a)
    else e.after (dropCode e.s e.cx.key (e.s.ctxOf e.q) (icRange a b).1 (icRange a b).2)

/-- R84. -/
def execIcinv (o : Ops) (s : State) : Out :=
  issue { shSys with a := src1, b := src1, rule := fun _ a b _ => a == .uniform && b == .uniform } false icinvEff o s

/-! ### tlbinv (R81–R83) -/

/-- R72: the bits of an offset in a page of a SIZE code. -/
def pageBits (size : Nat) : Nat := [16, 21, 27, 33].getD size 33

/-- R82: C may hold 0x0FF, where MORAINE is clear. -/
def shTlbinv (o : Ops) : Shape :=
  { shSys with
    a := src1, b := src1, c := if o.c.name == .none then .unused else src1, d := .reg 1, level := .supervisor,
    rule := fun d a b c => ruleUni d a b c && a == .uniform && b == .uniform }

/-- R82: MORAINE set and no C: C is not uniform. -/
def tlbExtra : Extra := fun e =>
  if e.x.b.w.getLsbD 17 && e.x.c.cls == .absent then some (fault causeIllegal 0x0003#16 0#64) else none

/-- R82: the translations of a context that cover an address, or all of them. -/
def dropTlb (s : State) (ctx va : Nat) (all : Bool) : State :=
  { s with tlb := s.tlb.filter fun t => !(t.ctx == ctx && (all || t.va == va / 2 ^ t.size)) }

/-- R82. Log 65, DEDUCED. Log 80, DESIGN CHOICE. -/
def tlbinvEff (e : Env) : Eff :=
  if !e.runs then e.result (.kept false)
  else
    let a := e.x.a.w
    let b := e.x.b.w
    let c := e.x.c.w.toNat
    let all := b.getLsbD 16
    let size := c % 4
    let frame := fieldAt c 16 36 * 2 ^ 16
    let slot := slotOf (e.s.ctxOf e.q)
    if !all && a.toNat / 2 ^ 48 ≠ 0 then .trap (accessRange 0#64)
    else if b.getLsbD 17 && (frame % 2 ^ pageBits size ≠ 0 || !e.s.ownsRange slot frame (2 ^ pageBits size)) then .trap (accessRange 0#64)
    else if b.getLsbD 17 && Config.moraineFrames ≤ e.s.moraine.length then .wait e.s .post
    else
      let ctx := b.toNat % 2 ^ 16
      let s := if slotOf ctx = slot then dropTlb e.s ctx a.toNat all else e.s
      let s := if b.getLsbD 17 then
          { s with moraine := s.moraine ++ [{ frame := frame, size := size, slot := slot, stamp := s.qcount + 1 }] }
        else s
      .done { s := s, result := .uniform (BitVec.ofNat 64 (s.qcount + 1)), faults := [] }

/-- R82. -/
def execTlbinv (o : Ops) (s : State) : Out := issueWith (shTlbinv o) false tlbExtra tlbinvEff o s

/-! ### setperf (R313) -/

/-- R32: C of an X form holds its engine. -/
def engineNo (n : Nat) : Use := .number fun k => k == n

/-- R32: what every X form has in common. -/
def shX (eng : Nat) : Shape := { Shape.base with c := engineNo eng, post := true, stalls := true, uniGuard := true }

/-- R313: a D other than 0xFF is an OperandClass defect. -/
def shSetperf : Shape :=
  { shX 6 with a := src1, d := .reg 1, k := .asA, rule := fun d a b _ => d == .absent && (a == .uniform || b == .uniform) }

/-- R313. -/
def execSetperf (o : Ops) (s : State) : Out :=
  issue shSetperf false
    (fun e => e.after (if e.runs then e.s.modSquad e.cx.key fun q => { q with perfReq := min e.x.a.w.toNat 7 } else e.s)) o s

end Sys2Proof.Machine
end

