-- ==== Sys2Proof/Machine/Record.lean ====
section
/-!
DEFINITION. Tensor records (R64, R85–R90): their bytes, what malforms one, where an element's bits and a block's scale stand; `tid.set`
and `tid.get`.
-/
namespace Sys2Proof.Machine

/-! ### Formats (R64) -/

/-- R64: the bits of an element; 0 for a code that is not listed. -/
def formatBits (f : Nat) : Nat :=
  match f with
  | 0x00 | 0x01 | 0x10 | 0x11 | 0x15 | 0x20 => 8
  | 0x02 | 0x05 | 0x06 => 16
  | 0x03 | 0x04 => 32
  | 0x12 | 0x13 => 6
  | 0x14 => 4
  | _ => 0

def isMx (f : Nat) : Bool := 0x10 ≤ f && f ≤ 0x15

def ceilDiv (a b : Nat) : Nat := (a + b - 1) / b

def TensorRec.width (r : TensorRec) : Nat := formatBits r.format.toNat
def TensorRec.mx (r : TensorRec) : Bool := isMx r.format.toNat
/-- R85: elements of a block; 0 for none. -/
def TensorRec.blockSize (r : TensorRec) : Nat :=
  match r.block.toNat with
  | 1 => 4
  | 2 => 8
  | 3 => 16
  | 4 => 32
  | _ => 0
def TensorRec.cols (r : TensorRec) : Nat := r.dim0.toNat
def TensorRec.rows (r : TensorRec) : Nat := r.dim1.toNat
/-- R63: bytes of a packed row of n elements. -/
def TensorRec.rowBytes (r : TensorRec) (n : Nat) : Nat := ceilDiv (n * r.width) 8
/-- R92: scales of n elements of a row. -/
def TensorRec.scales (r : TensorRec) (n : Nat) : Nat := if r.mx then ceilDiv n r.blockSize else 0

/-- R86: the least STRIDE. -/
def TensorRec.minStride (r : TensorRec) : Nat := if r.layout = 1#8 then r.rows * r.width / 8 else r.rowBytes r.cols

/-- R86: whether a layout is permitted. -/
def TensorRec.layoutOk (r : TensorRec) : Bool :=
  r.layout.toNat ≤ 2 && (r.layout != 1#8 || r.format.toNat ≤ 6) && (r.layout != 2#8 || r.space == 1#8)

def syncNone : Word32 := 0xFFFFFFFF#32

/-- R87: the code of a record, 0 where it is well formed. -/
def TensorRec.code (r : TensorRec) : Nat :=
  if 2 < r.space.toNat then 1
  else if r.width = 0 ∨ (r.mx && (r.blockSize == 0)) ∨ (!r.mx && r.block != 0#8) then 2
  else if !r.layoutOk then 3
  else if r.cols = 0 ∨ r.rows = 0 then 4
  else if r.base.toNat % 16 ≠ 0 ∨ r.stride.toNat % 16 ≠ 0 ∨ (r.layout = 2#8 ∧ r.stride.toNat % 128 ≠ 0) then 5
  else if r.stride.toNat < r.minStride then 6
  else if r.sync ≠ syncNone ∧ r.sync.toNat % 16 ≠ 0 then 7
  else 0

/-- R86: the address of packed byte x of row i. -/
def TensorRec.rowByte (r : TensorRec) (i x : Nat) : Nat :=
  if r.layout = 1#8 then
    let b := r.width / 8
    r.base.toNat + x / b * r.stride.toNat + i * b + x % b
  else if r.layout = 2#8 then r.base.toNat + i * r.stride.toNat + (x / 16 ^^^ i % 8) * 16 + x % 16
  else r.base.toNat + i * r.stride.toNat + x

/-- R86: the address of the scale of block b of row i. -/
def TensorRec.scaleByte (r : TensorRec) (i b : Nat) : Nat := r.base.toNat + r.scaleOff.toNat + i * r.scales r.cols + b

/-- R85: a record from its 32 bytes, and its bytes. -/
def TensorRec.ofBytes (bs : List Byte) : TensorRec :=
  let f (n at_ k : Nat) : BitVec n := BitVec.ofNat n (leField bs at_ k)
  { base := f 64 0 8, space := f 8 8 1, format := f 8 9 1, block := f 8 10 1, layout := f 8 11 1, dim0 := f 16 12 2, dim1 := f 16 14 2,
    stride := f 32 16 4, scaleOff := f 32 20 4, tscale := f 32 24 4, sync := f 32 28 4 }

def TensorRec.bytes (r : TensorRec) : List Byte :=
  leBytes 8 r.base.toNat ++ [r.space, r.format, r.block, r.layout] ++ leBytes 2 r.dim0.toNat ++ leBytes 2 r.dim1.toNat
    ++ leBytes 4 r.stride.toNat ++ leBytes 4 r.scaleOff.toNat ++ leBytes 4 r.tscale.toNat ++ leBytes 4 r.sync.toNat

/-- R85: a record of a context's tensor table. -/
def State.tensor (s : State) (ctx tid : Nat) : TensorRec :=
  ((s.ctx? ctx).map fun c => (mapGet c.tensors tid).getD TensorRec.zero).getD TensorRec.zero

/-! ### tid.set, tid.get (R89, R90) -/

def shTidSet : Shape := { shX 0 with a := src1, b := src1, d := .reg 1, rule := ruleUni }
/-- R90: `none` is no destination. -/
def shTidGet : Shape := { shTidSet with rule := fun d a b _ => d == .uniform && a == .uniform && b == .uniform }

/-- R89. -/
def tidSetEff (e : Env) : Eff :=
  if !e.runs then e.after e.s
  else
    match loadWin e.s e.cx.key (lowLane (e.cx.lanes &&& e.q.live)) .shared e.x.a.w.toNat 32 32 .plain with
    | (.error f, s) => .trapWith s f
    | (.ok bs, s) =>
      let r := TensorRec.ofBytes bs
      let s := s.modCtx (s.ctxOf e.q) fun c => { c with tensors := mapSet c.tensors (e.x.b.w.toNat % 256) r }
      .done { s := s, result := .uniform (BitVec.ofNat 64 r.code), faults := [] }

/-- R90. -/
def tidGetEff (e : Env) : Eff :=
  if !e.runs then e.after e.s
  else
    let r := e.s.tensor (e.s.ctxOf e.q) (e.x.a.w.toNat % 256)
    e.result (.uniform (BitVec.ofNat 64 (leField r.bytes (8 * (e.x.b.w.toNat % 4)) 8)))

/-- R89. -/
def execTidSet (o : Ops) (s : State) : Out := issue shTidSet false tidSetEff o s
/-- R90. -/
def execTidGet (o : Ops) (s : State) : Out := issue shTidGet false tidGetEff o s

end Sys2Proof.Machine
end

