-- ==== Sys2Proof/Machine/Copy.lean ====
section
/-!
DEFINITION. Near copies (R91–R98): posts, starts, the landing of pieces, faults. A piece is what lands in one
aligned word of the destination (log 19, DESIGN CHOICE).
-/
namespace Sys2Proof.Machine

/-! ### What a copy moves (R91) -/

def Copy.rowsMoved (c : Copy) : Nat := if c.kind = .scatter then c.src.rows else c.dst.rows
def Copy.colsMoved (c : Copy) : Nat := if c.kind = .scatter then c.src.cols else c.dst.cols
def Copy.srcRow (c : Copy) (k : Nat) : Nat :=
  match c.kind with
  | .plain => c.r0 + k
  | .gather => c.index.getD k 0
  | .scatter => k
def Copy.dstRow (c : Copy) (k : Nat) : Nat := if c.kind = .scatter then c.index.getD k 0 else k

/-- Bytes and scales of a row moved. -/
def Copy.rowBytes (c : Copy) : Nat := c.dst.rowBytes c.colsMoved
def Copy.rowScales (c : Copy) : Nat := c.dst.scales c.colsMoved

/-- R93: the bytes of the words that a copy reads, and writes, whole: 8 in main memory, which keeps units of 8 (R127), else 4. -/
def spaceUnit (space : Byte) : Nat := if space = 0#8 then 8 else 4
def Copy.unit (c : Copy) : Nat := spaceUnit c.dst.space
def Copy.srcUnit (c : Copy) : Nat := spaceUnit c.src.space

/-- A byte of the destination: the row moved that it is taken from, its address, the source bytes that hold it, the first of their bits and how
many, and how many rows moved land in it (R91). -/
structure CopyByte where
  row : Nat
  at_ : Nat
  src : List Nat
  shift : Nat
  bits : Nat
  count : Nat
  deriving DecidableEq, Repr

/-- R91: the rows moved into a destination row; the last is the one that it holds. -/
def Copy.movers (c : Copy) (i : Nat) : List Nat :=
  if c.kind = .scatter then (List.range c.index.length).filter (c.index.getD · 0 == i) else if i < c.rowsMoved then [i] else []

/-- R63, R86: the source bytes of packed byte x of row moved k, and of its scale b. -/
def Copy.elemSrc (c : Copy) (k x : Nat) : List Nat :=
  let b := c.c0 * c.src.width + 8 * x
  (List.range (ceilDiv (b % 8 + min 8 (c.colsMoved * c.src.width - 8 * x)) 8)).map fun j => c.src.rowByte (c.srcRow k) (b / 8 + j)
def Copy.scaleSrc (c : Copy) (k b : Nat) : Nat := c.src.scaleByte (c.srcRow k) (c.c0 / c.src.blockSize + b)

/-- R63, R91: packed byte x of destination row i, and scale b, where a row moves there; the unused bits of a row's last byte are zero. -/
def Copy.element (c : Copy) (i x : Nat) : Option CopyByte :=
  (c.movers i).getLast?.map fun k =>
    { row := k, at_ := c.dst.rowByte i x, src := c.elemSrc k x, shift := c.c0 * c.src.width % 8,
      bits := min 8 (c.colsMoved * c.src.width - 8 * x), count := (c.movers i).length }
def Copy.scale (c : Copy) (i b : Nat) : Option CopyByte :=
  (c.movers i).getLast?.map fun k =>
    { row := k, at_ := c.dst.scaleByte i b, src := [c.scaleSrc k b], shift := 0, bits := 8, count := (c.movers i).length }

/-- A piece: bytes of one aligned unit of the destination: of a packed row, of a column-major line, or of the scale array. -/
inductive Piece where
  | row (i first len : Nat)
  | line (j first len : Nat)
  | scales (first len : Nat)
  deriving DecidableEq, Repr

/-- The pieces of a row or line of so many bytes, and the bytes of its t-th. -/
def Copy.per (c : Copy) (bytes : Nat) : Nat := ceilDiv bytes c.unit
def Copy.lineBytes (c : Copy) : Nat := c.dst.rows * (c.dst.width / 8)
def Copy.elemPieces (c : Copy) : Nat :=
  if c.dst.layout = 1#8 then c.dst.cols * c.per c.lineBytes else c.dst.rows * c.per c.rowBytes

/-- How far the scale array's first byte stands in its unit, and its bytes. -/
def Copy.lead (c : Copy) : Nat := (c.dst.scaleByte 0 0) % c.unit
def Copy.allScales (c : Copy) : Nat := c.dst.rows * c.rowScales
def Copy.pieces (c : Copy) : Nat := c.elemPieces + if c.allScales = 0 then 0 else c.per (c.lead + c.allScales)

/-- Log 19, DESIGN CHOICE. -/
def Copy.piece (c : Copy) (p : Nat) : Piece :=
  let u := c.unit
  let part (bytes t : Nat) : Nat := min u (bytes - u * t)
  if p < c.elemPieces then
    if c.dst.layout = 1#8 then
      let n := c.per c.lineBytes
      .line (p / n) (u * (p % n)) (part c.lineBytes (p % n))
    else
      let n := c.per c.rowBytes
      .row (p / n) (u * (p % n)) (part c.rowBytes (p % n))
  else
    let t := p - c.elemPieces
    let first := u * t - c.lead
    .scales first (min c.allScales (u * (t + 1) - c.lead) - first)

/-- The bytes that land in a piece. -/
def Copy.bytes (c : Copy) (p : Nat) : List CopyByte :=
  match c.piece p with
  | .row i x n => (List.range n).filterMap fun z => c.element i (x + z)
  | .line j y n =>
    let w := c.dst.width / 8
    (List.range n).filterMap fun z => c.element ((y + z) / w) (j * w + (y + z) % w)
  | .scales x n => (List.range n).filterMap fun z => c.scale ((x + z) / c.rowScales) ((x + z) % c.rowScales)

/-- R91, R93: the bytes that count as landed with a piece. -/
def Copy.size (c : Copy) (p : Nat) : Nat := (c.bytes p).foldl (fun n b => n + b.count) 0

/-- The pieces with bytes that land. -/
def Copy.due (c : Copy) : List Nat := (List.range c.pieces).filter fun p => 0 < c.size p

/-- R94: the place of a piece in ascending destination row and column order, by its first byte; a row's scales stand after its elements.
Log 19, DESIGN CHOICE. -/
def Copy.rank (c : Copy) (p : Nat) : Nat :=
  match c.piece p with
  | .row i x _ => i * 2 ^ 20 + x
  | .line j y _ => y / (c.dst.width / 8) * 2 ^ 20 + j * (c.dst.width / 8)
  | .scales x _ => x / c.rowScales * 2 ^ 20 + 2 ^ 19 + x % c.rowScales

/-- The rows moved into the destination rows before one. -/
def Copy.before (c : Copy) (i : Nat) : Nat :=
  if c.kind = .scatter then (c.index.filter (· < i)).length else i

/-- R308: the 4 KiB of the copy's bytes that a piece belongs to, by its first byte. -/
def Copy.slice (c : Copy) (p : Nat) : Nat :=
  (match c.piece p with
    | .row i x _ => c.before i * c.rowBytes + x
    | .line j y _ => (j * c.rowsMoved + c.before (y / (c.dst.width / 8))) * (c.dst.width / 8)
    | .scales x _ => c.rowsMoved * c.rowBytes + c.before (x / c.rowScales) * c.rowScales + x % c.rowScales) / 4096

/-- Where a piece's bytes come from, each once, and go to. -/
def Copy.srcBytes (c : Copy) (p : Nat) : List Nat :=
  (c.bytes p).foldl (fun as b => as ++ b.src.filter fun a => !as.contains a) []
def Copy.dstBytes (c : Copy) (p : Nat) : List Nat := (c.bytes p).map (·.at_)

/-- R93, R127: the source bytes of a piece whose units the copy has not read yet. -/
def Copy.newBytes (c : Copy) (p : Nat) : List Nat := (c.srcBytes p).filter fun a => (mapGet c.taken (a / c.srcUnit)).isNone

/-- A source byte among the units read. -/
def Copy.sourceByte (c : Copy) (a : Nat) : Byte :=
  BitVec.ofNat 8 ((mapGet c.taken (a / c.srcUnit)).getD 0 / 256 ^ (a % c.srcUnit))

/-- R63, R91: a byte as it lands. -/
def Copy.landing? (c : Copy) (b : CopyByte) : Byte :=
  BitVec.ofNat 8 (leNat (b.src.map c.sourceByte) / 2 ^ b.shift % 2 ^ b.bits)

/-- R92: the byte total; `none` where the records do not settle it. -/
def Copy.total (c : Copy) : Option Nat :=
  if c.src.width ≠ c.dst.width ∨ c.src.mx ≠ c.dst.mx ∨ c.src.width = 0 ∨ (c.src.mx && (c.src.blockSize != c.dst.blockSize || c.src.blockSize == 0))
  then none
  else some (c.rowsMoved * (c.rowBytes + c.rowScales))

/-! ### Posts (R92, R95, R96) -/

def shCopy : Shape := { shX 0 with a := src1, b := src1, d := .reg 1, rule := ruleUni }

/-- R95: whether a free shared slot, else the squad's own reserved slot, takes a post: `some reserved`. -/
def copySlot (c : Core) (key : Nat) : Option Bool :=
  if (c.copies.filter fun k => !k.reserved).length < Config.copySlots then some false
  else if c.copies.any fun k => k.reserved && k.squad == key then none
  else some true

/-- R91: the entries of a copy's index list. -/
def Copy.indexLen (c : Copy) : Nat :=
  match c.kind with
  | .plain => 0
  | .gather => c.dst.rows
  | .scatter => c.src.rows

def wordsFrom : Nat → List Byte → List Nat
  | 0, _ => []
  | n + 1, bs => leNat (bs.take 4) :: wordsFrom n (bs.drop 4)

/-- R91: the index list, read at the post where its place allows. Log 19, DESIGN CHOICE. -/
def readIndex (s : State) (key lane : Nat) (size : Nat) (c : Copy) : Except LaneFault (List Nat) × State :=
  if c.indexLen = 0 ∨ c.indexOff % 4 ≠ 0 ∨ size < c.indexOff + 4 * c.indexLen then (.ok [], s)
  else match loadWin s key lane .shared c.indexOff (4 * c.indexLen) 4 .plain with
    | (.error f, s) => (.error f, s)
    | (.ok bs, s) => (.ok (wordsFrom c.indexLen bs), s)

/-- What a post names (R91). -/
def copyOf (e : Env) (kind : CopyKind) : Copy :=
  let a := e.x.a.w.toNat
  let b := e.x.b.w.toNat
  let ctx := e.s.ctxOf e.q
  let plain := kind = .plain
  { id := 0, squad := e.cx.key, kind := kind, srcTid := a % 256, dstTid := a / 256 % 256, src := e.s.tensor ctx (a % 256),
    dst := e.s.tensor ctx (a / 256 % 256), c0 := if plain then b % 2 ^ 16 else 0, r0 := if plain then b / 2 ^ 16 % 2 ^ 16 else 0,
    indexOff := if plain then 0 else b % 2 ^ 21, index := [], sync := a / 2 ^ 16 % 2 == 1, landing := none, reserved := false,
    started := false, landed := [], taken := [], issued := [], broken := [], clock := Clock.zero, epoch := e.q.epoch e.cx.key,
    arrivedAt := [] }

def Copy.raises (c : Copy) : Bool := c.sync && c.dst.sync != syncNone

/-- R142: the phase of each barrier at which the squad has arrived. -/
def arrivals (s : State) (q : Squad) : List (Option Nat) :=
  let bars := ((s.group? q.groupKey).map (·.barriers)).getD []
  (List.range bars.length).map fun b => if q.arrived b then some (bars.getD b barNone).phase else none

/-- R92: the post's steps 2 to 4, after the records and the index list are taken. -/
def copyJoins (e : Env) (s : State) (c : Copy) (reserved : Bool) : State × Nat :=
  let (id, s) := s.fresh
  let (clk, s) := release s e.cx.key (if c.raises then scopeSpan else 1)
  let landing := match e.cx.o.d with
    | .s k => some k.val
    | _ => none
  let c := { c with id := id, reserved := reserved, landing := landing, clock := clk, arrivedAt := arrivals s e.q }
  let s := s.modCore (s.coreOf e.q) fun k => { k with copies := k.copies ++ [c] }
  let o := { OutOp.new id 0 with landing := landing, sync := if c.raises then some c.dst.sync.toNat else none }
  (pushOp s e.cx.key o, id)

/-- Log 19, DESIGN CHOICE. -/
def copyPost (kind : CopyKind) (e : Env) : Eff :=
  if !e.runs then e.after e.s
  else if e.q.opsFull 0 then .wait e.s .post
  else match copySlot (e.s.core (e.s.coreOf e.q)) e.cx.key with
    | none => .wait e.s .post
    | some reserved =>
      let c := copyOf e kind
      match readIndex e.s e.cx.key (lowLane (e.cx.lanes &&& e.q.live)) (winSize e.s e.q .shared) c with
      | (.error f, s) => .trapWith s f
      | (.ok index, s) =>
        let (s, _) := copyJoins e s { c with index := index } reserved
        let total : Word64 := match c.total with
          | some n => BitVec.ofNat 64 n
          | none => s.freeWord 92 0
        .done { s := s, result := .uniform total, faults := [] }

/-- R91, R92. -/
def execCp (o : Ops) (s : State) : Out := issue shCopy false (copyPost .plain) o s
/-- R91, R92. -/
def execCpGat (o : Ops) (s : State) : Out := issue shCopy false (copyPost .gather) o s
/-- R91, R92. -/
def execCpSct (o : Ops) (s : State) : Out := issue shCopy false (copyPost .scatter) o s

/-! ### Faults found before a byte moves (R94) -/

def spaceOf (b : Byte) : Option Space := if b = 1#8 then some .shared else if b = 2#8 then some .scratch else none

/-- The least offset of some that lies outside a window. -/
def outside (size : Nat) (offs : List Nat) : Option Nat :=
  offs.foldl (fun acc x =>
    if x < size then acc
    else match acc with
      | some y => some (min x y)
      | none => some x) none

def Copy.formatFault (c : Copy) : Option CopyFault :=
  let mk (sub a b : Nat) : CopyFault := { sub := BitVec.ofNat 16 sub, addr := BitVec.ofNat 64 (a + 256 * b) }
  if c.src.code ≠ 0 then some (mk 1 c.srcTid c.src.code)
  else if c.dst.code ≠ 0 then some (mk 1 c.dstTid c.dst.code)
  else if c.src.format ≠ c.dst.format ∨ c.src.block ≠ c.dst.block then some (mk 2 c.srcTid c.dstTid)
  else none

def Copy.extentFault (c : Copy) : Option CopyFault :=
  let mk (a : Nat) : CopyFault := { sub := 3#16, addr := BitVec.ofNat 64 a }
  if c.kind = .plain then
    if c.src.rows < c.r0 + c.dst.rows then some (mk (c.r0 + c.dst.rows))
    else if c.src.cols < c.c0 + c.dst.cols then some (mk (c.c0 + c.dst.cols))
    else if c.src.mx ∧ c.c0 % c.src.blockSize ≠ 0 then some (mk c.c0)
    else none
  else if c.dst.cols ≠ c.src.cols then some (mk c.dst.cols)
  else none

/-- R94: the indexed record's rows. -/
def Copy.indexBound (c : Copy) : Nat := if c.kind = .gather then c.src.rows else c.dst.rows

/-- The rows moved whose index entry is in bounds. -/
def Copy.goodRows (c : Copy) : List Nat :=
  if c.kind = .plain then List.range c.rowsMoved
  else (List.range c.index.length).filter fun k => c.index.getD k 0 < c.indexBound

/-- R94: the parts of a copy that lie in a window, in the order they are judged: the space, the offsets. The indexed side has the rows whose
entries are in bounds, the other side every row moved. -/
def Copy.parts (c : Copy) : List (Option Space × List Nat) :=
  let xs := List.range c.rowBytes
  let bs := List.range c.rowScales
  let all := List.range c.rowsMoved
  let from_ := if c.kind = .gather then c.goodRows else all
  let to_ := if c.kind = .scatter then c.goodRows else all
  [(if c.kind = .plain then none else some .shared, (List.range (4 * c.indexLen)).map (c.indexOff + ·)),
   (spaceOf c.src.space, from_.flatMap fun k => xs.flatMap (c.elemSrc k)),
   (spaceOf c.src.space, from_.flatMap fun k => bs.map (c.scaleSrc k)),
   (spaceOf c.dst.space, to_.flatMap fun k => xs.map (c.dst.rowByte (c.dstRow k))),
   (spaceOf c.dst.space, to_.flatMap fun k => bs.map (c.dst.scaleByte (c.dstRow k))),
   (if c.raises then some .scratch else none, (List.range 16).map (c.dst.sync.toNat + ·))]

def windowFault (s : State) (q : Squad) : List (Option Space × List Nat) → Option CopyFault
  | [] => none
  | (none, _) :: rest => windowFault s q rest
  | (some sp, offs) :: rest =>
    match outside (winSize s q sp) offs with
    | some x => some { sub := subWindow, addr := BitVec.ofNat 64 x }
    | none => windowFault s q rest

def Copy.indexFault (c : Copy) : Option CopyFault :=
  let mk (a : Nat) : CopyFault := { sub := 5#16, addr := BitVec.ofNat 64 a }
  if c.kind = .plain then none
  else if c.indexOff % 4 ≠ 0 then some (mk c.indexOff)
  else (c.index.find? (c.indexBound ≤ ·)).map mk

/-- R94: the fault of lowest sub-cause. -/
def Copy.recordFault (c : Copy) (s : State) : Option CopyFault :=
  match c.formatFault, c.extentFault, windowFault s (s.squadOr c.squad) c.parts with
  | some f, _, _ => some f
  | none, some f, _ => some f
  | none, none, some f => some f
  | none, none, none => c.indexFault

/-! ### Landing (R93) -/

def Copy.op (c : Copy) (p : Nat) : EngOp :=
  { key := c.squad, id := c.id, piece := p, kind := 1, epoch := c.epoch, clock := c.clock }

/-- R142: whether the poster counts as not arrived at a barrier of its group in the current phase. -/
def Copy.early (c : Copy) (s : State) (b : Nat) : Bool :=
  let phase := ((s.group? (groupOfSquad c.squad)).map fun g => (g.bar b).phase).getD 0
  c.arrivedAt.getD b none != some phase

/-- The copy of a number, and its core. -/
def State.findCopy (s : State) (id : Nat) : Option (Nat × Copy) :=
  s.cores.foldl (fun acc (k, c) =>
    match acc with
    | some x => some x
    | none => (c.copies.find? (·.id == id)).map fun x => (k, x)) none

def State.setCopy (s : State) (core : Nat) (c : Copy) : State :=
  s.modCore core fun k => { k with copies := k.copies.map fun x => if x.id == c.id then c else x }

/-- The runs of consecutive addresses. -/
def runsOf : List Nat → List (Nat × Nat)
  | [] => []
  | a :: as =>
    match runsOf as with
    | (b, n) :: rest => if a + 1 = b then (a, n + 1) :: rest else (a, 1) :: (b, n) :: rest
    | [] => [(a, 1)]

/-- A piece's page: for a read an even key, for a write an odd one. -/
def pageKey (va : Nat) (write : Bool) : Nat := va / 65536 * 2 + if write then 1 else 0

abbrev Pages := List (Nat × Nat × Nat × Bool)

/-- The physical address, key slot and watch bit of a byte. -/
def Pages.find (ps : Pages) (va : Nat) (write : Bool) : Nat × Nat × Bool :=
  match List.find? (fun p => p.1 == pageKey va write) ps with
  | some (_, pa, k, w) => (pa * 65536 + va % 65536, k, w)
  | none => (0, 0, false)

inductive PageOut where
  | ok (ps : Pages) (s : State)
  | wait (s : State)
  | bad (f : CopyFault) (s : State)

/-- R70–R77, R324: translates the pages of some bytes of a piece. -/
def copyPages (s : State) (core : Nat) (c : Copy) (p ctx : Nat) (acc : Pages) : List (Nat × Bool) → PageOut
  | [] => .ok acc s
  | (va, write) :: rest =>
    let bad (sub : BitVec 16) (s : State) : PageOut := .bad { sub := sub, addr := BitVec.ofNat 64 va } s
    if acc.any fun x => x.1 == pageKey va write then copyPages s core c p ctx acc rest
    else if 2 ^ 48 ≤ va then bad subTranslation s
    else match translate s { cluster := clusterOf core, use := .data } ctx va (if write then .write else .read) with
      | (.error f, s) => .wait (s.request va ctx (if write then 1 else 0) core f (.copy c.id p))
      | (.ok l, s) =>
        if !s.backs (slotOf ctx) l.pa then bad subUnbacked s
        else if !s.keyOk (slotOf ctx) l then bad subKey s
        else copyPages s core c p ctx (acc ++ [(pageKey va write, l.pa / 65536, l.key, l.watch)]) rest

/-- The main-memory bytes that a piece accesses. -/
def Copy.mainBytes (c : Copy) (p : Nat) : List (Nat × Bool) :=
  (if c.src.space = 0#8 then (c.newBytes p).map fun a => (a, false) else [])
    ++ if c.dst.space = 0#8 then (c.dstBytes p).map fun a => (a, true) else []

def Copy.ctx (c : Copy) (s : State) : Nat := s.ctxOf (s.squadOr c.squad)

/-- R80: a piece's pages: as issued, or translated now. -/
def piecePages (s : State) (core : Nat) (c : Copy) (p : Nat) : PageOut :=
  match c.issued.find? (·.piece == p) with
  | some i => .ok i.pages s
  | none => copyPages s core c p (c.ctx s) [] (c.mainBytes p)

/-- R327: the ranges that a piece's accesses are checked against: those at its issue. -/
def Copy.ranges (c : Copy) (s : State) (p : Nat) : Map (Map PhysRange) :=
  match c.issued.find? (·.piece == p) with
  | some i => i.ranges
  | none => s.watching

/-- R327: logs the watched bytes among some addresses. -/
def logPages (s : State) (ranges : Map (Map PhysRange)) (ctx kind : Nat) (ps : Pages) (write : Bool) (vas : List Nat) : State :=
  (runsOf (vas.filter fun a => (ps.find a write).2.2)).foldl (fun s (a, n) => s.logUnder ranges ctx kind (ps.find a write).1 n) s

/-- R162: what the bytes of a range were released with, that near copies wrote to main memory. -/
def State.copiedWith (s : State) (pa n : Nat) : Clock :=
  s.outcopies.foldl (fun d x => if pa < x.hi ∧ x.lo < pa + n then d.join (x.clock.getD Clock.zero) else d) Clock.zero

/-- R162: notes bytes that a near copy writes to main memory. -/
def noteOut (o : OutCopy) : List OutCopy → List OutCopy
  | [] => [o]
  | x :: xs =>
    if x.op = o.op ∧ x.hi = o.lo then { x with hi := o.hi } :: xs
    else if o.lo ≤ x.lo ∧ x.hi ≤ o.hi then noteOut o xs
    else x :: noteOut o xs

/-- The units that hold some addresses, each once. -/
def unitsAt (n : Nat) (vas : List Nat) : List Nat := vas.foldl (fun us a => addOnce us (a / n)) []

/-- R93, R127: reads the units of a piece's source that the copy has not read yet, each whole. -/
def readPiece (s : State) (c : Copy) (p : Nat) (ps : Pages) : Copy × State :=
  let new := c.newBytes p
  let us := unitsAt c.srcUnit new
  let take (val : Nat → Nat) : Copy := { c with taken := us.foldl (fun m u => mapSet m u (val u)) c.taken }
  match spaceOf c.src.space with
  | some sp =>
    let (_, s) := engineRead s (c.op p) sp new
    (take fun u => memNat (winMem s (s.squadOr c.squad) sp) (c.srcUnit * u) c.srcUnit, s)
  | none =>
    let at_ (u : Nat) : Nat × Nat × Bool := ps.find (c.srcUnit * u) false
    let got := us.foldl (fun d u => d.join (s.copiedWith (at_ u).1 c.srcUnit)) Clock.zero
    let note (o : OutOp) : OutOp := if o.id = c.id then { o with got := o.got.join got } else o
    let c' := take fun u => leNat (s.readPhysN (s.key (at_ u).2.1).keyId (at_ u).1 c.srcUnit)
    let s := logPages s (c.ranges s p) (c.ctx s) logCopyRead ps false new
    (c', s.modSquad c.squad fun q => { q with ops := q.ops.map note })

/-- Writes bytes of a piece to their destination. -/
def writePiece (s : State) (c : Copy) (p : Nat) (ps : Pages) (bs : List (Nat × Byte)) : State :=
  if bs.isEmpty then s
  else match spaceOf c.dst.space with
    | some sp => engineStore s (c.op p) sp (c.early s) bs
    | none =>
      let put (s : State) (a : Nat) (b : Byte) : State :=
        let (pa, k, _) := ps.find a true
        let s := (s.markStale (some c.id) c.id pa [b]).writePhys (s.key k).keyId pa b
        { s with outcopies := noteOut { lo := pa, hi := pa + 1, squad := c.squad, op := c.id, clock := none } s.outcopies }
      logPages (bs.foldl (fun s (a, b) => put s a b) s) (c.ranges s p) (c.ctx s) logCopyWrite ps true (bs.map (·.1))

/-- R93: the landing register falls. -/
def lowerLanding (s : State) (c : Copy) (f : Word64 → Word64) : State :=
  match c.landing with
  | some k => if s.opOpen c.squad c.id then engineWrite s c.squad fun fs => fs.writeS k (f (fs.readS k)) else s
  | none => s

/-- R93, R102, R150: the sync word rises by a piece's bytes. -/
def raiseSync (s : State) (c : Copy) (p n : Nat) : State :=
  if !c.raises then s
  else
    let q := s.squadOr c.squad
    let off := c.dst.sync.toNat
    let span := s.spanOf q
    let s := engineSync s (c.op p) off
    let w := readSync (winMem s q .scratch) off
    let s := s.modSpan span fun x => { x with arriving := mapUpd x.arriving off Clock.zero fun k => k.join (c.clock.addOp (opTok c.id p)) }
    let gen : Word32 := BitVec.ofNat 32 w.gen
    let note (o : OutOp) : OutOp := if o.id = c.id ∧ !o.gens.contains gen then { o with gens := o.gens ++ [gen] } else o
    putSync (s.modSquad c.squad fun q => { q with ops := q.ops.map note }) span off (w.arrive n)

/-- R308: the owner number of a slice's reservation. -/
def sliceOwner (c : Copy) (slice : Nat) : Nat := c.id * 2 ^ 32 + slice

/-- R95: a copy leaves the queue. -/
def dropCopy (s : State) (core : Nat) (c : Copy) : State :=
  let s := s.modCore core fun k => { k with copies := k.copies.filter (·.id != c.id) }
  let s := s.modCluster (clusterOf core) fun k => { k with queue := k.queue.filter fun r => !(r.cls == resCopy && r.owner / 2 ^ 32 == c.id) }
  releaseGroup (s.sealStale c.id) (groupOfSquad c.squad)

/-- R94: the sync word's FAULT flag, where the copy was to raise it and it lies in its window. -/
def flagSync (s : State) (c : Copy) : State :=
  let q := s.squadOr c.squad
  let off := c.dst.sync.toNat
  if !c.raises || off % 16 != 0 || winSize s q .scratch < off + 16 then s
  else
    let s := engineSync s (c.op c.pieces) off
    let w := readSync (winMem s q .scratch) off
    putSync s (s.spanOf q) off ({ w with flags := withFlag w.flags 1 }, false)

/-- R94: a copy faults. -/
def failCopy (s : State) (core : Nat) (c : Copy) (f : CopyFault) : State :=
  let s := flagSync (lowerLanding s c fun _ => 0#64) c
  dropCopy (completeOp s c.squad c.id fun o => { o with fault := some f }) core c

/-- R94: of the pieces that have not landed, each byte lands or not, as the device chooses. Log 19, DESIGN CHOICE. -/
def landSome (s : State) (core : Nat) (c : Copy) : State :=
  (((List.range c.pieces).filter fun p => !c.landed.contains p).foldl (fun (s, c) p =>
    match piecePages s core c p with
    | .ok ps s =>
      let (c, s) := readPiece s c p ps
      let bs := (c.bytes p).map fun b => (b.at_, c.landing? b)
      (writePiece s c p ps ((bs.zipIdx.filter fun (_, j) => s.freeBit 94 (8 * p + j)).map (·.1)), c)
    | _ => (s, c)) (s, c)).1

/-- R94: the faulting piece that comes first. -/
def Copy.firstBroken (c : Copy) : Option (Nat × CopyFault) :=
  c.broken.foldl (fun acc (p, f) =>
    match acc with
    | some (p', f') => if c.rank p < c.rank p' then some (p, f) else some (p', f')
    | none => some (p, f)) none

/-- Completion (R93), or the fault once every piece before the first faulting one has landed (R94). Log 19, DESIGN CHOICE. -/
def settleCopy (s : State) (core : Nat) (c : Copy) : State :=
  match c.firstBroken with
  | some (b, f) =>
    let before := c.due.filter fun p => c.rank p < c.rank b
    if before.all c.landed.contains then failCopy (landSome s core c) core c f else s.setCopy core c
  | none =>
    if c.landed.length = c.due.length then dropCopy (completeOp s c.squad c.id id) core c else s.setCopy core c

/-- R94: a piece is found to fault. -/
def breakPiece (s : State) (core : Nat) (c : Copy) (p : Nat) (f : CopyFault) : State :=
  settleCopy s core { c with broken := (p, f) :: c.broken }

/-- R308: units are returned when a slice's bytes have landed. -/
def returnSlice (s : State) (core : Nat) (c : Copy) (slice : Nat) : State :=
  if (c.due.filter (c.slice · == slice)).length = (c.landed.filter (c.slice · == slice)).length then
    s.giveBack (clusterOf core) resCopy (sliceOwner c slice)
  else s

/-- R322: the latency of a piece's read of main memory, kept for its critical partition's window: from its issue to its landing. -/
def noteLatency (s : State) (c : Copy) (p : Nat) : State :=
  if c.src.space ≠ 0#8 || (c.newBytes p).isEmpty then s
  else
    let ns := match c.issued.find? (·.piece == p) with
      | some i => s.ns - i.at_
      | none => 0
    s.modPart (slotOf (c.ctx s)) fun x => if x.critical && x.status == .sealed then { x with latencies := ns :: x.latencies } else x

/-- R93: one piece lands. Log 19, DESIGN CHOICE. -/
def landPiece (s : State) (core : Nat) (c : Copy) (p : Nat) (ps : Pages) : State :=
  let s := noteLatency s c p
  let (c, s) := readPiece s c p ps
  let s := writePiece s c p ps ((c.bytes p).map fun b => (b.at_, c.landing? b))
  let s := lowerLanding s c fun v => v - BitVec.ofNat 64 (c.size p)
  let s := raiseSync s c p (c.size p)
  let c := { c with landed := p :: c.landed, issued := c.issued.filter (·.piece != p) }
  settleCopy (returnSlice s core c (c.slice p)) core c

/-! ### The events -/

def notDue (name : String) : Out := .refused (.notDue name)

/-- R94, R95: the next copy of a core's queue starts. -/
def execCopyStart (core : Nat) (s : State) : Out :=
  match (s.core core).copies.find? (!·.started) with
  | none => notDue "COPY_START"
  | some c =>
    let s := s.setCopy core { c with started := true }
    match c.recordFault s with
    | some f => .next (failCopy s core c f)
    | none => .next s

/-- A piece that may go on: of a started copy, not landed, not known to fault, none before it known to fault, not waiting at a
page request. -/
def Copy.open_ (c : Copy) (s : State) (p : Nat) : Bool :=
  c.started && p < c.pieces && 0 < c.size p && !c.landed.contains p && !s.waitsFor (.copy c.id p)
    && match c.firstBroken with
      | some (b, _) => c.rank p < c.rank b
      | none => true

/-- R70: the first byte that a piece reads of LPDDR6 or expander memory. -/
def readsDram (s : State) (c : Copy) (p : Nat) (ps : Pages) : Option Nat :=
  if c.src.space ≠ 0#8 then none
  else (c.newBytes p).find? fun a =>
    match s.region (ps.find a false).1 with
    | .lpddr _ | .expander _ => true
    | _ => false

/-- R70: the first byte that a piece reads whose data cannot be corrected. -/
def lostByte (s : State) (c : Copy) (p : Nat) (ps : Pages) : Option Nat :=
  if c.src.space ≠ 0#8 then none else (c.newBytes p).find? fun a => !s.sound (ps.find a false).1 1

/-- R308: a piece lands once its slice's units are granted. -/
def landGranted (s : State) (core : Nat) (c : Copy) (p : Nat) (ps : Pages) (owner : Nat) : Out :=
  let asked := (s.reservation (clusterOf core) resCopy owner).isSome
  let (granted, s) := s.want (clusterOf core) resCopy owner
  if granted then .next (landPiece s core c p ps) else if asked then notDue "COPY_PIECE_LAND" else .next s

/-- R70, R93, R308. -/
def execCopyPieceLand (copy p : Nat) (dataOk : Bool) (s : State) : Out :=
  match s.findCopy copy with
  | none => notDue "COPY_PIECE_LAND"
  | some (core, c) =>
    let owner := sliceOwner c (c.slice p)
    if !c.open_ s p then notDue "COPY_PIECE_LAND"
    else match piecePages s core c p with
      | .wait s => .next s
      | .bad f s => .next (breakPiece s core c p f)
      | .ok ps s =>
        let lost (a : Nat) : Out := .next (breakPiece s core c p { sub := subDataLoss, addr := BitVec.ofNat 64 a })
        match lostByte s c p ps, readsDram s c p ps with
        | some a, _ => lost a
        | none, some a => if dataOk then landGranted s core c p ps owner else lost a
        | none, none => if dataOk then landGranted s core c p ps owner else notDue "COPY_PIECE_LAND"

/-- R80: a piece's translations are done: its accesses are issued. -/
def issuePiece (s : State) (core : Nat) (c : Copy) (p : Nat) : State :=
  match piecePages s core c p with
  | .wait s => s
  | .bad f s => breakPiece s core c p f
  | .ok ps s =>
    if ps.isEmpty || c.issued.any (·.piece == p) then s
    else s.setCopy core { c with issued := { piece := p, pages := ps, q := s.qcount, at_ := s.ns, ranges := s.watching } :: c.issued }

end Sys2Proof.Machine
end

