-- ==== Sys2Proof/Machine/Chain.lean ====
section
/-!
DEFINITION. Far engines and chains (R105–R109): entries, beats, completion in chain order, `chn.adv`, `chn.seq`, `chn.wait`.
-/
namespace Sys2Proof.Machine

/-! ### Entries (R106) -/

/-- R105: the partition whose far context a handle names. -/
def State.chainOwner (s : State) (h : Nat) : Option Nat := (List.range 16).find? fun k => s.ownsChain k h

/-- R109: the advance that covers the entry `n` places from the head. -/
def advanceAt : List Advance → Nat → Option Advance
  | [], _ => none
  | a :: as, n => if n < a.left then some a else advanceAt as (n - a.left)

/-- R106: an entry's fields; reserved ones count as zero (R6). -/
def parseEntry (slot id : Nat) (addr : Word64) (bs : List Byte) : FarEntry :=
  let f (at_ n : Nat) : Nat := leField bs at_ n
  { id := id, addr := addr, kind := f 8 1, ctx := slot * 256 + f 9 1, fence := f 10 1 % 2 == 1, notify := f 10 1 / 2 % 2 == 1,
    length := f 12 4, src := BitVec.ofNat 64 (f 16 8), dst := BitVec.ofNat 64 (f 24 8), params := BitVec.ofNat 64 (f 32 8),
    completion := BitVec.ofNat 64 (f 40 8), seq := BitVec.ofNat 64 (f 48 8 % 2 ^ 63), moved := 0, done := false, fault := none,
    aborted := false, queued := false, peers := [], comm := none }

/-- R321: whether a context exists and has not been ended. -/
def State.ctxRuns (s : State) (ctx : Nat) : Bool := (s.ctx? ctx).any fun c => c.ending.isNone

def codeBad : Nat := 0x30
def codeForeign : Nat := 0x31

/-- R106: why an entry halts its context before it moves a byte. Log 55, DEDUCED. -/
def FarEntry.defect (e : FarEntry) (s : State) : Option Nat :=
  let off (n : Nat) (w : Word64) : Bool := w.toNat % n != 0
  if 3 < e.kind then some codeBad
  else if e.kind = 0 ∧ (e.length % 4 ≠ 0 ∨ off 4 e.src ∨ off 4 e.dst) then some codeBad
  else if e.kind = 1 ∧ (e.length % 8 ≠ 0 ∨ off 8 e.dst) then some codeBad
  else if !s.ctxRuns e.ctx then some codeForeign
  else none

/-- R105, R161: how entry `i` of those in execution reaches its data. -/
def entryReach (s : State) (h i : Nat) (e : FarEntry) : Reach :=
  { farReach h e.id e.ctx with by_ := some e.id, poster := advanceAt (s.chain h).advances i }

inductive Fetched where
  | notDue
  | wait (s : State)
  /-- The context halts, with no entry. -/
  | halt (code : Nat) (s : State)
  | got (e : FarEntry) (next : Word64) (s : State)

/-- R106, R107: the entry at CHHEAD; a halt takes its place in chain order. Log 55, DEDUCED. -/
def fetchHead (s : State) (h : Nat) : Fetched :=
  let c := s.chain h
  match s.chainOwner h with
  | none => .notDue
  | some slot =>
    let halt (code : Nat) (s : State) : Fetched := if c.entries.isEmpty then .halt code s else .notDue
    let ctx := slot * 256 + c.ctx
    if !c.run || c.halted || c.pend ≤ c.entries.length || s.waitsFor (.far h 0) then .notDue
    else if c.atEnd || c.head.toNat % 64 ≠ 0 then halt codeBad s
    else if !s.ctxRuns ctx then halt codeForeign s
    else
      let (id, s) := s.fresh
      let r := { farReach h 0 ctx with by_ := some id, poster := advanceAt c.advances c.entries.length }
      match farRead s r (h / 64) c.head 64 with
      | .wait s => .wait s
      | .fail code _ s => halt (code.toNat % 256) s
      | .done bs s => .got (parseEntry slot id c.head bs) (BitVec.ofNat 64 (leField bs 0 8)) s

def haltChain (s : State) (h code : Nat) : State := s.modChain h fun c => { c with halted := true, fcode := code }

/-- R107: an entry joins those in execution, and CHHEAD follows it. -/
def beginEntry (s : State) (h : Nat) (e : FarEntry) (next : Word64) : State :=
  s.modChain h fun c => { c with head := next, atEnd := next == 0#64, entries := c.entries ++ [e] }

/-- R106, R107: the next entry of a chain, of a kind that `ok` accepts, is performed by `go`; a defect completes it at once. -/
def takeEntry (name : String) (h : Nat) (ok : Nat → Bool) (go : State → FarEntry → Word64 → Out) (s : State) : Out :=
  match fetchHead s h with
  | .notDue => notDue name
  | .wait s => .next s
  | .halt code s => .next (haltChain s h code)
  | .got e next s =>
    if !ok e.kind || (e.fence && !(s.chain h).entries.isEmpty) then notDue name
    else match e.defect s with
      | some code => .next (beginEntry s h { e with done := true, fault := some code } next)
      | none => go s e next

def beginMove (h : Nat) (s : State) (e : FarEntry) (next : Word64) : Out := .next (beginEntry s h { e with done := e.length == 0 } next)

/-- R106: kind 0, and the kinds that are none. -/
def execChainCopyEntry (h : Nat) (s : State) : Out := takeEntry "CHAIN_COPY_ENTRY" h (fun k => k == 0 || 3 < k) (beginMove h) s
/-- R106: kind 1. -/
def execChainFillEntry (h : Nat) (s : State) : Out := takeEntry "CHAIN_FILL_ENTRY" h (· == 1) (beginMove h) s

/-! ### Beats (R108) -/

def State.modEntry (s : State) (h id : Nat) (f : FarEntry → FarEntry) : State :=
  s.modChain h fun c => { c with entries := c.entries.map fun e => if e.id == id then f e else e }

/-- The place and the entry of the first one in execution that meets a condition. -/
def firstEntry (es : List FarEntry) (p : FarEntry → Bool) : Option (Nat × FarEntry) := (es.zipIdx.find? fun (e, _) => p e).map fun (e, i) => (i, e)

def FarEntry.moving (e : FarEntry) : Bool := e.kind ≤ 1 && !e.done

/-- R106: the bytes of a fill from an offset. -/
def fillBytes (v : Word64) (at_ n : Nat) : List Byte := (List.range n).map fun i => (leBytes 8 v.toNat).getD ((at_ + i) % 8) 0#8

/-- R108: one beat of an entry, of up to 64 bytes; the first of an entry whose source is no multiple of 8 ends at one, so that no 8-byte
unit is read in two beats (R127). Log 56, DEDUCED. -/
def moveBeat (s : State) (h i : Nat) (e : FarEntry) : State :=
  let r := entryReach s h i e
  let at_ (w : Word64) : Word64 := w + BitVec.ofNat 64 e.moved
  let n := min (64 - (if e.kind = 0 then (at_ e.src).toNat % 8 else 0)) (e.length - e.moved)
  let fail (code : BitVec 16) (s : State) : State := s.modEntry h e.id fun e => { e with done := true, fault := some (code.toNat % 256) }
  let put (s : State) (bs : List Byte) : State :=
    match farWrite s r (h / 64) (at_ e.dst) bs with
    | .wait s => s
    | .fail code _ s => fail code s
    | .done _ s => s.modEntry h e.id fun e => { e with moved := e.moved + n, done := e.moved + n == e.length }
  if e.kind = 1 then put s (fillBytes e.src e.moved n)
  else match farRead s r (h / 64) (at_ e.src) n with
    | .wait s => s
    | .fail code _ s => fail code s
    | .done bs s => put s bs

/-- Whether a far context has a beat to issue. -/
def hasWork (s : State) (h : Nat) : Bool := (firstEntry (s.chain h).entries FarEntry.moving).any fun (_, e) => !s.waitsFor (.far h e.id)

/-- R108: the context of an engine that the next beat serves, and the beats then left to it: the one being served, the next in
ascending order, or the first of a new round; those of WEIGHT 0 only where no other has work. Log 56, DEDUCED. -/
def nextServed (s : State) (engine : Nat) : Option FarRound :=
  let w (c : Nat) : Nat := (s.chain (8 * engine + c)).weight
  let work (c : Nat) : Bool := hasWork s (8 * engine + c)
  let now := (mapGet s.rounds engine).getD { ctx := 7, beats := 0 }
  if 0 < now.beats ∧ work now.ctx then some { now with beats := now.beats - 1 }
  else
    let order := (List.range 8).filter (now.ctx < ·) ++ (List.range 8).filter (· ≤ now.ctx)
    match order.find? fun c => work c && 0 < w c with
    | some c => some { ctx := c, beats := w c - 1 }
    | none => (order.find? work).map fun c => { ctx := c, beats := 0 }

/-- R108. -/
def execFarBeat (engine : Nat) (s : State) : Out :=
  match nextServed s engine with
  | none => notDue "FAR_BEAT"
  | some r =>
    let h := 8 * engine + r.ctx
    match firstEntry (s.chain h).entries FarEntry.moving with
    | none => notDue "FAR_BEAT"
    | some (i, e) => .next (moveBeat { s with rounds := mapSet s.rounds engine r } h i e)

/-! ### Completion (R107) -/

def FarEntry.value (e : FarEntry) : Word64 := if e.fault.isSome || e.aborted then mark63 e.seq else e.seq

/-- R109: the oldest advance loses an entry; its operation completes with its last. -/
def countAdvance (s : State) (h : Nat) : State :=
  match (s.chain h).advances with
  | [] => s
  | a :: rest =>
    if a.left ≤ 1 then completeOp (s.modChain h fun c => { c with advances := rest }) a.squad a.op id
    else s.modChain h fun c => { c with advances := { a with left := a.left - 1 } :: rest }

/-- R334: the parts of an event's payload that the manual lists without widths are 8 bytes each (log 20, DESIGN CHOICE). -/
def payload8 (xs : List Nat) : List Byte := xs.flatMap (leBytes 8)

/-- R107: the head entry is complete, its completion word written. -/
def endEntry (s : State) (h : Nat) (e : FarEntry) (fault : Option Nat) : State :=
  let e := { e with fault := fault }
  let c := s.chain h
  let clk := match advanceAt c.advances 0 with
    | some a => c.clock.join (a.clock.addOp (opTok a.op (e.id % 2 ^ 47)))
    | none => c.clock
  let s := s.modChain h fun c =>
    { c with entries := c.entries.drop 1, latest := e.value, pend := c.pend - 1, clock := clk, halted := c.halted || fault.isSome,
             fcode := fault.getD c.fcode }
  let s := (countAdvance s h).sealStale e.id
  match s.chainOwner h with
  | some slot =>
    if e.notify then s.postPart slot { kind := 6, tag := 0#16, status := 0, payload := payload8 [h, e.value.toNat] } else s
  | none => s

/-- R107. Log 55, DEDUCED. -/
def execChainEntryComplete (h : Nat) (s : State) : Out :=
  match (s.chain h).entries with
  | [] => notDue "CHAIN_ENTRY_COMPLETE"
  | e :: _ =>
    if !e.done || s.waitsFor (.far h e.id) then notDue "CHAIN_ENTRY_COMPLETE"
    else if e.completion = 0#64 || (s.ctx? e.ctx).isNone then .next (endEntry s h e e.fault)
    else match farWrite s (entryReach s h 0 e) (h / 64) e.completion (leBytes 8 e.value.toNat) with
      | .wait s => .next s
      | .fail code _ s => .next (endEntry s h e (some (e.fault.getD (code.toNat % 256))))
      | .done _ s => .next (endEntry s h e e.fault)

/-! ### chn.adv, chn.seq, chn.wait (R109) -/

def shChnAdv : Shape := { shX 4 with a := src1, b := src1, d := .reg 1, rule := ruleUni }
def shChnSeq : Shape := { shX 4 with a := src1, d := .reg 1, k := .asA, rule := fun d a b _ => d == .uniform && a.uniOrAbsent && b.uniOrAbsent }
def shChnWait : Shape := { shChnAdv with rule := fun d a b _ => d == .uniform && a == .uniform && b == .uniform }

def chainNo (e : Env) : Nat := e.x.a.w.toNat % 256

/-- R109: a handle outside the issuing partition. -/
def chainFault (e : Env) : Option LaneFault :=
  if e.s.ownsChain (slotOf (e.s.ctxOf e.q)) (chainNo e) then none else some (fault causeAccess 0x0004#16 (BitVec.ofNat 64 (chainNo e)))

/-- A chain instruction on a context of the partition. -/
def onChain (e : Env) (go : Nat → Eff) : Eff :=
  if !e.runs then e.after e.s
  else match chainFault e with
    | some f => .trap f
    | none => go (chainNo e)

/-- R109, R222: the advance; a region is tainted by it. Log 55, DEDUCED. -/
def chnAdvEff (e : Env) : Eff :=
  onChain e fun h =>
    if e.q.opsFull 4 then .wait e.s .post
    else
      let n := e.x.b.w.toNat % 2 ^ 32
      let (id, s) := e.s.fresh
      let (clk, s) := release s e.cx.key 4
      let s := pushOp s e.cx.key (OutOp.new id 4)
      let s := taint s e.cx.key
      let a : Advance := { squad := e.cx.key, op := id, left := n, clock := clk, epoch := e.q.epoch e.cx.key }
      let pend := ((s.chain h).pend + n) % 2 ^ 48
      let s := if n = 0 then completeOp s e.cx.key id (fun o => o) else s.modChain h fun c => { c with pend := pend, advances := c.advances ++ [a] }
      .done { s := s, result := .uniform (BitVec.ofNat 64 pend), faults := [] }

def chnSeqEff (e : Env) : Eff := onChain e fun h => e.result (.uniform (e.s.chain h).latest)

def chnWaitEff (e : Env) : Eff :=
  onChain e fun h =>
    let c := e.s.chain h
    if c.latest.toNat % 2 ^ 63 < e.x.b.w.toNat % 2 ^ 63 then .wait e.s .chain
    else .done { s := acquire e.s e.cx.key c.clock, result := .uniform c.latest, faults := [] }

/-- R109. -/
def execChnAdv (o : Ops) (s : State) : Out := issue shChnAdv false chnAdvEff o s
/-- R109. -/
def execChnSeq (o : Ops) (s : State) : Out := issue shChnSeq false chnSeqEff o s
/-- R109. -/
def execChnWait (o : Ops) (s : State) : Out := issue shChnWait false chnWaitEff o s

end Sys2Proof.Machine
end

