-- ==== Sys2Proof/Machine/ClauseArray.lean ====
section
/-!
DEFINITION. The clause array (R248–R261): its literals and columns, propagation, the ten commands, their completion.
-/
namespace Sys2Proof.Machine

/-! ### Columns and rows (R248) -/

/-- R248: whether a literal is true, false, or unassigned. -/
def Clause.litValue (c : Clause) (l : Lit) : Option Bool := (mapGet c.rows l.var).map fun r => r.val != l.neg

def Clause.inConflict (c : Clause) (ls : List Lit) : Bool := !ls.isEmpty && ls.all fun l => c.litValue l == some false

/-- R248: the literal that a unit column forces. -/
def Clause.forced (c : Clause) (ls : List Lit) : Option Lit :=
  if ls.any fun l => c.litValue l == some true then none
  else match ls.filter fun l => (c.litValue l).isNone with
    | [l] => some l
    | _ => none

/-- R256, R257: an assignment at the current level. -/
def Clause.assign (c : Clause) (l : Lit) (reason : Nat) : Clause :=
  { c with rows := mapSet c.rows l.var { val := !l.neg, level := c.level, reason := reason, pos := c.trail.length }, trail := c.trail ++ [l.var] }

/-- R257: one round over the unit columns of its start, given the variables it has assigned; the second number counts
assignments. Log 54, DEDUCED. -/
def Clause.round (c : Clause) (made : Nat) (fresh : List Nat) : List (Nat × Lit) → Clause × Nat
  | [] => (c, made)
  | (col, l) :: rest =>
    if fresh.contains l.var then
      if c.litValue l = some true then c.round made fresh rest else ({ c with conf := true, ccol := col }, made)
    else (c.assign l col).round (made + 1) (l.var :: fresh) rest

/-- R257: rounds until one assigns nothing or finds a conflict: the array, the assignments made, the rounds run. Log 54, DEDUCED. -/
def Clause.propagate (c : Clause) (made rounds : Nat) : Nat → Clause × Nat × Nat
  | 0 => (c, made, rounds)
  | fuel + 1 =>
    match c.columns.find? fun (_, ls) => c.inConflict ls with
    | some (col, _) => ({ c with conf := true, ccol := col }, made, rounds + 1)
    | none =>
      match c.columns.filterMap fun (col, ls) => (c.forced ls).map fun l => (col, l) with
      | [] => (c, made, rounds + 1)
      | us =>
        let (c', m) := c.round made [] us
        if c'.conf then (c', m, rounds + 1) else c'.propagate m (rounds + 1) fuel

/-- R255: a literal's encoding. -/
def Lit.code (l : Lit) : Nat := l.var + if l.neg then 2 ^ 31 else 0
def litOf (w : Nat) : Lit := { var := w % 1024, neg := w / 2 ^ 31 % 2 == 1 }
/-- R253: a literal with bits [30:10] nonzero, or a variable not below V. -/
def badLit (v w : Nat) : Bool := w / 1024 % 2 ^ 21 != 0 || v ≤ w % 1024

/-- R255: distinct literals in ascending variable order. -/
def insertLit (l : Lit) : List Lit → List Lit
  | [] => [l]
  | x :: xs => if x.var = l.var then x :: xs else if l.var < x.var then l :: x :: xs else x :: insertLit l xs

/-- R259: the record of a variable. -/
def Clause.record (c : Clause) (v : Nat) : Nat :=
  match mapGet c.rows v with
  | some r => v + 2 ^ 10 * (if r.val then 1 else 2) + 2 ^ 12 * r.level + 2 ^ 22 * r.reason + 2 ^ 34 * r.pos
  | none => v + 2 ^ 34 * 0x7FF

/-- R258. -/
def Clause.back (c : Clause) (level : Nat) : Clause :=
  let keep (v : Nat) : Bool := (mapGet c.rows v).any fun r => r.level ≤ level
  { c with rows := mapFilter c.rows fun _ r => r.level ≤ level, trail := c.trail.filter keep, level := level, conf := false, ccol := 0 }

/-! ### Posts (R249, R250) -/

def shCla (reads : Nat) (named : Bool) : Shape :=
  { shX 3 with
    a := if reads = 0 then .unused else src1, b := if reads = 2 then src1 else .unused, k := if reads = 1 then .asA else .asB, d := .reg 1,
    rule := fun d a b _ => (d == .absent || (named && d == .uniform)) && a.uniOrAbsent && b.uniOrAbsent }

def misuse (sub : BitVec 16) (addr : Nat) : LaneFault := fault causeClause sub (BitVec.ofNat 64 addr)

/-- What a command does: the array after it, its reply, its cycles (R261). -/
structure ClaDone where
  array : Clause
  reply : Nat
  cycles : Nat
  deriving DecidableEq, Repr

/-- R249–R251: the post of a function: it waits for the command before it, is checked, and runs. Log 53, DEDUCED. -/
def claPost (fn : Nat) (go : Env → Clause → Except LaneFault ClaDone × State) (e : Env) : Eff :=
  if !e.runs then e.after e.s
  else
    let cl := clusterOf (e.s.coreOf e.q)
    let k := e.s.cluster cl
    if e.q.opsFull 3 || k.clauseRun.isSome then .wait e.s .post
    else if k.clauseOwner ≠ some e.q.groupKey then .trap (fault causeAccess 0x0201#16 0#64)
    else match go e k.clause with
      | (.error f, s) => .trapWith s f
      | (.ok r, s) =>
        let (id, s) := s.fresh
        let (_, s) := release s e.cx.key 1
        let run : ClaRun := { squad := e.cx.key, id := id, d := e.cx.o.d, reply := BitVec.ofNat 64 r.reply, cycles := r.cycles, fn := fn }
        let s := (s.ask cl resClause id).modCluster cl fun k => { k with clause := r.array, clauseRun := some run }
        e.after (pushOp s e.cx.key { OutOp.new id 3 with replies := if e.cx.o.d = .none then [] else [e.cx.o.d] })

/-- A command without memory access, with its check. -/
def command (fn : Nat) (check : Env → Clause → Option LaneFault) (run : Env → Clause → ClaDone) : Env → Eff :=
  claPost fn fun e c =>
    match check e c with
    | some f => (.error f, e.s)
    | none => (.ok (run e c), e.s)

def noCheck (_ : Env) (_ : Clause) : Option LaneFault := none
def aBits (e : Env) (n : Nat) : Nat := e.x.a.w.toNat % 2 ^ n
def bBits (e : Env) (n : Nat) : Nat := e.x.b.w.toNat % 2 ^ n

/-! ### The commands -/

/-- R254. -/
def clrCheck (e : Env) (_ : Clause) : Option LaneFault :=
  if aBits e 11 = 0 ∨ 1024 < aBits e 11 then some (misuse 0x0001#16 (aBits e 11))
  else if bBits e 13 = 0 ∨ 4096 < bBits e 13 then some (misuse 0x0001#16 (bBits e 13))
  else none
def clrRun (e : Env) (_ : Clause) : ClaDone := { array := Clause.cleared (aBits e 11) (bBits e 13), reply := 0, cycles := 256 }

/-- R254. -/
def execClaClr (o : Ops) (s : State) : Out := issue (shCla 2 false) false (command 0 clrCheck clrRun) o s

/-- R253: the entries of a literal list from an offset, its terminator among them, or the first that passes the window. -/
def listEntries (m : Memory) (size off : Nat) : Nat → Except Nat (List Nat)
  | 0 => .ok []
  | fuel + 1 =>
    if size < off + 4 then .error off
    else
      let w := memNat m off 4
      if w = 0xFFFFFFFF then .ok [w] else (listEntries m size (off + 4) fuel).map (w :: ·)

/-- R253: the variable of the first entry of a list that names the other polarity of one before it. -/
def tautology (seen : List Nat) : List Nat → Option Nat
  | [] => none
  | w :: ws =>
    if seen.any fun x => x % 1024 == w % 1024 && x / 2 ^ 31 != w / 2 ^ 31 then some (w % 1024) else tautology (w :: seen) ws

/-- R253: the misuse of a list, lowest sub-cause first. Log 53, DEDUCED. -/
def listMisuse (c : Clause) (col off : Nat) (lits : List Nat) (ended : Bool) : Option LaneFault :=
  if c.cols ≤ col then some (misuse 0x0002#16 col)
  else match lits.find? (badLit c.vars), tautology [] lits with
    | some w, _ => some (misuse 0x0003#16 w)
    | none, some v => some (misuse 0x0004#16 v)
    | none, none => if ended then none else some (misuse 0x0005#16 off)

/-- R252, R253, R255. Log 53, DEDUCED. -/
def ldcGo (e : Env) (c : Clause) : Except LaneFault ClaDone × State :=
  let off := bBits e 21
  let col := aBits e 12
  if off % 4 ≠ 0 then (.error (fault causeMisaligned 0x0001#16 (BitVec.ofNat 64 off)), e.s)
  else match listEntries (winMem e.s e.q .shared) (winSize e.s e.q .shared) off 1025 with
    | .error x => (.error (fault causeAccess 0x0001#16 (BitVec.ofNat 64 x)), e.s)
    | .ok ws =>
      match loadWin e.s e.cx.key (lowLane (e.cx.lanes &&& e.q.live)) .shared off (4 * ws.length) 4 .plain with
      | (.error f, s) => (.error f, s)
      | (.ok _, s) =>
        let lits := ws.filter (· != 0xFFFFFFFF)
        match listMisuse c col off lits (ws.contains 0xFFFFFFFF) with
        | some f => (.error f, s)
        | none =>
          let ls := lits.foldl (fun acc w => insertLit (litOf w) acc) []
          let columns := if ls.isEmpty then mapErase c.columns col else mapSet c.columns col ls
          (.ok { array := { c with columns := columns }, reply := ls.length, cycles := 4 + ceilDiv lits.length 8 }, s)

/-- R255. -/
def execClaLdc (o : Ops) (s : State) : Out := issue (shCla 2 true) false (claPost 2 ldcGo) o s

/-- R253, R256. -/
def decCheck (e : Env) (c : Clause) : Option LaneFault :=
  let w := aBits e 32
  if badLit c.vars w then some (misuse 0x0003#16 w)
  else if (mapGet c.rows (w % 1024)).isSome then some (misuse 0x0006#16 w)
  else if c.level = 1023 then some (misuse 0x0007#16 1023)
  else if c.conf then some (misuse 0x000A#16 c.ccol)
  else none
def decRun (e : Env) (c : Clause) : ClaDone :=
  { array := { c with level := c.level + 1 }.assign (litOf (aBits e 32)) 0xFFF, reply := c.level + 1, cycles := 4 }

/-- R256. -/
def execClaDec (o : Ops) (s : State) : Out := issue (shCla 1 true) false (command 3 decCheck decRun) o s

/-- R257. -/
def propRun (_ : Env) (c : Clause) : ClaDone :=
  let (c', made, rounds) := { c with conf := false, ccol := 0 }.propagate 0 0 (c.vars + 2)
  { array := c', reply := (if c'.conf then 2 ^ 31 + c'.ccol else 0) + made * 2 ^ 16, cycles := 4 + 4 * rounds }

/-- R257. -/
def execClaProp (o : Ops) (s : State) : Out := issue (shCla 0 true) false (command 4 noCheck propRun) o s

def backCheck (e : Env) (c : Clause) : Option LaneFault := if c.level < aBits e 10 then some (misuse 0x0008#16 (aBits e 10)) else none
def backRun (e : Env) (c : Clause) : ClaDone :=
  let c' := c.back (aBits e 10)
  { array := c', reply := c'.trail.length, cycles := 4 }

/-- R258. -/
def execClaBack (o : Ops) (s : State) : Out := issue (shCla 1 true) false (command 5 backCheck backRun) o s

/-- R259, R260, R261: a command that only reads. -/
def reading (f : Env → Clause → Nat) (e : Env) (c : Clause) : ClaDone := { array := c, reply := f e c, cycles := 2 }

def trlCheck (e : Env) (c : Clause) : Option LaneFault := if c.trail.length ≤ aBits e 11 then some (misuse 0x0009#16 (aBits e 11)) else none

/-- R259. -/
def execClaTrl (o : Ops) (s : State) : Out :=
  issue (shCla 1 true) false (command 6 trlCheck (reading fun e c => c.record (c.trail.getD (aBits e 11) 0))) o s

def cflCheck (e : Env) (c : Clause) : Option LaneFault := if c.cols ≤ aBits e 12 then some (misuse 0x0002#16 (aBits e 12)) else none
def cflReply (e : Env) (c : Clause) : Nat :=
  match ((mapGet c.columns (aBits e 12)).getD [])[bBits e 12]? with
  | some l => l.code
  | none => 0xFFFFFFFF

/-- R259. -/
def execClaCfl (o : Ops) (s : State) : Out := issue (shCla 2 true) false (command 7 cflCheck (reading cflReply)) o s

def valCheck (e : Env) (c : Clause) : Option LaneFault := if c.vars ≤ aBits e 10 then some (misuse 0x0003#16 (aBits e 10)) else none

/-- R259. -/
def execClaVal (o : Ops) (s : State) : Out := issue (shCla 1 true) false (command 8 valCheck (reading fun e c => c.record (aBits e 10))) o s

/-- R259. -/
def execClaLvl (o : Ops) (s : State) : Out :=
  issue (shCla 0 true) false (command 9 noCheck (reading fun _ c => c.level + 2 ^ 16 * c.trail.length)) o s

/-- R260. -/
def execClaStat (o : Ops) (s : State) : Out :=
  issue (shCla 0 true) false
    (command 10 noCheck (reading fun _ c => c.cols + 2 ^ 16 * c.vars + 2 ^ 32 * (if c.conf then c.ccol else 0) + 2 ^ 44 * boolNat c.conf)) o s

/-! ### Completion (R251, R261) -/

/-- R308: the command draws current from its grant on; the reply is written at the last of its cycles. Log 53, DEDUCED. -/
def execClaCommandComplete (cl : Nat) (s : State) : Out :=
  match (s.cluster cl).clauseRun with
  | none => notDue "CLA_COMMAND_COMPLETE"
  | some r =>
    match s.reservation cl resClause r.id with
    | none => notDue "CLA_COMMAND_COMPLETE"
    | some v =>
      if !v.granted || s.cycle + 1 < v.at_ + r.cycles then notDue "CLA_COMMAND_COMPLETE"
      else
        let s := (s.giveBack cl resClause r.id).modCluster cl fun k => { k with clauseRun := none }
        let s := engineWrite s r.squad fun f => writeResult f r.d (.uniform r.reply)
        .next (releaseGroup (completeOp s r.squad r.id id) (groupOfSquad r.squad))

end Sys2Proof.Machine
end

