-- ==== Sys2Proof/Machine/Collective.lean ====
section
/-!
DEFINITION. Collectives (R110, R111, R337, R338). What the other participants bring is the event's argument.
-/
namespace Sys2Proof.Machine

/-! ### Parameters (R110) -/

structure Params where
  comm : Nat
  count : Nat
  rank : Nat
  format : Nat
  red : Nat
  op : Nat
  deriving DecidableEq, Repr

def FarEntry.collective (e : FarEntry) : Params :=
  let w := e.params.toNat
  { comm := w / 2 ^ 40, count := w / 2 ^ 32 % 256, rank := w / 2 ^ 24 % 256, format := w / 2 ^ 16 % 256, red := w / 2 ^ 8 % 16, op := w % 256 }

/-- R110: participants. -/
def Params.n (p : Params) : Nat := p.count + 1
/-- R110: whether the operation reduces. -/
def Params.reduces (p : Params) : Bool := p.op ≤ 1
/-- R110: the format of the elements, and their bytes. -/
def Params.fmt (p : Params) : Option Fmt :=
  if p.format = 4 then some fp32 else if p.format = 5 then some fp16 else if p.format = 6 then some bf16 else none
def Params.size (p : Params) : Nat := if p.format = 4 then 4 else 2

/-- R110: the bytes of a participant's source and destination blocks. -/
def Params.srcLen (p : Params) (len : Nat) : Nat := if p.op = 1 ∨ p.op = 3 then p.n * len else len
def Params.dstLen (p : Params) (len : Nat) : Nat := if p.op = 2 ∨ p.op = 3 then p.n * len else len

/-- R110: where byte x of the destination comes from: the offset in a participant's source, and the only participant it comes from
where the operation does not reduce. -/
def Params.offset (p : Params) (len x : Nat) : Nat :=
  if p.op = 0 then x else if p.op = 1 then p.rank * len + x else if p.op = 2 then x % len else p.rank * len + x % len
def Params.block (len x : Nat) : Nat := x / len

/-! ### Agreement (R110, R337, R338) -/

/-- R338: the communicator of a partition. -/
def commKey (slot comm : Nat) : Nat := slot * 2 ^ 24 + comm
def Comm.device (c : Comm) (rank : Nat) : Nat := leField c.list (8 * rank) 1 % 64

/-- R337: the ports that reach a device from a partition. -/
def State.route (s : State) (slot device : Nat) : BitVec 12 :=
  let p := s.part slot
  match s.routes.find? fun (_, r) => p.fabid != 0 && r.fabid == p.fabid && r.device == device with
  | some (_, r) => r.ports &&& p.floe
  | none => 0#12

/-- The ports that a collective's traffic to a rank uses; a rank on this device uses none. -/
def commPorts (s : State) (slot : Nat) (c : Comm) (rank : Nat) : Option (BitVec 12) :=
  if c.device rank = s.podNumber then none else some (s.route slot (c.device rank))

/-- The ranks of a communicator that stand on this device. -/
def Comm.here (s : State) (c : Comm) (rank : Nat) : Bool := c.device rank == s.podNumber

/-- A participant on this device: its far context, its place among the entries there, its entry. -/
structure Member where
  chain : Nat
  place : Nat
  entry : FarEntry
  deriving DecidableEq, Repr

def FarEntry.joining (e : FarEntry) : Bool := e.kind == 2 && !e.done

/-- R110: the participants of a collective on this device that have begun: the far contexts of the partition whose next entry of the
kind names the communicator. Log 57, DESIGN CHOICE. -/
def members (s : State) (slot comm : Nat) : List Member :=
  s.chains.filterMap fun (h, c) =>
    if s.chainOwner h != some slot then none
    else (firstEntry c.entries FarEntry.joining).bind fun (i, e) =>
      if e.collective.comm = comm ∧ e.length ≠ 0 then some { chain := h, place := i, entry := e } else none

/-- What an entry compares with its peers. -/
def FarEntry.asPeer (e : FarEntry) (c : Option Comm) (source : List Byte) : Peer :=
  let p := e.collective
  { rank := p.rank, op := p.op, red := p.red, format := p.format, count := p.count, length := e.length, listAgrees := e.comm == c,
    source := source }

/-- R110: whether two participants name the same operation. -/
def samePeer (x y : Peer) : Bool :=
  x.op == y.op && x.red == y.red && x.format == y.format && x.count == y.count && x.length == y.length && x.listAgrees && y.listAgrees

/-- R110, R337, R338: whether the participants agree: those on other devices that have joined, and those on this one. A LENGTH that is no
multiple of a listed FORMAT's element size, and a FORMAT that differs, end an all-gather or all-to-all too (log 57, DESIGN CHOICE). -/
def agrees (s : State) (slot : Nat) (e : FarEntry) (all : List Peer) : Bool :=
  let p := e.collective
  match e.comm with
  | none => false
  | some c =>
    c.count == p.n && p.op ≤ 3 && (!p.reduces || (p.fmt.isSome && p.red ≤ 2)) && (p.fmt.isNone || e.length % p.size == 0)
      && all.length == p.n && ((List.range p.n).all fun k => all.any (·.rank == k))
      && ((List.range p.n).all fun k => commPorts s slot c k != some 0#12)
      && all.all fun x => samePeer x (e.asPeer e.comm [])

/-! ### Data (R110) -/

/-- R110: the sources in rank order. -/
def sourcesOf (n : Nat) (all : List Peer) : List (List Byte) :=
  (List.range n).map fun k => ((all.find? (·.rank == k)).map (·.source)).getD []

/-- R110: an element of a source, widened exactly. -/
def widen (p : Params) (bs : List Byte) (off : Nat) : Nat :=
  match p.fmt with
  | some f => (deliver fp32 .near (f.decode (leField bs off p.size))).bits
  | none => 0

/-- R110: one more participant's element in a reduction (maxima and minima by R194). Log 58, DEDUCED. -/
def Params.fold (p : Params) (x y : Nat) : Nat :=
  (if p.red = 0 then fAdd fp32 .near x y else fMinMax fp32 (p.red == 1) x y).bits

/-- R110, R111: the reduction of the elements at an offset over some sources. Log 58, DEDUCED. -/
def reduceAt (p : Params) (srcs : List (List Byte)) (off : Nat) : List Byte :=
  match srcs, p.fmt with
  | s :: rest, some f =>
    leBytes p.size (deliver f .near (fp32.decode (rest.foldl (fun x t => p.fold x (widen p t off)) (widen p s off)))).bits
  | _, _ => []

/-- R110: a participant's destination block. -/
def destOf (p : Params) (len : Nat) (srcs : List (List Byte)) : List Byte :=
  if p.reduces then (List.range (len / p.size)).flatMap fun i => reduceAt p srcs (p.offset len (i * p.size))
  else (List.range (p.dstLen len)).map fun x => (srcs.getD (Params.block len x) []).getD (p.offset len x) 0#8

/-! ### The events -/

def collReach (s : State) (h i : Nat) (e : FarEntry) : Reach :=
  { entryReach s h i e with logRead := logCollective, logWrite := logCollective }

/-- R110, R111: every participant on this device ends with bit 63 set. -/
def abortAll (s : State) (ms : List Member) : State :=
  ms.foldl (fun s m => s.modEntry m.chain m.entry.id fun x => { x with done := true, aborted := true }) s

/-- How the participants' sources, or their destinations, are reached: all, or one waits, or one faults. -/
inductive Reached (α : Type) where
  | all (v : α) (s : State)
  | wait (s : State)
  | fault (m : Member) (code : BitVec 16) (s : State)

/-- R110: the sources of the participants on this device. -/
def readSources (s : State) : List Member → Reached (List Peer)
  | [] => .all [] s
  | m :: ms =>
    match farRead s (collReach s m.chain m.place m.entry) (m.chain / 64) m.entry.src (m.entry.collective.srcLen m.entry.length) with
    | .wait s => .wait s
    | .fail code _ s => .fault m code s
    | .done bs s =>
      match readSources s ms with
      | .all rest s => .all (m.entry.asPeer m.entry.comm bs :: rest) s
      | r => r

/-- R110: their destinations. -/
def writeDests (s : State) (srcs : List (List Byte)) : List Member → Reached Unit
  | [] => .all () s
  | m :: ms =>
    match farWrite s (collReach s m.chain m.place m.entry) (m.chain / 64) m.entry.dst (destOf m.entry.collective m.entry.length srcs) with
    | .wait s => .wait s
    | .fail code _ s => .fault m code s
    | .done _ s => writeDests s srcs ms

/-- R107, R110: a participant's fault ends its entry; for the others it is as if it were killed (R111, log 58, DEDUCED). -/
def faultMember (s : State) (ms : List Member) (m : Member) (code : BitVec 16) : State :=
  (abortAll s (ms.filter (· != m))).modEntry m.chain m.entry.id fun x => { x with done := true, fault := some (code.toNat % 256) }

/-- R110: whether every rank has joined: those on this device by their entries, the others by the events. -/
def complete? (s : State) (c : Comm) (n : Nat) (ms : List Member) (far : List Peer) : Bool :=
  (List.range n).all fun k => if c.here s k then ms.any (·.entry.collective.rank == k) else far.any (·.rank == k)

/-- R110: the data move, for every participant on this device together. -/
def moveCollective (s : State) (slot : Nat) (e : FarEntry) (ms : List Member) (far : List Peer) : State :=
  if !agrees s slot e (ms.map (fun m => m.entry.asPeer e.comm []) ++ far) then abortAll s ms
  else match readSources s ms with
    | .wait s => s
    | .fault m code s => faultMember s ms m code
    | .all own s =>
      match writeDests s (sourcesOf e.collective.n (own ++ far)) ms with
      | .wait s => s
      | .fault m code s => faultMember s ms m code
      | .all _ s => ms.foldl (fun s m => s.modEntry m.chain m.entry.id fun x => { x with done := true }) s

/-- R110: a participant with some peers of other devices joined: it waits for the others, or the collective goes on. -/
def performCollective (s : State) (h : Nat) (e : FarEntry) (more : List Peer) : State :=
  let p := e.collective
  let slot := slotOf e.ctx
  let s := s.modEntry h e.id fun x => { x with peers := x.peers ++ more }
  let ms := members s slot p.comm
  let far := ms.flatMap (·.entry.peers)
  match e.comm with
  | none => abortAll s (ms.filter (·.chain == h))
  | some c => if complete? s c p.n ms far || p.n ≤ ms.length + far.length then moveCollective s slot e ms far else s

/-- R338: the communicator that an entry names, as it stands. -/
def withComm (s : State) (e : FarEntry) : FarEntry := { e with comm := mapGet s.comms (commKey (slotOf e.ctx) e.collective.comm) }

/-- R110: the entry that waits for peers goes on, or the next entry of the chain begins. Log 57, DESIGN CHOICE. -/
def execChainCollectiveEntry (h : Nat) (peers : List Peer) (s : State) : Out :=
  let name := "CHAIN_COLLECTIVE_ENTRY"
  match firstEntry (s.chain h).entries FarEntry.joining with
  | some (_, e) => if s.waitsFor (.far h e.id) then notDue name else .next (performCollective s h e peers)
  | none =>
    takeEntry name h (· == 2) (fun s e next =>
      let e := withComm s e
      if e.length = 0 then .next (beginEntry s h { e with done := true } next)
      else .next (performCollective (beginEntry s h e next) h e peers)) s

/-- R111: what an element of the output range holds after a kill, by a free choice: `none` for its prior value. Log 58, DEDUCED. -/
def killedElement (s : State) (p : Params) (len i unit : Nat) (srcs : List (List Byte)) : Option (List Byte) :=
  let choice := (s.freeWord 111 (p.rank * 2 ^ 48 + i)).toNat % (2 * p.n + 1)
  let off := p.offset len (i * unit)
  let part (k : Nat) : List Byte := ((srcs.getD k []).drop off).take unit
  if choice = 0 then none
  else if !p.reduces then some (part (Params.block len (i * unit)))
  else if choice ≤ p.n then some (part (choice - 1))
  else some (reduceAt p (srcs.take (choice - p.n)) off)

/-- R111: a killed collective: the participants' entries end aborted; the output range of each holds what R111 allows. -/
def killEntry (s : State) (slot : Nat) (e : FarEntry) : State :=
  let p := e.collective
  let unit := if p.fmt.isSome then p.size else 1
  let ms := members s slot p.comm
  let far := ms.flatMap (·.entry.peers)
  let own := match readSources s ms with
    | .all own _ => own
    | _ => []
  let source (k : Nat) : List Byte :=
    match (own ++ far).find? (·.rank == k) with
    | some x => x.source
    | none => (List.range (p.srcLen e.length)).map fun x => s.freeByte 111 (k * 2 ^ 48 + x)
  let srcs := (List.range p.n).map source
  let write (m : Member) (s : State) (j : Nat) : State :=
    match killedElement s m.entry.collective e.length j unit srcs with
    | none => s
    | some bs =>
      match farWrite s (collReach s m.chain m.place m.entry) (m.chain / 64) (m.entry.dst + BitVec.ofNat 64 (j * unit)) bs with
      | .done _ s => s
      | _ => s
  let like := ms.all fun m => samePeer (m.entry.asPeer e.comm []) (e.asPeer e.comm [])
  let s := if like && !own.isEmpty then
      ms.foldl (fun s m => (List.range (p.dstLen e.length / unit)).foldl (write m) s) s
    else s
  abortAll s ms

/-- R111: another participant of the entry that waits is killed. -/
def execCollectivePeerKill (h rank : Nat) (s : State) : Out :=
  match firstEntry (s.chain h).entries FarEntry.joining with
  | none => notDue "COLLECTIVE_PEER_KILL"
  | some (_, e) =>
    if rank = e.collective.rank || e.collective.count < rank then notDue "COLLECTIVE_PEER_KILL" else .next (killEntry s (slotOf e.ctx) e)

/-- R337: whether a collective's traffic crosses a port. -/
def crosses (s : State) (e : FarEntry) (port : Nat) : Bool :=
  match e.comm with
  | none => false
  | some c => (List.range e.collective.n).any fun k => ((commPorts s (slotOf e.ctx) c k).getD 0#12).getLsbD port

/-- R337: a failed link kills every collective that crosses it. -/
def execFloeLinkFail (port : Nat) (s : State) : Out :=
  if 12 ≤ port then notDue "FLOE_LINK_FAIL"
  else
    let hit (s : State) (h : Nat) : State :=
      match firstEntry (s.chain h).entries fun e => e.joining && crosses s e port with
      | some (_, e) => killEntry s (slotOf e.ctx) e
      | none => s
    .next ((s.chains.map (·.1)).foldl hit s)

end Sys2Proof.Machine
end

