-- ==== Sys2Proof/Machine/Schedule.lean ====
section
/-!
DEFINITION. The grid scheduler (R268–R275, R280, R281): grid-launch entries, admission, cancellation, placement, completion.
-/
namespace Sys2Proof.Machine

/-! ### What a partition has (R317, R320) -/

/-- R320: the clusters a partition names, a slice member's those of its leader. -/
def State.clustersOf (s : State) (slot : Nat) : BitVec 64 :=
  match (s.part slot).leader with
  | some l => (s.part l).clusters
  | none => (s.part slot).clusters

/-- R320: those it may use now: a slice member holds them in its turn. -/
def State.clustersNow (s : State) (slot : Nat) : BitVec 64 :=
  match (s.part slot).leader with
  | some l => if (s.part l).turn = slot then (s.part l).clusters else 0#64
  | none => (s.part slot).clusters

/-- R274: the dies that hold one of some clusters, ascending. -/
def diesOf (m : BitVec 64) : List Nat := (List.range 4).filter fun d => (m.toNat / 2 ^ (16 * d)) % 2 ^ 16 != 0

/-! ### Launch descriptors (R269, R270) -/

def parseDesc (bs : List Byte) : LaunchDesc :=
  let f (at_ n : Nat) : Nat := leField bs at_ n
  let w (at_ : Nat) : Word64 := BitVec.ofNat 64 (f at_ 8)
  let flag (k : Nat) : Bool := f 84 2 / 2 ^ k % 2 == 1
  { entry := w 0, spill := w 8, trig := w 16, dep0 := w 24, val0 := w 32, dep1 := w 40, val1 := w 48, ngx := f 56 2, ngy := f 58 2,
    ngz := f 60 2, shared := f 64 4, scratch := f 68 4, lanes := f 72 2, nsq := f 74 1, barriers := f 75 1, vregs := f 76 1,
    sregs := f 77 1, aregs := f 78 1, spanSz := f 79 1, spSize := f 80 4, matrix := flag 0, pair := flag 1, clause := flag 2,
    spanSync := flag 3, k1 := flag 4 }

def LaunchDesc.groups (d : LaunchDesc) : Nat := d.ngx * d.ngy * d.ngz

/-- R340: within the resource floor. -/
def LaunchDesc.inFloor (d : LaunchDesc) : Bool :=
  d.vregs ≤ 64 && d.shared ≤ 2 ^ 18 && d.nsq ≤ 16 && d.barriers ≤ 8 && d.scratch ≤ 2 ^ 23

/-- R270: sub-cause 0x0020 does not hold. Log 59, DEDUCED. -/
def LaunchDesc.ok (d : LaunchDesc) (length : Nat) : Bool :=
  d.entry.toNat % 4 == 0 && d.ngx != 0 && d.ngy != 0 && d.ngz != 0 && d.nsq != 0 && d.nsq ≤ 32 && 32 * (d.nsq - 1) + 1 ≤ d.lanes
    && d.lanes ≤ 32 * d.nsq && d.shared ≤ Config.sharedBytes && length ≤ d.shared && d.scratch ≤ Config.scratchBytes && d.barriers ≤ 16
    && d.spanSz ≤ 64 && d.spSize % Config.spillUnit == 0 && d.spSize != 0
    && d.trig.toNat % 8 == 0 && d.dep0.toNat % 8 == 0 && d.dep1.toNat % 8 == 0 && (d.k1 || d.inFloor)

/-- R275: the groups of a descriptor that the clusters of a mask on a die hold together, everything free. Log 59, DEDUCED. -/
def dieCapacity (m : BitVec 64) (die : Nat) (d : LaunchDesc) : Nat :=
  let clusters := ((List.range 16).filter fun c => m.getLsbD (16 * die + c)).length
  let regs := min (Config.physV / (d.nsq * Config.floorV)) (min (Config.physS / (d.nsq * Config.floorS)) (Config.physA / (d.nsq * Config.floorA)))
  let perCore := min (32 / d.nsq) (min regs (Config.sharedBytes / sharedSize d.shared))
  let perCluster := if d.pair then 2 else if d.matrix then 4 else 4 * perCore
  clusters * if d.clause then min 1 perCluster else perCluster

/-- R138, R274: the most groups that one moment places on the die of place k of n, of spans k, k + n, …; the last span of a grid may be
smaller. -/
def LaunchDesc.together (d : LaunchDesc) (k n : Nat) : Nat :=
  let spans := ceilDiv d.groups d.perSpan
  if !d.spanSync then 1
  else if k + 1 = spans ∧ spans ≤ n then d.groups - k * d.perSpan
  else d.perSpan

/-- R270: sub-cause 0x0021 does not hold. Log 59, DEDUCED. -/
def placeable (s : State) (slot : Nat) (d : LaunchDesc) : Bool :=
  let m := s.clustersOf slot
  let dies := diesOf m
  let spans := ceilDiv d.groups d.perSpan
  let on (k : Nat) : Nat := ceilDiv (spans - k) dies.length
  !dies.isEmpty && dies.zipIdx.all fun (die, k) =>
    on k == 0 || (on k * roundUp d.scratch Config.scratchUnit ≤ Config.scratchBytes && d.together k dies.length ≤ dieCapacity m die d)

/-! ### Grid-launch entries (R268) -/

def codeDescriptor : Nat := 0x20
def codeUnplaceable : Nat := 0x21

/-- R268, R271: a grid joins its queue. -/
def appendGrid (s : State) (h : Nat) (e : FarEntry) (d : LaunchDesc) (args : List Byte) : State :=
  let (id, s) := s.fresh
  let q := e.params.toNat % 16
  let g : Grid :=
    { ctx := e.ctx, chain := h, entryAddr := e.addr, entryId := e.id, seq := e.seq, queue := q, desc := d, descAddr := e.dst, args := args,
      status := .queued, acquired := Clock.zero, next := 0, groupsEnded := 0, failed := false, triggered := false }
  let s := { s with grids := mapSet s.grids id g }
  s.modCtx e.ctx fun c => { c with queues := mapUpd c.queues q GridQueue.zero fun k => { k with waiting := k.waiting ++ [id] } }

/-- R268: a kind-3 entry whose grid has not joined its queue. -/
def FarEntry.launching (e : FarEntry) : Bool := e.kind == 3 && !e.done && !e.queued

/-- R268, R270: entry `i` of those in execution is performed: its reads may wait (R78), a fault of them is the entry's. Log 59, DEDUCED. -/
def launchEntry (s : State) (h i : Nat) (e : FarEntry) : State :=
  let r := entryReach s h i e
  let fail (code : Nat) (s : State) : State := s.modEntry h e.id fun e => { e with done := true, fault := some code }
  if 4096 < e.length ∨ e.length % 8 ≠ 0 ∨ 16 ≤ e.params.toNat ∨ e.dst.toNat % 128 ≠ 0 then fail codeDescriptor s
  else match farRead s r (h / 64) e.dst 128 with
    | .wait s => s
    | .fail code _ s => fail (code.toNat % 256) s
    | .done bs s =>
      match farRead s r (h / 64) e.src e.length with
      | .wait s => s
      | .fail code _ s => fail (code.toNat % 256) s
      | .done args s =>
        let d := parseDesc bs
        if !d.ok e.length then fail codeDescriptor s
        else if !placeable s (slotOf e.ctx) d then fail codeUnplaceable s
        else appendGrid (s.modEntry h e.id fun e => { e with queued := true }) h e d args

/-- R268: the entry whose reads waited goes on, or the next entry of the chain begins. -/
def execChainGridLaunchEntry (h : Nat) (s : State) : Out :=
  let name := "CHAIN_GRID_LAUNCH_ENTRY"
  match firstEntry (s.chain h).entries FarEntry.launching with
  | some (i, e) => if s.waitsFor (.far h e.id) then notDue name else .next (launchEntry s h i e)
  | none =>
    takeEntry name h (· == 3) (fun s e next => .next (launchEntry (beginEntry s h e next) h (s.chain h).entries.length e)) s

/-! ### Admission (R272, R273) -/

/-- Where a grid's entry stands when the grid is over; an abort sets bit 63 without halting the context. -/
def endLaunch (s : State) (g : Grid) (aborted : Bool) : State :=
  s.modEntry g.chain g.entryId fun e => { e with done := true, aborted := aborted }

def leaveQueue (s : State) (id : Nat) (g : Grid) (n : Nat) : State :=
  s.modCtx g.ctx fun c =>
    { c with queues := mapMod c.queues g.queue fun k => { k with waiting := k.waiting.filter (· != id), admitted := (k.admitted + n) % 2 ^ 32 } }

/-- R272: a cancelled grid's trigger word is written, and then its entry completes. A trigger word that cannot be written is left as it is
(log 22, DEDUCED). -/
def settleCancelled (s : State) (id : Nat) : State :=
  let s := tryTrigger s id
  match s.grid? id with
  | some g => if g.triggered then endLaunch s g true else s
  | none => s

/-- R272: a grid is cancelled. -/
def cancelGrid (s : State) (id : Nat) : State :=
  match s.grid? id with
  | none => s
  | some g => settleCancelled ((leaveQueue s id g 0).modGrid id fun g => { g with status := .cancelled, failed := true }) id

/-- R149, R272: what the writers of a context's completion words have released, which reading its dependence words acquires. Log 32,
DESIGN CHOICE. -/
def depClock (s : State) (ctx : Nat) : Clock :=
  (s.chains.filter fun (_, c) => c.ctx == ctx).foldl (fun c (_, h) => c.join h.clock) Clock.zero

/-- R272, R273: a head is admitted; its squads come after what its dependences acquired. -/
def admitGrid (s : State) (id : Nat) : State :=
  match s.grid? id with
  | none => s
  | some g =>
    let c := if g.desc.dep0 = 0#64 ∧ g.desc.dep1 = 0#64 then Clock.zero else depClock s g.ctx
    (leaveQueue s id g 1).modGrid id fun g => { g with status := .admitted, acquired := c }

/-- R272: how a dependence stands. -/
inductive Dep where
  | met | unmet | cancelled
  deriving DecidableEq, Repr

/-- R272: reads a dependence word; one that cannot be read is not met (log 22, DEDUCED). -/
def readDep (s : State) (id word : Nat) (g : Grid) (addr val : Word64) : Dep × State :=
  if addr = 0#64 then (.met, s)
  else match plainRead s (gridReach g.chain g.ctx id word) (g.chain / 64) addr 8 with
    | .done bs s =>
      let v := leNat bs
      (if 2 ^ 63 ≤ v then .cancelled else if val.toNat % 2 ^ 63 ≤ v then .met else .unmet, s)
    | .wait s => (.unmet, s)
    | .fail _ _ s => (.unmet, s)

def readDeps (s : State) (id : Nat) (g : Grid) : Dep × State :=
  match readDep s id 1 g g.desc.dep0 g.desc.val0 with
  | (.cancelled, s) => (.cancelled, s)
  | (d, s) =>
    match readDep s id 2 g g.desc.dep1 g.desc.val1 with
    | (.cancelled, s) => (.cancelled, s)
    | (.met, s) => (d, s)
    | (.unmet, s) => (.unmet, s)

/-- A queue's head that may be considered: its priority, its grid. -/
structure Head where
  prio : Nat
  grid : Nat
  deriving DecidableEq, Repr

/-- R272: before another: a higher priority, then appended earlier. -/
def Head.before (a b : Head) : Bool := b.prio < a.prio || (a.prio == b.prio && a.grid < b.grid)
def insertHead (h : Head) : List Head → List Head
  | [] => [h]
  | x :: xs => if h.before x then h :: x :: xs else x :: insertHead h xs

/-- R271–R273: the heads of enabled queues, best first. Log 60, DEDUCED. -/
def State.heads (s : State) : List Head :=
  let all := s.ctxs.flatMap fun (_, c) => c.queues.filterMap fun (_, k) =>
    match k.en, k.waiting with
    | true, g :: _ => some { prio := k.prio, grid := g }
    | _, _ => none
  all.foldl (fun l h => insertHead h l) []

/-- R273: a head becomes an admission request. -/
def requestGrid (s : State) (id : Nat) (g : Grid) : State :=
  (s.modGrid id fun g => { g with status := .requested }).postPart (slotOf g.ctx)
    { kind := 3, tag := 0#16, status := 0, payload := payload8 [g.ctx, g.queue, g.entryAddr.toNat, g.descAddr.toNat] }

/-- R272, R273: the first head that is admissible or to be cancelled; `open_` while no better admissible head waits for its host's
answer, which goes first. Log 60, DEDUCED. -/
def tryHeads (s : State) (open_ : Bool) : List Head → Bool × State
  | [] => (false, s)
  | h :: hs =>
    match s.grid? h.grid with
    | none => tryHeads s open_ hs
    | some g =>
      match readDeps s h.grid g with
      | (.cancelled, s) => (true, cancelGrid s h.grid)
      | (.unmet, s) => tryHeads s open_ hs
      | (.met, s) =>
        if g.status = .queued ∧ s.firmware.assisted.getD 2 false then (true, requestGrid s h.grid g)
        else if g.status = .requested ∨ !open_ then tryHeads s false hs
        else (true, admitGrid s h.grid)

/-- R272, R273. With no head admissible, only a page request for a dependence word may come of it. -/
def execGridAdmit (s : State) : Out :=
  match tryHeads s true s.heads with
  | (true, s') => .next s'
  | (false, s') => if s'.requests = s.requests then notDue "GRID_ADMIT" else .next s'

/-! ### Placement (R274, R275) -/

/-- R274: the die of a span: the one where its window stands once a group of it is placed. -/
def spanDie (s : State) (slot grid span : Nat) : Option Nat :=
  match s.span? (spanKey grid span) with
  | some p => some p.die
  | none =>
    let dies := diesOf (s.clustersOf slot)
    dies[span % dies.length]?

/-- R275, R317: whether a core may take a group of a grid now. -/
def coreTakes (s : State) (g : Grid) (die core : Nat) : Bool :=
  core < Config.cores && dieOf core == die && (s.clustersNow (slotOf g.ctx)).getLsbD (clusterOf core)
    && !(s.cluster (clusterOf core)).retired && fitsCore s core g.desc

def gridPrio (s : State) (g : Grid) : Nat := ((s.ctx? g.ctx).map fun c => (c.queue g.queue).prio).getD 0

def Grid.unplaced (g : Grid) : Bool := g.status == .admitted && !g.failed && g.next < g.groupCount

/-- R274, R276: places groups from `n` on, one per core of the list. Log 60, DEDUCED. -/
def placeOn (s : State) (id : Nat) (g : Grid) (die : Nat) : List Nat → Nat → Option State
  | [], _ => some s
  | c :: cs, n =>
    if !coreTakes s g die c then none
    else match openSpan s id (n / g.desc.perSpan) die g.desc with
      | none => none
      | some s => placeOn (placeGroup s id n c g.desc g.args (((s.ctx? g.ctx).map (·.level)).getD .user)) id g die cs (n + 1)

/-- R138, R274: the groups placed at one moment: the next, or with SPANSYNC all of its span. -/
def Grid.batch (g : Grid) : Nat := if g.desc.spanSync then min g.desc.perSpan (g.groupCount - g.next) else 1

/-- R275: whether k groups of a grid, from `n` on, fit a die together. -/
def placeAll (s : State) (id : Nat) (g : Grid) (die : Nat) : Nat → Nat → Bool
  | 0, _ => true
  | k + 1, n =>
    match ((List.range 64).map (64 * die + ·)).find? (coreTakes s g die) with
    | none => false
    | some c => ((placeOn s id g die [c] n).map fun s => placeAll s id g die k (n + 1)).getD false

def fitsSomewhere (s : State) (id : Nat) (g : Grid) : Bool :=
  match spanDie s (slotOf g.ctx) id (g.next / g.desc.perSpan) with
  | some die => placeAll s id g die g.batch g.next
  | none => false

/-- R275: whether a grid of higher priority of the partition waits for resources. Log 60, DEDUCED. -/
def yieldsTo (s : State) (g : Grid) : Bool :=
  s.grids.any fun (k, x) => x.unplaced && slotOf x.ctx == slotOf g.ctx && gridPrio s g < gridPrio s x && !fitsSomewhere s k x

/-- R274–R276. Log 60, DEDUCED. -/
def execGroupPlace (id : Nat) (cores : List Nat) (s : State) : Out :=
  let name := "GROUP_PLACE"
  match s.grid? id with
  | none => notDue name
  | some g =>
    match spanDie s (slotOf g.ctx) id (g.next / g.desc.perSpan) with
    | none => notDue name
    | some die =>
      let paused := ((s.ctx? g.ctx).map fun c => c.pausedAt.isSome || c.pausing.isSome).getD true
      if !g.unplaced || cores.length ≠ g.batch || paused || yieldsTo s g then notDue name
      else match placeOn s id g die cores g.next with
        | some s => .next (s.modGrid id fun g => { g with next := g.next + cores.length })
        | none => notDue name

/-! ### Completion (R163, R281) -/

/-- R163: whether copies or far entries that a grid's squads posted are still to be performed. Log 61, DEDUCED. -/
def gridPending (s : State) (id : Nat) : Bool :=
  let mine (key : Nat) : Bool := gridOfGroup (groupOfSquad key) == id
  s.cores.any (fun (_, c) => c.copies.any fun k => mine k.squad) || s.chains.any fun (_, c) => c.advances.any fun a => mine a.squad

/-- R281: whether every group has ended; those of an ended grid that were never placed do not count (R289). Log 61, DEDUCED. -/
def gridOver (s : State) (id : Nat) (g : Grid) : Bool :=
  g.status == .admitted && (g.failed || g.next == g.groupCount) && s.groups.all fun (_, x) => x.grid != id || x.status == .ended

/-- R272, R280, R281: the trigger comes first; a cancelled grid's may have waited for its page. Log 61, DEDUCED. -/
def execGridComplete (id : Nat) (s : State) : Out :=
  let name := "GRID_COMPLETE"
  match s.grid? id with
  | none => notDue name
  | some g =>
    if g.status = .cancelled ∧ !g.triggered then
      let s' := settleCancelled s id
      if ((s'.grid? id).map (·.triggered)) == some true || s'.requests ≠ s.requests then .next s' else notDue name
    else if !gridOver s id g || gridPending s id then notDue name
    else if !g.triggered then
      let s' := tryTrigger s id
      if ((s'.grid? id).map (·.triggered)) == some true || s'.requests ≠ s.requests then .next s' else notDue name
    else
      let s := s.modGrid id fun g => { g with status := .complete }
      let s := { s with spans := mapFilter s.spans fun _ p => p.grid != id, groups := mapFilter s.groups fun _ x => x.grid != id }
      .next (endLaunch s g g.failed)

/-! ### The end of a context (R321) -/

def gridsOf (s : State) (ctx : Nat) : List (Nat × Grid) := s.grids.filter fun (_, g) => g.ctx == ctx

/-- R321: grids not yet admitted are cancelled, the others end; translations and demand-filled ranges go. -/
def endContext (s : State) (ctx : Nat) : State :=
  let stop (s : State) (x : Nat × Grid) : State :=
    match x.2.status with
    | .queued | .requested | .granted => cancelGrid s x.1
    | .admitted => endGrid s x.1
    | .complete | .cancelled => s
  let s := dropTlb ((gridsOf s ctx).foldl stop s) ctx 0 true
  s.modCtx ctx fun c => { c with demand := [], ending := some (s.qcount + 2) }

/-- What is left of a grid goes. -/
def removeGrid (s : State) (x : Nat × Grid) : State :=
  let (id, g) := x
  let s := if g.status = .admitted || !g.triggered then endLaunch s g true else s
  let mine (k : Nat) : Bool := gridOfGroup (groupOfSquad k) == id
  let core (_ : Nat) (c : Core) : Core :=
    let gone := (c.tileOwner.map gridOfGroup) == some id
    { c with copies := c.copies.filter (fun k => !mine k.squad), fifo := c.fifo.filter (fun k => !mine k.squad),
             rs := c.rs.filter (fun k => !mine k.squad), tileOwner := if gone then none else c.tileOwner,
             tiles := if gone then [] else c.tiles, runs := mapFilter c.runs fun _ r => !mine r.squad }
  let cluster (_ : Nat) (k : Cluster) : Cluster :=
    let k := if (k.clauseOwner.map gridOfGroup) == some id then { k with clauseOwner := none, clause := Clause.cleared 1024 4096 } else k
    { k with clauseRun := if k.clauseRun.any fun r => mine r.squad then none else k.clauseRun }
  { s with
    grids := mapErase s.grids id, cores := mapAll s.cores core, clusters := mapAll s.clusters cluster,
    spans := mapFilter s.spans fun _ p => p.grid != id, groups := mapFilter s.groups fun _ p => p.grid != id,
    squads := mapFilter s.squads fun k _ => !mine k }

/-- R111, R321: every access of an ended context has completed, and its number is free; the collectives that its entries joined are killed.
Log 74, DEDUCED. -/
def removeContext (s : State) (ctx : Nat) : State :=
  let s := (gridsOf s ctx).foldl removeGrid s
  let s := (s.chains.flatMap fun (_, c) => c.entries.filter fun e => e.joining && e.ctx == ctx).foldl (fun s e => killEntry s (slotOf ctx) e) s
  let stop (e : FarEntry) : FarEntry := if e.ctx = ctx ∧ !e.done then { e with done := true, aborted := true } else e
  { s with
    chains := mapAll s.chains fun _ c => { c with entries := c.entries.map stop },
    requests := mapFilter s.requests (fun _ r => r.ctx != ctx), tlb := s.tlb.filter (fun t => t.ctx != ctx),
    icinvs := s.icinvs.filter (fun i => i.ctx != ctx), firn := s.firn.filter (fun e => e.ctx != ctx),
    transReqs := s.transReqs.filter (fun t => t.ctx != ctx), ctxs := mapErase s.ctxs ctx }

/-- R321: the ended contexts whose time has come. -/
def removeEnded (s : State) : State :=
  let due (c : Context) : Bool := c.ending.any fun q => q ≤ s.qcount
  ((s.ctxs.filter fun (_, c) => due c).map (·.1)).foldl removeContext s

end Sys2Proof.Machine
end

