-- ==== Sys2Proof/Machine/Pages.lean ====
section
/-!
DEFINITION. Page walks and page requests (R73–R79), demand-filled ranges, QCOUNT and the moraine (R80, R81).
-/
namespace Sys2Proof.Machine

/-! ### Frames (R79, R81) -/

/-- R79: a frame joins a pool of at most 2^20; one that is in it stays. Log 80, DESIGN CHOICE. -/
def addFrame (pool : List Nat) (f : Nat) : List Nat := if pool.contains f || Config.poolFrames ≤ pool.length then pool else pool ++ [f]

/-- R81: a frame is released to the pool of the partition that owns it, in pieces of 64 KiB; a full pool takes none (log 80, DESIGN CHOICE). -/
def releaseFrame (s : State) (m : MoraineEntry) : State :=
  let n := 2 ^ pageBits m.size
  let s := s.zeroFrames m.frame n
  let owner := ((List.range 16).find? fun k => s.ownsRange k m.frame n).getD m.slot
  s.modPart owner fun p => { p with pool := (List.range (n / 65536)).foldl (fun l i => addFrame l (m.frame + 65536 * i)) p.pool }

/-! ### QCOUNT (R80, R81) -/

/-- R80: every access issued before QCOUNT took its value has completed. -/
def quiesced (s : State) : Bool := s.cores.all fun (_, c) => c.copies.all fun k => k.issued.all fun i => s.qcount ≤ i.q

/-- R81: the releases due, in stamp order. -/
def releaseDue (s : State) : Nat → State
  | 0 => s
  | n + 1 =>
    match s.moraine with
    | m :: rest => if m.stamp < s.qcount then releaseDue (releaseFrame { s with moraine := rest } m) n else s
    | [] => s

/-- R321: the events that waited for QCOUNT. -/
def postDelayed (s : State) : State :=
  let due := s.delayed.filter fun d => d.2.1 ≤ s.qcount
  due.foldl (fun s d => s.post d.1 d.2.2) { s with delayed := s.delayed.filter fun d => s.qcount < d.2.1 }

/-- R80, R81, R321. -/
def execQcountAdvance (s : State) : Out :=
  if !quiesced s then notDue "QCOUNT_ADVANCE"
  else
    let s := { s with qcount := s.qcount + 1 }
    .next (postDelayed (removeEnded (releaseDue s s.moraine.length)))

/-! ### Answers (R76–R78, R128) -/

/-- R21, R76: a fetch that was answered Fail: the lanes that wait at its program counter raise Access. -/
def failFetch (s : State) (key lane va : Nat) : State :=
  match s.squad? key with
  | none => s
  | some q =>
    let l := q.lane lane
    if l.wait ≠ .page then s
    else
      let m := maskOf fun i => (q.lane i).issuable && (q.lane i).wait == .page && (q.lane i).pc == l.pc && (q.lane i).handler == l.handler
      let at_ := if l.pc.toNat / 65536 = va / 65536 then l.pc.toNat else va / 65536 * 65536
      let cx : Cx := { key := key, lanes := m, pc := l.pc, len := 4, words := [], sForm := false, o := blankOps }
      match trapAll s cx q 1 (fault causeAccess 0x0002#16 (BitVec.ofNat 64 at_)) with
      | .next s => s
      | _ => s

/-- R78: what a Fail does to one that waits. -/
def failWaiter (r : PageReq) (s : State) : Walker → State
  | .copy id p =>
    match s.findCopy id with
    | none => s
    | some (core, c) =>
      let hit (x : Nat × Bool) : Bool := x.1 / 65536 == r.va / 65536 && x.2 == (r.kind == 1)
      let va := (((c.mainBytes p).find? hit).map (·.1)).getD r.va
      breakPiece s core c p { sub := subTranslation, addr := BitVec.ofNat 64 va }
  | .far h id => { s with refused := .far h id :: s.refused }
  | .grid g w => { s with refused := .grid g w :: s.refused }
  | .fetch key lane => failFetch s key lane r.va
  | .spill key _ => endGrid s (gridOfGroup (groupOfSquad key))

/-- R78: a page request is answered. -/
def answerRequest (s : State) (entry : Nat) (fail : Bool) : State :=
  match mapGet s.requests entry with
  | none => s
  | some r =>
    let s := { s with requests := mapErase s.requests entry }
    if fail then r.waiters.foldl (failWaiter r) s else s

/-! ### The steward (R79) -/

/-- R72, R79: the leaf of a demand-filled page. -/
def demandLeaf (frame : Nat) (d : DemandRange) : Nat := frame + 0x17 + 2 ^ 57 * (d.key % 64) + 2 ^ 63 * boolNat d.watch

/-- R79: a frame, the oldest of the pool (log 80, DESIGN CHOICE), the leaf, Retry; else Fail. Log 65, DEDUCED. -/
def serve (s : State) (entry : Nat) (r : PageReq) : State :=
  match r.range, (s.part r.slot).pool with
  | some d, f :: rest =>
    if r.outcome = 1 ∧ r.level = 4 ∧ r.kind ≠ 2 then
      let s := (s.modPart r.slot fun p => { p with pool := rest }).zeroFrames f 65536
      answerRequest { s with mem := memWriteN s.mem r.entryAddr (leBytes 8 (demandLeaf f d)) } entry false
    else answerRequest s entry true
  | _, _ => answerRequest s entry true

/-- R78, R79: in hardware mode. -/
def execStewardPageService (entry : Nat) (s : State) : Out :=
  match mapGet s.requests entry with
  | some r => if r.assisted then notDue "STEWARD_PAGE_SERVICE" else .next (serve s entry r)
  | none => notDue "STEWARD_PAGE_SERVICE"

/-! ### Walks (R73, R75) -/

/-- What an entry of a far context, or the read at CHHEAD (entry 0), translates next: the context, the address, whether for a write. -/
def farTarget (s : State) (h id : Nat) : Option (Nat × Word64 × Bool) :=
  let c := s.chain h
  if id = 0 then (s.chainOwner h).bind fun slot => if c.run && !c.halted && !c.atEnd then some (slot * 256 + c.ctx, c.head, false) else none
  else (c.entries.find? (·.id == id)).map fun e =>
    let at_ (w : Word64) : Word64 := w + BitVec.ofNat 64 e.moved
    if e.done then (e.ctx, e.completion, true)
    else if e.kind = 0 ∨ e.kind = 2 then (e.ctx, at_ e.src, false)
    else (e.ctx, at_ e.dst, e.kind == 1)

/-- R76: the lanes of a squad at a lane's program counter stall on a fetch. -/
def fetchStalls (s : State) (key lane : Nat) : State :=
  s.modSquad key fun q =>
    let l := q.lane lane
    q.onLanes (maskOf fun i => (q.lane i).issuable && (q.lane i).pc == l.pc && (q.lane i).handler == l.handler) fun l => { l with wait := .page }

/-- R76: the walk of a fetch: only Not valid becomes a page request, and the lanes at that address stall. Log 65, DEDUCED. -/
def walkFetch (s : State) (key lane : Nat) (q : Squad) : Out :=
  let va := (q.lane lane).pc.toNat
  let ctx := s.ctxOf q
  match translate s { cluster := clusterOf (s.coreOf q), use := .fetch } ctx va .fetch with
  | (.ok _, s) => .next s
  | (.error f, s) =>
    .next (if f.outcome = 1 then fetchStalls (s.request va ctx 2 (s.coreOf q) f (.fetch key lane)) key lane else s)

/-- R73, R77: a walk ends: its translation is cached, or a page request stands; a copy's piece is issued with it (R80). -/
def execPageWalk (w : Walker) (s : State) : Out :=
  let name := "PAGE_WALK"
  if s.waitsFor w then notDue name
  else match w with
    | .copy id p =>
      match s.findCopy id with
      | some (core, c) => if c.open_ s p then .next (issuePiece s core c p) else notDue name
      | none => notDue name
    | .far h id =>
      match farTarget s h id with
      | some (ctx, a, write) =>
        if isScratch a then notDue name
        else match reachLeaf s (farReach h id ctx) write a.toNat with
          | .done _ s | .wait s => .next s
          | .fail _ _ _ => notDue name
      | none => notDue name
    | .grid g word =>
      match s.grid? g with
      | none => notDue name
      | some x =>
        if word = 0 then
          if !gridTriggers s g then notDue name else .next (if x.status = .cancelled then settleCancelled s g else tryTrigger s g)
        else if x.status = .complete || x.status = .cancelled || x.status = .admitted then notDue name
        else .next (readDeps s g x).2
    | .fetch key lane =>
      match s.squad? key with
      | some q => if q.residency = .resident && (q.lane lane).issuable && (q.lane lane).pc.toNat < 2 ^ 48 then walkFetch s key lane q else notDue name
      | none => notDue name
    | .spill key off =>
      match s.squad? key with
      | some q =>
        match spillLeaf s key q off with
        | .done _ s => .next s
        | .wait _ | .dead _ => notDue name
      | none => notDue name

end Sys2Proof.Machine
end

