-- ==== Sys2Proof/Machine/Partition.lean ====
section
/-!
DEFINITION. Partitions, keys, whiteout and its receipt, range logs, the management semaphore (R317–R330).
-/
namespace Sys2Proof.Machine

/-! ### Shapes and checks (R319) -/

/-- R319: uniform sources, a uniform D or none, a uniform guard, the uniformity rule, hypervisor level. -/
def shPart1 : Shape := { shSys with a := src1, d := .reg 1, level := .hypervisor }
def shPart2 : Shape := { shPart1 with b := src1 }
def shPart3 : Shape := { shPart2 with c := src1 }

def accessSub (sub : BitVec 16) (n : Nat) : LaneFault := fault causeAccess sub (BitVec.ofNat 64 n)
def slotStateFault (slot : Nat) : LaneFault := accessSub 0x0301#16 slot
def notOwnedFault (off : Nat) : LaneFault := accessSub 0x0302#16 off
def recordFault (off : Nat) : LaneFault := accessSub 0x0303#16 off
def powerFault (watts : Nat) : LaneFault := accessSub 0x0304#16 watts
def keyBoundFault (slot : Nat) : LaneFault := accessSub 0x0305#16 slot
def windowFaultAt (off : Nat) : LaneFault := accessSub 0x0306#16 off

/-- R319: the squads at partition or key instructions that have not ended. -/
def partLine (s : State) : List Nat := s.partQueue.filter fun k => (s.squad? k).any fun q => !q.ended

/-- R319: another partition or key instruction is running, or was issued before. -/
def otherRuns (s : State) (key : Nat) : Bool :=
  (partLine s).head?.any (· != key) || s.parts.any fun (_, p) => p.whiteout.any fun w => w.squad != key && w.ended.isNone

/-- R319: a squad takes the last place of the line, or keeps the one it has. -/
def standIn (s : State) (key : Nat) : State :=
  let line := partLine s
  { s with partQueue := if line.contains key then line else line ++ [key] }

/-- R319: a squad's instruction has left the line. -/
def leaveLine (s : State) (key : Nat) : State := { s with partQueue := (partLine s).filter (· != key) }

/-- R319: one at a time, in issue order; one that has to wait keeps its place before the others. Log 71, DEDUCED. -/
def oneAtATime (go : Env → Eff) (e : Env) : Eff :=
  if !e.runs then e.result (.kept false)
  else if otherRuns e.s e.cx.key then .wait (standIn e.s e.cx.key) .post
  else match go { e with s := leaveLine e.s e.cx.key } with
    | .wait s w => .wait { s with partQueue := e.cx.key :: s.partQueue } w
    | x => x

/-- The low bits of A, of B. -/
def Env.aLow (e : Env) (n : Nat) : Nat := e.x.a.w.toNat % 2 ^ n
def Env.bLow (e : Env) (n : Nat) : Nat := e.x.b.w.toNat % 2 ^ n

/-- A reply, over a state. -/
def Env.reply (_e : Env) (s : State) (v : Nat) : Eff := .done { s := s, result := .uniform (BitVec.ofNat 64 v), faults := [] }

/-- R116, R319: whether bytes at a shared offset lie in the group's window. -/
def Env.inShared (e : Env) (off : Word64) (n : Nat) : Bool := off.toNat + n ≤ winSize e.s e.q .shared

def Env.firstLane (e : Env) : Nat := lowLane (e.cx.lanes &&& e.q.live)

/-- R319, R323: reads bytes at a shared offset as a group-scope load. -/
def loadBytes (e : Env) (off : Word64) (n : Nat) (go : List Byte → State → Eff) : Eff :=
  if !e.inShared off n then .trap (windowFaultAt off.toNat)
  else match loadWin e.s e.cx.key e.firstLane .shared off.toNat n 1 .plain with
    | (.error f, s) => .trapWith s f
    | (.ok bs, s) => go bs s

/-- R323: writes bytes at a shared offset, a store by the squad. -/
def storeBytes (e : Env) (s : State) (off : Word64) (bs : List Byte) (go : State → Eff) : Eff :=
  match storeWin s e.cx.key e.firstLane .shared off.toNat 1 bs .plain with
  | (some f, s) => .trapWith s f
  | (none, s) => go s

/-- The first offset at or after `at_` of a byte that is not zero. -/
def firstNonzero (at_ : Nat) : List Byte → Option Nat
  | [] => none
  | b :: bs => if b = 0#8 then firstNonzero (at_ + 1) bs else some at_

def digestBytes (d : BitVec 256) : List Byte := leBytes 32 d.toNat

/-! ### Keys (R323, R324) -/

def keyBlob : Nat := 96

/-- R323: the first offset of a key blob that breaks it: another algorithm, or a byte that must be zero. -/
def blobDefect (bs : List Byte) : Option Nat :=
  let alg := (bs.getD 0 0#8).toNat
  if alg ≠ 1 ∧ alg ≠ 2 then some 0
  else match firstNonzero 1 ((bs.take 32).drop 1) with
    | some n => some n
    | none => if alg = 1 then firstNonzero 64 (bs.drop 64) else none

/-- R317, R325: a slot loaded with a key drawn at random, which no key loaded before or after is taken to equal (log 4, DESIGN CHOICE). -/
def drawKey (s : State) (k : Nat) (alg : Nat) (material : List Byte) : State :=
  let (id, s) := s.fresh
  s.modKey k fun x => { x with alg := alg, material := material, keyId := id }

/-- R323, R324: a loaded slot: the same algorithm and material are the same key, whatever slot holds them. Log 4, DESIGN CHOICE. -/
def loadKey (s : State) (k : Nat) (alg : Nat) (material : List Byte) : State :=
  match s.keyring.find? fun x => x.2 == (alg, material) with
  | some (id, _) => s.modKey k fun x => { x with alg := alg, material := material, keyId := id }
  | none => drawKey { s with keyring := (s.nextId, alg, material) :: s.keyring } k alg material

/-- R323, R324. -/
def keyLoadGo (e : Env) : Eff :=
  let k := e.bLow 6
  if e.s.qcount ≤ (e.s.key k).stamp && (e.s.key k).stamp != 0 then .wait e.s .post
  else
    loadBytes e e.x.a.w keyBlob fun bs s =>
      match blobDefect bs with
      | some off => .trapWith s (recordFault off)
      | none =>
        if (s.key k).bound.isSome then .trapWith s (keyBoundFault k)
        else storeBytes e s e.x.a.w (List.replicate keyBlob 0#8) fun s =>
          let material := (bs.drop 32).take 64
          e.reply (loadKey s k (bs.getD 0 0#8).toNat material) ((Config.sm3 material).toNat % 2 ^ 64)

/-- R323, R324. -/
def execKeyLoad (o : Ops) (s : State) : Out := issue shPart2 false (oneAtATime keyLoadGo) o s

/-- R324: the unbinding of a key slot, which keeps its key. -/
def unbindKey (s : State) (k : Nat) : State := s.modKey k fun x => { x with bound := none, stamp := s.qcount + 1 }

def keyBindGo (e : Env) : Eff :=
  let k := e.aLow 6
  let slot := e.bLow 4
  if e.x.b.w.getLsbD 7 then e.reply (unbindKey e.s k) (e.s.qcount + 1)
  else if (e.s.key k).keyId = 0 || !(e.s.part slot).keys.getLsbD k then .trap (keyBoundFault k)
  else e.reply (e.s.modKey k fun x => { x with bound := some slot }) (e.s.qcount + 1)

/-- R324. -/
def execKeyBind (o : Ops) (s : State) : Out := issue shPart2 false (oneAtATime keyBindGo) o s
/-- R324: the `key.bind` whose B has bit 7. -/
def execKeyUnbind (o : Ops) (s : State) : Out := issue shPart2 false (oneAtATime keyBindGo) o s

/-! ### Power shares (R314) -/

/-- R308: the greatest reservation; a budget below it would never grant one. Log 70, DESIGN CHOICE. -/
def leastBudget : Nat := 16

/-- R308, R311, R314: the clip and the budget that a share gives; the share of the whole module limits nothing. Log 70, DESIGN CHOICE. -/
def clipFor (watts : Nat) : Nat := if Config.capMax ≤ watts then 7 else (Config.shareClip watts).toNat
def budgetFor (watts : Nat) : Nat := if Config.capMax ≤ watts then Config.arbiterBudget else max leastBudget (Config.shareBudget watts)

/-- R314, R335: in hardware mode a partition's share becomes its clip and the budgets of its clusters. Log 70, DESIGN CHOICE. -/
def applyShare (s : State) (slot : Nat) : State :=
  if s.firmware.assisted.getD 3 false then s
  else
    let w := (s.part slot).power
    let own := (List.range 64).filter (s.clustersOf slot).getLsbD
    own.foldl (fun s cl => s.modCluster cl fun k => { k with budget := budgetFor w }) (s.modPart slot fun p => { p with clip := clipFor w })

/-! ### Building partitions (R317, R320) -/

def partRecord : Nat := 128

/-- R317: the record's fields. -/
def parsePart (bs : List Byte) : Partition :=
  let f (at_ n : Nat) : Nat := leField bs at_ n
  { Partition.free with
    status := .building, record := bs, clusters := BitVec.ofNat 64 (f 0 8), channels := BitVec.ofNat 128 (f 8 16),
    xshare := (List.range 4).map fun i => f (24 + i) 1, floe := BitVec.ofNat 12 (f 28 2), critical := f 30 1 == 1,
    farctx := BitVec.ofNat 256 (f 32 32), keys := BitVec.ofNat 64 (f 64 8), power := f 72 4, latency := f 76 4, fabid := f 80 4 }

/-- R319: the first field that names something the root does not own. -/
def foreignField (root p : Partition) : Option Nat :=
  if p.clusters &&& ~~~root.clusters ≠ 0#64 then some 0
  else if p.channels &&& ~~~root.channels ≠ 0#128 then some 8
  else if p.floe &&& ~~~root.floe ≠ 0#12 then some 28
  else if p.farctx &&& ~~~root.farctx ≠ 0#256 then some 32
  else if p.keys &&& ~~~root.keys ≠ 0#64 then some 64
  else none

/-- R319: the first byte that breaks a record. -/
def recordDefect (bs : List Byte) : Option Nat :=
  let big (off limit : Nat) : Bool := limit < (bs.getD off 0#8).toNat
  match (List.range 4).find? fun i => big (24 + i) 15 with
  | some i => some (24 + i)
  | none => if big 30 1 then some 30 else if big 31 0 then some 31 else firstNonzero 84 (bs.drop 84)

/-- R319: the POWER of the slots in use, but for the root, which has no record. -/
def powerInUse (s : State) : Nat :=
  ((List.range 16).filter fun k => k != 0 && (s.part k).status != .free).foldl (fun n k => n + (s.part k).power) 0

/-- R320: resources move from the root to a slot. -/
def takeFromRoot (s : State) (slot : Nat) (p : Partition) : State :=
  let s := s.modPart 0 fun r =>
    { r with clusters := r.clusters &&& ~~~p.clusters, channels := r.channels &&& ~~~p.channels, floe := r.floe &&& ~~~p.floe,
             farctx := r.farctx &&& ~~~p.farctx, keys := r.keys &&& ~~~p.keys }
  s.modPart slot fun _ => p

/-- Log 71, DEDUCED. -/
def partMakeGo (e : Env) : Eff :=
  let slot := e.aLow 4
  if slot = 0 || (e.s.part slot).status != .free then .trap (slotStateFault slot)
  else loadBytes e e.x.b.w partRecord fun bs s =>
    let p := parsePart bs
    match foreignField (s.part 0) p, recordDefect bs with
    | some off, _ => .trapWith s (notOwnedFault off)
    | none, some off => .trapWith s (recordFault off)
    | none, none =>
      if s.powerCap < powerInUse s + p.power then .trapWith s (powerFault p.power) else e.reply (takeFromRoot s slot p) 0

/-- R320. -/
def execPartMake (o : Ops) (s : State) : Out := issue shPart2 false (oneAtATime partMakeGo) o s

/-- R320: the code of a binding. -/
def bindingCode : Option Binding → Nat
  | none => 0xFF
  | some (.slot n) => n
  | some (.slice l) => 0x10 + l

/-- R320: the function that B names: a virtual function of a port. -/
def giveTarget (b : Nat) : Nat := 17 * (b / 16 % 2) + 1 + b % 16

def partGiveGo (e : Env) : Eff :=
  let a := e.aLow 6
  let fn := giveTarget (e.bLow 5)
  let b : Option Binding := if a / 32 = 1 then none else if a / 16 % 2 = 1 then some (.slice (a % 16)) else some (.slot (a % 16))
  e.reply (e.s.modFn fn fun r => { r with bound := b }) (bindingCode (e.s.fn fn).bound)

/-- R320. -/
def execPartGive (o : Ops) (s : State) : Out := issue shPart2 false (oneAtATime partGiveGo) o s

/-- R320: whether members and a quantum form a slice group. -/
def sliceOk (s : State) (members : List Nat) (quantum : Nat) : Bool :=
  2 ≤ members.length && (members.filter fun k => (s.part k).clusters != 0#64) == members.take 1 && 100 ≤ quantum && quantum ≤ 1000000

/-- Log 71, DEDUCED. -/
def partSliceGo (e : Env) : Eff :=
  let members := (List.range 16).filter fun k => e.x.a.w.getLsbD k
  let quantum := e.x.b.w.toNat
  match members.find? fun k => k == 0 || (e.s.part k).status != .building with
  | some k => .trap (slotStateFault k)
  | none =>
    if !sliceOk e.s members quantum then .trap (recordFault 0)
    else
      let leader := members.headD 0
      let s := members.foldl (fun s k => s.modPart k fun p => { p with leader := some leader }) e.s
      e.reply (s.modPart leader fun p => { p with quantum := quantum, turn := leader, turnSince := s.ns }) leader

/-- R320. -/
def execPartSlice (o : Ops) (s : State) : Out := issue shPart2 false (oneAtATime partSliceGo) o s

/-- Log 71, DEDUCED. -/
def partSealGo (e : Env) : Eff :=
  let slot := e.aLow 4
  let p := e.s.part slot
  if slot = 0 || p.status != .building then .trap (slotStateFault slot)
  else
    let d := Config.sm3 (p.record ++ leBytes 1 slot)
    e.reply (applyShare (e.s.modPart slot fun p => { p with status := .sealed, digest := d }) slot) (d.toNat % 2 ^ 64)

/-- R320. -/
def execPartSeal (o : Ops) (s : State) : Out := issue shPart1 false (oneAtATime partSealGo) o s

/-- R320: the functions bound to a slot, or to the slice group that it dissolves, are unbound. -/
def unbindFns (s : State) (slot : Nat) : State :=
  let hit (b : Binding) : Bool := b == .slot slot || match (s.part slot).leader with
    | some l => b == .slice l
    | none => false
  { s with fns := mapAll s.fns fun _ r => if r.bound.any hit then { r with bound := none } else r }

/-- R320: every member of a slot's slice group leaves it. -/
def dissolve (s : State) (slot : Nat) : State :=
  match (s.part slot).leader with
  | none => s
  | some l => { s with parts := mapAll s.parts fun _ p => if p.leader == some l then { p with leader := none } else p }

/-- R320: a slot's resources return to the root; its keys are unbound. -/
def dropPart (s : State) (slot : Nat) : State :=
  let p := s.part slot
  let s := dissolve (unbindFns s slot) slot
  let s := ((List.range 64).filter fun k => p.keys.getLsbD k && (s.key k).bound == some slot).foldl unbindKey s
  let s := s.modPart 0 fun r =>
    { r with clusters := r.clusters ||| p.clusters, channels := r.channels ||| p.channels, floe := r.floe ||| p.floe,
             farctx := r.farctx ||| p.farctx, keys := r.keys ||| p.keys }
  applyShare (s.modPart slot fun _ => Partition.free) 0

/-- Log 71, DEDUCED. -/
def partDropGo (e : Env) : Eff :=
  let slot := e.aLow 4
  let p := e.s.part slot
  if slot = 0 || !(p.status == .building || p.status == .white) then .trap (slotStateFault slot)
  else e.reply (dropPart e.s slot) p.clusters.toNat

/-- R320. -/
def execPartDrop (o : Ops) (s : State) : Out := issue shPart1 false (oneAtATime partDropGo) o s

/-! ### Whiteout (R325, R326) -/

def receiptBytes : Nat := 512

def contextsOf (s : State) (slot : Nat) : List Nat := (s.ctxs.filter fun (k, _) => slotOf k == slot).map (·.1)

/-- R325: the first step: the contexts end, the far contexts halt. Log 73, DEDUCED. -/
def beginWhiteout (s : State) (slot : Nat) (w : WhiteoutRun) : State :=
  let s := (contextsOf s slot).foldl endContext s
  let halt (h : Nat) (c : FarCtx) : FarCtx := if s.ownsChain slot h then { c with halted := true } else c
  ({ s with chains := mapAll s.chains halt }).modPart slot fun p => { p with whiteout := some w }

/-- R325, R326: at its end the instruction writes the receipt, a store of the squad. Log 24, DEDUCED. Log 73, DEDUCED. -/
def scrubGo (e : Env) : Eff :=
  let slot := e.aLow 4
  let p := e.s.part slot
  match p.whiteout with
  | some w =>
    if w.squad ≠ e.cx.key then .trap (slotStateFault slot)
    else match w.ended with
      | none => .wait e.s .post
      | some t => storeBytes e e.s (BitVec.ofNat 64 w.receipt) w.bytes fun s =>
        let (v, s) := readTime { s with ns := t } (s.ctxOf e.q)
        let s := ({ s with ns := e.s.ns }).modPart slot fun p => { p with whiteout := none }
        .done { s := s, result := .uniform v, faults := [] }
  | none =>
    if slot = 0 || p.status != .sealed then .trap (slotStateFault slot)
    else if !e.inShared e.x.b.w receiptBytes then .trap (windowFaultAt e.x.b.w.toNat)
    else
      let w : WhiteoutRun :=
        { squad := e.cx.key, receipt := e.x.b.w.toNat, startQ := e.s.qcount, startNs := e.s.ns, ended := none, bytes := [] }
      .wait (beginWhiteout e.s slot w) .post

/-- R325. -/
def execScrub (o : Ops) (s : State) : Out := issue shPart2 false (oneAtATime scrubGo) o s

/-- The cores of a mask of clusters, ascending. -/
def maskCores (m : BitVec 64) : List Nat := ((List.range 64).filter m.getLsbD).flatMap fun c => (List.range 4).map (4 * c + ·)

/-- R325: registers, tiles, windows, arrays and caches of a partition are cleared, its memory ranges are zero, written under no key yet. Log 21,
DEDUCED. -/
def clearPart (s : State) (slot : Nat) : State :=
  let p := s.part slot
  let core (s : State) (c : Nat) : State := s.modCore c fun _ => Core.zero
  let array (s : State) (c : Nat) : State := s.modCluster c fun k => { k with clause := Clause.cleared 1024 4096, clauseOwner := none, clauseRun := none }
  let s := (maskCores p.clusters).foldl core s
  let s := ((List.range 64).filter p.clusters.getLsbD).foldl array s
  let mine (a : Nat) : Bool := s.owns slot a
  { s with
    mem := List.filter (fun c => !mine c.1) s.mem, unitKeys := mapFilter s.unitKeys (fun u _ => !mine (32 * u)),
    spoiled := s.spoiled.filter (fun u => !mine (32 * u)),
    stale := s.stale.filter (fun c => !mine c.pa), tlb := s.tlb.filter (fun t => slotOf t.ctx != slot),
    firn := s.firn.filter (fun f => slotOf f.ctx != slot), requests := mapFilter s.requests (fun _ r => r.slot != slot),
    moraine := s.moraine.filter (fun m => m.slot != slot) }

/-- R325: a fresh random key of the same algorithm. Log 73, DEDUCED. -/
def rekeySlot (s : State) (k : Nat) : State :=
  if (s.key k).keyId = 0 then s else drawKey s k (s.key k).alg ((List.range 64).map fun i => s.freeByte 325 (64 * k + i))

def keysOf (p : Partition) : List Nat := (List.range 64).filter p.keys.getLsbD

/-- R326: an entry: how many units, and the digest of their identifiers. -/
def receiptEntry (ids : List Nat) : List Byte := leBytes 8 ids.length ++ digestBytes (Config.sm3 (ids.flatMap (leBytes 8)))
/-- R326: an entry whose units the manual does not settle. Log 24, DEDUCED. -/
def freeEntryOf (s : State) (k : Nat) : List Byte := (List.range 40).map fun i => s.freeByte 326 (40 * k + i)

/-- R326: an entry for the 2 KiB units of a range that a slot owns. -/
def ownedEntry (s : State) (slot lo hi : Nat) (count : Nat) : List Byte :=
  leBytes 8 count ++ digestBytes (Config.unitsDigest (s.owns slot) lo hi)

/-- R69, R326: 2 KiB units of a channel. -/
def channelUnits : Nat := 2 ^ 22

def channelCount (p : Partition) : Nat := ((List.range 128).filter p.channels.getLsbD).length

/-- R317, R326: the entry of the expander ranges: none without a share. -/
def expanderEntry (s : State) (slot : Nat) (p : Partition) : List Byte :=
  if p.xshare.all (· == 0) then receiptEntry []
  else ownedEntry s slot (2 ^ 41) (5 * 2 ^ 41) (Config.unitsCount (s.owns slot) (2 ^ 41) (5 * 2 ^ 41))

/-- R326: bytes 64 to 423. Log 24, DEDUCED. -/
def receiptEntries (s : State) (slot : Nat) (p : Partition) : List Byte :=
  let cores := maskCores p.clusters
  receiptEntry cores ++ receiptEntry (cores.flatMap fun c => (List.range 16).map (16 * c + ·))
    ++ receiptEntry (cores.flatMap fun c => (List.range 128).map fun i => c * 2 ^ 32 + Config.sharedUnit * i)
    ++ freeEntryOf s 3 ++ receiptEntry ((List.range 64).filter p.clusters.getLsbD) ++ freeEntryOf s 5
    ++ (if p.channels = 0#128 then receiptEntry [] else ownedEntry s slot 0 (2 ^ 40) (channelCount p * channelUnits))
    ++ expanderEntry s slot p ++ receiptEntry (keysOf p)

/-- R326: bytes 0 to 447. -/
def receiptHead (s : State) (slot : Nat) (w : WhiteoutRun) (p : Partition) : List Byte :=
  leBytes 2 1 ++ leBytes 1 slot ++ leBytes 5 0 ++ leBytes 8 w.startQ ++ leBytes 8 w.startNs ++ leBytes 8 s.ns ++ digestBytes p.digest
    ++ receiptEntries s slot p ++ (digestBytes Config.identityKeyDigest).take 24

/-- R326, R328, R335: a signature, or zeros where the host signs: the physical functions are then asked. -/
def signed (s : State) (slot : Nat) (head : List Byte) : List Byte × State :=
  let d := Config.sm3 head
  if s.firmware.assisted.getD 4 false then
    (leBytes 64 0, s.postBoth { kind := 5, tag := 0#16, status := 0, payload := payload8 [slot] ++ digestBytes d })
  else (leBytes 64 (Config.sm2Sign d).toNat, s)

/-- R325: the owned ranges are zero under the new key: that of the lowest of the key slots (log 21, DEDUCED). -/
def zeroOwned (s : State) (slot : Nat) (p : Partition) : State :=
  { s with clearings := { what := .owned slot ((List.range 16).map s.holding), keyId := (keysOf p).head?.map fun k => (s.key k).keyId }
             :: s.clearings }

/-- R325: steps 3 to 5; the receipt is ready. Log 73, DEDUCED. -/
def finishWhiteout (s : State) (slot : Nat) (w : WhiteoutRun) : State :=
  let p := s.part slot
  let s := (contextsOf s slot).foldl removeContext s
  let s := zeroOwned ((keysOf p).foldl rekeySlot (clearPart s slot)) slot p
  let head := receiptHead s slot w p
  let (sig, s) := signed s slot head
  s.modPart slot fun p => { p with status := .white, pool := [], whiteout := some { w with ended := some s.ns, bytes := head ++ sig } }

/-- R325: QCOUNT has moved twice. Log 73, DEDUCED. -/
def execWhiteout (slot : Nat) (s : State) : Out :=
  match (s.part slot).whiteout with
  | none => notDue "WHITEOUT"
  | some w => if w.ended.isSome || s.qcount < w.startQ + 2 then notDue "WHITEOUT" else .next (finishWhiteout s slot w)

/-! ### Range logs (R327, R328) -/

/-- R328: the head's bytes 0–63. -/
def logHead (s : State) (p : Partition) : List Byte :=
  digestBytes p.logChain ++ leBytes 8 p.logCount ++ leBytes 8 p.logOverflow ++ leBytes 8 s.ns ++ leBytes 8 0

/-- Log 71, DEDUCED. -/
def rwatchGo (e : Env) : Eff :=
  let c := e.x.c.w.toNat
  let a := e.x.a.w.toNat
  let b := e.x.b.w.toNat
  let slot := c / 2 ^ 8 % 16
  let done (s : State) : Eff := e.reply s ((e.s.part slot).logCount % 2 ^ 64)
  let lies (owner : Nat) : Bool := b % 65536 == 0 && e.s.ownsRange owner a b
  match c / 2 ^ 12 % 4 with
  | 0 =>
    if b = 0 || a % 65536 ≠ 0 || !lies slot then .trap (recordFault 0)
    else done (e.s.modPart slot fun p => { p with ranges := mapSet p.ranges (c % 64) { base := a, len := b } })
  | 1 => done (e.s.modPart slot fun p => { p with ranges := mapErase p.ranges (c % 64) })
  | 2 =>
    if !lies 0 then .trap (recordFault 0)
    else done (e.s.modPart slot fun p => 
      { p with ring := if b = 0 then none else some { base := a, len := b }, ringCount := 0 })
  | _ =>
    if !e.inShared e.x.a.w 128 then .trap (windowFaultAt a)
    else
      let head := logHead e.s (e.s.part slot)
      let (sig, s) := signed e.s slot head
      storeBytes e s e.x.a.w (head ++ sig) done

/-- R327. -/
def execRwatchSetRange (o : Ops) (s : State) : Out := issue shPart3 false (oneAtATime rwatchGo) o s
/-- R327: the `rwatch` whose C[13:12] is 1. -/
def execRwatchClearRange (o : Ops) (s : State) : Out := issue shPart3 false (oneAtATime rwatchGo) o s
/-- R327: the `rwatch` whose C[13:12] is 2. -/
def execRwatchSetRing (o : Ops) (s : State) : Out := issue shPart3 false (oneAtATime rwatchGo) o s
/-- R328: the `rwatch` whose C[13:12] is 3. -/
def execRwatchWriteHead (o : Ops) (s : State) : Out := issue shPart3 false (oneAtATime rwatchGo) o s

/-- R328: bytes 0–31 of a record. -/
def OpenRec.bytes32 (r : OpenRec) : List Byte :=
  leBytes 8 r.first ++ leBytes 8 r.last ++ leBytes 8 r.bytes ++ leBytes 2 r.ctx ++ leBytes 1 r.kind ++ leBytes 1 r.range
    ++ leBytes 4 r.accesses

/-- R327, R328: a record is appended; the ring's memory is the root's; in a full ring the oldest is overwritten. Log 72, DEDUCED. -/
def appendRecord (slot : Nat) (s : State) (r : OpenRec) : State :=
  let p := s.part slot
  let chain := Config.sm3 (digestBytes p.logChain ++ r.bytes32)
  let room := (p.ring.map fun x => x.len / 64).getD 0
  let s := match p.ring with
    | none => s
    | some x => s.writePhysN (s.key 0).keyId (x.base + 64 * (p.ringCount % room)) (r.bytes32 ++ digestBytes chain)
  s.modPart slot fun p =>
    { p with logChain := chain, logCount := p.logCount + 1, ringCount := p.ringCount + if p.ring.isSome then 1 else 0,
             logOverflow := p.logOverflow + if p.ring.isSome && room ≤ p.ringCount then 1 else 0 }

/-- R327: the records of a millisecond that is over are closed. Log 72, DEDUCED. -/
def execLogRecordClose (slot : Nat) (s : State) : Out :=
  let closed (r : OpenRec) : Bool := r.first / logNs < s.ns / logNs
  let due := (s.part slot).openRecs.filter closed
  if due.isEmpty then notDue "LOG_RECORD_CLOSE"
  else .next (due.foldl (appendRecord slot) (s.modPart slot fun p => { p with openRecs := p.openRecs.filter fun r => !closed r }))

/-! ### The management semaphore (R330) -/

/-- R330: whether an owner's lease runs. Log 72, DEDUCED. -/
def leased (s : State) : Bool := s.sem.owner != 0 && s.ns < s.sem.leaseEnd

/-- R330: what D and HPSEM show: the owner, and the microseconds left. -/
def semState (s : State) : Nat := s.sem.owner + 2 ^ 32 * min Config.leaseMicros ((s.sem.leaseEnd - s.ns) / 1000)

def leaseTo (s : State) (party : Nat) : State := { s with sem := { owner := party, leaseEnd := s.ns + 1000 * Config.leaseMicros } }

/-- R330: read, acquire, renew, release, by party 1 (H0), 2 (H1) or 3 (the device). Log 72, DEDUCED. -/
def semOp (s : State) (party op : Nat) : State :=
  match op with
  | 1 => if leased s then s else leaseTo s party
  | 2 => if s.sem.owner = party then leaseTo s party else s
  | 3 => if s.sem.owner = party then { s with sem := { owner := 0, leaseEnd := 0 } } else s
  | _ => s

def mgsemGo (e : Env) : Eff :=
  if !e.runs then e.result (.kept false)
  else
    let s := semOp e.s 3 (e.aLow 2)
    e.reply s (semState s)

/-- R330. -/
def execMgsemRead (o : Ops) (s : State) : Out := issue shPart1 false mgsemGo o s
/-- R330: A[1:0] is 1. -/
def execMgsemAcquire (o : Ops) (s : State) : Out := issue shPart1 false mgsemGo o s
/-- R330: A[1:0] is 2. -/
def execMgsemRenew (o : Ops) (s : State) : Out := issue shPart1 false mgsemGo o s
/-- R330: A[1:0] is 3. -/
def execMgsemRelease (o : Ops) (s : State) : Out := issue shPart1 false mgsemGo o s

/-- R330: the lease runs out; the owner stands until another party acquires. Log 72, DEDUCED. -/
def execManagementSemaphoreLeaseExpiry (s : State) : Out :=
  if s.sem.owner = 0 || s.sem.leaseEnd = 0 || s.ns < s.sem.leaseEnd then notDue "MANAGEMENT_SEMAPHORE_LEASE_EXPIRY"
  else .next { s with sem := { s.sem with leaseEnd := 0 } }

end Sys2Proof.Machine
end

