-- ==== Sys2Proof/Machine/Matrix.lean ====
section
/-!
DEFINITION. The matrix engine (R228–R240, R243, R244) and row statistics (R241, R242): posts with their checks, starts, completions, the
array's ramp.
-/
namespace Sys2Proof.Machine

/-! ### Shapes and elements (R228, R229) -/

/-- R229: K of a pair of formats; 0 for a pair that is not permitted. -/
def kOf (a b : Nat) : Nat :=
  let small (f : Nat) : Bool := 0x10 ≤ f && f ≤ 0x13
  if small a && small b || (a == 0x15 && b == 0x15) then 64
  else if a = 0x14 ∧ b = 0x14 then 128
  else if a = b ∧ (a = 0x05 ∨ a = 0x06) then 32
  else 0

/-- A region of a record: rows from `row`, columns from `col`. -/
structure Cut where
  rec_ : TensorRec
  row : Nat
  rows : Nat
  col : Nat
  cols : Nat
  deriving DecidableEq, Repr

/-- The offsets of a region's elements and of its scales. -/
def Cut.elemBytes (c : Cut) : List Nat :=
  let w := c.rec_.width
  let lo := c.col * w / 8
  let hi := ceilDiv ((c.col + c.cols) * w) 8
  (List.range c.rows).flatMap fun m => (List.range (hi - lo)).map fun x => c.rec_.rowByte (c.row + m) (lo + x)
def Cut.scaleBytes (c : Cut) : List Nat :=
  if !c.rec_.mx then []
  else
    let b := c.rec_.blockSize
    let lo := c.col / b
    (List.range c.rows).flatMap fun m => (List.range (ceilDiv (c.col + c.cols) b - lo)).map fun x => c.rec_.scaleByte (c.row + m) (lo + x)

/-- The code of an element, from the bytes of its window. -/
def elemCode (m : Memory) (r : TensorRec) (i j : Nat) : Nat :=
  let w := r.width
  let b := j * w
  let bytes := (List.range (ceilDiv (b % 8 + w) 8)).map fun x => memRead m (r.rowByte i (b / 8 + x))
  leNat bytes / 2 ^ (b % 8) % 2 ^ w

/-- R58–R61, R234: the exact value of an element of a map. -/
def elemValue (m : Memory) (r : TensorRec) (i j : Nat) : Num :=
  let c := elemCode m r i j
  if r.mx then
    let x := (memRead m (r.scaleByte i (j / r.blockSize))).toNat
    match Elem.ofIndex (r.format.toNat % 16) with
    | some el => if x = 255 then .nan false else (el.decode c).scale ((x : Int) - 127)
    | none => .nan false
  else if r.format.toNat = 5 then fp16.decode c
  else if r.format.toNat = 6 then bf16.decode c
  else fp32.decode c

/-! ### Arithmetic (R234, R235) -/

/-- NaN where an exact operation has no value. -/
def orNan (x : Option Num) : Num := x.getD (.nan false)
def mulNum (x y : Num) : Num := if x.isNan || y.isNan then .nan false else orNan (x.mul y)
def addNum (x y : Num) : Num := if x.isNan || y.isNan then .nan false else orNan (x.add .near y)

/-- R235: an exact sum that keeps −0 where every term is −0. -/
def sumNum : List Num → Num
  | [] => .fin false 0 0
  | x :: xs => xs.foldl addNum x

/-- FP32 bits of an exact value rounded once; NaN is canonical. -/
def rne32 (x : Num) : Word32 := BitVec.ofNat 32 (deliver fp32 .near x).bits
def val32 (w : Word32) : Num := fp32.decode w.toNat

/-- R230: an element of a tile. -/
def Tile.at_ (t : Tile) (m n : Nat) : Word32 := (mapGet t.elems (64 * m + n)).getD 0#32
/-- A tile's elements from a function; +0 is unlisted. -/
def tileElems (f : Nat → Nat → Word32) : Map Word32 :=
  ((List.range 4096).map fun i => (i, f (i / 64) (i % 64))).filter fun e => e.2 != 0#32

/-- R230: the recorded pair, or (1.0, 1.0). -/
def one32 : Word32 := 0x3F800000#32
def Tile.pair (t : Tile) : Word32 × Word32 := if t.set then (t.tsa, t.tsb) else (one32, one32)
/-- R239, R241: an element under the pair, exactly. -/
def Tile.scaled (t : Tile) (m n : Nat) : Num := mulNum (mulNum (val32 (t.at_ m n)) (val32 t.pair.1)) (val32 t.pair.2)

def Core.tile (c : Core) (t : Nat) : Tile := (mapGet c.tiles t).getD Tile.zero
def State.setTile (s : State) (core t : Nat) (v : Tile) : State := s.modCore core fun c => { c with tiles := mapSet c.tiles t v }

/-- R236: SET and the pair after an operation. -/
def MxOp.pairAfter (o : MxOp) (t : Tile) : Tile :=
  match o.kind with
  | .zero => { t with set := false }
  | .ldacc => { t with set := true, tsa := one32, tsb := one32 }
  | .drain => t
  | .mma | .pair => if o.acc && t.set then t else { t with set := true, tsa := o.a.tscale, tsb := o.b.tscale }

/-- R234: a tile after a multiplication with the A rows from `row`. -/
def MxOp.product (o : MxOp) (m : Memory) (row : Nat) (t : Tile) : Tile :=
  let k := kOf o.a.format.toNat o.b.format.toNat
  let a (i : Nat) : List Num := (List.range k).map fun x => elemValue m o.a (row + i) (o.off + x)
  let b (i : Nat) : List Num := (List.range k).map fun x => elemValue m o.b i (o.off + x)
  let chunk (i j : Nat) : Num := sumNum (((a i).zip (b j)).map fun (x, y) => mulNum x y)
  { o.pairAfter t with elems := tileElems fun i j => rne32 (addNum (if o.acc then val32 (t.at_ i j) else .fin false 0 0) (chunk i j)) }

/-- R238: an FP32 element as loaded: a NaN becomes canonical. -/
def loaded (w : Nat) : Word32 := if (fp32.decode w).isNan then 0x7FC00000#32 else BitVec.ofNat 32 w

/-- R239: a row of the tile as its destination's codes, and its scales. -/
def drainRow (r : TensorRec) (t : Tile) (m : Nat) : List Nat × List Nat :=
  let vs := (List.range 64).map (t.scaled m)
  if r.mx then
    match Elem.ofIndex (r.format.toNat % 16) with
    | some el =>
      let blocks := (List.range (64 / r.blockSize)).map fun b => encodeBlock el ((vs.drop (b * r.blockSize)).take r.blockSize)
      (blocks.flatMap (·.2), blocks.map (·.1))
    | none => ([], [])
  else
    let f := if r.format.toNat = 5 then fp16 else if r.format.toNat = 6 then bf16 else fp32
    (vs.map fun v => (deliver f .near v).bits, [])

/-- R63: codes packed into bytes. -/
def packCodes (w : Nat) (codes : List Nat) : List Byte :=
  leBytes (ceilDiv (w * codes.length) 8) (codes.foldr (fun c acc => c + 2 ^ w * acc) 0)

/-- R239: the bytes a drain writes. -/
def drainBytes (c : Cut) (t : Tile) : List (Nat × Byte) :=
  let rows := (List.range 64).map (drainRow c.rec_ t)
  c.elemBytes.zip (rows.flatMap fun x => packCodes c.rec_.width x.1) ++ c.scaleBytes.zip (rows.flatMap fun x => x.2.map (BitVec.ofNat 8))

/-! ### Posts (R231–R233) -/

/-- Two operands, or A alone, possibly from a literal (R32). -/
def shMx (reads : Bool) : Shape :=
  { shX 1 with a := src1, b := if reads then src1 else .unused, k := if reads then .asB else .asA, d := .reg 1,
               rule := fun d a b _ => d == .absent && a.uniOrAbsent && b.uniOrAbsent }

def accessAt (sub : BitVec 16) (addr : Nat) : LaneFault := fault causeAccess sub (BitVec.ofNat 64 addr)

/-- R230, R233: whether the group owns what a post needs. -/
def tilesFault (e : Env) (pair : Bool) : Option LaneFault :=
  let core := e.s.coreOf e.q
  let g := e.s.group? e.q.groupKey
  if (e.s.core core).tileOwner != some e.q.groupKey || (pair && (!((g.map (·.pair)).getD false) || core % 2 != 0)) then
    some (accessAt 0x0101#16 0)
  else none

/-- A record a post names: its TID, the region, the spaces and formats that will do. -/
structure Named where
  tid : Nat
  cut : Cut
  spaceOk : Bool
  formatOk : Bool
  deriving DecidableEq, Repr

/-- R233: the first of some checks over the records in order. -/
def firstOver (ns : List Named) (f : Named → Option LaneFault) : Option LaneFault :=
  ns.foldl (fun acc n => match acc with | some x => some x | none => f n) none

def Cut.extent (c : Cut) : Option LaneFault :=
  if c.rec_.rows < c.row + c.rows then some (accessAt 0x0105#16 (c.row + c.rows))
  else if c.rec_.cols < c.col + c.cols then some (accessAt 0x0105#16 (c.col + c.cols))
  else if c.rec_.mx && c.col % c.rec_.blockSize != 0 then some (accessAt 0x0105#16 c.col)
  else none

/-- Log 48, DEDUCED. -/
def Cut.window (c : Cut) (s : State) (q : Squad) : Option LaneFault :=
  match spaceOf c.rec_.space with
  | none => none
  | some sp =>
    match outside (winSize s q sp) c.elemBytes, outside (winSize s q sp) c.scaleBytes with
    | some x, _ | none, some x => some (accessAt 0x0106#16 x)
    | none, none => none

/-- R233: the Access checks on the records, lowest sub-cause first. Log 48, DEDUCED. -/
def recordsFault (e : Env) (ns : List Named) : Option LaneFault :=
  match firstOver ns fun n => if n.cut.rec_.code = 0 then none else some (accessAt 0x0102#16 (n.tid + 256 * n.cut.rec_.code)),
      firstOver ns fun n => if n.spaceOk then none else some (accessAt 0x0103#16 n.tid),
      firstOver ns fun n => if n.formatOk then none else some (accessAt 0x0104#16 n.tid) with
  | some f, _, _ | none, some f, _ | none, none, some f => some f
  | none, none, none =>
    match firstOver ns fun n => n.cut.extent with
    | some f => some f
    | none => firstOver ns fun n => n.cut.window e.s e.q

/-- R136: the barrier field of a post; 15 names none. -/
def barrierFault (e : Env) (b : Nat) : Option LaneFault :=
  if b = 15 then none
  else match e.bars[b]? with
    | none => some (barMisuse 0x0001#16 b)
    | some x => if 255 ≤ x.epend then some (barMisuse 0x0006#16 b) else none

/-- R232: the FIFO operations that touch a core's tiles, in order: a paired one's counts in both FIFOs. -/
def tileOps (s : State) (core : Nat) : List MxOp :=
  (s.core core).fifo ++ if core % 2 = 1 then (s.core (core - 1)).fifo.filter (·.kind == .pair) else []

/-- R233: a tile's SET and pair as earlier operations will leave them. Log 48, DEDUCED. -/
def tileAhead (s : State) (core t : Nat) : Tile := ((tileOps s core).filter (·.tile == t)).foldl (fun x o => o.pairAfter x) ((s.core core).tile t)

/-- R236. -/
def scaleFault (e : Env) (o : MxOp) : Option LaneFault :=
  let core := e.s.coreOf e.q
  let bad (c : Nat) : Bool :=
    let t := tileAhead e.s c o.tile
    t.set && (t.tsa != o.a.tscale || t.tsb != o.b.tscale)
  if (o.kind == .mma || o.kind == .pair) && o.acc && (bad core || (o.kind == .pair && bad (core + 1))) then
    some (fault causeScale 0x0001#16 (o.b.tscale ++ o.a.tscale))
  else none

/-- R231: the entry a post takes: `some reserved`; none on a follower while an `mx.pair` of its leader is outstanding. -/
def fifoSlot (s : State) (core key : Nat) : Option Bool :=
  let f := (s.core core).fifo
  if core % 2 = 1 ∧ (s.core (core - 1)).fifo.any (·.kind == .pair) then none
  else if (f.filter fun o => !o.reserved).length < Config.fifoEntries then some false
  else if f.any fun o => o.reserved && o.squad == key then none
  else some true

/-- What a post names (R234, R237–R239). -/
def mxOf (e : Env) (kind : MxKind) : MxOp :=
  let a := e.x.a.w.toNat
  let b := e.x.b.w.toNat
  let r (tid : Nat) : TensorRec := e.s.tensor (e.s.ctxOf e.q) (tid % 256)
  { id := 0, squad := e.cx.key, kind := kind, tile := a / 2 ^ 16 % 16, barrier := a / 2 ^ 20 % 16, acc := a / 2 ^ 24 % 2 == 1,
    a := r a, b := r (a / 256), off := b % 2 ^ 16, row := b / 2 ^ 16 % 2 ^ 16, reserved := false, started := false, startedAt := 0,
    clock := Clock.zero, epoch := e.q.epoch e.cx.key }

/-- R239: the formats a drain writes. -/
def drainFormat (f : Nat) : Bool := f == 4 || f == 5 || f == 6 || isMx f

/-- The region of A, or of the one record, that an operation reads or writes. -/
def MxOp.cutA (o : MxOp) : Cut :=
  let k := kOf o.a.format.toNat o.b.format.toNat
  match o.kind with
  | .mma => { rec_ := o.a, row := o.row, rows := 64, col := o.off, cols := k }
  | .pair => { rec_ := o.a, row := o.row, rows := 128, col := o.off, cols := k }
  | _ => { rec_ := o.a, row := o.row, rows := 64, col := o.off, cols := 64 }
def MxOp.cutB (o : MxOp) : Cut := { rec_ := o.b, row := 0, rows := 64, col := o.off, cols := kOf o.a.format.toNat o.b.format.toNat }

/-- R233: the records an operation names. -/
def MxOp.named (o : MxOp) (a b : Nat) : List Named :=
  let k := kOf o.a.format.toNat o.b.format.toNat
  let sh (r : TensorRec) : Bool := r.space == 1#8
  match o.kind with
  | .mma | .pair =>
    [{ tid := a, cut := o.cutA, spaceOk := sh o.a, formatOk := k != 0 }, { tid := b, cut := o.cutB, spaceOk := sh o.b, formatOk := k != 0 }]
  | .ldacc => [{ tid := a, cut := o.cutA, spaceOk := sh o.a, formatOk := o.a.format == 4#8 }]
  | .drain => [{ tid := a, cut := o.cutA, spaceOk := sh o.a || o.a.space == 2#8, formatOk := drainFormat o.a.format.toNat }]
  | .zero => []

/-- R233: the fault of a post, by cause, then sub-cause. Log 48, DEDUCED. -/
def mxFault (e : Env) (o : MxOp) : Option LaneFault :=
  let a := e.x.a.w.toNat
  match tilesFault e (o.kind == .pair), recordsFault e (o.named (a % 256) (a / 256 % 256)), barrierFault e o.barrier with
  | some f, _, _ | none, some f, _ | none, none, some f => some f
  | none, none, none => scaleFault e o

/-- R231, R232: the post of a FIFO operation. Log 48, DEDUCED. -/
def mxPost (kind : MxKind) (e : Env) : Eff :=
  if !e.runs then e.after e.s
  else
    let core := e.s.coreOf e.q
    if e.q.opsFull 1 then .wait e.s .post
    else match fifoSlot e.s core e.cx.key with
      | none => .wait e.s .post
      | some reserved =>
        let o := mxOf e kind
        match mxFault e o with
        | some f => .trap f
        | none =>
          let (id, s) := e.s.fresh
          let (clk, s) := release s e.cx.key 1
          let o := { o with id := id, reserved := reserved, clock := clk }
          let s := if o.barrier = 15 then s else s.modGroup e.group fun g => g.modBar o.barrier fun x => { x with epend := x.epend + 1 }
          let s := s.modCore core fun c => { c with fifo := c.fifo ++ [o] }
          e.after (pushOp s e.cx.key (OutOp.new id 1))

/-- R234. -/
def execMxMma (o : Ops) (s : State) : Out := issue (shMx true) false (mxPost .mma) o s
/-- R234. -/
def execMxPair (o : Ops) (s : State) : Out := issue (shMx true) false (mxPost .pair) o s
/-- R237. -/
def execMxZero (o : Ops) (s : State) : Out := issue (shMx false) false (mxPost .zero) o s
/-- R238. -/
def execMxLdacc (o : Ops) (s : State) : Out := issue (shMx true) false (mxPost .ldacc) o s
/-- R239. -/
def execMxDrain (o : Ops) (s : State) : Out := issue (shMx true) false (mxPost .drain) o s

/-! ### The array (R240, R244) -/

def rampUpCycles : Nat := 24
def rampDownCycles : Nat := 16
def burstCycles : Nat := 256

/-- Whether an operation runs on a core's array. -/
def Core.running (c : Core) : Bool := c.fifo.any (·.started)

/-- R240, R244: a hold ends; with no operation queued the array begins its ramp-down. Log 51, DEDUCED. -/
def unhold (s : State) (core : Nat) : State :=
  let c := s.core core
  if c.burst.isNone || !c.fifo.isEmpty then s.modCore core fun c => { c with burst := none }
  else
    (s.modCore core fun c => { c with burst := none, array := .rampDown s.cycle }).giveBack (clusterOf core) resMatrix core

/-- R240. Log 51, DEDUCED. -/
def burstEff (e : Env) : Eff :=
  if !e.runs then e.after e.s
  else match tilesFault e false with
    | some f => .trap f
    | none =>
      let n := e.x.a.w.toNat % 64
      let core := e.s.coreOf e.q
      if n = 0 then e.after (unhold e.s core)
      else
        let s := match (e.s.core core).array with
          | .idle => ((e.s.want (clusterOf core) resMatrix core).2).modCore core fun c => { c with array := .rampUp e.s.cycle }
          | .rampDown _ => ((e.s.want (clusterOf core) resMatrix core).2).modCore core fun c => { c with array := .busy }
          | _ => e.s
        e.after (s.modCore core fun c => { c with burst := some { left := n, since := s.cycle } })

/-- R240. -/
def execMxBurst (o : Ops) (s : State) : Out := issue (shMx false) false burstEff o s

/-- R240: 256 cycles without a start end the hold. -/
def execMxBurstHoldExpire (core : Nat) (s : State) : Out :=
  match (s.core core).burst with
  | some b => if b.since + burstCycles ≤ s.cycle then .next (unhold s core) else notDue "MX_BURST_HOLD_EXPIRE"
  | none => notDue "MX_BURST_HOLD_EXPIRE"

/-- R244. -/
def execArrayRampDownEnd (core : Nat) (s : State) : Out :=
  match (s.core core).array with
  | .rampDown n =>
    if n + rampDownCycles ≤ s.cycle then .next (s.modCore core fun c => { c with array := .idle }) else notDue "ARRAY_RAMP_DOWN_END"
  | _ => notDue "ARRAY_RAMP_DOWN_END"

/-! ### Starts and completions (R232, R244) -/

/-- R240: a start counts against the hold; with its last one the hold is over. -/
def Burst.started (b : Burst) (cycle : Nat) : Option Burst := if b.left ≤ 1 then none else some { left := b.left - 1, since := cycle }

/-- R243: the cores whose arrays an operation of a FIFO occupies: both of the pair at once for `mx.pair`. -/
def MxOp.arrays (o : MxOp) (core : Nat) : List Nat := if o.kind = .pair then [core, core + 1] else [core]

def setArrays (s : State) (cores : List Nat) (f : Core → ArrayState) : State :=
  cores.foldl (fun s k => s.modCore k fun c => { c with array := f c }) s

def startOp (s : State) (core : Nat) (o : MxOp) : State :=
  (setArrays s (o.arrays core) fun _ => .busy).modCore core fun c =>
    { c with burst := c.burst.bind (·.started s.cycle),
             fifo := c.fifo.map fun x => if x.id == o.id then { x with started := true, startedAt := s.cycle } else x }

/-- R244: whether an array has no ramp-up to run, or has run it. -/
def arrayReady (s : State) (core : Nat) : Bool :=
  match (s.core core).array with
  | .rampUp n => n + rampUpCycles ≤ s.cycle
  | .idle => false
  | .busy | .rampDown _ => true

/-- R244: the arrays after an operation's last cycle. -/
def endArrays (s : State) (core : Nat) (o : MxOp) : State :=
  setArrays s (o.arrays core) fun c => if c.burst.isSome then .busy else .rampDown (s.cycle + 1)

/-- R232, R243: the oldest row-statistics operation of a core starts once its tile is available. -/
def startRows (s : State) (core : Nat) : State :=
  match (s.core core).rs with
  | [] => s
  | r :: rest =>
    if r.startedAt.isSome || (tileOps s core).any (·.id < r.id) then s
    else s.modCore core fun c => { c with rs := { r with startedAt := some (s.cycle + 1) } :: rest }

/-- R231, R232, R244: the FIFO's head: its reservation, its ramp-up, its start. Log 51, DEDUCED. -/
def execMatrixOpStart (core : Nat) (s : State) : Out :=
  let name := "MATRIX_OP_START"
  match (s.core core).fifo with
  | [] => notDue name
  | o :: _ =>
    if o.started || (o.kind == .pair && !(s.core (core + 1)).fifo.isEmpty) then notDue name
    else
      let asked := (s.reservation (clusterOf core) resMatrix core).isSome
      let (granted, s) := s.want (clusterOf core) resMatrix core
      if !granted then (if asked then notDue name else .next s)
      else if (o.arrays core).all (arrayReady s) then .next (startOp s core o)
      else if (o.arrays core).any fun c => (s.core c).array = .idle then
        .next (setArrays s (o.arrays core) fun c => if c.array = .idle then .rampUp s.cycle else c.array)
      else notDue name

/-- R243. -/
def MxOp.cycles (o : MxOp) : Nat := if o.kind = .zero then 1 else 32

def MxOp.eng (o : MxOp) : EngOp := { key := o.squad, id := o.id, piece := 0, kind := 2, epoch := o.epoch, clock := o.clock }

/-- R161: an operation's reads of a region. -/
def readCut (s : State) (o : MxOp) (c : Cut) : State := (engineRead s o.eng .shared (c.elemBytes ++ c.scaleBytes)).2

/-- R142, R239: a drain's writes; they strike the glides at the barrier that the operation names. -/
def drainTo (s : State) (core : Nat) (o : MxOp) : State :=
  match spaceOf o.a.space with
  | some sp => engineStore s o.eng sp (fun b => b == o.barrier) (drainBytes o.cutA ((s.core core).tile o.tile))
  | none => s

/-- R234–R239: what an operation does. Log 52, DEDUCED. -/
def MxOp.perform (o : MxOp) (s : State) (core : Nat) : State :=
  let m := winMem s (s.squadOr o.squad) .shared
  let t (c : Nat) : Tile := (s.core c).tile o.tile
  match o.kind with
  | .zero => s.setTile core o.tile Tile.zero
  | .ldacc => (readCut s o o.cutA).setTile core o.tile
      { o.pairAfter (t core) with elems := tileElems fun i j => loaded (elemCode m o.a (o.row + i) (o.off + j)) }
  | .drain => drainTo s core o
  | .mma => (readCut (readCut s o o.cutA) o o.cutB).setTile core o.tile (o.product m o.row (t core))
  | .pair =>
    ((readCut (readCut s o o.cutA) o o.cutB).setTile core o.tile (o.product m o.row (t core))).setTile (core + 1) o.tile
      (o.product m (o.row + 64) (t (core + 1)))

/-- R232, R133: counting off, then the arrival, a release of the operation's writes. -/
def mxDone (s : State) (o : MxOp) : State :=
  let gk := groupOfSquad o.squad
  let phase := ((s.group? gk).map fun g => (g.bar o.barrier).phase).getD 0
  let s := completeOp s o.squad o.id fun x =>
    { x with clock := o.clock, arrived := if o.barrier = 15 then none else some (o.barrier, phase) }
  if o.barrier = 15 then s else engineArrives s gk o.barrier (o.clock.addOp (opWhole o.id))

/-- R232: whether a row-statistics operation posted before has still to read the tile an operation writes. Log 50, DEDUCED. -/
def rsBefore (s : State) (core : Nat) (o : MxOp) : Bool :=
  o.kind != .drain && ((s.core core).rs ++ if o.kind == .pair then (s.core (core + 1)).rs else []).any fun r => r.tile == o.tile && r.id < o.id

/-- R232: an operation's first access follows its post and the completion of every earlier operation of its FIFO. Log 49, DEDUCED. -/
def MxOp.inOrder (s : State) (core : Nat) (o : MxOp) : MxOp :=
  let c := o.clock.join (s.core core).fifoClock
  { o with clock := if o.kind = .pair then c.join (s.core (core + 1)).fifoClock else c }

/-- R232: what the next operation's first access follows. Log 49, DEDUCED. -/
def noteFifo (s : State) (core : Nat) (o : MxOp) : State :=
  let put (s : State) (c : Nat) : State := s.modCore c fun k => { k with fifoClock := o.clock.addOp (opWhole o.id) }
  if o.kind = .pair then put (put s core) (core + 1) else put s core

/-- R232, R243, R244. Log 51, DEDUCED. -/
def execMatrixOpComplete (core : Nat) (s : State) : Out :=
  let name := "MATRIX_OP_COMPLETE"
  match (s.core core).fifo with
  | [] => notDue name
  | o :: rest =>
    if !o.started || s.cycle + 1 < o.startedAt + o.cycles || rsBefore s core o then notDue name
    else
      let o := o.inOrder s core
      let s := (noteFifo (o.perform s core) core o).giveBack (clusterOf core) resMatrix core
      let s := endArrays (s.modCore core fun c => { c with fifo := rest }) core o
      .next (releaseGroup (mxDone ((o.arrays core).foldl startRows s) o) (groupOfSquad o.squad))

/-! ### rs.row (R241, R242) -/

/-- R241: D is one of v0 to v125. -/
def shRsRow (o : Ops) : Shape :=
  { shX 2 with
    a := src1, k := .asA, d := .reg 1,
    rule := fun _ a b _ => a.uniOrAbsent && b.uniOrAbsent && match o.d with
      | .v n => n.val ≤ 125
      | _ => false }

def vNumber (n : Name) : Nat :=
  match n with
  | .v k => k.val
  | _ => 0

def rsNames (d : Name) : List Name := [d, nameAfter 1 d, nameAfter 2 d]

/-- R241, R242. -/
def rsRowEff (e : Env) : Eff :=
  if !e.runs then e.after e.s
  else if e.q.opsFull 2 || (rsNames e.cx.o.d).any e.q.awaits then .wait e.s .post
  else match tilesFault e false with
    | some f => .trap f
    | none =>
      let a := e.x.a.w.toNat
      let (id, s) := e.s.fresh
      let (_, s) := release s e.cx.key 1
      let r : RsOp := { id := id, squad := e.cx.key, d := vNumber e.cx.o.d, tile := a / 2 ^ 16 % 16, half := a / 2 ^ 20 % 2 == 1,
                        lanes := e.q.live ||| e.q.helpers, startedAt := none }
      let s := startRows (s.modCore (s.coreOf e.q) fun c => { c with rs := c.rs ++ [r] }) (s.coreOf e.q)
      e.after (pushOp s e.cx.key { OutOp.new id 2 with replies := rsNames e.cx.o.d })

/-- R241, R242. -/
def execRsRow (o : Ops) (s : State) : Out := issue (shRsRow o) false rsRowEff o s

/-- R241: one level of a tree of sums. -/
def pairSums : List Word32 → List Word32
  | a :: b :: rest => rne32 (addNum (val32 a) (val32 b)) :: pairSums rest
  | _ => []

/-- R241: six levels, the first over terms that are exact. -/
def treeSum (terms : List Num) : Word32 :=
  let rec first : List Num → List Word32
    | a :: b :: rest => rne32 (addNum a b) :: first rest
    | _ => []
  ((pairSums (pairSums (pairSums (pairSums (pairSums (first terms))))))).headD 0#32

/-- R241: maximum, sum and sum of squares of a row. -/
def rowStats (t : Tile) (row : Nat) : Word32 × Word32 × Word32 :=
  let ys := (List.range 64).map fun c => rne32 (t.scaled row c)
  let best := ys.foldl (fun x y => BitVec.ofNat 32 (fMinMax fp32 true x.toNat y.toNat).bits) (ys.headD 0#32)
  let mx := if ys.any fun y => (val32 y).isNan then 0x7FC00000#32 else best
  (mx, treeSum (ys.map val32), treeSum (ys.map fun y => mulNum (val32 y) (val32 y)))

/-- R242: a row-statistics operation of a core writes D to D+2 with the rows that `row` gives, and counts off. Log 50, DEDUCED. -/
def rsFinish (s : State) (core : Nat) (r : RsOp) (row : Nat → Word32 × Word32 × Word32) : State :=
  let put (f : Files) : Files :=
    ((f.writeV r.d r.lanes (perLane fun L => (row L).1)).writeV (r.d + 1) r.lanes (perLane fun L => (row L).2.1)).writeV (r.d + 2)
      r.lanes (perLane fun L => (row L).2.2)
  let s := startRows (s.modCore core fun c => { c with rs := c.rs.filter fun x => x.id != r.id }) core
  releaseGroup (completeOp (engineWrite s r.squad put) r.squad r.id id) (groupOfSquad r.squad)

/-- R241, R242: from the tile as it stands. -/
def rsComplete (s : State) (core : Nat) (r : RsOp) : State :=
  rsFinish s core r fun L => rowStats ((s.core core).tile r.tile) (L + if r.half then 32 else 0)

/-- R243. -/
def rowCycles : Nat := 16

/-- R241–R243: the oldest row-statistics operation of a core, at its last cycle, once the FIFO operations posted before it have completed.
Log 50, DEDUCED. -/
def execRsRowComplete (core : Nat) (s : State) : Out :=
  match (s.core core).rs with
  | [] => notDue "RS_ROW_COMPLETE"
  | r :: _ =>
    if r.startedAt.any fun n => n + rowCycles ≤ s.cycle + 1 then .next (rsComplete s core r) else notDue "RS_ROW_COMPLETE"

end Sys2Proof.Machine
end

