-- ==== Sys2Proof/Machine/Preempt.lean ====
section
/-!
DEFINITION. Pre-emption (R160, R174, R222, R223, R262, R295–R301, R320): evicting and restoring squads and groups, discarding and
restarting idempotent groups, the turns of a slice group.
-/
namespace Sys2Proof.Machine

/-! ### When an eviction is wanted (R296, R320, R333, R341) -/

/-- The groups of lower priority placed on a core. -/
def lowerGroups (s : State) (core p : Nat) : List (Nat × Group) :=
  s.groups.filter fun (_, x) => x.status == .placed && x.core == core && (s.grid? x.grid).any fun g => gridPrio s g < p

/-- Frees the tiles and the clause array of a group. -/
def freeTiles (c : Core) : Core := { c with tileOwner := none, tiles := [] }
def freeClause (k : Cluster) : Cluster := { k with clauseOwner := none, clause := Clause.cleared 1024 4096 }
def freeEngines (s : State) (x : Group) : State :=
  let s := if x.matrix then s.modCore x.core freeTiles else s
  let s := if x.pair then s.modCore (x.core + 1) freeTiles else s
  if x.clause then s.modCluster (clusterOf x.core) freeClause else s

/-- A core as its groups of lower priority would leave it. -/
def without (s : State) (core p : Nat) : State :=
  let away (s : State) (y : Nat × Group) : State :=
    let s := (s.squadsOf y.1).foldl (fun s k => s.modSquad k fun q => { q with residency := .evicted false }) s
    (freeEngines s y.2).modGroup y.1 fun x => { x with status := .evicted }
  (lowerGroups s core p).foldl away s

/-- The least first, and by it the rest, of some numbered cores. -/
def insertCore (x : Nat × Nat) : List (Nat × Nat) → List (Nat × Nat)
  | [] => [x]
  | y :: ys => if x.1 < y.1 || (x.1 == y.1 && x.2 ≤ y.2) then x :: y :: ys else y :: insertCore x ys

/-- R296: the cores on which room is made for a grid that fits nowhere: as many as it still needs, of those that would take it without their groups
of lower priority, those first whose highest such priority is lowest. Log 62, DEDUCED. -/
def pressedCores (s : State) (id : Nat) (x : Grid) : List Nat :=
  match spanDie s (slotOf x.ctx) id (x.next / x.desc.perSpan) with
  | none => []
  | some die =>
    let p := gridPrio s x
    let cores := (List.range 64).map (64 * die + ·)
    let (fit, tight) := cores.partition (coreTakes s x die)
    let able := tight.filter fun c => coreTakes (without s c p) x die c
    let key (c : Nat) : Nat × Nat := ((lowerGroups s c p).foldl (fun n (_, y) => max n (((s.grid? y.grid).map (gridPrio s)).getD 0)) 0, c)
    (((able.foldl (fun l c => insertCore (key c) l) []).map (·.2)).take (x.batch - fit.length))

/-- R296: whether a grid of higher priority that fits nowhere takes the room that a core's grid holds, with nothing of lower priority there. Log 62,
DEDUCED. -/
def pressed (s : State) (core : Nat) (g : Grid) : Bool :=
  let p := gridPrio s g
  (lowerGroups s core p).isEmpty
    && s.grids.any fun (id, x) => x.unplaced && p < gridPrio s x && !fitsSomewhere s id x && (pressedCores s id x).contains core

/-- Whether the groups of a grid on a core are to leave it: their context is being paused, their partition's turn is over, the core's
cluster is retired, or a grid of higher priority takes their resources. Log 62, DEDUCED. -/
def evictWanted (s : State) (core : Nat) (g : Grid) : Bool :=
  ((s.ctx? g.ctx).map fun c => c.pausing.isSome).getD false
    || !(s.clustersNow (slotOf g.ctx)).getLsbD (clusterOf core) || (s.cluster (clusterOf core)).retired || pressed s core g

def squadWanted (s : State) (q : Squad) : Bool := ((s.grid? q.grid).map fun g => evictWanted s (s.coreOf q) g).getD false
def groupWanted (s : State) (x : Group) : Bool := ((s.grid? x.grid).map fun g => evictWanted s x.core g).getD false

/-! ### Squads (R296–R298) -/

/-- R297: whether a reconverged save may be made. -/
def Squad.reconverged (q : Squad) : Bool :=
  let l0 := q.lane (lowLane q.live)
  let same (l : Lane) : Bool := l.pc == l0.pc && l.hold == l0.hold && l.hold != .meeting && !l.parked && l.meetAt == l0.meetAt && l.meetMask == l0.meetMask
  q.tBusy.isNone && q.sBusy.isNone && q.events.isEmpty && (lanesOf q.live).all (fun i => same (q.lane i))
    && (l0.hold != .none || q.bundles.any fun b => maskLe q.live b.lanes)

/-- R144, R174, R296: a squad is saved and leaves its core slot: a glide rolls back, latch values are written, every mapped name goes to
its slot. Log 23, DEDUCED. -/
def saveSquad (s : State) (key : Nat) (full : Bool) : State :=
  let s := endRunOf (rollGlide s key) key
  match s.squad? key with
  | none => s
  | some q =>
    match writeSlots s key q q.files.toSlots with
    | .wait s => s
    | .dead s => endGrid s q.grid
    | .done _ s =>
      s.modSquad key fun q => { q with files := q.files.spill, residency := .evicted full, bundles := [], evictSince := none }

/-- R298: a squad whose eviction is no longer wanted has no request standing. -/
def dropRequests (s : State) : State :=
  let drop (q : Squad) : Squad := if q.evictSince.isSome && !squadWanted s q then { q with evictSince := none } else q
  { s with squads := mapAll s.squads fun _ q => drop q }

/-- R298: 20 µs. -/
def fullSaveCycles : Nat := 36000

def Squad.here (q : Squad) : Bool := q.residency == .resident && !q.ended

/-- R296, R297, R304: a squad that does not qualify for a reconverged save has its eviction requested; one of a halted group is saved
in full at once. Log 62, DEDUCED. -/
def execSquadEvict (key : Nat) (s : State) : Out :=
  let name := "SQUAD_EVICT"
  match s.squad? key with
  | none => notDue name
  | some q =>
    let halted := ((s.group? q.groupKey).map (·.halted)).getD false
    if !q.here || !squadWanted s q then notDue name
    else if halted then .next (saveSquad s key true)
    else if ((rollGlide s key).squad? key).any (·.reconverged) then .next (saveSquad s key false)
    else if q.evictSince.isSome then notDue name
    else .next (s.modSquad key fun q => { q with evictSince := some s.cycle })

/-- R298: 36,000 cycles after the request. Log 62, DEDUCED. -/
def execFullSaveTimeout (key : Nat) (s : State) : Out :=
  let name := "FULL_SAVE_TIMEOUT"
  match s.squad? key with
  | none => notDue name
  | some q =>
    match q.evictSince with
    | none => notDue name
    | some t => if q.here && squadWanted s q && t + fullSaveCycles ≤ s.cycle then .next (saveSquad s key true) else notDue name

/-! ### Groups (R296, R299) -/

/-- R300: the row-statistics operations of a group are completed from the tiles as they stand: the FIFO operations before them are
done. -/
def finishRows (s : State) (core gk : Nat) : State :=
  ((s.core core).rs.filter fun r => groupOfSquad r.squad == gk).foldl (fun s r => rsComplete s core r) s

/-- R160: the records of a group's shared-memory objects leave its core's table; whether they count as lost. -/
def dropRecords (s : State) (core gk : Nat) (lost : Bool) : State :=
  let mine (k : Nat) : Bool := k / 2 ^ 32 == gk
  let gone := ((s.core core).sync.map (·.key)).filter mine
  { s.modCore core fun c => { c with sync := c.sync.filter fun r => !mine r.key } with
    sharedLost := if lost then gone ++ s.sharedLost else s.sharedLost.filter fun k => !mine k }

/-- What a group holds of its core and cluster. -/
def savedOf (s : State) (x : Group) : SavedGroup :=
  { tiles := if x.matrix then (s.core x.core).tiles else [], followerTiles := if x.pair then (s.core (x.core + 1)).tiles else [],
    clause := if x.clause then some (s.cluster (clusterOf x.core)).clause else none }

/-- R329, R333: the pause of a context is reached with the eviction of its last group. -/
def notePause (s : State) (ctx : Nat) : State :=
  let placed := s.groups.any fun (_, x) => x.status == .placed && ((s.grid? x.grid).map (·.ctx)) == some ctx
  s.modCtx ctx fun c => if c.pausing.isSome && c.pausedAt.isNone && !placed then { c with pausedAt := some s.ns } else c

def ctxOfGroup (s : State) (x : Group) : Nat := ((s.grid? x.grid).map (·.ctx)).getD 0

/-- R160, R262, R296: a group whose squads are away is saved and its resources freed. Log 62, DEDUCED. -/
def saveGroup (s : State) (gk : Nat) (x : Group) : State :=
  let s := finishRows s x.core gk
  let saved := savedOf s x
  let s := dropRecords (freeEngines s x) x.core gk true
  notePause (s.modGroup gk fun x => { x with status := .evicted, saved := some saved }) (ctxOfGroup s x)

def squadsAway (s : State) (gk : Nat) : Bool := (s.squadsOf gk).all fun k => !((s.squad? k).map (·.here)).getD false

/-- R299. -/
def execGroupEvict (gk : Nat) (s : State) : Out :=
  match s.group? gk with
  | none => notDue "GROUP_EVICT"
  | some x =>
    if x.status != .placed || !groupWanted s x || !squadsAway s gk || groupWork s gk false then notDue "GROUP_EVICT"
    else .next (saveGroup s gk x)

/-! ### Restoring (R301) -/

/-- A squad takes a core slot again. -/
def bringBack (s : State) (key slot : Nat) : State :=
  tryEnter (s.modSquad key fun q => { q with residency := .resident, slot := slot }) key

/-- The squads of a group take the free slots of its core, in order. Log 63, DEDUCED. -/
def bringAll (s : State) (gk : Nat) : State :=
  ((s.squadsOf gk).filter fun k => ((s.squad? k).map fun q => !q.ended).getD false).foldl
    (fun s k => bringBack s k ((s.freeSlots (((s.group? gk).map (·.core)).getD 0)).headD 0)) s

/-- R301: whether a group may go to a core now. -/
def groupFits (s : State) (x : Group) (core : Nat) : Bool :=
  match s.grid? x.grid, s.span? x.span with
  | some g, some p => coreTakes s g p.die core
  | _, _ => false

/-- R112, R230, R249: a group stands on a core again, with the resources it had. Log 63, DEDUCED. -/
def seatGroup (s : State) (gk : Nat) (x : Group) (core : Nat) : State :=
  let unit := (s.sharedBase core (x.shSize / Config.sharedUnit)).getD 0
  let s := takeEngines s gk core x.matrix x.pair x.clause
  s.modGroup gk fun x => { x with core := core, shUnit := unit, status := .placed, saved := none }

/-- R301: a saved group is restored. Log 63, DEDUCED. -/
def restoreGroup (s : State) (gk : Nat) (x : Group) (core : Nat) : State :=
  let v := x.saved.getD { tiles := [], followerTiles := [], clause := none }
  let s := seatGroup s gk x core
  let s := if x.matrix then s.modCore core fun c => { c with tiles := v.tiles } else s
  let s := if x.pair then s.modCore (core + 1) fun c => { c with tiles := v.followerTiles } else s
  let s := match v.clause with
    | some a => s.modCluster (clusterOf core) fun k => { k with clause := a }
    | none => s
  bringAll s gk

def ctxPaused (s : State) (ctx : Nat) : Bool := ((s.ctx? ctx).map fun c => c.pausedAt.isSome || c.pausing.isSome).getD true

/-- R301: an evicted squad's core has a slot for it. -/
def squadFits (s : State) (q : Squad) : Bool :=
  let core := s.coreOf q
  !(s.freeSlots core).isEmpty && floorsFit ((s.slotsUsed core).length + 1) && !(s.cluster (clusterOf core)).retired
    && (s.clustersNow (slotOf (s.ctxOf q))).getLsbD (clusterOf core)

/-- R301. -/
def execSquadRestore (t : Restore) (s : State) : Out :=
  let name := "SQUAD_RESTORE"
  let held (ctx : Nat) (g : Option Grid) : Bool := ctxPaused s ctx || (g.map (yieldsTo s)).getD true
  match t with
  | .squad key =>
    match s.squad? key with
    | none => notDue name
    | some q =>
      let placed := ((s.group? q.groupKey).map fun x => x.status == .placed).getD false
      if q.ended || q.residency == .resident || !placed || !squadFits s q || held (s.ctxOf q) (s.grid? q.grid) then notDue name
      else .next (bringBack s key ((s.freeSlots (s.coreOf q)).headD 0))
  | .group gk core =>
    match s.group? gk with
    | none => notDue name
    | some x =>
      if x.status != .evicted || !groupFits s x core || held (ctxOfGroup s x) (s.grid? x.grid) then notDue name
      else .next (restoreGroup s gk x core)

/-! ### Discard and restart (R222, R223, R300) -/

/-- R222: whether a group is in an idempotent region. Log 62, DEDUCED. -/
def idempotent (s : State) (gk : Nat) (x : Group) : Bool :=
  let inside (q : Squad) : Bool := q.here && match q.region with
    | some r => !r.taint
    | none => false
  (s.squadsOf gk).length == x.nsq && (s.squadsOf gk).all fun k => ((s.squad? k).map inside).getD false

/-- R223: a lane at its region's entry. -/
def restartLane (r : Region) (level : Level) (launch : Nat → LaneKind) (i : Nat) : Lane :=
  let kind : LaneKind := if r.lanes.getLsbD i then .live else if launch i == .live then .exited else launch i
  startLane kind r.entry level

/-- R160: the operations of a squad's group whose accesses stand in the tags of its span's window: all of them came before a discard. -/
def groupOps (s : State) (q : Squad) : List Nat :=
  let ops (a : Access) : List Nat := if a.group == q.group then (a.op.map fun t => opWhole (t / opSpan)).toList else []
  (((s.span? (s.spanOf q)).map (·.tags)).getD []).flatMap fun (_, t) => (t.writer.map ops).getD [] ++ t.readers.flatMap ops

/-- R160, R223: a squad as it restarts. Log 63, DEDUCED. -/
def restartSquad (s : State) (key : Nat) (d : LaunchDesc) : State :=
  let s := dropRunOf s key
  let epochs := s.squads.map fun (k, q) => (k, q.epoch k)
  match s.squad? key with
  | none => s
  | some q =>
    match q.region with
    | none => s
    | some r =>
      let mine := epochs.filter fun (k, _) => groupOfSquad k == q.groupKey
      let old := groupOps s q
      s.setSquad key
        { q with
          lanes := perLane (restartLane r (s.launchLevel q) (laneKind d.lanes q.sq)), files := { v := [], s := [], a := [] },
          fctl := r.fctl, fflags := r.fflags, glideEn := r.glideEn, tBusy := none, sBusy := none, events := [], entered := [], recent := [], ops := [],
          bars := List.replicate d.barriers squadBarNone, glide := none, fenceSeen := [], published := [],
          bundles := [], evictSince := none, clock := { q.clock with squads := mapJoin q.clock.squads mine, ops := old.foldl addOnce q.clock.ops } }

/-- R160, R223: the group's own state at a restart. Log 63, DEDUCED. -/
def restartGroup (s : State) (gk : Nat) (x : Group) : State :=
  match s.grid? x.grid with
  | none => s
  | some g =>
    let s := dropRecords s x.core gk false
    let s := (s.squadsOf gk).foldl (fun s k => restartSquad s k g.desc) s
    s.modGroup gk fun x =>
      { x with shared := memWriteN [] 0 g.args, tags := [], barriers := List.replicate g.desc.barriers (barrierAt x.nsq) }

/-- R300: the group leaves its core; nothing of it is saved. -/
def discardGroup (s : State) (gk : Nat) (x : Group) : State :=
  let s := freeEngines (restartGroup s gk x) x
  let away (s : State) (k : Nat) : State := s.modSquad k fun q => { q with residency := .evicted false }
  let s := (s.squadsOf gk).foldl away s
  notePause (s.modGroup gk fun x => { x with status := .discarded, saved := none }) (ctxOfGroup s x)

/-- R300. Log 62, DEDUCED. -/
def execGroupDiscard (gk : Nat) (s : State) : Out :=
  match s.group? gk with
  | none => notDue "GROUP_DISCARD"
  | some x =>
    if x.status != .placed || !groupWanted s x || !idempotent s gk x || groupWork s gk true then notDue "GROUP_DISCARD"
    else .next (discardGroup s gk x)

/-- R223, R300: a discarded group is placed again and restarts. -/
def seatAgain (s : State) (gk : Nat) (x : Group) (core : Nat) : State := bringAll (seatGroup s gk x core) gk

/-- R223. -/
def execGroupRestart (gk core : Nat) (s : State) : Out :=
  match s.group? gk with
  | none => notDue "GROUP_RESTART"
  | some x =>
    let held := ctxPaused s (ctxOfGroup s x) || ((s.grid? x.grid).map (yieldsTo s)).getD true
    if x.status != .discarded || !groupFits s x core || held then notDue "GROUP_RESTART" else .next (seatAgain s gk x core)

/-! ### Slices (R320) -/

/-- R320: whether a member has a resident or queued group. -/
def hasGroups (s : State) (slot : Nat) : Bool :=
  s.grids.any fun (_, g) => slotOf g.ctx == slot && g.status != .complete && g.status != .cancelled

/-- R320: the sealed members of a slice group that have work, ascending. Log 64, DEDUCED. -/
def turnTakers (s : State) (leader : Nat) : List Nat :=
  (List.range 16).filter fun k => (s.part k).leader == some leader && (s.part k).status == .sealed && hasGroups s k

/-- R320: the next member in ascending order, around. Log 64, DEDUCED. -/
def nextTurn (s : State) (leader : Nat) : Option Nat :=
  let ms := turnTakers s leader
  match ms.find? ((s.part leader).turn < ·) with
  | some k => some k
  | none => ms.head?

/-- R320: the quantum is over, or the member whose turn it is has no group. Log 64, DEDUCED. -/
def execSliceTurn (leader : Nat) (s : State) : Out :=
  let p := s.part leader
  match nextTurn s leader with
  | none => notDue "SLICE_TURN"
  | some k =>
    if p.leader ≠ some leader then notDue "SLICE_TURN"
    else if p.turnSince + p.quantum * 1000 ≤ s.ns || !(turnTakers s leader).contains p.turn then
      .next (s.modPart leader fun p => { p with turn := k, turnSince := s.ns })
    else notDue "SLICE_TURN"

end Sys2Proof.Machine
end

