-- ==== Sys2Proof/Machine/Power.lean ====
section
/-!
DEFINITION. Power (R308–R316), the loss of retained state (R295, R341), and the throttling of R322. Which clips and budgets the policy
chooses is free.
-/
namespace Sys2Proof.Machine

/-! ### Reservations (R308) -/

/-- R308: the oldest request is granted. -/
def execReservationGrant (cl : Nat) (s : State) : Out :=
  if grantDue (s.cluster cl) then .next (s.grantIn cl) else notDue "RESERVATION_GRANT"

/-- R308, R240: whether what a reservation was taken for is over. -/
def returnDue (s : State) (cl : Nat) (r : Reservation) : Bool :=
  r.granted && (if r.cls = resVector then r.at_ + windowCycles ≤ s.cycle
    else if r.cls = resMatrix then
      let c := s.core r.owner
      c.fifo.isEmpty && c.burst.isNone && match c.array with
        | .idle | .rampDown _ => true
        | _ => false
    else if r.cls = resCopy then (s.findCopy (r.owner / 2 ^ 32)).isNone
    else (s.cluster cl).clauseRun.all fun x => x.id != r.owner)

/-- R308. -/
def execReservationReturn (cl request : Nat) (s : State) : Out :=
  match (s.cluster cl).queue.find? (·.id == request) with
  | some r => if returnDue s cl r then .next (s.giveBack cl r.cls r.owner) else notDue "RESERVATION_RETURN"
  | none => notDue "RESERVATION_RETURN"

/-! ### Islands (R310–R312) -/

/-- The resident squads of an island. -/
def islandSquads (s : State) (i : Nat) : List (Nat × Squad) := s.squads.filter fun (_, q) => q.here && islandOf s q == i

/-- R311: over the contexts with squads on the island, min(request, clip), a context's request the highest of its squads. -/
def islandTarget (s : State) (i : Nat) : Nat :=
  (islandSquads s i).foldl (fun n (_, q) => max n (min q.perfReq (s.part (slotOf (s.ctxOf q))).clip)) 0

/-- R310, R311. -/
def execIslandLevelChange (i : Nat) (s : State) : Out :=
  if (s.island i).level = islandTarget s i then notDue "ISLAND_LEVEL_CHANGE"
  else .next (s.modIsland i fun x => { x with level := islandTarget s i })

/-- R312: the four instructions at which an idle squad waits. Log 68, DEDUCED. -/
def waitRun (i : Instr) (s : State) : Out :=
  match i with
  | .waitc o => execWaitc o s
  | .waitl o => execWaitl o s
  | .swWait o => execSwWait o s
  | .chnWait o => execChnWait o s
  | _ => .next s

/-- Whether every squad of an island only waits, its frost aside. Log 68, DEDUCED. -/
def islandIdle (s : State) (i : Nat) : Bool :=
  let t := s.modIsland i fun x => { x with frost := false }
  (islandSquads s i).all fun (k, q) => squadIdle waitRun t k q

/-- R312: 2 µs; R316: 100 µs and 20 µs. -/
def frostCycles : Nat := 3600
def permafrostCycles : Nat := 180000
def thawCycles : Nat := 36000
/-- R312: 150 ns. -/
def frostExitNs : Nat := 150

def islandsOf (cl : Nat) : List Nat := (List.range 16).map (16 * cl + ·)
def allFrost (s : State) (cl : Nat) : Bool := (islandsOf cl).all fun i => (s.island i).frost

/-- R315: the island's squads have seen it in frost. -/
def seeFrost (s : State) (i : Nat) : State :=
  ((islandSquads s i).map (·.1)).foldl (fun s k => s.modSquad k fun q => { q with frostSeen := true }) s

/-- R312, R315. Log 68, DEDUCED. -/
def execFrostEnter (i : Nat) (s : State) : Out :=
  let x := s.island i
  if x.frost || x.level ≠ 0 || islandTarget s i ≠ 0 || s.cycle < x.idleSince + frostCycles || !islandIdle s i then notDue "FROST_ENTER"
  else
    let s := seeFrost (s.modIsland i fun x => { x with frost := true, waking := none }) i
    .next (if allFrost s (i / 16) then s.modCluster (i / 16) fun k => { k with frostSince := s.cycle } else s)

/-- R312: a squad becomes ready or is placed; 150 ns later the island leaves frost. Log 68, DEDUCED. -/
def execFrostExit (i : Nat) (s : State) : Out :=
  let x := s.island i
  if !x.frost || (s.cluster (i / 16)).permafrost then notDue "FROST_EXIT"
  else match x.waking with
    | none => if islandIdle s i then notDue "FROST_EXIT" else .next (s.modIsland i fun x => { x with waking := some s.ns })
    | some t =>
      if t + frostExitNs ≤ s.ns then
        .next (seeFrost (s.modIsland i fun x => { x with frost := false, waking := none, idleSince := s.cycle }) i)
      else notDue "FROST_EXIT"

/-! ### Permafrost (R316) -/

def coresOf (cl : Nat) : List Nat := (List.range 4).map (4 * cl + ·)

/-- R316: whether an engine operation of a cluster is outstanding. -/
def engineBusy (s : State) (cl : Nat) : Bool :=
  (s.cluster cl).clauseRun.isSome || (coresOf cl).any fun c => !((s.core c).fifo.isEmpty && (s.core c).rs.isEmpty && (s.core c).copies.isEmpty)

/-- R316. Log 68, DEDUCED. -/
def execPermafrostEnter (cl : Nat) (s : State) : Out :=
  let k := s.cluster cl
  if k.permafrost || !allFrost s cl || (islandsOf cl).any (fun i => (s.island i).waking.isSome) || s.cycle < k.frostSince + permafrostCycles || engineBusy s cl then notDue "PERMAFROST_ENTER"
  else .next (s.modCluster cl fun k => { k with permafrost := true, wakeAt := none })

/-! ### Lost state (R160, R295, R341) -/

/-- R160, R295: a squad of a group that is not restarted: its registers are unmapped, its clocks raised, and it takes RetentionLoss. -/
def loseSquad (s : State) (key : Nat) (sub : BitVec 16) : State :=
  let s := dropRunOf (rollGlide s key) key
  let now := s.nowClock (groupOfSquad key)
  let lose (q : Squad) : Squad :=
    { q with clock := q.clock.join now, misses := (q.misses + 1) % 2 ^ 32, files := { v := [], s := [], a := [] } }
  machineCheck (s.modSquad key lose) key causeRetention sub 0#64

/-- R295: what a group's core and cluster held is lost. -/
def loseEngines (s : State) (gk : Nat) (x : Group) : State :=
  let zero (s : State) (c : Nat) : State := s.modCore c fun c => { c with tiles := [] }
  let s := if x.matrix then zero s x.core else s
  let s := if x.pair then zero s (x.core + 1) else s
  let s := if x.clause then s.modCluster (clusterOf x.core) fun k => { k with clause := Clause.cleared k.clause.vars k.clause.cols } else s
  dropRecords s x.core gk true

def livingSquads (s : State) (gk : Nat) : List Nat := (s.squadsOf gk).filter fun k => (s.squad? k).any fun q => !q.ended

/-- R295: one group of a cluster whose check failed the first time. Log 69, DEDUCED. -/
def loseGroup (s : State) (gk : Nat) : State :=
  match s.group? gk with
  | none => s
  | some x =>
    if idempotent s gk x then takeEngines (restartGroup s gk x) gk x.core x.matrix x.pair x.clause
    else (livingSquads s gk).foldl (fun s k => loseSquad s k 0x0001#16) (loseEngines s gk x)

/-- R295, R341: one group of a cluster that is retired: it is moved as by an eviction. Log 69, DEDUCED. -/
def moveGroup (s : State) (gk : Nat) : State :=
  match s.group? gk with
  | none => s
  | some x =>
    if idempotent s gk x then discardGroup s gk x
    else
      let s := (livingSquads s gk).foldl (fun s k => loseSquad s k 0x0002#16) (loseEngines s gk x)
      let keys := (livingSquads s gk).filter fun k => (s.squad? k).any (·.here)
      let s := keys.foldl (fun s k => saveSquad s k true) s
      match s.group? gk with
      | some x => if x.status == .placed && squadsAway s gk then saveGroup s gk x else s
      | none => s

/-- R341: the health record's first 64 bytes. -/
def healthHead (s : State) : List Byte :=
  leBytes 2 1 ++ leBytes 6 0 ++ leBytes 8 s.ns ++ leBytes 8 s.retiredClusters.toNat ++ s.spares.flatMap (leBytes 1) ++ leBytes 4 s.retirements
    ++ leBytes 32 0

/-- R341: the die's spare takes the cluster's number, or the cluster leaves its partition. Log 69, DEDUCED. -/
def retireCluster (s : State) (cl : Nat) : State :=
  let d := dieOfCluster cl
  let s := { s with retirements := (s.retirements + 1) % 2 ^ 32, retiredClusters := s.retiredClusters ||| BitVec.twoPow 64 cl }
  if 0 < s.spares.getD d 0 then
    { (s.modCluster cl fun k => { k with checkFails := 0 }) with spares := s.spares.set d (s.spares.getD d 0 - 1) }
  else
    let drop (_ : Nat) (p : Partition) : Partition := { p with clusters := p.clusters &&& ~~~(BitVec.twoPow 64 cl) }
    let s := { (s.modCluster cl fun k => { k with retired := true }) with parts := mapAll s.parts drop }
    s.postBoth { kind := 8, tag := 0#16, status := 0, payload := healthHead s }

def placedOn (s : State) (cl : Nat) : List Nat :=
  (s.groups.filter fun (_, x) => x.status == .placed && clusterOf x.core == cl).map (·.1)

/-- R295: a check fails. Log 69, DEDUCED. -/
def retentionFails (s : State) (cl : Nat) : State :=
  let again := 0 < (s.cluster cl).checkFails
  let s := s.modCluster cl fun k => { k with checkFails := k.checkFails + 1 }
  if again then retireCluster ((placedOn s cl).foldl moveGroup s) cl else (placedOn s cl).foldl loseGroup s

/-- R316, R295: a wake cause; 20 µs later the cluster leaves permafrost and what it retained is checked. Log 68, DEDUCED. -/
def execPermafrostExit (cl : Nat) (passed : Bool) (s : State) : Out :=
  let k := s.cluster cl
  if !k.permafrost then notDue "PERMAFROST_EXIT"
  else match k.wakeAt with
    | none =>
      if (islandsOf cl).all (islandIdle s) then notDue "PERMAFROST_EXIT"
      else .next (s.modCluster cl fun k => { k with wakeAt := some s.cycle })
    | some t =>
      if s.cycle < t + thawCycles then notDue "PERMAFROST_EXIT"
      else
        let s := s.modCluster cl fun k => { k with permafrost := false, wakeAt := none }
        .next (if passed then s else retentionFails s cl)

/-! ### Power shares (R314) and throttling (R322) -/

/-- R314: a partition's demand: over its islands the levels it requests, and its queued reservations. -/
def demandOf (s : State) (slot : Nat) : Nat :=
  let mine := s.squads.filter fun (_, q) => q.here && slotOf (s.ctxOf q) == slot
  let islands := mine.foldl (fun is (_, q) => addOnce is (islandOf s q)) []
  let level (i : Nat) : Nat := (mine.filter fun (_, q) => islandOf s q == i).foldl (fun n (_, q) => max n q.perfReq) 0
  let own := (List.range 64).filter (s.clustersOf slot).getLsbD
  islands.foldl (fun n i => n + level i) 0 + own.foldl (fun n cl => n + ((s.cluster cl).queue.filter (!·.granted)).length) 0

/-- R335: whether the steward runs the power-share policy. -/
def stewardPower (s : State) : Bool := !s.firmware.assisted.getD 3 false

def noteDemand (s : State) (slot : Nat) : State := s.modPart slot fun p => { p with demandSeen := demandOf s slot }

/-- R314: power is lent to a partition: its clip and its budgets rise, how far is free. Log 70, DESIGN CHOICE. -/
def lendTo (s : State) (slot : Nat) : State :=
  let own := (List.range 64).filter (s.clustersOf slot).getLsbD
  let raise_ (s : State) (cl : Nat) : State :=
    s.modCluster cl fun k => { k with budget := max k.budget (s.freeWord 314 (16 + cl)).toNat }
  own.foldl raise_ (s.modPart slot fun p => { p with clip := max p.clip ((s.freeWord 314 slot).toNat % 8) })

/-- R314: in hardware mode, to a sealed partition that asks for more than it did. Log 70, DESIGN CHOICE. -/
def lendPower (slot : Nat) (s : State) : Out :=
  if !stewardPower s || (s.part slot).status != .sealed || demandOf s slot ≤ (s.part slot).demandSeen then .refused .badMove
  else .next (noteDemand (lendTo s slot) slot)

/-- R314: what other partitions borrowed is taken back: clips and budgets fall, down to their shares', how far is free. Log 70, DESIGN CHOICE. -/
def reclaim (s : State) (owner : Nat) : State :=
  let clipOf (k : Nat) (p : Partition) : Partition :=
    if k = owner then p else { p with clip := min p.clip (max (clipFor p.power) ((s.freeWord 314 k).toNat % 8)) }
  let cut (slot : Nat) (s : State) (cl : Nat) : State :=
    s.modCluster cl fun k => { k with budget := min k.budget (max (budgetFor (s.part slot).power) (s.freeWord 314 (16 + cl)).toNat) }
  let fall (s : State) (slot : Nat) : State := ((List.range 64).filter (s.clustersOf slot).getLsbD).foldl (cut slot) s
  ((List.range 16).filter (· != owner)).foldl fall { s with parts := mapAll s.parts clipOf }

/-- R314: in hardware mode, when the demand of a sealed partition has risen. Log 70, DESIGN CHOICE. -/
def execPowerReclaim (owner : Nat) (s : State) : Out :=
  if !stewardPower s || (s.part owner).status != .sealed || demandOf s owner ≤ (s.part owner).demandSeen then notDue "POWER_RECLAIM"
  else .next (noteDemand (reclaim s owner) owner)

/-- R322: 10 µs. -/
def latencyNs : Nat := 10000

/-- R322: whether the 99th percentile of a partition's latencies, the least that 99 in 100 do not exceed, is above its target; a window with
none counts as met. Log 70, DESIGN CHOICE. -/
def Partition.missed (p : Partition) : Bool :=
  p.status == .sealed && p.critical && (100 * (p.latencies.filter (· ≤ p.latency)).length < 99 * p.latencies.length)

/-- R322: the rates of best-effort partitions halve, down to 1/64, where a critical partition missed its target, or double. Log 70, DESIGN CHOICE. -/
def execLatencyWindow (missed : Bool) (s : State) : Out :=
  if s.ns < s.windowEnd + latencyNs || missed != s.parts.any fun (_, p) => p.missed then notDue "LATENCY_WINDOW"
  else
    let next (_ : Nat) (p : Partition) : Partition :=
      let p := { p with latencies := [] }
      if p.critical then p else { p with rate := if missed then min 6 (p.rate + 1) else p.rate - 1 }
    .next { s with parts := mapAll s.parts next, windowEnd := s.ns }

/-- R70: the data of a unit of LPDDR6 or expander memory are lost. Log 79, DESIGN CHOICE. -/
def spoilUnit (unit : Nat) (s : State) : Out :=
  match s.region (32 * unit) with
  | .lpddr _ | .expander _ => .next { s with spoiled := addOnce s.spoiled unit }
  | _ => .refused .badMove

end Sys2Proof.Machine
end

