-- ==== Sys2Proof/Machine/Host.lean ====
section
/-!
DEFINITION. The host side (R321, R330–R338, R341): commands and their completions, events, contexts, modes, the semaphore registers,
Floe routes, communicators, demand-filled ranges, the health record, host accesses to memory.
-/
namespace Sys2Proof.Machine

/-! ### Host memory (R69) -/

def hostBase : Nat := 2 ^ 51
def hostRead (s : State) (addr n : Nat) : List Byte := memReadN s.mem (hostBase + addr % hostBase) n
def hostWrite (s : State) (addr : Nat) (bs : List Byte) : State := { s with mem := memWriteN s.mem (hostBase + addr % hostBase) bs }

/-! ### Functions (R332) -/

def isPhysical (fn : Nat) : Bool := fn % 17 == 0

/-- R332: the slot a function stands for: the root for a physical one, the leader's for a slice group. Log 64, DEDUCED. -/
def slotOfFn (s : State) (fn : Nat) : Option Nat :=
  if isPhysical fn then some 0
  else match (s.fn fn).bound with
    | some (.slot n) => some n
    | some (.slice l) => some l
    | none => none

/-- R332: FNSTAT.READY. -/
def fnReady (s : State) (fn : Nat) : Bool :=
  s.firmware.loaded && (isPhysical fn || (slotOfFn s fn).any fun k => (s.part k).status == .sealed)

/-- R332: FNSTAT. -/
def fnStat (s : State) (fn : Nat) : Nat :=
  boolNat (fnReady s fn) + 2 * boolNat s.firmware.wait + 2 ^ 8 * ((slotOfFn s fn).getD 0xFF)

/-- R332: FWREV. -/
def fwRev (s : State) : Nat := s.firmware.microcode.toNat + 2 ^ 32 * s.firmware.translator.toNat

/-! ### Commands (R333) -/

def stDone : Nat := 0
def stRefused : Nat := 1
def stNotReady : Nat := 2
def stNoSemaphore : Nat := 3
def stBusy : Nat := 4
def stBadImage : Nat := 5
def stNotPermitted : Nat := 6

def completion (c : Command) (status : Nat) (payload : List Byte) : HostEvent := { kind := 1, tag := c.tag, status := status, payload := payload }

/-- R333: a command's completion event. -/
def answer (c : Command) (status : Nat) (payload : List Byte) (s : State) : Out := .next (s.post (fnKey c.fn) (completion c status payload))

/-- R333: the row of a command, and its code. -/
structure CommandKind where
  name : String
  code : Nat
  deriving DecidableEq, Repr

/-- R333: what a command needs before it is looked at. -/
structure CommandNeed where
  ready : Bool
  physical : Bool
  sem : Bool
  deriving DecidableEq, Repr

/-- R332, R333: the next entry of a function's command ring: CODE, TAG, zero and arguments. -/
def ringEntry (s : State) (f : HostFn) : List Byte :=
  hostRead s ((s.fn (fnKey f)).cmdBase.toNat + 64 * (s.fn (fnKey f)).cmdHead) 64

/-- R332, R333: whether a command is the next to be performed: the oldest doorbell is its function's, and the next entry of that function's ring
holds its code and its tag. Log 25, DEDUCED. -/
def rung (s : State) (c : Command) (code : Nat) : Bool :=
  match s.doorbells with
  | [] => false
  | (f, _) :: _ =>
    let e := ringEntry s c.fn
    f == fnKey c.fn && leField e 0 2 == code && leField e 2 2 == c.tag.toNat && leField e 4 4 == 0

/-- R332, R333: the device takes the next entry of the function's ring; the doorbell that announced it is answered with its last. -/
def takeCommand (c : Command) (s : State) : State :=
  let r := s.fn (fnKey c.fn)
  let head := (r.cmdHead + 1) % r.cmdSize
  let s := s.modFn (fnKey c.fn) fun r => { r with cmdHead := head }
  { s with doorbells := match s.doorbells with
      | [] => []
      | (f, tail) :: rest => if f = fnKey c.fn ∧ tail = head then rest else (f, tail) :: rest }

/-- R330: the party of a port. -/
def partyOf (p : HostPort) : Nat := portNum p + 1

/-- R333: whether a port holds the semaphore. -/
def holdsSem (s : State) (p : HostPort) : Bool := leased s && s.sem.owner == partyOf p

/-- R333: a command that is the next of its ring, and the statuses that come before its own effect. Log 25, DEDUCED. Log 74, DEDUCED. -/
def hostCommand (k : CommandKind) (n : CommandNeed) (c : Command) (go : State → Out) (s : State) : Out :=
  if !rung s c k.code then notDue k.name else
  let s := takeCommand c s
  if n.ready && !fnReady s (fnKey c.fn) then answer c stNotReady [] s
  else if n.physical && c.fn.vf.isSome then answer c stNotPermitted [] s
  else if n.sem && !holdsSem s c.fn.port then answer c stNoSemaphore [] s
  else go s

def forAny : CommandNeed := { ready := true, physical := false, sem := false }
def forPf : CommandNeed := { ready := true, physical := true, sem := false }
def forSem : CommandNeed := { ready := true, physical := true, sem := true }

/-- R333: a command on a context of the function's partition; another context gives Refused. -/
def onContext (c : Command) (ctx : Nat) (go : State → Out) (s : State) : Out :=
  if s.ctxRuns ctx && s.fnServes (fnKey c.fn) (slotOf ctx) then go s else answer c stRefused [] s

/-! ### Contexts (R321) -/

/-- R321, R333: contexts of slot 0 are a physical function's. -/
def ownSlot (c : Command) (go : Nat → State → Out) (s : State) : Out :=
  let slot := (slotOfFn s (fnKey c.fn)).getD 0
  if slot = 0 && c.fn.vf.isSome then answer c stNotPermitted [] s else go slot s

/-- R321. -/
def execCtxmake (c : Command) (number : Nat) (level : Level) (ptroot stvec : BitVec 64) (s : State) : Out :=
  hostCommand { name := "CTXMAKE", code := 0x0F } forAny c (ownSlot c fun slot s =>
    let ctx := slot * 256 + number
    if 256 ≤ number || (s.ctx? ctx).isSome || (level == .hypervisor && slot != 0) || (s.part slot).status != .sealed then
      answer c stRefused [] s
    else answer c stDone (payload8 [ctx]) { s with ctxs := mapSet s.ctxs ctx (newContext level (ptroot &&& ptrootMask) stvec) }) s

/-- R321: the completion waits until QCOUNT has moved twice. Log 74, DEDUCED. -/
def execCtxend (c : Command) (number : Nat) (s : State) : Out :=
  hostCommand { name := "CTXEND", code := 0x10 } forAny c (ownSlot c fun slot s =>
    let ctx := slot * 256 + number
    if 256 ≤ number || !s.ctxRuns ctx then answer c stRefused [] s
    else
      let s := endContext s ctx
      .next { s with delayed := s.delayed ++ [(fnKey c.fn, s.qcount + 2, completion c stDone [])] }) s

/-! ### Modes and answers (R78, R273, R314, R335) -/

/-- R335. -/
def execSetmode (c : Command) (function : Nat) (assisted : Bool) (s : State) : Out :=
  hostCommand { name := "SETMODE", code := 0x02 } forSem c (fun s =>
    if 5 ≤ function then answer c stRefused [] s
    else
      let s := { s with firmware := { s.firmware with assisted := s.firmware.assisted.set function assisted } }
      let shared := (List.range 16).filter fun k => (s.part k).status == .sealed
      answer c stDone [] (if function = 3 && !assisted then shared.foldl applyShare s else s)) s

/-- R78, R334, R335: a request that stands and was raised in host-assisted mode; a later answer is refused. -/
def execPrqans (c : Command) (entry : Nat) (fail : Bool) (s : State) : Out :=
  hostCommand { name := "PRQANS", code := 0x03 } forPf c (fun s =>
    if (mapGet s.requests entry).any (·.assisted) then answer c stDone [] (answerRequest s entry fail) else answer c stRefused [] s) s

/-- R272, R273, R334: an admitted grid goes when its queue's turn has come (R271, R272). -/
def execAdmitAnswer (c : Command) (ctx queue : Nat) (refuse : Bool) (s : State) : Out :=
  hostCommand { name := "ADMIT", code := 0x04 } forAny c (onContext c ctx fun s =>
    match s.grids.find? fun (_, g) => g.ctx == ctx && g.queue == queue && g.status == .requested with
    | some (id, _) =>
      answer c stDone []
        (if refuse then cancelGrid s id
         else
          let s := s.modGrid id fun g => { g with status := .granted }
          (tryHeads s true s.heads).2)
    | none => answer c stRefused [] s) s

/-- R308, R311, R333: in host-assisted mode. -/
def execPowerset (c : Command) (slot clip budget : Nat) (s : State) : Out :=
  hostCommand { name := "POWERSET", code := 0x05 } forPf c (fun s =>
    if !s.firmware.assisted.getD 3 false || 16 ≤ slot || 8 ≤ clip then answer c stRefused [] s
    else
      let s := s.modPart slot fun p => { p with clip := clip }
      let own := (List.range 64).filter (s.clustersOf slot).getLsbD
      answer c stDone [] (own.foldl (fun s cl => s.modCluster cl fun k => { k with budget := budget }) s)) s

/-! ### Floe (R337, R338) -/

/-- R337: the device's own pod number. -/
def setPod (c : Command) (fabid device : Nat) (ports : BitVec 12) (s : State) : Out :=
  if fabid ≠ 0 || ports != 0#12 || 64 ≤ device then answer c stRefused [] s else answer c stDone [] { s with podNumber := device }

/-- R337: index 0xFF names the pod number; 0x40 to 0xFE are refused. -/
def setRoute (c : Command) (index fabid device : Nat) (ports : BitVec 12) (s : State) : Out :=
  if index = 0xFF then setPod c fabid device ports s
  else if 64 ≤ index || 64 ≤ device then answer c stRefused [] s
  else answer c stDone [] { s with routes := mapSet s.routes index { fabid := fabid, device := device, ports := ports } }

/-- R337. -/
def execFloeroute (c : Command) (index fabid device : Nat) (ports : BitVec 12) (s : State) : Out :=
  hostCommand { name := "FLOEROUTE", code := 0x0A } forSem c (setRoute c index fabid device ports) s
/-- R337: the FLOEROUTE of index 0xFF. -/
def execFloeroutePod (c : Command) (fabid device : Nat) (ports : BitVec 12) (s : State) : Out :=
  hostCommand { name := "FLOEROUTE_POD", code := 0x0A } forSem c (setPod c fabid device ports) s

/-- R338. -/
def execComm (c : Command) (comm count addr : Nat) (s : State) : Out :=
  hostCommand { name := "COMM", code := 0x0B } forAny c (fun s =>
    if 2 ^ 24 ≤ comm || count < 2 || 256 < count then answer c stRefused [] s
    else
      let slot := (slotOfFn s (fnKey c.fn)).getD 0
      let x : Comm := { slot := slot, count := count, list := hostRead s addr (8 * count) }
      answer c stDone [] { s with comms := mapSet s.comms (commKey slot comm) x }) s

/-! ### Demand-filled ranges and frames (R79) -/

def DemandRange.overlaps (a b : DemandRange) : Bool := a.start < b.start + b.len && b.start < a.start + a.len

/-- R79. Log 80, DESIGN CHOICE. -/
def execDemandRegister (c : Command) (ctx start len key : Nat) (watch : Bool) (s : State) : Out :=
  hostCommand { name := "DEMAND_REGISTER", code := 0x0D } forAny c (onContext c ctx fun s =>
    let r : DemandRange := { start := start, len := len, key := key, watch := watch }
    let held := ((s.ctx? ctx).map (·.demand)).getD []
    if start % 65536 ≠ 0 || len % 65536 ≠ 0 || 64 ≤ key || Config.demandRanges ≤ held.length || held.any r.overlaps then
      answer c stRefused [] s
    else answer c stDone [] (s.modCtx ctx fun x => { x with demand := x.demand ++ [r] })) s

/-- R79: a registered range is removed. Log 80, DESIGN CHOICE. -/
def execDemandRemove (c : Command) (ctx start len : Nat) (s : State) : Out :=
  hostCommand { name := "DEMAND_REMOVE", code := 0x0D } forAny c (onContext c ctx fun s =>
    let hit (r : DemandRange) : Bool := r.start == start && r.len == len
    if ((s.ctx? ctx).map fun x => x.demand.any hit) == some true then
      answer c stDone [] (s.modCtx ctx fun x => { x with demand := x.demand.filter fun r => !hit r })
    else answer c stRefused [] s) s

/-- R79: the frames of a list that a pool takes, and how many. -/
def takeFrames (s : State) (slot : Nat) : List Nat → Nat × State
  | [] => (0, s)
  | f :: fs =>
    let pool := (s.part slot).pool
    if f % 65536 = 0 ∧ s.ownsRange slot f 65536 ∧ !pool.contains f ∧ pool.length < Config.poolFrames then
      let (n, s) := takeFrames (s.modPart slot fun p => { p with pool := addFrame p.pool f }) slot fs
      (n + 1, s)
    else takeFrames s slot fs

/-- R79, R333. -/
def execFrames (c : Command) (addr count : Nat) (s : State) : Out :=
  hostCommand { name := "FRAMES", code := 0x0E } forAny c (fun s =>
    let frame (i : Nat) : Nat := leNat (hostRead s (addr + 8 * i) 8)
    let (n, s) := takeFrames s ((slotOfFn s (fnKey c.fn)).getD 0) ((List.range count).map frame)
    answer c stDone (payload8 [n]) s) s

/-! ### Health (R341) -/

/-- R341. -/
def healthRecord (s : State) : List Byte :=
  let head := healthHead s
  head ++ if s.firmware.assisted.getD 4 false then leBytes 64 0 else leBytes 64 (Config.sm2Sign (Config.sm3 head)).toNat

/-- R341. -/
def execHealth (c : Command) (addr : Nat) (s : State) : Out :=
  hostCommand { name := "HEALTH", code := 0x0C } forAny c (fun s => answer c stDone [] (hostWrite s addr (healthRecord s))) s

/-! ### The semaphore at a host port (R330, R332) -/

/-- R332: what HPSEM reads. -/
def hpsem (s : State) : Nat := semState s

/-- R330, R332: the value that the port's access shows. -/
def hpsemOp (port : HostPort) (op : Nat) (s : State) : Out :=
  let s := semOp s (partyOf port) op
  .next { s with hostReply := leBytes 8 (hpsem s) }

/-- R330. -/
def execHpsemRead (port : HostPort) (s : State) : Out := hpsemOp port 0 s
/-- R330. -/
def execHpsemAcquire (port : HostPort) (s : State) : Out := hpsemOp port 1 s
/-- R330. -/
def execHpsemRenew (port : HostPort) (s : State) : Out := hpsemOp port 2 s
/-- R330. -/
def execHpsemRelease (port : HostPort) (s : State) : Out := hpsemOp port 3 s

/-! ### The registers of a function (R332) -/

/-- R332: what a host reads at an offset; `none` where the function has no register. -/
def fnReg (s : State) (f : HostFn) (offset : Nat) : Option Word64 :=
  let r := s.fn (fnKey f)
  match offset with
  | 0x000 => some (BitVec.ofNat 64 (fnStat s (fnKey f)))
  | 0x008 => some r.cmdBase
  | 0x010 => some (BitVec.ofNat 64 r.cmdSize)
  | 0x018 => some (BitVec.ofNat 64 r.cmdTail)
  | 0x020 => some (BitVec.ofNat 64 r.cmdHead)
  | 0x028 => some r.evBase
  | 0x030 => some (BitVec.ofNat 64 r.evSize)
  | 0x038 => some (BitVec.ofNat 64 r.evHead)
  | 0x040 => some (BitVec.ofNat 64 r.evTail)
  | 0x100 => if f.vf.isNone then some (BitVec.ofNat 64 (hpsem s)) else none
  | 0x108 => some Config.feature
  | 0x110 => some (BitVec.ofNat 64 (fwRev s))
  | _ => none

/-- R332: a host reads a register. Log 25, DEDUCED. -/
def readFnReg (f : HostFn) (offset : Nat) (s : State) : Out :=
  match fnReg s f offset with
  | some w => .next { s with hostReply := leBytes 8 w.toNat }
  | none => .refused .badMove

/-- R332: the sizes a ring may have. -/
def ringSize (n : Nat) : Bool := [16, 32, 64, 128, 256, 512, 1024, 2048, 4096].contains n

/-- R332: a ring's base, a multiple of 4 KiB. -/
def ringBase (w : Word64) : Word64 := w &&& ~~~0xFFF#64

/-- R5, R332: a write of a function's RW registers; a size that R332 does not allow is not taken. Log 25, DEDUCED. -/
def FnRegs.set (r : FnRegs) (offset : Nat) (w : Word64) : FnRegs :=
  match offset with
  | 0x008 => { r with cmdBase := ringBase w }
  | 0x010 => if ringSize w.toNat then { r with cmdSize := w.toNat } else r
  | 0x018 => { r with cmdTail := w.toNat % r.cmdSize }
  | 0x028 => { r with evBase := ringBase w }
  | 0x030 => if ringSize w.toNat then { r with evSize := w.toNat } else r
  | 0x040 => { r with evTail := w.toNat % r.evSize }
  | _ => r

/-- R332: a host writes a register; HPSEM performs an operation of R330. Log 25, DEDUCED. -/
def writeFnReg (f : HostFn) (offset : Nat) (w : Word64) (s : State) : Out :=
  if (fnReg s f offset).isNone then .refused .badMove
  else if offset = 0x100 then .next (semOp s (partyOf f.port) (w.toNat % 4))
  else
    let t := s.modFn (fnKey f) fun r => r.set offset w
    let tail := (t.fn (fnKey f)).cmdTail
    -- R332: writing CMDTAIL rings the doorbell
    if offset = 0x018 && tail ≠ (s.fn (fnKey f)).cmdTail then .next { t with doorbells := t.doorbells ++ [(fnKey f, tail)] } else .next t

/-- R314: the cap lies from 900 W to 1,800 W, and the shares sum to no more. Log 25, DEDUCED. -/
def setPowerCap (watts : Nat) (s : State) : Out :=
  if Config.capMin ≤ watts && watts ≤ Config.capMax && powerInUse s ≤ watts then .next { s with powerCap := watts } else .refused .badMove

/-! ### Events (R333, R334) -/

/-- R333: the 64 bytes of an event; a payload has 56 (log 20, DESIGN CHOICE). -/
def HostEvent.bytes (e : HostEvent) : List Byte :=
  leBytes 2 e.kind ++ leBytes 2 e.tag.toNat ++ leBytes 4 e.status ++ (e.payload ++ List.replicate 56 0#8).take 56

/-- R334: the oldest waiting event goes to the ring when the ring has room, and raises vector 0. Log 20, DESIGN CHOICE. -/
def execEventPost (fn : HostFn) (s : State) : Out :=
  let r := s.fn (fnKey fn)
  match r.waiting with
  | [] => notDue "EVENT_POST"
  | e :: rest =>
    if (r.evHead + 1) % r.evSize = r.evTail then notDue "EVENT_POST"
    else
      let s := hostWrite s (r.evBase.toNat + 64 * r.evHead) e.bytes
      .next (s.modFn (fnKey fn) fun r => { r with waiting := rest, evHead := (r.evHead + 1) % r.evSize, msix := r.msix + 1 })

/-! ### Host accesses (R331) -/

/-- R331: a host enables or disables CXL.mem on its port, in configuration space. Log 67, DEDUCED. -/
def enableMem (port : HostPort) (on : Bool) (s : State) : Out := .next { s with cxlMem := s.cxlMem.set (portNum port) on }

/-- R331: what a host reads of a byte: the ciphertext of a unit written under a key. Log 67, DEDUCED. -/
def hostByte (s : State) (pa : Nat) : Byte :=
  match s.unitKey (pa / 32) with
  | none => memRead s.mem pa
  | some 0 => memRead s.mem pa
  | some k => Config.cipherUnit k (pa / 32) (memReadN s.mem (pa / 32 * 32) 32) (pa % 32)

/-- R331: a unit that a host writes holds, from then on, what the host reads of it: key identity 0. Log 67, DEDUCED. -/
def hostPut (s : State) (pa : Nat) (b : Byte) : State :=
  let u := pa / 32
  let raw := (List.range 32).map fun i => hostByte s (32 * u + i)
  { s with mem := memWrite (memWriteN s.mem (32 * u) raw) pa b, unitKeys := mapSet s.unitKeys u 0,
           spoiled := s.spoiled.filter (· != u) }

def hostPutN (s : State) (pa : Nat) : List Byte → State
  | [] => s
  | b :: bs => hostPutN (hostPut s pa b) (pa + 1) bs

/-- The permafrost clusters of a die. -/
def asleep (s : State) (die : Nat) : List Nat := ((List.range 16).map (16 * die + ·)).filter fun cl => (s.cluster cl).permafrost

/-- R316: a wake cause reaches permafrost clusters. -/
def wakeAll (s : State) (cls : List Nat) : State :=
  cls.foldl (fun s cl => s.modCluster cl fun k => if k.wakeAt.isNone then { k with wakeAt := some s.cycle } else k) s

/-- R316: what reaches a permafrost cluster wakes it, and waits until its exit is complete. Log 26, DEDUCED. -/
def whenAwake (name : String) (cls : List Nat) (go : State → Out) (s : State) : Out :=
  if cls.isEmpty then go s
  else if cls.any fun cl => (s.cluster cl).wakeAt.isNone then .next (wakeAll s cls)
  else notDue name

/-- R327, R331: a host's access to the LPDDR6 range through its port; a write carries its bytes. Log 26, DEDUCED. Log 67, DEDUCED. -/
def execHostMemoryAccess (at_ : PortAddr) (len : Nat) (data : Option (List Byte)) (s : State) : Out :=
  let addr := at_.addr
  let n := (data.map (·.length)).getD len
  let name := "HOST_MEMORY_ACCESS"
  if 2 ^ 40 < addr + n then .fault .hostRange
  else if !s.firmware.loaded || !s.cxlMem.getD (portNum at_.port) false then notDue name
  else whenAwake name (asleep s (addr / 2 ^ 38)) (fun s =>
    match data with
    | none => .next { s.logAccess 0 logHostRead addr n with hostReply := (List.range n).map fun i => hostByte s (addr + i) }
    | some bs => .next (hostPutN (((s.fresh.2).markStale none s.nextId addr bs).logAccess 0 logHostWrite addr n) addr bs)) s

/-- R336: what MCTP over I3C reads of a physical function: FNSTAT, HPSEM, FEATURE or FWREV; or the health record. -/
def i3cRead (port : HostPort) (offset : Option Nat) (s : State) : Out :=
  match offset with
  | none => .next { s with hostReply := healthRecord s }
  | some n => if n = 0x000 || n = 0x100 || n = 0x108 || n = 0x110 then readFnReg { port := port, vf := none } n s else .refused .badMove

end Sys2Proof.Machine
end

