-- ==== Sys2Proof/Machine/Firmware.lean ====
section
/-!
DEFINITION. Bring-up (R317, R336, R341) and the firn cache (R42, R339).
-/
namespace Sys2Proof.Machine

/-! ### Power-on and reset (R336) -/

/-- R341: the bad clusters of a die that its spare does not replace. Log 69, DEDUCED. -/
def leftOut (bad : BitVec 64) : BitVec 64 :=
  let out (d : Nat) : List Nat := (((List.range 16).map (16 * d + ·)).filter bad.getLsbD).drop 1
  ((List.range 4).flatMap out).foldl (fun m c => m ||| BitVec.twoPow 64 c) 0#64

/-- R341: a spare is used on each die with a bad cluster. -/
def sparesLeft (bad : BitVec 64) : List Nat :=
  (List.range 4).map fun d => if ((List.range 16).map (16 * d + ·)).any bad.getLsbD then 0 else 1

/-- What no reset of the device touches: host memory, and the model's own counters and agenda. Log 75, DEDUCED. -/
def keepOutside (old new : State) : State :=
  { new with
    agenda := old.agenda, free := old.free, nextId := old.nextId, mem := List.filter (fun c => hostBase ≤ c.1) old.mem ++ new.mem }

/-- Clusters that are out of use leave the root partition. -/
def withoutClusters (s : State) (m : BitVec 64) : State :=
  let mark (s : State) (c : Nat) : State := s.modCluster c fun k => { k with retired := true }
  let s := ((List.range 64).filter m.getLsbD).foldl mark s
  { s.modPart 0 (fun p => { p with clusters := p.clusters &&& ~~~m }) with retiredClusters := m }

/-- R336: power-on: the clusters that fail their test are `bad`. Log 69, DEDUCED. -/
def execPowerOn (bad : BitVec 64) (s : State) : Out :=
  .next (keepOutside s { withoutClusters State.reset (leftOut bad) with spares := sparesLeft bad })

/-- R329, R336: a conventional reset: firmware is awaited, the firn cache is empty, the counter reads zero; spares and retirements, which
count since power-on, stand. Log 75, DEDUCED. -/
def execConventionalReset (s : State) : Out :=
  let out := (List.range 64).foldl (fun m c => if (s.cluster c).retired then m ||| BitVec.twoPow 64 c else m) 0#64
  let t := withoutClusters State.reset out
  .next (keepOutside s { t with firmware := { t.firmware with present := s.firmware.present }, spares := s.spares, retirements := s.retirements, retiredClusters := s.retiredClusters })

/-! ### Firmware (R336) -/

/-- R336: one LOADFW at a time, and one that succeeds. -/
def execLoadfw (c : Command) (addr len : Nat) (s : State) : Out :=
  hostCommand { name := "LOADFW", code := 0x01 } { ready := false, physical := true, sem := true } c (fun s =>
    if s.firmware.loaded || s.firmware.verifying.isSome then answer c stBusy [] s
    else .next { s with firmware := { s.firmware with verifying := some (c, addr, len) } }) s

/-- R336: the magic, "IZKFIRM" and a zero byte. -/
def magic : List Byte := [0x49#8, 0x5A#8, 0x4B#8, 0x46#8, 0x49#8, 0x52#8, 0x4D#8, 0#8]

def headerBytes : Nat := 160

/-- R336: bytes of the three parts. -/
def partsBytes (h : List Byte) : Nat := leField h 20 4 + leField h 24 4 + leField h 28 4

/-- R336: whether an image of a length is good. Log 75, DEDUCED. -/
def imageGood (s : State) (addr len : Nat) : Bool :=
  let h := hostRead s addr headerBytes
  let key := (h.drop 32).take 64
  let body := h.take 96 ++ hostRead s (addr + headerBytes) (partsBytes h)
  headerBytes ≤ len && h.take 8 == magic && leField h 8 4 == 1 && headerBytes + partsBytes h ≤ len
    && Config.sm3 key == Config.firmwareKeyDigest
    && Config.sm2Verify (BitVec.ofNat 512 (leNat key)) (Config.sm3 body) (BitVec.ofNat 512 (leField h 96 64))

/-- R331: the bytes that a port backs: none where no expander was there at the first firmware load since power-on. Log 75, DEDUCED. -/
def portBytes (present now : List Nat) (i : Nat) : Nat := if present.getD i 0 = 0 then 0 else min (now.getD i 0) (2 ^ 41)

/-- R317, R331, R336: the steward starts, slot 0 is sealed with key slot 0 loaded, the expanders are read. Log 75, DEDUCED. -/
def bringUp (s : State) (h : List Byte) (expanders : List Nat) : State :=
  let fw : Firmware :=
    { s.firmware with wait := false, verifying := none, loaded := true, microcode := BitVec.ofNat 32 (leField h 12 4),
                      translator := BitVec.ofNat 32 (leField h 16 4), assisted := [false, false, false, false, false],
                      expanders := (List.range 4).map (portBytes (s.firmware.present.getD expanders) expanders),
                      present := some (s.firmware.present.getD expanders) }
  let s := { s with firmware := fw }
  let s := drawKey s 0 (1 + (s.freeWord 317 0).toNat % 2) ((List.range 64).map fun i => s.freeByte 317 (1 + i))
  applyShare ((s.modKey 0 fun k => { k with bound := some 0 }).modPart 0 fun p => { p with status := .sealed }) 0

/-- R336: verification ends. Log 6, DEDUCED. -/
def execFirmwareVerifyDone (expanders : List Nat) (s : State) : Out :=
  match s.firmware.verifying with
  | none => notDue "FIRMWARE_VERIFY_DONE"
  | some (c, addr, len) =>
    if imageGood s addr len then answer c stDone [] (bringUp s (hostRead s addr headerBytes) expanders)
    else answer c stBadImage [] { s with firmware := { s.firmware with verifying := none } }

/-! ### The firn cache (R339) -/

/-- The words of a range of a context's virtual memory, as a fetch would read them; none where some page cannot be fetched. -/
def codeWords (s : State) (ctx start : Nat) : Nat → Option (List Word32)
  | 0 => some []
  | n + 1 =>
    if 2 ^ 48 ≤ start then none
    else match walk s ctx start .fetch with
      | .error _ => none
      | .ok l =>
        if !s.backs (slotOf ctx) l.pa ∨ !s.keyOk (slotOf ctx) l then none
        else (codeWords s ctx (start + 4) n).map fun ws => BitVec.ofNat 32 (leNat (s.readPhysN (s.key l.key).keyId l.pa 4)) :: ws

/-- R339: the firn key. -/
def firnKey (s : State) (ws : List Word32) : BitVec 256 :=
  Config.sm3 (bytesOfWords ws ++ leBytes 4 s.firmware.translator.toNat ++ leBytes 8 Config.feature.toNat ++ leBytes 4 s.firmware.microcode.toNat
    ++ leBytes 1 (Config.feature.toNat % 256))

/-- R339: bytes of the cache. -/
def firnBytes : Nat := 2 ^ 32

/-- The entries, most recent first, that fit. -/
def firnTrim (room : Nat) : List FirnEntry → List FirnEntry
  | [] => []
  | e :: es => if 4 * e.words.length ≤ room then e :: firnTrim (room - 4 * e.words.length) es else []

/-- R339: a valid entry for a range, in place of an older one. -/
def firnPut (s : State) (ctx start : Nat) (ws : List Word32) (key : BitVec 256) : State :=
  let e : FirnEntry := { ctx := ctx, start := start, words := ws, key := key, stale := false }
  { s with firn := firnTrim firnBytes (e :: s.firn.filter fun x => !(x.ctx == ctx && x.start == start)) }

def askTranslation (s : State) (c : Command) (ctx start len : Nat) (key : BitVec 256) : State :=
  let assisted := s.firmware.assisted.getD 1 false
  let (tag, s) := s.fresh
  let r : TransReq := { tag := tag, ctx := ctx, start := start, len := len, key := key, cmd := c, assisted := assisted }
  let s := { s with transReqs := s.transReqs ++ [r] }
  if assisted then
    s.postBoth { kind := 4, tag := 0#16, status := 0,
                 payload := leBytes 4 tag ++ leBytes 4 ctx ++ leBytes 8 start ++ leBytes 8 len ++ digestBytes key }
  else s

/-- R339: a hit, or a translation asked for. Log 75, DEDUCED. -/
def execXlate (c : Command) (ctx start len : Nat) (s : State) : Out :=
  hostCommand { name := "XLATE", code := 0x06 } forAny c (onContext c ctx fun s =>
    if start % 4 ≠ 0 || len % 4 ≠ 0 || len = 0 then answer c stRefused [] s
    else match codeWords s ctx start (len / 4) with
      | none => answer c stRefused [] s
      | some ws =>
        let key := firnKey s ws
        match s.firn.find? fun e => e.key == key && !e.stale with
        | some e => answer c stDone [] (firnPut s ctx start e.words key)
        | none => .next (askTranslation s c ctx start len key)) s

/-! ### What scheduled words may differ in (R42, R339) -/

/-- R42: whether a source field of scheduled form stands for one of Walfer form: the last-read bit is free, and a latch may stand. -/
def srcOk (w v : Nat) : Bool := w % 256 == v % 256 || (0xF0 ≤ v % 256 && v % 256 ≤ 0xF3 && w % 256 < 0xD0)

/-- The L opcodes whose C holds a number: comparisons and their bit, extensions, `qswp`, conversions, the fence's scope, barriers, `waitc`'s class,
codes of traps. -/
def numberOps : List Nat :=
  [0x020, 0x021, 0x022, 0x023, 0x024, 0x025, 0x026, 0x027, 0x028, 0x029, 0x02F, 0x030, 0x04E] ++
  [0x088, 0x089, 0x08A, 0x08B, 0x08C, 0x08D, 0x08E, 0x093, 0x094, 0x095] ++
  [0x130, 0x140, 0x141, 0x142, 0x143, 0x144, 0x148, 0x168, 0x16A, 0x16E]

/-- R27, R32: whether C of an opcode is no source: a number, or the engine of an X form. -/
def numberC (op : Nat) : Bool := 0x380 ≤ op || numberOps.contains op

/-- R27, R42: the first two words of an L, K or X form: HOLD, NWB, last-read bits and latches may differ. Log 27, DEDUCED. -/
def pairOk (w0 w1 v0 v1 : Nat) : Bool :=
  let c := if numberC (fieldAt w0 2 10) then fieldAt w1 0 9 == fieldAt v1 0 9 else srcOk (fieldAt w1 0 9) (fieldAt v1 0 9)
  fieldAt w0 0 12 == fieldAt v0 0 12 && fieldAt w0 31 1 == fieldAt v0 31 1 && srcOk (fieldAt w0 12 9) (fieldAt v0 12 9)
    && srcOk (fieldAt w0 21 9) (fieldAt v0 21 9) && c && fieldAt w1 9 8 == fieldAt v1 9 8 && fieldAt w1 18 14 == fieldAt v1 18 14

/-- R20: the words of the instruction at the head of a stream. -/
def headLength (w : Word32) : Nat := max 1 (formLength w.toNat)

/-- R42: scheduled words against Walfer words, instruction by instruction; trees and words that are no instruction are equal. Log 27, DEDUCED. -/
def scheduledOk : Nat → List Word32 → List Word32 → Bool
  | 0, ws, vs => ws == vs
  | _ + 1, [], vs => vs.isEmpty
  | fuel + 1, w :: ws, vs =>
    let n := headLength w
    let (i, j) := ((w :: ws).take n, vs.take n)
    let same := match i, j with
      | w0 :: w1 :: lit, v0 :: v1 :: lit' => if w.toNat % 4 = 3 then i == j else pairOk w0.toNat w1.toNat v0.toNat v1.toNat && lit == lit'
      | _, _ => i == j
    same && scheduledOk fuel ((w :: ws).drop n) (vs.drop n)

/-- R42: what Slamir yields: each HOLD bit is free; the other fields it may set change no result, and stay (log 27, DEDUCED). -/
def slamir (key : BitVec 256) : Nat → Nat → List Word32 → List Word32
  | 0, _, ws => ws
  | _ + 1, _, [] => []
  | fuel + 1, i, w :: ws =>
    let n := headLength w
    let form := w.toNat % 4
    let hold := (form == 1 || form == 2) && (Config.slamirWord key i w).getLsbD 30
    (if hold then w ||| 0x40000000#32 else w) :: (ws.take (n - 1) ++ slamir key fuel (i + n) (ws.drop (n - 1)))

/-- R339: a translation ends: its entry is valid, or the range stays untranslated. Log 75, DEDUCED. -/
def endTranslation (s : State) (r : TransReq) (ws : Option (List Word32)) : State :=
  let s := { s with transReqs := s.transReqs.filter fun x => x.tag != r.tag }
  match ws with
  | some ws => (firnPut s r.ctx r.start ws r.key).post (fnKey r.cmd.fn) (completion r.cmd stDone [])
  | none => s.post (fnKey r.cmd.fn) (completion r.cmd stRefused [])

/-- R339: the Walfer words of a request, if they are still those it was made for. -/
def walferOf (s : State) (r : TransReq) : Option (List Word32) :=
  (codeWords s r.ctx r.start (r.len / 4)).filter fun ws => firnKey s ws == r.key

/-- R339: in hardware mode. -/
def execSlamirTranslate (request : Nat) (s : State) : Out :=
  match s.transReqs.find? fun r => r.tag == request && !r.assisted with
  | none => notDue "SLAMIR_TRANSLATE"
  | some r => .next (endTranslation s r ((walferOf s r).map fun ws => slamir r.key ws.length 0 ws))

/-- R334, R339: the host's answer: scheduled bytes, or 0. -/
def execXldone (c : Command) (request addr : Nat) (s : State) : Out :=
  hostCommand { name := "XLDONE", code := 0x07 } forPf c (fun s =>
    match s.transReqs.find? fun r => r.tag == request && r.assisted with
    | none => answer c stRefused [] s
    | some r =>
      let offered := wordsOfBytes (hostRead s addr r.len)
      if addr = 0 then answer c stDone [] (endTranslation s r none)
      else match (walferOf s r).filter fun ws => scheduledOk ws.length ws offered with
        | some _ => answer c stDone [] (endTranslation s r (some offered))
        | none => answer c stRefused [] (endTranslation s r none)) s

end Sys2Proof.Machine
end

