-- ==== Sys2Proof/Machine/Debug.lean ====
section
/-!
DEFINITION. Debugging (R302–R304) and pauses (R296, R329, R333) by host commands.
-/
namespace Sys2Proof.Machine

/-! ### Attaching (R302) -/

def debuggerOf (s : State) (ctx : Nat) : Option HostFn := (s.ctx? ctx).bind (·.debugger)

/-- R302: a command of the debugger of a context. -/
def byDebugger (row : String) (c : Command) (ctx : Nat) (go : State → Out) (s : State) : Out :=
  hostCommand { name := row, code := 0x08 } forAny c (onContext c ctx fun s => if debuggerOf s ctx = some c.fn then go s else answer c stRefused [] s) s

/-- R302: a context has one debugger (log 28, DESIGN CHOICE). -/
def execDebugAttach (c : Command) (ctx : Nat) (s : State) : Out :=
  hostCommand { name := "DEBUG_ATTACH", code := 0x08 } forAny c (onContext c ctx fun s =>
    match debuggerOf s ctx with
    | some f => answer c (if f = c.fn then stDone else stRefused) [] s
    | none => answer c stDone [] (s.modCtx ctx fun x => { x with debugger := some c.fn })) s

/-- R302: the breakpoints go with the debugger. Log 28, DESIGN CHOICE. -/
def execDebugDetach (c : Command) (ctx : Nat) (s : State) : Out :=
  byDebugger "DEBUG_DETACH" c ctx (fun s => answer c stDone [] (s.modCtx ctx fun x => { x with debugger := none, breaks := [] })) s

/-- R302: four breakpoints. -/
def execDebugSetBreakpoint (c : Command) (ctx k : Nat) (addr : BitVec 64) (s : State) : Out :=
  byDebugger "DEBUG_SET_BREAKPOINT" c ctx (fun s =>
    if 4 ≤ k then answer c stRefused [] s else answer c stDone [] (s.modCtx ctx fun x => { x with breaks := mapSet x.breaks k addr })) s

/-- The groups of a context that a condition holds of. -/
def ctxGroups (s : State) (ctx : Nat) (p : Group → Bool) : List Nat :=
  (s.groups.filter fun (_, x) => ctxOfGroup s x == ctx && p x).map (·.1)

/-- R302: every bundle of every group stops at its next instruction boundary. -/
def execDebugHalt (c : Command) (ctx : Nat) (s : State) : Out :=
  byDebugger "DEBUG_HALT" c ctx (fun s => answer c stDone [] ((ctxGroups s ctx fun x => x.status == .placed && !x.halted).foldl haltGroup s)) s

/-! ### Resuming (R304) -/

/-- R304: the lanes of a squad's Breakpoint events continue at the user frame's RESUME, and TBUSY clears. -/
def resumeSquad (s : State) (key : Nat) : State :=
  match s.squad? key with
  | none => s
  | some q =>
    let m := q.events.foldl (fun m e => if e.halts then m ||| e.lanes else m) 0#32 &&& q.live
    if m = 0#32 then tryEnter s key
    else match spillRead s key q (userFrame + 28) 8 with
      | .wait s => s
      | .dead s => endGrid s q.grid
      | .done bs s =>
        let back (l : Lane) : Lane :=
          { l with pc := BitVec.ofNat 64 (leNat bs), parked := l.taken != .none, handler := l.taken, taken := .none,
                   hold := l.heldAt, heldAt := .none }
        let s := s.modSquad key fun q =>
          { q with lanes := (q.onLanes m back).lanes, events := q.events.filter fun e => !e.halts, tBusy := none }.settle
        tryEnter s key

/-- R304: a group whose RESUMEs could all be read runs on. -/
def resumeGroup (s : State) (gk : Nat) : State :=
  let s := s.modGroup gk fun x => { x with halted := false }
  (s.squadsOf gk).foldl resumeSquad s

/-- R128, R304: whether a squad's frame can be read now. -/
def frameReadable (s : State) (key : Nat) : Bool :=
  match s.squad? key with
  | none => true
  | some q => match spillProbe s key q (userFrame + 28) 8 with
    | .wait _ => false
    | _ => true

/-- R304: held until the frames can be read. Log 74, DEDUCED. -/
def execDebugResume (c : Command) (ctx : Nat) (s : State) : Out :=
  byDebugger "DEBUG_RESUME" c ctx (fun s =>
    let gks := ctxGroups s ctx (·.halted)
    let stopped (k : Nat) : Bool := (s.squad? k).any fun q => q.events.any (·.halts)
    if gks.any fun gk => (s.squadsOf gk).any fun k => stopped k && !frameReadable s k then notDue "DEBUG_RESUME"
    else answer c stDone [] (gks.foldl resumeGroup s)) s

/-! ### What a debugger reads (R303); the layout is the model's own (log 28, DESIGN CHOICE) -/

def holdCode : HoldAt → Nat
  | .none => 0
  | .meeting => 1
  | .barrier n => 0x100 + n
  | .spanBarrier => 2

def Lane.code (l : Lane) : Nat :=
  let kind := match l.kind with
    | .absent => 0
    | .helper => 1
    | .live => 2
    | .exited => 3
  let run := match l.handler with
    | .none => 0
    | .tvec => 1
    | .stvec => 2
    | .stvecOverTvec => 3
  kind + 2 ^ 8 * boolNat l.parked + 2 ^ 16 * run + 2 ^ 32 * holdCode l.hold

/-- R303: PC and state; where a lane is held at an address, that address. -/
def Lane.dump (l : Lane) : List Byte := payload8 [l.pc.toNat, l.code, (l.meetAt.getD 0#64).toNat, l.meetMask.toNat]

def dumpMap {V : Type} (m : Map V) (f : V → List Byte) : List Byte := payload8 [m.length] ++ m.flatMap fun (k, v) => leBytes 8 k ++ f v

def TrapEvent.dump (e : TrapEvent) : List Byte := e.frame .user false

def levelCode (l : Option Level) : Nat := ((l.map levelNum).map (· + 1)).getD 0

/-- R303: registers, busy bits, waiting events, per-barrier fields, counters and landing registers. -/
def Squad.dump (q : Squad) : List Byte :=
  q.lanes.flatMap Lane.dump ++ dumpMap q.files.v VReg.bytes ++ dumpMap q.files.s (fun r => leBytes 8 r.val.toNat) ++ dumpMap q.files.a AReg.bytes
    ++ payload8 [q.tvec.toNat, q.fctl.toNat, q.fflags.toNat, q.rolls, levelCode q.tBusy, levelCode q.sBusy, q.events.length]
    ++ q.events.flatMap TrapEvent.dump
    ++ q.bars.flatMap (fun b => payload8 [b.larr.toNat, boolNat b.pend, boolNat b.armed])
    ++ payload8 ((List.range 5).map q.counter) ++ q.ops.flatMap fun o => payload8 [o.id, o.landing.getD 0xFF]

def mxCode : MxKind → Nat
  | .mma => 0
  | .pair => 1
  | .zero => 2
  | .ldacc => 3
  | .drain => 4

def copyCode : CopyKind → Nat
  | .plain => 0
  | .gather => 6
  | .scatter => 7

/-- R303: an entry of a queue: poster, function, operands, state, bytes landed. -/
def Copy.dump (c : Copy) : List Byte :=
  let landed := c.landed.foldl (fun n p => n + c.size p) 0
  payload8 [c.squad, copyCode c.kind, c.srcTid + 256 * c.dstTid, c.c0, c.r0, c.indexOff, boolNat c.started, landed]
/-- R232, R303: with its records, which are its operands. -/
def MxOp.dump (o : MxOp) : List Byte :=
  payload8 [o.squad, mxCode o.kind, o.tile + 16 * o.barrier + 256 * boolNat o.acc, o.off, o.row, boolNat o.started] ++ o.a.bytes ++ o.b.bytes

def Tile.dump (t : Tile) : List Byte :=
  (List.range 4096).flatMap (fun i => leBytes 4 ((mapGet t.elems i).getD 0#32).toNat) ++ payload8 [boolNat t.set, t.tsa.toNat, t.tsb.toNat]

def Clause.dump (c : Clause) : List Byte :=
  payload8 [c.vars, c.cols, c.level, boolNat c.conf, c.ccol, c.trail.length] ++ c.trail.flatMap (leBytes 8)
    ++ dumpMap c.rows (fun r => payload8 [boolNat r.val, r.level, r.reason, r.pos])
    ++ dumpMap c.columns fun ls => payload8 [ls.length] ++ ls.flatMap fun l => leBytes 8 l.code

/-- R303: the registers with the spilled names' values, where their slots can be read. -/
def filesRead (s : State) (k : Nat) (q : Squad) : Files :=
  match readSlots s k q q.files.spilledSlots with
  | .done l _ => q.files.reloaded l
  | _ => q.files

def framesOf (s : State) (k : Nat) (q : Squad) : List Byte :=
  let rd (off : Nat) : List Byte := match spillRead s k q off 128 with
    | .done bs _ => bs
    | _ => leBytes 128 0
  rd userFrame ++ rd supervisorFrame

/-- R262, R303: the tiles and the clause array of a group, where it stands or as they were saved. -/
def enginesOf (s : State) (x : Group) : SavedGroup := x.saved.getD (savedOf s x)

/-- R303: everything read of one halted group. Log 28, DESIGN CHOICE. -/
def dumpGroup (s : State) (gk : Nat) : List Byte :=
  match s.group? gk with
  | none => []
  | some x =>
    let c := s.core x.core
    let v := enginesOf s x
    let mine (key : Nat) : Bool := groupOfSquad key == gk
    let squad (k : Nat) : List Byte := match s.squad? k with
      | some q => leBytes 8 k ++ { q with files := filesRead s k q }.dump ++ framesOf s k q
      | none => []
    payload8 [gk, x.core] ++ (s.squadsOf gk).flatMap squad ++ (c.copies.filter (mine ·.squad)).flatMap Copy.dump
      ++ (c.fifo.filter (mine ·.squad)).flatMap MxOp.dump
      ++ (if x.matrix then dumpMap v.tiles Tile.dump else []) ++ (if x.pair then dumpMap v.followerTiles Tile.dump else [])
      ++ ((v.clause.map (·.dump)).getD []) ++ x.barriers.flatMap fun b => payload8 [b.count, b.arrived, b.phase, b.epend]

/-- R303, R316: of the halted groups of a context, to a host address; with none it is refused. A permafrost cluster leaves permafrost first. Log 28,
DESIGN CHOICE. Log 26, DEDUCED. -/
def execDebugDump (c : Command) (ctx addr : Nat) (s : State) : Out :=
  let gks := ctxGroups s ctx (·.halted)
  let cls := (gks.filterMap fun gk => (s.group? gk).map fun x => clusterOf x.core).filter fun cl => (s.cluster cl).permafrost
  if rung s c 0x08 && debuggerOf s ctx == some c.fn && !cls.isEmpty then whenAwake "DEBUG_DUMP" cls .next s
  else byDebugger "DEBUG_DUMP" c ctx (fun s =>
    if gks.isEmpty then answer c stRefused [] s else answer c stDone [] (hostWrite s addr (gks.flatMap (dumpGroup s)))) s

/-! ### Pauses (R296, R301, R329, R333) -/

/-- R333: the pause begins: every resident squad of the context is asked to leave; it is over, and answered, once no group is placed. Log 74, DEDUCED. -/
def execPause (c : Command) (ctx : Nat) (s : State) : Out :=
  let placed (s : State) : Bool := !(ctxGroups s ctx fun x => x.status == .placed).isEmpty
  if (s.ctx? ctx).bind (·.pausing) = some c then
    if placed s then notDue "PAUSE"
    else answer c stDone [] (s.modCtx ctx fun x => { x with pausing := none, pausedAt := some (x.pausedAt.getD s.ns) })
  else hostCommand { name := "PAUSE", code := 0x09 } forAny c (onContext c ctx fun s =>
    if ((s.ctx? ctx).bind (·.pausing)).isSome then notDue "PAUSE"
    else if !placed s then answer c stDone [] (s.modCtx ctx fun x => { x with pausedAt := some (x.pausedAt.getD s.ns) })
    else
      let ask (q : Squad) : Squad := if q.here && s.ctxOf q == ctx && q.evictSince.isNone then { q with evictSince := some s.cycle } else q
      .next ({ s with squads := mapAll s.squads fun _ q => ask q }.modCtx ctx fun x => { x with pausing := some c })) s

/-- R301, R223: a group that is away is restored, or restarts. -/
def returnGroup (s : State) (gk core : Nat) : Option State :=
  match s.group? gk with
  | none => none
  | some x =>
    if !groupFits s x core then none
    else match x.status with
      | .evicted => some (restoreGroup s gk x core)
      | .discarded => some (seatAgain s gk x core)
      | _ => none

def returnGroups (s : State) : List (Nat × Nat) → Option State
  | [] => some s
  | (gk, core) :: rest => (returnGroup s gk core).bind fun s => returnGroups s rest

/-- R329: with FROZEN set, the paused time leaves OFFSET. -/
def Context.unpause (x : Context) (ns : Nat) : Context :=
  match x.pausedAt with
  | none => x
  | some t => { x with pausedAt := none, toffset := if x.frozen then x.toffset - BitVec.ofNat 64 (ns - t) else x.toffset }

/-- R333: the groups of a context that are away, in order, each to a core of the list; those beyond the list come back later
(R301). Log 74, DEDUCED. -/
def execPauseRestore (c : Command) (ctx : Nat) (cores : List Nat) (s : State) : Out :=
  hostCommand { name := "PAUSE_RESTORE", code := 0x09 } forAny c (onContext c ctx fun s =>
    let away := ctxGroups s ctx fun x => x.status == .evicted || x.status == .discarded
    if ((s.ctx? ctx).bind (·.pausing)).isSome || (cores.isEmpty && !away.isEmpty) || away.length < cores.length then notDue "PAUSE_RESTORE"
    else match returnGroups (s.modCtx ctx fun x => x.unpause s.ns) (away.zip cores) with
      | none => notDue "PAUSE_RESTORE"
      | some s => answer c stDone [] s) s

end Sys2Proof.Machine
end

