-- ==== Sys2Proof/Machine/Integer.lean ====
section
/-!
DEFINITION. The integer instructions (R43, R169, R177–R181): what each computes, its shape, and its meaning; the S forms (R26) are
the same instructions.
-/
namespace Sys2Proof.Machine

/-! ### Bit functions -/

/-- R177: leading zeros. -/
def clzNat (w n : Nat) : Nat := w - natSize n

/-- R177: set bits. -/
def popNat (w n : Nat) : Nat := (List.range w).foldl (fun k i => k + n / 2 ^ i % 2) 0

/-- R177: bits in reverse order. -/
def revNat (w n : Nat) : Nat := (List.range w).foldl (fun k i => 2 * k + n / 2 ^ i % 2) 0

/-- R178: position and width of a field, and how many of its bits lie inside. -/
def fieldPos (b : Nat) : Nat := b % 256
def fieldLen (w b : Nat) : Nat := min (fieldPos b + b / 256 % 256) w - fieldPos b

def bfeBits (w a b : Nat) : Nat := a / 2 ^ fieldPos b % 2 ^ fieldLen w b

/-- R178. -/
def bfeFn {w : Nat} (a b : BitVec w) : BitVec w := BitVec.ofNat w (bfeBits w a.toNat b.toNat)
def bfeSFn {w : Nat} (a b : BitVec w) : BitVec w := (BitVec.ofNat (fieldLen w b.toNat) (bfeBits w a.toNat b.toNat)).signExtend w
def bfiFn {w : Nat} (a b c : BitVec w) : BitVec w :=
  let n := fieldLen w b.toNat
  let low := BitVec.ofNat w (2 ^ n - 1)
  let mask := low <<< fieldPos b.toNat
  if n = 0 then c else c &&& ~~~mask ||| (a &&& low) <<< fieldPos b.toNat

/-- R179: writes one bit. -/
def setBit {w : Nat} (d : BitVec w) (n : Nat) (on : Bool) : BitVec w :=
  if on then d ||| BitVec.twoPow w n else d &&& ~~~BitVec.twoPow w n

def shlFn {w : Nat} (a b : BitVec w) : BitVec w := if w ≤ b.toNat then 0#w else a <<< b.toNat
def shrFn {w : Nat} (a b : BitVec w) : BitVec w := if w ≤ b.toNat then 0#w else a >>> b.toNat
def sraFn {w : Nat} (a b : BitVec w) : BitVec w := a.sshiftRight (min b.toNat w)

def mulhiFn {w : Nat} (a b : BitVec w) : BitVec w := ((a.signExtend (2 * w) * b.signExtend (2 * w)) >>> w).truncate w
def mulhiUFn {w : Nat} (a b : BitVec w) : BitVec w := ((a.zeroExtend (2 * w) * b.zeroExtend (2 * w)) >>> w).truncate w

/-! ### Shapes -/

/-- R177: `mov` has its one source in A or in B. Both or neither is ReservedBits. -/
def shMov (o : Ops) : Shape :=
  let sh := { Shape.base with d := .reg 1, rule := ruleMov }
  if o.a.name != .none then { sh with a := src1 }
  else if o.b.name != .none then { sh with b := src1 }
  else { sh with b := .number fun _ => false }

/-- R178: no affine destination, a zero-extended literal. -/
def shField (sh : Shape) : Shape := { sh with zeroExt := true }

/-- R179: the bit number stands in C. -/
def shSetb (o : Ops) : Shape :=
  { shAB ruleInt with
    c := .number fun n => n < 64, readsD := true,
    rule := fun d a b c => ruleInt d a b c && !(d == .varying && 32 ≤ o.c.bits % 64) }

/-- R180: the width stands in C. -/
def shExt : Shape := { shA ruleInt with c := .number fun n => 1 ≤ n && n ≤ 64 }

/-- R180: pairs. -/
def shWide (regs : Nat) : Shape :=
  { Shape.base with a := .src regs true, b := .src regs true, d := .reg 2, rule := ruleVar, cost := 2 }

/-- R181. -/
def ruleProm (d a _b _c : Cls) : Bool :=
  match d with
  | .affine => a == .uniform
  | .varying | .absent => a == .uniform || a == .affine
  | .uniform => false

/-! ### Affine results (R169) -/

def affMov : AffFn := fun a b => if a.cls == .absent then (b.w, b.strideInt) else (a.w, a.strideInt)
def affAdd : AffFn := fun a b => (a.w + b.w, a.strideInt + b.strideInt)
def affSub : AffFn := fun a b => (a.w - b.w, a.strideInt - b.strideInt)
def affMul : AffFn := fun a b => (a.w * b.w, a.strideInt * b.w.toInt)
/-- A shift by 64 or more leaves every nonzero stride out of range and 0 modulo 2^64. -/
def affShl : AffFn := fun a b => (shlFn a.w b.w, a.strideInt * 2 ^ min b.w.toNat 64)
def affProm : AffFn := fun a _ => (a.w, 0)

/-! ### Meanings -/

/-- R43: does nothing. -/
def execNop (o : Ops) (s : State) : Out :=
  issue shNone false (semEff .nop) o s

/-- R177: the one source; the field that holds none reads 0. -/
def semMov : Sem := .int fun _ _ _ a b _ _ => a ||| b

/-- R177: the one source; the field that holds none reads 0. -/
def execMov (o : Ops) (s : State) : Out :=
  issue (shMov o) false (semOrAff semMov affMov) o s

/-- R26. -/
def execMovS (d a : Name) (s : State) : Out :=
  issue (shMov (sOps d a .none)) true (semOrAff semMov affMov) (sOps d a .none) s

/-- R26. -/
def execMovSi (d : Name) (imm : BitVec 16) (s : State) : Out :=
  issue (shMov (sImm d .none (imm.signExtend 32))) true (semOrAff semMov affMov) (sImm d .none (imm.signExtend 32)) s

/-- R177. -/
def semAdd : Sem := .int fun _ _ _ a b _ _ => a + b

/-- R177. -/
def execAdd (o : Ops) (s : State) : Out :=
  issue (shAB ruleAdd) false (semOrAff semAdd affAdd) o s

/-- R26. -/
def execAddS (d a b : Name) (s : State) : Out :=
  issue (shAB ruleAdd) true (semOrAff semAdd affAdd) (sOps d a b) s

/-- R26. -/
def execAddSi (d a : Name) (imm : Byte) (s : State) : Out :=
  issue (shAB ruleAdd) true (semOrAff semAdd affAdd) (sImm d a (imm.signExtend 32)) s

/-- R177. -/
def semSub : Sem := .int fun _ _ _ a b _ _ => a - b

/-- R177. -/
def execSub (o : Ops) (s : State) : Out :=
  issue (shAB ruleAdd) false (semOrAff semSub affSub) o s

/-- R26. -/
def execSubS (d a b : Name) (s : State) : Out :=
  issue (shAB ruleAdd) true (semOrAff semSub affSub) (sOps d a b) s

/-- R177. -/
def semMul : Sem := .int fun _ _ _ a b _ _ => a * b

/-- R177. -/
def execMul (o : Ops) (s : State) : Out :=
  issue (shAB ruleMul) false (semOrAff semMul affMul) o s

/-- R26. -/
def execMulS (d a b : Name) (s : State) : Out :=
  issue (shAB ruleMul) true (semOrAff semMul affMul) (sOps d a b) s

/-- R177. -/
def semMulhi : Sem := .int fun _ _ _ a b _ _ => mulhiFn a b

/-- R177. -/
def execMulhi (o : Ops) (s : State) : Out :=
  issue (shAB ruleInt) false (semEff semMulhi) o s

/-- R177. -/
def semMulhiU : Sem := .int fun _ _ _ a b _ _ => mulhiUFn a b

/-- R177. -/
def execMulhiU (o : Ops) (s : State) : Out :=
  issue (shAB ruleInt) false (semEff semMulhiU) o s

/-- R177. -/
def semMad : Sem := .int fun _ _ _ a b c _ => a * b + c

/-- R177. -/
def execMad (o : Ops) (s : State) : Out :=
  issue (shABC ruleInt) false (semEff semMad) o s

/-- R177. -/
def semMin : Sem := .int fun _ _ _ a b _ _ => if a.slt b then a else b

/-- R177. -/
def execMin (o : Ops) (s : State) : Out :=
  issue (shAB ruleInt) false (semEff semMin) o s

/-- R26. -/
def execMinS (d a b : Name) (s : State) : Out :=
  issue (shAB ruleInt) true (semEff semMin) (sOps d a b) s

/-- R177. -/
def semMax : Sem := .int fun _ _ _ a b _ _ => if a.slt b then b else a

/-- R177. -/
def execMax (o : Ops) (s : State) : Out :=
  issue (shAB ruleInt) false (semEff semMax) o s

/-- R26. -/
def execMaxS (d a b : Name) (s : State) : Out :=
  issue (shAB ruleInt) true (semEff semMax) (sOps d a b) s

/-- R177. -/
def semMinU : Sem := .int fun _ _ _ a b _ _ => if a.ult b then a else b

/-- R177. -/
def execMinU (o : Ops) (s : State) : Out :=
  issue (shAB ruleInt) false (semEff semMinU) o s

/-- R177. -/
def semMaxU : Sem := .int fun _ _ _ a b _ _ => if a.ult b then b else a

/-- R177. -/
def execMaxU (o : Ops) (s : State) : Out :=
  issue (shAB ruleInt) false (semEff semMaxU) o s

/-- R177. -/
def semAbs : Sem := .int fun _ _ _ a _ _ _ => if a.msb then -a else a

/-- R177. -/
def execAbs (o : Ops) (s : State) : Out :=
  issue (shA ruleInt) false (semEff semAbs) o s

/-- R177. -/
def semNeg : Sem := .int fun _ _ _ a _ _ _ => -a

/-- R177. -/
def execNeg (o : Ops) (s : State) : Out :=
  issue (shA ruleInt) false (semEff semNeg) o s

/-- R177. -/
def semAnd : Sem := .int fun _ _ _ a b _ _ => a &&& b

/-- R177. -/
def execAnd (o : Ops) (s : State) : Out :=
  issue (shAB ruleInt) false (semEff semAnd) o s

/-- R26. -/
def execAndS (d a b : Name) (s : State) : Out :=
  issue (shAB ruleInt) true (semEff semAnd) (sOps d a b) s

/-- R26. -/
def execAndSi (d a : Name) (imm : Byte) (s : State) : Out :=
  issue (shAB ruleInt) true (semEff semAnd) (sImm d a (imm.zeroExtend 32)) s

/-- R177. -/
def semOr : Sem := .int fun _ _ _ a b _ _ => a ||| b

/-- R177. -/
def execOr (o : Ops) (s : State) : Out :=
  issue (shAB ruleInt) false (semEff semOr) o s

/-- R26. -/
def execOrS (d a b : Name) (s : State) : Out :=
  issue (shAB ruleInt) true (semEff semOr) (sOps d a b) s

/-- R26. -/
def execOrSi (d a : Name) (imm : Byte) (s : State) : Out :=
  issue (shAB ruleInt) true (semEff semOr) (sImm d a (imm.zeroExtend 32)) s

/-- R177. -/
def semXor : Sem := .int fun _ _ _ a b _ _ => a ^^^ b

/-- R177. -/
def execXor (o : Ops) (s : State) : Out :=
  issue (shAB ruleInt) false (semEff semXor) o s

/-- R26. -/
def execXorS (d a b : Name) (s : State) : Out :=
  issue (shAB ruleInt) true (semEff semXor) (sOps d a b) s

/-- R26. -/
def execXorSi (d a : Name) (imm : Byte) (s : State) : Out :=
  issue (shAB ruleInt) true (semEff semXor) (sImm d a (imm.zeroExtend 32)) s

/-- R177. -/
def semNot : Sem := .int fun _ _ _ a _ _ _ => ~~~a

/-- R177. -/
def execNot (o : Ops) (s : State) : Out :=
  issue (shA ruleInt) false (semEff semNot) o s

/-- R177. -/
def semAndn : Sem := .int fun _ _ _ a b _ _ => a &&& ~~~b

/-- R177. -/
def execAndn (o : Ops) (s : State) : Out :=
  issue (shAB ruleInt) false (semEff semAndn) o s

/-- R177. -/
def semShl : Sem := .int fun _ _ _ a b _ _ => shlFn a b

/-- R177. -/
def execShl (o : Ops) (s : State) : Out :=
  issue (shAB ruleMul) false (semOrAff semShl affShl) o s

/-- R26. -/
def execShlS (d a b : Name) (s : State) : Out :=
  issue (shAB ruleMul) true (semOrAff semShl affShl) (sOps d a b) s

/-- R26. -/
def execShlSi (d a : Name) (imm : Byte) (s : State) : Out :=
  issue (shAB ruleMul) true (semOrAff semShl affShl) (sImm d a (imm.zeroExtend 32)) s

/-- R177. -/
def semShr : Sem := .int fun _ _ _ a b _ _ => shrFn a b

/-- R177. -/
def execShr (o : Ops) (s : State) : Out :=
  issue (shAB ruleInt) false (semEff semShr) o s

/-- R26. -/
def execShrS (d a b : Name) (s : State) : Out :=
  issue (shAB ruleInt) true (semEff semShr) (sOps d a b) s

/-- R26. -/
def execShrSi (d a : Name) (imm : Byte) (s : State) : Out :=
  issue (shAB ruleInt) true (semEff semShr) (sImm d a (imm.zeroExtend 32)) s

/-- R177. -/
def semSra : Sem := .int fun _ _ _ a b _ _ => sraFn a b

/-- R177. -/
def execSra (o : Ops) (s : State) : Out :=
  issue (shAB ruleInt) false (semEff semSra) o s

/-- R26. -/
def execSraS (d a b : Name) (s : State) : Out :=
  issue (shAB ruleInt) true (semEff semSra) (sOps d a b) s

/-- R26. -/
def execSraSi (d a : Name) (imm : Byte) (s : State) : Out :=
  issue (shAB ruleInt) true (semEff semSra) (sImm d a (imm.zeroExtend 32)) s

/-- R177. -/
def semRotl : Sem := .int fun w _ _ a b _ _ => a.rotateLeft (b.toNat % w)

/-- R177. -/
def execRotl (o : Ops) (s : State) : Out :=
  issue (shAB ruleInt) false (semEff semRotl) o s

/-- R177. -/
def semClz : Sem := .int fun w _ _ a _ _ _ => BitVec.ofNat w (clzNat w a.toNat)

/-- R177. -/
def execClz (o : Ops) (s : State) : Out :=
  issue (shA ruleInt) false (semEff semClz) o s

/-- R177. -/
def semPopc : Sem := .int fun w _ _ a _ _ _ => BitVec.ofNat w (popNat w a.toNat)

/-- R177. -/
def execPopc (o : Ops) (s : State) : Out :=
  issue (shA ruleInt) false (semEff semPopc) o s

/-- R177. -/
def semBrev : Sem := .int fun w _ _ a _ _ _ => BitVec.ofNat w (revNat w a.toNat)

/-- R177. -/
def execBrev (o : Ops) (s : State) : Out :=
  issue (shA ruleInt) false (semEff semBrev) o s

/-- R177. -/
def semSel : Sem := .int fun _ _ _ a b c _ => if c.getLsbD 0 then a else b

/-- R177. -/
def execSel (o : Ops) (s : State) : Out :=
  issue (shABC ruleInt) false (semEff semSel) o s

/-- R178. -/
def semBfe : Sem := .int fun _ _ _ a b _ _ => bfeFn a b

/-- R178. -/
def execBfe (o : Ops) (s : State) : Out :=
  issue (shField (shAB ruleInt)) false (semEff semBfe) o s

/-- R178. -/
def semBfeS : Sem := .int fun _ _ _ a b _ _ => bfeSFn a b

/-- R178. -/
def execBfeS (o : Ops) (s : State) : Out :=
  issue (shField (shAB ruleInt)) false (semEff semBfeS) o s

/-- R178. -/
def semBfi : Sem := .int fun _ _ _ a b c _ => bfiFn a b c

/-- R178. -/
def execBfi (o : Ops) (s : State) : Out :=
  issue (shField (shABC ruleInt)) false (semEff semBfi) o s

/-- R179: bit n of D. -/
def semSetb (c : ICmp) : Sem := .int fun _ _ n a b _ d => setBit d (n % 64) (c.holds a b)

/-- R179. -/
def execSetbEq (o : Ops) (s : State) : Out :=
  issue (shSetb o) false (semEff (semSetb .eq)) o s

/-- R179. -/
def execSetbNe (o : Ops) (s : State) : Out :=
  issue (shSetb o) false (semEff (semSetb .ne)) o s

/-- R179. -/
def execSetbLt (o : Ops) (s : State) : Out :=
  issue (shSetb o) false (semEff (semSetb .lt)) o s

/-- R179. -/
def execSetbLe (o : Ops) (s : State) : Out :=
  issue (shSetb o) false (semEff (semSetb .le)) o s

/-- R179. -/
def execSetbGt (o : Ops) (s : State) : Out :=
  issue (shSetb o) false (semEff (semSetb .gt)) o s

/-- R179. -/
def execSetbGe (o : Ops) (s : State) : Out :=
  issue (shSetb o) false (semEff (semSetb .ge)) o s

/-- R179. -/
def execSetbLtu (o : Ops) (s : State) : Out :=
  issue (shSetb o) false (semEff (semSetb .ltu)) o s

/-- R179. -/
def execSetbLeu (o : Ops) (s : State) : Out :=
  issue (shSetb o) false (semEff (semSetb .leu)) o s

/-- R179. -/
def execSetbGtu (o : Ops) (s : State) : Out :=
  issue (shSetb o) false (semEff (semSetb .gtu)) o s

/-- R179. -/
def execSetbGeu (o : Ops) (s : State) : Out :=
  issue (shSetb o) false (semEff (semSetb .geu)) o s

/-- R180. -/
def semAddW : Sem := .wide true fun a b => a + b
def semSubW : Sem := .wide true fun a b => a - b
/-- R180: exact in 64 bits. -/
def semMulWide : Sem := .wide false fun a b => a * b

/-- R180. -/
def execAddW (o : Ops) (s : State) : Out :=
  issue (shWide 2) false (semEff semAddW) o s

/-- R180. -/
def execSubW (o : Ops) (s : State) : Out :=
  issue (shWide 2) false (semEff semSubW) o s

/-- R180. -/
def execMulWide (o : Ops) (s : State) : Out :=
  issue (shWide 1) false (semEff semMulWide) o s

/-- R180. -/
def semSext : Sem := .int fun w _ n a _ _ _ => (a.truncate (min n w)).signExtend w

/-- R180. -/
def execSext (o : Ops) (s : State) : Out :=
  issue shExt false (semEff semSext) o s

/-- R180. -/
def semZext : Sem := .int fun w _ n a _ _ _ => (a.truncate (min n w)).zeroExtend w

/-- R180. -/
def execZext (o : Ops) (s : State) : Out :=
  issue shExt false (semEff semZext) o s

/-- R181. -/
def semProm : Sem := .int fun _ _ _ a _ _ _ => a

/-- R181. -/
def execProm (o : Ops) (s : State) : Out :=
  issue (shA ruleProm) false (semOrAff semProm affProm) o s

end Sys2Proof.Machine
end

