-- ==== Sys2Proof/Machine/Float.lean ====
section
/-!
DEFINITION. The floating-point and special-function instructions (R190–R204). Operand classes follow R190, flags R191, and
FloatException R192; `Machine/Flags.lean` holds what each delivers.
-/
namespace Sys2Proof.Machine

/-! ### Shapes -/

/-- R196: the bit number stands in C, as in `setb`. -/
def shFcvt (o : Ops) : Shape :=
  let code := o.c.bits % 256
  { shA ruleInt with
    b := if fcvtReadsB code then src1 else .unused, c := .number fun n => n < 256, undefined := !fcvtListed code }

/-- R199: the mode stands in C. -/
def shF2i : Shape := { shA ruleInt with c := .number fun n => n < 4 }

/-- R204: a special function of n quads takes ⌈n / 2⌉ cycles; into a uniform D, one. -/
def quadsOf (m : LaneMask) : Nat := ((List.range 8).filter fun k => m.toNat / 2 ^ (4 * k) % 16 != 0).length

def shSpecial (o : Ops) (s : State) : Shape :=
  let quads := ((s.issuing.map fun i => quadsOf i.lanes).getD 0)
  { shA ruleInt with cost := if destCls o.d == .varying then (quads + 1) / 2 else 1 }

/-! ### Sems -/

def fp2 (f : Fmt → Rm → Nat → Nat → FRes) : Sem := .float false fun rm _ a b _ _ => f fp32 rm a b
def semFfma : Sem := .float false fun rm _ a b c _ => fFma fp32 rm a b c
def semFminMax (m : Bool) : Sem := .float false fun _ _ a b _ _ => fMinMax fp32 m a b
/-- R195: the bit pattern alone. -/
def semFabs : Sem := .float false fun _ _ a _ _ _ => { bits := a % 2 ^ 31, flags := 0#5 }
def semFneg : Sem := .float false fun _ _ a _ _ _ => { bits := (a + 2 ^ 31) % 2 ^ 32, flags := 0#5 }
/-- R196: bit n of D; D has 64 bits where it is uniform. -/
def semFsetb (c : FCmp) : Sem :=
  .float false fun _ n a b _ d => { bits := (setBit (BitVec.ofNat 64 d) (n % 64) (c.holds a b)).toNat, flags := c.flags a b }
/-- R197. -/
def semFrnd (rm : Rm) : Sem := .float false fun _ _ a _ _ _ => fRnd rm a
/-- R198. -/
def semFcvt : Sem := .float false fun rm n a b _ _ => (fcvtRes (n % 256) rm a b).getD { bits := 0, flags := 0#5 }
/-- R199: a uniform D takes the result sign-extended. -/
def semF2i : Sem := .float true fun _ n a _ _ _ => f2iRes (rmOf n) a
def semF2u : Sem := .float false fun _ n a _ _ _ => f2uRes (rmOf n) a
/-- R200. -/
def semI2f : Sem := .float false fun rm _ a _ _ _ => i2fRes rm (BitVec.ofNat 32 a)
def semU2f : Sem := .float false fun rm _ a _ _ _ => u2fRes rm (BitVec.ofNat 32 a)
/-- R201. -/
def semAdd2 (f : Fmt) : Sem := .float false fun rm _ a b _ _ => packed (fun x y _ => fAdd f rm x y) a b 0
def semMul2 (f : Fmt) : Sem := .float false fun rm _ a b _ _ => packed (fun x y _ => fMul f rm x y) a b 0
def semFma2 (f : Fmt) : Sem := .float false fun rm _ a b c _ => packed (fFma f rm) a b c
/-- R202, R203. -/
def semSpecial (x : Special) : Sem := .float false fun rm _ a _ _ _ => x.res rm a

/-! ### Meanings -/

/-- R193. -/
def execFadd (o : Ops) (s : State) : Out := issue (shAB ruleInt) false (semEff (fp2 fAdd)) o s

/-- R26, R193. -/
def execFaddS (d a b : Name) (s : State) : Out := issue (shAB ruleInt) true (semEff (fp2 fAdd)) (sOps d a b) s

/-- R193. -/
def execFsub (o : Ops) (s : State) : Out := issue (shAB ruleInt) false (semEff (fp2 fSub)) o s

/-- R26, R193. -/
def execFsubS (d a b : Name) (s : State) : Out := issue (shAB ruleInt) true (semEff (fp2 fSub)) (sOps d a b) s

/-- R193. -/
def execFmul (o : Ops) (s : State) : Out := issue (shAB ruleInt) false (semEff (fp2 fMul)) o s

/-- R26, R193. -/
def execFmulS (d a b : Name) (s : State) : Out := issue (shAB ruleInt) true (semEff (fp2 fMul)) (sOps d a b) s

/-- R193. -/
def execFfma (o : Ops) (s : State) : Out := issue (shABC ruleInt) false (semEff semFfma) o s

/-- R194. -/
def execFmin (o : Ops) (s : State) : Out := issue (shAB ruleInt) false (semEff (semFminMax false)) o s

/-- R194. -/
def execFmax (o : Ops) (s : State) : Out := issue (shAB ruleInt) false (semEff (semFminMax true)) o s

/-- R195. -/
def execFabs (o : Ops) (s : State) : Out := issue (shA ruleInt) false (semEff semFabs) o s

/-- R195. -/
def execFneg (o : Ops) (s : State) : Out := issue (shA ruleInt) false (semEff semFneg) o s

/-- R196. -/
def execFsetbEq (o : Ops) (s : State) : Out := issue (shSetb o) false (semEff (semFsetb .eq)) o s

/-- R196. -/
def execFsetbNe (o : Ops) (s : State) : Out := issue (shSetb o) false (semEff (semFsetb .ne)) o s

/-- R196. -/
def execFsetbLt (o : Ops) (s : State) : Out := issue (shSetb o) false (semEff (semFsetb .lt)) o s

/-- R196. -/
def execFsetbLe (o : Ops) (s : State) : Out := issue (shSetb o) false (semEff (semFsetb .le)) o s

/-- R196. -/
def execFsetbGt (o : Ops) (s : State) : Out := issue (shSetb o) false (semEff (semFsetb .gt)) o s

/-- R196. -/
def execFsetbGe (o : Ops) (s : State) : Out := issue (shSetb o) false (semEff (semFsetb .ge)) o s

/-- R196. -/
def execFsetbUn (o : Ops) (s : State) : Out := issue (shSetb o) false (semEff (semFsetb .un)) o s

/-- R197. -/
def execFrndRn (o : Ops) (s : State) : Out := issue (shA ruleInt) false (semEff (semFrnd .near)) o s

/-- R197. -/
def execFrndRz (o : Ops) (s : State) : Out := issue (shA ruleInt) false (semEff (semFrnd .zero)) o s

/-- R197. -/
def execFrndRd (o : Ops) (s : State) : Out := issue (shA ruleInt) false (semEff (semFrnd .down)) o s

/-- R197. -/
def execFrndRu (o : Ops) (s : State) : Out := issue (shA ruleInt) false (semEff (semFrnd .up)) o s

/-- R198. -/
def execFcvt (o : Ops) (s : State) : Out := issue (shFcvt o) false (semEff semFcvt) o s

/-- R199. -/
def execF2i (o : Ops) (s : State) : Out := issue shF2i false (semEff semF2i) o s

/-- R199. -/
def execF2u (o : Ops) (s : State) : Out := issue shF2i false (semEff semF2u) o s

/-- R200. -/
def execI2f (o : Ops) (s : State) : Out := issue (shA ruleInt) false (semEff semI2f) o s

/-- R200. -/
def execU2f (o : Ops) (s : State) : Out := issue (shA ruleInt) false (semEff semU2f) o s

/-- R201. -/
def execHadd2 (o : Ops) (s : State) : Out := issue (shAB ruleInt) false (semEff (semAdd2 fp16)) o s

/-- R201. -/
def execHmul2 (o : Ops) (s : State) : Out := issue (shAB ruleInt) false (semEff (semMul2 fp16)) o s

/-- R201. -/
def execHfma2 (o : Ops) (s : State) : Out := issue (shABC ruleInt) false (semEff (semFma2 fp16)) o s

/-- R201. -/
def execBfadd2 (o : Ops) (s : State) : Out := issue (shAB ruleInt) false (semEff (semAdd2 bf16)) o s

/-- R201. -/
def execBfmul2 (o : Ops) (s : State) : Out := issue (shAB ruleInt) false (semEff (semMul2 bf16)) o s

/-- R201. -/
def execBffma2 (o : Ops) (s : State) : Out := issue (shABC ruleInt) false (semEff (semFma2 bf16)) o s

/-- R202, R203. -/
def execRcp (o : Ops) (s : State) : Out := issue (shSpecial o s) false (semEff (semSpecial .rcp)) o s

/-- R202, R203. -/
def execRsq (o : Ops) (s : State) : Out := issue (shSpecial o s) false (semEff (semSpecial .rsq)) o s

/-- R202, R203. -/
def execSqrt (o : Ops) (s : State) : Out := issue (shSpecial o s) false (semEff (semSpecial .sqrt)) o s

/-- R202, R203. -/
def execEx2 (o : Ops) (s : State) : Out := issue (shSpecial o s) false (semEff (semSpecial .ex2)) o s

/-- R202, R203. -/
def execLg2 (o : Ops) (s : State) : Out := issue (shSpecial o s) false (semEff (semSpecial .lg2)) o s

/-- R202, R203. -/
def execSin (o : Ops) (s : State) : Out := issue (shSpecial o s) false (semEff (semSpecial .sin)) o s

/-- R202, R203. -/
def execCos (o : Ops) (s : State) : Out := issue (shSpecial o s) false (semEff (semSpecial .cos)) o s

/-- R202, R203. -/
def execTanh (o : Ops) (s : State) : Out := issue (shSpecial o s) false (semEff (semSpecial .tanh)) o s

end Sys2Proof.Machine
end

