-- ==== Sys2Proof/Machine/Happen.lean ====
section
/-!
DEFINITION. Events of cores and squads: regroup ticks (R15), the end of a `yield` (R220), trap entry (R287), address breakpoints (R302), engine
errors (R294).
-/
namespace Sys2Proof.Machine

/-- R15: every 4 cycles. -/
def execRegroupTick (core : Nat) (s : State) : Out :=
  if s.cycle % Config.regroupCycles = 0 then .next (regroupCore s core) else notDue "REGROUP_TICK"

/-- R220: a lane's cycles under `yield` are over. -/
def execYieldExpire (squad lane : Nat) (s : State) : Out :=
  let past := (s.squad? squad).any fun q => (q.lane lane).yieldUntil.any fun t => t ≤ s.cycle
  if past then .next (s.modSquad squad fun q => q.onLanes (BitVec.twoPow 32 lane) fun l => { l with yieldUntil := none })
  else notDue "YIELD_EXPIRE"

/-- R287: a waiting event whose frame is free enters. -/
def execTrapEntry (squad : Nat) (s : State) : Out :=
  let due := (s.squad? squad).any fun q =>
    ((nextEvent q q.events).isSome || q.hopeless) && q.here && !(((s.group? q.groupKey).map (·.halted)).getD false)
  if due then .next (tryEnter s squad) else notDue "TRAP_ENTRY"

/-- R302: a bundle stands at breakpoint k. -/
def execAddressBreakpoint (squad : Nat) (lanes : LaneMask) (k : Nat) (s : State) : Out :=
  let at_ (q : Squad) : Bool := breakAt s (s.ctxOf q) (q.lane (lowLane lanes)).pc == some k
  if canIssue s squad lanes && (s.squad? squad).any at_ then .next (breakLanes s squad lanes k) else notDue "ADDRESS_BREAKPOINT"

/-! ### Engine errors (R294) -/

/-- R294: ADDR: the engine in [2:0], the function in [14:8]. -/
def engineAddr (engine fn : Nat) : Word64 := BitVec.ofNat 64 (engine + 2 ^ 8 * fn)

def nan32 : Word32 := 0x7FC00000#32

/-- R294: the tile holds NaN in every element. -/
def nanTile (s : State) (core : Nat) (o : MxOp) : State :=
  s.setTile core o.tile { o.pairAfter ((s.core core).tile o.tile) with elems := tileElems fun _ _ => nan32 }

/-- R294: the matrix operation that runs on a core fails, and completes. Log 76, DEDUCED. -/
def matrixError (core : Nat) (s : State) : Out :=
  match (s.core core).fifo with
  | [] => notDue "ENGINE_ERROR"
  | o :: rest =>
    if !o.started then notDue "ENGINE_ERROR"
    else
      let o := o.inOrder s core
      let s := nanTile (noteFifo s core o) core o
      let s := if o.kind = .pair then nanTile s (core + 1) o else s
      let s := (s.giveBack (clusterOf core) resMatrix core).modCore core fun c => { c with fifo := rest }
      let s := (o.arrays core).foldl startRows (endArrays s core o)
      .next (releaseGroup (machineCheck (mxDone s o) o.squad causeEngine 0x0001#16 (engineAddr 1 (mxCode o.kind))) (groupOfSquad o.squad))

/-- R294: the oldest row-statistics operation of a core. Log 76, DEDUCED. -/
def rowError (core : Nat) (s : State) : Out :=
  match (s.core core).rs with
  | [] => notDue "ENGINE_ERROR"
  | r :: _ => if r.startedAt.isNone then notDue "ENGINE_ERROR" else .next (machineCheck (rsFinish s core r fun _ => (nan32, nan32, nan32)) r.squad causeEngine 0x0002#16 (engineAddr 2 0))

/-- R294: the command a clause array runs: the array is cleared, its reply is free. Log 76, DEDUCED. -/
def clauseError (cl : Nat) (s : State) : Out :=
  match (s.cluster cl).clauseRun with
  | none => notDue "ENGINE_ERROR"
  | some r =>
    let clear (k : Cluster) : Cluster := { k with clauseRun := none, clause := Clause.cleared k.clause.vars k.clause.cols }
    let s := (s.giveBack cl resClause r.id).modCluster cl clear
    let s := engineWrite s r.squad fun f => writeResult f r.d (.uniform (s.freeWord 294 r.id))
    let s := machineCheck (completeOp s r.squad r.id id) r.squad causeEngine 0x0003#16 (engineAddr 3 r.fn)
    .next (releaseGroup s (groupOfSquad r.squad))

/-- The bytes of a copy that have not landed. -/
def Copy.missing (c : Copy) : Nat := (c.due.filter fun p => !c.landed.contains p).foldl (fun n p => n + c.size p) 0

/-- R294: a near copy: each byte holds its prior or its landed value, and the copy counts as landed. Log 76, DEDUCED. -/
def copyError (copy : Nat) (s : State) : Out :=
  match s.findCopy copy with
  | none => notDue "ENGINE_ERROR"
  | some (core, c) =>
    if !c.started then notDue "ENGINE_ERROR"
    else
      let s := lowerLanding (landSome s core c) c fun _ => 0#64
      let s := raiseSync s c c.pieces c.missing
      let open_ := s.opOpen c.squad c.id
      let s := dropCopy (completeOp s c.squad c.id id) core c
      if !open_ then .next s else .next (machineCheck s c.squad causeEngine 0x0004#16 (engineAddr 0 (copyCode c.kind)))

/-- R294. Log 76, DEDUCED. -/
def execEngineError (op : EngineOp) (s : State) : Out :=
  match op with
  | .matrix core => matrixError core s
  | .rowStats core => rowError core s
  | .clause cl => clauseError cl s
  | .nearCopy copy => copyError copy s

end Sys2Proof.Machine
end

