-- ==== Sys2Proof/Machine/Lanes.lean ====
section
/-!
DEFINITION. The lane and class instructions (R175, R176, R182–R188).
-/
namespace Sys2Proof.Machine

/-! ### Results over a bundle -/

/-- One value per executing lane. -/
def bundleEff (f : Env → Nat → Word32) (e : Env) : Eff :=
  e.result (if e.dCls == .varying then .varying e.active [perLane (f e)] else .none)

/-- A value of the whole bundle: broadcast to a varying destination, or written to a uniform one (R183, R184). -/
def squadEff (v : Env → Word32) (u : Env → Word64) (e : Env) : Eff :=
  match e.dCls with
  | .uniform => e.result (if e.runs then .uniform (u e) else .kept false)
  | .varying => e.result (.varying e.active [perLane fun _ => v e])
  | _ => e.result .none

def ruleVarSrc (ok : Cls → Cls → Bool) (d a b _c : Cls) : Bool := (d == .varying || d == .absent) && ok a b

/-! ### rdlane, wrlane (R182) -/

/-- R182: a uniform D, a varying or affine A, a uniform B. -/
def ruleRdlane (d a b _c : Cls) : Bool := (d == .uniform || d == .absent) && (a == .varying || a == .affine) && b == .uniform

/-- R175, R182: lane L's value of A; an absent lane reads zero. -/
def laneVal (e : Env) (L : Nat) : Word32 := if (e.q.lane L).kind == .absent then 0#32 else e.x.a.at32 L

/-- R182. Log 45, DEDUCED. -/
def execRdlane (o : Ops) (s : State) : Out :=
  issue (shAB ruleRdlane) false
    (fun e => e.result (
      if !e.runs then .kept false else .uniform ((laneVal e (e.x.b.w.toNat % 32)).zeroExtend 64))) o s

/-- R182: the one lane that is written. -/
def execWrlane (o : Ops) (s : State) : Out :=
  issue { shAB (ruleVarSrc fun a b => a == .uniform && b == .uniform) with readsD := true } false
    (fun e =>
      let L := e.x.b.w.toNat % 32
      let m := maskOf fun i => i == L && e.active.getLsbD i
      e.result (if e.dCls == .varying then .varying m [perLane fun _ => e.x.a.w.truncate 32] else .none)) o s

/-! ### Reductions (R183) -/

inductive RedOp where
  | add | min | max | minU | and | or | xor
  deriving DecidableEq, Repr

def RedOp.identity : RedOp → Word32
  | .add | .or | .xor => 0#32
  | .min => 0x7FFFFFFF#32
  | .max => 0x80000000#32
  | .minU | .and => 0xFFFFFFFF#32

def RedOp.apply : RedOp → Word32 → Word32 → Word32
  | .add, a, b => a + b
  | .min, a, b => if a.slt b then a else b
  | .max, a, b => if a.slt b then b else a
  | .minU, a, b => if a.ult b then a else b
  | .and, a, b => a &&& b
  | .or, a, b => a ||| b
  | .xor, a, b => a ^^^ b

/-- R176, R183: the values that take part. -/
def redVals (e : Env) : List Word32 := (lanesOf e.contributing).map fun L => e.x.a.at32 L

def RedOp.narrow (r : RedOp) (e : Env) : Word32 := (redVals e).foldl r.apply r.identity

/-- R183: the uniform extension. -/
def RedOp.wide (r : RedOp) (e : Env) : Word64 :=
  match r with
  | .add => (redVals e).foldl (fun acc v => acc + v.signExtend 64) 0#64
  | .min | .max => (r.narrow e).signExtend 64
  | _ => (r.narrow e).zeroExtend 64

def ruleRed (d a _b _c : Cls) : Bool := d != .affine && (a == .varying || a == .affine)

/-- R183. -/
def redEff (r : RedOp) : Env → Eff := squadEff r.narrow r.wide

/-- R183. -/
def execRedAdd (o : Ops) (s : State) : Out := issue (shA ruleRed) false (redEff .add) o s
/-- R183. -/
def execRedMin (o : Ops) (s : State) : Out := issue (shA ruleRed) false (redEff .min) o s
/-- R183. -/
def execRedMax (o : Ops) (s : State) : Out := issue (shA ruleRed) false (redEff .max) o s
/-- R183. -/
def execRedMinU (o : Ops) (s : State) : Out := issue (shA ruleRed) false (redEff .minU) o s
/-- R183. -/
def execRedAnd (o : Ops) (s : State) : Out := issue (shA ruleRed) false (redEff .and) o s
/-- R183. -/
def execRedOr (o : Ops) (s : State) : Out := issue (shA ruleRed) false (redEff .or) o s
/-- R183. -/
def execRedXor (o : Ops) (s : State) : Out := issue (shA ruleRed) false (redEff .xor) o s

/-! ### Masks (R184) -/

/-- The contributing lanes that meet a condition. -/
def maskWhere (e : Env) (p : Nat → Bool) : Word32 := maskOf fun L => e.contributing.getLsbD L && p L

/-- Log 41, DEDUCED. -/
def maskEff (m : Env → Word32) : Env → Eff := squadEff m fun e => (m e).zeroExtend 64

/-- R184. -/
def execBallot (o : Ops) (s : State) : Out :=
  issue (shAB fun d a b _ => d != .affine && (a == .varying || a == .affine) && b == .uniform) false
    (maskEff fun e => maskWhere e fun L => (e.x.a.at32 L).getLsbD (e.x.b.w.toNat % 32)) o s

/-- R184. -/
def execMatchLanes (o : Ops) (s : State) : Out :=
  issue (shA (ruleVarSrc fun a _ => a == .varying)) false
    (bundleEff fun e L => maskWhere e fun K => e.x.a.at32 K == e.x.a.at32 L) o s

/-- R184. -/
def execActmask (o : Ops) (s : State) : Out :=
  issue { Shape.base with d := .reg 1, rule := fun d _ _ _ => d != .affine } false (maskEff fun e => maskWhere e fun _ => true) o s

/-- R184. -/
def semMpfx : Sem := .int fun w L _ a _ _ _ => BitVec.ofNat w (popNat 32 (a.toNat % 2 ^ 32 % 2 ^ L))

def shMpfx : Shape := shA (ruleVarSrc fun a _ => a == .varying || a == .uniform)

/-- R184. -/
def execMpfx (o : Ops) (s : State) : Out := issue shMpfx false (semEff semMpfx) o s

/-! ### toaff (R185) -/

/-- The inverse of an odd number modulo 2^32, correct to twice as many bits at each step. -/
def oddInverse (o : Word32) : Word32 := (List.range 5).foldl (fun x _ => x * (2#32 - o * x)) o

/-- R185: every stride that takes L0's value to L1's over a gap g. -/
def strides (g : Nat) (d : Word32) : List Int :=
  let k := ([4, 3, 2, 1, 0].find? fun k => g % 2 ^ k == 0).getD 0
  if d.toNat % 2 ^ k ≠ 0 then []
  else
    let base := (BitVec.ofNat 32 (d.toNat / 2 ^ k) * oddInverse (BitVec.ofNat 32 (g / 2 ^ k))).toNat % 2 ^ (32 - k)
    (List.range (2 ^ k)).map fun j => (BitVec.ofNat 32 (base + j * 2 ^ (32 - k))).toInt

/-- R185: the member of least magnitude, the positive one on a tie. -/
def leastStride : List Int → Option Int
  | [] => none
  | x :: xs =>
    match leastStride xs with
    | none => some x
    | some y => if x.natAbs < y.natAbs ∨ (x.natAbs = y.natAbs ∧ 0 < x) then some x else some y

/-- Whether a stride fits a lane. -/
def strideFits (x : Opnd) (L0 : Nat) (st : Int) (L : Nat) : Bool :=
  x.at32 L == x.at32 L0 + BitVec.ofInt 32 (st * ((L : Int) - L0))

/-- R185. -/
def toaffEff (e : Env) : Eff :=
  if !e.runs then e.result (.kept false)
  else match lanesOf (e.cx.lanes &&& e.q.live) with
    | [] => e.result .none
    | L0 :: rest =>
      let notAffine (L : Nat) : Eff := .trap (fault causeAffineOverflow 0x0002#16 (BitVec.ofNat 64 L))
      let write (st : Int) : Eff :=
        let b := e.x.a.at32 L0 - BitVec.ofInt 32 (st * L0)
        e.result (.affine (b.signExtend 64) (BitVec.ofInt 32 st))
      match rest with
      | [] => write 0
      | L1 :: _ =>
        let cs := strides (L1 - L0) (e.x.a.at32 L1 - e.x.a.at32 L0)
        match leastStride (cs.filter fun st => rest.all (strideFits e.x.a L0 st)) with
        | some st => write st
        | none =>
          match leastStride cs with
          | none => notAffine L1
          | some st => notAffine ((rest.find? fun L => !strideFits e.x.a L0 st L).getD L1)

/-- R185. -/
def execToaff (o : Ops) (s : State) : Out :=
  issue (shA fun d a _ _ => (d == .affine || d == .absent) && a == .varying) false toaffEff o s

/-! ### Quads and shuffles (R186, R187) -/

/-- R186. -/
def execQswp (o : Ops) (s : State) : Out :=
  issue { shA ruleVar with c := .number fun n => 1 ≤ n && n ≤ 3 } false (bundleEff fun e L => e.x.a.at32 (L ^^^ o.c.bits)) o s

/-- R186. -/
def execQbc (o : Ops) (s : State) : Out :=
  issue (shAB (ruleVarSrc fun _ b => b == .uniform)) false
    (bundleEff fun e L => e.x.a.at32 (4 * (L / 4) + e.x.b.w.toNat % 4)) o s

/-- R187, R176: lane L takes lane k's value if k executes and is no other helper lane; else its own. -/
def shuffle (src : Env → Nat → Option Nat) : Env → Eff :=
  bundleEff fun e L =>
    match src e L with
    | some k => if e.contributing.getLsbD k then e.x.a.at32 k else e.x.a.at32 L
    | none => e.x.a.at32 L

/-- R187. -/
def execShflIdx (o : Ops) (s : State) : Out := issue (shAB ruleVar) false (shuffle fun e L => some ((e.x.b.at32 L).toNat % 32)) o s

def shShfl : Shape := shAB (ruleVarSrc fun _ b => b == .uniform)

/-- R187. -/
def execShflUp (o : Ops) (s : State) : Out :=
  issue shShfl false (shuffle fun e L => if L < (e.x.b.at32 L).toNat then none else some (L - (e.x.b.at32 L).toNat)) o s
/-- R187. -/
def execShflDown (o : Ops) (s : State) : Out :=
  issue shShfl false (shuffle fun e L => if 31 < L + (e.x.b.at32 L).toNat then none else some (L + (e.x.b.at32 L).toNat)) o s
/-- R187. -/
def execShflXor (o : Ops) (s : State) : Out := issue shShfl false (shuffle fun e L => some (L ^^^ (e.x.b.w.toNat % 32))) o s

end Sys2Proof.Machine
end

