-- ==== Sys2Proof/Machine/Tree.lean ====
section
/-!
DEFINITION. Trees (R34–R37, R205–R211): the whole check at decode, each lane's path over its own view of the registers, the
commit, the events of arcs and leaves.
-/
namespace Sys2Proof.Machine

/-! ### The operations a tree may hold (R37) -/

/-- An operation as its own entry describes it. -/
structure TreeEntry where
  sh : Shape
  sem : Sem
  o : Ops
  sForm : Bool

/-- R37: `none` for what sub-cause 6 forbids by its opcode. -/
def treeEntry : Instr → Option TreeEntry
  | .nop o => some { sh := shNone, sem := .nop, o := o, sForm := false }
  | .mov o => some { sh := (shMov o), sem := semMov, o := o, sForm := false }
  | .movS d a => some { sh := (shMov (sOps d a .none)), sem := semMov, o := (sOps d a .none), sForm := true }
  | .movSi d imm => some { sh := (shMov (sImm d .none (imm.signExtend 32))), sem := semMov, o := (sImm d .none (imm.signExtend 32)), sForm := true }
  | .add o => some { sh := (shAB ruleAdd), sem := semAdd, o := o, sForm := false }
  | .addS d a b => some { sh := (shAB ruleAdd), sem := semAdd, o := (sOps d a b), sForm := true }
  | .addSi d a imm => some { sh := (shAB ruleAdd), sem := semAdd, o := (sImm d a (imm.signExtend 32)), sForm := true }
  | .sub o => some { sh := (shAB ruleAdd), sem := semSub, o := o, sForm := false }
  | .subS d a b => some { sh := (shAB ruleAdd), sem := semSub, o := (sOps d a b), sForm := true }
  | .mul o => some { sh := (shAB ruleMul), sem := semMul, o := o, sForm := false }
  | .mulS d a b => some { sh := (shAB ruleMul), sem := semMul, o := (sOps d a b), sForm := true }
  | .mulhi o => some { sh := (shAB ruleInt), sem := semMulhi, o := o, sForm := false }
  | .mulhiU o => some { sh := (shAB ruleInt), sem := semMulhiU, o := o, sForm := false }
  | .mad o => some { sh := (shABC ruleInt), sem := semMad, o := o, sForm := false }
  | .min o => some { sh := (shAB ruleInt), sem := semMin, o := o, sForm := false }
  | .minS d a b => some { sh := (shAB ruleInt), sem := semMin, o := (sOps d a b), sForm := true }
  | .max o => some { sh := (shAB ruleInt), sem := semMax, o := o, sForm := false }
  | .maxS d a b => some { sh := (shAB ruleInt), sem := semMax, o := (sOps d a b), sForm := true }
  | .minU o => some { sh := (shAB ruleInt), sem := semMinU, o := o, sForm := false }
  | .maxU o => some { sh := (shAB ruleInt), sem := semMaxU, o := o, sForm := false }
  | .abs o => some { sh := (shA ruleInt), sem := semAbs, o := o, sForm := false }
  | .neg o => some { sh := (shA ruleInt), sem := semNeg, o := o, sForm := false }
  | .and o => some { sh := (shAB ruleInt), sem := semAnd, o := o, sForm := false }
  | .andS d a b => some { sh := (shAB ruleInt), sem := semAnd, o := (sOps d a b), sForm := true }
  | .andSi d a imm => some { sh := (shAB ruleInt), sem := semAnd, o := (sImm d a (imm.zeroExtend 32)), sForm := true }
  | .or o => some { sh := (shAB ruleInt), sem := semOr, o := o, sForm := false }
  | .orS d a b => some { sh := (shAB ruleInt), sem := semOr, o := (sOps d a b), sForm := true }
  | .orSi d a imm => some { sh := (shAB ruleInt), sem := semOr, o := (sImm d a (imm.zeroExtend 32)), sForm := true }
  | .xor o => some { sh := (shAB ruleInt), sem := semXor, o := o, sForm := false }
  | .xorS d a b => some { sh := (shAB ruleInt), sem := semXor, o := (sOps d a b), sForm := true }
  | .xorSi d a imm => some { sh := (shAB ruleInt), sem := semXor, o := (sImm d a (imm.zeroExtend 32)), sForm := true }
  | .not o => some { sh := (shA ruleInt), sem := semNot, o := o, sForm := false }
  | .andn o => some { sh := (shAB ruleInt), sem := semAndn, o := o, sForm := false }
  | .shl o => some { sh := (shAB ruleMul), sem := semShl, o := o, sForm := false }
  | .shlS d a b => some { sh := (shAB ruleMul), sem := semShl, o := (sOps d a b), sForm := true }
  | .shlSi d a imm => some { sh := (shAB ruleMul), sem := semShl, o := (sImm d a (imm.zeroExtend 32)), sForm := true }
  | .shr o => some { sh := (shAB ruleInt), sem := semShr, o := o, sForm := false }
  | .shrS d a b => some { sh := (shAB ruleInt), sem := semShr, o := (sOps d a b), sForm := true }
  | .shrSi d a imm => some { sh := (shAB ruleInt), sem := semShr, o := (sImm d a (imm.zeroExtend 32)), sForm := true }
  | .sra o => some { sh := (shAB ruleInt), sem := semSra, o := o, sForm := false }
  | .sraS d a b => some { sh := (shAB ruleInt), sem := semSra, o := (sOps d a b), sForm := true }
  | .sraSi d a imm => some { sh := (shAB ruleInt), sem := semSra, o := (sImm d a (imm.zeroExtend 32)), sForm := true }
  | .rotl o => some { sh := (shAB ruleInt), sem := semRotl, o := o, sForm := false }
  | .clz o => some { sh := (shA ruleInt), sem := semClz, o := o, sForm := false }
  | .popc o => some { sh := (shA ruleInt), sem := semPopc, o := o, sForm := false }
  | .brev o => some { sh := (shA ruleInt), sem := semBrev, o := o, sForm := false }
  | .sel o => some { sh := (shABC ruleInt), sem := semSel, o := o, sForm := false }
  | .bfe o => some { sh := (shField (shAB ruleInt)), sem := semBfe, o := o, sForm := false }
  | .bfeS o => some { sh := (shField (shAB ruleInt)), sem := semBfeS, o := o, sForm := false }
  | .bfi o => some { sh := (shField (shABC ruleInt)), sem := semBfi, o := o, sForm := false }
  | .setbEq o => some { sh := (shSetb o), sem := (semSetb .eq), o := o, sForm := false }
  | .setbNe o => some { sh := (shSetb o), sem := (semSetb .ne), o := o, sForm := false }
  | .setbLt o => some { sh := (shSetb o), sem := (semSetb .lt), o := o, sForm := false }
  | .setbLe o => some { sh := (shSetb o), sem := (semSetb .le), o := o, sForm := false }
  | .setbGt o => some { sh := (shSetb o), sem := (semSetb .gt), o := o, sForm := false }
  | .setbGe o => some { sh := (shSetb o), sem := (semSetb .ge), o := o, sForm := false }
  | .setbLtu o => some { sh := (shSetb o), sem := (semSetb .ltu), o := o, sForm := false }
  | .setbLeu o => some { sh := (shSetb o), sem := (semSetb .leu), o := o, sForm := false }
  | .setbGtu o => some { sh := (shSetb o), sem := (semSetb .gtu), o := o, sForm := false }
  | .setbGeu o => some { sh := (shSetb o), sem := (semSetb .geu), o := o, sForm := false }
  | .addW o => some { sh := (shWide 2), sem := semAddW, o := o, sForm := false }
  | .subW o => some { sh := (shWide 2), sem := semSubW, o := o, sForm := false }
  | .mulWide o => some { sh := (shWide 1), sem := semMulWide, o := o, sForm := false }
  | .sext o => some { sh := shExt, sem := semSext, o := o, sForm := false }
  | .zext o => some { sh := shExt, sem := semZext, o := o, sForm := false }
  | .prom o => some { sh := (shA ruleProm), sem := semProm, o := o, sForm := false }
  | .fadd o => some { sh := (shAB ruleInt), sem := (fp2 fAdd), o := o, sForm := false }
  | .faddS d a b => some { sh := (shAB ruleInt), sem := (fp2 fAdd), o := (sOps d a b), sForm := true }
  | .fsub o => some { sh := (shAB ruleInt), sem := (fp2 fSub), o := o, sForm := false }
  | .fsubS d a b => some { sh := (shAB ruleInt), sem := (fp2 fSub), o := (sOps d a b), sForm := true }
  | .fmul o => some { sh := (shAB ruleInt), sem := (fp2 fMul), o := o, sForm := false }
  | .fmulS d a b => some { sh := (shAB ruleInt), sem := (fp2 fMul), o := (sOps d a b), sForm := true }
  | .ffma o => some { sh := (shABC ruleInt), sem := semFfma, o := o, sForm := false }
  | .fmin o => some { sh := (shAB ruleInt), sem := (semFminMax false), o := o, sForm := false }
  | .fmax o => some { sh := (shAB ruleInt), sem := (semFminMax true), o := o, sForm := false }
  | .fabs o => some { sh := (shA ruleInt), sem := semFabs, o := o, sForm := false }
  | .fneg o => some { sh := (shA ruleInt), sem := semFneg, o := o, sForm := false }
  | .fsetbEq o => some { sh := (shSetb o), sem := (semFsetb .eq), o := o, sForm := false }
  | .fsetbNe o => some { sh := (shSetb o), sem := (semFsetb .ne), o := o, sForm := false }
  | .fsetbLt o => some { sh := (shSetb o), sem := (semFsetb .lt), o := o, sForm := false }
  | .fsetbLe o => some { sh := (shSetb o), sem := (semFsetb .le), o := o, sForm := false }
  | .fsetbGt o => some { sh := (shSetb o), sem := (semFsetb .gt), o := o, sForm := false }
  | .fsetbGe o => some { sh := (shSetb o), sem := (semFsetb .ge), o := o, sForm := false }
  | .fsetbUn o => some { sh := (shSetb o), sem := (semFsetb .un), o := o, sForm := false }
  | .frndRn o => some { sh := (shA ruleInt), sem := (semFrnd .near), o := o, sForm := false }
  | .frndRz o => some { sh := (shA ruleInt), sem := (semFrnd .zero), o := o, sForm := false }
  | .frndRd o => some { sh := (shA ruleInt), sem := (semFrnd .down), o := o, sForm := false }
  | .frndRu o => some { sh := (shA ruleInt), sem := (semFrnd .up), o := o, sForm := false }
  | .fcvt o => some { sh := (shFcvt o), sem := semFcvt, o := o, sForm := false }
  | .f2i o => some { sh := shF2i, sem := semF2i, o := o, sForm := false }
  | .f2u o => some { sh := shF2i, sem := semF2u, o := o, sForm := false }
  | .i2f o => some { sh := (shA ruleInt), sem := semI2f, o := o, sForm := false }
  | .u2f o => some { sh := (shA ruleInt), sem := semU2f, o := o, sForm := false }
  | .hadd2 o => some { sh := (shAB ruleInt), sem := (semAdd2 fp16), o := o, sForm := false }
  | .hmul2 o => some { sh := (shAB ruleInt), sem := (semMul2 fp16), o := o, sForm := false }
  | .hfma2 o => some { sh := (shABC ruleInt), sem := (semFma2 fp16), o := o, sForm := false }
  | .bfadd2 o => some { sh := (shAB ruleInt), sem := (semAdd2 bf16), o := o, sForm := false }
  | .bfmul2 o => some { sh := (shAB ruleInt), sem := (semMul2 bf16), o := o, sForm := false }
  | .bffma2 o => some { sh := (shABC ruleInt), sem := (semFma2 bf16), o := o, sForm := false }
  | .rcp o => some { sh := (shA ruleInt), sem := (semSpecial .rcp), o := o, sForm := false }
  | .rsq o => some { sh := (shA ruleInt), sem := (semSpecial .rsq), o := o, sForm := false }
  | .sqrt o => some { sh := (shA ruleInt), sem := (semSpecial .sqrt), o := o, sForm := false }
  | .ex2 o => some { sh := (shA ruleInt), sem := (semSpecial .ex2), o := o, sForm := false }
  | .lg2 o => some { sh := (shA ruleInt), sem := (semSpecial .lg2), o := o, sForm := false }
  | .sin o => some { sh := (shA ruleInt), sem := (semSpecial .sin), o := o, sForm := false }
  | .cos o => some { sh := (shA ruleInt), sem := (semSpecial .cos), o := o, sForm := false }
  | .tanh o => some { sh := (shA ruleInt), sem := (semSpecial .tanh), o := o, sForm := false }
  | .mpfx o => some { sh := shMpfx, sem := semMpfx, o := o, sForm := false }
  | .ldk o => some { sh := shLdk, sem := .spill, o := o, sForm := false }
  | .ldsB o => some { sh := (shLoad 1 false), sem := (.load .shared 1 .plain), o := o, sForm := false }
  | .ldsBS d a imm => some { sh := (shLoad 1 false), sem := (.load .shared 1 .plain), o := (sImm d a (imm.zeroExtend 32)), sForm := true }
  | .ldsH o => some { sh := (shLoad 2 false), sem := (.load .shared 2 .plain), o := o, sForm := false }
  | .ldsW o => some { sh := (shLoad 4 false), sem := (.load .shared 4 .plain), o := o, sForm := false }
  | .ldsWS d a imm => some { sh := (shLoad 4 false), sem := (.load .shared 4 .plain), o := (sImm d a (scaled imm)), sForm := true }
  | .ldsD o => some { sh := (shLoad 8 false), sem := (.load .shared 8 .plain), o := o, sForm := false }
  | .ldsQ o => some { sh := (shLoad 16 false), sem := (.load .shared 16 .plain), o := o, sForm := false }
  | .ldpW o => some { sh := (shLoad 4 true), sem := (.load .scratch 4 .plain), o := o, sForm := false }
  | .ldpWS d a imm => some { sh := (shLoad 4 true), sem := (.load .scratch 4 .plain), o := (sImm d a (scaled imm)), sForm := true }
  | .ldpD o => some { sh := (shLoad 8 true), sem := (.load .scratch 8 .plain), o := o, sForm := false }
  | .ldpQ o => some { sh := (shLoad 16 true), sem := (.load .scratch 16 .plain), o := o, sForm := false }
  | .ldsAcq o => some { sh := (shLoad 4 true), sem := (.load .shared 4 .sync), o := o, sForm := false }
  | .ldpAcq o => some { sh := (shLoad 4 true), sem := (.load .scratch 4 .sync), o := o, sForm := false }
  | _ => none

/-! ### Layout (R34–R36) -/

/-- R34: whether a heap position is a test. -/
def Tree.isTest (t : Tree) (p : Nat) : Bool := 1 ≤ p && p ≤ 7 && t.nodeMask.getLsbD (p - 1)

def treeTests (t : Tree) : List Nat := (List.range 8).filter (Tree.isTest t)
/-- R34: the children of tests that are no tests. -/
def treeLeaves (t : Tree) : List Nat := (List.range 16).filter fun p => 2 ≤ p && Tree.isTest t (p / 2) && !Tree.isTest t p

/-- R34: the operations of the arc that leads to position p: arc n.t leads to 2n, n.f to 2n + 1. -/
def arcCount (t : Tree) (p : Nat) : Nat := fieldAt t.arcMap.toNat (2 * (p - 2)) 2

/-- R36: the words of one operation by its form bits. -/
def opWords (w : Word32) : Nat := formLength w.toNat

/-- R36: the next n operations, and what follows; `none` where the words run out. -/
def takeOps : Nat → List Word32 → Option (List (List Word32) × List Word32)
  | 0, ws => some ([], ws)
  | n + 1, ws =>
    match ws with
    | [] => none
    | w :: _ =>
      if ws.length < opWords w then none
      else (takeOps n (ws.drop (opWords w))).map fun (ops, rest) => (ws.take (opWords w) :: ops, rest)

/-- The words after the headers, by what they are: tests and leaves by position, operations by the position their arc leads to,
0 for the stem. -/
structure TreeParts where
  tests : Map Word32
  leaves : Map Word32
  ops : List (Nat × List (List Word32))
  deriving DecidableEq, Repr

/-- R36: the arcs' operations, from position p on, for k positions. -/
def takeArcs (t : Tree) (p : Nat) : Nat → List Word32 → Option (List (Nat × List (List Word32)))
  | 0, ws => if ws.isEmpty then some [] else none
  | k + 1, ws =>
    match takeOps (arcCount t p) ws with
    | none => none
    | some (ops, rest) => (takeArcs t (p + 1) k rest).map fun r => (p, ops) :: r

/-- R36: `none` where LEN is not the count of the words. -/
def treeParts (t : Tree) : Option TreeParts :=
  let ts := treeTests t
  let ls := treeLeaves t
  if t.len.toNat < 5 ∨ t.body.length < ts.length + ls.length then none
  else match takeOps t.stem.toNat (t.body.drop (ts.length + ls.length)) with
    | none => none
    | some (stem, rest) =>
      (takeArcs t 2 14 rest).map fun arcs =>
        { tests := ts.zip t.body, leaves := ls.zip (t.body.drop ts.length), ops := (0, stem) :: arcs }

/-! ### Test and leaf words (R35, R205) -/

inductive TreeCond where
  | int (c : ICmp) | float (c : FCmp) | bit (on : Bool)
  deriving DecidableEq, Repr

/-- R35: the COND codes. -/
def condOf (c : Nat) : Option TreeCond :=
  match c with
  | 0x00 => some (.int .eq) | 0x01 => some (.int .ne) | 0x02 => some (.int .lt) | 0x03 => some (.int .le)
  | 0x04 => some (.int .gt) | 0x05 => some (.int .ge) | 0x06 => some (.int .ltu) | 0x07 => some (.int .leu)
  | 0x08 => some (.int .gtu) | 0x09 => some (.int .geu)
  | 0x10 => some (.float .eq) | 0x11 => some (.float .ne) | 0x12 => some (.float .lt) | 0x13 => some (.float .le)
  | 0x14 => some (.float .gt) | 0x15 => some (.float .ge) | 0x16 => some (.float .un) | 0x17 => some (.float .ord)
  | 0x20 => some (.bit true) | 0x21 => some (.bit false)
  | _ => none

def testOf (w : Word32) : TestWord :=
  { top := w.extractLsb' 24 8, y := w.extractLsb' 15 9, x := w.extractLsb' 6 9, cond := w.extractLsb' 0 6 }
def leafOf (w : Word32) : LeafWord := { field := w.extractLsb' 8 24, mid := w.extractLsb' 3 5, kind := w.extractLsb' 0 3 }

/-- R37: a name that a test may read. -/
def testName (f : BitVec 9) : Option Name :=
  if f.getLsbD 8 then none
  else match Name.ofNat f.toNat with
    | .latch _ | .lit | .none | .reserved _ => none
    | n => some n

/-- R37: TestWord. -/
def testBad (w : Word32) : Bool :=
  let t := testOf w
  t.top != 0#8 || match condOf t.cond.toNat, testName t.x with
    | some (.bit _), some x => !(t.y.toNat < if destCls x == .varying then 32 else 64)
    | some _, some _ => (testName t.y).isNone
    | _, _ => true

/-- R35: the register a leaf names. -/
def leafName (l : LeafWord) : Name := Name.ofNat (l.field.toNat % 256)

/-- R37: LeafWord. -/
def leafBad (w : Word32) : Bool :=
  let l := leafOf w
  let n := leafName l
  l.mid != 0#5 || match l.kind.toNat with
    | 0 | 3 => l.field != 0#24
    | 1 => false
    | 2 | 4 =>
      256 ≤ l.field.toNat || match n with
        | .latch _ | .lit | .none | .reserved _ => true
        | n => !(target (destCls n))
    | 5 => 256 ≤ l.field.toNat
    | _ => true

/-! ### The check of the whole tree (R37) -/

/-- R37: ForbiddenOp. What does not decode is OpEncoding's. -/
def opForbidden (ws : List Word32) : Bool :=
  let w := (ws.headD 0#32).toNat
  if 2 ≤ w % 4 then true
  else if w % 4 = 1 ∧ 0x380 ≤ fieldAt w 2 10 then true
  else match decodeWords ws with
    | .ok (i, _) =>
      match treeEntry i with
      | some e => e.sh.d != .unused && match e.o.d with
        | .s _ | .a _ => true
        | _ => false
      | none => true
    | .error _ => false

/-- R37: a field that a tree's operation may not set. -/
def opScheduled (e : TreeEntry) : Bool :=
  let bad (u : Use) (x : Src) : Bool := u.isSrc && (x.last || nameIsLatch x.name)
  e.o.hold || e.o.nwb || bad e.sh.a e.o.a || bad e.sh.b e.o.b || bad e.sh.c e.o.c

/-- The entry of an operation's words. -/
def entryOf (ws : List Word32) : Option TreeEntry :=
  match decodeWords ws with
  | .ok (i, _) => treeEntry i
  | .error _ => none

/-- R37: OpEncoding. -/
def opBad (ws : List Word32) : Bool :=
  match entryOf ws with
  | some e => (e.sh.defect (fun _ => .empty) e.sForm e.o).isSome || opScheduled e
  | none => true

/-- R37: the first defect, its sub-cause and the frame's third word (R290). Log 9, DEDUCED. -/
def treeDefect (t : Tree) : Option (Nat × Word32) :=
  match treeParts t with
  | none => some (1, 0#32)
  | some p =>
    if !Tree.isTest t 1 || (treeTests t).any fun n => 1 < n && !Tree.isTest t (n / 2) then some (2, 0#32)
    else if t.top != 0#16 || t.top1 != 0#4 || (List.range 14).any fun i => arcCount t (i + 2) != 0 && !Tree.isTest t ((i + 2) / 2) then
      some (3, 0#32)
    else
      let ops := p.ops.flatMap (·.2)
      match p.tests.find? fun x => testBad x.2, p.leaves.find? fun x => leafBad x.2, ops.find? opForbidden, ops.find? opBad with
      | some x, _, _, _ => some (4, x.2)
      | none, some x, _, _ => some (5, x.2)
      | none, none, some x, _ => some (6, x.headD 0#32)
      | none, none, none, some x => some (7, x.headD 0#32)
      | none, none, none, none => none

/-! ### One lane's path (R207) -/

/-- R209: a fault's place: the position its arc leads to, 0 for the stem; its slot; its lane; the operation's first word. -/
structure TreeFault where
  pos : Nat
  slot : Nat
  lane : Nat
  word : Word32
  f : LaneFault
  deriving DecidableEq, Repr

/-- A lane on its path. -/
structure TreeLane where
  s : State
  view : Files
  wrote : List Nat
  flags : Flags
  taken : List Nat
  fault : Option TreeFault
  leaf : Nat

/-- Why a tree does not complete now. -/
inductive TreeStop where
  | wait (s : State) (w : WaitKind)
  | dead (s : State)

/-- R205: whether a test holds for a lane. -/
def testHolds (s : State) (q : Squad) (view : Files) (w : Word32) (L : Nat) : Bool :=
  let t := testOf w
  let x := readName s q view (Name.ofNat t.x.toNat)
  match condOf t.cond.toNat with
  | none => false
  | some (.bit on) => (if x.cls == .varying then (x.at32 L).getLsbD t.y.toNat else (x.at64 L).getLsbD t.y.toNat) == on
  | some c =>
    let y := readName s q view (Name.ofNat t.y.toNat)
    match c with
    | .int c => if x.cls == .varying || y.cls == .varying then c.holds (x.at32 L) (y.at32 L) else c.holds (x.at64 L) (y.at64 L)
    | .float c => c.holds (x.at32 L).toNat (y.at32 L).toNat
    | .bit _ => false

/-- The old value of D in a lane's view. -/
def viewD (view : Files) (d : Name) (L : Nat) : Word32 :=
  match d with
  | .v n => (view.readV n.val).getD L 0#32
  | _ => 0#32

/-- Writes a lane's results into its view. -/
def viewWrite (a : TreeLane) (d : Name) (L : Nat) (regs : List Word32) : TreeLane :=
  match d with
  | .v n =>
    { a with view := writeRegs a.view n.val (BitVec.twoPow 32 L) (regs.map fun w => List.replicate 32 w),
             wrote := (List.range regs.length).foldl (fun m i => addOnce m (n.val + i)) a.wrote }
  | _ => a

/-- R207: one operation of a lane. -/
def treeOp (key : Nat) (q : Squad) (pos slot L : Nat) (ws : List Word32) (a : TreeLane) : Except TreeStop TreeLane :=
  match entryOf ws with
  | none => .ok a
  | some e =>
    if !guardHolds a.s q a.view e.o.guard L then .ok a
    else if q.glide.isSome && e.sh.stalls then .error (.wait a.s .glide)
    else
      let cx : Cx := { key := key, lanes := BitVec.twoPow 32 L, pc := 0#64, len := 4 * ws.length, words := ws, sForm := e.sForm, o := e.o }
      let x := readOpnds a.s q a.view none cx e.sh
      match semLane e.sem a.s q key e.o x (viewD a.view e.o.d L) L with
      | .error (.wait s) => .error (.wait s .page)
      | .error (.dead s) => .error (.dead s)
      | .ok r =>
        if (q.lane L).kind == .helper then .ok (viewWrite { a with s := r.s } e.o.d L r.regs)
        else match r.fault with
          | some f =>
            if q.glide.isSome then .error (.wait a.s .glide)
            else .ok { a with s := r.s, flags := r.flags,
                              fault := some { pos := pos, slot := slot, lane := L, word := ws.headD 0#32, f := f } }
          | none => .ok (viewWrite { a with s := r.s, flags := a.flags ||| r.flags } e.o.d L r.regs)

/-- R207: the operations of the stem or an arc, in slot order, until one faults. -/
def treeOps (key : Nat) (q : Squad) (pos L : Nat) : Nat → List (List Word32) → TreeLane → Except TreeStop TreeLane
  | _, [], a => .ok a
  | slot, ws :: rest, a =>
    match treeOp key q pos slot L ws a with
    | .error st => .error st
    | .ok a => if a.fault.isSome then .ok a else treeOps key q pos L (slot + 1) rest a

/-- R207: from position n down to a leaf; three levels at most. -/
def treeFrom (t : Tree) (p : TreeParts) (key : Nat) (q : Squad) (L : Nat) : Nat → Nat → TreeLane → Except TreeStop TreeLane
  | 0, n, a => .ok { a with leaf := n }
  | k + 1, n, a =>
    if !Tree.isTest t n then .ok { a with leaf := n }
    else
      let next := if testHolds a.s q a.view ((mapGet p.tests n).getD 0#32) L then 2 * n else 2 * n + 1
      match treeOps key q next L 0 ((p.ops.lookup next).getD []) { a with taken := addOnce a.taken next } with
      | .error st => .error st
      | .ok a => if a.fault.isSome then .ok a else treeFrom t p key q L k next a

/-- R207: a lane's tree. -/
def treeLane (t : Tree) (p : TreeParts) (key : Nat) (q : Squad) (s : State) (L : Nat) : Except TreeStop TreeLane :=
  match treeOps key q 0 L 0 ((p.ops.lookup 0).getD [])
      { s := s, view := q.files, wrote := [], flags := 0#5, taken := [], fault := none, leaf := 0 } with
  | .error st => .error st
  | .ok a => if a.fault.isSome then .ok a else treeFrom t p key q L 3 1 a

/-- The lanes of the bundle, ascending; the state threads through their loads. Log 78, DEDUCED. -/
def treeLanes (t : Tree) (p : TreeParts) (key : Nat) (q : Squad) (s : State) :
    List Nat → Except TreeStop (State × List (Nat × TreeLane))
  | [] => .ok (s, [])
  | L :: ls =>
    match treeLane t p key q s L with
    | .error st => .error st
    | .ok a =>
      match treeLanes t p key q a.s ls with
      | .error st => .error st
      | .ok (s, rest) => .ok (s, (L, a) :: rest)

/-! ### Commit, leaves and events (R208–R210) -/

/-- R208: a lane's view becomes its registers. -/
def commitLane (f : Files) (L : Nat) (a : TreeLane) : Files :=
  a.wrote.foldl (fun f n => f.writeV n (BitVec.twoPow 32 L) (a.view.readV n)) f

/-- R210, R206: where a committing lane goes and what it then raises: the target, or a fault at the leaf. -/
def leafTarget (p : Word64) (len : Nat) (s : State) (q : Squad) (view : Files) (w : Word32) (L : Nat) : Except LaneFault Word64 :=
  let l := leafOf w
  let after := p + BitVec.ofNat 64 (4 * len)
  let goal (t : Word64) : Except LaneFault Word64 :=
    match targetFault t with
    | some f => .error f
    | none => .ok t
  match l.kind.toNat with
  | 1 => goal (relTarget p (l.field.signExtend 64))
  | 2 | 4 => goal (regTarget p (readName s q view (leafName l)) L)
  | 5 => .error (fault causeSoft (BitVec.ofNat 16 (l.field.toNat % 256)) 0#64)
  | _ => .ok after

/-- R209: the first of a tree's faults. -/
def TreeFault.before (a b : TreeFault) : Bool :=
  if a.pos ≠ b.pos then a.pos < b.pos else if a.slot ≠ b.slot then a.slot < b.slot else a.lane < b.lane

/-- Log 78, DEDUCED. -/
def firstTreeFault : List TreeFault → Option TreeFault
  | [] => none
  | x :: xs =>
    match firstTreeFault xs with
    | some y => if y.before x then some y else some x
    | none => some x

/-- R209: the level of the arc that leads to a position. -/
def levelOfPos (p : Nat) : Nat := if p < 2 then 0 else if p < 4 then 1 else if p < 8 then 2 else 3

/-- R209: the event of arc faults. Log 78, DEDUCED. -/
def arcEvent (cx : Cx) (lanes : LaneMask) (x : TreeFault) : TrapEvent :=
  { faultEvent cx lanes x.lane x.f with
    level := levelOfPos x.pos, node := if x.pos = 0 then 0 else x.pos / 2 + 128 * (x.pos % 2), slot := x.slot,
    words := cx.words.take 2 ++ [x.word] }

/-- R210: the event of a leaf. Log 78, DEDUCED. -/
def leafEvent (cx : Cx) (len pos : Nat) (lanes : LaneMask) (w : Word32) (f : LaneFault) : TrapEvent :=
  let at_ := cx.pc + BitVec.ofNat 64 (4 * len)
  { faultEvent cx lanes (lowLane lanes) f with
    pc := at_, resume := at_, level := 0xFF, node := pos, slot := 0, words := cx.words.take 2 ++ [w] }

/-- What the committing lanes of one leaf do: the lanes that continue with their targets, the lanes that raise. -/
structure LeafOut where
  pos : Nat
  word : Word32
  lanes : LaneMask
  bad : LaneMask
  first : Option LaneFault

/-- R210: the outcome at one leaf; helper lanes raise nothing. -/
def leafOut (cx : Cx) (len : Nat) (s : State) (q : Squad) (done : List (Nat × TreeLane)) (pos : Nat) (w : Word32) : LeafOut :=
  let here := done.filter fun (_, a) => a.leaf == pos
  let tgt := here.map fun (L, a) => (L, leafTarget cx.pc len s q a.view w L)
  let bad := tgt.filter fun (L, r) => (q.lane L).kind == .live && r.toBool == false
  { pos := pos, word := w, lanes := maskOf fun i => here.any fun (L, _) => L == i, bad := maskOf fun i => bad.any fun (L, _) => L == i,
    first := bad.head?.bind fun (_, r) =>
      match r with
      | .error f => some f
      | .ok _ => none }

/-- R211: the cycles of the slot. -/
def treeCost (t : Tree) (lanes : List (Nat × TreeLane)) : Nat :=
  let taken := lanes.foldl (fun m (_, a) => a.taken.foldl addOnce m) []
  1 + t.stem.toNat + taken.foldl (fun n p => n + arcCount t p) 0

/-- R208–R210: everything after the last operation; `s0` is the state before the tree, in which it waits where it must. Log 78, DEDUCED. -/
def treeCommit (t : Tree) (p : TreeParts) (cx : Cx) (q : Squad) (s0 s : State) (lanes : List (Nat × TreeLane)) : Out :=
  let len := t.len.toNat
  let done := lanes.filter fun (_, a) => a.fault.isNone
  let faults := lanes.filterMap fun (_, a) => a.fault
  let outs := p.leaves.map fun (pos, w) => leafOut cx len s q done pos w
  let exits := (outs.filter fun o => (leafOf o.word).kind == 3#3).foldl (fun m o => m ||| o.lanes) 0#32
  let last := exits &&& q.live != 0#32 && q.live &&& ~~~exits == 0#32
  if q.glide.isSome && (exits &&& q.live != 0#32 || outs.any fun o => o.bad != 0#32) then stall s0 cx .glide
  else if last && q.busy then stall s0 cx .post
  else match (if last then heldOp q.ops else none) with
    | some o => trapAll (s0.modSquad cx.key fun q => { q with ops := q.ops.map (consume o.id) }) cx q 1 (heldFault o)
    | none =>
      let cost := treeCost t lanes
      let goTo (L : Nat) (l : Lane) : Lane :=
        match lanes.lookup L with
        | none => l
        | some a =>
          if a.fault.isSome then l
          else match leafTarget cx.pc len s q a.view ((mapGet p.leaves a.leaf).getD 0#32) L with
            | .ok pc => { l with pc := pc, wait := .none }
            | .error _ => { l with pc := cx.pc + BitVec.ofNat 64 (4 * len), wait := .none }
      let s := lanes.foldl (fun s (_, a) => s.orFlags cx.key a.flags) s
      let s := s.modSquad cx.key fun q =>
        ({ q with files := done.foldl (fun f (L, a) => commitLane f L a) q.files }.onLanesI cx.lanes goTo).leaveBundles cx.lanes
      let bad := maskOf fun i => faults.any fun x => x.lane == i
      let s := match firstTreeFault faults with
        | some x => raise s cx.key (arcEvent cx bad x)
        | none => s
      let s := outs.foldl (fun s o =>
        match o.first with
        | some f => raise s cx.key (leafEvent cx len o.pos o.bad o.word f)
        | none => s) s
      let s := if exits = 0#32 then s else tryTrigger (exitLanes (endHelpers s cx.key exits) cx.key (exits &&& q.live)) q.grid
      retire s cx cost

/-! ### The registers of a tree (R173, R189) -/

/-- What the operations on some arcs, the tests that lead to them and some leaves name; `none` for the whole tree. -/
def treeNeeds (p : TreeParts) (path : Option (List (Nat × TreeLane))) : Needs :=
  let on (pos : Nat) : Bool := match path with
    | none => true
    | some ls => pos == 0 || ls.any fun x => x.2.taken.contains pos
  let es := (p.ops.filter fun x => on x.1).flatMap fun x => x.2.filterMap entryOf
  let tests := (p.tests.filter fun x => on (2 * x.1) || on (2 * x.1 + 1)).flatMap fun x =>
    [Name.ofNat (testOf x.2).x.toNat, Name.ofNat (testOf x.2).y.toNat]
  let leaves := (p.leaves.filter fun x => on x.1 && ((leafOf x.2).kind == 2#3 || (leafOf x.2).kind == 4#3)).map fun x => leafName (leafOf x.2)
  { reads := (es.flatMap fun e => namesUsed { e.sh with d := .unused } e.o) ++ tests ++ leaves,
    writes := es.flatMap fun e => namesWritten e.sh e.o, keeps := true }

/-- Whether a squad has a spilled name. -/
def Files.anySpilled (f : Files) : Bool := f.v.any (·.2.spilled) || f.s.any (·.2.spilled) || f.a.any (·.2.spilled)

/-- R173: what a tree needs of the files: on the paths that its lanes take, where some name is spilled. -/
def treeNaming (t : Tree) (p : TreeParts) (cx : Cx) (s : State) (q : Squad) : Except TreeStop NameOut :=
  if q.files.anySpilled then
    (treeLanes t p cx.key q s (lanesOf cx.lanes)).map fun (_, ls) => nameRegs s cx.key q (treeNeeds p (some ls))
  else .ok (nameRegs s cx.key q (treeNeeds p none))

/-- R37, R45: the tree's defect, over every lane of the bundle. -/
def treeTrap (s : State) (cx : Cx) (q : Squad) (sub : Nat) (w : Word32) : Out :=
  let cx := { cx with words := cx.words.take 2 ++ [w] }
  trapAll s cx q 1 (fault causeTree (BitVec.ofNat 16 sub) 0#64)

/-- R173, R189, R207: the tree of a bundle: it waits for the registers it names, and runs on the vector pipe (log 16, DEDUCED). -/
def treeGo (t : Tree) (p : TreeParts) (cx : Cx) (s : State) (q : Squad) : Out :=
  let all := treeNeeds p none
  let (ready, s) := vectorWindow s q
  if (all.reads ++ all.writes).any q.awaits || !ready then stall s cx .post
  else match treeNaming t p cx s q with
    | .error (.wait s' w) | .ok (.wait s' w) => stall (if w == .glide then s else s') cx w
    | .error (.dead s) | .ok (.dead s) => retire (endGrid s q.grid) cx 1
    | .ok (.ready s) =>
      let q := (s.squad? cx.key).getD q
      match treeLanes t p cx.key q s (lanesOf cx.lanes) with
      | .error (.wait s' w) => stall (if w == .glide then s else s') cx w
      | .error (.dead s) => retire (endGrid s q.grid) cx 1
      | .ok (s', lanes) => charged cx (s.ctxOf q) (chargeFor s q cx.lanes (treeCost t lanes)) (treeCommit t p cx q s s' lanes)

/-- R34–R37, R207–R211. Log 78, DEDUCED. -/
def execTree (t : Tree) (s : State) : Out :=
  match s.issuing with
  | none => .refused .noBundle
  | some i =>
    match s.squad? i.squad with
    | none => .refused .noBundle
    | some q0 =>
      -- R39: the slot's run ends, whichever squad's it is
      let s := endRun s (s.coreOf q0) q0.issueSlot
      match s.squad? i.squad with
      | none => .refused .noBundle
      | some q =>
        let cx : Cx :=
          { key := i.squad, lanes := i.lanes, pc := i.pc, len := 4 * max t.len.toNat 2, words := i.words, sForm := false, o := blankOps }
        match treeDefect t, treeParts t with
        | some (sub, w), _ => treeTrap s cx q sub w
        | none, some p => treeGo t p cx s q
        | none, none => treeTrap s cx q 1 0#32

end Sys2Proof.Machine
end

