-- ==== Sys2Proof/Machine/Dispatch.lean ====
section
/-!
DEFINITION. One arm per constructor of `Instr`: a direct call of its meaning.
-/
namespace Sys2Proof.Machine

def exec (i : Instr) (s : State) : Host.Outcome State Fault Refusal :=
  match i with
  | .nop o => Sys2Proof.Machine.execNop o s
  | .mov o => Sys2Proof.Machine.execMov o s
  | .movS d a => Sys2Proof.Machine.execMovS d a s
  | .movSi d imm => Sys2Proof.Machine.execMovSi d imm s
  | .add o => Sys2Proof.Machine.execAdd o s
  | .addS d a b => Sys2Proof.Machine.execAddS d a b s
  | .addSi d a imm => Sys2Proof.Machine.execAddSi d a imm s
  | .sub o => Sys2Proof.Machine.execSub o s
  | .subS d a b => Sys2Proof.Machine.execSubS d a b s
  | .mul o => Sys2Proof.Machine.execMul o s
  | .mulS d a b => Sys2Proof.Machine.execMulS d a b s
  | .mulhi o => Sys2Proof.Machine.execMulhi o s
  | .mulhiU o => Sys2Proof.Machine.execMulhiU o s
  | .mad o => Sys2Proof.Machine.execMad o s
  | .min o => Sys2Proof.Machine.execMin o s
  | .minS d a b => Sys2Proof.Machine.execMinS d a b s
  | .max o => Sys2Proof.Machine.execMax o s
  | .maxS d a b => Sys2Proof.Machine.execMaxS d a b s
  | .minU o => Sys2Proof.Machine.execMinU o s
  | .maxU o => Sys2Proof.Machine.execMaxU o s
  | .abs o => Sys2Proof.Machine.execAbs o s
  | .neg o => Sys2Proof.Machine.execNeg o s
  | .and o => Sys2Proof.Machine.execAnd o s
  | .andS d a b => Sys2Proof.Machine.execAndS d a b s
  | .andSi d a imm => Sys2Proof.Machine.execAndSi d a imm s
  | .or o => Sys2Proof.Machine.execOr o s
  | .orS d a b => Sys2Proof.Machine.execOrS d a b s
  | .orSi d a imm => Sys2Proof.Machine.execOrSi d a imm s
  | .xor o => Sys2Proof.Machine.execXor o s
  | .xorS d a b => Sys2Proof.Machine.execXorS d a b s
  | .xorSi d a imm => Sys2Proof.Machine.execXorSi d a imm s
  | .not o => Sys2Proof.Machine.execNot o s
  | .andn o => Sys2Proof.Machine.execAndn o s
  | .shl o => Sys2Proof.Machine.execShl o s
  | .shlS d a b => Sys2Proof.Machine.execShlS d a b s
  | .shlSi d a imm => Sys2Proof.Machine.execShlSi d a imm s
  | .shr o => Sys2Proof.Machine.execShr o s
  | .shrS d a b => Sys2Proof.Machine.execShrS d a b s
  | .shrSi d a imm => Sys2Proof.Machine.execShrSi d a imm s
  | .sra o => Sys2Proof.Machine.execSra o s
  | .sraS d a b => Sys2Proof.Machine.execSraS d a b s
  | .sraSi d a imm => Sys2Proof.Machine.execSraSi d a imm s
  | .rotl o => Sys2Proof.Machine.execRotl o s
  | .clz o => Sys2Proof.Machine.execClz o s
  | .popc o => Sys2Proof.Machine.execPopc o s
  | .brev o => Sys2Proof.Machine.execBrev o s
  | .bfe o => Sys2Proof.Machine.execBfe o s
  | .bfeS o => Sys2Proof.Machine.execBfeS o s
  | .bfi o => Sys2Proof.Machine.execBfi o s
  | .sel o => Sys2Proof.Machine.execSel o s
  | .setbEq o => Sys2Proof.Machine.execSetbEq o s
  | .setbNe o => Sys2Proof.Machine.execSetbNe o s
  | .setbLt o => Sys2Proof.Machine.execSetbLt o s
  | .setbLe o => Sys2Proof.Machine.execSetbLe o s
  | .setbGt o => Sys2Proof.Machine.execSetbGt o s
  | .setbGe o => Sys2Proof.Machine.execSetbGe o s
  | .setbLtu o => Sys2Proof.Machine.execSetbLtu o s
  | .setbLeu o => Sys2Proof.Machine.execSetbLeu o s
  | .setbGtu o => Sys2Proof.Machine.execSetbGtu o s
  | .setbGeu o => Sys2Proof.Machine.execSetbGeu o s
  | .addW o => Sys2Proof.Machine.execAddW o s
  | .subW o => Sys2Proof.Machine.execSubW o s
  | .mulWide o => Sys2Proof.Machine.execMulWide o s
  | .sext o => Sys2Proof.Machine.execSext o s
  | .zext o => Sys2Proof.Machine.execZext o s
  | .prom o => Sys2Proof.Machine.execProm o s
  | .rdlane o => Sys2Proof.Machine.execRdlane o s
  | .wrlane o => Sys2Proof.Machine.execWrlane o s
  | .redAdd o => Sys2Proof.Machine.execRedAdd o s
  | .redMin o => Sys2Proof.Machine.execRedMin o s
  | .redMax o => Sys2Proof.Machine.execRedMax o s
  | .redMinU o => Sys2Proof.Machine.execRedMinU o s
  | .redAnd o => Sys2Proof.Machine.execRedAnd o s
  | .redOr o => Sys2Proof.Machine.execRedOr o s
  | .redXor o => Sys2Proof.Machine.execRedXor o s
  | .ballot o => Sys2Proof.Machine.execBallot o s
  | .matchLanes o => Sys2Proof.Machine.execMatchLanes o s
  | .actmask o => Sys2Proof.Machine.execActmask o s
  | .toaff o => Sys2Proof.Machine.execToaff o s
  | .qswp o => Sys2Proof.Machine.execQswp o s
  | .qbc o => Sys2Proof.Machine.execQbc o s
  | .shflIdx o => Sys2Proof.Machine.execShflIdx o s
  | .shflUp o => Sys2Proof.Machine.execShflUp o s
  | .shflDown o => Sys2Proof.Machine.execShflDown o s
  | .shflXor o => Sys2Proof.Machine.execShflXor o s
  | .mpfx o => Sys2Proof.Machine.execMpfx o s
  | .fadd o => Sys2Proof.Machine.execFadd o s
  | .faddS d a b => Sys2Proof.Machine.execFaddS d a b s
  | .fsub o => Sys2Proof.Machine.execFsub o s
  | .fsubS d a b => Sys2Proof.Machine.execFsubS d a b s
  | .fmul o => Sys2Proof.Machine.execFmul o s
  | .fmulS d a b => Sys2Proof.Machine.execFmulS d a b s
  | .ffma o => Sys2Proof.Machine.execFfma o s
  | .fmin o => Sys2Proof.Machine.execFmin o s
  | .fmax o => Sys2Proof.Machine.execFmax o s
  | .fabs o => Sys2Proof.Machine.execFabs o s
  | .fneg o => Sys2Proof.Machine.execFneg o s
  | .fsetbEq o => Sys2Proof.Machine.execFsetbEq o s
  | .fsetbNe o => Sys2Proof.Machine.execFsetbNe o s
  | .fsetbLt o => Sys2Proof.Machine.execFsetbLt o s
  | .fsetbLe o => Sys2Proof.Machine.execFsetbLe o s
  | .fsetbGt o => Sys2Proof.Machine.execFsetbGt o s
  | .fsetbGe o => Sys2Proof.Machine.execFsetbGe o s
  | .fsetbUn o => Sys2Proof.Machine.execFsetbUn o s
  | .frndRn o => Sys2Proof.Machine.execFrndRn o s
  | .frndRz o => Sys2Proof.Machine.execFrndRz o s
  | .frndRd o => Sys2Proof.Machine.execFrndRd o s
  | .frndRu o => Sys2Proof.Machine.execFrndRu o s
  | .fcvt o => Sys2Proof.Machine.execFcvt o s
  | .f2i o => Sys2Proof.Machine.execF2i o s
  | .f2u o => Sys2Proof.Machine.execF2u o s
  | .i2f o => Sys2Proof.Machine.execI2f o s
  | .u2f o => Sys2Proof.Machine.execU2f o s
  | .hadd2 o => Sys2Proof.Machine.execHadd2 o s
  | .hmul2 o => Sys2Proof.Machine.execHmul2 o s
  | .hfma2 o => Sys2Proof.Machine.execHfma2 o s
  | .bfadd2 o => Sys2Proof.Machine.execBfadd2 o s
  | .bfmul2 o => Sys2Proof.Machine.execBfmul2 o s
  | .bffma2 o => Sys2Proof.Machine.execBffma2 o s
  | .rcp o => Sys2Proof.Machine.execRcp o s
  | .rsq o => Sys2Proof.Machine.execRsq o s
  | .sqrt o => Sys2Proof.Machine.execSqrt o s
  | .ex2 o => Sys2Proof.Machine.execEx2 o s
  | .lg2 o => Sys2Proof.Machine.execLg2 o s
  | .sin o => Sys2Proof.Machine.execSin o s
  | .cos o => Sys2Proof.Machine.execCos o s
  | .tanh o => Sys2Proof.Machine.execTanh o s
  | .ldsB o => Sys2Proof.Machine.execLdsB o s
  | .ldsBS d a imm => Sys2Proof.Machine.execLdsBS d a imm s
  | .ldsH o => Sys2Proof.Machine.execLdsH o s
  | .ldsW o => Sys2Proof.Machine.execLdsW o s
  | .ldsWS d a imm => Sys2Proof.Machine.execLdsWS d a imm s
  | .ldsD o => Sys2Proof.Machine.execLdsD o s
  | .ldsQ o => Sys2Proof.Machine.execLdsQ o s
  | .stsB o => Sys2Proof.Machine.execStsB o s
  | .stsH o => Sys2Proof.Machine.execStsH o s
  | .stsW o => Sys2Proof.Machine.execStsW o s
  | .stsWS a imm c => Sys2Proof.Machine.execStsWS a imm c s
  | .stsD o => Sys2Proof.Machine.execStsD o s
  | .stsQ o => Sys2Proof.Machine.execStsQ o s
  | .ldpW o => Sys2Proof.Machine.execLdpW o s
  | .ldpWS d a imm => Sys2Proof.Machine.execLdpWS d a imm s
  | .ldpD o => Sys2Proof.Machine.execLdpD o s
  | .ldpQ o => Sys2Proof.Machine.execLdpQ o s
  | .stpW o => Sys2Proof.Machine.execStpW o s
  | .stpD o => Sys2Proof.Machine.execStpD o s
  | .stpQ o => Sys2Proof.Machine.execStpQ o s
  | .ldk o => Sys2Proof.Machine.execLdk o s
  | .stk o => Sys2Proof.Machine.execStk o s
  | .ldsAcq o => Sys2Proof.Machine.execLdsAcq o s
  | .stsRel o => Sys2Proof.Machine.execStsRel o s
  | .ldpAcq o => Sys2Proof.Machine.execLdpAcq o s
  | .stpRel o => Sys2Proof.Machine.execStpRel o s
  | .atomsAdd o => Sys2Proof.Machine.execAtomsAdd o s
  | .atomsMin o => Sys2Proof.Machine.execAtomsMin o s
  | .atomsMax o => Sys2Proof.Machine.execAtomsMax o s
  | .atomsMinU o => Sys2Proof.Machine.execAtomsMinU o s
  | .atomsMaxU o => Sys2Proof.Machine.execAtomsMaxU o s
  | .atomsAnd o => Sys2Proof.Machine.execAtomsAnd o s
  | .atomsOr o => Sys2Proof.Machine.execAtomsOr o s
  | .atomsXor o => Sys2Proof.Machine.execAtomsXor o s
  | .atomsExch o => Sys2Proof.Machine.execAtomsExch o s
  | .atomsCas o => Sys2Proof.Machine.execAtomsCas o s
  | .atompAdd o => Sys2Proof.Machine.execAtompAdd o s
  | .atompMin o => Sys2Proof.Machine.execAtompMin o s
  | .atompMax o => Sys2Proof.Machine.execAtompMax o s
  | .atompMinU o => Sys2Proof.Machine.execAtompMinU o s
  | .atompMaxU o => Sys2Proof.Machine.execAtompMaxU o s
  | .atompAnd o => Sys2Proof.Machine.execAtompAnd o s
  | .atompOr o => Sys2Proof.Machine.execAtompOr o s
  | .atompXor o => Sys2Proof.Machine.execAtompXor o s
  | .atompExch o => Sys2Proof.Machine.execAtompExch o s
  | .atompCas o => Sys2Proof.Machine.execAtompCas o s
  | .fence o => Sys2Proof.Machine.execFence o s
  | .barInit o => Sys2Proof.Machine.execBarInit o s
  | .barArv o => Sys2Proof.Machine.execBarArv o s
  | .barWait o => Sys2Proof.Machine.execBarWait o s
  | .barSync o => Sys2Proof.Machine.execBarSync o s
  | .barGlide o => Sys2Proof.Machine.execBarGlide o s
  | .spanSync o => Sys2Proof.Machine.execSpanSync o s
  | .swArm o => Sys2Proof.Machine.execSwArm o s
  | .swWait o => Sys2Proof.Machine.execSwWait o s
  | .waitc o => Sys2Proof.Machine.execWaitc o s
  | .waitl o => Sys2Proof.Machine.execWaitl o s
  | .bra o => Sys2Proof.Machine.execBra o s
  | .brx o => Sys2Proof.Machine.execBrx o s
  | .call o => Sys2Proof.Machine.execCall o s
  | .calx o => Sys2Proof.Machine.execCalx o s
  | .ret o => Sys2Proof.Machine.execRet o s
  | .exit o => Sys2Proof.Machine.execExit o s
  | .meet o => Sys2Proof.Machine.execMeet o s
  | .yield o => Sys2Proof.Machine.execYield o s
  | .trap o => Sys2Proof.Machine.execTrap o s
  | .eret o => Sys2Proof.Machine.execEret o s
  | .svc o => Sys2Proof.Machine.execSvc o s
  | .idemBegin o => Sys2Proof.Machine.execIdemBegin o s
  | .idemEnd o => Sys2Proof.Machine.execIdemEnd o s
  | .trig o => Sys2Proof.Machine.execTrig o s
  | .brk o => Sys2Proof.Machine.execBrk o s
  | .sysr o => Sys2Proof.Machine.execSysr o s
  | .sysw o => Sys2Proof.Machine.execSysw o s
  | .time o => Sys2Proof.Machine.execTime o s
  | .icinv o => Sys2Proof.Machine.execIcinv o s
  | .tlbinv o => Sys2Proof.Machine.execTlbinv o s
  | .keyLoad o => Sys2Proof.Machine.execKeyLoad o s
  | .keyBind o => Sys2Proof.Machine.execKeyBind o s
  | .scrub o => Sys2Proof.Machine.execScrub o s
  | .rwatchSetRange o => Sys2Proof.Machine.execRwatchSetRange o s
  | .partMake o => Sys2Proof.Machine.execPartMake o s
  | .partGive o => Sys2Proof.Machine.execPartGive o s
  | .partSlice o => Sys2Proof.Machine.execPartSlice o s
  | .partSeal o => Sys2Proof.Machine.execPartSeal o s
  | .partDrop o => Sys2Proof.Machine.execPartDrop o s
  | .mgsemRead o => Sys2Proof.Machine.execMgsemRead o s
  | .tree t => Sys2Proof.Machine.execTree t s
  | .cp o => Sys2Proof.Machine.execCp o s
  | .cpGat o => Sys2Proof.Machine.execCpGat o s
  | .cpSct o => Sys2Proof.Machine.execCpSct o s
  | .tidSet o => Sys2Proof.Machine.execTidSet o s
  | .tidGet o => Sys2Proof.Machine.execTidGet o s
  | .mxMma o => Sys2Proof.Machine.execMxMma o s
  | .mxPair o => Sys2Proof.Machine.execMxPair o s
  | .mxZero o => Sys2Proof.Machine.execMxZero o s
  | .mxLdacc o => Sys2Proof.Machine.execMxLdacc o s
  | .mxDrain o => Sys2Proof.Machine.execMxDrain o s
  | .mxBurst o => Sys2Proof.Machine.execMxBurst o s
  | .rsRow o => Sys2Proof.Machine.execRsRow o s
  | .claClr o => Sys2Proof.Machine.execClaClr o s
  | .claLdc o => Sys2Proof.Machine.execClaLdc o s
  | .claDec o => Sys2Proof.Machine.execClaDec o s
  | .claProp o => Sys2Proof.Machine.execClaProp o s
  | .claBack o => Sys2Proof.Machine.execClaBack o s
  | .claTrl o => Sys2Proof.Machine.execClaTrl o s
  | .claCfl o => Sys2Proof.Machine.execClaCfl o s
  | .claVal o => Sys2Proof.Machine.execClaVal o s
  | .claLvl o => Sys2Proof.Machine.execClaLvl o s
  | .claStat o => Sys2Proof.Machine.execClaStat o s
  | .chnAdv o => Sys2Proof.Machine.execChnAdv o s
  | .chnSeq o => Sys2Proof.Machine.execChnSeq o s
  | .chnWait o => Sys2Proof.Machine.execChnWait o s
  | .setperf o => Sys2Proof.Machine.execSetperf o s
  | .chctlWrite o => Sys2Proof.Machine.execChctlWrite o s
  | .keyUnbind o => Sys2Proof.Machine.execKeyUnbind o s
  | .rwatchClearRange o => Sys2Proof.Machine.execRwatchClearRange o s
  | .rwatchSetRing o => Sys2Proof.Machine.execRwatchSetRing o s
  | .rwatchWriteHead o => Sys2Proof.Machine.execRwatchWriteHead o s
  | .mgsemAcquire o => Sys2Proof.Machine.execMgsemAcquire o s
  | .mgsemRenew o => Sys2Proof.Machine.execMgsemRenew o s
  | .mgsemRelease o => Sys2Proof.Machine.execMgsemRelease o s
  | .regroupTick core => Sys2Proof.Machine.execRegroupTick core s
  | .yieldExpire squad lane => Sys2Proof.Machine.execYieldExpire squad lane s
  | .copyStart core => Sys2Proof.Machine.execCopyStart core s
  | .copyPieceLand copy piece dataOk => Sys2Proof.Machine.execCopyPieceLand copy piece dataOk s
  | .pageWalk w => Sys2Proof.Machine.execPageWalk w s
  | .stewardPageService entry => Sys2Proof.Machine.execStewardPageService entry s
  | .qcountAdvance => Sys2Proof.Machine.execQcountAdvance s
  | .matrixOpStart core => Sys2Proof.Machine.execMatrixOpStart core s
  | .matrixOpComplete core => Sys2Proof.Machine.execMatrixOpComplete core s
  | .mxBurstHoldExpire core => Sys2Proof.Machine.execMxBurstHoldExpire core s
  | .arrayRampDownEnd core => Sys2Proof.Machine.execArrayRampDownEnd core s
  | .rsRowComplete core => Sys2Proof.Machine.execRsRowComplete core s
  | .claCommandComplete cluster => Sys2Proof.Machine.execClaCommandComplete cluster s
  | .reservationGrant cluster => Sys2Proof.Machine.execReservationGrant cluster s
  | .reservationReturn cluster request => Sys2Proof.Machine.execReservationReturn cluster request s
  | .chainCopyEntry chain => Sys2Proof.Machine.execChainCopyEntry chain s
  | .chainFillEntry chain => Sys2Proof.Machine.execChainFillEntry chain s
  | .chainCollectiveEntry chain peers => Sys2Proof.Machine.execChainCollectiveEntry chain peers s
  | .chainGridLaunchEntry chain => Sys2Proof.Machine.execChainGridLaunchEntry chain s
  | .farBeat engine => Sys2Proof.Machine.execFarBeat engine s
  | .chainEntryComplete chain => Sys2Proof.Machine.execChainEntryComplete chain s
  | .collectivePeerKill chain rank => Sys2Proof.Machine.execCollectivePeerKill chain rank s
  | .floeLinkFail port => Sys2Proof.Machine.execFloeLinkFail port s
  | .gridAdmit => Sys2Proof.Machine.execGridAdmit s
  | .groupPlace grid cores => Sys2Proof.Machine.execGroupPlace grid cores s
  | .gridComplete grid => Sys2Proof.Machine.execGridComplete grid s
  | .trapEntry squad => Sys2Proof.Machine.execTrapEntry squad s
  | .addressBreakpoint squad lanes k => Sys2Proof.Machine.execAddressBreakpoint squad lanes k s
  | .engineError op => Sys2Proof.Machine.execEngineError op s
  | .squadEvict squad => Sys2Proof.Machine.execSquadEvict squad s
  | .groupEvict group => Sys2Proof.Machine.execGroupEvict group s
  | .fullSaveTimeout squad => Sys2Proof.Machine.execFullSaveTimeout squad s
  | .squadRestore target => Sys2Proof.Machine.execSquadRestore target s
  | .groupDiscard group => Sys2Proof.Machine.execGroupDiscard group s
  | .groupRestart group core => Sys2Proof.Machine.execGroupRestart group core s
  | .sliceTurn leader => Sys2Proof.Machine.execSliceTurn leader s
  | .islandLevelChange island => Sys2Proof.Machine.execIslandLevelChange island s
  | .frostEnter island => Sys2Proof.Machine.execFrostEnter island s
  | .frostExit island => Sys2Proof.Machine.execFrostExit island s
  | .permafrostEnter cluster => Sys2Proof.Machine.execPermafrostEnter cluster s
  | .permafrostExit cluster passed => Sys2Proof.Machine.execPermafrostExit cluster passed s
  | .powerReclaim owner => Sys2Proof.Machine.execPowerReclaim owner s
  | .latencyWindow missed => Sys2Proof.Machine.execLatencyWindow missed s
  | .logRecordClose slot => Sys2Proof.Machine.execLogRecordClose slot s
  | .whiteout slot => Sys2Proof.Machine.execWhiteout slot s
  | .eventPost fn => Sys2Proof.Machine.execEventPost fn s
  | .powerOn bad => Sys2Proof.Machine.execPowerOn bad s
  | .conventionalReset => Sys2Proof.Machine.execConventionalReset s
  | .firmwareVerifyDone expanders => Sys2Proof.Machine.execFirmwareVerifyDone expanders s
  | .slamirTranslate request => Sys2Proof.Machine.execSlamirTranslate request s
  | .loadfw c addr len => Sys2Proof.Machine.execLoadfw c addr len s
  | .setmode c function assisted => Sys2Proof.Machine.execSetmode c function assisted s
  | .prqans c entry fail => Sys2Proof.Machine.execPrqans c entry fail s
  | .admitAnswer c ctx queue refuse => Sys2Proof.Machine.execAdmitAnswer c ctx queue refuse s
  | .powerset c slot clip budget => Sys2Proof.Machine.execPowerset c slot clip budget s
  | .xlate c ctx start len => Sys2Proof.Machine.execXlate c ctx start len s
  | .xldone c request addr => Sys2Proof.Machine.execXldone c request addr s
  | .debugAttach c ctx => Sys2Proof.Machine.execDebugAttach c ctx s
  | .debugDetach c ctx => Sys2Proof.Machine.execDebugDetach c ctx s
  | .debugHalt c ctx => Sys2Proof.Machine.execDebugHalt c ctx s
  | .debugResume c ctx => Sys2Proof.Machine.execDebugResume c ctx s
  | .debugSetBreakpoint c ctx k addr => Sys2Proof.Machine.execDebugSetBreakpoint c ctx k addr s
  | .debugDump c ctx addr => Sys2Proof.Machine.execDebugDump c ctx addr s
  | .pause c ctx => Sys2Proof.Machine.execPause c ctx s
  | .pauseRestore c ctx cores => Sys2Proof.Machine.execPauseRestore c ctx cores s
  | .floeroute c index fabid device ports => Sys2Proof.Machine.execFloeroute c index fabid device ports s
  | .floeroutePod c fabid device ports => Sys2Proof.Machine.execFloeroutePod c fabid device ports s
  | .comm c comm count addr => Sys2Proof.Machine.execComm c comm count addr s
  | .health c addr => Sys2Proof.Machine.execHealth c addr s
  | .demandRegister c ctx start len key watch => Sys2Proof.Machine.execDemandRegister c ctx start len key watch s
  | .demandRemove c ctx start len => Sys2Proof.Machine.execDemandRemove c ctx start len s
  | .frames c addr count => Sys2Proof.Machine.execFrames c addr count s
  | .ctxmake c number level ptroot stvec => Sys2Proof.Machine.execCtxmake c number level ptroot stvec s
  | .ctxend c number => Sys2Proof.Machine.execCtxend c number s
  | .hpsemRead port => Sys2Proof.Machine.execHpsemRead port s
  | .hpsemAcquire port => Sys2Proof.Machine.execHpsemAcquire port s
  | .hpsemRenew port => Sys2Proof.Machine.execHpsemRenew port s
  | .hpsemRelease port => Sys2Proof.Machine.execHpsemRelease port s
  | .hostMemoryAccess at_ len data => Sys2Proof.Machine.execHostMemoryAccess at_ len data s
  | .managementSemaphoreLeaseExpiry => Sys2Proof.Machine.execManagementSemaphoreLeaseExpiry s

end Sys2Proof.Machine
end

