-- ==== Sys2Proof/Machine/Step.lean ====
section
/-!
DEFINITION. One step of the device: the next move of the agenda, or with no move waiting the choice of R278; and where the next
instruction is fetched from (log 2, DESIGN CHOICE, log 7, DESIGN CHOICE).
-/
namespace Sys2Proof.Machine

/-- The state in which the next move happens. Log 3, DESIGN CHOICE. -/
def State.begin (s : State) : State := { s with agenda := s.agenda.tail, free := s.free + 1, issuing := none }

/-- Time passes; evictions no longer wanted are no longer asked for (R298). -/
def elapse (s : State) (cycles ns : Nat) : State := dropRequests (passTime exec s cycles ns)

/-- A chosen bundle issues, if what issued before it in the cycle has left it ready. Log 2, DESIGN CHOICE. -/
def issueChosen (s : State) (c : Cand) : State :=
  match issueMove exec { s with free := s.free + 1, issuing := none } c.squad c.lanes with
  | .next s' => s'
  | _ => s

/-- R278: in every issue slot the best ready bundle issues, and one cycle passes. Log 2, DESIGN CHOICE. Log 33, DEDUCED. -/
def autoStep (s : State) : Host.Outcome State Fault Refusal :=
  .next (elapse ((portChoices (candidates exec s)).foldl issueChosen s) 1 0)

/-- One move, of a state whose agenda and counter of free values have gone on. Log 2, DESIGN CHOICE. -/
def perform (m : Option Move) (s : State) : Host.Outcome State Fault Refusal :=
  match m with
  | none => autoStep s
  | some (.issue key lanes) => issueMove exec s key lanes
  | some (.event i) => exec i s
  | some (.elapse cycles ns) => .next (elapse s cycles ns)
  | some (.hostRead f offset) => readFnReg f offset s
  | some (.hostWrite f offset w) => writeFnReg f offset w s
  | some (.setCap watts) => setPowerCap watts s
  | some (.spoil unit) => spoilUnit unit s
  | some (.lend slot) => lendPower slot s
  | some (.enableMem port on) => enableMem port on s
  | some (.i3c port offset) => i3cRead port offset s

/-- Log 2, DESIGN CHOICE. -/
def step (s : State) : Host.Outcome State Fault Refusal := perform s.agenda.head? s.begin

/-- The instruction, zeros above `nbits`, as the code of a squad that issues next. Log 7, DESIGN CHOICE. -/
def State.withFetchWord (s : State) (nbits w : Nat) : State :=
  { probeState s (bytesOfWords (tableWords nbits w)) with agenda := [.issue 0 0xFFFFFFFF#32] }

end Sys2Proof.Machine
end

