-- ==== Sys2Proof/Safety.lean ====
section
/-!
DEFINITION. What counts as a safe run, and the terms the statements are put in: that an instruction passes every check made
before it takes effect, and what one that has taken effect leaves.
-/
namespace Sys2Proof

/-- A step that answers a next state. -/
def Goes (s : Machine.State) : Prop := ∃ t, Machine.step s = .next t

/-- The first `n` steps from a state all answer a next state. -/
def SafeFor : Nat → Machine.State → Prop
  | 0, _ => True
  | n + 1, s => ∃ t, Machine.step s = .next t ∧ SafeFor n t

namespace Machine

/-! ### Issuing -/

/-- An instruction that is issuing and passes the checks made before it takes effect, with the environment `e`. -/
structure Clear (sh : Shape) (sForm : Bool) (extra : Extra) (o : Ops) (e : Env) : Prop where
  /-- R44, R45: it has no defect. -/
  legal : sh.defect (latchSupply e.q e.run e.cx.lanes) sForm o = none
  /-- The checks of its own. -/
  special : extra e = none
  /-- R282: its bundle runs at a level that may issue it. -/
  level : levelLt (e.q.levelOf e.cx.lanes) sh.level = false
  /-- R170: where the uniformity rule binds it, its bundle lacks no lane. -/
  whole : needsFull sh o = true → e.missing = 0#32
  /-- R141: a gliding squad does not stall it. -/
  glide : e.q.glide.isSome = true → sh.stalls = false
  /-- R189: it depends on no register that awaits a reply. -/
  replied : e.depends.any e.q.awaits = false
  /-- R101: it neither writes nor releases a busy landing register. -/
  landing : hitsLanding e = false

/-- R30, R39, R173: what an instruction issues with once its registers are at hand: its slot's run, then the checks on what it finds, then
its spilled names reloaded and registers for those it maps. -/
def namedEnv (sh : Shape) (sForm : Bool) (extra : Extra) (o : Ops) (s : State) : Option Env :=
  match issuingEnv sh sForm o s with
  | none => none
  | some e =>
    match hindrance extra e, e.name with
    | none, .ready e => some e
    | _, _ => none

/-- An instruction that is issuing with the environment `e`, its registers at hand, passes every check made before it takes effect. -/
structure Issues (sh : Shape) (sForm : Bool) (extra : Extra) (o : Ops) (s : State) (e : Env) : Prop extends Clear sh sForm extra o e where
  /-- `e` is what it issues with. -/
  env : namedEnv sh sForm extra o s = some e
  /-- R309: its slot has a window of the vector pipe, where it needs one. -/
  window : (vectorOpen e).1 = true

/-- The environment as its own part sees it: the arbiter may have granted a window (R309). -/
def Env.opened (e : Env) : Env := { e with s := (vectorOpen e).2 }

/-! ### What an instruction that took effect leaves -/

/-- Whether a result goes to a register of its class and its latch. -/
def reaches (d : Name) (r : Result) : Bool :=
  match d, r with
  | .v _, .varying _ _ | .s _, .uniform _ | .a _, .affine _ _ | .v _, .kept _ | .s _, .kept _ | .a _, .kept _ => true
  | _, _ => false

/-- Whether a result of consecutive registers from `d` writes lane L of v`n`, but for the two that NWB holds back (R41). -/
def writesLane (d : Name) (r : Result) (held : Bool) (n L : Nat) : Prop :=
  match d, r with
  | .v k, .varying m regs => k.val ≤ n ∧ n < k.val + regs.length ∧ m.getLsbD L = true ∧ (held = true → k.val + 2 ≤ n)
  | _, _ => False

/-- R41: the unwritten fill that an instruction which writes `d` displaces from its latch: one whose register it has not released. -/
def displaces (run : Option Run) (d : Name) (rel : List Name) (r : Result) (fl : Fill) : Prop :=
  reaches d r = true ∧ (∃ u, run = some u ∧ u.fills.getD (latchOf d) none = some fl) ∧ fl.pending = true ∧ fl.name ∉ rel

/-- Whether a fill captured a register: its own, and the one after it if it captured a pair. -/
def fillNames (fl : Fill) (n : Name) : Prop :=
  fl.name = n ∨ (fl.pair = true ∧ ∃ k k', fl.name = .v k ∧ n = .v k' ∧ k'.val = k.val + 1)

/-- Whether a displaced fill is written to `n`. -/
def flushes (run : Option Run) (d : Name) (rel : List Name) (r : Result) (n : Name) : Prop :=
  ∃ fl, displaces run d rel r fl ∧ fillNames fl n

/-- R41: what a displaced fill leaves in the bundle's lanes: what it captured, but for the lanes and registers that the result writes. -/
structure Displaced (lanes : LaneMask) (d : Name) (held : Bool) (r : Result) (f' : Files) (fl : Fill) : Prop where
  varying : ∀ (k : Fin 128) lo hi, fl.name = .v k → fl.val = .varying lo hi → ∀ L, lanes.getLsbD L = true →
    (¬writesLane d r held k.val L → (f'.readV k.val).getD L 0#32 = lo.getD L 0#32) ∧
    (fl.pair = true → ¬writesLane d r held (k.val + 1) L → (f'.readV (k.val + 1)).getD L 0#32 = hi.getD L 0#32)
  uniform : ∀ (k : Fin 64) w, fl.name = .s k → fl.val = .uniform w → ¬(d = .s k ∧ held = false ∧ ∃ w, r = .uniform w) →
    f'.readS k.val = w
  affine : ∀ (k : Fin 16) b st, fl.name = .a k → fl.val = .affine b st → ¬(d = .a k ∧ held = false ∧ ∃ b st, r = .affine b st) →
    f'.readA k.val = (b, st)

/-- R24, R38, R41, R171: the registers after an instruction that released `rel` and whose result is `r`, from the registers `f`.
`held` tells that NWB holds the result back in the latch. -/
structure AfterFiles (run : Option Run) (lanes : LaneMask) (d : Name) (rel : List Name) (fills held : Bool) (r : Result) (f f' : Files) :
    Prop where
  varying : ∀ (n : Fin 128) m regs k vs, d = .v n → r = .varying m regs → regs[k]? = some vs → (held = true → 2 ≤ k) →
    ∀ L, m.getLsbD L = true → (f'.readV (n.val + k)).getD L 0#32 = vs.getD L 0#32
  uniform : ∀ (n : Fin 64) w, d = .s n → r = .uniform w → held = false → f'.readS n.val = w
  affine : ∀ (n : Fin 16) b st, d = .a n → r = .affine b st → held = false → f'.readA n.val = (b, st)
  sameV : ∀ (n : Fin 128) L, L < 32 → .v n ∉ rel → ¬writesLane d r held n.val L → ¬(fills = true ∧ flushes run d rel r (.v n)) →
    (f'.readV n.val).getD L 0#32 = (f.readV n.val).getD L 0#32
  sameS : ∀ (n : Fin 64), .s n ∉ rel → ¬(d = .s n ∧ held = false ∧ ∃ w, r = .uniform w) → ¬(fills = true ∧ flushes run d rel r (.s n)) →
    f'.readS n.val = f.readS n.val
  sameA : ∀ (n : Fin 16), .a n ∉ rel → ¬(d = .a n ∧ held = false ∧ ∃ b st, r = .affine b st) → ¬(fills = true ∧ flushes run d rel r (.a n)) →
    f'.readA n.val = f.readA n.val
  /-- R24: a register named for the last time reads zero, unless the instruction writes it. -/
  lastV : ∀ (n : Fin 128) L, L < 32 → .v n ∈ rel → ¬writesLane d r held n.val L → ¬(fills = true ∧ flushes run d rel r (.v n)) →
    (f'.readV n.val).getD L 0#32 = 0#32
  lastS : ∀ (n : Fin 64), .s n ∈ rel → ¬(d = .s n ∧ held = false ∧ ∃ w, r = .uniform w) → f'.readS n.val = 0#64
  lastA : ∀ (n : Fin 16), .a n ∈ rel → ¬(d = .a n ∧ held = false ∧ ∃ b st, r = .affine b st) → f'.readA n.val = (0#64, 0#32)
  /-- R41: the fill that stood in the latch unwritten. -/
  displaced : fills = true → ∀ fl, displaces run d rel r fl → Displaced lanes d held r f' fl

/-- R38: what the latch of D holds then, in the lanes of the result. -/
def holdsResult (v : LatchVal) : Result → Prop
  | .varying m regs =>
    ∃ lo hi, v = .varying lo hi ∧ ∀ L, m.getLsbD L = true →
      (∀ vs, regs[0]? = some vs → lo.getD L 0#32 = vs.getD L 0#32) ∧ ∀ vs, regs[1]? = some vs → hi.getD L 0#32 = vs.getD L 0#32
  | .uniform w => v = .uniform w
  | .affine b st => v = .affine b st
  | _ => True

/-- What an instruction leaves whose own part came to state `s1` and result `r`, and whose lanes have no fault. `jumped` tells
that its own part set the program counters. -/
structure Retired (e : Env) (fills jumped : Bool) (s1 : State) (r : Result) (t : State) : Prop where
  /-- Nothing else of the state changes after its own part. -/
  others : t = { s1 with squads := t.squads, cores := t.cores, ctxs := t.ctxs, issuing := none }
  squads : ∀ k, k ≠ e.cx.key → t.squad? k = s1.squad? k
  cores : ∀ c, t.core c = { s1.core c with runs := (t.core c).runs }
  /-- R315: a context changes in its energy counter alone. -/
  ctxs : ∀ k, (t.ctx? k).map (fun c => { c with energy := 0#64 }) = (s1.ctx? k).map fun c => { c with energy := 0#64 }
  /-- R38, R39: the runs of other slots stand; this slot's latch of D holds the result, and D's registers wait where NWB is set. -/
  runs : ∀ q, s1.squad? e.cx.key = some q → ∀ c n, ¬(c = s1.coreOf q ∧ n = q.issueSlot) →
    mapGet (t.core c).runs n = mapGet (s1.core c).runs n
  latch : ∀ q, s1.squad? e.cx.key = some q → fills = true → reaches e.cx.o.d r = true →
    ∃ run' v, mapGet (t.core (s1.coreOf q)).runs q.issueSlot = some run' ∧ run'.squad = e.cx.key ∧ run'.lanes = e.cx.lanes ∧
      (latchOf e.cx.o.d < run'.fills.length → run'.fills.getD (latchOf e.cx.o.d) none =
        some { name := e.cx.o.d, pair := r.pair, val := v, pending := e.cx.o.nwb && !r.isKept }) ∧ holdsResult v r
  /-- The squad changes in its lanes, its registers and its bundles, and keeps the cost of the instruction. -/
  squad : ∀ q, s1.squad? e.cx.key = some q → ∃ q', t.squad? e.cx.key = some q' ∧
    q' = { q with lanes := q'.lanes, files := q'.files, bundles := q'.bundles, cost := e.sh.cost } ∧
    q'.lanes.length = q.lanes.length ∧
    (∀ L, L < 32 → L < q.lanes.length →
      (q'.lane L).pc = (if !jumped && e.cx.lanes.getLsbD L then (q.lane L).pc + BitVec.ofNat 64 e.cx.len else (q.lane L).pc) ∧
      (q'.lane L).kind = (q.lane L).kind ∧ (q'.lane L).parked = (q.lane L).parked ∧ (q'.lane L).handler = (q.lane L).handler ∧
      (q'.lane L).level = (q.lane L).level ∧ (q'.lane L).yieldUntil = (q.lane L).yieldUntil ∧ (q'.lane L).fence = (q.lane L).fence ∧
      (q'.lane L).wait = if !jumped && e.cx.lanes.getLsbD L then .none else (q.lane L).wait) ∧
    AfterFiles (currentRun s1 e.cx.key q e.cx.lanes) e.cx.lanes e.cx.o.d (releases e) fills (fills && e.cx.o.nwb) r q.files q'.files

/-! ### Results by class -/

/-- Two results that write the same values. -/
def sameResult : Result → Result → Prop
  | .varying m regs, .varying m' regs' =>
    m = m' ∧ regs.length = regs'.length ∧ ∀ (k L : Nat), k < regs.length → m.getLsbD L = true → (regs.getD k []).getD L 0#32 = (regs'.getD k []).getD L 0#32
  | r, r' => r = r'

/-- Lane values of D, D+1, … for the lanes that execute; nothing where D is `none`. -/
def lanesResult (e : Env) (regs : List (Nat → Word32)) : Result :=
  if e.dCls = .varying then .varying e.active (regs.map perLane) else .none

/-- R30: a uniform result where some lane executes; else D keeps its value. -/
def onceResult (e : Env) (v : Word64) : Result := if e.active = 0#32 then .kept false else .uniform v

/-- An integer function of the width, the C field's bits, and a, b, c and the old D as unsigned numbers; its value counts modulo 2^W. -/
abbrev IntVal := (w n a b c d : Nat) → Int

/-- R168, R177: an integer instruction's result: for each lane from 32-bit operands, or once from 64-bit ones. -/
def intResult (e : Env) (v : IntVal) : Result :=
  let n := e.cx.o.c.bits
  match e.dCls with
  | .uniform =>
    onceResult e (BitVec.ofInt 64 (v 64 n e.x.a.uniVal.toNat e.x.b.uniVal.toNat e.x.c.uniVal.toNat e.oldU.toNat))
  | _ =>
    lanesResult e [fun L =>
      BitVec.ofInt 32 (v 32 n (e.x.a.at32 L).toNat (e.x.b.at32 L).toNat (e.x.c.at32 L).toNat (e.oldD.getD L 0#32).toNat)]

/-- A number read as signed at a width. -/
def signedOf (w a : Nat) : Int := if a < 2 ^ (w - 1) then a else (a : Int) - 2 ^ w

/-! ### What accesses to the windows leave (R155, R157) -/

/-- Accesses by one squad change the windows' bytes and tags, the sync records, the epoch of its group, and in the squad its clock and
what a fence and a counter keep; nothing else. -/
structure Accessed (key : Nat) (s t : State) : Prop where
  others : t = { s with squads := t.squads, groups := t.groups, spans := t.spans, cores := t.cores, dieSync := t.dieSync, dieLost := t.dieLost, sharedLost := t.sharedLost }
  squads : ∀ k, k ≠ key → t.squad? k = s.squad? k
  own : (t.squad? key).map (fun q => { q with clock := Clock.zero, fenceSeen := [], misses := 0 }) =
    (s.squad? key).map fun q => { q with clock := Clock.zero, fenceSeen := [], misses := 0 }
  groups : ∀ k, (t.group? k).map (fun g => { g with shared := [], tags := [], epoch := 0 }) =
    (s.group? k).map fun g => { g with shared := [], tags := [], epoch := 0 }
  spans : ∀ k, (t.span? k).map (fun p => { p with mem := [], tags := [] }) = (s.span? k).map fun p => { p with mem := [], tags := [] }
  cores : ∀ c, { t.core c with sync := [] } = { s.core c with sync := [] }

/-- No squad glides. -/
def NoGlides (s : State) : Prop := ∀ c ∈ s.squads, c.2.glide = none

/-- The bytes of a group's shared window, and of a span's scratchpad window. -/
def sharedBytes (s : State) (gk : Nat) : Memory := ((s.group? gk).map (·.shared)).getD []
def scratchBytes (s : State) (span : Nat) : Memory := ((s.span? span).map (·.mem)).getD []

/-- Every window but the given squad's own of a space keeps its bytes. -/
structure OtherWindows (q : Squad) (sp : Space) (s t : State) : Prop where
  shared : ∀ gk, ¬(sp = .shared ∧ gk = q.groupKey) → sharedBytes t gk = sharedBytes s gk
  scratch : ∀ k, ¬(sp = .scratch ∧ k = s.spanOf q) → scratchBytes t k = scratchBytes s k

/-- Every window keeps its bytes. -/
def SameBytes (s t : State) : Prop := (∀ gk, sharedBytes t gk = sharedBytes s gk) ∧ ∀ k, scratchBytes t k = scratchBytes s k

/-- What one clock knows, the other knows (R155). -/
structure Clock.Le (c d : Clock) : Prop where
  squads : ∀ k, (mapGet c.squads k).getD 0 ≤ (mapGet d.squads k).getD 0
  groups : ∀ k, (mapGet c.groups k).getD 0 ≤ (mapGet d.groups k).getD 0
  ops : ∀ x ∈ c.ops, x ∈ d.ops
  floor : c.floor ≤ d.floor
  codes : ∀ x ∈ c.codes, x ∈ d.codes
  code : c.code ≤ d.code

/-- Whether a squad's accesses to a space go to its glide's buffer (R140). -/
def glidesAt (q : Squad) (sp : Space) : Bool := q.glide.isSome && sp == .shared

/-- R116: whether lane L's access of `n` bytes lies in the window and is aligned. -/
def reachable (e : Env) (sp : Space) (n L : Nat) : Prop := checkAddr (winSize e.s e.q sp) (addrOf e L) n n = none

/-- R115, R116, R153: every executing lane can load: its address is good and no race stands at its words. A helper lane's fault is
suppressed (R14). -/
structure MayLoad (e : Env) (sp : Space) (n : Nat) (cls : AccessClass) : Prop where
  still : glidesAt e.q sp = false
  spans : addrSpans e = true
  lanes : ∀ L, e.active.getLsbD L = true → (e.q.lane L).kind = .helper ∨
    (reachable e sp n L ∧ firstRace e.s e.q sp (squadAgent e.s e.cx.key e.q cls) false (wordsOf (addrOf e L) n) = none)

/-- R120: word i of what lane L loads, of `n` bytes in all; a helper lane whose address is bad reads zero. -/
def loadWord (e : Env) (sp : Space) (n i L : Nat) : Word32 :=
  if checkAddr (winSize e.s e.q sp) (addrOf e L) n n = none then
    BitVec.ofNat 32 (memNat (winMem e.s e.q sp) (addrOf e L + 4 * i) (min 4 (n - 4 * i)))
  else 0#32

/-- R120: a load's result. -/
def loadResult (e : Env) (sp : Space) (n : Nat) : Result :=
  match e.dCls with
  | .uniform =>
    let L := lowLane e.active
    onceResult e (BitVec.ofNat 64 ((loadWord e sp n 0 L).toNat + 2 ^ 32 * if 4 < n then (loadWord e sp n 1 L).toNat else 0))
  | _ => lanesResult e ((List.range (wordsIn n)).map fun i L => loadWord e sp n i L)

/-- The executing lanes that are not helper lanes, ascending. -/
def workLanes (e : Env) : List Nat := (List.range 32).filter fun L => e.active.getLsbD L && (e.q.lane L).kind != .helper

/-- R115, R116, R153: every executing lane that is no helper lane can store, while no squad glides. -/
structure MayStore (e : Env) (sp : Space) (n : Nat) (cls : AccessClass) : Prop where
  still : NoGlides e.s
  spans : addrSpans e = true
  lanes : ∀ L ∈ workLanes e,
    reachable e sp n L ∧ firstRace e.s e.q sp (squadAgent e.s e.cx.key e.q (storeCls e.q L cls)) true (wordsOf (addrOf e L) n) = none

/-- R119, R120: the window after the lanes' stores, in ascending order. -/
def storedWindow (e : Env) (n : Nat) (m : Memory) : Memory :=
  (workLanes e).foldl (fun m L => memWriteN m (addrOf e L) (dataBytes e n L)) m

/-- R115, R116, R153: every executing lane that is no helper lane can perform its atomic, while no squad glides. -/
structure MayAtom (e : Env) (sp : Space) : Prop where
  still : NoGlides e.s
  spans : addrSpans e = true
  lanes : ∀ L ∈ workLanes e,
    reachable e sp 4 L ∧ checkTag (winTag e.s e.q sp (addrOf e L)) (squadAgent e.s e.cx.key e.q .sync) true = none

/-- R119, R123: the lanes' atomics in ascending order: the window after them and what each lane read. -/
def atomsRun (e : Env) (f : (old c c1 : Word32) → Option Word32) : Memory → List Nat → Memory × List (Nat × Word32)
  | m, [] => (m, [])
  | m, L :: ls =>
    let old : Word32 := BitVec.ofNat 32 (memNat m (addrOf e L) 4)
    let m' := match f old (e.x.c.at32 L) (casNew e L) with
      | some v => memWriteN m (addrOf e L) (leBytes 4 v.toNat)
      | none => m
    let r := atomsRun e f m' ls
    (r.1, (L, old) :: r.2)

/-! ### Floating results (R190, R191) -/

/-- A floating function of the rounding mode, the C field's bits, and a, b, c and the old D as 32-bit patterns (a uniform old D whole). -/
abbrev FloatVal := Rm → (n a b c d : Nat) → FRes

/-- What a lane's floating function delivers. -/
def floatLane (e : Env) (f : FloatVal) (L : Nat) : FRes :=
  f e.q.rm e.cx.o.c.bits (e.x.a.at32 L).toNat (e.x.b.at32 L).toNat (e.x.c.at32 L).toNat (e.oldD.getD L 0#32).toNat

/-- What it delivers once, into a uniform D. -/
def floatOnce (e : Env) (f : FloatVal) : FRes :=
  f e.q.rm e.cx.o.c.bits (e.x.a.at32 0).toNat (e.x.b.at32 0).toNat (e.x.c.at32 0).toNat e.oldU.toNat

/-- R190: a floating instruction's result; `signed` where a uniform D takes it sign-extended. -/
def floatResult (e : Env) (signed : Bool) (f : FloatVal) : Result :=
  match e.dCls with
  | .uniform =>
    let bits := (floatOnce e f).bits
    onceResult e (if signed then (BitVec.ofNat 32 bits).signExtend 64 else BitVec.ofNat 64 bits)
  | _ => lanesResult e [fun L => BitVec.ofNat 32 (floatLane e f L).bits]

/-- R191: the flags that it raises: those of the executing lanes that are not helper lanes, or of the one computation. -/
def floatFlags (e : Env) (f : FloatVal) : Flags :=
  match e.dCls with
  | .uniform => if e.active = 0#32 then 0#5 else (floatOnce e f).flags
  | _ => (lanesOf e.active).foldl (fun fl L => fl ||| if (e.q.lane L).kind = .helper then 0#5 else (floatLane e f L).flags) 0#5

/-- R192: no flag that it raises has its trap enabled. -/
def floatQuiet (e : Env) (f : FloatVal) : Prop := floatFlags e f &&& e.q.enables = 0#5

end Machine

end Sys2Proof
end

