-- ==== Sys2Proof/WellFormed.lean ====
section
/-!
DEFINITION. Which terms of the syntax some words stand for: the check that the encoder's round trip asks for. What a word
that decodes may still do wrong (R23, R28, R30, R37) is judged when it issues.
-/
namespace Sys2Proof

/-- R24. -/
def Src.wellFormed (x : Src) : Bool := x.name.wellFormed

/-- R27: every name is one a code names. -/
def Ops.wellFormed (o : Ops) : Bool :=
  o.a.wellFormed && o.b.wellFormed && o.c.wellFormed && o.d.wellFormed && o.guard.reg.wellFormed

/-- R34: as many words as LEN says. -/
def Tree.wellFormed (t : Tree) : Bool := t.body.length == t.len.toNat - 2

/-- Rows of the opcode table that share their word with an earlier row, which the decoder answers with. -/
def Instr.sharesWord : Instr → Bool
  | .keyUnbind _ | .mgsemAcquire _ | .mgsemRenew _ | .mgsemRelease _ | .rwatchClearRange _ | .rwatchSetRing _ | .rwatchWriteHead _ | .chctlWrite _ => true
  | _ => false

/-- The register names of an S form; no other instruction has any here. -/
def Instr.sNames : Instr → List Name
  | .movS d a => [d, a]
  | .movSi d _ => [d]
  | .addS d a b => [d, a, b]
  | .addSi d a _ => [d, a]
  | .subS d a b => [d, a, b]
  | .mulS d a b => [d, a, b]
  | .minS d a b => [d, a, b]
  | .maxS d a b => [d, a, b]
  | .andS d a b => [d, a, b]
  | .andSi d a _ => [d, a]
  | .orS d a b => [d, a, b]
  | .orSi d a _ => [d, a]
  | .xorS d a b => [d, a, b]
  | .xorSi d a _ => [d, a]
  | .shlS d a b => [d, a, b]
  | .shlSi d a _ => [d, a]
  | .shrS d a b => [d, a, b]
  | .shrSi d a _ => [d, a]
  | .sraS d a b => [d, a, b]
  | .sraSi d a _ => [d, a]
  | .faddS d a b => [d, a, b]
  | .fsubS d a b => [d, a, b]
  | .fmulS d a b => [d, a, b]
  | .ldsBS d a _ => [d, a]
  | .ldsWS d a _ => [d, a]
  | .stsWS a _ c => [a, c]
  | .ldpWS d a _ => [d, a]
  | _ => []

/-- Whether words stand for the term. An event has no words; its arguments are judged by its meaning. -/
def Instr.wellFormed (i : Instr) : Bool :=
  !i.sharesWord &&
    match i.coded with
    | .l _ o => o.wellFormed
    | .x _ eng o => o.wellFormed && o.c.bits % 8 == eng
    | .s _ _ _ _ => i.sNames.all Name.wellFormed
    | .t t => t.wellFormed
    | .event => true

end Sys2Proof
end

