-- ==== Sys2Proof/Certificates/Slice0/Obligations.lean ====
section
/-!
DEFINITION. The statements for the provers. Before each group stand the tables it speaks of: an instruction, what its fields must
meet, and what the manual says it computes, in plain numbers.
-/
namespace Sys2Proof.Machine

/-! ### Integer instructions (R177–R181) -/

/-- An instruction, how its fields are judged, and its value. -/
structure IntRow where
  instr : Instr
  shape : Shape
  val : IntVal

/-- The greater and the lesser of two numbers. -/
def least (x y : Int) : Int := if x ≤ y then x else y
def greatest (x y : Int) : Int := if x ≤ y then y else x

/-- R177: the one source of `mov`. -/
def movVal (o : Ops) : IntVal := fun _ _ a b _ _ => if o.a.name = .none then b else a

def arithRows (o : Ops) : List IntRow :=
  [⟨.mov o, shMov o, movVal o⟩,
   ⟨.add o, shAB ruleAdd, fun _ _ a b _ _ => (a : Int) + b⟩,
   ⟨.sub o, shAB ruleAdd, fun _ _ a b _ _ => (a : Int) - b⟩,
   ⟨.mul o, shAB ruleMul, fun _ _ a b _ _ => (a : Int) * b⟩,
   ⟨.mulhi o, shAB ruleInt, fun w _ a b _ _ => signedOf w a * signedOf w b / 2 ^ w⟩,
   ⟨.mulhiU o, shAB ruleInt, fun w _ a b _ _ => ((a * b / 2 ^ w : Nat) : Int)⟩,
   ⟨.mad o, shABC ruleInt, fun _ _ a b c _ => (a : Int) * b + c⟩,
   ⟨.min o, shAB ruleInt, fun w _ a b _ _ => least (signedOf w a) (signedOf w b)⟩,
   ⟨.max o, shAB ruleInt, fun w _ a b _ _ => greatest (signedOf w a) (signedOf w b)⟩,
   ⟨.minU o, shAB ruleInt, fun _ _ a b _ _ => least a b⟩,
   ⟨.maxU o, shAB ruleInt, fun _ _ a b _ _ => greatest a b⟩,
   ⟨.abs o, shA ruleInt, fun w _ a _ _ _ => (signedOf w a).natAbs⟩,
   ⟨.neg o, shA ruleInt, fun _ _ a _ _ _ => -(a : Int)⟩]

/-- A number made of bits: bit i of it is `p i`, of w bits. -/
def bitsWhere (w : Nat) (p : Nat → Bool) : Nat := (List.range w).foldr (fun i x => (if p i then 2 ^ i else 0) + x) 0

/-- The bits of a number that meet a condition, counted. -/
def countBits (w a : Nat) (p : Nat → Bool) : Nat := ((List.range w).filter fun i => a.testBit i && p i).length

def logicRows (o : Ops) : List IntRow :=
  [⟨.and o, shAB ruleInt, fun w _ a b _ _ => bitsWhere w fun i => a.testBit i && b.testBit i⟩,
   ⟨.or o, shAB ruleInt, fun w _ a b _ _ => bitsWhere w fun i => a.testBit i || b.testBit i⟩,
   ⟨.xor o, shAB ruleInt, fun w _ a b _ _ => bitsWhere w fun i => a.testBit i != b.testBit i⟩,
   ⟨.not o, shA ruleInt, fun w _ a _ _ _ => bitsWhere w fun i => !a.testBit i⟩,
   ⟨.andn o, shAB ruleInt, fun w _ a b _ _ => bitsWhere w fun i => a.testBit i && !b.testBit i⟩,
   ⟨.shl o, shAB ruleMul, fun w _ a b _ _ => if w ≤ b then 0 else (a : Int) * 2 ^ b⟩,
   ⟨.shr o, shAB ruleInt, fun w _ a b _ _ => if w ≤ b then 0 else ((a / 2 ^ b : Nat) : Int)⟩,
   ⟨.sra o, shAB ruleInt, fun w _ a b _ _ => if w ≤ b then (if signedOf w a < 0 then -1 else 0) else signedOf w a / 2 ^ b⟩,
   ⟨.rotl o, shAB ruleInt, fun w _ a b _ _ => bitsWhere w fun i => a.testBit ((i + w - b % w) % w)⟩,
   ⟨.clz o, shA ruleInt, fun w _ a _ _ _ => ((List.range w).filter fun i => a < 2 ^ (w - 1 - i)).length⟩,
   ⟨.popc o, shA ruleInt, fun w _ a _ _ _ => countBits w a fun _ => true⟩,
   ⟨.brev o, shA ruleInt, fun w _ a _ _ _ => bitsWhere w fun i => a.testBit (w - 1 - i)⟩,
   ⟨.sel o, shABC ruleInt, fun _ _ a b c _ => if c % 2 = 1 then a else b⟩]

/-- R178: position and field width, and how many field bits lie inside. -/
def fieldInside (w b : Nat) : Nat := let p := b % 256; let k := b / 256 % 256; Nat.min (p + k) w - p

/-- R178, R180, R181. -/
def fieldRows (o : Ops) : List IntRow :=
  [⟨.bfe o, shField (shAB ruleInt), fun w _ a b _ _ => bitsWhere w fun i => i < fieldInside w b && a.testBit (b % 256 + i)⟩,
   ⟨.bfeS o, shField (shAB ruleInt), fun w _ a b _ _ =>
      let n := fieldInside w b
      bitsWhere w fun i => n != 0 && a.testBit (b % 256 + Nat.min i (n - 1))⟩,
   ⟨.bfi o, shField (shABC ruleInt), fun w _ a b c _ =>
      let p := b % 256
      bitsWhere w fun i => if p ≤ i && i < p + fieldInside w b then a.testBit (i - p) else c.testBit i⟩,
   ⟨.sext o, shExt, fun w n a _ _ _ => bitsWhere w fun i => a.testBit (Nat.min i (Nat.min n w - 1))⟩,
   ⟨.zext o, shExt, fun w n a _ _ _ => bitsWhere w fun i => i < n && a.testBit i⟩,
   ⟨.prom o, shA ruleProm, fun _ _ a _ _ _ => a⟩]

/-- R179: D with bit n set to a comparison's outcome. -/
def setbVal (holds : Nat → Nat → Nat → Bool) : IntVal := fun w n a b _ d => bitsWhere w fun i => if i = n % 64 then holds w a b else d.testBit i

def setbRows (o : Ops) : List IntRow :=
  [⟨.setbEq o, shSetb o, setbVal fun _ a b => a = b⟩,
   ⟨.setbNe o, shSetb o, setbVal fun _ a b => a ≠ b⟩,
   ⟨.setbLt o, shSetb o, setbVal fun w a b => signedOf w a < signedOf w b⟩,
   ⟨.setbLe o, shSetb o, setbVal fun w a b => signedOf w a ≤ signedOf w b⟩,
   ⟨.setbGt o, shSetb o, setbVal fun w a b => signedOf w b < signedOf w a⟩,
   ⟨.setbGe o, shSetb o, setbVal fun w a b => signedOf w b ≤ signedOf w a⟩,
   ⟨.setbLtu o, shSetb o, setbVal fun _ a b => a < b⟩,
   ⟨.setbLeu o, shSetb o, setbVal fun _ a b => a ≤ b⟩,
   ⟨.setbGtu o, shSetb o, setbVal fun _ a b => b < a⟩,
   ⟨.setbGeu o, shSetb o, setbVal fun _ a b => b ≤ a⟩]

/-! ### S forms (R26) -/

/-- An S form: its instruction, the fields it stands for, how they are judged, its value. -/
structure SRow where
  instr : Instr
  o : Ops
  shape : Shape
  val : IntVal

def sRows (d a b : Name) (imm : Byte) (imm16 : BitVec 16) : List SRow :=
  let reg := sOps d a b
  let signed := sImm d a (imm.signExtend 32)
  let plain := sImm d a (imm.zeroExtend 32)
  [⟨.movS d a, sOps d a .none, shMov (sOps d a .none), fun _ _ a _ _ _ => a⟩,
   ⟨.movSi d imm16, sImm d .none (imm16.signExtend 32), shMov (sImm d .none (imm16.signExtend 32)), fun _ _ _ b _ _ => b⟩,
   ⟨.addS d a b, reg, shAB ruleAdd, fun _ _ a b _ _ => (a : Int) + b⟩,
   ⟨.addSi d a imm, signed, shAB ruleAdd, fun _ _ a b _ _ => (a : Int) + b⟩,
   ⟨.subS d a b, reg, shAB ruleAdd, fun _ _ a b _ _ => (a : Int) - b⟩,
   ⟨.mulS d a b, reg, shAB ruleMul, fun _ _ a b _ _ => (a : Int) * b⟩,
   ⟨.minS d a b, reg, shAB ruleInt, fun w _ a b _ _ => least (signedOf w a) (signedOf w b)⟩,
   ⟨.maxS d a b, reg, shAB ruleInt, fun w _ a b _ _ => greatest (signedOf w a) (signedOf w b)⟩,
   ⟨.andS d a b, reg, shAB ruleInt, fun w _ a b _ _ => bitsWhere w fun i => a.testBit i && b.testBit i⟩,
   ⟨.andSi d a imm, plain, shAB ruleInt, fun w _ a b _ _ => bitsWhere w fun i => a.testBit i && b.testBit i⟩,
   ⟨.orS d a b, reg, shAB ruleInt, fun w _ a b _ _ => bitsWhere w fun i => a.testBit i || b.testBit i⟩,
   ⟨.orSi d a imm, plain, shAB ruleInt, fun w _ a b _ _ => bitsWhere w fun i => a.testBit i || b.testBit i⟩,
   ⟨.xorS d a b, reg, shAB ruleInt, fun w _ a b _ _ => bitsWhere w fun i => a.testBit i != b.testBit i⟩,
   ⟨.xorSi d a imm, plain, shAB ruleInt, fun w _ a b _ _ => bitsWhere w fun i => a.testBit i != b.testBit i⟩,
   ⟨.shlS d a b, reg, shAB ruleMul, fun w _ a b _ _ => if w ≤ b then 0 else (a : Int) * 2 ^ b⟩,
   ⟨.shlSi d a imm, plain, shAB ruleMul, fun w _ a b _ _ => if w ≤ b then 0 else (a : Int) * 2 ^ b⟩,
   ⟨.shrS d a b, reg, shAB ruleInt, fun w _ a b _ _ => if w ≤ b then 0 else ((a / 2 ^ b : Nat) : Int)⟩,
   ⟨.shrSi d a imm, plain, shAB ruleInt, fun w _ a b _ _ => if w ≤ b then 0 else ((a / 2 ^ b : Nat) : Int)⟩,
   ⟨.sraS d a b, reg, shAB ruleInt,
     fun w _ a b _ _ => if w ≤ b then (if signedOf w a < 0 then -1 else 0) else signedOf w a / 2 ^ b⟩,
   ⟨.sraSi d a imm, plain, shAB ruleInt,
     fun w _ a b _ _ => if w ≤ b then (if signedOf w a < 0 then -1 else 0) else signedOf w a / 2 ^ b⟩]

/-! ### Lanes and classes (R180, R182–R187) -/

/-- An instruction, how its fields are judged, and its result. -/
structure ResultRow where
  instr : Instr
  shape : Shape
  result : Env → Result

/-- R180: a 64-bit value per lane into a pair. -/
def pairResult (e : Env) (v : Nat → Word64) : Result :=
  lanesResult e [fun L => BitVec.ofNat 32 (v L).toNat, fun L => BitVec.ofNat 32 ((v L).toNat / 2 ^ 32)]

def wideRows (o : Ops) : List ResultRow :=
  [⟨.addW o, shWide 2, fun e => pairResult e fun L => e.x.a.pairAt L + e.x.b.pairAt L⟩,
   ⟨.subW o, shWide 2, fun e => pairResult e fun L => e.x.a.pairAt L - e.x.b.pairAt L⟩,
   ⟨.mulWide o, shWide 1, fun e => pairResult e fun L => BitVec.ofInt 64 ((e.x.a.at32 L).toInt * (e.x.b.at32 L).toInt)⟩]

/-- R183: the lanes that take part, and their values of A. -/
def partValues (e : Env) : List Word32 := ((List.range 32).filter fun L => e.active.getLsbD L && (e.q.lane L).kind != .helper).map e.x.a.at32

/-- R183: a reduction's value: broadcast, or whole into a uniform D. -/
def redResult (e : Env) (v : List Word32 → Int) : Result :=
  match e.dCls with
  | .uniform => onceResult e (BitVec.ofInt 64 (v (partValues e)))
  | _ => lanesResult e [fun _ => BitVec.ofInt 32 (v (partValues e))]

/-- R184: the mask of the contributing lanes that meet a condition. -/
def maskOver (e : Env) (p : Nat → Bool) : Word32 :=
  BitVec.ofNat 32 (bitsWhere 32 fun L => e.active.getLsbD L && (e.q.lane L).kind != .helper && p L)

/-- R184: a mask, broadcast or zero-extended. -/
def maskResult (e : Env) (m : Word32) : Result :=
  match e.dCls with
  | .uniform => onceResult e (BitVec.ofNat 64 m.toNat)
  | _ => lanesResult e [fun _ => m]

/-- R187: lane L takes lane k's A, if k executes (and is no other helper lane), else its own. -/
def shuffleResult (e : Env) (k : Nat → Option Nat) : Result :=
  lanesResult e [fun L =>
    match k L with
    | some K => if e.active.getLsbD K && (e.q.lane K).kind != .helper then e.x.a.at32 K else e.x.a.at32 L
    | none => e.x.a.at32 L]

/-- R182: lane B[4:0] of D alone, where it executes. -/
def wrlaneResult (e : Env) : Result :=
  if e.dCls = .varying then
    .varying (e.active &&& BitVec.twoPow 32 (e.x.b.w.toNat % 32)) [perLane fun _ => BitVec.ofNat 32 e.x.a.w.toNat]
  else .none

def laneRows (o : Ops) : List ResultRow :=
  [⟨.rdlane o, shAB ruleRdlane, fun e => 
     let L := e.x.b.w.toNat % 32
     onceResult e (if (e.q.lane L).kind = .absent then 0#64 else BitVec.ofNat 64 (e.x.a.at32 L).toNat)⟩,
   ⟨.wrlane o, { shAB (ruleVarSrc fun a b => a == .uniform && b == .uniform) with readsD := true }, wrlaneResult⟩,
   ⟨.redAdd o, shA ruleRed, fun e => redResult e fun vs => (vs.map BitVec.toInt).sum⟩,
   ⟨.redMin o, shA ruleRed, fun e => redResult e fun vs => (vs.map BitVec.toInt).foldr least 0x7FFFFFFF⟩,
   ⟨.redMax o, shA ruleRed, fun e => redResult e fun vs => (vs.map BitVec.toInt).foldr greatest (-0x80000000)⟩,
   ⟨.redMinU o, shA ruleRed, fun e => redResult e fun vs => (vs.map fun v => (v.toNat : Int)).foldr least 0xFFFFFFFF⟩,
   ⟨.redAnd o, shA ruleRed, fun e => redResult e fun vs => bitsWhere 32 fun i => vs.all (·.getLsbD i)⟩,
   ⟨.redOr o, shA ruleRed, fun e => redResult e fun vs => bitsWhere 32 fun i => vs.any (·.getLsbD i)⟩,
   ⟨.redXor o, shA ruleRed, fun e => redResult e fun vs => bitsWhere 32 fun i => (vs.filter (·.getLsbD i)).length % 2 = 1⟩,
   ⟨.ballot o, shAB fun d a b _ => d != .affine && (a == .varying || a == .affine) && b == .uniform,
     fun e => maskResult e (maskOver e fun L => (e.x.a.at32 L).getLsbD (e.x.b.w.toNat % 32))⟩,
   ⟨.matchLanes o, shA (ruleVarSrc fun a _ => a == .varying), fun e => lanesResult e [fun L => maskOver e fun K => e.x.a.at32 K == e.x.a.at32 L]⟩,
   ⟨.actmask o, { Shape.base with d := .reg 1, rule := fun d _ _ _ => d != .affine }, fun e => maskResult e (maskOver e fun _ => true)⟩,
   ⟨.mpfx o, shMpfx, fun e => lanesResult e [fun L => BitVec.ofNat 32 (countBits 32 (e.x.a.at32 L).toNat fun i => i < L)]⟩,
   ⟨.qswp o, { shA ruleVar with c := .number fun n => 1 ≤ n && n ≤ 3 }, fun e => lanesResult e [fun L => e.x.a.at32 (L ^^^ o.c.bits)]⟩,
   ⟨.qbc o, shAB (ruleVarSrc fun _ b => b == .uniform), fun e => lanesResult e [fun L => e.x.a.at32 (4 * (L / 4) + e.x.b.w.toNat % 4)]⟩,
   ⟨.shflIdx o, shAB ruleVar, fun e => shuffleResult e fun L => some ((e.x.b.at32 L).toNat % 32)⟩,
   ⟨.shflUp o, shShfl, fun e => shuffleResult e fun L => if e.x.b.w.toNat % 2 ^ 32 ≤ L then some (L - e.x.b.w.toNat % 2 ^ 32) else none⟩,
   ⟨.shflDown o, shShfl, fun e => 
     shuffleResult e fun L => if L + e.x.b.w.toNat % 2 ^ 32 ≤ 31 then some (L + e.x.b.w.toNat % 2 ^ 32) else none⟩,
   ⟨.shflXor o, shShfl, fun e => shuffleResult e fun L => some (L ^^^ (e.x.b.w.toNat % 32))⟩]

/-- R185: the lanes that `toaff` heeds, ascending. -/
def liveOf (e : Env) : List Nat := (List.range 32).filter fun L => e.cx.lanes.getLsbD L && (e.q.lane L).kind == .live

/-- R185: a stride with which the lanes' values rise evenly from lane L0's. -/
def fitsLane (e : Env) (L0 : Nat) (st : Int) (L : Nat) : Prop :=
  e.x.a.at32 L = e.x.a.at32 L0 + BitVec.ofInt 32 (st * ((L : Int) - L0))
def isStride (st : Int) : Prop := -(2 ^ 31) ≤ st ∧ st < 2 ^ 31

/-- R185: the member of least magnitude of a set of strides, the positive one on a tie. -/
def isLeast (p : Int → Prop) (st : Int) : Prop :=
  p st ∧ ∀ u, p u → st.natAbs < u.natAbs ∨ (st.natAbs = u.natAbs ∧ u ≤ st)

/-! ### Affine results (R169) -/

/-- An instruction with an affine form: its fields, how they are judged, whether it is an S form, base and exact stride. -/
structure AffRow where
  instr : Instr
  o : Ops
  sForm : Bool
  shape : Shape
  base : Opnd → Opnd → Int
  stride : Opnd → Opnd → Int

/-- R169: a uniform operand has stride 0. -/
def strideOf (x : Opnd) : Int := if x.cls = .affine then x.stride.toInt else 0

def affRows (o : Ops) (d a b : Name) (imm : Byte) : List AffRow :=
  let base1 (x y : Opnd) : Int := if x.cls = .absent then y.w.toNat else x.w.toNat
  let stride1 (x y : Opnd) : Int := if x.cls = .absent then strideOf y else strideOf x
  let add (x y : Opnd) : Int := (x.w.toNat : Int) + y.w.toNat
  let sub (x y : Opnd) : Int := (x.w.toNat : Int) - y.w.toNat
  let mul (x y : Opnd) : Int := (x.w.toNat : Int) * y.w.toInt
  let strideMul (x y : Opnd) : Int := strideOf x * y.w.toInt
  let shl (x y : Opnd) : Int := if 64 ≤ y.w.toNat then 0 else (x.w.toNat : Int) * 2 ^ y.w.toNat
  let strideAdd (x y : Opnd) : Int := strideOf x + strideOf y
  let strideSub (x y : Opnd) : Int := strideOf x - strideOf y
  let strideShl (x y : Opnd) : Int := strideOf x * 2 ^ Nat.min y.w.toNat 64
  [⟨.mov o, o, false, shMov o, base1, stride1⟩,
   ⟨.movS d a, sOps d a .none, true, shMov (sOps d a .none), base1, stride1⟩,
   ⟨.add o, o, false, shAB ruleAdd, add, strideAdd⟩,
   ⟨.addS d a b, sOps d a b, true, shAB ruleAdd, add, strideAdd⟩,
   ⟨.addSi d a imm, sImm d a (imm.signExtend 32), true, shAB ruleAdd, add, strideAdd⟩,
   ⟨.sub o, o, false, shAB ruleAdd, sub, strideSub⟩,
   ⟨.subS d a b, sOps d a b, true, shAB ruleAdd, sub, strideSub⟩,
   ⟨.mul o, o, false, shAB ruleMul, mul, strideMul⟩,
   ⟨.mulS d a b, sOps d a b, true, shAB ruleMul, mul, strideMul⟩,
   ⟨.shl o, o, false, shAB ruleMul, shl, strideShl⟩,
   ⟨.shlS d a b, sOps d a b, true, shAB ruleMul, shl, strideShl⟩,
   ⟨.shlSi d a imm, sImm d a (imm.zeroExtend 32), true, shAB ruleMul, shl, strideShl⟩,
   ⟨.prom o, o, false, shA ruleProm, fun x _ => x.w.toNat, fun _ _ => 0⟩]

/-! ### Floating instructions (R190–R203) -/

/-- An instruction, its fields and form, how they are judged, whether a uniform D takes it sign-extended, what it delivers. -/
structure FloatRow where
  instr : Instr
  shape : Shape
  signed : Bool
  val : FloatVal

/-- R196: D with bit n set to a relation's outcome. -/
def fsetbVal (c : FCmp) : FloatVal := fun _ n a b _ d => ⟨bitsWhere 64 fun i => if i = n % 64 then c.holds a b else d.testBit i, c.flags a b⟩

/-- R201: the packed forms: both elements, their flags together. -/
def packedVal (f : Nat → Nat → Nat → FRes) (a b c : Nat) : FRes :=
  let lo := f (a % 2 ^ 16) (b % 2 ^ 16) (c % 2 ^ 16)
  let hi := f (a / 2 ^ 16) (b / 2 ^ 16) (c / 2 ^ 16)
  ⟨hi.bits * 2 ^ 16 + lo.bits, lo.flags ||| hi.flags⟩

def floatRows (o : Ops) : List FloatRow :=
  [⟨.fadd o, shAB ruleInt, false, fun rm _ a b _ _ => fAdd fp32 rm a b⟩,
   ⟨.fsub o, shAB ruleInt, false, fun rm _ a b _ _ => fSub fp32 rm a b⟩,
   ⟨.fmul o, shAB ruleInt, false, fun rm _ a b _ _ => fMul fp32 rm a b⟩,
   ⟨.ffma o, shABC ruleInt, false, fun rm _ a b c _ => fFma fp32 rm a b c⟩,
   ⟨.fmin o, shAB ruleInt, false, fun _ _ a b _ _ => fMinMax fp32 false a b⟩,
   ⟨.fmax o, shAB ruleInt, false, fun _ _ a b _ _ => fMinMax fp32 true a b⟩,
   ⟨.fabs o, shA ruleInt, false, fun _ _ a _ _ _ => ⟨a % 2 ^ 31, 0#5⟩⟩,
   ⟨.fneg o, shA ruleInt, false, fun _ _ a _ _ _ => ⟨if a < 2 ^ 31 then a + 2 ^ 31 else a - 2 ^ 31, 0#5⟩⟩,
   ⟨.fsetbEq o, shSetb o, false, fsetbVal .eq⟩,
   ⟨.fsetbNe o, shSetb o, false, fsetbVal .ne⟩,
   ⟨.fsetbLt o, shSetb o, false, fsetbVal .lt⟩,
   ⟨.fsetbLe o, shSetb o, false, fsetbVal .le⟩,
   ⟨.fsetbGt o, shSetb o, false, fsetbVal .gt⟩,
   ⟨.fsetbGe o, shSetb o, false, fsetbVal .ge⟩,
   ⟨.fsetbUn o, shSetb o, false, fsetbVal .un⟩,
   ⟨.frndRn o, shA ruleInt, false, fun _ _ a _ _ _ => fRnd .near a⟩,
   ⟨.frndRz o, shA ruleInt, false, fun _ _ a _ _ _ => fRnd .zero a⟩,
   ⟨.frndRd o, shA ruleInt, false, fun _ _ a _ _ _ => fRnd .down a⟩,
   ⟨.frndRu o, shA ruleInt, false, fun _ _ a _ _ _ => fRnd .up a⟩,
   ⟨.fcvt o, shFcvt o, false, fun rm n a b _ _ => (fcvtRes (n % 256) rm a b).getD ⟨0, 0#5⟩⟩,
   ⟨.f2i o, shF2i, true, fun _ n a _ _ _ => f2iRes (rmOf n) a⟩,
   ⟨.f2u o, shF2i, false, fun _ n a _ _ _ => f2uRes (rmOf n) a⟩,
   ⟨.i2f o, shA ruleInt, false, fun rm _ a _ _ _ => deliver fp32 rm (.fin (signedOf 32 a < 0) (signedOf 32 a).natAbs 0)⟩,
   ⟨.u2f o, shA ruleInt, false, fun rm _ a _ _ _ => deliver fp32 rm (.fin false a 0)⟩,
   ⟨.hadd2 o, shAB ruleInt, false, fun rm _ a b _ _ => packedVal (fun x y _ => fAdd fp16 rm x y) a b 0⟩,
   ⟨.hmul2 o, shAB ruleInt, false, fun rm _ a b _ _ => packedVal (fun x y _ => fMul fp16 rm x y) a b 0⟩,
   ⟨.hfma2 o, shABC ruleInt, false, fun rm _ a b c _ => packedVal (fFma fp16 rm) a b c⟩,
   ⟨.bfadd2 o, shAB ruleInt, false, fun rm _ a b _ _ => packedVal (fun x y _ => fAdd bf16 rm x y) a b 0⟩,
   ⟨.bfmul2 o, shAB ruleInt, false, fun rm _ a b _ _ => packedVal (fun x y _ => fMul bf16 rm x y) a b 0⟩,
   ⟨.bffma2 o, shABC ruleInt, false, fun rm _ a b c _ => packedVal (fFma bf16 rm) a b c⟩]

/-- R202, R204: the special functions. -/
def specialRows (o : Ops) (s : State) : List FloatRow :=
  [⟨.rcp o, shSpecial o s, false, fun rm _ a _ _ _ => Special.res .rcp rm a⟩,
   ⟨.rsq o, shSpecial o s, false, fun rm _ a _ _ _ => Special.res .rsq rm a⟩,
   ⟨.sqrt o, shSpecial o s, false, fun rm _ a _ _ _ => Special.res .sqrt rm a⟩,
   ⟨.ex2 o, shSpecial o s, false, fun rm _ a _ _ _ => Special.res .ex2 rm a⟩,
   ⟨.lg2 o, shSpecial o s, false, fun rm _ a _ _ _ => Special.res .lg2 rm a⟩,
   ⟨.sin o, shSpecial o s, false, fun rm _ a _ _ _ => Special.res .sin rm a⟩,
   ⟨.cos o, shSpecial o s, false, fun rm _ a _ _ _ => Special.res .cos rm a⟩,
   ⟨.tanh o, shSpecial o s, false, fun rm _ a _ _ _ => Special.res .tanh rm a⟩]

/-- R26: the floating S forms. -/
def floatSRows (d a b : Name) : List (Instr × FloatVal) :=
  [(.faddS d a b, fun rm _ a b _ _ => fAdd fp32 rm a b), (.fsubS d a b, fun rm _ a b _ _ => fSub fp32 rm a b),
   (.fmulS d a b, fun rm _ a b _ _ => fMul fp32 rm a b)]

/-- R191: the state with the flags of an instruction in its squad's FFLAGS. -/
def withFlags (s : State) (key : Nat) (fl : Flags) : State :=
  if fl = 0#5 then s else s.modSquad key fun q => { q with fflags := q.fflags ||| fl.zeroExtend 64 }

end Sys2Proof.Machine

open Sys2Proof Sys2Proof.Machine

/-- R177: what an instruction of the table's first half leaves, and that it leaves nothing else. -/
def Obligations.integer_arithmetic : Prop :=
  ∀ (o : Ops) (s : State) (e : Env), ∀ r ∈ arithRows o, Issues r.shape false noExtra o s e → e.dCls ≠ .affine →
    ∃ t, exec r.instr s = .next t ∧ Retired e true false e.opened.s (intResult e r.val) t

/-- R177: logic, shifts and counts. -/
def Obligations.integer_logic : Prop :=
  ∀ (o : Ops) (s : State) (e : Env), ∀ r ∈ logicRows o, Issues r.shape false noExtra o s e → e.dCls ≠ .affine →
    ∃ t, exec r.instr s = .next t ∧ Retired e true false e.opened.s (intResult e r.val) t

/-- R178–R181: bit fields, extensions, `prom`, and every `setb`. -/
def Obligations.integer_fields : Prop :=
  ∀ (o : Ops) (s : State) (e : Env),
    (∀ r ∈ fieldRows o, Issues r.shape false noExtra o s e → e.dCls ≠ .affine →
      ∃ t, exec r.instr s = .next t ∧ Retired e true false e.opened.s (intResult e r.val) t) ∧
    ∀ r ∈ setbRows o, Issues r.shape false noExtra o s e →
      ∃ t, exec r.instr s = .next t ∧ Retired e true false e.opened.s (intResult e r.val) t

/-- R26: the S forms: no latch is filled. -/
def Obligations.short_forms : Prop :=
  ∀ (d a b : Name) (imm : Byte) (imm16 : BitVec 16) (s : State) (e : Env),
    (∀ r ∈ sRows d a b imm imm16, Issues r.shape true noExtra r.o s e → e.dCls ≠ .affine →
      ∃ t, exec r.instr s = .next t ∧ Retired e false false e.opened.s (intResult e r.val) t) ∧
    ∀ r ∈ floatSRows d a b, Issues (shAB ruleInt) true noExtra (sOps d a b) s e → floatQuiet e r.2 →
      ∃ t, exec r.1 s = .next t ∧
        Retired e false false (withFlags e.opened.s e.cx.key (floatFlags e r.2)) (floatResult e false r.2) t

/-- R180, R182–R184, R186, R187: `add.w`, `sub.w` and `mul.wide`, which write both registers of the pair, and the instructions that read
other lanes. That a lane whose guard is false keeps a varying D of a reduction, `ballot` or `actmask` is the model's choice (log 41). -/
def Obligations.pair_and_lane_instructions : Prop :=
  ∀ (o : Ops) (s : State) (e : Env), ∀ r ∈ wideRows o ++ laneRows o, Issues r.shape false noExtra o s e →
    ∃ t, exec r.instr s = .next t ∧ Retired e true false e.opened.s (r.result e) t

/-- R169, R185: an affine result, and the trap of a stride out of range; `toaff` finds the even stride of least magnitude, and says which lane
no stride fits. -/
def Obligations.affine_results : Prop :=
  (∀ (o : Ops) (s : State) (e : Env) (L0 : Nat) (rest : List Nat),
    let sh := shA fun d a _ _ => (d == .affine || d == .absent) && a == .varying
    Issues sh false noExtra o s e → e.active ≠ 0#32 → liveOf e = L0 :: rest →
    (∀ st, isLeast (fun u => isStride u ∧ ∀ L ∈ rest, fitsLane e L0 u L) st →
      ∃ t, exec (.toaff o) s = .next t ∧ Retired e true false e.opened.s
        (.affine ((e.x.a.at32 L0 - BitVec.ofInt 32 (st * L0)).signExtend 64) (BitVec.ofInt 32 st)) t) ∧
    ((∀ u, isStride u → ∃ L ∈ rest, ¬fitsLane e L0 u L) → ∃ L1 L,
      rest.head? = some L1 ∧
      ((∀ u, isStride u → ¬fitsLane e L0 u L1) ∧ L = L1 ∨
        ∃ st, isLeast (fun u => isStride u ∧ fitsLane e L0 u L1) st ∧ L ∈ rest ∧ ¬fitsLane e L0 st L ∧
          ∀ K ∈ rest, K < L → fitsLane e L0 st K) ∧
      exec (.toaff o) s = charged e.cx (e.opened.s.ctxOf e.q) e.opened.charge
        (trapAll e.opened.s e.cx e.q sh.cost (fault causeAffineOverflow 0x0002#16 (BitVec.ofNat 64 L))))) ∧
  ∀ (o : Ops) (d a b : Name) (imm : Byte) (s : State) (e : Env), ∀ r ∈ affRows o d a b imm,
    Issues r.shape r.sForm noExtra r.o s e → e.dCls = .affine → e.active ≠ 0#32 →
    (isStride (r.stride e.x.a e.x.b) →
      ∃ t, exec r.instr s = .next t ∧ Retired e (!r.sForm) false e.opened.s
        (.affine (BitVec.ofInt 64 (r.base e.x.a e.x.b)) (BitVec.ofInt 32 (r.stride e.x.a e.x.b))) t) ∧
    (¬isStride (r.stride e.x.a e.x.b) →
      exec r.instr s = charged e.cx (e.opened.s.ctxOf e.q) e.opened.charge
        (trapAll e.opened.s e.cx e.q r.shape.cost
          (fault causeAffineOverflow 0x0001#16 (BitVec.ofInt 64 (r.stride e.x.a e.x.b)))))

/-- R43: `nop` leaves everything but the program counters. -/
def Obligations.nop_does_nothing : Prop :=
  ∀ (o : Ops) (s : State) (e : Env), Issues shNone false noExtra o s e →
    ∃ t, exec (.nop o) s = .next t ∧ Retired e true false e.opened.s .none t

namespace Sys2Proof.Machine

/-! ### Rounding (R51–R57) -/

/-- R53: whether a magnitude of M / d units goes to n of them. -/
def goesTo (rm : Rm) (neg : Bool) (M d n : Nat) : Prop :=
  let below := n * d ≤ M ∧ M < n * d + d
  let above := M ≤ n * d ∧ n * d < M + d
  match rm with
  | .near => 2 * (n * d) ≤ 2 * M + d ∧ 2 * M ≤ 2 * (n * d) + d ∧ (2 * (n * d) = 2 * M + d ∨ 2 * M = 2 * (n * d) + d → n % 2 = 0)
  | .zero => below
  | .down => if neg then above else below
  | .up => if neg then below else above

/-- R57: the code of an overflow's magnitude, from the code of infinity: that or the largest finite one. -/
def overflowTo (rm : Rm) (neg : Bool) (inf : Nat) : Nat :=
  match rm with
  | .near => inf
  | .zero => inf - 1
  | .down => if neg then inf else inf - 1
  | .up => if neg then inf - 1 else inf

/-- R51: the value of each code of a format with F fraction bits, a bias and the code `inf` of infinity. -/
def codesMean (f : Fmt) (F bias inf : Nat) : Prop :=
  ∀ (neg : Bool) (mag : Nat), mag < inf + 2 ^ F →
    let v := f.decode (if neg then mag + inf + 2 ^ F else mag)
    (mag < 2 ^ F → v = .fin neg mag (1 - (bias : Int) - F)) ∧
    (2 ^ F ≤ mag → mag < inf → v = .fin neg (mag % 2 ^ F + 2 ^ F) ((mag / 2 ^ F : Nat) - (bias : Int) - F)) ∧
    (mag = inf → v = .inf neg) ∧ (inf < mag → v = .nan (mag % 2 ^ F < 2 ^ (F - 1)))

/-- R52, R53, R55, R57: what a format delivers of ± m × 2^e whose last place is 2^q: the multiple n of the last place that the mode chooses,
or an overflow. -/
def roundsOnce (f : Fmt) (F bias inf : Nat) : Prop :=
  ∀ (rm : Rm) (neg : Bool) (m : Nat) (e q : Int) (n : Nat),
    let least : Int := 1 - bias - F
    let M := m * 2 ^ (e - q).toNat
    let d := 2 ^ (q - e).toNat
    least ≤ q → M < d * 2 ^ (F + 1) → (q = least ∨ d * 2 ^ F ≤ M) → goesTo rm neg M d n →
    let r := deliver f rm (.fin neg m e)
    let tooBig := (bias : Int) - F < q ∨ (q = (bias : Int) - F ∧ n = 2 ^ (F + 1))
    (tooBig → r.bits = overflowTo rm neg inf + (if neg then inf + 2 ^ F else 0) ∧ r.flags = flagOF ||| flagNX) ∧
    (¬tooBig → (∃ k x, f.decode r.bits = .fin neg k x ∧ q ≤ x ∧ k * 2 ^ (x - q).toNat = n) ∧
      r.flags = (if M = n * d then 0#5 else if q = least ∧ n < 2 ^ F then flagNX ||| flagUF else flagNX))

/-- R52: the exact sum of two finite numbers, with the sign of a zero. -/
def exactSum (rm : Rm) (a : Bool) (m : Nat) (e : Int) (b : Bool) (n : Nat) (g : Int) : Num :=
  let part (neg : Bool) (k : Nat) (x : Int) : Int := (if neg then -1 else 1) * (k * 2 ^ (x - min e g).toNat : Nat)
  let v := part a m e + part b n g
  if m = 0 ∧ n = 0 then .fin (if a = b then a else rm = .down) 0 0
  else if v = 0 then .fin (rm = .down) 0 0
  else .fin (v < 0) v.natAbs (min e g)

/-- R193, R201: a sum, a difference, a product and a fused product and sum of finite numbers deliver the exact result, rounded once. -/
def sumsExact (f : Fmt) : Prop :=
  ∀ (rm : Rm) (x y z : Nat) (a b c : Bool) (m n k : Nat) (e g h : Int),
    f.decode x = .fin a m e → f.decode y = .fin b n g → f.decode z = .fin c k h →
    fAdd f rm x y = deliver f rm (exactSum rm a m e b n g) ∧
    fSub f rm x y = deliver f rm (exactSum rm a m e (!b) n g) ∧
    fMul f rm x y = deliver f rm (.fin (a != b) (m * n) (e + g)) ∧
    fFma f rm x y z = deliver f rm (exactSum rm (a != b) (m * n) (e + g) c k h)

end Sys2Proof.Machine

/-- R51–R53, R55, R57, R190, R191, R193, R201, R202, R204: a floating instruction or a special function that raises no flag whose trap is enabled;
what FP32, FP16 and BF16 deliver of an exact value, with its flags, and that sums and products are exact before that one rounding. That UF is
judged on the delivered code is the model's reading (log 10). -/
def Obligations.float_instructions : Prop :=
  (∀ (o : Ops) (s : State) (e : Env), ∀ r ∈ floatRows o ++ specialRows o s, Issues r.shape false noExtra o s e → floatQuiet e r.val →
    ∃ t, exec r.instr s = .next t ∧
      Retired e true false (withFlags e.opened.s e.cx.key (floatFlags e r.val)) (floatResult e r.signed r.val) t) ∧
  ∀ x ∈ [(fp32, 23, 127, 0x7F800000), (fp16, 10, 15, 0x7C00), (bf16, 7, 127, 0x7F80)],
    codesMean x.1 x.2.1 x.2.2.1 x.2.2.2 ∧ roundsOnce x.1 x.2.1 x.2.2.1 x.2.2.2 ∧ sumsExact x.1

namespace Sys2Proof.Machine

/-! ### Loads, stores, atomics (R116–R124) -/

/-- An instruction in either form: its fields, how they are judged. -/
structure Form where
  instr : Instr
  o : Ops
  sForm : Bool
  shape : Shape

/-- The byte offset that a short form's immediate stands for (R26). -/
def fourTimes (imm : Byte) : Word32 := BitVec.ofNat 32 (4 * imm.toNat)

/-- R120, R122: the loads, with their space, size and class. -/
def loadForms (o : Ops) (d a : Name) (imm : Byte) : List (Form × Space × Nat × AccessClass) :=
  let l (i : Instr) (n : Nat) (st : Bool) : Form := ⟨i, o, false, shLoad n st⟩
  let short (i : Instr) (n : Nat) (st : Bool) (lit : Word32) : Form := ⟨i, sImm d a lit, true, shLoad n st⟩
  [(l (.ldsB o) 1 false, .shared, 1, .plain), (short (.ldsBS d a imm) 1 false (imm.zeroExtend 32), .shared, 1, .plain),
   (l (.ldsH o) 2 false, .shared, 2, .plain), (l (.ldsW o) 4 false, .shared, 4, .plain),
   (short (.ldsWS d a imm) 4 false (fourTimes imm), .shared, 4, .plain), (l (.ldsD o) 8 false, .shared, 8, .plain),
   (l (.ldsQ o) 16 false, .shared, 16, .plain), (l (.ldpW o) 4 true, .scratch, 4, .plain),
   (short (.ldpWS d a imm) 4 true (fourTimes imm), .scratch, 4, .plain), (l (.ldpD o) 8 true, .scratch, 8, .plain),
   (l (.ldpQ o) 16 true, .scratch, 16, .plain), (l (.ldsAcq o) 4 true, .shared, 4, .sync), (l (.ldpAcq o) 4 true, .scratch, 4, .sync)]

/-- R120, R122: the stores. -/
def storeForms (o : Ops) (a c : Name) (imm : Byte) : List (Form × Space × Nat × AccessClass) :=
  let l (i : Instr) (n : Nat) (st : Bool) : Form := ⟨i, o, false, shStore n st⟩
  [(l (.stsB o) 1 false, .shared, 1, .plain), (l (.stsH o) 2 false, .shared, 2, .plain), (l (.stsW o) 4 false, .shared, 4, .plain),
   (⟨.stsWS a imm c, sStore a (fourTimes imm) c, true, shStore 4 false⟩, .shared, 4, .plain), (l (.stsD o) 8 false, .shared, 8, .plain),
   (l (.stsQ o) 16 false, .shared, 16, .plain), (l (.stpW o) 4 true, .scratch, 4, .plain), (l (.stpD o) 8 true, .scratch, 8, .plain),
   (l (.stpQ o) 16 true, .scratch, 16, .plain), (l (.stsRel o) 4 true, .shared, 4, .sync), (l (.stpRel o) 4 true, .scratch, 4, .sync)]

/-- R123: the atomics, each with the new word it makes of the old one, C and C+1; none where a compare fails. -/
def atomForms (o : Ops) : List (Form × Space × ((old c c1 : Word32) → Option Word32)) :=
  let f (i : Instr) (cas : Bool) : Form := ⟨i, o, false, shAtom cas⟩
  let lesser (x y : Word32) : Word32 := if x.toInt < y.toInt then x else y
  let greater (x y : Word32) : Word32 := if x.toInt < y.toInt then y else x
  let lesserU (x y : Word32) : Word32 := if x.toNat < y.toNat then x else y
  let greaterU (x y : Word32) : Word32 := if x.toNat < y.toNat then y else x
  let cas (x y z : Word32) : Option Word32 := if x = y then some z else none
  [(f (.atomsAdd o) false, .shared, fun x c _ => some (x + c)), (f (.atomsMin o) false, .shared, fun x c _ => some (lesser x c)),
   (f (.atomsMax o) false, .shared, fun x c _ => some (greater x c)), (f (.atomsMinU o) false, .shared, fun x c _ => some (lesserU x c)),
   (f (.atomsMaxU o) false, .shared, fun x c _ => some (greaterU x c)), (f (.atomsAnd o) false, .shared, fun x c _ => some (x &&& c)),
   (f (.atomsOr o) false, .shared, fun x c _ => some (x ||| c)), (f (.atomsXor o) false, .shared, fun x c _ => some (x ^^^ c)),
   (f (.atomsExch o) false, .shared, fun _ c _ => some c), (f (.atomsCas o) true, .shared, cas),
   (f (.atompAdd o) false, .scratch, fun x c _ => some (x + c)), (f (.atompMin o) false, .scratch, fun x c _ => some (lesser x c)),
   (f (.atompMax o) false, .scratch, fun x c _ => some (greater x c)), (f (.atompMinU o) false, .scratch, fun x c _ => some (lesserU x c)),
   (f (.atompMaxU o) false, .scratch, fun x c _ => some (greaterU x c)), (f (.atompAnd o) false, .scratch, fun x c _ => some (x &&& c)),
   (f (.atompOr o) false, .scratch, fun x c _ => some (x ||| c)), (f (.atompXor o) false, .scratch, fun x c _ => some (x ^^^ c)),
   (f (.atompExch o) false, .scratch, fun _ c _ => some c), (f (.atompCas o) true, .scratch, cas)]

/-! ### The spill stack (R125–R128) -/

/-- R125, R126: an offset of 8 bytes that `ldk` and `stk` may touch at a level. -/
def spillOffset (q : Squad) (level : Level) (x : Nat) : Prop :=
  x + 8 ≤ q.spSize.toNat ∧ x % 4 = 0 ∧ (x + 8 ≤ 0x1000 ∨ 0x6000 ≤ x) ∧ (level = .user → x + 8 ≤ 0x0F80 ∨ 0x1000 ≤ x)

/-- R128: 8 bytes of the spill stack at an offset can be accessed now, by a translation that is cached and still stands. -/
structure AtHand (s : State) (key : Nat) (q : Squad) (x : Nat) (l : Leaf) : Prop where
  free : s.waitsFor (.spill key x) = false
  space : (q.spBase.toNat + x) % 2 ^ 64 < 2 ^ 48
  onePage : (q.spBase.toNat + x) % 65536 + 8 ≤ 65536
  cached : ∃ t, s.tlb.find? (·.covers { cluster := clusterOf (s.coreOf q), use := .data } (s.ctxOf q) ((q.spBase.toNat + x) % 2 ^ 64)) = some t ∧
    t.leaf ((q.spBase.toNat + x) % 2 ^ 64) = l
  walked : (walk s (s.ctxOf q) ((q.spBase.toNat + x) % 2 ^ 64) .both).toOption = some l
  grants : l.r = true ∧ l.w = true
  backed : s.backs (slotOf (s.ctxOf q)) l.pa = true
  keyed : s.keyOk (slotOf (s.ctxOf q)) l = true
  unwatched : l.watch = false

/-- Every executing lane can load its 8 bytes; a helper lane may stand at a bad offset (R14). -/
structure MayLdk (e : Env) (leaf : Nat → Leaf) : Prop where
  spans : addrSpans e = true
  lanes : ∀ L, e.active.getLsbD L = true →
    (spillOffset e.q (e.q.lane L).level (addrOf e L) ∧ AtHand e.s e.cx.key e.q (addrOf e L) (leaf L) ∧ e.s.sound (leaf L).pa 8 = true) ∨
      ((e.q.lane L).kind = .helper ∧ ¬spillOffset e.q (e.q.lane L).level (addrOf e L))

/-- R126: what lane L loads: 8 bytes under the page's key. -/
def ldkWord (e : Env) (leaf : Nat → Leaf) (L : Nat) : Nat :=
  if e.q.spSize.toNat < addrOf e L + 8 ∨ addrOf e L % 4 ≠ 0 ∨ spillOpen (e.q.lane L).level (addrOf e L) = false then 0
  else leNat (e.s.readPhysN (e.s.key (leaf L).key).keyId (leaf L).pa 8)

def ldkResult (e : Env) (leaf : Nat → Leaf) : Result :=
  match e.dCls with
  | .uniform => onceResult e (BitVec.ofNat 64 (ldkWord e leaf (lowLane e.active)))
  | _ => lanesResult e [fun L => BitVec.ofNat 32 (ldkWord e leaf L), fun L => BitVec.ofNat 32 (ldkWord e leaf L / 2 ^ 32)]

/-- R119, R126: main memory after the lanes' stores, in ascending order. -/
def stackAfter (e : Env) (leaf : Nat → Leaf) (s : State) (ls : List Nat) : State :=
  ls.foldl (fun s L => s.writePhysN (s.key (leaf L).key).keyId (leaf L).pa (dataBytes e 8 L)) s

/-- Every executing lane that is no helper lane can store its 8 bytes, before and after the lower lanes' stores. -/
structure MayStk (e : Env) (leaf : Nat → Leaf) : Prop where
  spans : addrSpans e = true
  lanes : ∀ L ∈ workLanes e, spillOffset e.q (e.q.lane L).level (addrOf e L) ∧ AtHand e.s e.cx.key e.q (addrOf e L) (leaf L)
  still : ∀ pre L post, workLanes e = pre ++ L :: post → AtHand (stackAfter e leaf e.s pre) e.cx.key e.q (addrOf e L) (leaf L)

end Sys2Proof.Machine

/-- R120, R122: every load's result, and that a load changes no byte. -/
def Obligations.loads : Prop :=
  ∀ (o : Ops) (d a : Name) (imm : Byte) (s : State) (e : Env), ∀ r ∈ loadForms o d a imm,
    Issues r.1.shape r.1.sForm noExtra r.1.o s e → MayLoad e.opened r.2.1 r.2.2.1 r.2.2.2 →
    ∃ s1 t, exec r.1.instr s = .next t ∧ Accessed e.cx.key e.opened.s s1 ∧ SameBytes e.opened.s s1 ∧
      Retired e (!r.1.sForm) false s1 (loadResult e.opened r.2.1 r.2.2.1) t

/-- R120, R122: every store's bytes, and that no other byte changes. -/
def Obligations.stores : Prop :=
  ∀ (o : Ops) (a c : Name) (imm : Byte) (s : State) (e : Env), ∀ r ∈ storeForms o a c imm,
    Issues r.1.shape r.1.sForm noExtra r.1.o s e → MayStore e.opened r.2.1 r.2.2.1 r.2.2.2 →
    ∃ s1 t, exec r.1.instr s = .next t ∧ Accessed e.cx.key e.opened.s s1 ∧ OtherWindows e.q r.2.1 e.opened.s s1 ∧
      winMem s1 e.q r.2.1 = storedWindow e.opened r.2.2.1 (winMem e.opened.s e.q r.2.1) ∧
      (∀ x, (∀ L ∈ workLanes e, x < addrOf e L ∨ addrOf e L + r.2.2.1 ≤ x) →
        memRead (winMem s1 e.q r.2.1) x = memRead (winMem e.opened.s e.q r.2.1) x) ∧
      Retired e (!r.1.sForm) false s1 .none t

/-- R123, R222: every atomic: its old words, its new bytes, and the taint of an idempotent region. -/
def Obligations.atomics : Prop :=
  ∀ (o : Ops) (s : State) (e : Env), ∀ r ∈ atomForms o,
    Issues r.1.shape false noExtra o s e → MayAtom e.opened r.2.1 →
    ∃ s0 t, exec r.1.instr s = .next t ∧ Accessed e.cx.key e.opened.s s0 ∧ OtherWindows e.q r.2.1 e.opened.s s0 ∧
      let m := atomsRun e.opened r.2.2 (winMem e.opened.s e.q r.2.1) (workLanes e)
      winMem s0 e.q r.2.1 = m.1 ∧
      (∀ x, (∀ L ∈ workLanes e, x < addrOf e L ∨ addrOf e L + 4 ≤ x) → memRead m.1 x = memRead (winMem e.opened.s e.q r.2.1) x) ∧
      Retired e true false
        (if r.2.1 = .scratch ∧ e.active ≠ 0#32 then
          s0.modSquad e.cx.key fun q => { q with region := q.region.map fun g => { g with taint := true } }
        else s0)
        (lanesResult e [fun L => (mapGet m.2 L).getD 0#32]) t

/-- R126: `ldk` and `stk` at offsets whose pages are at hand. -/
def Obligations.spill_stack : Prop :=
  ∀ (o : Ops) (s : State) (e : Env) (leaf : Nat → Leaf),
    (Issues shLdk false noExtra o s e → MayLdk e.opened leaf →
      ∃ t, exec (.ldk o) s = .next t ∧ Retired e true false e.opened.s (ldkResult e.opened leaf) t) ∧
    (Issues shStk false noExtra o s e → MayStk e.opened leaf →
      ∃ t, exec (.stk o) s = .next t ∧ Retired e true false (stackAfter e.opened leaf e.opened.s (workLanes e)) .none t)

/-- R116: an access outside the window, or misaligned in it, faults and changes nothing, whatever else stands. -/
def Obligations.access_checks : Prop :=
  ∀ (s : State) (key L : Nat) (q : Squad) (sp : Space) (x n : Nat) (cls : AccessClass) (bs : List Byte) (op : AtomOp) (c c1 : Word32),
    s.squad? key = some q → (q.lane L).kind ≠ .helper → 0 < n → bs.length = n →
    (winSize s q sp < x + n →
      loadWin s key L sp x n n cls = (.error (fault 0x07#16 0x0001#16 (BitVec.ofNat 64 x)), s) ∧
      storeWin s key L sp x n bs cls = (some (fault 0x07#16 0x0001#16 (BitVec.ofNat 64 x)), s)) ∧
    (x + n ≤ winSize s q sp → x % n ≠ 0 →
      loadWin s key L sp x n n cls = (.error (fault 0x08#16 0x0001#16 (BitVec.ofNat 64 x)), s) ∧
      storeWin s key L sp x n bs cls = (some (fault 0x08#16 0x0001#16 (BitVec.ofNat 64 x)), s)) ∧
    (winSize s q sp < x + 4 → atomWin s key L sp op x c c1 = (.error (fault 0x07#16 0x0001#16 (BitVec.ofNat 64 x)), s)) ∧
    (x + 4 ≤ winSize s q sp → x % 4 ≠ 0 → atomWin s key L sp op x c c1 = (.error (fault 0x08#16 0x0001#16 (BitVec.ofNat 64 x)), s))

/-- R153, R155, R157: a plain access to a word that another squad of the group wrote plainly races while the accessor has not acquired the writer's
epoch; once it has, it does not; a release and then an acquire of what it published order every access that the releaser made before it. -/
def Obligations.races_end_at_an_acquire : Prop :=
  (∀ (t : WordTag) (w : Access) (me : Agent) (writes : Bool),
    t.writer = some w → t.readers = [] → w.group = me.acc.group → w.squad ≠ me.acc.squad → w.op = none →
    w.cls = .plain → me.acc.cls = .plain →
    let known := (mapGet me.clock.squads (squadKey (groupKey me.grid w.group) w.squad)).getD 0
    (known < w.epoch → ∃ r, checkTag t me writes = some r ∧ r.other = w ∧ r.kind = (if writes then 3 else 1) ∧ r.mixed = false) ∧
    (w.epoch ≤ known → checkTag t me writes = none)) ∧
  ∀ (s : State) (a b scope : Nat) (qa qb : Squad) (w : Access) (cls : AccessClass) (writes : Bool),
    s.squad? a = some qa → s.squad? b = some qb → a ≠ b →
    a = squadKey qa.groupKey qa.sq → qb.grid = qa.grid → qb.group = qa.group →
    w.group = qa.group → w.squad = qa.sq → w.op = none → w.epoch ≤ qa.epoch a →
    let p := release s a scope
    let s' := acquire p.2 b p.1
    ∃ q', s'.squad? b = some q' ∧ orderedBefore w (squadAgent s' b q' cls) = true ∧
      ∀ t : WordTag, t.writer = some w → t.readers = [] → checkTag t (squadAgent s' b q' cls) writes = none

namespace Sys2Proof.Machine

/-! ### Instructions that act on the machine's state -/

/-- An instruction, how it is judged, when it takes effect at once, the state its own part leaves and its result. `jumped` tells
that its own part sets the program counters. -/
structure EffRow where
  instr : Instr
  shape : Shape
  extra : Extra
  jumped : Bool
  when_ : Env → Prop
  after : Env → State
  result : Env → Result

/-- What such an instruction does where it takes effect. -/
def takesEffect (r : EffRow) (o : Ops) (s : State) (e : Env) : Prop :=
  Issues r.shape false r.extra o s e → r.when_ e.opened →
    ∃ t, exec r.instr s = .next t ∧ Retired e (!r.shape.post) r.jumped (r.after e.opened) (r.result e.opened) t

/-- The issuing squad changed. -/
def Env.ofSquad (e : Env) (f : Squad → Squad) : State := e.s.modSquad e.cx.key f

/-- The lanes of the bundle stand past the instruction. -/
def past (s : State) (e : Env) (m : LaneMask) : State :=
  s.modSquad e.cx.key fun q => q.onLanes m fun l => { l with pc := l.pc + BitVec.ofNat 64 e.cx.len, wait := .none }

def noResult : Env → Result := fun _ => .none

/-! ### Transfers (R206, R213, R214) -/

/-- R206: from a register: a varying lane's value replaces the low half of the program counter. -/
def laneTarget (e : Env) (L : Nat) : Word64 :=
  match e.x.a.cls with
  | .varying => BitVec.ofNat 64 (e.cx.pc.toNat / 2 ^ 32 * 2 ^ 32 + (e.x.a.lo.getD L 0#32).toNat)
  | _ => e.x.a.at64 L

/-- R206: from a literal, in words. -/
def wordTarget (e : Env) (_ : Nat) : Word64 := e.cx.pc + e.x.b.w * 4#64

/-- R21, R206: a target that can be taken. -/
def goodTarget (t : Word64) : Bool := t.toNat < 2 ^ 48 && t.toNat % 4 == 0

/-- R213: the lanes that execute go to their targets, the others to the next instruction; lanes that stand at two or more addresses then
form no bundle until the next regroup tick. -/
def went (t : Env → Nat → Word64) (e : Env) : State :=
  e.ofSquad fun q =>
    let q' := q.onLanesI e.cx.lanes fun L l =>
      { l with pc := if e.active.getLsbD L && goodTarget (t e L) then t e L else l.pc + BitVec.ofNat 64 e.cx.len, wait := .none }
    if ∀ L ∈ lanesOf e.cx.lanes, ∀ K ∈ lanesOf e.cx.lanes, (q'.lane L).pc = (q'.lane K).pc then q' else q'.leaveBundles e.cx.lanes

/-- R214: the address after the instruction. -/
def linkValue (e : Env) : Result :=
  let next := e.cx.pc + BitVec.ofNat 64 e.cx.len
  match e.dCls with
  | .varying => .varying e.active [perLane fun _ => BitVec.ofNat 32 next.toNat]
  | .uniform => onceResult e next
  | _ => .none

def transferRow (i : Instr) (sh : Shape) (t : Env → Nat → Word64) (r : Env → Result) : EffRow :=
  { instr := i, shape := sh, extra := noExtra, jumped := true, after := went t, result := r,
    when_ := fun e => ∀ L, e.active.getLsbD L = true → (e.q.lane L).kind = .helper ∨ goodTarget (t e L) = true }

def transferRows (o : Ops) : List EffRow :=
  [transferRow (.bra o) shBra wordTarget noResult, transferRow (.brx o) shBrx laneTarget noResult,
   transferRow (.call o) shCall wordTarget linkValue, transferRow (.calx o) shCalx laneTarget linkValue,
   transferRow (.ret o) shBrx laneTarget noResult]

/-! ### Events, meetings, yields, regions (R216, R220–R224) -/

/-- R221: the executing live lanes' event at the instruction; the other lanes go on. -/
def raised (cause sub : BitVec 16) (toStvec : Bool) (e : Env) : State :=
  let m := e.active &&& ~~~e.q.helpers
  raise (past e.s e (e.cx.lanes &&& ~~~m)) e.cx.key
    { cause := cause, sub := sub, lanes := m, pc := e.cx.pc, addr := 0#64, lane := lowLane m, level := 0xFE, node := 0, slot := 0,
      resume := e.cx.pc, words := e.cx.words.take (e.cx.len / 4), other := 0#32, toStvec := toStvec, inHandler := false, halts := false,
      raisedAt := 0 }

def eventRow (i : Instr) (cause sub : BitVec 16) (toStvec : Bool) : EffRow :=
  { instr := i, shape := shCode, extra := noExtra, jumped := true, after := raised cause sub toStvec, result := noResult,
    when_ := fun e => e.active &&& ~~~e.q.helpers ≠ 0#32 }

def eventRows (o : Ops) : List EffRow :=
  [eventRow (.trap o) 0x10#16 (BitVec.ofNat 16 o.c.bits) false, eventRow (.svc o) 0x10#16 (BitVec.ofNat 16 (256 + o.c.bits)) true,
   eventRow (.brk o) 0x0F#16 (BitVec.ofNat 16 o.c.bits) false]

/-- R216: where a `meet` meets. -/
def meetingAt (e : Env) : Word64 := if e.cx.o.lit.isSome then wordTarget e 0 else e.x.b.w

def laneStateRows (o : Ops) : List EffRow :=
  [{ instr := .meet o, shape := shMeet, extra := noExtra, jumped := false, result := noResult,
     when_ := fun e => goodTarget (meetingAt e) = true,
     after := fun e => e.ofSquad fun q => q.onLanes (e.active &&& ~~~e.q.helpers) fun l =>
       { l with meetAt := some (meetingAt e), meetMask := BitVec.ofNat 32 e.x.a.w.toNat } },
   { instr := .yield o, shape := shNone, extra := noExtra, jumped := false, result := noResult, when_ := fun _ => True,
     after := fun e => e.ofSquad fun q => q.onLanes e.active fun l => { l with yieldUntil := some (e.s.cycle + 64 + 1) } },
   { instr := .idemBegin o, shape := shSquad, extra := noExtra, jumped := false, result := noResult, when_ := fun e => e.active ≠ 0#32,
     after := fun e => e.ofSquad fun q =>
       { q with region := some { taint := false, entry := e.cx.pc + 8#64, lanes := q.live, fctl := q.fctl, fflags := q.fflags,
                                 glideEn := q.glideEn } } },
   { instr := .idemEnd o, shape := shSquad, extra := noExtra, jumped := false, result := noResult, when_ := fun e => e.active ≠ 0#32,
     after := fun e => e.ofSquad fun q => { q with region := none } },
   { instr := .trig o, shape := shSquad, extra := noExtra, jumped := false, result := noResult, when_ := fun e => e.active ≠ 0#32,
     after := fun e => tryTrigger (e.ofSquad fun q => { q with trig := true }) e.q.grid },
   { instr := .setperf o, shape := shSetperf, extra := noExtra, jumped := false, result := noResult, when_ := fun e => e.active ≠ 0#32,
     after := fun e => e.ofSquad fun q => { q with perfReq := Nat.min e.x.a.w.toNat 7 } }]

/-! ### Barriers (R132–R139) -/

/-- The executing live lanes. -/
def Env.acting (e : Env) : LaneMask := e.active &&& ~~~e.q.helpers

/-- R135, R136: lanes may arrive at barrier n. -/
def mayArrive (n : Nat) (e : Env) : Prop :=
  e.acting ≠ 0#32 ∧ n < e.bars.length ∧ e.acting &&& (e.q.bar n).larr = 0#32 ∧ (e.q.bar n).pend = false

/-- R135: lanes join LARR; the squad arrives when every live lane is in it. -/
def arrives (n : Nat) (e : Env) (s : State) : State :=
  squadArrives (s.modSquad e.cx.key fun q => q.modBar n fun b => { b with larr := b.larr ||| e.acting }) e.cx.key n

/-- R15, R135, R290: the acting lanes are held, past the instruction, whose words they keep. -/
def heldPast (h : HoldAt) (e : Env) : State :=
  (past e.s e e.cx.lanes).modSquad e.cx.key fun q =>
    (q.onLanes e.acting fun l => { l with hold := h, barWords := e.cx.words.take (e.cx.len / 4) }).leaveBundles e.acting

/-- R133, R135, R149: lanes return from barrier n: an acquire of what its phases released in which the squad arrived; ARMED clears. -/
def returned (n : Nat) (e : Env) : State :=
  (past e.s e e.cx.lanes).modSquad e.cx.key fun q =>
    { q with clock := q.clock.join (q.bar n).due }.modBar n fun b => { b with armed := false, due := Clock.zero }

/-- R161: no operation that arrived at barrier n in a completed phase holds a race report. -/
def noReport (n : Nat) (e : Env) : Prop := ∀ g, e.s.group? e.q.groupKey = some g → reportPast e.q n (g.bar n).phase = none

def barrierRows (o : Ops) : List EffRow :=
  let n := o.c.bits
  [{ instr := .barInit o, shape := shBarInit, extra := noExtra, jumped := false, result := noResult,
     when_ := fun e => e.acting ≠ 0#32 ∧ n < e.bars.length ∧ 1 ≤ e.x.b.w.toNat ∧ e.x.b.w.toNat ≤ 4095 ∧
       (e.bars.getD n barNone).arrived = 0 ∧ (e.bars.getD n barNone).epend = 0 ∧ anyArrived e.s e.q.groupKey n = false,
     after := fun e => e.s.modGroup e.q.groupKey fun g => g.modBar n fun x => { x with count := e.x.b.w.toNat } },
   { instr := .barArv o, shape := shBar false, extra := noExtra, jumped := false, result := noResult, when_ := mayArrive n,
     after := fun e => arrives n e e.s },
   { instr := .barSync o, shape := shBar false, extra := noExtra, jumped := true, result := noResult, when_ := mayArrive n,
     after := fun e => arrives n e (heldPast (.barrier n) e) },
   { instr := .barWait o, shape := shBar false, extra := noExtra, jumped := true, result := noResult,
     when_ := fun e => e.acting ≠ 0#32 ∧ n < e.bars.length ∧ (e.q.bar n).armed = true ∧ ((e.q.bar n).pend = false → noReport n e),
     after := fun e => if (e.q.bar n).pend then heldPast (.barrier n) e else returned n e },
   { instr := .barGlide o, shape := shBar true, extra := noExtra, jumped := true, result := noResult,
     when_ := fun e => mayArrive n e ∧ (e.q.glideEn = false ∨ e.q.live &&& ~~~e.cx.lanes ≠ 0#32),
     after := fun e => arrives n e (heldPast (.barrier n) e) },
   { instr := .spanSync o, shape := shSpanSync, extra := noExtra, jumped := true, result := noResult, when_ := fun e => e.acting ≠ 0#32,
     after := fun e =>
       let span := e.s.spanOf e.q
       let p := release (heldPast .spanBarrier e) e.cx.key 3
       trySpan (p.2.modSpan span fun p' => { p' with joining := p'.joining.join p.1 }) span },
   { instr := .fence o, shape := shFence, extra := noExtra, jumped := false, result := noResult, when_ := fun e => e.acting ≠ 0#32,
     after := fun e => fenceAt e.s e.cx.key n e.acting }]

/-! ### Waits and sync words (R98–R104) -/

/-- R98, R162: an acquire of what the covered operations brought; what they read in main memory awaits a fence of device scope; those that
nothing counts any more are forgotten. -/
def covered (e : Env) (s : State) (p : OutOp → Bool) : State :=
  s.modSquad e.cx.key fun q =>
    { q with clock := (q.ops.filter p).foldl (fun c o => (c.join o.clock).addOp (opWhole o.id)) q.clock,
             fenceSeen := ((q.ops.filter fun o => p o && o.got != Clock.zero).map fun o => (4, o.got)) ++ q.fenceSeen,
             ops := q.ops.filter fun o => !(p o && o.counted) }

/-- R98: none of the covered operations holds a fault or a report. -/
def quiet (e : Env) (p : OutOp → Bool) : Prop := ∀ o ∈ e.q.ops, p o = true → o.race = none ∧ o.fault = none

/-- R102: the sync word at the offset in A. -/
def Env.syncWord (e : Env) : SyncWord := readSync (winMem e.s e.q .scratch) e.x.a.w.toNat

/-- R103, R153: the sync word's 16 bytes lie in the window, aligned, and no race stands at them. -/
def syncOk (e : Env) (writes : Bool) : Prop :=
  checkAddr (winSize e.s e.q .scratch) e.x.a.w.toNat 16 16 = none ∧
    firstRace e.s e.q .scratch (squadAgent e.s e.cx.key e.q .sync) writes (wordsOf e.x.a.w.toNat 16) = none

def waitRows (o : Ops) : List EffRow :=
  let cls := o.c.bits
  let counted : OutOp → Bool := fun x => x.cls == cls && x.counted
  let k := sIndex o.a.name
  let landed : OutOp → Bool := fun x => x.landing == some k && x.done
  [{ instr := .waitc o, shape := shWaitc, extra := noExtra, jumped := false, result := noResult,
     when_ := fun e => e.acting ≠ 0#32 ∧ (e.q.ops.filter fun x => x.cls == cls && !x.counted).length ≤ e.x.b.w.toNat ∧ quiet e counted,
     after := fun e => covered e e.s counted },
   { instr := .waitl o, shape := shWaitl o, extra := noExtra, jumped := false, result := noResult,
     when_ := fun e => e.acting ≠ 0#32 ∧ (e.x.a.w = 0#64 ∨ ∀ x ∈ e.q.ops, x.landing = some k → x.done = true) ∧ quiet e landed,
     after := fun e => covered e e.s landed },
   { instr := .swArm o, shape := shSyncWord, extra := noExtra, jumped := false,
     when_ := fun e => e.acting ≠ 0#32 ∧ syncOk e true,
     result := fun e => .uniform (BitVec.ofNat 64 e.syncWord.gen),
     after := fun e =>
       let w := e.syncWord
       putSync (syncAccess e.s e e.x.a.w.toNat true).2 (e.s.spanOf e.q) e.x.a.w.toNat
         ({ w with flags := w.flags - w.flags % 4, target := e.x.b.w.toNat % 2 ^ 32 }.arrive 0) },
   { instr := .swWait o, shape := shSyncWord, extra := noExtra, jumped := false,
     when_ := fun e => e.acting ≠ 0#32 ∧ syncOk e false ∧ (e.syncWord.gen ≠ e.x.b.w.toNat % 2 ^ 32 ∨ e.syncWord.flags.testBit 1 = true) ∧
       quiet e (swCovers e.x.a.w.toNat e.syncWord.gen (e.x.b.w.toNat % 2 ^ 32)),
     result := fun e => .uniform (BitVec.ofNat 64 (e.syncWord.gen + e.syncWord.flags % 16 * 2 ^ 32)),
     after := fun e =>
       let s := covered e (syncAccess e.s e e.x.a.w.toNat false).2 (swCovers e.x.a.w.toNat e.syncWord.gen (e.x.b.w.toNat % 2 ^ 32))
       if e.syncWord.gen ≠ e.x.b.w.toNat % 2 ^ 32 then
         acquireObj s e.cx.key (wordTable s e.q .scratch) (objSyncWord (s.spanOf e.q) e.x.a.w.toNat)
       else s }]

/-! ### System registers, time, invalidations (R53, R54, R74, R82–R84, R105, R125, R159, R271, R283–R285, R315, R329) -/

/-- A system register: its number, the level that may access it, what it reads, and what a write of a value leaves. -/
structure RegRow where
  num : Nat
  level : Level
  reads : Env → Word64
  writes : Env → Word64 → State

/-- The context of the issuing squad, its partition, and the far context that the partition's CHSEL selects. -/
def Env.ctxNo (e : Env) : Nat := e.s.ctxOf e.q
def Env.ctxHas (e : Env) : Context := (e.s.ctx? e.ctxNo).getD (newContext .user 0#64 0#64)
def Env.part (e : Env) : Partition := e.s.part (slotOf e.ctxNo)
def Env.picked (e : Env) : FarCtx := e.s.chain e.part.chsel

def Env.ofCtx (e : Env) (f : Context → Context) : State := e.s.modCtx e.ctxNo f
/-- R105: a write to a register of the selected far context; ignored where it is another partition's. -/
def Env.ofPicked (e : Env) (f : FarCtx → FarCtx) : State :=
  if e.part.farctx.getLsbD e.part.chsel then e.s.modChain e.part.chsel f else e.s

def readOnly (e : Env) (_ : Word64) : State := e.s
def bit (b : Bool) : Nat := if b then 1 else 0

/-- The registers held per squad, group, span or core. -/
def squadRegs : List RegRow :=
  [⟨0x000, .user, fun e => e.q.tvec, fun e w => e.ofSquad fun q => { q with tvec := w }⟩,
   ⟨0x001, .user, fun e => e.q.fctl, fun e w => e.ofSquad fun q => { q with fctl := w &&& 0x1F3#64 }⟩,
   ⟨0x002, .user, fun e => e.q.fflags, fun e w => e.ofSquad fun q => { q with fflags := w &&& 0x1F#64 }⟩,
   ⟨0x003, .user, fun e => e.q.spBase, readOnly⟩,
   ⟨0x004, .user, fun e => e.q.spSize, readOnly⟩,
   ⟨0x005, .user, fun e => BitVec.ofNat 64 (bit e.q.glideEn + e.q.glides * 2 ^ 16 + e.q.rolls * 2 ^ 32),
     fun e w => e.ofSquad fun q => { q with glideEn := w.getLsbD 0 }⟩,
   ⟨0x006, .user, fun e => BitVec.ofNat 64 (e.q.races * 2 ^ 16 + e.q.misses * 2 ^ 32), readOnly⟩,
   ⟨0x007, .user, fun e => BitVec.ofNat 64 (winSize e.s e.q .shared), readOnly⟩,
   ⟨0x008, .user, fun e => BitVec.ofNat 64 (winSize e.s e.q .scratch), readOnly⟩,
   ⟨0x009, .user, fun e =>
     BitVec.ofNat 64 ((e.s.island (islandOf e.s e.q)).level + e.q.perfReq * 2 ^ 4 + e.part.clip * 2 ^ 8 + bit e.q.frostSeen * 2 ^ 11),
     readOnly⟩]

/-- Those held per context, partition or device. -/
def contextRegs : List RegRow :=
  [⟨0x010, .user, fun e => BitVec.ofNat 64 e.ctxNo, readOnly⟩,
   ⟨0x011, .user, fun e => BitVec.ofNat 64 (slotOf e.ctxNo), readOnly⟩,
   ⟨0x012, .user, fun e => match e.q.levelOf e.cx.lanes with
     | .user => 0#64
     | .supervisor => 1#64
     | .hypervisor => 2#64, readOnly⟩,
   ⟨0x013, .user, fun e => e.ctxHas.energy, readOnly⟩,
   ⟨0x100, .supervisor, fun e => e.ctxHas.stvec, fun e w => e.ofCtx fun c => { c with stvec := w }⟩,
   ⟨0x101, .supervisor, fun e => e.ctxHas.ptroot, fun e w => e.ofCtx fun c => { c with ptroot := w &&& 0x000FFFFFFFFF0000#64 }⟩,
   ⟨0x102, .supervisor, fun e => BitVec.ofNat 64 e.s.qcount, readOnly⟩,
   ⟨0x120, .supervisor, fun e => BitVec.ofNat 64 e.part.chsel, fun e w =>
     if e.part.farctx.getLsbD (w.toNat % 256) then e.s.modPart (slotOf e.ctxNo) fun p => { p with chsel := w.toNat % 256 } else e.s⟩,
   ⟨0x121, .supervisor, fun e => e.picked.head, fun e w => e.ofPicked fun c => { c with head := w, atEnd := false }⟩,
   ⟨0x122, .supervisor, fun e =>
     BitVec.ofNat 64 (e.picked.weight + bit e.picked.run * 2 ^ 4 + bit e.picked.halted * 2 ^ 7 + e.picked.fcode * 2 ^ 8
       + e.picked.pend % 2 ^ 48 * 2 ^ 16),
     fun e w => e.ofPicked fun c =>
       { c with weight := w.toNat % 16, run := w.getLsbD 4, halted := if w.getLsbD 7 then false else c.halted }⟩,
   ⟨0x123, .supervisor, fun e => BitVec.ofNat 64 e.picked.ctx, fun e w => e.ofPicked fun c => { c with ctx := w.toNat % 256 }⟩,
   ⟨0x130, .supervisor, fun e => BitVec.ofNat 64 e.ctxHas.gqsel, fun e w => e.ofCtx fun c => { c with gqsel := w.toNat % 16 }⟩,
   ⟨0x131, .supervisor, fun e =>
     let g := (mapGet e.ctxHas.queues e.ctxHas.gqsel).getD GridQueue.zero
     BitVec.ofNat 64 (g.prio + bit g.en * 2 ^ 8 + Nat.min g.waiting.length 65535 * 2 ^ 16 + g.admitted % 2 ^ 32 * 2 ^ 32),
     fun e w => e.ofCtx fun c =>
       { c with queues := mapUpd c.queues c.gqsel GridQueue.zero fun g => { g with prio := w.toNat % 8, en := w.getLsbD 8 } }⟩,
   ⟨0x200, .hypervisor, fun e => e.ctxHas.toffset, fun e w => e.ofCtx fun c => { c with toffset := w }⟩,
   ⟨0x201, .hypervisor, fun e => BitVec.ofNat 64 (bit e.ctxHas.frozen), fun e w => e.ofCtx fun c => { c with frozen := w.getLsbD 0 }⟩]

def regRows : List RegRow := squadRegs ++ contextRegs

/-- R284: a register's number stands in B[11:0]. -/
def names (r : RegRow) (e : Env) : Prop := e.x.b.w.toNat % 4096 = r.num

def sysrRow (o : Ops) (r : RegRow) : EffRow :=
  { instr := .sysr o, shape := shSysr, extra := sysExtra, jumped := false, when_ := names r,
    result := fun e => onceResult e (r.reads e),
    after := fun e => if e.active ≠ 0#32 ∧ r.num = 0x009 then e.ofSquad fun q => { q with frostSeen := false } else e.s }

/-- `sysw`, and its spelling for a written CHCTL, in `i`. -/
def syswRow (i : Instr) (r : RegRow) : EffRow :=
  { instr := i, shape := shSysw, extra := sysExtra, jumped := false, when_ := names r, result := noResult,
    after := fun e => if e.active = 0#32 then e.s else r.writes e e.x.a.w }

def tlbFrame (e : Env) : Nat := e.x.c.w.toNat / 2 ^ 16 % 2 ^ 36 * 2 ^ 16
/-- R72, R82: the bytes of the frame, by its SIZE code: 64 KiB, 2 MiB, 128 MiB, 8 GiB. -/
def tlbBytes (e : Env) : Nat := 2 ^ [16, 21, 27, 33].getD (e.x.c.w.toNat % 4) 0

/-- R69, R317: a slot owns every unit of 2 KiB of a range. -/
def ownsAll (s : State) (slot a n : Nat) : Prop := ∀ i, 2048 * i < a % 2048 + n → s.owns slot (a + 2048 * i) = true

/-- R329: the guest time that a context reads: the device's time with its offset, but later than the last it read. -/
def timeOf (s : State) (c : Context) : Nat := (greatest ((s.ns : Int) + c.toffset.toInt) ((c.lastTime : Int) + 1)).toNat

/-- R84: the bytes an `icinv` covers, in whole cache lines of a length that the device fixes (log 65). -/
def icStart (e : Env) : Nat := let line := 2 ^ Config.codeLineBits; e.x.a.w.toNat / line * line
def icEnd (e : Env) : Nat :=
  let line := 2 ^ Config.codeLineBits
  (e.x.a.w.toNat + e.x.b.w.toNat + line - 1) / line * line

def systemRows (o : Ops) : List EffRow :=
  [{ instr := .time o, shape := { shSys with d := .reg 1 }, extra := noExtra, jumped := false,
     when_ := fun e => e.active ≠ 0#32 ∧ ∃ c, e.s.ctx? e.ctxNo = some c,
     result := fun e => .uniform (BitVec.ofNat 64 (timeOf e.s e.ctxHas)),
     after := fun e => e.ofCtx fun c => { c with lastTime := timeOf e.s c } },
   { instr := .icinv o, shape := { shSys with a := src1, b := src1, rule := fun _ a b _ => a == .uniform && b == .uniform },
     extra := noExtra, jumped := false, result := noResult,
     when_ := fun e => e.active ≠ 0#32 ∧ e.x.a.w.toNat + e.x.b.w.toNat ≤ 2 ^ 48,
     after := fun e =>
       let lo := if e.x.b.w = 0#64 then 0 else icStart e
       let hi := if e.x.b.w = 0#64 then 2 ^ 48 else icEnd e
       let n := e.s.codeRelease + 1
       let s : State :=
         { e.s with
           codeRelease := n, icinvs := { ctx := e.ctxNo, lo := lo, hi := hi, release := n } :: e.s.icinvs,
           firn := e.s.firn.map fun f =>
             if f.ctx = e.ctxNo ∧ f.start < hi ∧ lo < f.start + 4 * f.words.length then { f with stale := true } else f }
       s.modSquad e.cx.key fun q => { q with clock := { q.clock with codes := n :: q.clock.codes } } },
   { instr := .tlbinv o, shape := shTlbinv o, extra := tlbExtra, jumped := false,
     when_ := fun e =>
       e.active ≠ 0#32 ∧ (e.x.b.w.getLsbD 16 = true ∨ e.x.a.w.toNat < 2 ^ 48) ∧
         (e.x.b.w.getLsbD 17 = true → tlbFrame e % tlbBytes e = 0 ∧ ownsAll e.s (slotOf e.ctxNo) (tlbFrame e) (tlbBytes e) ∧
           e.s.moraine.length < Config.moraineFrames),
     result := fun e => .uniform (BitVec.ofNat 64 (e.s.qcount + 1)),
     after := fun e =>
       let ctx := e.x.b.w.toNat % 2 ^ 16
       { e.s with
         tlb := if slotOf ctx = slotOf e.ctxNo then
             e.s.tlb.filter fun t => !(t.ctx == ctx && (e.x.b.w.getLsbD 16 || t.va == e.x.a.w.toNat / 2 ^ t.size))
           else e.s.tlb,
         moraine := if e.x.b.w.getLsbD 17 then
             e.s.moraine ++ [{ frame := tlbFrame e, size := e.x.c.w.toNat % 4, slot := slotOf e.ctxNo, stamp := e.s.qcount + 1 }]
           else e.s.moraine } }]

/-- R82, R84, R285: where `sysr`, `sysw`, `icinv` and `tlbinv` trap. -/
def trapsOut (i : Instr) (sh : Shape) (extra : Extra) (when_ : Env → Prop) (f : Env → LaneFault) (o : Ops) (s : State) : Prop :=
  ∀ e, Issues sh false extra o s e → when_ e → exec i s = trapAll e.s e.cx e.q sh.cost (f e)

end Sys2Proof.Machine

/-- R206, R213, R214: branches, calls and returns. -/
def Obligations.transfers : Prop := ∀ (o : Ops) (s : State) (e : Env), ∀ r ∈ transferRows o, takesEffect r o s e

/-- R216, R220–R222, R224, R313: `trap`, `svc` and `brk` raise their event; meetings, yields, idempotent regions, triggers, performance
requests. -/
def Obligations.events_and_lane_state : Prop :=
  ∀ (o : Ops) (s : State) (e : Env), ∀ r ∈ eventRows o ++ laneStateRows o, takesEffect r o s e

/-- R129, R134, R135, R137, R139: barrier instructions and fences. -/
def Obligations.barrier_instructions : Prop := ∀ (o : Ops) (s : State) (e : Env), ∀ r ∈ barrierRows o, takesEffect r o s e

/-- R99, R100, R103, R104: waits that return, and the arming of a sync word. -/
def Obligations.wait_instructions : Prop := ∀ (o : Ops) (s : State) (e : Env), ∀ r ∈ waitRows o, takesEffect r o s e

/-- R82, R84, R283–R285, R329: every system register, what it reads, what a write leaves and who may access it; a number that names none; time,
invalidations and where these trap. Fields of TFREEZE, the time's order and the line length are the model's (logs 65, 66). -/
def Obligations.system_instructions : Prop :=
  (∀ (o : Ops) (s : State) (e : Env), ∀ r ∈ systemRows o, takesEffect r o s e) ∧
  (∀ (o : Ops) (s : State) (e : Env), ∀ r ∈ regRows,
    takesEffect (sysrRow o r) o s e ∧ takesEffect (syswRow (.sysw o) r) o s e ∧ takesEffect (syswRow (.chctlWrite o) r) o s e) ∧
  (∀ r ∈ regRows, sysLevel r.num = some r.level) ∧ (∀ n, (∀ r ∈ regRows, r.num ≠ n) → sysLevel n = none) ∧
  (∀ e : Env, sysExtra e = match sysLevel (e.x.b.w.toNat % 4096) with
    | none => some (fault 0x01#16 0x0005#16 0#64)
    | some l => if levelLt (e.q.levelOf e.cx.lanes) l then some (fault 0x03#16 0x0000#16 0#64) else none) ∧
  ∀ (o : Ops) (s : State),
    trapsOut (.icinv o) { shSys with a := src1, b := src1, rule := fun _ a b _ => a == .uniform && b == .uniform } noExtra
      (fun e => e.q.glide = none ∧ e.active ≠ 0#32 ∧ 2 ^ 48 < e.x.a.w.toNat + e.x.b.w.toNat)
      (fun e => fault 0x07#16 0x0005#16 e.x.a.w) o s ∧
    trapsOut (.tlbinv o) (shTlbinv o) tlbExtra
      (fun e => e.q.glide = none ∧ e.active ≠ 0#32 ∧
        (e.x.b.w.getLsbD 16 = false ∧ 2 ^ 48 ≤ e.x.a.w.toNat ∨
          e.x.b.w.getLsbD 17 = true ∧ (tlbFrame e % tlbBytes e ≠ 0 ∨ ¬ownsAll e.s (slotOf e.ctxNo) (tlbFrame e) (tlbBytes e))))
      (fun _ => fault 0x07#16 0x0005#16 0#64) o s

namespace Sys2Proof.Machine

/-! ### Posts to engines (R32, R92, R231, R241, R250) -/

/-- A number as a uniform result. -/
def number (n : Nat) : Result := .uniform (BitVec.ofNat 64 n)

/-- The lane under which a squad's own engine accesses are made: its lowest live lane. -/
def Env.byLane (e : Env) : Nat := lowLane (e.cx.lanes &&& e.q.live)

/-- A load of bytes of the shared window: the bytes, none where it faults, and the state after it. -/
def Env.fetched (e : Env) (off n al : Nat) : Option (List Byte) × State :=
  match loadWin e.s e.cx.key e.byLane .shared off n al .plain with
  | (.ok bs, s) => (some bs, s)
  | (.error _, s) => (none, s)

/-- R97: the operations of a class that still count are fewer than 255. -/
def roomFor (e : Env) (cls : Nat) : Prop := (e.q.ops.filter fun x => x.cls == cls && !x.counted).length < 255

/-- R97: a post numbered `id` of a class joins the squad's operations. -/
def joined (s : State) (e : Env) (o : OutOp) : State := s.modSquad e.cx.key fun q => { q with ops := q.ops ++ [o] }

/-- The state whose next fresh number is taken, and a release at a scope there: the clock published and the state (R155). -/
def released (e : Env) (s : State) (scope : Nat) : Clock × State := release { s with nextId := s.nextId + 1 } e.cx.key scope

/-- R91: what the operands of a near copy name: two TIDs and a bit in A; offsets, or the place of an index list, in B. -/
def namedCopy (e : Env) (kind : CopyKind) : Copy :=
  let a := e.x.a.w.toNat
  let b := e.x.b.w.toNat
  let record (tid : Nat) : TensorRec := e.s.tensor (e.s.ctxOf e.q) tid
  { id := 0, squad := e.cx.key, kind := kind, srcTid := a % 256, dstTid := a / 256 % 256,
    src := record (a % 256), dst := record (a / 256 % 256),
    c0 := if kind = .plain then b % 2 ^ 16 else 0, r0 := if kind = .plain then b / 2 ^ 16 % 2 ^ 16 else 0,
    indexOff := if kind = .plain then 0 else b % 2 ^ 21, index := [], sync := a.testBit 16, landing := none, reserved := false,
    started := false, landed := [], taken := [], issued := [], broken := [], clock := Clock.zero, epoch := e.q.epoch e.cx.key,
    arrivedAt := [] }

/-- R91: the entries of its index list: as many as rows move. -/
def listLength (c : Copy) : Nat :=
  match c.kind with
  | .plain => 0
  | .gather => c.dst.dim1.toNat
  | .scatter => c.src.dim1.toNat

/-- R91: the list, 32-bit row numbers, as the post reads it; not read where it faults the copy later (R94), which the model lets the post find
(log 19). -/
def listRead (e : Env) (c : Copy) : Option (List Nat) × State :=
  let n := listLength c
  if n = 0 ∨ c.indexOff % 4 ≠ 0 ∨ winSize e.s e.q .shared < c.indexOff + 4 * n then (some [], e.s)
  else match e.fetched c.indexOff (4 * n) 4 with
    | (some bs, s) => (some ((List.range n).map fun i => leNat ((bs.drop (4 * i)).take 4)), s)
    | (none, s) => (none, s)

/-- R92: E × (⌈n × w / 8⌉ + m); none where the two records do not agree on w and m. -/
def byteTotal (c : Copy) : Option Nat :=
  let r := if c.kind = .scatter then c.src else c.dst
  let n := r.dim0.toNat
  let w := formatBits c.dst.format.toNat
  let mx := isMx c.dst.format.toNat
  if formatBits c.src.format.toNat ≠ w ∨ isMx c.src.format.toNat ≠ mx ∨ w = 0 ∨
      (mx = true ∧ (c.src.blockSize ≠ c.dst.blockSize ∨ c.src.blockSize = 0)) then none
  else some (r.dim1.toNat * ((n * w + 7) / 8 + if mx then (n + c.dst.blockSize - 1) / c.dst.blockSize else 0))

def copyRow (i : Instr) (kind : CopyKind) : EffRow :=
  let c (e : Env) : Copy := namedCopy e kind
  let index (e : Env) : Option (List Nat) × State := listRead e (c e)
  let raises (e : Env) : Bool := (c e).sync && (c e).dst.sync != 0xFFFFFFFF#32
  let landing (e : Env) : Option Nat := match e.cx.o.d with
    | .s k => some k.val
    | _ => none
  { instr := i, shape := shCopy, extra := noExtra, jumped := false,
    when_ := fun e => e.active ≠ 0#32 ∧ roomFor e 0 ∧ (copySlot (e.s.core (e.s.coreOf e.q)) e.cx.key).isSome = true ∧
      (index e).1.isSome = true,
    result := fun e => match byteTotal (c e) with
      | some n => number n
      | none => .uniform (e.s.freeWord 92 0),
    after := fun e =>
      let s := (index e).2
      let p := released e s (if raises e then 3 else 1)
      let entry : Copy :=
        { c e with id := s.nextId, index := (index e).1.getD [], landing := landing e, clock := p.1,
                   reserved := (copySlot (e.s.core (e.s.coreOf e.q)) e.cx.key).getD false, arrivedAt := arrivals p.2 e.q }
      joined (p.2.modCore (p.2.coreOf e.q) fun k => { k with copies := k.copies ++ [entry] }) e
        { OutOp.new s.nextId 0 with landing := landing e, sync := if raises e then some (c e).dst.sync.toNat else none } }

def copyRows (o : Ops) : List EffRow :=
  [copyRow (.cp o) .plain, copyRow (.cpGat o) .gather, copyRow (.cpSct o) .scatter,
   { instr := .tidSet o, shape := shTidSet, extra := noExtra, jumped := false,
     when_ := fun e => e.active ≠ 0#32 ∧ (e.fetched e.x.a.w.toNat 32 32).1.isSome = true,
     result := fun e => .uniform (BitVec.ofNat 64 (TensorRec.ofBytes ((e.fetched e.x.a.w.toNat 32 32).1.getD [])).code),
     after := fun e =>
       let p := e.fetched e.x.a.w.toNat 32 32
       p.2.modCtx (p.2.ctxOf e.q) fun c => { c with tensors := mapSet c.tensors (e.x.b.w.toNat % 256) (TensorRec.ofBytes (p.1.getD [])) } },
   { instr := .tidGet o, shape := shTidGet, extra := noExtra, jumped := false, when_ := fun e => e.active ≠ 0#32, after := fun e => e.s,
     result := fun e =>
       .uniform (BitVec.ofNat 64 (leNat (((e.s.tensor (e.s.ctxOf e.q) (e.x.a.w.toNat % 256)).bytes.drop (8 * (e.x.b.w.toNat % 4))).take 8))) }]

/-- R234, R237–R239: what the operands of a matrix post name. -/
def namedMx (e : Env) (kind : MxKind) : MxOp :=
  let a := e.x.a.w.toNat
  let b := e.x.b.w.toNat
  let record (tid : Nat) : TensorRec := e.s.tensor (e.s.ctxOf e.q) tid
  { id := 0, squad := e.cx.key, kind := kind, tile := a / 2 ^ 16 % 16, barrier := a / 2 ^ 20 % 16, acc := a.testBit 24,
    a := record (a % 256), b := record (a / 256 % 256), off := b % 2 ^ 16, row := b / 2 ^ 16 % 2 ^ 16, reserved := false, started := false,
    startedAt := 0, clock := Clock.zero, epoch := e.q.epoch e.cx.key }

/-- R229: K of a pair of element formats; 0 for a pair that is not permitted. -/
def depthOf (a b : Byte) : Nat :=
  let eight : List Byte := [0x10#8, 0x11#8, 0x12#8, 0x13#8]
  if a ∈ eight ∧ b ∈ eight ∨ a = 0x15#8 ∧ b = 0x15#8 then 64
  else if a = 0x14#8 ∧ b = 0x14#8 then 128
  else if a = 5#8 ∧ b = 5#8 ∨ a = 6#8 ∧ b = 6#8 then 32
  else 0

/-- R233: a record that a post names, in the order A map, B map, source or destination: its TID, what it reads or writes of it, the spaces
and whether its format will do. -/
structure MxUse where
  tid : Nat
  cut : Cut
  spaces : List Byte
  formatOk : Bool

def mxUses (e : Env) (o : MxOp) : List MxUse :=
  let a := e.x.a.w.toNat
  let k := depthOf o.a.format o.b.format
  let mapA (rows : Nat) : MxUse := ⟨a % 256, ⟨o.a, o.row, rows, o.off, k⟩, [1#8], k != 0⟩
  let mapB : MxUse := ⟨a / 256 % 256, ⟨o.b, 0, 64, o.off, k⟩, [1#8], k != 0⟩
  match o.kind with
  | .mma => [mapA 64, mapB]
  | .pair => [mapA 128, mapB]
  | .ldacc => [⟨a % 256, ⟨o.a, o.row, 64, o.off, 64⟩, [1#8], o.a.format == 4#8⟩]
  | .drain =>
    [⟨a % 256, ⟨o.a, o.row, 64, o.off, 64⟩, [1#8, 2#8],
      [4#8, 5#8, 6#8, 0x10#8, 0x11#8, 0x12#8, 0x13#8, 0x14#8, 0x15#8].contains o.a.format⟩]
  | .zero => []

/-- R233: a check that a post fails, with the cause, the sub-cause and the address of its fault. -/
structure MxCheck where
  fails : Bool
  cause : BitVec 16
  sub : BitVec 16
  addr : Nat

/-- The least of some offsets that lies outside a window. -/
def leastOut (size : Nat) (offs : List Nat) : Option Nat := (offs.filter fun x => size ≤ x).min?

/-- R136, R233, R236: the checks of a post, lowest cause first, within Access lowest sub-cause first, records in order. -/
def mxChecks (e : Env) (o : MxOp) : List MxCheck :=
  let core := e.s.coreOf e.q
  let uses := mxUses e o
  let access (fails : Bool) (sub : BitVec 16) (addr : Nat) : MxCheck := ⟨fails, 0x07#16, sub, addr⟩
  let twin : Bool := core % 2 == 0 && ((e.s.group? e.q.groupKey).map (·.pair)).getD false
  let size (u : MxUse) : Nat := winSize e.s e.q (if u.cut.rec_.space = 2#8 then .scratch else .shared)
  let held (u : MxUse) : Bool := u.cut.rec_.space == 1#8 || u.cut.rec_.space == 2#8
  let out (u : MxUse) (offs : List Nat) : MxCheck := access (held u && (leastOut (size u) offs).isSome) 0x0106#16 ((leastOut (size u) offs).getD 0)
  let bar := e.bars[o.barrier]?
  let other (c : Nat) : Bool := let t := tileAhead e.s c o.tile; t.set && (t.tsa != o.a.tscale || t.tsb != o.b.tscale)
  [access ((e.s.core core).tileOwner != some e.q.groupKey || o.kind == .pair && !twin) 0x0101#16 0]
    ++ (uses.map fun u => access (u.cut.rec_.code != 0) 0x0102#16 (u.tid + 256 * u.cut.rec_.code))
    ++ (uses.map fun u => access (!u.spaces.contains u.cut.rec_.space) 0x0103#16 u.tid)
    ++ (uses.map fun u => access (!u.formatOk) 0x0104#16 u.tid)
    ++ (uses.flatMap fun u =>
      [access (u.cut.rec_.dim1.toNat < u.cut.row + u.cut.rows) 0x0105#16 (u.cut.row + u.cut.rows),
       access (u.cut.rec_.dim0.toNat < u.cut.col + u.cut.cols) 0x0105#16 (u.cut.col + u.cut.cols),
       access (isMx u.cut.rec_.format.toNat && u.cut.col % u.cut.rec_.blockSize != 0) 0x0105#16 u.cut.col])
    ++ (uses.flatMap fun u => [out u u.cut.elemBytes, out u u.cut.scaleBytes])
    ++ [⟨o.barrier != 15 && bar.isNone, 0x0C#16, 0x0001#16, o.barrier⟩,
        ⟨o.barrier != 15 && (bar.map fun b => decide (255 ≤ b.epend)).getD false, 0x0C#16, 0x0006#16, o.barrier⟩,
        ⟨(o.kind == .mma || o.kind == .pair) && o.acc && (other core || o.kind == .pair && other (core + 1)), 0x0D#16, 0x0001#16,
          o.a.tscale.toNat + 2 ^ 32 * o.b.tscale.toNat⟩]

/-- R233: the first check that fails. -/
def mxFails (e : Env) (o : MxOp) : Option MxCheck := (mxChecks e o).find? (·.fails)

/-- The matrix posts and what each does. -/
def mxPosts (o : Ops) : List (Instr × MxKind × Bool) :=
  [(.mxMma o, .mma, true), (.mxPair o, .pair, true), (.mxZero o, .zero, false), (.mxLdacc o, .ldacc, true), (.mxDrain o, .drain, true)]

/-- R231: a post has a slot: fewer than 255 of the class still count, and the FIFO has an entry for the squad. -/
def mxRoom (e : Env) : Prop := e.active ≠ 0#32 ∧ roomFor e 1 ∧ (fifoSlot e.s (e.s.coreOf e.q) e.cx.key).isSome = true

def mxRow (i : Instr) (kind : MxKind) (reads : Bool) : EffRow :=
  let o (e : Env) : MxOp := namedMx e kind
  { instr := i, shape := shMx reads, extra := noExtra, jumped := false, result := noResult,
    when_ := fun e => mxRoom e ∧ mxFails e (o e) = none,
    after := fun e =>
      let p := released e e.s 1
      let entry : MxOp :=
        { o e with id := e.s.nextId, clock := p.1, reserved := (fifoSlot e.s (e.s.coreOf e.q) e.cx.key).getD false }
      let s := if entry.barrier = 15 then p.2
        else p.2.modGroup e.q.groupKey fun g => g.modBar entry.barrier fun x => { x with epend := x.epend + 1 }
      joined (s.modCore (e.s.coreOf e.q) fun k => { k with fifo := k.fifo ++ [entry] }) e (OutOp.new e.s.nextId 1) }

def matrixRows (o : Ops) : List EffRow :=
  (mxPosts o).map (fun x => mxRow x.1 x.2.1 x.2.2) ++
  [{ instr := .mxBurst o, shape := shMx false, extra := noExtra, jumped := false, result := noResult,
     when_ := fun e => e.active ≠ 0#32 ∧ (e.s.core (e.s.coreOf e.q)).tileOwner = some e.q.groupKey,
     after := fun e =>
       let core := e.s.coreOf e.q
       let n := e.x.a.w.toNat % 64
       let ramped (s : State) (a : ArrayState) : State := (s.want (clusterOf core) resMatrix core).2.modCore core fun c => { c with array := a }
       let s := match (e.s.core core).array with
         | .idle => ramped e.s (.rampUp e.s.cycle)
         | .rampDown _ => ramped e.s .busy
         | .rampUp _ | .busy => e.s
       if n = 0 then unhold e.s core else s.modCore core fun c => { c with burst := some { left := n, since := s.cycle } } },
   { instr := .rsRow o, shape := shRsRow o, extra := noExtra, jumped := false, result := noResult,
     when_ := fun e => e.active ≠ 0#32 ∧ roomFor e 2 ∧ (∀ k, k < 3 → e.q.awaits (nameAfter k o.d) = false) ∧
       (e.s.core (e.s.coreOf e.q)).tileOwner = some e.q.groupKey,
     after := fun e =>
       let p := released e e.s 1
       let a := e.x.a.w.toNat
       let entry : RsOp := { id := e.s.nextId, squad := e.cx.key, d := vNumber o.d, tile := a / 2 ^ 16 % 16, half := a.testBit 20,
                             lanes := e.q.live ||| e.q.helpers, startedAt := none }
       joined (startRows (p.2.modCore (p.2.coreOf e.q) fun k => { k with rs := k.rs ++ [entry] }) (p.2.coreOf e.q)) e
         { OutOp.new e.s.nextId 2 with replies := [o.d, nameAfter 1 o.d, nameAfter 2 o.d] } }]

/-! ### Clause array commands (R248–R261) -/

/-- The array of the issuing squad's cluster. -/
def Env.array (e : Env) : Clause := (e.s.cluster (clusterOf (e.s.coreOf e.q))).clause

/-- A command: what the array must meet, the array it leaves, its reply and its cycles, from the state `after` its reads. -/
structure CommandRow where
  instr : Instr
  shape : Shape
  fn : Nat
  when_ : Env → Clause → Prop
  array : Env → Clause → Clause
  reply : Env → Clause → Nat
  cycles : Env → Clause → Nat

/-- R258: after a backtrack to level n the rows and the trail hold what was assigned at levels up to n. -/
def backed (c : Clause) (n : Nat) : Clause :=
  { c with rows := List.filter (fun x => x.2.level ≤ n) c.rows, level := n, conf := false, ccol := 0,
           trail := c.trail.filter fun v => match mapGet c.rows v with
             | some r => r.level ≤ n
             | none => false }

def clauseRows (o : Ops) : List CommandRow :=
  let low (e : Env) (n : Nat) : Nat := e.x.a.w.toNat % 2 ^ n
  let lowB (e : Env) (n : Nat) : Nat := e.x.b.w.toNat % 2 ^ n
  [⟨.claClr o, shCla 2 false, 0, fun e _ => 1 ≤ low e 11 ∧ low e 11 ≤ 1024 ∧ 1 ≤ lowB e 13 ∧ lowB e 13 ≤ 4096,
     fun e _ => Clause.cleared (low e 11) (lowB e 13), fun _ _ => 0, fun _ _ => 256⟩,
   ⟨.claDec o, shCla 1 true, 3,
     fun e c => low e 32 / 1024 % 2 ^ 21 = 0 ∧ low e 10 < c.vars ∧ mapGet c.rows (low e 10) = none ∧ c.level ≠ 1023 ∧ c.conf = false,
     fun e c => { c with level := c.level + 1, trail := c.trail ++ [low e 10],
                         rows := mapSet c.rows (low e 10)
                           { val := !e.x.a.w.getLsbD 31, level := c.level + 1, reason := 0xFFF, pos := c.trail.length } },
     fun _ c => c.level + 1, fun _ _ => 4⟩,
   ⟨.claProp o, shCla 0 true, 4, fun _ _ => True,
     fun _ c => ({ c with conf := false, ccol := 0 }.propagate 0 0 (c.vars + 2)).1,
     fun _ c =>
       let r := { c with conf := false, ccol := 0 }.propagate 0 0 (c.vars + 2)
       (if r.1.conf then 2 ^ 31 + r.1.ccol else 0) + r.2.1 * 2 ^ 16,
     fun _ c => 4 + 4 * ({ c with conf := false, ccol := 0 }.propagate 0 0 (c.vars + 2)).2.2⟩,
   ⟨.claBack o, shCla 1 true, 5, fun e c => low e 10 ≤ c.level, fun e c => backed c (low e 10),
     fun e c => (backed c (low e 10)).trail.length, fun _ _ => 4⟩,
   ⟨.claTrl o, shCla 1 true, 6, fun e c => low e 11 < c.trail.length, fun _ c => c,
     fun e c => c.record (c.trail.getD (low e 11) 0), fun _ _ => 2⟩,
   ⟨.claCfl o, shCla 2 true, 7, fun e c => low e 12 < c.cols, fun _ c => c,
     fun e c => match ((mapGet c.columns (low e 12)).getD [])[lowB e 12]? with
       | some l => l.var + if l.neg then 2 ^ 31 else 0
       | none => 0xFFFFFFFF,
     fun _ _ => 2⟩,
   ⟨.claVal o, shCla 1 true, 8, fun e c => low e 10 < c.vars, fun _ c => c, fun e c => c.record (low e 10), fun _ _ => 2⟩,
   ⟨.claLvl o, shCla 0 true, 9, fun _ _ => True, fun _ c => c, fun _ c => c.level + 2 ^ 16 * c.trail.length, fun _ _ => 2⟩,
   ⟨.claStat o, shCla 0 true, 10, fun _ _ => True, fun _ c => c,
     fun _ c => c.cols + 2 ^ 16 * c.vars + (if c.conf then 2 ^ 32 * c.ccol + 2 ^ 44 else 0), fun _ _ => 2⟩]

/-- R250: the array is free and the group's. -/
def arrayFree (e : Env) : Prop :=
  let k := e.s.cluster (clusterOf (e.s.coreOf e.q))
  e.active ≠ 0#32 ∧ roomFor e 3 ∧ k.clauseRun = none ∧ k.clauseOwner = some e.q.groupKey

/-- R250, R251: the command is taken: the array as it leaves it, the run whose end writes the reply. -/
def commanded (e : Env) (s : State) (fn : Nat) (c : Clause) (reply cycles : Nat) : State :=
  let cl := clusterOf (e.s.coreOf e.q)
  let p := released e s 1
  let run : ClaRun := { squad := e.cx.key, id := s.nextId, fn := fn, d := e.cx.o.d, reply := BitVec.ofNat 64 reply, cycles := cycles }
  joined ((p.2.ask cl resClause s.nextId).modCluster cl fun k => { k with clause := c, clauseRun := some run }) e
    { OutOp.new s.nextId 3 with replies := if e.cx.o.d = .none then [] else [e.cx.o.d] }

def commandEffRow (r : CommandRow) : EffRow :=
  { instr := r.instr, shape := r.shape, extra := noExtra, jumped := false, result := noResult,
    when_ := fun e => arrayFree e ∧ r.when_ e e.array,
    after := fun e => commanded e e.s r.fn (r.array e e.array) (r.reply e e.array) (r.cycles e e.array) }

/-- R252, R253, R255: the list's words at B's offset; none where it runs out of the window. -/
def listWords (e : Env) : Option (List Nat) :=
  (listEntries (winMem e.s e.q .shared) (winSize e.s e.q .shared) (e.x.b.w.toNat % 2 ^ 21) 1025).toOption

/-- R255: `cla.ldc`. -/
def loadColumnRow (o : Ops) : EffRow :=
  let off (e : Env) : Nat := e.x.b.w.toNat % 2 ^ 21
  let col (e : Env) : Nat := e.x.a.w.toNat % 2 ^ 12
  let ws (e : Env) : List Nat := (listWords e).getD []
  let lits (e : Env) : List Nat := (ws e).filter (· != 0xFFFFFFFF)
  let column (e : Env) : List Lit := (lits e).foldl (fun acc w => insertLit (litOf w) acc) []
  { instr := .claLdc o, shape := shCla 2 true, extra := noExtra, jumped := false, result := noResult,
    when_ := fun e => arrayFree e ∧ off e % 4 = 0 ∧ (listWords e).isSome = true ∧ (e.fetched (off e) (4 * (ws e).length) 4).1.isSome = true ∧
      listMisuse e.array (col e) (off e) (lits e) ((ws e).contains 0xFFFFFFFF) = none,
    after := fun e => commanded e (e.fetched (off e) (4 * (ws e).length) 4).2 2
      { e.array with columns := if column e = [] then mapErase e.array.columns (col e) else mapSet e.array.columns (col e) (column e) }
      (column e).length (4 + ((lits e).length + 7) / 8) }

/-! ### Chains (R105, R109) -/

def chainRows (o : Ops) : List EffRow :=
  let h (e : Env) : Nat := e.x.a.w.toNat % 256
  let own (e : Env) : Prop := e.active ≠ 0#32 ∧ (e.s.part (slotOf (e.s.ctxOf e.q))).farctx.getLsbD (h e) = true
  let n (e : Env) : Nat := e.x.b.w.toNat % 2 ^ 32
  let pend (e : Env) : Nat := ((e.s.chain (h e)).pend + n e) % 2 ^ 48
  [{ instr := .chnAdv o, shape := shChnAdv, extra := noExtra, jumped := false, when_ := fun e => own e ∧ roomFor e 4,
     result := fun e => .uniform (BitVec.ofNat 64 (pend e)),
     after := fun e =>
       let p := released e e.s 4
       let s := (joined p.2 e (OutOp.new e.s.nextId 4)).modSquad e.cx.key fun q => { q with region := q.region.map fun r => { r with taint := true } }
       let a : Advance := { squad := e.cx.key, op := e.s.nextId, left := n e, clock := p.1, epoch := e.q.epoch e.cx.key }
       if n e = 0 then completeOp s e.cx.key e.s.nextId fun x => x
       else s.modChain (h e) fun c => { c with pend := pend e, advances := c.advances ++ [a] } },
   { instr := .chnSeq o, shape := shChnSeq, extra := noExtra, jumped := false, when_ := own,
     result := fun e => .uniform (e.s.chain (h e)).latest, after := fun e => e.s },
   { instr := .chnWait o, shape := shChnWait, extra := noExtra, jumped := false,
     when_ := fun e => own e ∧ e.x.b.w.toNat % 2 ^ 63 ≤ (e.s.chain (h e)).latest.toNat % 2 ^ 63,
     result := fun e => .uniform (e.s.chain (h e)).latest,
     after := fun e => e.ofSquad fun q => { q with clock := q.clock.join (e.s.chain (h e)).clock } }]

/-! ### Keys and partitions (R317–R330) -/

/-- R319: no other squad's partition or key instruction is running, or was issued before. -/
def alone (e : Env) : Prop :=
  e.active ≠ 0#32 ∧
    ((e.s.partQueue.filter fun k => (e.s.squad? k).any fun q => !q.ended).head? = none ∨
      (e.s.partQueue.filter fun k => (e.s.squad? k).any fun q => !q.ended).head? = some e.cx.key) ∧
    ∀ p ∈ e.s.parts, ∀ w, p.2.whiteout = some w → w.squad = e.cx.key ∨ w.ended.isSome = true

/-- R319: the squad has left the line of those instructions, and so have squads that ended. -/
def Env.outOfLine (e : Env) : Env :=
  { e with s := { e.s with partQueue := e.s.partQueue.filter fun k => (e.s.squad? k).any (fun q => !q.ended) && k != e.cx.key } }

/-- A store of bytes of the shared window by the squad. -/
def Env.stored (e : Env) (s : State) (off : Nat) (bs : List Byte) : Option LaneFault × State :=
  storeWin s e.cx.key e.byLane .shared off 1 bs .plain

def partRow (i : Instr) (sh : Shape) (when_ : Env → Prop) (after : Env → State) (reply : Env → Nat) : EffRow :=
  { instr := i, shape := sh, extra := noExtra, jumped := false, when_ := fun e => alone e ∧ when_ e.outOfLine,
    after := fun e => after e.outOfLine, result := fun e => number (reply e) }

/-- R324: the two forms of `key.bind`, by bit 7 of B. -/
def bindWhen (e : Env) : Prop :=
  e.x.b.w.getLsbD 7 = true ∨
    ((e.s.key (e.x.a.w.toNat % 64)).keyId ≠ 0 ∧ (e.s.part (e.x.b.w.toNat % 16)).keys.getLsbD (e.x.a.w.toNat % 64) = true)
def bindAfter (e : Env) : State :=
  if e.x.b.w.getLsbD 7 then e.s.modKey (e.x.a.w.toNat % 64) fun k => { k with bound := none, stamp := e.s.qcount + 1 }
  else e.s.modKey (e.x.a.w.toNat % 64) fun k => { k with bound := some (e.x.b.w.toNat % 16) }

/-- R323, R324: a key slot loaded: with the key of the same algorithm and material that stood in some slot before, or else with a new one. -/
def keyed (s : State) (k alg : Nat) (m : List Byte) : State :=
  let put (s : State) (id : Nat) : State := s.modKey k fun x => { x with alg := alg, material := m, keyId := id }
  match s.keyring.find? fun x => x.2 == (alg, m) with
  | some x => put s x.1
  | none => put { s with keyring := (s.nextId, alg, m) :: s.keyring, nextId := s.nextId + 1 } s.nextId

def keyRows (o : Ops) : List EffRow :=
  let k (e : Env) : Nat := e.x.b.w.toNat % 64
  let off (e : Env) : Nat := e.x.a.w.toNat
  let blob (e : Env) : List Byte := (e.fetched (off e) 96 1).1.getD []
  let wiped (e : Env) : Option LaneFault × State := e.stored (e.fetched (off e) 96 1).2 (off e) (List.replicate 96 0#8)
  let material (e : Env) : List Byte := ((blob e).drop 32).take 64
  [partRow (.keyLoad o) shPart2
     (fun e => ((e.s.key (k e)).stamp = 0 ∨ (e.s.key (k e)).stamp < e.s.qcount) ∧ off e + 96 ≤ winSize e.s e.q .shared ∧
       (e.fetched (off e) 96 1).1.isSome = true ∧ blobDefect (blob e) = none ∧ (e.s.key (k e)).bound = none ∧ (wiped e).1 = none)
     (fun e => keyed (wiped e).2 (k e) ((blob e).getD 0 0#8).toNat (material e))
     fun e => (Config.sm3 (material e)).toNat % 2 ^ 64,
   partRow (.keyBind o) shPart2 bindWhen bindAfter fun e => e.s.qcount + 1,
   partRow (.keyUnbind o) shPart2 bindWhen bindAfter fun e => e.s.qcount + 1]

def partitionRows (o : Ops) : List EffRow :=
  let slot (e : Env) : Nat := e.x.a.w.toNat % 16
  let part (e : Env) : Partition := e.s.part (slot e)
  let bs (e : Env) : List Byte := (e.fetched e.x.b.w.toNat 128 1).1.getD []
  let fn (e : Env) : Nat := 17 * (e.x.b.w.toNat / 16 % 2) + 1 + e.x.b.w.toNat % 16
  let to_ (e : Env) : Option Binding :=
    if e.x.a.w.getLsbD 5 then none else if e.x.a.w.getLsbD 4 then some (.slice (slot e)) else some (.slot (slot e))
  let members (e : Env) : List Nat := (List.range 16).filter fun k => e.x.a.w.getLsbD k
  let receipt (e : Env) (w : WhiteoutRun) : Option LaneFault × State := e.stored e.s (w.receipt % 2 ^ 64) w.bytes
  [partRow (.partMake o) shPart2
     (fun e => slot e ≠ 0 ∧ (part e).status = .free ∧ e.x.b.w.toNat + 128 ≤ winSize e.s e.q .shared ∧
       (e.fetched e.x.b.w.toNat 128 1).1.isSome = true ∧ foreignField (e.s.part 0) (parsePart (bs e)) = none ∧ recordDefect (bs e) = none ∧
       powerInUse e.s + (parsePart (bs e)).power ≤ e.s.powerCap)
     (fun e => takeFromRoot (e.fetched e.x.b.w.toNat 128 1).2 (slot e) (parsePart (bs e))) fun _ => 0,
   partRow (.partGive o) shPart2 (fun _ => True) (fun e => e.s.modFn (fn e) fun r => { r with bound := to_ e })
     fun e => bindingCode (e.s.fn (fn e)).bound,
   partRow (.partSlice o) shPart2
     (fun e => (∀ k ∈ members e, k ≠ 0 ∧ (e.s.part k).status = .building) ∧ sliceOk e.s (members e) e.x.b.w.toNat = true)
     (fun e =>
       let l := (members e).headD 0
       ((members e).foldl (fun s k => s.modPart k fun p => { p with leader := some l }) e.s).modPart l fun p =>
         { p with quantum := e.x.b.w.toNat, turn := l, turnSince := e.s.ns })
     fun e => (members e).headD 0,
   partRow (.partSeal o) shPart1 (fun e => slot e ≠ 0 ∧ (part e).status = .building)
     (fun e => applyShare
       (e.s.modPart (slot e) fun p => { p with status := .sealed, digest := Config.sm3 ((part e).record ++ [BitVec.ofNat 8 (slot e)]) }) (slot e))
     fun e => (Config.sm3 ((part e).record ++ [BitVec.ofNat 8 (slot e)])).toNat % 2 ^ 64,
   partRow (.partDrop o) shPart1 (fun e => slot e ≠ 0 ∧ ((part e).status = .building ∨ (part e).status = .white))
     (fun e => dropPart e.s (slot e)) fun e => (part e).clusters.toNat,
   partRow (.scrub o) shPart2
     (fun e => ∃ w t, (part e).whiteout = some w ∧ w.squad = e.cx.key ∧ w.ended = some t ∧ (receipt e w).1 = none)
     (fun e =>
       let t := (((part e).whiteout.bind (·.ended)).getD 0)
       let s := (((part e).whiteout.map (receipt e)).getD (none, e.s)).2
       let s := (readTime { s with ns := t } (s.ctxOf e.q)).2
       ({ s with ns := e.s.ns }).modPart (slot e) fun p => { p with whiteout := none })
     fun e =>
       let t := (((part e).whiteout.bind (·.ended)).getD 0)
       let s := (((part e).whiteout.map (receipt e)).getD (none, e.s)).2
       (readTime { s with ns := t } (s.ctxOf e.q)).1.toNat]

/-- R327, R328: what `rwatch` does, by C[13:12], the same for its four rows of the table. -/
def watchWhen (e : Env) : Prop :=
  let slot := e.x.c.w.toNat / 256 % 16
  let a := e.x.a.w.toNat
  let b := e.x.b.w.toNat
  let frames (owner : Nat) : Prop := b % 65536 = 0 ∧ ownsAll e.s owner a b
  match e.x.c.w.toNat / 4096 % 4 with
  | 0 => b ≠ 0 ∧ a % 65536 = 0 ∧ frames slot
  | 1 => True
  | 2 => frames 0
  | _ =>
    let p := signed e.s slot (logHead e.s (e.s.part slot))
    a + 128 ≤ winSize e.s e.q .shared ∧ (e.stored p.2 a (logHead e.s (e.s.part slot) ++ p.1)).1 = none
def watchAfter (e : Env) : State :=
  let slot := e.x.c.w.toNat / 256 % 16
  let a := e.x.a.w.toNat
  let b := e.x.b.w.toNat
  match e.x.c.w.toNat / 4096 % 4 with
  | 0 => e.s.modPart slot fun p => { p with ranges := mapSet p.ranges (e.x.c.w.toNat % 64) { base := a, len := b } }
  | 1 => e.s.modPart slot fun p => { p with ranges := mapErase p.ranges (e.x.c.w.toNat % 64) }
  | 2 => e.s.modPart slot fun p => { p with ring := if b = 0 then none else some { base := a, len := b }, ringCount := 0 }
  | _ =>
    let p := signed e.s slot (logHead e.s (e.s.part slot))
    (e.stored p.2 a (logHead e.s (e.s.part slot) ++ p.1)).2
def watchReply (e : Env) : Nat := (e.s.part (e.x.c.w.toNat / 256 % 16)).logCount % 2 ^ 64

def watchRow (i : Instr) : EffRow := partRow i shPart3 watchWhen watchAfter watchReply

/-- R330: the semaphore after the device's read, acquire, renew or release. -/
def semAfter (s : State) (op : Nat) : Semaphore :=
  let mine : Semaphore := { owner := 3, leaseEnd := s.ns + 100000000 }
  if op = 1 then (if s.sem.owner ≠ 0 ∧ s.ns < s.sem.leaseEnd then s.sem else mine)
  else if op = 2 then (if s.sem.owner = 3 then mine else s.sem)
  else if op = 3 then (if s.sem.owner = 3 then { owner := 0, leaseEnd := 0 } else s.sem)
  else s.sem
def semRow (i : Instr) : EffRow :=
  { instr := i, shape := shPart1, extra := noExtra, jumped := false, when_ := fun e => e.active ≠ 0#32,
    after := fun e => { e.s with sem := semAfter e.s (e.x.a.w.toNat % 4) },
    result := fun e =>
      let m := semAfter e.s (e.x.a.w.toNat % 4)
      number (m.owner + 2 ^ 32 * Nat.min 100000 ((m.leaseEnd - e.s.ns) / 1000)) }
/-! ### Trees (R34–R37, R205–R211) -/

/-- A tree's bundle: what the tree of a squad's lanes issues with. -/
def treeCx (t : Tree) (i : Issuing) : Cx :=
  { key := i.squad, lanes := i.lanes, pc := i.pc, len := 4 * max t.len.toNat 2, words := i.words, sForm := false, o := blankOps }

/-- R39: a bundle at a tree: its slot's run has ended. -/
structure AtTree (s0 : State) (i : Issuing) (s : State) (q : Squad) : Prop where
  issuing : s0.issuing = some i
  ended : ∃ q0, s0.squad? i.squad = some q0 ∧ s = endRun s0 (s0.coreOf q0) q0.issueSlot
  squad : s.squad? i.squad = some q
  lanes : q.lanes.length = 32

/-- A tree without defect whose registers are at hand with state `s2` and squad `q2`, all of whose lanes reach leaves that let them go on:
neither a fault nor an exit. -/
structure TreeRuns (t : Tree) (p : TreeParts) (i : Issuing) (s : State) (q : Squad) (s2 : State) (q2 : Squad) (s1 : State)
    (lanes : List (Nat × TreeLane)) : Prop where
  sound : treeDefect t = none
  parts : treeParts t = some p
  replied : ((treeNeeds p none).reads ++ (treeNeeds p none).writes).any q.awaits = false
  window : (vectorWindow s q).1 = true
  named : treeNaming t p (treeCx t i) (vectorWindow s q).2 q = .ok (.ready s2)
  squad : s2.squad? i.squad = some q2
  ran : treeLanes t p i.squad q2 s2 (lanesOf i.lanes) = .ok (s1, lanes)
  clean : ∀ x ∈ lanes, x.2.fault = none ∧ (x.2.leaf, (mapGet p.leaves x.2.leaf).getD 0#32) ∈ p.leaves
  goes : ∀ x ∈ lanes, ∃ pc, leafTarget i.pc t.len.toNat s1 q2 x.2.view ((mapGet p.leaves x.2.leaf).getD 0#32) x.1 = .ok pc
  stays : ∀ x ∈ lanes, (leafOf ((mapGet p.leaves x.2.leaf).getD 0#32)).kind ≠ 3#3

/-- What the commit of a tree changes of the state that its lanes' operations leave: the squad, and its context's energy counter. -/
structure TreeFrame (key : Nat) (s t : State) : Prop where
  others : t = { s with squads := t.squads, ctxs := t.ctxs, issuing := none }
  squads : ∀ k, k ≠ key → t.squad? k = s.squad? k
  ctxs : ∀ k, (t.ctx? k).map (fun c => { c with energy := 0#64 }) = (s.ctx? k).map fun c => { c with energy := 0#64 }
  squad : ∀ q, s.squad? key = some q → ∃ q', t.squad? key = some q' ∧
    q' = { q with lanes := q'.lanes, files := q'.files, bundles := q'.bundles, cost := q'.cost, fflags := q'.fflags } ∧
    q'.lanes.length = q.lanes.length ∧
    ∀ L, L < 32 → (q'.lane L).kind = (q.lane L).kind ∧ (q'.lane L).parked = (q.lane L).parked ∧
      (q'.lane L).handler = (q.lane L).handler ∧ (q'.lane L).level = (q.lane L).level ∧
      (q'.lane L).yieldUntil = (q.lane L).yieldUntil ∧ (q'.lane L).fence = (q.lane L).fence

/-- Whether a tree's operations meet a condition. -/
def opsAre (p : TreeParts) (c : TreeEntry → Prop) : Prop := ∀ x ∈ p.ops, ∀ ws ∈ x.2, ∃ e, entryOf ws = some e ∧ c e

/-- An operation on registers alone that no trap stands behind. -/
def quietOp (q : Squad) (e : TreeEntry) : Prop :=
  match e.sem with
  | .nop | .int _ | .wide _ _ => True
  | .float _ _ => q.fctl.extractLsb' 4 5 = 0#5
  | .load _ _ _ | .spill => False

/-- R35, R206, R210: where a fall-through or relative leaf goes. -/
def leafPlace (t : Tree) (pc : Word64) (w : Word32) : Word64 :=
  if w.toNat % 8 = 1 then pc + 4#64 * (w.extractLsb' 8 24).signExtend 64 else pc + BitVec.ofNat 64 (4 * t.len.toNat)

/-- R35, R205: whether a test holds on a squad's registers in lane L. -/
def testTrue (s : State) (q : Squad) (w : Word32) (L : Nat) : Prop :=
  let x := readName s q q.files (Name.ofNat (w.toNat / 2 ^ 6 % 512))
  let y := readName s q q.files (Name.ofNat (w.toNat / 2 ^ 15 % 512))
  let narrow := x.cls = .varying ∨ y.cls = .varying
  let at_ (z : Opnd) : Nat := if narrow then (z.at32 L).toNat else (z.at64 L).toNat
  let sign (z : Opnd) : Int := signedOf (if narrow then 32 else 64) (at_ z)
  let real (c : FCmp) : Prop := c.holds (x.at32 L).toNat (y.at32 L).toNat = true
  let bit : Bool := if x.cls = .varying then (x.at32 L).toNat.testBit (w.toNat / 2 ^ 15 % 512)
    else (x.at64 L).toNat.testBit (w.toNat / 2 ^ 15 % 512)
  match w.toNat % 64 with
  | 0x00 => at_ x = at_ y | 0x01 => at_ x ≠ at_ y | 0x02 => sign x < sign y | 0x03 => sign x ≤ sign y
  | 0x04 => sign y < sign x | 0x05 => sign y ≤ sign x | 0x06 => at_ x < at_ y | 0x07 => at_ x ≤ at_ y
  | 0x08 => at_ y < at_ x | 0x09 => at_ y ≤ at_ x
  | 0x10 => real .eq | 0x11 => real .ne | 0x12 => real .lt | 0x13 => real .le
  | 0x14 => real .gt | 0x15 => real .ge | 0x16 => real .un | 0x17 => real .ord
  | 0x20 => bit = true | 0x21 => bit = false
  | _ => False

/-- R34, R207: the leaf that tests lead to from a position. -/
inductive LeadsTo (t : Tree) (holds : Nat → Prop) : Nat → Nat → Prop where
  | leaf (n : Nat) : t.nodeMask.getLsbD (n - 1) = false → LeadsTo t holds n n
  | yes (n m : Nat) : t.nodeMask.getLsbD (n - 1) = true → holds n → LeadsTo t holds (2 * n) m → LeadsTo t holds n m
  | no (n m : Nat) : t.nodeMask.getLsbD (n - 1) = true → ¬holds n → LeadsTo t holds (2 * n + 1) m → LeadsTo t holds n m

/-- A tree that nothing holds up: no glide, no reply awaited, every name it may touch in a register, operations on registers alone, and
leaves that fall through or go to a good address. -/
structure TreeFree (t : Tree) (p : TreeParts) (i : Issuing) (s : State) (q : Squad) : Prop where
  sound : treeDefect t = none
  parts : treeParts t = some p
  replied : ((treeNeeds p none).reads ++ (treeNeeds p none).writes).any q.awaits = false
  window : (vectorWindow s q).1 = true
  calm : q.glide = none
  held : q.files.anySpilled = false
  mapped : ∀ n ∈ renamedNames (treeNeeds p none).writes, q.files.stateOf n = some false
  ops : opsAre p (quietOp q)
  leaves : ∀ x ∈ p.leaves, (leafOf x.2).kind.toNat ≤ 1 ∧ (leafPlace t i.pc x.2).toNat < 2 ^ 48 ∧ (leafPlace t i.pc x.2).toNat % 4 = 0

end Sys2Proof.Machine

/-- R85, R87, R89–R92: copies and tensor records, whose 32 bytes hold their fields; an index list that is out of its window or misaligned is
read at no post (log 19). -/
def Obligations.copy_posts : Prop :=
  (∀ (o : Ops) (s : State) (e : Env), ∀ r ∈ copyRows o, takesEffect r o s e) ∧
  ∀ (bs : List Byte), bs.length = 32 →
    let r := TensorRec.ofBytes bs
    let at_ (off n : Nat) : Nat := leNat ((bs.drop off).take n)
    r.base.toNat = at_ 0 8 ∧ r.space.toNat = at_ 8 1 ∧ r.format.toNat = at_ 9 1 ∧ r.block.toNat = at_ 10 1 ∧ r.layout.toNat = at_ 11 1 ∧
      r.dim0.toNat = at_ 12 2 ∧ r.dim1.toNat = at_ 14 2 ∧ r.stride.toNat = at_ 16 4 ∧ r.scaleOff.toNat = at_ 20 4 ∧
      r.tscale.toNat = at_ 24 4 ∧ r.sync.toNat = at_ 28 4 ∧ r.bytes = bs

/-- R231, R233, R234, R236–R242: matrix and row-statistics posts; the first check of a matrix post that fails is its fault. -/
def Obligations.matrix_posts : Prop :=
  (∀ (o : Ops) (s : State) (e : Env), ∀ r ∈ matrixRows o, takesEffect r o s e) ∧
  ∀ (o : Ops) (s : State) (e : Env) (x : MxCheck), ∀ r ∈ mxPosts o,
    Issues (shMx r.2.2) false noExtra o s e → mxRoom e → mxFails e (namedMx e r.2.1) = some x →
      exec r.1 s = trapAll e.s e.cx e.q (shMx r.2.2).cost (fault x.cause x.sub (BitVec.ofNat 64 x.addr))

/-- R250–R261: clause array commands. -/
def Obligations.clause_commands : Prop :=
  ∀ (o : Ops) (s : State) (e : Env), ∀ r ∈ loadColumnRow o :: (clauseRows o).map commandEffRow, takesEffect r o s e

/-- R109: chain instructions. -/
def Obligations.chain_instructions : Prop := ∀ (o : Ops) (s : State) (e : Env), ∀ r ∈ chainRows o, takesEffect r o s e

/-- R319, R323–R330: keys, partitions, range logs, the management semaphore. -/
def Obligations.partition_instructions : Prop :=
  ∀ (o : Ops) (s : State) (e : Env),
    (∀ r ∈ keyRows o ++ partitionRows o, takesEffect r o s e) ∧
    (∀ i ∈ [.rwatchSetRange o, .rwatchClearRange o, .rwatchSetRing o, .rwatchWriteHead o], takesEffect (watchRow i) o s e) ∧
    ∀ i ∈ [.mgsemRead o, .mgsemAcquire o, .mgsemRenew o, .mgsemRelease o], takesEffect (semRow i) o s e

/-- R205–R208, R210, R211: a tree whose lanes all go on: each lane's registers are its view's, each stands at its leaf's target, and nothing
else changes but what its loads change. A tree of operations on registers alone, with its registers at hand, goes on to leaves of its own;
one of tests alone to the leaf that its tests lead to. -/
def Obligations.tree_commits : Prop :=
  (∀ (t : Tree) (p : TreeParts) (s0 s : State) (i : Issuing) (q : Squad) (s2 : State) (q2 : Squad) (s1 : State) (lanes : List (Nat × TreeLane)),
    AtTree s0 i s q → TreeRuns t p i s q s2 q2 s1 lanes →
    (q2.glide = none → opsAre p (fun e => e.sem ≠ .spill) → Accessed i.squad s2 s1 ∧ SameBytes s2 s1) ∧
    ∃ s' q', exec (.tree t) s0 = .next s' ∧ TreeFrame i.squad s1 s' ∧ s'.squad? i.squad = some q' ∧
      (∀ L a pc, (L, a) ∈ lanes →
        leafTarget i.pc t.len.toNat s1 q2 a.view ((mapGet p.leaves a.leaf).getD 0#32) L = .ok pc → (q'.lane L).pc = pc) ∧
      (∀ L, i.lanes.getLsbD L = false → L < 32 → (q'.lane L).pc = (q2.lane L).pc) ∧
      (∀ (n : Fin 128) L a, (L, a) ∈ lanes →
        (q'.files.readV n.val).getD L 0#32 = ((if n.val ∈ a.wrote then a.view else q2.files).readV n.val).getD L 0#32) ∧
      (∀ (n : Fin 128) L, i.lanes.getLsbD L = false → L < 32 → (q'.files.readV n.val).getD L 0#32 = (q2.files.readV n.val).getD L 0#32) ∧
      q'.files.s = q2.files.s ∧ q'.files.a = q2.files.a ∧ q'.cost = treeCost t lanes) ∧
  ∀ (t : Tree) (p : TreeParts) (s0 s : State) (i : Issuing) (q : Squad), AtTree s0 i s q → TreeFree t p i s q →
    ∃ s2 s' q', s2 = { (vectorWindow s q).2 with squads := s2.squads } ∧
      (∀ k, k ≠ i.squad → s2.squad? k = (vectorWindow s q).2.squad? k) ∧
      (∀ q1, (vectorWindow s q).2.squad? i.squad = some q1 → ∃ q2, s2.squad? i.squad = some q2 ∧ q2 = { q1 with recent := q2.recent }) ∧
      exec (.tree t) s0 = .next s' ∧ TreeFrame i.squad s2 s' ∧ s'.squad? i.squad = some q' ∧
      (∀ L, i.lanes.getLsbD L = true → ∃ x ∈ p.leaves, (q'.lane L).pc = leafPlace t i.pc x.2 ∧
        ((∀ y ∈ p.ops, y.2 = []) →
          LeadsTo t (fun n => testTrue s q ((mapGet p.tests n).getD 0#32) L) 1 x.1 ∧
          ∀ n : Fin 128, (q'.files.readV n.val).getD L 0#32 = (q.files.readV n.val).getD L 0#32)) ∧
      (∀ L, i.lanes.getLsbD L = false → L < 32 → (q'.lane L).pc = (q.lane L).pc ∧
        ∀ n : Fin 128, (q'.files.readV n.val).getD L 0#32 = (q.files.readV n.val).getD L 0#32) ∧
      q'.files.s = q.files.s ∧ q'.files.a = q.files.a

namespace Sys2Proof.Machine

/-! ### Words, steps, reset -/

/-- R20: the length in words that the first word of an instruction gives. -/
def lengthOf (w : Word32) : Nat :=
  match w.toNat % 4 with
  | 0 => 1
  | 1 => 2
  | 2 => 3
  | _ => w.toNat / 4 % 32

/-- Words of the manual, and words written out from the layouts of R26, R27, R31 and R33, with what they stand for. -/
def plainOps (d a b : Name) : Ops := sOps d a b
def wordRows : List (List Word32 × Instr) :=
  [([0x1FEFF001#32, 0x03FDFEFF#32], .nop blankOps),
   ([0x00602009#32, 0x03FC02FF#32], .add (plainOps (.v 1) (.v 2) (.v 3))),
   ([0x03020104#32], .addS (.v 1) (.v 2) (.v 3)),
   ([0xFC020140#32], .addSi (.v 1) (.v 2) 0xFC#8),
   ([0x1DE0200A#32, 0x03FC02FF#32, 0x12345678#32], .add (sImm (.v 1) (.v 2) 0x12345678#32)),
   ([0x10481E01#32, 0x03FD1400#32], .cp { plainOps (.s 10) (.s 1) (.s 2) with c := Src.ofNat 0 }),
   ([0x10481E01#32, 0x03FDFE01#32], .mxMma { plainOps .none (.s 1) (.s 2) with c := Src.ofNat 1 }),
   ([0x6400095C#32], .movSi (.v 9) 100#16),
   ([0x01D00208#32], .subS (.v 2) .zero (.v 1))]

/-- R43, R44: words that are no instruction, and why. -/
def badRows : List (List Word32 × DecodeError) :=
  [([0x00000000#32], .reservedBits), ([0x0000003C#32], .undefinedOpcode), ([0x00000070#32], .undefinedOpcode),
   ([0x1FEFF0C5#32, 0x03FDFEFF#32], .undefinedOpcode), ([0x10481E01#32, 0x03FD1405#32], .undefinedOpcode)]

/-- A bundle's next instruction is at hand: the bundle may issue, no breakpoint stands there, its words are fetched and decode. -/
structure NextIs (b : State) (key : Nat) (lanes : LaneMask) (q : Squad) (s1 : State) (words : List Word32) (i : Instr) : Prop where
  may : canIssue b key lanes = true
  squad : b.squad? key = some q
  noBreak : breakAt b (b.ctxOf q) (q.lane (lowLane lanes)).pc = none
  aligned : (q.lane (lowLane lanes)).pc.toNat % 4 = 0
  fetched : fetchInstr b key (lowLane lanes) q (q.lane (lowLane lanes)).pc.toNat = .got words s1
  decoded : ∃ rest, decodeWords words = .ok (i, rest)

/-- R277: the bundle's age starts again where its instruction leaves no lane of it waiting. -/
def aged (key : Nat) (lanes : LaneMask) (t : State) : State :=
  t.modSquad key fun q =>
    if (q.lane (lowLane lanes)).wait = .none then
      { q with bundles := q.bundles.map fun b => if b.lanes = lanes then { b with age := 0, last := some t.cycle } else b }
    else q

/-- R278: a bundle that could issue now is preferred to another: the older by the override, the one that does not yield, the older,
the lower slot, the lower lane. -/
def preferred (a b : Cand) : Prop :=
  let over_ (c : Cand) : Nat := if 256 ≤ c.age then c.age else 0
  over_ b < over_ a ∨ over_ a = over_ b ∧
    ((a.yielded = false ∧ b.yielded = true) ∨ a.yielded = b.yielded ∧
      (b.age < a.age ∨ a.age = b.age ∧ (a.slot < b.slot ∨ a.slot = b.slot ∧ lowLane a.lanes < lowLane b.lanes)))

/-- The canonical form of every memory of the device. -/
structure Canonical (s : State) : Prop where
  main : Memory.wf s.mem = true
  shared : ∀ g ∈ s.groups, Memory.wf g.2.shared = true
  scratch : ∀ p ∈ s.spans, Memory.wf p.2.mem = true

end Sys2Proof.Machine

/-- R20–R36: whatever words stand for a well-formed instruction decode to it, every field at every value. -/
def Obligations.words_of_every_instruction : Prop :=
  ∀ (i : Instr) (rest : List Word32), i.wellFormed = true → i.coded ≠ .event → decodeWords (encode i ++ rest) = .ok (i, rest)

/-- R20–R36: words that decode are the words of the well-formed instruction they decode to: no two words stand for one. -/
def Obligations.every_word_means_one_thing : Prop :=
  ∀ (ws : List Word32) (i : Instr) (rest : List Word32), decodeWords ws = .ok (i, rest) →
    i.wellFormed = true ∧ i.coded ≠ .event ∧ encode i ++ rest = ws

/-- R20: the bits [1:0] of the first word give an instruction's form and length. -/
def Obligations.instruction_length : Prop :=
  ∀ (w : Word32) (ws : List Word32) (i : Instr) (rest : List Word32), (w.toNat % 4 = 3 → 5 ≤ w.toNat / 4 % 32) →
    decodeWords (w :: ws) = .ok (i, rest) →
    (w :: ws).length = lengthOf w + rest.length ∧
    match i.coded with
    | .s _ _ _ _ => w.toNat % 4 = 0
    | .l op o => w.toNat % 4 = (if o.lit = none then 1 else 2) ∧ ¬(0x380 ≤ op ∧ op ≤ 0x3FF)
    | .x op _ o => w.toNat % 4 = (if o.lit = none then 1 else 2) ∧ 0x380 ≤ op ∧ op ≤ 0x3FF
    | .t _ => w.toNat % 4 = 3
    | .event => False

/-- R26, R27, R31, R33, R43, R44: some words, decoded. -/
def Obligations.words_decode : Prop :=
  (∀ r ∈ wordRows, decodeWords r.1 = .ok (r.2, [])) ∧ ∀ r ∈ badRows, decodeWords r.1 = .error r.2

/-- R70, R314, R331, R332, R336: a step performs the move at the head of the agenda (log 2): a bundle's instruction, an event, the passing of time, a
host's access to a function's register (a write of CMDTAIL rings the doorbell), a new module cap, data that are lost, power lent, CXL.mem enabled at a
port, a reading over I3C. -/
def Obligations.a_step_runs_the_instruction : Prop :=
  ∀ (s : State) (m : List Move),
    let b : State := { s with agenda := m, free := s.free + 1, issuing := none }
    (∀ key lanes q s1 words i, s.agenda = .issue key lanes :: m → NextIs b key lanes q s1 words i →
      step s =
        match exec i { s1 with issuing := some { squad := key, lanes := lanes, pc := (q.lane (lowLane lanes)).pc, words := words } } with
        | .next t => .next (aged key lanes t)
        | r => r) ∧
    (∀ i, s.agenda = .event i :: m → step s = exec i b) ∧
    (∀ c n, s.agenda = .elapse c n :: m → step s = .next (elapse b c n)) ∧
    (∀ f offset v, s.agenda = .hostRead f offset :: m → fnReg b f offset = some v → step s = .next { b with hostReply := leBytes 8 v.toNat }) ∧
    (∀ f w, s.agenda = .hostWrite f 0x040 w :: m →
      step s = .next (b.modFn (fnKey f) fun r => { r with evTail := w.toNat % r.evSize })) ∧
    (∀ f w, s.agenda = .hostWrite f 0x008 w :: m →
      step s = .next (b.modFn (fnKey f) fun r => { r with cmdBase := w &&& 0xFFFFFFFFFFFFF000#64 })) ∧
    (∀ f w, s.agenda = .hostWrite f 0x018 w :: m →
      let tail := w.toNat % (s.fn (fnKey f)).cmdSize
      step s = .next { b.modFn (fnKey f) fun r => { r with cmdTail := tail } with
        doorbells := if tail = (s.fn (fnKey f)).cmdTail then s.doorbells else s.doorbells ++ [(fnKey f, tail)] }) ∧
    (∀ u, s.agenda = .spoil u :: m → ((∃ d, b.region (32 * u) = .lpddr d) ∨ ∃ x, b.region (32 * u) = .expander x) →
      ∃ t, step s = .next t ∧ t = { b with spoiled := t.spoiled } ∧ ∀ v, v ∈ t.spoiled ↔ v = u ∨ v ∈ s.spoiled) ∧
    (∀ k, s.agenda = .lend k :: m → step s = lendPower k b) ∧
    (∀ p on, s.agenda = .enableMem p on :: m →
      step s = .next { b with cxlMem := s.cxlMem.set (match p with | .h0 => 0 | .h1 => 1) on }) ∧
    (∀ p, s.agenda = .i3c p none :: m → step s = .next { b with hostReply := healthRecord b }) ∧
    (∀ p n, s.agenda = .i3c p (some n) :: m → (n = 0 ∨ n = 0x100 ∨ n = 0x108 ∨ n = 0x110) →
      ∀ v, fnReg b { port := p, vf := none } n = some v → step s = .next { b with hostReply := leBytes 8 v.toNat }) ∧
    ∀ w, s.agenda = .setCap w :: m → 900 ≤ w → w ≤ 1800 → powerInUse b ≤ w → step s = .next { b with powerCap := w }

/-- R80, R105, R317, R318, R329, R330, R332, R336: what power-on leaves. What the manual states no value for is the model's choice (logs 5, 6,
14). -/
def Obligations.after_reset : Prop :=
  let s := State.reset
  (s.firmware.wait = true ∧ s.firmware.loaded = false) ∧ (s.ctxs = [] ∧ s.grids = [] ∧ s.groups = [] ∧ s.squads = []) ∧
  (∀ c, (s.core c).copies = [] ∧ (s.core c).fifo = [] ∧ (s.core c).rs = []) ∧ s.qcount = 0 ∧ s.ns = 0 ∧
  (∀ k, 1 ≤ k → k ≤ 15 → (s.part k).status = .free) ∧
  ((s.part 0).clusters = BitVec.allOnes 64 ∧ (s.part 0).channels = BitVec.allOnes 128 ∧ (s.part 0).farctx = BitVec.allOnes 256 ∧
    (s.part 0).floe = BitVec.allOnes 12 ∧ (s.part 0).keys = BitVec.allOnes 64) ∧
  (∀ h, (s.chain h).run = false ∧ (s.chain h).halted = false ∧ (s.chain h).pend = 0 ∧ (s.chain h).ctx = 0) ∧
  (∀ f, (s.fn f).cmdSize = 16 ∧ (s.fn f).evSize = 16 ∧ (s.fn f).cmdHead = 0 ∧ (s.fn f).evTail = 0) ∧ s.sem.owner = 0 ∧ Canonical s

/-- Every step keeps the memories in canonical form. -/
def Obligations.memories_stay_canonical : Prop :=
  ∀ (s t : State), Canonical s → step s = .next t → Canonical t

namespace Sys2Proof.Machine

/-! ### What is judged before an instruction takes effect -/

def EffRow.is (r : EffRow) (i : Instr) (sh : Shape) (ex : Extra) : Prop := r.instr = i ∧ r.shape = sh ∧ r.extra = ex

/-- Every instruction of L, K and X form with how it is judged. -/
def FormOf (o : Ops) (s : State) (i : Instr) (sh : Shape) (ex : Extra) : Prop :=
  (ex = noExtra ∧
    ((∃ r ∈ arithRows o ++ logicRows o ++ fieldRows o ++ setbRows o, r.instr = i ∧ r.shape = sh) ∨
     (∃ r ∈ wideRows o ++ laneRows o, r.instr = i ∧ r.shape = sh) ∨
     (∃ r ∈ floatRows o ++ specialRows o s, r.instr = i ∧ r.shape = sh) ∨
     (∃ r ∈ (loadForms o .none .none 0#8).map (·.1) ++ (storeForms o .none .none 0#8).map (·.1) ++ (atomForms o).map (·.1),
       r.sForm = false ∧ r.instr = i ∧ r.shape = sh) ∨
     (i = .toaff o ∧ sh = shA fun d a _ _ => (d == .affine || d == .absent) && a == .varying) ∨ (i = .nop o ∧ sh = shNone) ∨
     (i = .ldk o ∧ sh = shLdk) ∨ (i = .stk o ∧ sh = shStk) ∨ (i = .exit o ∧ sh = { shNone with stalls := true }) ∨
     (i = .eret o ∧ sh = { shNone with uniGuard := true, stalls := true }) ∨
     (i ∈ [.rwatchSetRange o, .rwatchClearRange o, .rwatchSetRing o, .rwatchWriteHead o] ∧ sh = shPart3) ∨
     (i ∈ [.mgsemRead o, .mgsemAcquire o, .mgsemRenew o, .mgsemRelease o] ∧ sh = shPart1))) ∨
  (∃ r ∈ transferRows o ++ eventRows o ++ laneStateRows o ++ barrierRows o ++ waitRows o ++ systemRows o ++ copyRows o ++ matrixRows o
      ++ [loadColumnRow o] ++ (clauseRows o).map commandEffRow ++ chainRows o ++ keyRows o ++ partitionRows o, r.is i sh ex) ∨
  (ex = sysExtra ∧ (i = .sysr o ∧ sh = shSysr ∨ (i = .sysw o ∨ i = .chctlWrite o) ∧ sh = shSysw))

/-- Every instruction of S form, with the fields it stands for and how it is judged. -/
def ShortFormOf (d a b : Name) (imm : Byte) (imm16 : BitVec 16) (i : Instr) (o : Ops) (sh : Shape) : Prop :=
  (∃ r ∈ sRows d a b imm imm16, r.instr = i ∧ r.o = o ∧ r.shape = sh) ∨
  (∃ r ∈ floatSRows d a b, r.1 = i ∧ sOps d a b = o ∧ shAB ruleInt = sh) ∨
  (∃ r ∈ (loadForms o d a imm).map (·.1) ++ (storeForms o a d imm).map (·.1), r.sForm = true ∧ r.instr = i ∧ r.o = o ∧ r.shape = sh)

/-- R23, R24, R28, R30, R31: fields that no L, K or X form may hold. -/
structure Malformed (o : Ops) : Prop where
  any : o.top = true ∨ (∃ c, o.a.name = .reserved c ∨ o.b.name = .reserved c ∨ o.d = .reserved c ∨ o.guard.reg = .reserved c) ∨
    o.a.name = .lit ∨ o.d = .lit ∨ o.guard.reg = .lit ∨ (o.b.name = .lit ∧ o.lit = none) ∨ (o.b.name ≠ .lit ∧ o.lit ≠ none) ∨
    (o.a.last = true ∧ nameRenamed o.a.name = false) ∨ (o.b.last = true ∧ nameRenamed o.b.name = false) ∨
    (o.guard.reg = .none ∧ (o.guard.bit ≠ 0#5 ∨ o.guard.sense = true)) ∨ (o.nwb = true ∧ o.d = .none)

/-- R173, R309: an instruction that passes every check then needs its registers: it waits for a page or for registers of its pool; a page that is
refused ends the grid; with its registers at hand it is judged once more, on what these hold, and waits for a window of the vector pipe. -/
structure OnceNamed (i : Instr) (ex : Extra) (s : State) (e : Env) : Prop where
  waits : ∀ t w, e.name = .wait t w → exec i s = stall t e.cx w
  ends : ∀ t, e.name = .dead t → exec i s = retire (endGrid t e.q.grid) e.cx e.sh.cost
  traps : ∀ e' f, e.name = .ready e' → hindrance ex e' = some (.trap f) → exec i s = trapAll e'.s e'.cx e'.q e'.sh.cost f
  stalls : ∀ e' w, e.name = .ready e' → hindrance ex e' = some (.stall w) → exec i s = stall e'.s e'.cx w
  window : ∀ e', e.name = .ready e' → hindrance ex e' = none → (vectorOpen e').1 = false → exec i s = stall (vectorOpen e').2 e'.cx .post

/-- R45, R46, R101, R141, R170, R189, R282: what stops an instruction before it takes effect, the first that holds. -/
structure Judged (i : Instr) (sh : Shape) (sForm : Bool) (ex : Extra) (o : Ops) (s : State) (e : Env) : Prop where
  defect : ∀ sub, sh.defect (latchSupply e.q e.run e.cx.lanes) sForm o = some sub →
    exec i s = trapAll e.s e.cx e.q sh.cost (fault 0x01#16 sub 0#64)
  special : sh.defect (latchSupply e.q e.run e.cx.lanes) sForm o = none → ∀ f, ex e = some f → exec i s = trapAll e.s e.cx e.q sh.cost f
  level : sh.defect (latchSupply e.q e.run e.cx.lanes) sForm o = none → ex e = none → levelLt (e.q.levelOf e.cx.lanes) sh.level = true →
    exec i s = trapAll e.s e.cx e.q sh.cost (fault 0x03#16 0x0000#16 0#64)
  whole : sh.defect (latchSupply e.q e.run e.cx.lanes) sForm o = none → ex e = none → levelLt (e.q.levelOf e.cx.lanes) sh.level = false →
    (needsFull sh o = true → e.missing ≠ 0#32 →
      exec i s = trapAll e.s e.cx e.q sh.cost (fault 0x04#16 0x0000#16 (BitVec.ofNat 64 e.missing.toNat))) ∧
    (¬(needsFull sh o = true ∧ e.missing ≠ 0#32) →
      (e.q.glide.isSome = true → sh.stalls = true → exec i s = stall e.s e.cx .glide) ∧
      (¬(e.q.glide.isSome = true ∧ sh.stalls = true) →
        (e.depends.any e.q.awaits = true → exec i s = stall e.s e.cx .post) ∧
        (e.depends.any e.q.awaits = false →
          (hitsLanding e = true → exec i s = trapAll e.s e.cx e.q sh.cost (fault 0x0B#16 0x0000#16 0#64)) ∧
          (hitsLanding e = false → OnceNamed i ex s e))))

/-! ### Exceptions (R287–R292) -/

/-- R287: whether an event goes to STVEC as the vectors stand. -/
def toSupervisor (q : Squad) (e : TrapEvent) : Bool := e.toStvec || e.inHandler || q.tvec == 0#64
/-- R287: the vector of a handler. -/
def vectorOf (s : State) (q : Squad) (st : Bool) : Word64 := if st then s.stvecOf q else q.tvec

/-- R287, R289: a lane at the handler's entry; one that the event took out of the TVEC handler is an escalated lane. -/
def handlerLane (s : State) (q : Squad) (st : Bool) (l : Lane) : Lane :=
  { l with
    pc := vectorOf s q st, parked := true, taken := .none,
    handler := if st then (if l.taken = .tvec then .stvecOverTvec else .stvec) else .tvec,
    level := if st ∧ s.launchLevel q = .user then .supervisor else s.launchLevel q }

/-- R287: a machine check, and an event that a tree raised, which has a level. -/
def isCheck (e : TrapEvent) : Prop := 0x20 ≤ e.cause.toNat
def ofTree (e : TrapEvent) : Prop := e.level ≠ 0xFE

/-- R287: of two events of one cycle the first enters first: machine checks, then lower causes, then lower first lanes; the events of one tree keep
their order. -/
def entersFirst (e x : TrapEvent) : Prop :=
  e.raisedAt = x.raisedAt ∧ ¬(ofTree e ∧ ofTree x) ∧
    (isCheck e ∧ ¬isCheck x ∨ (isCheck e ↔ isCheck x) ∧
      (e.cause.toNat < x.cause.toNat ∨ e.cause = x.cause ∧ lowLane e.lanes < lowLane x.lanes))

/-- A squad that may take an event: it is resident, and its group does not halt. -/
structure Takes (s : State) (key : Nat) (q : Squad) : Prop where
  squad : s.squad? key = some q
  resident : q.residency = .resident
  runs : q.ended = false
  group : ∀ g, s.group? q.groupKey = some g → g.halted = false

/-- R291: the squad after `eret`, its lanes' meetings not yet tested. -/
def backFrom (e : Env) (resume : Word64) (q : Squad) : Squad :=
  let st := inStvec (e.q.lane (lowLane e.cx.lanes)).handler
  let busy := if st then q.sBusy else q.tBusy
  { (q.onLanes e.cx.lanes fun l =>
      { l with pc := resume, level := busy.getD l.level, wait := .none, hold := l.heldAt, heldAt := .none,
               handler := if l.handler = .stvecOverTvec then .tvec else .none, parked := l.handler == .stvecOverTvec && l.parked }).leaveBundles
        e.cx.lanes with
    tBusy := if st then q.tBusy else none, sBusy := if st then none else q.sBusy }

/-- Nothing else is set off when lanes leave: no barrier counts their arrival, no lane runs a handler, no event waits, no squad stands at a
span barrier, and the grid's trigger is over. -/
structure QuietLeave (e : Env) : Prop where
  bars : ∀ n, (e.q.bar n).larr = 0#32
  handlers : ∀ L, (e.q.lane L).handler = .none
  events : e.q.events = []
  span : ∀ c ∈ e.s.squads, ∀ l ∈ c.2.lanes, l.hold ≠ .spanBarrier ∧ l.heldAt ≠ .spanBarrier
  trigger : ∀ g, e.s.grid? e.q.grid = some g → g.triggered = true

end Sys2Proof.Machine

/-- R23, R24, R28, R30, R31, R45, R46, R171, R173: the order of the checks before an instruction takes effect, for every instruction; a field
that may never stand raises IllegalInstruction, ReservedBits, before all else, in every L, K and X form; an instruction whose names all stand in
registers has them at hand, whatever the pool. -/
def Obligations.checks_come_in_order : Prop :=
  (∀ (o : Ops) (s : State) (e : Env) (i : Instr) (sh : Shape) (ex : Extra), FormOf o s i sh ex → issuingEnv sh false o s = some e →
    Judged i sh false ex o s e ∧
    (sh.undefined = false → Malformed o → exec i s = trapAll e.s e.cx e.q sh.cost (fault 0x01#16 0x0002#16 0#64))) ∧
  (∀ e : Env, e.s.squad? e.cx.key = some e.q → e.q.glide = none →
    (∀ n ∈ renamedNames (e.needs.reads ++ e.needs.writes), e.q.files.stateOf n ≠ some true) →
    (∀ n ∈ renamedNames e.needs.writes, e.q.files.stateOf n = some false) →
    ∃ s' q', e.name = .ready (e.over s' q') ∧ s' = { e.s with squads := s'.squads } ∧ s'.squad? e.cx.key = some q' ∧
      q' = { e.q with recent := q'.recent } ∧ ∀ k, k ≠ e.cx.key → s'.squad? k = e.s.squad? k) ∧
  ∀ (d a b : Name) (imm : Byte) (imm16 : BitVec 16) (o : Ops) (s : State) (e : Env) (i : Instr) (sh : Shape),
    ShortFormOf d a b imm imm16 i o sh → issuingEnv sh true o s = some e → Judged i sh true noExtra o s e

/-- R290: the bytes of a trap frame. -/
def Obligations.trap_frame : Prop :=
  ∀ (e : TrapEvent) (priv : Level) (esc : Bool), e.lane < 256 → e.level < 256 → e.node < 256 → e.slot < 256 →
    let f := e.frame priv esc
    f.length = 128 ∧ leField f 0 2 = e.cause.toNat ∧ leField f 2 2 = e.sub.toNat ∧ leField f 4 4 = e.lanes.toNat ∧
    leField f 8 8 = e.pc.toNat ∧ leField f 16 8 = e.addr.toNat ∧ leField f 24 1 = e.lane ∧ leField f 25 1 = e.level ∧
    leField f 26 1 = e.node ∧ leField f 27 1 = e.slot ∧ leField f 28 8 = e.resume.toNat ∧
    (∀ k, k < 3 → leField f (36 + 4 * k) 4 = (e.words.getD k 0#32).toNat) ∧ leField f 48 4 = e.other.toNat ∧
    leField f 52 1 = levelNum priv ∧ leField f 53 1 = (if esc then 1 else 0) + (if e.inHandler then 2 else 0) ∧
    ∀ i, 54 ≤ i → i < 128 → f[i]? = some 0#8

/-- R287, R289: an event whose frame is free enters: the frame is written, the busy bit keeps the entry level, the lanes stand at the
vector as handler lanes; with STVEC zero the grid ends. A squad whose supervisor frame is held by lanes that can no longer reach `eret` ends
its grid. -/
def Obligations.an_event_enters : Prop :=
  (∀ (s : State) (key : Nat) (q : Squad) (e : TrapEvent), Takes s key q → q.events = [e] → e.halts = false →
    let st := toSupervisor q e
    (if st then q.sBusy else q.tBusy) = none →
    (st = true → s.stvecOf q = 0#64 → exec (.trapEntry key) s = .next (endGrid s q.grid)) ∧
    ∀ s1, (st = true → s.stvecOf q ≠ 0#64) →
      spillWrite s key q (if st then 0x0F80 else 0) (e.frame (q.levelOf e.lanes) (st && !e.toStvec)) = .done () s1 →
      exec (.trapEntry key) s = .next (s1.setSquad key
        { q.onLanes e.lanes (handlerLane s q st) with
          events := [], tBusy := if st then q.tBusy else some (q.levelOf e.lanes), sBusy := if st then some (q.levelOf e.lanes) else q.sBusy,
          entered := (if e.raisedAt = s1.cycle then [(st, e)] else []) ++ q.entered.filter fun (x : Bool × TrapEvent) => x.2.raisedAt == s1.cycle }.settle)) ∧
  ∀ (s : State) (key : Nat) (q : Squad), Takes s key q → (∀ e ∈ q.events, e.halts = false ∧
      (if toSupervisor q e then q.sBusy else q.tBusy).isSome = true) →
    (∃ e ∈ q.events, toSupervisor q e = true ∧ ∃ L n, (q.handlers .stvec).getLsbD L = true ∧ (q.lane L).hold = .barrier n ∧
      (q.bar n).pend = false ∧ (q.bar n).larr.getLsbD L = true ∧ e.lanes &&& q.live &&& ~~~(q.bar n).larr ≠ 0#32) →
    exec (.trapEntry key) s = .next (endGrid s q.grid)

/-- R287, R289, R302: raising an event: its live lanes park at their resume address and keep the barrier they were held at; it takes its place among
the waiting events, the order of one cycle kept, while the frames are busy; lanes in the STVEC handler end the grid, unless a debugger takes the
event. -/
def Obligations.an_event_is_raised : Prop :=
  ∀ (s : State) (key : Nat) (q : Squad) (e : TrapEvent), s.squad? key = some q →
    let lanes := e.lanes &&& q.live
    let inTvec : Bool := lanes &&& q.handlers .tvec != 0#32
    let inStvec : LaneMask := q.handlers .stvec ||| q.handlers .stvecOverTvec
    (lanes = 0#32 → raise s key e = s) ∧
    (lanes &&& inStvec ≠ 0#32 → e.cause ≠ 0x0F#16 → raise s key e = endGrid s q.grid) ∧
    ∀ q1, lanes ≠ 0#32 → lanes &&& inStvec = 0#32 →
      (endRunOf s key).squad? key = some q1 → e.cause ≠ 0x0F#16 → q.entered = [] →
      (∀ L, inStvec.getLsbD L = true → (q.lane L).hold = .none) →
      (if e.toStvec || inTvec || q.tvec == 0#64 then q.sBusy else q.tBusy).isSome = true →
      (∀ x ∈ q.events, x.halts = false ∧ (if toSupervisor q x then q.sBusy else q.tBusy).isSome = true) →
      let e' := { e with lanes := lanes, lane := if lanes.getLsbD e.lane then e.lane else lowLane lanes, inHandler := inTvec, halts := false,
                         raisedAt := s.cycle }
      ∃ q', (raise s key e).squad? key = some q' ∧
        raise s key e =
          { endRunOf s key with squads := (raise s key e).squads, partQueue := (endRunOf s key).partQueue.filter (· != key) } ∧
        (∀ k, k ≠ key → (raise s key e).squad? k = (endRunOf s key).squad? k) ∧
        q' = { q1 with lanes := q'.lanes, bundles := q'.bundles, races := q'.races, events := q'.events } ∧
        (∃ before after, q.events = before ++ after ∧ q'.events = before ++ e' :: after ∧ (∀ x ∈ before, ¬entersFirst e' x) ∧
          ∀ x, after.head? = some x → entersFirst e' x) ∧
        (q'.races = if e.cause = 0x09#16 then (q1.races + 1) % 65536 else q1.races) ∧
        (∀ b ∈ q'.bundles, b.lanes &&& lanes = 0#32) ∧
        ∀ L, L < 32 → L < q1.lanes.length → q'.lane L =
          if lanes.getLsbD L then
            { q1.lane L with
              parked := true, handler := .none, taken := (q1.lane L).handler, wait := .none, hold := .none, pc := e.resume,
              heldAt := match (q1.lane L).hold with
                | .barrier n => .barrier n
                | .spanBarrier => .spanBarrier
                | _ => (q1.lane L).heldAt }
          else q1.lane L

/-- R291, R292: `eret` of a whole handler: its lanes return to the frame's RESUME at their entry level, held again where the event found them
held, and the busy bit clears; of other lanes it raises Privilege or UniformPartial, whatever its guard says. -/
def Obligations.return_from_a_handler : Prop :=
  ∀ (o : Ops) (s : State) (e : Env), Issues { shNone with uniGuard := true, stalls := true } false noExtra o s e →
    let h := (e.q.lane (lowLane e.cx.lanes)).handler
    let missing := requiredLanes e.q e.cx.lanes &&& ~~~e.cx.lanes
    (h = .none → exec (.eret o) s = trapAll e.s e.cx e.q 1 (fault 0x03#16 0x0001#16 0#64)) ∧
    (h ≠ .none → missing ≠ 0#32 → exec (.eret o) s = trapAll e.s e.cx e.q 1 (fault 0x04#16 0x0000#16 (BitVec.ofNat 64 missing.toNat))) ∧
    ∀ bs s1, e.active ≠ 0#32 → h ≠ .none → missing = 0#32 → e.q.events = [] →
      spillRead e.s e.cx.key e.q (if inStvec h then 0x0F80 + 28 else 28) 8 = .done bs s1 →
      ∃ t, exec (.eret o) s = .next t ∧
        Retired e true true (s1.modSquad e.cx.key (backFrom e (BitVec.ofNat 64 (leNat bs)))) .none t

/-- R215: `exit`: its lanes are gone from the squad and its bundles; the last live lanes wait for what is outstanding, and then end the
squad. -/
def Obligations.lanes_exit : Prop :=
  ∀ (o : Ops) (s : State) (e : Env), Issues { shNone with stalls := true } false noExtra o s e → e.acting ≠ 0#32 →
    (∀ L, e.cx.lanes.getLsbD L = true → (e.q.lane L).kind = .live ∨ (e.q.lane L).kind = .helper) →
    (e.q.live &&& ~~~e.acting = 0#32 → (∃ x ∈ e.q.ops, x.done = false ∨ x.counted = false) → exec (.exit o) s = stall e.s e.cx .post) ∧
    (QuietLeave e.opened → e.q.live &&& ~~~e.acting = 0#32 → e.q.ops = [] →
      ∃ t, exec (.exit o) s = .next t ∧ t.mem = e.s.mem ∧ ∀ q', t.squad? e.cx.key = some q' → q'.ended = true ∧ q'.live = 0#32) ∧
    (QuietLeave e.opened → e.q.live &&& ~~~e.acting ≠ 0#32 →
      ∃ t q', exec (.exit o) s = .next t ∧ t.mem = e.s.mem ∧ t.squad? e.cx.key = some q' ∧ q'.ended = e.q.ended ∧
        (∀ b ∈ q'.bundles, b.lanes &&& e.active = 0#32) ∧
        ∀ L, L < 32 → L < e.q.lanes.length →
          (q'.lane L).kind = (if e.active.getLsbD L then .exited else (e.q.lane L).kind) ∧
          (e.active.getLsbD L = false → (q'.lane L).pc =
            if e.cx.lanes.getLsbD L then (e.q.lane L).pc + BitVec.ofNat 64 e.cx.len else (e.q.lane L).pc))

namespace Sys2Proof.Machine

/-! ### Phases, glides, keyed memory -/

/-- R39, R139: registers with a latch's unwritten value in them. -/
def withFill (lanes : LaneMask) (f : Files) (fl : Option Fill) : Files :=
  match fl with
  | none => f
  | some x =>
    if x.pending = false then f
    else match x.name, x.val with
      | .v k, .varying lo hi =>
        let f := f.writeV k.val lanes lo
        if x.pair then f.writeV (k.val + 1) lanes hi else f
      | .s k, .uniform w => f.writeS k.val w
      | .a k, .affine b st => f.writeA k.val b st
      | _, _ => f

/-- R139: the checkpoint's registers: what latches hold unwritten counts as written. -/
def checkpoint (e : Env) (f : Files) : Files :=
  match e.run with
  | some r => r.fills.foldl (withFill r.lanes) f
  | none => f

/-- R139, R140: the squad glides past barrier n from the instruction after `bar.glide`. -/
def glides (n : Nat) (e : Env) : State :=
  (arrives n e e.s).modSquad e.cx.key fun q =>
    { (q.onLanes e.cx.lanes fun l => { l with barWords := e.cx.words.take (e.cx.len / 4) }).modBar n (fun b => { b with armed := false }) with
      glides := (q.glides + 1) % 65536
      glide := some { barrier := n, files := checkpoint e q.files, renamed := [], latchRecs := q.lanes.map (·.latchRec), fflags := q.fflags,
                      pc := e.cx.pc + BitVec.ofNat 64 e.cx.len, buffer := [], sectors := [], reads := [], liveReads := [], writers := [] } }

/-- R139: `bar.glide` of a whole squad with glides enabled, whose arrival does not complete the phase. -/
def glideRow (o : Ops) : EffRow :=
  let n := o.c.bits
  { instr := .barGlide o, shape := shBar true, extra := noExtra, jumped := false, result := noResult, after := glides n,
    when_ := fun e => mayArrive n e ∧ e.q.glideEn = true ∧ e.q.live &&& ~~~e.cx.lanes = 0#32 ∧ e.q.live &&& ~~~((e.q.bar n).larr ||| e.acting) = 0#32 ∧
      n < e.q.bars.length ∧ (e.bars.getD n barNone).arrived + 1 ≠ (e.bars.getD n barNone).count }

end Sys2Proof.Machine

/-- R132, R133: the last arrival completes the phase: PHASE counts on, ARRIVED returns to 0, every squad may arrive again, the lanes held at
the barrier run on. -/
def Obligations.a_phase_completes : Prop :=
  ∀ (s : State) (gk b : Nat) (c : Clock) (g : Group), s.group? gk = some g → b < g.barriers.length →
    (g.bar b).arrived + 1 = (g.bar b).count → NoGlides s → (∀ x ∈ s.squads, ∀ o ∈ x.2.ops, o.race = none) →
    let t := arriveAt s gk b c
    (∃ g', t.group? gk = some g' ∧ (g'.bar b).phase = ((g.bar b).phase + 1) % 65536 ∧ (g'.bar b).arrived = 0 ∧
      (g'.bar b).count = (g.bar b).count ∧ (g'.bar b).epend = (g.bar b).epend ∧ g'.shared = g.shared ∧
      ∀ n, n ≠ b → g'.bar n = g.bar n) ∧
    (∀ k, groupOfSquad k ≠ gk → t.squad? k = s.squad? k) ∧
    ∀ k q, groupOfSquad k = gk → s.squad? k = some q → ∃ q', t.squad? k = some q' ∧ q'.files = q.files ∧
      (q'.bar b).pend = false ∧ (∀ n, n ≠ b → q'.bar n = q.bar n) ∧
      (∀ L, L < 32 → (q'.lane L).pc = (q.lane L).pc ∧ (q'.lane L).kind = (q.lane L).kind ∧
        ((q.lane L).hold = .barrier b → (q'.lane L).hold = .none ∨ (q'.lane L).hold = .meeting) ∧
        ((q.lane L).heldAt = .barrier b → (q'.lane L).heldAt = .none)) ∧
      (b < q.bars.length →
        let due := if (q.bar b).pend then (q.bar b).due.join ((g.bar b).joining.join c) else (q.bar b).due
        let waits : Prop := ∃ L, L < 32 ∧ ((q.lane L).hold = .barrier b ∨ (q.lane L).heldAt = .barrier b)
        (waits → q'.clock = q.clock.join due ∧ (q'.bar b).armed = false ∧ (q'.bar b).due = Clock.zero) ∧
        (¬waits → q'.clock = q.clock ∧ (q'.bar b).armed = (q.bar b).armed ∧ (q'.bar b).due = due))

namespace Sys2Proof.Machine

/-- R142, R143: no race stands between a glide's accesses and the others, once its squad has acquired what the phase released: not at a word it
read, nor with a write that another squad of the group made after its own arrival; not at a word it is to write (log 40). -/
structure GlideClean (s : State) (key : Nat) (q : Squad) (released : Clock) (arrivals : Map Nat) (gl : Glide) : Prop where
  reads : ∀ w ∈ gl.liveReads,
    checkTag (winTag s q .shared w) (squadAgent (acquire s key released) key { q with clock := q.clock.join released } .plain) false = none
  late : ∀ w ∈ gl.liveReads, ∀ x, (winTag s q .shared w).writer = some x → x.group = q.group → x.kind ≤ 1 →
    ∀ n, mapGet arrivals (squadKey (groupKey q.grid x.group) x.squad) = some n → n ≤ x.epoch →
    checkTag (winTag s q .shared w) (squadAgent (acquire s key released) key q .plain) false = none
  writes : ∀ x ∈ gl.writers, checkTag (winTag s q .shared x.1)
    (squadAgent (acquire s key released) key { q with clock := q.clock.join released }
      (storeCls { q with clock := q.clock.join released } x.2 .plain)) true = none

end Sys2Proof.Machine

/-- R139–R143: a glide starts; its stores stay in its buffer, where its loads find them; a roll back restores the checkpoint and holds the
lanes at the barrier. At the phase's completion its stores are performed, or a race rolls it back and its lanes run on from the checkpoint. -/
def Obligations.glides_leave_no_trace : Prop :=
  (∀ (o : Ops) (s : State) (e : Env), takesEffect (glideRow o) o s e) ∧
  ∀ (s : State) (key : Nat) (q : Squad) (gl : Glide), s.squad? key = some q → q.glide = some gl →
    (∀ L x bs cls, (q.lane L).kind ≠ .helper → 0 < bs.length → checkAddr (winSize s q .shared) x bs.length bs.length = none →
      ∃ s1, storeWin s key L .shared x bs.length bs cls = (none, s1) ∧ s1 = { s with squads := s1.squads } ∧
        (loadWin s1 key L .shared x bs.length bs.length cls).1 = .ok bs ∧
        ∀ y n, y + n ≤ x ∨ x + bs.length ≤ y → 0 < n → checkAddr (winSize s q .shared) y n n = none →
          (loadWin s1 key L .shared y n n cls).1 = (loadWin s key L .shared y n n cls).1) ∧
    (∃ q', (rollGlide s key).squad? key = some q' ∧ (rollGlide s key).groups = s.groups ∧ (rollGlide s key).spans = s.spans ∧
      q'.files = gl.files ∧ q'.fflags = gl.fflags ∧ q'.glide = none ∧ q'.rolls = (q.rolls + 1) % 2 ^ 32 ∧ q'.ops = q.ops ∧
      ∀ L, L < 32 → (q'.lane L).kind = (q.lane L).kind ∧
        ((q.lane L).kind = .live → (q'.lane L).pc = gl.pc ∧ (q'.lane L).hold = .barrier gl.barrier)) ∧
    ∀ released arrivals, (∀ x ∈ s.squads, x.1 ≠ key → x.2.glide = none) →
      let t := commitGlide s key released arrivals
      (GlideClean s key q released arrivals gl →
        ∃ m q', Accessed key s m ∧ OtherWindows q .shared s m ∧ m.squad? key = some q' ∧ q'.clock = q.clock.join released ∧
          t = m.modSquad key (fun x => { x with glide := none }) ∧
          (mapSorted gl.buffer = true → (∃ g, s.group? q.groupKey = some g ∧ Memory.wf g.shared = true) →
            ∀ a, memRead (sharedBytes m q.groupKey) a = (mapGet gl.buffer a).getD (memRead (sharedBytes s q.groupKey) a))) ∧
      (¬GlideClean s key q released arrivals gl →
        t = { s with squads := t.squads, cores := t.cores } ∧ (∀ c, t.core c = { s.core c with runs := (t.core c).runs }) ∧
        (∀ k, k ≠ key → t.squad? k = s.squad? k) ∧
        ∃ q', t.squad? key = some q' ∧ q'.files = gl.files ∧ q'.fflags = gl.fflags ∧ q'.glide = none ∧ q'.rolls = (q.rolls + 1) % 2 ^ 32 ∧
          q'.clock = q.clock.join released ∧ ∀ L, L < 32 → (q.lane L).kind = .live →
            (q'.lane L).pc = gl.pc ∧ ((q'.lane L).hold = .none ∨ (q'.lane L).hold = .meeting))

/-- R69, R324: a byte written under a key reads back under it and leaves every other unit as it was; in a unit of the same key, every other
byte too; the addresses that memory backs for a partition. That a write makes spoiled data readable again, and that an expander port of
weight 0 backs nothing, is the model's (log 79). -/
def Obligations.keyed_memory : Prop :=
  (∀ (s : State) (slot pa : Nat), s.backs slot pa = true ↔
    pa < 2 ^ 40 ∨ (2 ^ 51 ≤ pa ∧ pa < 2 ^ 52) ∨
      ∃ n, n < 4 ∧ (n + 1) * 2 ^ 41 ≤ pa ∧ pa < (n + 2) * 2 ^ 41 ∧ pa - (n + 1) * 2 ^ 41 < s.firmware.expanders.getD n 0 ∧
        (s.part slot).xshare.getD n 0 ≠ 0) ∧
  ∀ (s : State) (k pa : Nat) (b : Byte), pa < 2 ^ 51 →
    let t := s.writePhys k pa b
    t.readPhys k pa = b ∧ t = { s with mem := t.mem, unitKeys := t.unitKeys, spoiled := t.spoiled } ∧ (∀ u, u ∈ t.spoiled ↔ u ∈ s.spoiled ∧ u ≠ pa / 32) ∧
    (∀ k' a, a / 32 ≠ pa / 32 → t.readPhys k' a = s.readPhys k' a) ∧
    ((s.unitKey (pa / 32) = some k ∨ s.unitKey (pa / 32) = none) → ∀ a, a ≠ pa → t.readPhys k a = s.readPhys k a)

namespace Sys2Proof.Machine

/-! ### Squads, scheduling, pre-emption -/

/-- R15, R288: whether two lanes may stand in one bundle. -/
def together (q : Squad) (i j : Nat) : Prop :=
  (q.lane i).issuable = true ∧ (q.lane j).issuable = true ∧ (q.lane i).pc = (q.lane j).pc ∧ (q.lane i).handler = (q.lane j).handler

/-- R15, R277: bundles as a regroup tick forms them of a squad. -/
structure Regrouped (q : Squad) (bs : List Bundle) : Prop where
  same : ∀ i j, i < 32 → j < 32 → ((∃ b ∈ bs, b.lanes.getLsbD i = true ∧ b.lanes.getLsbD j = true) ↔ together q i j)
  nonempty : ∀ b ∈ bs, b.lanes ≠ 0#32
  apart : bs.Pairwise fun b c => b.lanes &&& c.lanes = 0#32
  age : ∀ b ∈ bs, (∀ c ∈ q.bundles, c.lanes &&& b.lanes ≠ 0#32 → c.age ≤ b.age) ∧
    (b.age = 0 ∨ ∃ c ∈ q.bundles, c.lanes &&& b.lanes ≠ 0#32 ∧ c.age = b.age)

/-- R276: squad k of a group of a grid as it is placed. -/
structure Placed (d : LaunchDesc) (g k : Nat) (level : Level) (q : Squad) : Prop where
  files : q.files = { v := [], s := [], a := [] }
  registers : q.tvec = 0#64 ∧ q.fctl = 0#64 ∧ q.fflags = 0#64 ∧ q.glideEn = true ∧ q.perfReq = 7
  counters : q.glides = 0 ∧ q.rolls = 0 ∧ q.races = 0 ∧ q.misses = 0 ∧ q.frostSeen = false ∧ q.trig = false
  stack : q.spBase.toNat = (d.spill.toNat + (g * d.nsq + k) * d.spSize) % 2 ^ 64 ∧ q.spSize = BitVec.ofNat 64 d.spSize
  idle : q.ops = [] ∧ q.events = [] ∧ q.entered = [] ∧ q.recent = [] ∧ q.glide = none ∧ q.region = none ∧ q.tBusy = none ∧ q.sBusy = none ∧ q.bundles = []
  bars : q.bars.length = d.barriers ∧ ∀ n, (q.bar n).larr = 0#32 ∧ (q.bar n).pend = false ∧ (q.bar n).armed = false
  lanes : ∀ L, L < 32 → (q.lane L).pc = d.entry ∧ (q.lane L).level = level ∧ (q.lane L).parked = false ∧ (q.lane L).hold = .none ∧
    (q.lane L).kind = if 32 * k + L < d.lanes then .live else if 32 * k + 4 * (L / 4) < d.lanes then .helper else .absent

/-- R275: a group can be placed on core c now: the next of its grid, alone. -/
structure MayPlace (s : State) (id c die : Nat) (g : Grid) (s1 : State) : Prop where
  grid : s.grid? id = some g
  waits : g.status = .admitted ∧ g.failed = false ∧ g.next < g.groupCount ∧ g.batch = 1
  context : ∃ x, s.ctx? g.ctx = some x ∧ x.pausedAt = none ∧ x.pausing = none
  first : yieldsTo s g = false
  home : spanDie s (slotOf g.ctx) id (g.next / g.desc.perSpan) = some die
  core : coreTakes s g die c = true
  span : openSpan s id (g.next / g.desc.perSpan) die g.desc = some s1
  size : 0 < g.desc.nsq ∧ g.desc.nsq ≤ 32

/-- A squad whose save needs no glide undone and no latch written, and whose names its slots take. -/
structure MaySave (s : State) (key : Nat) (q : Squad) (s1 : State) : Prop where
  squad : s.squad? key = some q
  here : q.residency = .resident ∧ q.ended = false
  still : q.glide = none
  run : ∀ c n r, mapGet (s.core c).runs n = some r → r.squad ≠ key
  slots : writeSlots s key q q.files.toSlots = .done () s1

/-- R296: the squad away. -/
def away (full : Bool) (q : Squad) : Squad := { q with files := q.files.spill, residency := .evicted full, bundles := [], evictSince := none }

/-- A file in which every name is mapped as the machine maps one. -/
structure Files.Sound (f : Files) : Prop where
  v : mapSorted f.v = true ∧ ∀ x ∈ f.v, x.1 < 128 ∧ x.2.lanes.length = 32 ∧ x.2.spilled = false
  s : mapSorted f.s = true ∧ ∀ x ∈ f.s, x.1 < 64 ∧ x.2.spilled = false
  a : mapSorted f.a = true ∧ ∀ x ∈ f.a, x.1 < 16 ∧ x.2.spilled = false

end Sys2Proof.Machine

/-- R15, R220, R277, R278, R302: regroup ticks, ended yields, address breakpoints, ages; with an empty agenda, of every issue slot one bundle that
could issue, to which none is preferred, issues if it still can, and a cycle passes. The order of the issue slots in a cycle is the model's
(log 2). -/
def Obligations.bundles_and_breakpoints : Prop :=
  (∀ (s : State), s.agenda = [] →
    let b : State := { s with free := s.free + 1, issuing := none }
    let cs := candidates exec b
    ∃ ps : List Cand, (∀ c ∈ ps, c ∈ cs ∧ ∀ d ∈ cs, d.port = c.port → ¬preferred d c) ∧ ps.Pairwise (fun c d => c.port ≠ d.port) ∧
      (∀ c ∈ cs, ∃ d ∈ ps, d.port = c.port) ∧
      step s = .next (elapse (ps.foldl (fun t c =>
        match issueMove exec { t with free := t.free + 1, issuing := none } c.squad c.lanes with
        | .next u => u
        | _ => t) b) 1 0)) ∧
  (∀ (s : State) (c n : Nat), s.cycle / 4 = (s.cycle + c) / 4 →
    let t := elapse s c n
    t.cycle = s.cycle + c ∧ t.ns = s.ns + n ∧ t.mem = s.mem ∧ t.groups = s.groups ∧ t.spans = s.spans ∧
    ∀ key q, s.squad? key = some q → q.residency = .resident → ∃ q', t.squad? key = some q' ∧ q'.lanes = q.lanes ∧ q'.files = q.files ∧
      q'.bundles = q.bundles.map fun b =>
        if wouldIssue exec s key b.lanes then { b with age := b.age + if b.last = some s.cycle then c - 1 else c } else b) ∧
  (∀ (s : State) (core : Nat), s.cycle % 4 = 0 → ∃ t, exec (.regroupTick core) s = .next t ∧
    t = { s with squads := t.squads, cores := t.cores } ∧
    ∀ key q, s.squad? key = some q → s.coreOf q = core → q.residency = .resident → q.ended = false →
      ∃ q', t.squad? key = some q' ∧ q' = { q with bundles := q'.bundles, files := q'.files } ∧ Regrouped q q'.bundles) ∧
  (∀ (s : State) (key L u : Nat) (q : Squad), s.squad? key = some q → L < 32 → L < q.lanes.length → (q.lane L).yieldUntil = some u → u ≤ s.cycle →
    ∃ t q', exec (.yieldExpire key L) s = .next t ∧ t = { s with squads := t.squads } ∧ (∀ k, k ≠ key → t.squad? k = s.squad? k) ∧
      t.squad? key = some q' ∧ q' = { q with lanes := q'.lanes } ∧ q'.lane L = { q.lane L with yieldUntil := none } ∧
      ∀ K, K ≠ L → q'.lane K = q.lane K) ∧
  ∀ (s : State) (key : Nat) (lanes : LaneMask) (k : Nat) (q : Squad), canIssue s key lanes = true → s.squad? key = some q →
    breakAt s (s.ctxOf q) (q.lane (lowLane lanes)).pc = some k →
    let pc := (q.lane (lowLane lanes)).pc
    let event (words : List Word32) : TrapEvent :=
      { cause := 0x0F#16, sub := BitVec.ofNat 16 (256 + k), lanes := lanes, pc := pc, addr := 0#64, lane := lowLane lanes, level := 0xFE, node := 0,
        slot := 0, resume := pc, words := words, other := 0#32, toStvec := false, inHandler := false, halts := false, raisedAt := 0 }
    (q.glide = none →
      (∀ words s1, fetchInstr s key (lowLane lanes) q pc.toNat = .got words s1 →
        exec (.addressBreakpoint key lanes k) s = .next (raise s1 key (event words))) ∧
      ((∀ words s1, fetchInstr s key (lowLane lanes) q pc.toNat ≠ .got words s1) →
        exec (.addressBreakpoint key lanes k) s = .next (raise s key (event [])))) ∧
    (q.glide ≠ none → exec (.addressBreakpoint key lanes k) s = .next (rollGlide s key))

namespace Sys2Proof.Machine

/-- R272: heads that are passed over, since a dependence of each is not satisfied, and the state after their dependence words are read. -/
inductive PassedOver : State → List Head → State → Prop where
  | none (s : State) : PassedOver s [] s
  | one (s s1 s2 : State) (h : Head) (hs : List Head) (g : Grid) :
    s.grid? h.grid = some g → readDeps s h.grid g = (.unmet, s1) → PassedOver s1 hs s2 → PassedOver s (h :: hs) s2

end Sys2Proof.Machine

/-- R271–R273: the heads of the queues are considered by priority, then by order; the first whose dependences are met, whatever heads it follows,
is admitted, after what its dependences' writers released, or, in host-assisted mode, asked for; one whose dependence was cancelled is cancelled. -/
def Obligations.grid_admission : Prop :=
  ∀ (s s0 : State) (pre post : List Head) (h : Head) (g : Grid) (d : Dep) (s1 : State), s.heads = pre ++ h :: post → PassedOver s pre s0 →
    s0.grid? h.grid = some g → readDeps s0 h.grid g = (d, s1) →
    (∀ x ∈ h :: post, ∀ y ∈ pre, x.prio < y.prio ∨ x.prio = y.prio ∧ y.grid ≤ x.grid) ∧
    (∀ x ∈ post, x.prio < h.prio ∨ (x.prio = h.prio ∧ h.grid ≤ x.grid)) ∧
    (d = .met → g.status = .queued ∧ s1.firmware.assisted.getD 2 false = false ∨ g.status = .granted → ∀ c k g1, s1.ctx? g.ctx = some c →
      mapGet c.queues g.queue = some k → s1.grid? h.grid = some g1 → g1.ctx = g.ctx → g1.queue = g.queue →
      ∃ t c', exec .gridAdmit s = .next t ∧ t = { s1 with ctxs := t.ctxs, grids := t.grids } ∧
        t.grid? h.grid = some
          { g1 with status := .admitted, acquired := if g1.desc.dep0 = 0#64 ∧ g1.desc.dep1 = 0#64 then Clock.zero else depClock s1 g.ctx } ∧
        t.ctx? g.ctx = some c' ∧
        mapGet c'.queues g.queue = some { k with waiting := k.waiting.filter (· != h.grid), admitted := (k.admitted + 1) % 2 ^ 32 }) ∧
    (d = .met → g.status = .queued → s1.firmware.assisted.getD 2 false = true → ∀ g1, s1.grid? h.grid = some g1 →
      ∃ t, exec .gridAdmit s = .next t ∧ t = { s1 with fns := t.fns, grids := t.grids } ∧
        t.grid? h.grid = some { g1 with status := .requested }) ∧
    (d = .cancelled → ∀ g1, s1.grid? h.grid = some g1 → ∃ t g2, exec .gridAdmit s = .next t ∧ t.grid? h.grid = some g2 ∧
      g2.status = .cancelled ∧ g2.failed = true ∧
      (g1.desc.trig = 0#64 → ∀ e ∈ (t.chain g1.chain).entries, e.id = g1.entryId → e.done = true ∧ e.aborted = true))

/-- R112, R131, R274–R276: a group's placement: its window holds its arguments and zeros, its squads stand at the entry, its barriers count its
squads. -/
def Obligations.group_placement : Prop :=
  ∀ (s s1 : State) (id c die : Nat) (g : Grid), MayPlace s id c die g s1 →
    let gk := groupKey id g.next
    ∃ t x, exec (.groupPlace id [c]) s = .next t ∧ t.grid? id = some { g with next := g.next + 1 } ∧ t.mem = s.mem ∧
      t.group? gk = some x ∧ x.status = .placed ∧ x.core = c ∧ x.nsq = g.desc.nsq ∧ x.tags = [] ∧ x.halted = false ∧
      (∀ a, memRead x.shared a = g.args.getD a 0#8) ∧
      x.barriers = List.replicate g.desc.barriers
        { count := g.desc.nsq, arrived := 0, phase := 0, epend := 0, joining := Clock.zero } ∧
      (g.desc.matrix = true → (t.core c).tileOwner = some gk ∧ (t.core c).tiles = []) ∧
      (g.desc.clause = true → (t.cluster (clusterOf c)).clauseOwner = some gk ∧ (t.cluster (clusterOf c)).clause = Clause.cleared 1024 4096) ∧
      (∀ k, groupOfSquad k ≠ gk → t.squad? k = s.squad? k) ∧
      ∀ k, k < g.desc.nsq → ∃ q, t.squad? (squadKey gk k) = some q ∧ q.slot ∈ s.freeSlots c ∧
        Placed g.desc g.next k (((s.ctx? g.ctx).map (·.level)).getD .user) q

/-- R163, R272, R280, R281: a grid whose groups have all ended and whose posts are performed completes: its trigger first, then its entry; a
cancelled grid's trigger word receives its sequence value with bit 63. -/
def Obligations.grid_completion : Prop :=
  (∀ (s : State) (id : Nat) (g : Grid), s.grid? id = some g → gridOver s id g = true → gridPending s id = false →
    (g.triggered = false → g.desc.trig = 0#64 → gridTriggers s id = true →
      ∃ t, exec (.gridComplete id) s = .next t ∧ t = { s with grids := t.grids } ∧ t.grid? id = some { g with triggered := true }) ∧
    (g.triggered = false → g.desc.trig ≠ 0#64 → gridTriggers s id = true → ∀ s1,
      plainWrite s (gridReach g.chain g.ctx id 0) (g.chain / 64) g.desc.trig (leBytes 8 g.seq.toNat) = .done () s1 → s1.grids = s.grids →
      ∃ t, exec (.gridComplete id) s = .next t ∧ t = { s1 with grids := t.grids } ∧ t.grid? id = some { g with triggered := true }) ∧
    (g.triggered = true → ∃ t, exec (.gridComplete id) s = .next t ∧
      t = { s with grids := t.grids, spans := t.spans, groups := t.groups, chains := t.chains } ∧
      t.grid? id = some { g with status := .complete } ∧ (∀ x ∈ t.groups, x.2.grid ≠ id) ∧ (∀ x ∈ t.spans, x.2.grid ≠ id) ∧
      (∀ k x, s.group? k = some x → x.grid ≠ id → t.group? k = some x) ∧
      ∀ e ∈ (t.chain g.chain).entries, e.id = g.entryId → e.done = true ∧ e.aborted = g.failed)) ∧
  ∀ (s s1 : State) (id : Nat) (g : Grid), s.grid? id = some g → g.status = .cancelled → g.triggered = false → g.desc.trig ≠ 0#64 →
    plainWrite s (gridReach g.chain g.ctx id 0) (g.chain / 64) g.desc.trig (leBytes 8 (g.seq ||| 0x8000000000000000#64).toNat) = .done () s1 →
    s1.grids = s.grids →
    ∃ t, exec (.gridComplete id) s = .next t ∧ t.mem = s1.mem ∧ t.grid? id = some { g with triggered := true } ∧
      ∀ e ∈ (t.chain g.chain).entries, e.id = g.entryId → e.done = true ∧ e.aborted = true

/-- R173, R174, R296–R298: a squad is evicted reconverged, in full of a halted group or 36,000 cycles after the request, or its request is
noted; what a save writes to its slots is what the reload of its names reads from them. -/
def Obligations.squad_eviction : Prop :=
  (∀ f : Files, f.Sound → f.spill.reloaded f.toSlots = f) ∧
  ∀ (s s1 : State) (key : Nat) (q : Squad), MaySave s key q s1 → squadWanted s q = true →
    let done (full : Bool) (t : State) : Prop :=
      t = { s1 with squads := t.squads } ∧ ∀ q1, s1.squad? key = some q1 → t.squad? key = some (away full q1)
    ((∀ g, s.group? q.groupKey = some g → g.halted = false) → q.reconverged = true →
      ∃ t, exec (.squadEvict key) s = .next t ∧ done false t) ∧
    (∀ g, s.group? q.groupKey = some g → g.halted = true → ∃ t, exec (.squadEvict key) s = .next t ∧ done true t) ∧
    ((∀ g, s.group? q.groupKey = some g → g.halted = false) → q.reconverged = false → q.evictSince = none →
      ∃ t, exec (.squadEvict key) s = .next t ∧ t = { s with squads := t.squads } ∧
        t.squad? key = some { q with evictSince := some s.cycle }) ∧
    ∀ u, q.evictSince = some u → u + 36000 ≤ s.cycle → ∃ t, exec (.fullSaveTimeout key) s = .next t ∧ done true t

/-- R160, R262, R296, R299: a group whose squads are away leaves its core, and what it held there is kept and freed. -/
def Obligations.group_eviction : Prop :=
  ∀ (s : State) (gk : Nat) (x : Group), s.group? gk = some x → x.status = .placed → groupWanted s x = true → squadsAway s gk = true →
    groupWork s gk false = false → (∀ r ∈ (s.core x.core).rs, groupOfSquad r.squad ≠ gk) → x.pair = false →
    ∃ t v, exec (.groupEvict gk) s = .next t ∧ t.group? gk = some { x with status := .evicted, saved := some v } ∧ t.squads = s.squads ∧
      t.mem = s.mem ∧
      (x.matrix = true → v.tiles = (s.core x.core).tiles ∧ (t.core x.core).tileOwner = none ∧ (t.core x.core).tiles = []) ∧
      (x.clause = true → v.clause = some (s.cluster (clusterOf x.core)).clause ∧ (t.cluster (clusterOf x.core)).clauseOwner = none) ∧
      (∀ r ∈ (t.core x.core).sync, r.key / 2 ^ 32 ≠ gk) ∧
      ∀ r ∈ (s.core x.core).sync, r.key / 2 ^ 32 = gk → r.key ∈ t.sharedLost

/-- R160, R222, R223, R300, R301: an evicted squad comes back to its group's core; an evicted group to a core of its die, with its tiles and
clause array; an idempotent group is discarded, its squads at their region's entry with nothing mapped and its window as at its placement; it
restarts on a core it is given. -/
def Obligations.groups_come_back : Prop :=
  ((∀ (s : State) (key : Nat) (q : Squad) (g : Group) (d : Grid), s.squad? key = some q → q.ended = false → q.residency ≠ .resident →
    s.group? q.groupKey = some g → g.status = .placed → squadFits s q = true → s.grid? q.grid = some d →
    ctxPaused s d.ctx = false → yieldsTo s d = false → q.events = [] →
    ∃ t, exec (.squadRestore (.squad key)) s = .next t ∧ t = { s with squads := t.squads } ∧
      t.squad? key = some { q with residency := .resident, slot := (s.freeSlots g.core).headD 0 } ∧
      ∀ k, k ≠ key → t.squad? k = s.squad? k) ∧
  ∀ (s : State) (gk core : Nat) (x : Group) (d : Grid) (v : SavedGroup), s.group? gk = some x → x.status = .evicted → x.saved = some v →
    groupFits s x core = true → s.grid? x.grid = some d → ctxPaused s d.ctx = false → yieldsTo s d = false →
    (∀ k q, groupOfSquad k = gk → s.squad? k = some q → q.ended = false ∧ q.events = []) → x.pair = false →
    ∃ t y, exec (.squadRestore (.group gk core)) s = .next t ∧ t.group? gk = some y ∧
      y = { x with core := core, shUnit := y.shUnit, status := .placed, saved := none } ∧ t.mem = s.mem ∧
      (x.matrix = true → (t.core core).tileOwner = some gk ∧ (t.core core).tiles = v.tiles) ∧
      (x.clause = true → ∀ a, v.clause = some a → (t.cluster (clusterOf core)).clauseOwner = some gk ∧ (t.cluster (clusterOf core)).clause = a) ∧
      ∀ k q, groupOfSquad k = gk → s.squad? k = some q → ∃ n, t.squad? k = some { q with residency := .resident, slot := n }) ∧
  (∀ (s : State) (gk : Nat) (x : Group) (d : Grid), s.group? gk = some x → x.status = .placed → groupWanted s x = true → idempotent s gk x = true →
    groupWork s gk true = false → s.grid? x.grid = some d →
    ∃ t y, exec (.groupDiscard gk) s = .next t ∧ t.mem = s.mem ∧ t.group? gk = some y ∧ y.status = .discarded ∧ y.tags = [] ∧
      (∀ a, memRead y.shared a = d.args.getD a 0#8) ∧
      ∀ k q r, groupOfSquad k = gk → s.squad? k = some q → q.region = some r → ∃ q', t.squad? k = some q' ∧
        q'.files = { v := [], s := [], a := [] } ∧ q'.fctl = r.fctl ∧ q'.fflags = r.fflags ∧ q'.glideEn = r.glideEn ∧ q'.region = some r ∧
        q'.residency = .evicted false ∧ q'.tvec = q.tvec ∧ q'.perfReq = q.perfReq ∧
        ∀ L, L < 32 → (q'.lane L).pc = r.entry ∧ (r.lanes.getLsbD L = true → (q'.lane L).kind = .live)) ∧
  ∀ (s : State) (gk core : Nat) (x : Group) (d : Grid), s.group? gk = some x → x.status = .discarded → groupFits s x core = true →
    s.grid? x.grid = some d → ctxPaused s d.ctx = false → yieldsTo s d = false →
    (∀ k q, groupOfSquad k = gk → s.squad? k = some q → q.ended = false ∧ q.events = []) →
    ∃ t y, exec (.groupRestart gk core) s = .next t ∧ t.mem = s.mem ∧ t.group? gk = some y ∧
      y = { x with core := core, shUnit := y.shUnit, status := .placed, saved := none } ∧
      ∀ k q, groupOfSquad k = gk → s.squad? k = some q → ∃ n, t.squad? k = some { q with residency := .resident, slot := n }

namespace Sys2Proof.Machine

/-! ### Engines at work -/

/-- R93, R127: a byte at a copy's source: as the copy read its unit, or as it stands where the copy has not read the unit yet. -/
def sourceAt (s : State) (c : Copy) (ps : Pages) (a : Nat) : Byte :=
  let u := a / c.srcUnit
  match mapGet c.taken u with
  | some v => BitVec.ofNat 8 (v / 256 ^ (a % c.srcUnit))
  | none =>
    match spaceOf c.src.space with
    | none =>
      let f := ps.find (c.srcUnit * u) false
      s.readPhys (s.key f.2.1).keyId (f.1 + a % c.srcUnit)
    | some sp => memRead (winMem s (s.squadOr c.squad) sp) a

/-- R63, R93: what lands of a piece, and where. -/
def pieceBytes (s : State) (c : Copy) (p : Nat) (ps : Pages) : List (Nat × Byte) :=
  (c.bytes p).map fun b => (b.at_, BitVec.ofNat 8 (leNat (b.src.map (sourceAt s c ps)) / 2 ^ b.shift % 2 ^ b.bits))

/-- The main memory after bytes at translated addresses. -/
def writeMain (s : State) (ps : Pages) (bs : List (Nat × Byte)) : State :=
  bs.foldl (fun u x => u.writePhys (u.key (ps.find x.1 true).2.1).keyId (ps.find x.1 true).1 x.2) s

/-- A piece of a copy that may land: its copy runs, its pages are at hand and in no watched range, and its slice draws its current. -/
structure MayLand (s : State) (copy p core : Nat) (c : Copy) (ps : Pages) (q : Squad) (s1 : State) : Prop where
  found : s.findCopy copy = some (core, c)
  may : c.open_ s p = true
  pages : piecePages s core c p = .ok ps s1
  unwatched : ∀ x ∈ ps, x.2.2.2 = false
  power : ∃ r, s1.reservation (clusterOf core) resCopy (sliceOwner c (c.slice p)) = some r ∧ r.granted = true
  whole : c.broken = []
  squad : s1.squad? c.squad = some q ∧ q.ended = false
  home : (s1.group? q.groupKey).isSome = true ∧ (s1.span? (s1.spanOf q)).isSome = true
  still : NoGlides s1

/-- A matrix operation that completes now: it heads its FIFO, its cycles are over, its group runs on, and its arrival completes no barrier. -/
structure OpEnds (s : State) (core : Nat) (o : MxOp) (rest : List MxOp) (q : Squad) : Prop where
  head : (s.core core).fifo = o :: rest
  started : o.started = true ∧ o.startedAt + (if o.kind = .zero then 1 else 32) ≤ s.cycle + 1
  reads : rsBefore s core o = false
  barrier : o.barrier = 15 ∨ ∀ g, s.group? (groupOfSquad o.squad) = some g → (g.bar o.barrier).arrived + 1 ≠ (g.bar o.barrier).count
  squad : s.squad? o.squad = some q ∧ q.ended = false
  home : (s.group? q.groupKey).isSome = true ∧ (s.span? (s.spanOf q)).isSome = true
  still : NoGlides s

/-- R238, R239: an FP32 element of a row-major map. -/
def word32At (m : Memory) (r : TensorRec) (i j : Nat) : Nat := memNat m (r.base.toNat + i * r.stride.toNat + 4 * j) 4

/-- R58, R234: an element of a chunk, exactly. -/
def chunkOf (m : Memory) (o : MxOp) (i j : Nat) : Num :=
  sumNum ((List.range (kOf o.a.format.toNat o.b.format.toNat)).map fun x =>
    mulNum (elemValue m o.a (o.row + i) (o.off + x)) (elemValue m o.b j (o.off + x)))

end Sys2Proof.Machine

/-- R70, R91, R93, R94, R102, R322: a copy starts, or its records stop it; a piece lands, moving its bytes, lowering the landing register by those that
land, raising the sync word by them; what a copy cannot read faults it. What a piece is, and that a piece's source is read in whole units, is the
model's (log 19). -/
def Obligations.copies_run : Prop :=
  (∀ (s : State) (core : Nat) (c : Copy), (s.core core).copies.find? (!·.started) = some c →
    (c.recordFault s = none → ∃ t, exec (.copyStart core) s = .next t ∧ t = { s with cores := t.cores } ∧
      (t.core core).copies = (s.core core).copies.map (fun x => if x.id = c.id then { c with started := true } else x)) ∧
    ∀ f q, c.recordFault s = some f → s.squad? c.squad = some q → q.ended = false → q.glide = none →
      ∃ t q', exec (.copyStart core) s = .next t ∧ t.mem = s.mem ∧ (∀ x ∈ (t.core core).copies, x.id ≠ c.id) ∧
        t.squad? c.squad = some q' ∧ (∀ o ∈ q'.ops, o.id = c.id → o.done = true ∧ o.fault = some f) ∧
        (c.landing = none → q'.files = q.files) ∧
        ∀ k, c.landing = some k → (∃ o ∈ q.ops, o.id = c.id ∧ o.done = false) → q'.files = q.files.writeS k 0#64) ∧
  (∀ (s : State) (c : Copy),
    (c.src.code ≠ 0 → c.recordFault s = some { sub := 1#16, addr := BitVec.ofNat 64 (c.srcTid + 256 * c.src.code) }) ∧
    (c.src.code = 0 → c.dst.code ≠ 0 → c.recordFault s = some { sub := 1#16, addr := BitVec.ofNat 64 (c.dstTid + 256 * c.dst.code) }) ∧
    (c.src.code = 0 → c.dst.code = 0 → (c.src.format ≠ c.dst.format ∨ c.src.block ≠ c.dst.block) →
      c.recordFault s = some { sub := 2#16, addr := BitVec.ofNat 64 (c.srcTid + 256 * c.dstTid) }) ∧
    (c.src.code = 0 → c.dst.code = 0 → c.src.format = c.dst.format → c.src.block = c.dst.block → c.kind = .plain →
      c.src.rows < c.r0 + c.dst.rows → c.recordFault s = some { sub := 3#16, addr := BitVec.ofNat 64 (c.r0 + c.dst.rows) })) ∧
  (∀ (s s1 : State) (copy p core : Nat) (c : Copy) (ps : Pages) (q : Squad), MayLand s copy p core c ps q s1 → lostByte s1 c p ps = none →
    ∃ t q', exec (.copyPieceLand copy p true) s = .next t ∧ t.squad? c.squad = some q' ∧
      (spaceOf c.dst.space = none → t.mem = (writeMain s1 ps (pieceBytes s1 c p ps)).mem ∧ t.unitKeys = (writeMain s1 ps (pieceBytes s1 c p ps)).unitKeys) ∧
      (spaceOf c.dst.space ≠ none → t.mem = s1.mem ∧ t.unitKeys = s1.unitKeys) ∧
      (∀ sp, ¬(sp = .scratch ∧ c.raises = true) → winMem t q sp =
        if spaceOf c.dst.space = some sp then (pieceBytes s1 c p ps).foldl (fun m x => memWrite m x.1 x.2) (winMem s1 q sp) else winMem s1 q sp) ∧
      (c.raises = true → c.dst.space ≠ 2#8 →
        readSync (winMem t q .scratch) c.dst.sync.toNat = ((readSync (winMem s1 q .scratch) c.dst.sync.toNat).arrive (c.size p)).1) ∧
      (c.landing = none → q'.files = q.files) ∧
      (∀ k, c.landing = some k → (∃ o ∈ q.ops, o.id = c.id ∧ o.done = false) →
        q'.files = q.files.writeS k (q.files.readS k - BitVec.ofNat 64 (c.size p))) ∧
      (let own := s1.part (slotOf (c.ctx s1))
       (t.part (slotOf (c.ctx s1))).latencies =
         if own.critical = true ∧ own.status = .sealed ∧ c.src.space = 0#8 ∧ c.newBytes p ≠ [] then
           (match c.issued.find? (·.piece == p) with | some i => s1.ns - i.at_ | none => 0) :: own.latencies
         else own.latencies) ∧
      (c.landed.length + 1 = c.due.length → (∀ x ∈ (t.core core).copies, x.id ≠ c.id) ∧ ∀ o ∈ q'.ops, o.id = c.id → o.done = true) ∧
      (c.landed.length + 1 ≠ c.due.length → ∀ x ∈ (t.core core).copies, x.id = c.id → x.landed = p :: c.landed ∧
        (∀ u v, mapGet c.taken u = some v → mapGet x.taken u = some v) ∧
        ∀ a ∈ c.srcBytes p, BitVec.ofNat 8 ((mapGet x.taken (a / c.srcUnit)).getD 0 / 256 ^ (a % c.srcUnit)) = sourceAt s1 c ps a)) ∧
  (∀ (s : State) (c : Copy) (ps : Pages) (k y : Nat), c.kind ≠ .scatter → c.src.layout = 0#8 → c.dst.layout = 0#8 → c.src.width % 8 = 0 →
    0 < c.src.width → c.src.width = c.dst.width → c.src.mx = false → c.dst.mx = false → k < c.dst.rows →
    let bytes := c.dst.cols * (c.dst.width / 8)
    let u := if c.dst.space = 0#8 then 8 else 4
    let row := if c.kind = .plain then c.r0 + k else c.index.getD k 0
    u * y < bytes →
    let p := k * ((bytes + u - 1) / u) + y
    p < c.pieces ∧ c.size p = Nat.min u (bytes - u * y) ∧
    pieceBytes s c p ps = (List.range (Nat.min u (bytes - u * y))).map fun j =>
      (c.dst.base.toNat + k * c.dst.stride.toNat + u * y + j,
        sourceAt s c ps (c.src.base.toNat + row * c.src.stride.toNat + c.c0 * (c.src.width / 8) + u * y + j))) ∧
  ∀ (s s1 : State) (copy p core : Nat) (c : Copy) (ps : Pages) (q : Squad) (a : Nat) (ok : Bool), MayLand s copy p core c ps q s1 →
    (lostByte s1 c p ps = some a ∨ lostByte s1 c p ps = none ∧ readsDram s1 c p ps = some a ∧ ok = false) →
    (∀ x ∈ c.due, c.rank x < c.rank p → x ∈ c.landed) →
    ∃ t q', exec (.copyPieceLand copy p ok) s = .next t ∧ t.squad? c.squad = some q' ∧ (∀ x ∈ (t.core core).copies, x.id ≠ c.id) ∧
      ∀ o ∈ q'.ops, o.id = c.id → o.done = true ∧ o.fault = some { sub := 0x12#16, addr := BitVec.ofNat 64 a }

/-- R230, R232, R234–R244, R251, R261: matrix operations start and complete, row statistics and clause commands reply. -/
def Obligations.engines_complete : Prop :=
  (∀ (s : State) (core : Nat) (o : MxOp) (rest : List MxOp) (r : Reservation), (s.core core).fifo = o :: rest → o.started = false →
    (o.kind = .pair → (s.core (core + 1)).fifo = []) → s.reservation (clusterOf core) resMatrix core = some r → r.granted = true →
    let takes (c : Nat) : Prop := c = core ∨ o.kind = .pair ∧ c = core + 1
    ((∃ c, takes c ∧ (s.core c).array = .idle) →
      ∃ t, exec (.matrixOpStart core) s = .next t ∧ t = { s with cores := t.cores } ∧
        ∀ c, t.core c = { s.core c with array := if takes c ∧ (s.core c).array = .idle then .rampUp s.cycle else (s.core c).array }) ∧
    ((∀ c, takes c → (s.core c).array = .busy ∨ (∃ n, (s.core c).array = .rampDown n) ∨ ∃ n, (s.core c).array = .rampUp n ∧ n + 24 ≤ s.cycle) →
      (∀ x ∈ rest, x.id ≠ o.id) →
      ∃ t, exec (.matrixOpStart core) s = .next t ∧ t = { s with cores := t.cores } ∧ (∀ c, takes c → (t.core c).array = .busy) ∧
        (∀ c, c ≠ core → t.core c = { s.core c with array := (t.core c).array }) ∧
        t.core core = { s.core core with
          array := .busy, fifo := { o with started := true, startedAt := s.cycle } :: rest,
          burst := (s.core core).burst.bind fun b => if b.left ≤ 1 then none else some { left := b.left - 1, since := s.cycle } })) ∧
  (∀ (s : State) (core : Nat) (o : MxOp) (rest : List MxOp) (q : Squad), OpEnds s core o rest q →
    let m := winMem s q .shared
    let old (c : Nat) : Tile := (s.core c).tile o.tile
    let start (c i j : Nat) : Machine.Num := if o.acc then val32 ((old c).at_ i j) else .fin false 0 0
    ∃ t q', exec (.matrixOpComplete core) s = .next t ∧ (t.core core).fifo = rest ∧ t.mem = s.mem ∧
      (∀ c, c = core ∨ o.kind = .pair ∧ c = core + 1 →
        (t.core c).array = if (s.core c).burst.isSome then .busy else .rampDown (s.cycle + 1)) ∧
      t.reservation (clusterOf core) resMatrix core = none ∧ t.squad? o.squad = some q' ∧
      q'.files = q.files ∧ (∀ x ∈ q'.ops, x.id = o.id → x.done = true) ∧
      (∀ r rs, (s.core core).rs = r :: rs → r.startedAt = none → (∀ x ∈ tileOps t core, r.id ≤ x.id) →
        (t.core core).rs = { r with startedAt := some (s.cycle + 1) } :: rs) ∧
      (∀ g, o.barrier ≠ 15 → s.group? (groupOfSquad o.squad) = some g → o.barrier < g.barriers.length →
        ∃ g', t.group? (groupOfSquad o.squad) = some g' ∧ (g'.bar o.barrier).epend = (g.bar o.barrier).epend - 1 ∧
          (g'.bar o.barrier).arrived = (g.bar o.barrier).arrived + 1 ∧ (g'.bar o.barrier).phase = (g.bar o.barrier).phase ∧
          (g'.bar o.barrier).count = (g.bar o.barrier).count) ∧
      (∀ n, n ≠ o.tile → (t.core core).tile n = (s.core core).tile n) ∧
      (o.kind = .zero → ∀ i j, i < 64 → j < 64 → ((t.core core).tile o.tile).at_ i j = 0#32 ∧ ((t.core core).tile o.tile).set = false) ∧
      (o.kind = .ldacc → o.a.layout = 0#8 → o.a.width = 32 → o.a.mx = false →
        ((t.core core).tile o.tile).set = true ∧ ((t.core core).tile o.tile).pair = (one32, one32) ∧
        ∀ i j, i < 64 → j < 64 → ((t.core core).tile o.tile).at_ i j =
          let w := word32At m o.a (o.row + i) (o.off + j)
          if (fp32.decode w).isNan then 0x7FC00000#32 else BitVec.ofNat 32 w) ∧
      (o.kind = .mma → (∀ i j, i < 64 → j < 64 → ((t.core core).tile o.tile).at_ i j = rne32 (addNum (start core i j) (chunkOf m o i j))) ∧
        ((t.core core).tile o.tile).pair = if o.acc ∧ (old core).set then (old core).pair else (o.a.tscale, o.b.tscale)) ∧
      (o.kind = .pair → ∀ h, h < 2 → (∀ i j, i < 64 → j < 64 → ((t.core (core + h)).tile o.tile).at_ i j =
          rne32 (addNum (start (core + h) i j) (chunkOf m o (64 * h + i) j))) ∧
        ((t.core (core + h)).tile o.tile).pair = if o.acc ∧ (old (core + h)).set then (old (core + h)).pair else (o.a.tscale, o.b.tscale)) ∧
      (o.kind ≠ .drain → winMem t q .shared = m ∧ winMem t q .scratch = winMem s q .scratch) ∧
      (o.kind = .drain → (t.core core).tile o.tile = old core ∧ ∀ sp, winMem t q sp =
        if spaceOf o.a.space = some sp then (drainBytes o.cutA (old core)).foldl (fun m x => memWrite m x.1 x.2) (winMem s q sp) else winMem s q sp)) ∧
  (∀ (s : State) (core : Nat) (b : Burst), (s.core core).burst = some b → b.since + 256 ≤ s.cycle →
    ∃ t, exec (.mxBurstHoldExpire core) s = .next t ∧ (t.core core).burst = none ∧ (t.core core).fifo = (s.core core).fifo ∧
      ((s.core core).fifo ≠ [] → (t.core core).array = (s.core core).array) ∧
      ((s.core core).fifo = [] → (t.core core).array = .rampDown s.cycle ∧ t.reservation (clusterOf core) resMatrix core = none)) ∧
  (∀ (s : State) (core : Nat) (o : MxOp) (rest : List MxOp) (g : Group), (s.core core).fifo = o :: rest → o.started = true →
    o.startedAt + (if o.kind = .zero then 1 else 32) ≤ s.cycle + 1 → rsBefore s core o = false → o.barrier ≠ 15 →
    s.group? (groupOfSquad o.squad) = some g → o.barrier < g.barriers.length → (g.bar o.barrier).arrived + 1 = (g.bar o.barrier).count →
    NoGlides s → (∀ x ∈ s.squads, ∀ y ∈ x.2.ops, y.race = none) → (o.kind = .zero) →
    ∃ t g', exec (.matrixOpComplete core) s = .next t ∧ t.group? (groupOfSquad o.squad) = some g' ∧
      (g'.bar o.barrier).epend = (g.bar o.barrier).epend - 1 ∧ (g'.bar o.barrier).arrived = 0 ∧
      (g'.bar o.barrier).phase = ((g.bar o.barrier).phase + 1) % 65536) ∧
  (∀ (s : State) (core n : Nat), (s.core core).array = .rampDown n → n + 16 ≤ s.cycle →
    ∃ t, exec (.arrayRampDownEnd core) s = .next t ∧ t = { s with cores := t.cores } ∧ t.core core = { s.core core with array := .idle }) ∧
  (∀ (s : State) (core n : Nat) (r : RsOp) (rest : List RsOp) (q : Squad), (s.core core).rs = r :: rest → r.startedAt = some n →
    n + 16 ≤ s.cycle + 1 → s.squad? r.squad = some q → q.ended = false → q.glide = none → r.d ≤ 125 →
    ∃ t q', exec (.rsRowComplete core) s = .next t ∧ t.squad? r.squad = some q' ∧ (∀ x ∈ (t.core core).rs, x.id ≠ r.id) ∧ t.mem = s.mem ∧
      (∀ r2 rs, rest = r2 :: rs → (∀ x ∈ rest, x.id ≠ r.id) → r2.startedAt = none → (∀ x ∈ tileOps s core, r2.id ≤ x.id) →
        (t.core core).rs = { r2 with startedAt := some (s.cycle + 1) } :: rs) ∧
      (∀ o ∈ q'.ops, o.id = r.id → o.done = true) ∧ q'.files.s = q.files.s ∧ q'.files.a = q.files.a ∧
      ∀ L, L < 32 →
        let y := rowStats ((s.core core).tile r.tile) (L + if r.half then 32 else 0)
        let now (n : Nat) : Word32 := (q'.files.readV n).getD L 0#32
        (r.lanes.getLsbD L = true → now r.d = y.1 ∧ now (r.d + 1) = y.2.1 ∧ now (r.d + 2) = y.2.2) ∧
        ∀ n, (r.lanes.getLsbD L = false ∨ n < r.d ∨ r.d + 2 < n) → now n = (q.files.readV n).getD L 0#32) ∧
  ∀ (s : State) (cl : Nat) (r : ClaRun) (v : Reservation) (q : Squad), (s.cluster cl).clauseRun = some r →
    s.reservation cl resClause r.id = some v → v.granted = true → v.at_ + r.cycles ≤ s.cycle + 1 → s.squad? r.squad = some q → q.ended = false →
    q.glide = none →
    ∃ t q', exec (.claCommandComplete cl) s = .next t ∧ (t.cluster cl).clauseRun = none ∧ (t.cluster cl).clause = (s.cluster cl).clause ∧
      t.reservation cl resClause r.id = none ∧ t.squad? r.squad = some q' ∧ q'.files = writeResult q.files r.d (.uniform r.reply) ∧
      (∀ o ∈ q'.ops, o.id = r.id → o.done = true) ∧ t.mem = s.mem

/-- R294, R295: an engine error: a machine check of the poster, EngineError, with the engine and the function; what the operation leaves. -/
def Obligations.engine_errors : Prop :=
  (∀ (s : State) (key : Nat) (q : Squad) (cause sub : BitVec 16) (addr : Word64), s.squad? key = some q → q.glide = none →
    let m := q.live &&& ~~~(q.events.foldl (fun m e => m ||| e.lanes) 0#32)
    let pc := (q.lane (lowLane m)).pc
    machineCheck s key cause sub addr = raise s key
      { cause := cause, sub := sub, lanes := m, pc := pc, addr := addr, lane := lowLane m, level := 0xFE, node := 0, slot := 0,
        resume := pc, words := [], other := 0#32, toStvec := true, inHandler := false, halts := false, raisedAt := 0 }) ∧
  (∀ (s : State) (core : Nat) (o : MxOp) (rest : List MxOp), (s.core core).fifo = o :: rest → o.started = true → o.barrier = 15 →
    ∃ s1, exec (.engineError (.matrix core)) s = .next (releaseGroup (machineCheck s1 o.squad 0x21#16 1#16
        (BitVec.ofNat 64 (1 + 256 * (match o.kind with | .mma => 0 | .pair => 1 | .zero => 2 | .ldacc => 3 | .drain => 4)))) (groupOfSquad o.squad)) ∧
      s1.mem = s.mem ∧ (s1.core core).fifo = rest ∧ ∀ c, c = core ∨ o.kind = .pair ∧ c = core + 1 →
        ∀ i j, i < 64 → j < 64 → ((s1.core c).tile o.tile).at_ i j = 0x7FC00000#32) ∧
  (∀ (s : State) (core : Nat) (r : RsOp) (rest : List RsOp) (q : Squad), (s.core core).rs = r :: rest → r.startedAt ≠ none → s.squad? r.squad = some q →
    q.ended = false → q.glide = none → r.d ≤ 125 →
    ∃ s1 q', exec (.engineError (.rowStats core)) s = .next (machineCheck s1 r.squad 0x21#16 2#16 2#64) ∧ s1.squad? r.squad = some q' ∧
      (∀ x ∈ (s1.core core).rs, x.id ≠ r.id) ∧
      ∀ n L, r.d ≤ n → n ≤ r.d + 2 → L < 32 → r.lanes.getLsbD L = true → (q'.files.readV n).getD L 0#32 = 0x7FC00000#32) ∧
  (∀ (s : State) (cl : Nat) (r : ClaRun) (q : Squad), (s.cluster cl).clauseRun = some r → s.squad? r.squad = some q → q.glide = none →
    ∃ s1 q' w, exec (.engineError (.clause cl)) s = .next (releaseGroup (machineCheck s1 r.squad 0x21#16 3#16 (BitVec.ofNat 64 (3 + 256 * r.fn)))
        (groupOfSquad r.squad)) ∧
      (s1.cluster cl).clauseRun = none ∧
      (s1.cluster cl).clause = Clause.cleared (s.cluster cl).clause.vars (s.cluster cl).clause.cols ∧
      s1.squad? r.squad = some q' ∧ q'.files = writeResult q.files r.d (.uniform w) ∧ ∀ o ∈ q'.ops, o.id = r.id → o.done = true) ∧
  ∀ (s : State) (copy core : Nat) (c : Copy) (q : Squad), s.findCopy copy = some (core, c) → c.started = true → s.squad? c.squad = some q →
    q.ended = false →
    ∃ s1 q', ((∃ o ∈ q.ops, o.id = c.id ∧ o.done = false) → exec (.engineError (.nearCopy copy)) s = .next (machineCheck s1 c.squad 0x21#16 4#16
        (BitVec.ofNat 64 (256 * (match c.kind with | .plain => 0 | .gather => 6 | .scatter => 7))))) ∧
      ((∀ o ∈ q.ops, o.id = c.id → o.done = true) → exec (.engineError (.nearCopy copy)) s = .next s1) ∧
      (∀ x ∈ (s1.core core).copies, x.id ≠ c.id) ∧ s1.squad? c.squad = some q' ∧ ∀ o ∈ q'.ops, o.id = c.id → o.done = true

namespace Sys2Proof.Machine

/-! ### Chains -/

/-- R108: the far context of an engine that its next beat serves, and the beats then left to it. -/
def serves (s : State) (engine : Nat) (r : FarRound) : Prop :=
  let now := (mapGet s.rounds engine).getD { ctx := 7, beats := 0 }
  let work (c : Nat) : Prop := hasWork s (8 * engine + c) = true
  let w (c : Nat) : Nat := (s.chain (8 * engine + c)).weight
  (0 < now.beats ∧ work now.ctx ∧ r = { now with beats := now.beats - 1 }) ∨
    ¬(0 < now.beats ∧ work now.ctx) ∧ r.ctx < 8 ∧ work r.ctx ∧ r.beats = w r.ctx - 1 ∧ (w r.ctx = 0 → ∀ c, c < 8 → work c → w c = 0) ∧
      ∀ c, c < 8 → work c → (0 < w c ∨ w r.ctx = 0) → (r.ctx + 7 - now.ctx) % 8 ≤ (c + 7 - now.ctx) % 8

/-- An entry at a chain's head that is performed: nothing is wrong with it, and its fence holds nothing up. -/
structure EntryNext (s : State) (h : Nat) (e : FarEntry) (next : Word64) (s1 : State) : Prop where
  got : fetchHead s h = .got e next s1
  sound : e.defect s1 = none
  fence : e.fence = true → (s1.chain h).entries = []

/-- R107: the far context with an entry among those in execution. -/
def withEntry (c : FarCtx) (e : FarEntry) (next : Word64) : FarCtx :=
  { c with head := next, atEnd := next == 0#64, entries := c.entries ++ [e] }

/-- The first entry in execution of a chain that meets a condition. -/
structure FirstOf (s : State) (h : Nat) (p : FarEntry → Bool) (pre post : List FarEntry) (e : FarEntry) : Prop where
  is : (s.chain h).entries = pre ++ e :: post
  before : ∀ x ∈ pre, p x = false
  this : p e = true

/-- R108: a beat that moves or fails leaves only its entry changed. -/
def entryAfter (s1 t : State) (h : Nat) (e e' : FarEntry) : Prop :=
  t = { s1 with chains := t.chains } ∧ (∀ k, k ≠ h → t.chain k = s1.chain k) ∧
    t.chain h = { s1.chain h with entries := (s1.chain h).entries.map fun x => if x.id = e.id then e' else x }

/-- An entry of a chain that is the first to meet a condition, no other with its number, that waits at no page request. -/
structure GoesOn (s : State) (h : Nat) (p : FarEntry → Bool) (pre post : List FarEntry) (e : FarEntry) : Prop where
  first : FirstOf s h p pre post e
  apart : ∀ x ∈ pre ++ post, x.id ≠ e.id
  now : s.waitsFor (.far h e.id) = false

/-- R268: an entry whose grid has not joined its queue. -/
def unlaunched (x : FarEntry) : Bool := x.kind == 3 && !x.done && !x.queued

/-- R70, R73, R324: a far context's access to bytes of one page of main memory goes through: its page is translated, backed and under a key of the
partition. -/
structure Reaches (s : State) (r : Reach) (a : Word64) (n : Nat) (need : Need) (l : Leaf) (s1 : State) : Prop where
  main : a.msb = false ∧ a.toNat < 2 ^ 48
  size : 0 < n ∧ a.toNat % 65536 + n ≤ 65536
  now : s.waitsFor r.walker = false ∧ r.walker ∉ s.refused
  page : translate s r.cache r.ctx a.toNat need = (.ok l, s1)
  backed : s1.backs (slotOf r.ctx) l.pa = true
  key : s1.keyOk (slotOf r.ctx) l = true

end Sys2Proof.Machine

/-- R70, R105–R109, R268, R270: a chain's entries begin, move in beats, launch grids, and complete in order; what a far context reads and writes of
main memory, and why it cannot. That an entry's fault takes its place in chain order is the model's reading (log 55). -/
def Obligations.chains_perform : Prop :=
  ((∀ (s s1 : State) (r : Reach) (die n : Nat) (a : Word64) (l : Leaf), Reaches s r a n .read l s1 →
    (s1.sound l.pa n = false → farRead s r die a n = .fail 0x12#16 (BitVec.ofNat 64 a.toNat) s1) ∧
    (s1.sound l.pa n = true → l.watch = false → farRead s r die a n = .done (s1.readPhysN (s1.key l.key).keyId l.pa n) s1)) ∧
  (∀ (s s1 : State) (r : Reach) (die : Nat) (a : Word64) (bs : List Byte) (l : Leaf), Reaches s r a bs.length .write l s1 → l.watch = false →
    ∃ t, farWrite s r die a bs = .done () t ∧ t = { s1 with mem := t.mem, unitKeys := t.unitKeys, spoiled := t.spoiled, stale := t.stale } ∧
      t.mem = (s1.writePhysN (s1.key l.key).keyId l.pa bs).mem ∧ t.unitKeys = (s1.writePhysN (s1.key l.key).keyId l.pa bs).unitKeys) ∧
  (∀ (s : State) (r : Reach) (die n : Nat) (a : Word64), a.msb = false → 0 < n →
    (2 ^ 48 ≤ a.toNat → farRead s r die a n = .fail 0x11#16 (BitVec.ofNat 64 a.toNat) s) ∧
    (a.toNat < 2 ^ 48 → s.waitsFor r.walker = false →
      (r.walker ∈ s.refused →
        farRead s r die a n = .fail 0x11#16 (BitVec.ofNat 64 a.toNat) { s with refused := s.refused.filter (· != r.walker) }) ∧
      (r.walker ∉ s.refused → ∀ l s1, translate s r.cache r.ctx a.toNat .read = (.ok l, s1) →
        (s1.backs (slotOf r.ctx) l.pa = false → farRead s r die a n = .fail 0x10#16 (BitVec.ofNat 64 a.toNat) s1) ∧
        (s1.backs (slotOf r.ctx) l.pa = true → s1.keyOk (slotOf r.ctx) l = false →
          farRead s r die a n = .fail 0x13#16 (BitVec.ofNat 64 a.toNat) s1)) ∧
      (r.walker ∉ s.refused → ∀ f s1, translate s r.cache r.ctx a.toNat .read = (.error f, s1) →
        farRead s r die a n = .wait (s1.request a.toNat r.ctx 0 r.requester f r.walker))))) ∧
  (∀ (s s1 : State) (h slot : Nat) (bs : List Byte), s.chainOwner h = some slot → (s.chain h).run = true → (s.chain h).halted = false →
    (s.chain h).entries.length < (s.chain h).pend → s.waitsFor (.far h 0) = false → (s.chain h).atEnd = false → (s.chain h).head.toNat % 64 = 0 →
    s.ctxRuns (slot * 256 + (s.chain h).ctx) = true →
    farRead s.fresh.2 { farReach h 0 (slot * 256 + (s.chain h).ctx) with
      by_ := some s.fresh.1, poster := advanceAt (s.chain h).advances (s.chain h).entries.length } (h / 64) (s.chain h).head 64 = .done bs s1 →
    let w (at_ : Nat) : Word64 := BitVec.ofNat 64 (leField bs at_ 8)
    fetchHead s h = .got
      { id := s.fresh.1, addr := (s.chain h).head, kind := leField bs 8 1, ctx := slot * 256 + leField bs 9 1, fence := (leField bs 10 1).testBit 0,
        notify := (leField bs 10 1).testBit 1, length := leField bs 12 4, src := w 16, dst := w 24, params := w 32, completion := w 40,
        seq := w 48 &&& 0x7FFFFFFFFFFFFFFF#64, moved := 0, done := false, fault := none, aborted := false, queued := false, peers := [],
        comm := none } (w 0) s1) ∧
  (∀ (s s1 : State) (h : Nat) (e : FarEntry) (next : Word64), EntryNext s h e next s1 →
    ∀ i, (i = .chainCopyEntry h ∧ e.kind = 0) ∨ (i = .chainFillEntry h ∧ e.kind = 1) →
      ∃ t, exec i s = .next t ∧ t = { s1 with chains := t.chains } ∧ (∀ k, k ≠ h → t.chain k = s1.chain k) ∧
        t.chain h = withEntry (s1.chain h) { e with done := e.length == 0 } next) ∧
  ((∀ (s s1 : State) (h : Nat) (e : FarEntry) (next : Word64), EntryNext s h e next s1 → e.kind = 3 →
    (∀ x ∈ (s.chain h).entries, unlaunched x = false) →
    let b := beginEntry s1 h e next
    b = { s1 with chains := b.chains } ∧ (∀ k, k ≠ h → b.chain k = s1.chain k) ∧ b.chain h = withEntry (s1.chain h) e next ∧
      (GoesOn b h unlaunched (s1.chain h).entries [] e → exec (.chainGridLaunchEntry h) s = exec (.chainGridLaunchEntry h) b)) ∧
  ∀ (b : State) (h : Nat) (pre post : List FarEntry) (e : FarEntry), GoesOn b h unlaunched pre post e →
    let r := entryReach b h pre.length e
    let ends (code : Nat) (s : State) : Prop := (s.chain h).entries = (b.chain h).entries →
      ∃ t, exec (.chainGridLaunchEntry h) b = .next t ∧ entryAfter s t h e { e with done := true, fault := some code }
    ((4096 < e.length ∨ e.length % 8 ≠ 0 ∨ 16 ≤ e.params.toNat ∨ e.dst.toNat % 128 ≠ 0) → ends 0x20 b) ∧
    (e.length ≤ 4096 → e.length % 8 = 0 → e.params.toNat < 16 → e.dst.toNat % 128 = 0 →
      (∀ code a s2, farRead b r (h / 64) e.dst 128 = .fail code a s2 → ends (code.toNat % 256) s2) ∧
      (∀ s2, farRead b r (h / 64) e.dst 128 = .wait s2 → exec (.chainGridLaunchEntry h) b = .next s2) ∧
      ∀ bs args s2 s3, farRead b r (h / 64) e.dst 128 = .done bs s2 → farRead s2 r (h / 64) e.src e.length = .done args s3 →
        ((parseDesc bs).ok e.length = false → ends 0x20 s3) ∧
        ((parseDesc bs).ok e.length = true → placeable s3 (slotOf e.ctx) (parseDesc bs) = false → ends 0x21 s3) ∧
        ((parseDesc bs).ok e.length = true → placeable s3 (slotOf e.ctx) (parseDesc bs) = true → (s3.chain h).entries = (b.chain h).entries →
          ∃ t id, exec (.chainGridLaunchEntry h) b = .next t ∧
            t.chain h = { s3.chain h with entries := pre ++ { e with queued := true } :: post } ∧ t.mem = s3.mem ∧
            t.grid? id = some
              { ctx := e.ctx, chain := h, entryAddr := e.addr, entryId := e.id, seq := e.seq, queue := e.params.toNat, desc := parseDesc bs,
                descAddr := e.dst, args := args, status := .queued, acquired := Clock.zero, next := 0, groupsEnded := 0, failed := false,
                triggered := false } ∧
            ∀ c, s3.ctx? e.ctx = some c → ∃ c' k, t.ctx? e.ctx = some c' ∧ mapGet c'.queues e.params.toNat = some k ∧
              k.waiting = ((mapGet c.queues e.params.toNat).getD GridQueue.zero).waiting ++ [id]))) ∧
  (∀ (s : State) (engine : Nat) (r : FarRound) (pre post : List FarEntry) (e : FarEntry), serves s engine r →
    ((mapGet s.rounds engine).getD { ctx := 7, beats := 0 }).ctx < 8 → FirstOf s (8 * engine + r.ctx) FarEntry.moving pre post e →
    (∀ x ∈ pre ++ post, x.id ≠ e.id) →
    let h := 8 * engine + r.ctx
    let s0 : State := { s with rounds := mapSet s.rounds engine r }
    let reach := entryReach s0 h pre.length e
    let n := Nat.min (64 - if e.kind = 0 then (e.src + BitVec.ofNat 64 e.moved).toNat % 8 else 0) (e.length - e.moved)
    let e' : FarEntry := { e with moved := e.moved + n, done := e.moved + n == e.length }
    let becomes (s1 : State) (x : FarEntry) : Prop := (s1.chain h).entries = (s.chain h).entries →
      ∃ t, exec (.farBeat engine) s = .next t ∧ entryAfter s1 t h e x
    (∀ s1, e.kind = 1 →
      farWrite s0 reach (h / 64) (e.dst + BitVec.ofNat 64 e.moved)
        ((List.range n).map fun i => BitVec.ofNat 8 (e.src.toNat / 256 ^ ((e.moved + i) % 8))) = .done () s1 → becomes s1 e') ∧
    (∀ bs s1, e.kind = 0 → farRead s0 reach (h / 64) (e.src + BitVec.ofNat 64 e.moved) n = .done bs s1 →
      (∀ s2, farWrite s1 reach (h / 64) (e.dst + BitVec.ofNat 64 e.moved) bs = .done () s2 → becomes s2 e') ∧
      ∀ code a s2, farWrite s1 reach (h / 64) (e.dst + BitVec.ofNat 64 e.moved) bs = .fail code a s2 →
        becomes s2 { e with done := true, fault := some (code.toNat % 256) }) ∧
    (∀ s1, e.kind = 0 → farRead s0 reach (h / 64) (e.src + BitVec.ofNat 64 e.moved) n = .wait s1 → exec (.farBeat engine) s = .next s1) ∧
    ∀ code a s1, e.kind = 0 → farRead s0 reach (h / 64) (e.src + BitVec.ofNat 64 e.moved) n = .fail code a s1 →
      becomes s1 { e with done := true, fault := some (code.toNat % 256) }) ∧
  ∀ (s : State) (h : Nat) (e : FarEntry) (rest : List FarEntry), (s.chain h).entries = e :: rest → e.done = true → s.waitsFor (.far h e.id) = false →
    let v := if e.fault.isSome ∨ e.aborted = true then e.seq ||| 0x8000000000000000#64 else e.seq
    ∀ s1 fault, ((e.completion = 0#64 ∨ s.ctx? e.ctx = none) ∧ s1 = s ∧ fault = e.fault ∨ e.completion ≠ 0#64 ∧ (s.ctx? e.ctx).isSome = true ∧
        (s1.chain h).entries = (s.chain h).entries ∧
        (farWrite s (entryReach s h 0 e) (h / 64) e.completion (leBytes 8 v.toNat) = .done () s1 ∧ fault = e.fault ∨
          ∃ code a, farWrite s (entryReach s h 0 e) (h / 64) e.completion (leBytes 8 v.toNat) = .fail code a s1 ∧
            fault = some (e.fault.getD (code.toNat % 256)))) →
      ∃ t, exec (.chainEntryComplete h) s = .next t ∧ (t.chain h).entries = rest ∧
        (t.chain h).latest = (if fault.isSome ∨ e.aborted = true then e.seq ||| 0x8000000000000000#64 else e.seq) ∧
        (t.chain h).pend = (s1.chain h).pend - 1 ∧ (t.chain h).halted = ((s1.chain h).halted || fault.isSome) ∧
        (∀ c, fault = some c → (t.chain h).fcode = c) ∧ (e.notify = false → t.mem = s1.mem ∧ t.fns = s1.fns) ∧
        ∀ a more q, (s1.chain h).advances = a :: more → s1.squad? a.squad = some q →
          (a.left ≤ 1 → (t.chain h).advances = more ∧ ∃ q', t.squad? a.squad = some q' ∧ ∀ o ∈ q'.ops, o.id = a.op → o.done = true) ∧
          (1 < a.left → (t.chain h).advances = { a with left := a.left - 1 } :: more)

namespace Sys2Proof.Machine

/-- R110: a participant of a communicator that stands on this device: its far context is the partition's, and its first entry that waits for peers
names the communicator. -/
def participates (s : State) (slot comm : Nat) (m : Member) : Prop :=
  s.chainOwner m.chain = some slot ∧ (∃ pre post, FirstOf s m.chain FarEntry.joining pre post m.entry ∧ m.place = pre.length) ∧
    m.entry.collective.comm = comm ∧ m.entry.length ≠ 0

/-- R110, R337, R338: participants name one operation, every rank is among them, and every device can be reached. That a LENGTH that is no multiple of
a listed FORMAT's size ends an all-gather or all-to-all too is the model's choice (log 57). -/
def Agree (s : State) (slot : Nat) (e : FarEntry) (all : List Peer) : Prop :=
  let p := e.collective
  ∃ c, e.comm = some c ∧ c.count = p.count + 1 ∧ p.op ≤ 3 ∧ (p.op ≤ 1 → (p.format = 4 ∨ p.format = 5 ∨ p.format = 6) ∧ p.red ≤ 2) ∧
    (p.format = 4 → e.length % 4 = 0) ∧ (p.format = 5 ∨ p.format = 6 → e.length % 2 = 0) ∧ all.length = p.count + 1 ∧
    (∀ k, k ≤ p.count → ∃ x ∈ all, x.rank = k) ∧
    (∀ k, k ≤ p.count → leField c.list (8 * k) 1 % 64 ≠ s.podNumber → s.route slot (leField c.list (8 * k) 1 % 64) ≠ 0#12) ∧
    ∀ x ∈ all, x.op = p.op ∧ x.red = p.red ∧ x.format = p.format ∧ x.count = p.count ∧ x.length = e.length ∧ x.listAgrees = true

/-- What a participant of this device brings. -/
def peerOf (m : Member) (comm : Option Comm) (source : List Byte) : Peer :=
  let p := m.entry.collective
  { rank := p.rank, op := p.op, red := p.red, format := p.format, count := p.count, length := m.entry.length, listAgrees := m.entry.comm == comm,
    source := source }

/-- R110: the sources of some participants are read, one after the other. -/
inductive Gathers : State → List Member → List Peer → State → Prop where
  | none (s : State) : Gathers s [] [] s
  | one (s s1 s2 : State) (m : Member) (ms : List Member) (bs : List Byte) (own : List Peer) :
    farRead s (collReach s m.chain m.place m.entry) (m.chain / 64) m.entry.src (m.entry.collective.srcLen m.entry.length) = .done bs s1 →
    Gathers s1 ms own s2 → Gathers s (m :: ms) (peerOf m m.entry.comm bs :: own) s2

/-- R110: their destinations are written. -/
inductive Scatters (srcs : List (List Byte)) : State → List Member → State → Prop where
  | none (s : State) : Scatters srcs s [] s
  | one (s s1 s2 : State) (m : Member) (ms : List Member) :
    farWrite s (collReach s m.chain m.place m.entry) (m.chain / 64) m.entry.dst (destOf m.entry.collective m.entry.length srcs) = .done () s1 →
    Scatters srcs s1 ms s2 → Scatters srcs s (m :: ms) s2

/-- R110: how the entries of some participants end. -/
def membersEnd (s t : State) (ms : List Member) (aborted : Bool) : Prop :=
  t = { s with chains := t.chains } ∧
    ∀ m ∈ ms, ∀ x ∈ (t.chain m.chain).entries, x.id = m.entry.id → x.done = true ∧ (aborted = true → x.aborted = true) ∧
      (aborted = false → x.aborted = m.entry.aborted ∧ x.fault = m.entry.fault)

end Sys2Proof.Machine

/-- R110, R111, R337, R338: collectives gather their participants, those of other devices and those of this one, move the data of all of this device
together, or end without a byte moved; a killed participant or link ends them aborted. -/
def Obligations.collectives_perform : Prop :=
  (∀ (s : State) (slot comm : Nat) (m : Member), mapSorted s.chains = true → (m ∈ members s slot comm ↔ participates s slot comm m)) ∧
  (∀ (s : State) (h : Nat) (peers : List Peer) (pre post : List FarEntry) (e : FarEntry), GoesOn s h FarEntry.joining pre post e →
    let s0 := s.modEntry h e.id fun x => { x with peers := x.peers ++ peers }
    let slot := slotOf e.ctx
    let ms := members s0 slot e.collective.comm
    let far := ms.flatMap (·.entry.peers)
    let all := ms.map (fun m => peerOf m e.comm []) ++ far
    entryAfter s s0 h e { e with peers := e.peers ++ peers } ∧
    (e.comm = none → ∃ t, exec (.chainCollectiveEntry h peers) s = .next t ∧ membersEnd s0 t (ms.filter (·.chain == h)) true) ∧
    ∀ c, e.comm = some c →
      let here (k : Nat) : Prop := leField c.list (8 * k) 1 % 64 = s.podNumber
      let joined (k : Nat) : Prop := if here k then ∃ m ∈ ms, m.entry.collective.rank = k else ∃ x ∈ far, x.rank = k
      ((∃ k, k ≤ e.collective.count ∧ ¬joined k) → all.length ≤ e.collective.count → exec (.chainCollectiveEntry h peers) s = .next s0) ∧
      (((∀ k, k ≤ e.collective.count → joined k) ∨ e.collective.count < all.length) →
        (¬Agree s0 slot e all → ∃ t, exec (.chainCollectiveEntry h peers) s = .next t ∧ membersEnd s0 t ms true) ∧
        (Agree s0 slot e all → ∀ own s1 s2, Gathers s0 ms own s1 → Scatters (sourcesOf e.collective.n (own ++ far)) s1 ms s2 →
          s2.chains = s0.chains → (∀ m ∈ ms, ∀ x ∈ (s0.chain m.chain).entries, x.id = m.entry.id → x = m.entry) →
          ∃ t, exec (.chainCollectiveEntry h peers) s = .next t ∧ membersEnd s2 t ms false))) ∧
  (∀ (s s1 : State) (h : Nat) (peers : List Peer) (e : FarEntry) (next : Word64), EntryNext s h e next s1 → e.kind = 2 →
    (∀ x ∈ (s.chain h).entries, x.joining = false) →
    let e' : FarEntry := { e with comm := mapGet s1.comms (slotOf e.ctx * 2 ^ 24 + e.collective.comm) }
    let b := beginEntry s1 h e' next
    (e.length = 0 → ∃ t, exec (.chainCollectiveEntry h peers) s = .next t ∧ t.chain h = withEntry (s1.chain h) { e' with done := true } next) ∧
    (e.length ≠ 0 → GoesOn b h FarEntry.joining (s1.chain h).entries [] e' →
      exec (.chainCollectiveEntry h peers) s = exec (.chainCollectiveEntry h peers) b)) ∧
  (∀ (p : Params) (len : Nat) (srcs : List (List Byte)), 0 < len → srcs.length = p.n → (∀ b ∈ srcs, b.length = p.srcLen len) →
    (p.op = 2 → (destOf p len srcs).length = p.n * len ∧ ∀ x, x < p.n * len → (destOf p len srcs)[x]? = (srcs.getD (x / len) [])[x % len]?) ∧
    (p.op = 3 → (destOf p len srcs).length = p.n * len ∧ ∀ x, x < p.n * len →
      p.rank < p.n → (destOf p len srcs)[x]? = (srcs.getD (x / len) [])[p.rank * len + x % len]?) ∧
    ∀ f, p.op ≤ 1 → p.fmt = some f → len % p.size = 0 → (destOf p len srcs).length = len ∧
      ∀ i b rest, i < len / p.size → srcs = b :: rest →
        let off := (if p.op = 1 then p.rank * len else 0) + i * p.size
        let wide (x : List Byte) : Nat := (deliver fp32 .near (f.decode (leField x off p.size))).bits
        let step (x : Nat) (y : List Byte) : Nat := (if p.red = 0 then fAdd fp32 .near x (wide y) else fMinMax fp32 (p.red == 1) x (wide y)).bits
        leField (destOf p len srcs) (i * p.size) p.size = (deliver f .near (fp32.decode (rest.foldl step (wide b)))).bits) ∧
  (∀ (s : State) (h rank : Nat) (pre post : List FarEntry) (e : FarEntry), FirstOf s h FarEntry.joining pre post e →
    rank ≠ e.collective.rank → rank ≤ e.collective.count →
    ∃ t, exec (.collectivePeerKill h rank) s = .next t ∧
      ∀ m ∈ members s (slotOf e.ctx) e.collective.comm, ∀ x ∈ (t.chain m.chain).entries, x.id = m.entry.id → x.done = true ∧ x.aborted = true) ∧
  ∀ (s : State) (port : Nat), port < 12 → mapSorted s.chains = true → ∃ t, exec (.floeLinkFail port) s = .next t ∧
    ((∀ c ∈ s.chains, ∀ x ∈ c.2.entries, ¬(x.joining = true ∧ crosses s x port = true)) → t = s) ∧
    ∀ h pre post e, FirstOf s h FarEntry.joining pre post e → crosses s e port = true → s.chainOwner h = some (slotOf e.ctx) → e.length ≠ 0 →
      ∀ x ∈ (t.chain h).entries, x.id = e.id → x.done = true ∧ x.aborted = true

namespace Sys2Proof.Machine

/-! ### Pages and power -/

/-- R71: the index of an address at a level of the tables, and where a leaf of the level ends. -/
def pageShift (level : Nat) : Nat := [33, 27, 21, 16].getD (level - 1) 0
def pageIndex (level va : Nat) : Nat := va / 2 ^ pageShift level % 2 ^ ([15, 6, 6, 5].getD (level - 1) 0)

/-- R73: memory that a walk can read. -/
def walkable (s : State) (table : Nat) : Prop := s.region table ≠ .unbacked ∧ s.region table ≠ .host

/-- R71, R72: the entry of an address in a table, and the frame it names. -/
def pageEntry (s : State) (level table va : Nat) : Nat := memNat s.mem (table + 8 * pageIndex level va) 8
def pageFrame (entry : Nat) : Nat := entry / 2 ^ 16 % 2 ^ 36 * 2 ^ 16

/-- R71–R73: a walk comes to a table of a level. -/
def comesTo (s : State) (root va : Nat) : (level table : Nat) → Prop
  | 0, _ => False
  | 1, table => table = root
  | level + 2, table => ∃ t, comesTo s root va (level + 1) t ∧ walkable s t ∧ (pageEntry s (level + 1) t va).testBit 0 = true ∧
      (pageEntry s (level + 1) t va).testBit 4 = false ∧ table = pageFrame (pageEntry s (level + 1) t va)

/-- R70, R94: how a copy goes on from a piece that faults: it completes with the fault once the pieces before have landed. -/
def pieceFaults (t : State) (core : Nat) (c : Copy) (p : Nat) (f : CopyFault) : Prop :=
  c.broken = [] →
    ((∀ x ∈ c.due, c.rank x < c.rank p → x ∈ c.landed) → (∀ x ∈ (t.core core).copies, x.id ≠ c.id) ∧
      ∀ q, t.squad? c.squad = some q → ∀ o ∈ q.ops, o.id = c.id → o.done = true ∧ o.fault = some f) ∧
    ((∃ x ∈ c.due, c.rank x < c.rank p ∧ x ∉ c.landed) → ∀ x ∈ (t.core core).copies, x.id = c.id → x.broken = [(p, f)])

/-- R21, R76, R78, R94, R128: what the Fail of a request does to the one that waits at it. -/
def afterFail (s1 : State) (r : PageReq) (w : Walker) (o : Out) : Prop :=
  (∀ h id, w = .far h id → o = .next { s1 with refused := w :: s1.refused }) ∧
  (∀ g k, w = .grid g k → o = .next { s1 with refused := w :: s1.refused }) ∧
  (∀ key off, w = .spill key off → o = .next (endGrid s1 (gridOfGroup (groupOfSquad key)))) ∧
  (∀ id p core c, w = .copy id p → s1.findCopy id = some (core, c) → ∃ t va, o = .next t ∧
    pieceFaults t core c p { sub := 0x11#16, addr := BitVec.ofNat 64 va } ∧
    ((va, r.kind == 1) ∈ c.mainBytes p ∧ va / 65536 = r.va / 65536 ∨ va = r.va)) ∧
  ∀ key lane q m, w = .fetch key lane → s1.squad? key = some q → (q.lane lane).wait = .page → q.glide = none →
    (∀ L, L < 32 → (m.getLsbD L = true ↔ (q.lane L).issuable = true ∧ (q.lane L).wait = .page ∧ (q.lane L).pc = (q.lane lane).pc ∧
      (q.lane L).handler = (q.lane lane).handler)) →
    let pc := (q.lane lane).pc
    o = trapAll s1 { key := key, lanes := m, pc := pc, len := 4, words := [], sForm := false, o := blankOps } q 1
      { cause := 0x07#16, sub := 0x0002#16, other := 0#32,
        addr := if pc.toNat / 65536 = r.va / 65536 then pc else BitVec.ofNat 64 (r.va / 65536 * 65536) }

/-- R76: the lanes that stand where a lane fetches. -/
def fetchesWith (q : Squad) (lane : Nat) (m : LaneMask) : Prop :=
  ∀ L, L < 32 → (m.getLsbD L = true ↔ (q.lane L).issuable = true ∧ (q.lane L).pc = (q.lane lane).pc ∧ (q.lane L).handler = (q.lane lane).handler)

/-- R78: a page request is gone. -/
def withoutRequest (s : State) (n : Nat) : State := { s with requests := mapErase s.requests n }

end Sys2Proof.Machine

/-- R71–R73: a walk ends at the first table or entry that lets it go no further: with the leaf, or with the cause. -/
def Obligations.page_walks : Prop :=
  ∀ (s : State) (ctx va level table : Nat) (need : Need) (c : Context), s.ctx? ctx = some c → level ≤ 4 →
    comesTo s c.ptroot.toNat va level table →
    let at_ := table + 8 * pageIndex level va
    let e := pageEntry s level table va
    let l : Leaf :=
      { pa := pageFrame e + va % 2 ^ pageShift level, bits := pageShift level, r := e.testBit 1, w := e.testBit 2, x := e.testBit 3,
        key := e / 2 ^ 57 % 64, watch := e.testBit 63 }
    let sound : Prop := e / 2 ^ 6 % 4 = 4 - level ∧ pageFrame e % 2 ^ pageShift level = 0
    (¬walkable s table → walk s ctx va need = .error { outcome := 3, entry := at_, level := level }) ∧
    (walkable s table → e.testBit 0 = false → walk s ctx va need = .error { outcome := 1, entry := at_, level := level }) ∧
    (walkable s table → e.testBit 0 = true → e.testBit 4 = true → ¬sound → walk s ctx va need = .error { outcome := 3, entry := at_, level := level }) ∧
    (walkable s table → e.testBit 0 = true → e.testBit 4 = true → sound →
      (l.grants need = true → walk s ctx va need = .ok l) ∧
      (l.grants need = false → walk s ctx va need = .error { outcome := 2, entry := at_, level := level })) ∧
    (walkable s table → e.testBit 0 = true → e.testBit 4 = false → level = 4 →
      walk s ctx va need = .error { outcome := 3, entry := at_, level := level })

/-- R17, R70, R73, R75–R81, R94, R128, R321, R324: a walk's translation is cached or asked for, for far contexts, copies, fetches and spill stacks;
the steward gives a frame or fails the request, and what a Fail does to each that waits; QCOUNT moves on, releasing frames and events. That a fresh
translation takes the first place of its cache, which loses its last, is the model's (log 65), and that the pool's oldest frame is given (log 80). -/
def Obligations.pages_are_served : Prop :=
  ((∀ (tlb : List TlbEntry) (c : Cache) (ctx va : Nat) (l : Leaf), c.use = .data → c.cluster < 64 →
    ((fillTlb tlb c ctx va l).filter (·.inCache c)).length ≤ 2048 ∧ (fillTlb tlb c ctx va l).head? = some (l.cached c ctx va) ∧
      ∀ e, e.inCache c = false → (e ∈ fillTlb tlb c ctx va l ↔ e ∈ tlb)) ∧
  (∀ (s : State) (c : Cache) (ctx va : Nat) (need : Need),
    let walked : Except WalkFail Leaf × State := match walk s ctx va need with
      | .ok l => (.ok l, { s with tlb := fillTlb s.tlb c ctx va l })
      | .error f => (.error f, s)
    (s.tlb.find? (·.covers c ctx va) = none → translate s c ctx va need = walked) ∧
    ∀ e, s.tlb.find? (·.covers c ctx va) = some e →
      ((e.leaf va).grants need = true → walk s ctx va need = .ok (e.leaf va) → translate s c ctx va need = (.ok (e.leaf va), s)) ∧
      ((e.leaf va).grants need = true → translate s c ctx va need = (.ok (e.leaf va), s) ∨ translate s c ctx va need = walked) ∧
      ((e.leaf va).grants need = false → translate s c ctx va need = walked)) ∧
  ∀ (s : State) (va ctx kind rq : Nat) (f : WalkFail) (who : Walker),
    let same (r : PageReq) : Bool := r.ctx == ctx && r.va / 65536 == va / 65536 && r.kind == kind
    (∀ n, s.freeEntry (slotOf ctx) = some n → mapGet s.requests n = none ∧ (n / 32 = slotOf ctx ∨ 512 ≤ n ∧ n < 1024)) ∧
    (∀ i r, s.requests.find? (fun x => same x.2) = some (i, r) → who ∉ r.waiters →
      s.request va ctx kind rq f who = { s with requests := mapSet s.requests i { r with waiters := r.waiters ++ [who] } }) ∧
    (s.requests.find? (fun x => same x.2) = none → s.freeEntry (slotOf ctx) = none → s.request va ctx kind rq f who = s) ∧
    ∀ n c, s.requests.find? (fun x => same x.2) = none → s.freeEntry (slotOf ctx) = some n → s.ctx? ctx = some c →
      let r : PageReq :=
        { va := va, ctx := ctx, slot := slotOf ctx, kind := kind, requester := rq, entryAddr := f.entry, level := f.level, outcome := f.outcome,
          assisted := s.firmware.assisted.getD 0 false, range := c.demand.find? (fun d => d.start ≤ va && va < d.start + d.len), waiters := [who] }
      ∃ t, s.request va ctx kind rq f who = t ∧ t = { s with requests := mapSet s.requests n r, fns := t.fns } ∧
        (s.firmware.assisted.getD 0 false = false → t.fns = s.fns)) ∧
  (∀ (s : State) (h id ctx : Nat) (a : Word64) (write : Bool), farTarget s h id = some (ctx, a, write) → a.msb = false → a.toNat < 2 ^ 48 →
    s.waitsFor (.far h id) = false → .far h id ∉ s.refused →
    let r := farReach h id ctx
    let need : Need := if write then .write else .read
    (∀ l s1, translate s r.cache ctx a.toNat need = (.ok l, s1) → s1.backs (slotOf ctx) l.pa = true → s1.keyOk (slotOf ctx) l = true →
      exec (.pageWalk (.far h id)) s = .next s1) ∧
    ∀ f s1, translate s r.cache ctx a.toNat need = (.error f, s1) →
      exec (.pageWalk (.far h id)) s = .next (s1.request a.toNat ctx (if write then 1 else 0) (0x8000 + h / 8) f (.far h id))) ∧
  ((∀ (s : State) (id p core : Nat) (c : Copy), s.findCopy id = some (core, c) → c.open_ s p = true →
    (∀ ps s1, piecePages s core c p = .ok ps s1 → ps ≠ [] → (∀ x ∈ c.issued, x.piece ≠ p) →
      exec (.pageWalk (.copy id p)) s = .next (s1.modCore core fun k => { k with copies := k.copies.map fun x =>
        if x.id = c.id then { c with issued := { piece := p, pages := ps, q := s1.qcount, at_ := s1.ns, ranges := s1.watching } :: c.issued } else x })) ∧
    (∀ s1, piecePages s core c p = .wait s1 → exec (.pageWalk (.copy id p)) s = .next s1 ∧ ∀ ok, exec (.copyPieceLand id p ok) s = .next s1) ∧
    ∀ f s1, piecePages s core c p = .bad f s1 → ∀ i, (i = .pageWalk (.copy id p) ∨ ∃ ok, i = .copyPieceLand id p ok) →
      ∃ t, exec i s = .next t ∧ pieceFaults t core c p f) ∧
  ∀ (s : State) (core : Nat) (c : Copy) (p ctx va : Nat) (write : Bool),
    let bad (sub : BitVec 16) (s : State) : PageOut := .bad { sub := sub, addr := BitVec.ofNat 64 va } s
    let need : Need := if write then .write else .read
    let at_ : Cache := { cluster := clusterOf core, use := .data }
    (2 ^ 48 ≤ va → copyPages s core c p ctx [] [(va, write)] = bad 0x11#16 s) ∧
    (va < 2 ^ 48 →
      (∀ f s1, translate s at_ ctx va need = (.error f, s1) →
        copyPages s core c p ctx [] [(va, write)] = .wait (s1.request va ctx (if write then 1 else 0) core f (.copy c.id p))) ∧
      ∀ l s1, translate s at_ ctx va need = (.ok l, s1) →
        (s1.backs (slotOf ctx) l.pa = false → copyPages s core c p ctx [] [(va, write)] = bad 0x10#16 s1) ∧
        (s1.backs (slotOf ctx) l.pa = true → s1.keyOk (slotOf ctx) l = false → copyPages s core c p ctx [] [(va, write)] = bad 0x13#16 s1) ∧
        (s1.backs (slotOf ctx) l.pa = true → s1.keyOk (slotOf ctx) l = true → ∃ ps, copyPages s core c p ctx [] [(va, write)] = .ok ps s1 ∧
          ps.length = 1 ∧ ∀ x, x / 65536 = va / 65536 → Pages.find ps x write = (l.pa / 65536 * 65536 + x % 65536, l.key, l.watch)))) ∧
  (∀ (s : State) (key lane : Nat) (q : Squad), s.squad? key = some q → q.residency = .resident → (q.lane lane).issuable = true →
    (q.lane lane).pc.toNat < 2 ^ 48 → s.waitsFor (.fetch key lane) = false →
    let va := (q.lane lane).pc.toNat
    let walked := translate s { cluster := clusterOf (s.coreOf q), use := .fetch } (s.ctxOf q) va .fetch
    (∀ l s1, walked = (.ok l, s1) → exec (.pageWalk (.fetch key lane)) s = .next s1) ∧
    ∀ f s1, walked = (.error f, s1) →
      (f.outcome ≠ 1 → exec (.pageWalk (.fetch key lane)) s = .next s1) ∧
      (f.outcome = 1 →
        let s2 := s1.request va (s.ctxOf q) 2 (s.coreOf q) f (.fetch key lane)
        ∃ t, exec (.pageWalk (.fetch key lane)) s = .next t ∧ t = { s2 with squads := t.squads } ∧ (∀ k, k ≠ key → t.squad? k = s2.squad? k) ∧
          ∀ q2 m, s2.squad? key = some q2 → fetchesWith q2 lane m →
            t.squad? key = some (q2.onLanes m fun l => { l with wait := .page }))) ∧
  (∀ (s : State) (key off : Nat) (q : Squad), s.squad? key = some q → s.waitsFor (.spill key off) = false →
    let va := (q.spBase.toNat + off) % 2 ^ 64
    va < 2 ^ 48 →
    (∀ f s1, translate s { cluster := clusterOf (s.coreOf q), use := .data } (s.ctxOf q) va .both = (.error f, s1) →
      (f.outcome = 1 → spillLeaf s key q off = .wait (s1.request va (s.ctxOf q) 3 (s.coreOf q) f (.spill key off))) ∧
      (f.outcome ≠ 1 → spillLeaf s key q off = .dead s1)) ∧
    ∀ l s1, translate s { cluster := clusterOf (s.coreOf q), use := .data } (s.ctxOf q) va .both = (.ok l, s1) →
      (s1.backs (slotOf (s.ctxOf q)) l.pa = true → s1.keyOk (slotOf (s.ctxOf q)) l = true →
        spillLeaf s key q off = .done l s1 ∧ exec (.pageWalk (.spill key off)) s = .next s1) ∧
      (s1.backs (slotOf (s.ctxOf q)) l.pa = false ∨ s1.keyOk (slotOf (s.ctxOf q)) l = false → spillLeaf s key q off = .dead s1) ∧
      ∀ n, n ≤ 65536 - (q.spBase.toNat + off) % 65536 → spillLeaf s key q off = .done l s1 → s1.sound l.pa n = false →
        spillRead s key q off n = .dead s1) ∧
  (∀ (s : State) (n : Nat) (r : PageReq) (d : DemandRange) (f : Nat) (rest : List Nat), mapGet s.requests n = some r →
    r.assisted = false → r.range = some d → (s.part r.slot).pool = f :: rest → r.outcome = 1 → r.level = 4 → r.kind ≠ 2 →
    ∃ t, exec (.stewardPageService n) s = .next t ∧
      t = { s with parts := t.parts, mem := t.mem, unitKeys := t.unitKeys, clearings := t.clearings, spoiled := t.spoiled, requests := t.requests } ∧
      t.part r.slot = { s.part r.slot with pool := rest } ∧ (∀ k, k ≠ r.slot → t.part k = s.part k) ∧ t.requests = mapErase s.requests n ∧
      memNat t.mem r.entryAddr 8 = (f + 0x17 + 2 ^ 57 * (d.key % 64) + if d.watch then 2 ^ 63 else 0) % 2 ^ 64 ∧
      ∀ x, (x < r.entryAddr ∨ r.entryAddr + 8 ≤ x) → memRead t.mem x = if f ≤ x ∧ x < f + 65536 then 0#8 else memRead s.mem x) ∧
  (∀ (s : State) (n : Nat) (r : PageReq) (w : Walker), mapGet s.requests n = some r → r.assisted = false → r.waiters = [w] →
    ((s.part r.slot).pool = [] ∨ r.range = none ∨ r.outcome ≠ 1 ∨ r.level ≠ 4 ∨ r.kind = 2) →
    afterFail (withoutRequest s n) r w (exec (.stewardPageService n) s)) ∧
  ∀ (s : State), (∀ c ∈ s.cores, ∀ k ∈ c.2.copies, ∀ i ∈ k.issued, s.qcount ≤ i.q) → (∀ c ∈ s.ctxs, ∀ n, c.2.ending = some n → s.qcount + 1 < n) →
    ((∀ m ∈ s.moraine, s.qcount < m.stamp) → (∀ d ∈ s.delayed, s.qcount + 1 < d.2.1) →
      exec .qcountAdvance s = .next { s with qcount := s.qcount + 1 }) ∧
    (∀ m rest, s.moraine = m :: rest → m.stamp ≤ s.qcount → (∀ x ∈ rest, s.qcount < x.stamp) → (∀ d ∈ s.delayed, s.qcount + 1 < d.2.1) →
      ∃ t, exec .qcountAdvance s = .next t ∧ t = { s with qcount := s.qcount + 1, moraine := rest, mem := t.mem, unitKeys := t.unitKeys,
                                                          clearings := t.clearings, spoiled := t.spoiled, parts := t.parts } ∧
        (∀ x, memRead t.mem x = if m.frame ≤ x ∧ x < m.frame + 2 ^ pageBits m.size then 0#8 else memRead s.mem x) ∧
        ∀ k, k < 16 → s.ownsRange k m.frame 65536 = true → (∀ j, j < k → s.ownsRange j m.frame 65536 = false) → (s.part k).pool = [] →
          pageBits m.size = 16 →
          t.part k = { s.part k with pool := [m.frame] } ∧ ∀ j, j ≠ k → t.part j = s.part j) ∧
    ∀ d, (∀ m ∈ s.moraine, s.qcount < m.stamp) → s.delayed = [d] → d.2.1 ≤ s.qcount + 1 →
      ∃ t, exec .qcountAdvance s = .next t ∧ t = { s with qcount := s.qcount + 1, delayed := [], fns := t.fns } ∧
        t.fn d.1 = { s.fn d.1 with waiting := (s.fn d.1).waiting ++ [d.2.2] } ∧ ∀ k, k ≠ d.1 → t.fn k = s.fn k

/-- R295, R308, R310–R316, R322, R341: the first request for current that waits is granted once it fits, and units whose use is over are
returned; an island follows its squads' requests, sleeps and wakes; a cluster too; what permafrost lost; power is taken back; rates fall and
rise. How much current is lent and taken back, and what a share gives, is the model's choice (log 70). -/
def Obligations.power_follows : Prop :=
  ((∀ (s : State) (cl : Nat) (pre post : List Reservation) (r : Reservation), (s.cluster cl).queue = pre ++ r :: post →
    (∀ x ∈ pre, x.granted = true) → r.granted = false → unitsUsed (s.cluster cl).queue + r.units ≤ (s.cluster cl).budget →
    ∃ t, exec (.reservationGrant cl) s = .next t ∧ t = { s with clusters := t.clusters } ∧ (∀ k, k ≠ cl → t.cluster k = s.cluster k) ∧
      t.cluster cl = { s.cluster cl with queue := pre ++ { r with granted := true, at_ := s.cycle } :: post }) ∧
  ∀ (s : State) (cl n : Nat) (r : Reservation), (s.cluster cl).queue.find? (·.id == n) = some r → r.granted = true →
    (r.cls = 0 ∧ (s.core r.owner).fifo = [] ∧ (s.core r.owner).burst = none ∧
        ((s.core r.owner).array = .idle ∨ ∃ c, (s.core r.owner).array = .rampDown c) ∨
      r.cls = 1 ∧ r.at_ + 64 ≤ s.cycle ∨ r.cls = 2 ∧ s.findCopy (r.owner / 2 ^ 32) = none ∨ r.cls = 3 ∧ (s.cluster cl).clauseRun = none) →
    ∃ t, exec (.reservationReturn cl n) s = .next t ∧ t = { s with clusters := t.clusters } ∧ (∀ k, k ≠ cl → t.cluster k = s.cluster k) ∧
      t.cluster cl = { s.cluster cl with queue := (s.cluster cl).queue.filter fun x => !(x.cls == r.cls && x.owner == r.owner) }) ∧
  (∀ (s : State) (i : Nat), (∀ x ∈ islandSquads s i, Nat.min x.2.perfReq (s.part (slotOf (s.ctxOf x.2))).clip ≤ islandTarget s i) ∧
    (islandTarget s i = 0 ∨ ∃ x ∈ islandSquads s i, Nat.min x.2.perfReq (s.part (slotOf (s.ctxOf x.2))).clip = islandTarget s i) ∧
    ((s.island i).level ≠ islandTarget s i →
      ∃ t, exec (.islandLevelChange i) s = .next t ∧ t = { s with islands := t.islands } ∧ (∀ k, k ≠ i → t.island k = s.island k) ∧
        t.island i = { s.island i with level := islandTarget s i })) ∧
  (∀ (s : State) (i : Nat), (s.island i).frost = false → (s.island i).level = 0 → islandTarget s i = 0 → (s.island i).idleSince + 3600 ≤ s.cycle →
    islandIdle s i = true →
    ∃ t, exec (.frostEnter i) s = .next t ∧ t = { s with islands := t.islands, squads := t.squads, clusters := t.clusters } ∧
      t.island i = { s.island i with frost := true, waking := none } ∧ (∀ k, k ≠ i → t.island k = s.island k) ∧
      (∀ k, (k ∈ (islandSquads s i).map (·.1) → t.squad? k = (s.squad? k).map fun q => { q with frostSeen := true }) ∧
        (k ∉ (islandSquads s i).map (·.1) → t.squad? k = s.squad? k)) ∧
      ((∃ k, k < 16 ∧ 16 * (i / 16) + k ≠ i ∧ (s.island (16 * (i / 16) + k)).frost = false) → t.clusters = s.clusters) ∧
      ((∀ k, k < 16 → 16 * (i / 16) + k ≠ i → (s.island (16 * (i / 16) + k)).frost = true) →
        t.cluster (i / 16) = { s.cluster (i / 16) with frostSince := s.cycle })) ∧
  (∀ (s : State) (i : Nat), (s.island i).frost = true → (s.cluster (i / 16)).permafrost = false →
    ((s.island i).waking = none → islandIdle s i = false → ∃ t, exec (.frostExit i) s = .next t ∧ t = { s with islands := t.islands } ∧
      t.island i = { s.island i with waking := some s.ns } ∧ ∀ k, k ≠ i → t.island k = s.island k) ∧
    ∀ u, (s.island i).waking = some u → u + 150 ≤ s.ns → ∃ t, exec (.frostExit i) s = .next t ∧ t = { s with islands := t.islands, squads := t.squads } ∧
      t.island i = { s.island i with frost := false, waking := none, idleSince := s.cycle } ∧ (∀ k, k ≠ i → t.island k = s.island k) ∧
      ∀ k, (k ∈ (islandSquads s i).map (·.1) → t.squad? k = (s.squad? k).map fun q => { q with frostSeen := true }) ∧
        (k ∉ (islandSquads s i).map (·.1) → t.squad? k = s.squad? k)) ∧
  (∀ (s : State) (c : Nat), (s.cluster c).permafrost = false → (∀ k, k < 16 → (s.island (16 * c + k)).frost = true ∧ (s.island (16 * c + k)).waking = none) →
    (s.cluster c).frostSince + 180000 ≤ s.cycle → (s.cluster c).clauseRun = none →
    (∀ k, k < 4 → (s.core (4 * c + k)).fifo = [] ∧ (s.core (4 * c + k)).rs = [] ∧ (s.core (4 * c + k)).copies = []) →
    ∃ t, exec (.permafrostEnter c) s = .next t ∧ t = { s with clusters := t.clusters } ∧
      t.cluster c = { s.cluster c with permafrost := true, wakeAt := none }) ∧
  (∀ (s : State) (c : Nat) (passed : Bool), (s.cluster c).permafrost = true →
    ((s.cluster c).wakeAt = none → (∃ k, k < 16 ∧ islandIdle s (16 * c + k) = false) →
      ∃ t, exec (.permafrostExit c passed) s = .next t ∧ t = { s with clusters := t.clusters } ∧
        t.cluster c = { s.cluster c with wakeAt := some s.cycle }) ∧
    ∀ u, (s.cluster c).wakeAt = some u → u + 36000 ≤ s.cycle →
      (passed = true → ∃ t, exec (.permafrostExit c passed) s = .next t ∧ t = { s with clusters := t.clusters } ∧
        t.cluster c = { s.cluster c with permafrost := false, wakeAt := none }) ∧
      (passed = false → (∀ x ∈ s.groups, ¬(x.2.status = .placed ∧ clusterOf x.2.core = c)) →
        ((s.cluster c).checkFails = 0 → ∃ t, exec (.permafrostExit c passed) s = .next t ∧ t = { s with clusters := t.clusters } ∧
          t.cluster c = { s.cluster c with permafrost := false, wakeAt := none, checkFails := 1 }) ∧
        (0 < (s.cluster c).checkFails → c < 64 → 0 < s.spares.getD (dieOfCluster c) 0 →
          ∃ t, exec (.permafrostExit c passed) s = .next t ∧ t.parts = s.parts ∧ t.spares.getD (dieOfCluster c) 0 + 1 = s.spares.getD (dieOfCluster c) 0 ∧
            t.cluster c = { s.cluster c with permafrost := false, wakeAt := none, checkFails := 0 } ∧ t.retiredClusters.getLsbD c = true ∧
            t.retirements = (s.retirements + 1) % 2 ^ 32) ∧
        (0 < (s.cluster c).checkFails → c < 64 → s.spares.getD (dieOfCluster c) 0 = 0 →
          ∃ t, exec (.permafrostExit c passed) s = .next t ∧ (t.cluster c).retired = true ∧ t.retiredClusters.getLsbD c = true ∧
            ∀ p ∈ t.parts, p.2.clusters.getLsbD c = false))) ∧
  (∀ (s : State) (key : Nat) (q : Squad) (sub : BitVec 16), s.squad? key = some q → q.glide = none →
    ∃ s1 q1, loseSquad s key sub = machineCheck s1 key 0x20#16 sub 0#64 ∧ s1.squad? key = some q1 ∧ q1.files = { v := [], s := [], a := [] } ∧
      q1.misses = (q.misses + 1) % 2 ^ 32) ∧
  ((∀ (s : State) (owner : Nat), (s.part owner).status = .sealed → s.firmware.assisted.getD 3 false = false →
    (s.part owner).demandSeen < demandOf s owner →
    ∃ t, exec (.powerReclaim owner) s = .next t ∧ t = { s with parts := t.parts, clusters := t.clusters } ∧
      t.part owner = { s.part owner with demandSeen := demandOf s owner } ∧
      (∀ k, k ≠ owner → t.part k = { s.part k with clip := (t.part k).clip } ∧ (t.part k).clip ≤ (s.part k).clip ∧
        (mapGet s.parts k ≠ none → Nat.min (s.part k).clip (clipFor (s.part k).power) ≤ (t.part k).clip)) ∧
      ∀ c, t.cluster c = { s.cluster c with budget := (t.cluster c).budget } ∧ (t.cluster c).budget ≤ (s.cluster c).budget ∧
        ((∀ k, k < 16 → k ≠ owner → c < 64 → (s.clustersOf k).getLsbD c = false) → t.cluster c = s.cluster c) ∧
        ∀ n, (∀ k, k < 16 → k ≠ owner → (s.clustersOf k).getLsbD c = true → n ≤ budgetFor (s.part k).power) →
          Nat.min n (s.cluster c).budget ≤ (t.cluster c).budget) ∧
  (∀ (s : State) (k : Nat), (s.part k).status = .sealed → s.firmware.assisted.getD 3 false = false → (s.part k).demandSeen < demandOf s k →
    ∃ t, lendPower k s = .next t ∧ t = { s with parts := t.parts, clusters := t.clusters } ∧ (∀ j, j ≠ k → t.part j = s.part j) ∧
      t.part k = { s.part k with demandSeen := demandOf s k, clip := (t.part k).clip } ∧ (s.part k).clip ≤ (t.part k).clip ∧
      ∀ c, t.cluster c = { s.cluster c with budget := (t.cluster c).budget } ∧ (s.cluster c).budget ≤ (t.cluster c).budget ∧
        ((s.clustersOf k).getLsbD c = false → t.cluster c = s.cluster c)) ∧
  (∀ (s : State) (slot : Nat),
    (s.firmware.assisted.getD 3 false = true → applyShare s slot = s) ∧
    (s.firmware.assisted.getD 3 false = false → ∃ t, applyShare s slot = t ∧ t = { s with parts := t.parts, clusters := t.clusters } ∧
      (∀ k, k ≠ slot → t.part k = s.part k) ∧ t.part slot = { s.part slot with clip := clipFor (s.part slot).power } ∧
      ∀ c, t.cluster c = { s.cluster c with
        budget := if c < 64 ∧ (s.clustersOf slot).getLsbD c = true then budgetFor (s.part slot).power else (s.cluster c).budget })) ∧
  ∀ watts, clipFor watts = (if 1800 ≤ watts then 7 else (Config.shareClip watts).toNat) ∧
    budgetFor watts = if 1800 ≤ watts then 128 else Nat.max 16 (Config.shareBudget watts)) ∧
  ∀ (s : State) (late : Bool), s.windowEnd + 10000 ≤ s.ns →
    let missed : Prop := ∃ x ∈ s.parts, x.2.status = .sealed ∧ x.2.critical = true ∧
      100 * (x.2.latencies.filter (· ≤ x.2.latency)).length < 99 * x.2.latencies.length
    (late = true ↔ missed) → ∃ t, exec (.latencyWindow late) s = .next t ∧ t = { s with parts := t.parts, windowEnd := s.ns } ∧
      ∀ k p, mapGet s.parts k = some p →
        (p.critical = true → t.part k = { p with latencies := [] }) ∧
        (p.critical = false → (missed → t.part k = { p with latencies := [], rate := Nat.min 6 (p.rate + 1) }) ∧
          (¬missed → t.part k = { p with latencies := [], rate := p.rate - 1 }))

namespace Sys2Proof.Machine

/-! ### Partitions, bring-up, events to the host -/

/-- R328: the 64 bytes of a log record, under the chain value before it. -/
def logBytes (chain : BitVec 256) (r : OpenRec) : List Byte :=
  let first := leBytes 8 r.first ++ leBytes 8 r.last ++ leBytes 8 r.bytes ++ leBytes 2 r.ctx ++ leBytes 1 r.kind ++ leBytes 1 r.range ++
    leBytes 4 r.accesses
  first ++ digestBytes (Config.sm3 (digestBytes chain ++ first))

/-- R336: a good firmware image. -/
structure GoodImage (s : State) (addr len : Nat) : Prop where
  header : 160 ≤ len
  magic : memReadN s.mem (hostBase + addr % hostBase) 8 = [0x49#8, 0x5A#8, 0x4B#8, 0x46#8, 0x49#8, 0x52#8, 0x4D#8, 0#8]
  version : leField (hostRead s addr 160) 8 4 = 1
  fits : 160 + (leField (hostRead s addr 160) 20 4 + leField (hostRead s addr 160) 24 4 + leField (hostRead s addr 160) 28 4) ≤ len
  key : Config.sm3 (((hostRead s addr 160).drop 32).take 64) = Config.firmwareKeyDigest
  signature :
    let h := hostRead s addr 160
    Config.sm2Verify (BitVec.ofNat 512 (leField h 32 64))
      (Config.sm3 (h.take 96 ++ hostRead s (addr + 160) (leField h 20 4 + leField h 24 4 + leField h 28 4))) (BitVec.ofNat 512 (leField h 96 64)) = true

/-- R333: the completion of a command joins its function's events. -/
def completed (s : State) (c : Command) (status : Nat) (payload : List Byte) : State :=
  s.modFn (fnKey c.fn) fun r => { r with waiting := r.waiting ++ [{ kind := 1, tag := c.tag, status := status, payload := payload }] }

end Sys2Proof.Machine

/-- R320, R325–R328, R330: a slice group's turn passes, when the quantum is over, to the next member with work, around; whiteout clears a
partition's memory, keys and cores, and writes its receipt; a log record is closed into the ring and the chain; a lease runs out. -/
def Obligations.partitions_go_on : Prop :=
  (∀ (s : State) (leader k : Nat), (s.part leader).leader = some leader → k ∈ turnTakers s leader →
    ((s.part leader).turnSince + (s.part leader).quantum * 1000 ≤ s.ns ∨ (s.part leader).turn ∉ turnTakers s leader) →
    ((s.part leader).turn < k ∧ (∀ j ∈ turnTakers s leader, (s.part leader).turn < j → k ≤ j) ∨
      (∀ j ∈ turnTakers s leader, j ≤ (s.part leader).turn ∧ k ≤ j)) →
    ∃ t, exec (.sliceTurn leader) s = .next t ∧ t = { s with parts := t.parts } ∧
      t.part leader = { s.part leader with turn := k, turnSince := s.ns } ∧ ∀ j, j ≠ leader → t.part j = s.part j) ∧
  (∀ (s : State) (slot : Nat) (w : WhiteoutRun), (s.part slot).whiteout = some w → w.ended = none → w.startQ + 2 ≤ s.qcount →
    (∀ c ∈ s.ctxs, slotOf c.1 ≠ slot) →
    ∃ t bs, exec (.whiteout slot) s = .next t ∧
      t.part slot = { s.part slot with status := .white, pool := [], whiteout := some { w with ended := some s.ns, bytes := bs } } ∧
      (∀ k, k ≠ slot → t.part k = s.part k) ∧
      (∀ a, memRead t.mem a = if s.owns slot a = true then 0#8 else memRead s.mem a) ∧
      (∀ k, k < 64 → (s.part slot).keys.getLsbD k = true → (s.key k).keyId ≠ 0 → s.nextId ≤ (t.key k).keyId ∧ (t.key k).alg = (s.key k).alg) ∧
      (∀ k, k < 64 → (s.part slot).keys.getLsbD k = false → t.key k = s.key k) ∧
      (∀ a, a < 2 ^ 51 → s.owns slot a = true → s.owns slot (32 * (a / 32)) = true →
        ((s.part slot).keys = 0#64 → ∀ id, t.readPhys id a = 0#8) ∧
        ∀ k, k < 64 → (s.part slot).keys.getLsbD k = true → (∀ j, j < k → (s.part slot).keys.getLsbD j = false) → t.readPhys (t.key k).keyId a = 0#8) ∧
      (∀ c i, c < 64 → i < 4 → t.core (4 * c + i) = if (s.part slot).clusters.getLsbD c = true then Core.zero else s.core (4 * c + i)) ∧
      (∀ e ∈ t.tlb, slotOf e.ctx ≠ slot) ∧
      bs.length = 512 ∧ bs.take 64 = leBytes 2 1 ++ leBytes 1 slot ++ leBytes 5 0 ++ leBytes 8 w.startQ ++ leBytes 8 w.startNs ++
          leBytes 8 s.ns ++ digestBytes (s.part slot).digest ∧
      (bs.drop 424).take 24 = (digestBytes Config.identityKeyDigest).take 24 ∧
      (s.firmware.assisted.getD 4 false = false → bs.drop 448 = leBytes 64 (Config.sm2Sign (Config.sm3 (bs.take 448))).toNat)) ∧
  (∀ (s : State) (slot : Nat) (r : OpenRec), (s.part slot).openRecs.filter (fun r => r.first / 1000000 < s.ns / 1000000) = [r] →
    let p := s.part slot
    let chain := Config.sm3 (digestBytes p.logChain ++ (logBytes p.logChain r).take 32)
    ∃ t, exec (.logRecordClose slot) s = .next t ∧ t = { s with parts := t.parts, mem := t.mem, unitKeys := t.unitKeys, spoiled := t.spoiled } ∧
      (∀ k, k ≠ slot → t.part k = s.part k) ∧
      (p.ring = none → t.mem = s.mem) ∧
      (∀ x, p.ring = some x → t.mem = (s.writePhysN (s.key 0).keyId (x.base + 64 * (p.ringCount % (x.len / 64))) (logBytes p.logChain r)).mem) ∧
      t.part slot = { p with
        openRecs := p.openRecs.filter fun r => !(r.first / 1000000 < s.ns / 1000000 : Bool), logChain := chain, logCount := p.logCount + 1,
        ringCount := match p.ring with
          | some _ => p.ringCount + 1
          | none => p.ringCount,
        logOverflow := match p.ring with
          | some x => if x.len / 64 ≤ p.ringCount then p.logOverflow + 1 else p.logOverflow
          | none => p.logOverflow }) ∧
  ∀ (s : State), s.sem.owner ≠ 0 → s.sem.leaseEnd ≠ 0 → s.sem.leaseEnd ≤ s.ns →
    exec .managementSemaphoreLeaseExpiry s = .next { s with sem := { s.sem with leaseEnd := 0 } }

/-- R317, R329, R334, R336, R339, R341: power-on and reset; firmware verified or refused; a translation by the steward; an event written to its
ring. -/
def Obligations.device_comes_up : Prop :=
  (∀ (s : State) (bad : BitVec 64), ∃ t, exec (.powerOn bad) s = .next t ∧
    t = { State.reset with agenda := s.agenda, free := s.free, nextId := s.nextId, mem := t.mem, parts := t.parts, clusters := t.clusters,
                           retiredClusters := t.retiredClusters, spares := t.spares } ∧
    (∀ a, memRead t.mem a = if 2 ^ 51 ≤ a then memRead s.mem a else 0#8) ∧
    (∀ c, c < 64 → ((t.part 0).clusters.getLsbD c = false ↔ bad.getLsbD c = true ∧ ∃ b, b < c ∧ b / 16 = c / 16 ∧ bad.getLsbD b = true)) ∧
    ∀ d, d < 4 → ((t.spares.getD d 9 = 0 ↔ ∃ c, c < 64 ∧ c / 16 = d ∧ bad.getLsbD c = true) ∧
      (t.spares.getD d 9 = 1 ↔ ∀ c, c < 64 → c / 16 = d → bad.getLsbD c = false))) ∧
  (∀ (s : State), ∃ t, exec .conventionalReset s = .next t ∧
    t = { State.reset with agenda := s.agenda, free := s.free, nextId := s.nextId, mem := t.mem, parts := t.parts, clusters := t.clusters,
                           retiredClusters := s.retiredClusters, spares := s.spares, retirements := s.retirements,
                           firmware := { State.reset.firmware with present := s.firmware.present } } ∧
    (∀ a, memRead t.mem a = if 2 ^ 51 ≤ a then memRead s.mem a else 0#8) ∧
    ∀ c, c < 64 → (t.part 0).clusters.getLsbD c = !(s.cluster c).retired) ∧
  (∀ (s : State) (exp : List Nat) (c : Command) (addr len : Nat), s.firmware.verifying = some (c, addr, len) →
    (¬GoodImage s addr len → exec (.firmwareVerifyDone exp) s =
      .next (completed { s with firmware := { s.firmware with verifying := none } } c 5 [])) ∧
    (GoodImage s addr len → ∃ t s1, exec (.firmwareVerifyDone exp) s = .next t ∧ t = completed s1 c 0 [] ∧
      s1 = { s with firmware := s1.firmware, keys := s1.keys, parts := s1.parts, clusters := s1.clusters, nextId := s.nextId + 1 } ∧
      s1.firmware = { wait := false, verifying := none, loaded := true, microcode := BitVec.ofNat 32 (leField (hostRead s addr 160) 12 4),
                      translator := BitVec.ofNat 32 (leField (hostRead s addr 160) 16 4), assisted := [false, false, false, false, false],
                      expanders := s1.firmware.expanders, present := some (s.firmware.present.getD exp) } ∧
      (∀ i, i < 4 → s1.firmware.expanders.getD i 9 = if (s.firmware.present.getD exp).getD i 0 = 0 then 0 else Nat.min (exp.getD i 0) (2 ^ 41)) ∧
      s1.part 0 = { s.part 0 with status := .sealed, clip := clipFor (s.part 0).power } ∧ (∀ k, k ≠ 0 → s1.part k = s.part k) ∧
      (∀ c, s1.cluster c = { s.cluster c with
        budget := if c < 64 ∧ (s.clustersOf 0).getLsbD c = true then budgetFor (s.part 0).power else (s.cluster c).budget }) ∧
      (s1.key 0).bound = some 0 ∧ (s1.key 0).keyId = s.nextId ∧ ∀ k, k ≠ 0 → s1.key k = s.key k)) ∧
  (∀ (s : State) (n : Nat) (r : TransReq), s.transReqs.find? (fun r => r.tag == n && !r.assisted) = some r →
    let s1 : State := { s with transReqs := s.transReqs.filter fun x => x.tag != r.tag }
    (walferOf s r = none → exec (.slamirTranslate n) s = .next (completed s1 r.cmd 1 [])) ∧
    ∀ ws, walferOf s r = some ws → 4 * ws.length ≤ 2 ^ 32 → ∃ t e, exec (.slamirTranslate n) s = .next t ∧
      t = completed { s1 with firn := t.firn } r.cmd 0 [] ∧ t.firn.head? = some e ∧ e.ctx = r.ctx ∧ e.start = r.start ∧ e.key = r.key ∧ e.stale = false ∧
      e.words.length = ws.length ∧ ∀ (i : Nat) (w : Word32), ws[i]? = some w → e.words[i]? = some w ∨ e.words[i]? = some (w ||| 0x40000000#32)) ∧
  ∀ (s : State) (fn : HostFn) (e : HostEvent) (rest : List HostEvent), (s.fn (fnKey fn)).waiting = e :: rest →
    ((s.fn (fnKey fn)).evHead + 1) % (s.fn (fnKey fn)).evSize ≠ (s.fn (fnKey fn)).evTail → e.payload.length ≤ 56 →
    let f := s.fn (fnKey fn)
    let a := 2 ^ 51 + (f.evBase.toNat + 64 * f.evHead) % 2 ^ 51
    ∃ t, exec (.eventPost fn) s = .next t ∧ t = { s with mem := t.mem, fns := t.fns } ∧
      memReadN t.mem a 64 = leBytes 2 e.kind ++ leBytes 2 e.tag.toNat ++ leBytes 4 e.status ++ e.payload ++ List.replicate (56 - e.payload.length) 0#8 ∧
      (∀ x, x < a ∨ a + 64 ≤ x → memRead t.mem x = memRead s.mem x) ∧
      t.fn (fnKey fn) = { f with waiting := rest, evHead := (f.evHead + 1) % f.evSize, msix := f.msix + 1 } ∧
      ∀ k, k ≠ fnKey fn → t.fn k = s.fn k

namespace Sys2Proof.Machine

/-! ### The host's commands -/

/-- R332: the slot a function stands for. -/
def slotFor (s : State) (c : Command) : Option Nat :=
  if c.fn.vf = none then some 0
  else match (s.fn (fnKey c.fn)).bound with
    | some (.slot n) => some n
    | some (.slice l) => some l
    | none => none

/-- R332: FNSTAT.READY. -/
def isReady (s : State) (c : Command) : Prop :=
  s.firmware.loaded = true ∧ (c.fn.vf = none ∨ ∃ k, slotFor s c = some k ∧ (s.part k).status = .sealed)

/-- R330: a port holds the semaphore. -/
def holds (s : State) (p : HostPort) : Prop := s.sem.owner = (match p with | .h0 => 1 | .h1 => 2) ∧ s.ns < s.sem.leaseEnd

/-- R332, R333: a command is the next: the oldest doorbell is its function's, and the next entry of that function's ring holds its code and its tag.
That entries are taken in the order of doorbells is the model's reading (log 25). -/
def isNext (s : State) (c : Command) (code : Nat) : Prop :=
  let f := s.fn (fnKey c.fn)
  let at_ := 2 ^ 51 + (f.cmdBase.toNat + 64 * f.cmdHead) % 2 ^ 51
  (∃ tail rest, s.doorbells = (fnKey c.fn, tail) :: rest) ∧ memNat s.mem at_ 2 = code ∧ memNat s.mem (at_ + 2) 2 = c.tag.toNat ∧
    memNat s.mem (at_ + 4) 4 = 0

/-- R332: the device has taken a command from its ring. -/
def afterTaking (s : State) (c : Command) : State :=
  let head := ((s.fn (fnKey c.fn)).cmdHead + 1) % (s.fn (fnKey c.fn)).cmdSize
  { s.modFn (fnKey c.fn) (fun r => { r with cmdHead := head }) with
    doorbells := match s.doorbells with
      | [] => []
      | (f, tail) :: rest => if f = fnKey c.fn ∧ tail = head then rest else (f, tail) :: rest }

/-- R333: a context of the command's function. -/
def inReach (s : State) (c : Command) (ctx : Nat) : Prop :=
  (∃ x, s.ctx? ctx = some x ∧ x.ending = none) ∧ s.fnServes (fnKey c.fn) (slotOf ctx) = true

/-- A command: its code; whether it asks for a ready function, for a physical one, for the semaphore; whether one on slot 0 is a physical function's;
when it is done, what it leaves and shows; when it is turned away; when it need not wait. -/
structure HostRow where
  instr : Instr
  code : Nat
  ready : Bool
  physical : Bool
  sem : Bool
  own : Bool
  when_ : State → Prop
  after : State → State
  payload : State → List Byte
  turned : State → Prop
  calm : State → Prop

/-- R333: the statuses a command's completion has, in order. -/
def HostRow.answers (r : HostRow) (c : Command) (s : State) : Prop :=
  let b := afterTaking s c
  let foreign : Prop := c.fn.vf ≠ none ∧ (r.physical = true ∨ r.own = true ∧ (slotFor b c).getD 0 = 0)
  (¬isNext s c r.code → r.calm s → ∃ name, exec r.instr s = .refused (.notDue name)) ∧
  (isNext s c r.code → r.calm s →
    (r.ready = true → ¬isReady b c → exec r.instr s = .next (completed b c 2 [])) ∧
    ((r.ready = true → isReady b c) →
      (foreign → exec r.instr s = .next (completed b c 6 [])) ∧
      (¬foreign →
        (r.sem = true → ¬holds b c.fn.port → exec r.instr s = .next (completed b c 3 [])) ∧
        ((r.sem = true → holds b c.fn.port) →
          (r.turned b → exec r.instr s = .next (completed b c 1 [])) ∧
          (r.when_ b → exec r.instr s = .next (completed (r.after b) c 0 (r.payload b)))))))

def plainRow (code : Nat) (i : Instr) (when_ : State → Prop) (after : State → State) (turned : State → Prop) : HostRow :=
  { instr := i, code := code, ready := true, physical := false, sem := false, own := false, when_ := when_, after := after, payload := fun _ => [],
    turned := turned, calm := fun _ => True }

/-- R333: a command on a context. -/
def ctxRow (c : Command) (code ctx : Nat) (i : Instr) (when_ : State → Prop) (after : State → State) (turned : State → Prop) : HostRow :=
  plainRow code i (fun s => inReach s c ctx ∧ when_ s) after (fun s => ¬inReach s c ctx ∨ turned s)

/-- R302: a command of a context's debugger. -/
def debugRow (c : Command) (ctx : Nat) (i : Instr) (when_ : State → Prop) (after : State → State) (turned : State → Prop) : HostRow :=
  let mine (s : State) : Prop := ∃ x, s.ctx? ctx = some x ∧ x.debugger = some c.fn
  ctxRow c 0x08 ctx i (fun s => mine s ∧ when_ s) after (fun s => ¬mine s ∨ turned s)

/-- R321: a context as CTXMAKE makes it. -/
def made (level : Level) (ptroot stvec : Word64) : Context :=
  { level := level, ptroot := ptroot, stvec := stvec, tensors := [], queues := [], gqsel := 0, toffset := 0#64, frozen := false, lastTime := 0,
    pausedAt := none, pausing := none, ending := none, energy := 0#64, demand := [], debugger := none, breaks := [] }

def haltedOf (s : State) (ctx : Nat) : List Nat := ctxGroups s ctx (·.halted)

/-- R79, R110, R273, R302, R321, R333, R335, R337–R339, R341: the commands that are answered at once. -/
def IsHostRow (c : Command) (x y z u : Nat) (f : Bool) (ports : BitVec 12) (lv : Level) (p v : Word64) (r : HostRow) : Prop :=
  let route (code : Nat) (i : Instr) (when_ : Prop) (after : State → State) (turned : Prop) : HostRow :=
    { plainRow code i (fun _ => when_) after (fun _ => turned) with physical := true, sem := true }
  let demand (s : State) : List DemandRange := ((s.ctx? x).map (·.demand)).getD []
  let new : DemandRange := { start := y, len := z, key := u, watch := f }
  let admits (s : State) (id : Nat) : Prop := (s.grids.find? fun (_, g) => g.ctx == x && g.queue == y && g.status == .requested).map (·.1) = some id
  let named (s : State) : Nat := (slotFor s c).getD 0 * 256 + x
  let shared (s : State) : State := ((List.range 16).filter fun k => (s.part k).status == .sealed).foldl applyShare s
  r ∈ [route 0x02 (.setmode c x f) (x < 5)
     (fun s =>
       let s : State := { s with firmware := { s.firmware with assisted := s.firmware.assisted.set x f } }
       if x = 3 ∧ f = false then shared s else s) (5 ≤ x),
   route 0x0A (.floeroute c x y z ports) (x < 64 ∧ z < 64)
     (fun s => { s with routes := mapSet s.routes x { fabid := y, device := z, ports := ports } }) (x ≠ 255 ∧ ¬(x < 64 ∧ z < 64)),
   route 0x0A (.floeroutePod c y z ports) (y = 0 ∧ ports = 0#12 ∧ z < 64) (fun s => { s with podNumber := z }) ¬(y = 0 ∧ ports = 0#12 ∧ z < 64),
   { plainRow 0x03 (.prqans c x false) (fun s => ∃ r, mapGet s.requests x = some r ∧ r.assisted = true) (fun s => withoutRequest s x)
       (fun s => ∀ r, mapGet s.requests x = some r → r.assisted = false) with physical := true },
   { plainRow 0x05 (.powerset c x y z) (fun s => s.firmware.assisted.getD 3 false = true ∧ x < 16 ∧ y < 8)
       (fun s => ((List.range 64).filter (s.clustersOf x).getLsbD).foldl (fun s k => s.modCluster k fun k => { k with budget := z })
         (s.modPart x fun p => { p with clip := y }))
       (fun s => ¬(s.firmware.assisted.getD 3 false = true ∧ x < 16 ∧ y < 8)) with physical := true },
   ctxRow c 0x08 x (.debugAttach c x) (fun s => ∀ k, s.ctx? x = some k → k.debugger = none ∨ k.debugger = some c.fn)
     (fun s => if (s.ctx? x).bind (·.debugger) = some c.fn then s else s.modCtx x fun k => { k with debugger := some c.fn })
     (fun s => ∃ k g, s.ctx? x = some k ∧ k.debugger = some g ∧ g ≠ c.fn),
   debugRow c x (.debugDetach c x) (fun _ => True) (fun s => s.modCtx x fun k => { k with debugger := none, breaks := [] }) (fun _ => False),
   debugRow c x (.debugSetBreakpoint c x y p) (fun _ => y < 4) (fun s => s.modCtx x fun k => { k with breaks := mapSet k.breaks y p }) (fun _ => 4 ≤ y),
   debugRow c x (.debugHalt c x) (fun _ => True) (fun s => (ctxGroups s x fun g => g.status == .placed && !g.halted).foldl haltGroup s) (fun _ => False),
   { debugRow c x (.debugDump c x y) (fun s => haltedOf s x ≠ []) (fun s => hostWrite s y ((haltedOf s x).flatMap (dumpGroup s)))
       (fun s => haltedOf s x = []) with
     calm := fun s => ∀ gk ∈ haltedOf s x, ∀ g, s.group? gk = some g → (s.cluster (clusterOf g.core)).permafrost = false },
   ctxRow c 0x0D x (.demandRegister c x y z u f)
     (fun s => y % 65536 = 0 ∧ z % 65536 = 0 ∧ u < 64 ∧ (demand s).length < Config.demandRanges ∧
       ∀ d ∈ demand s, ¬(d.start < y + z ∧ y < d.start + d.len))
     (fun s => s.modCtx x fun k => { k with demand := k.demand ++ [new] })
     (fun s => y % 65536 ≠ 0 ∨ z % 65536 ≠ 0 ∨ 64 ≤ u ∨ Config.demandRanges ≤ (demand s).length ∨ ∃ d ∈ demand s, d.start < y + z ∧ y < d.start + d.len),
   ctxRow c 0x0D x (.demandRemove c x y z) (fun s => ∃ d ∈ demand s, d.start = y ∧ d.len = z)
     (fun s => s.modCtx x fun k => { k with demand := k.demand.filter fun d => !(d.start == y && d.len == z) })
     (fun s => ∀ d ∈ demand s, ¬(d.start = y ∧ d.len = z)),
   ctxRow c 0x04 x (.admitAnswer c x y true) (fun s => ∃ id, admits s id)
     (fun s => ((s.grids.find? fun (_, g) => g.ctx == x && g.queue == y && g.status == .requested).map fun g => cancelGrid s g.1).getD s)
     (fun s => ∀ id, ¬admits s id),
   { plainRow 0x0E (.frames c x 1)
       (fun s =>
         let a := leNat (hostRead s x 8)
         let k := (slotFor s c).getD 0
         a % 65536 = 0 ∧ s.ownsRange k a 65536 = true ∧ (s.part k).pool.contains a = false ∧ (s.part k).pool.length < 2 ^ 20)
       (fun s => s.modPart ((slotFor s c).getD 0) fun p => { p with pool := p.pool ++ [leNat (hostRead s x 8)] }) (fun _ => False) with
     payload := fun _ => leBytes 8 1 },
   plainRow 0x0B (.comm c x y z) (fun _ => x < 2 ^ 24 ∧ 2 ≤ y ∧ y ≤ 256)
     (fun s => { s with comms := mapSet s.comms ((slotFor s c).getD 0 * 2 ^ 24 + x)
                                  { slot := (slotFor s c).getD 0, count := y, list := hostRead s z (8 * y) } })
     (fun _ => ¬(x < 2 ^ 24 ∧ 2 ≤ y ∧ y ≤ 256)),
   plainRow 0x0C (.health c x) (fun _ => True)
     (fun s =>
       let head := leBytes 2 1 ++ leBytes 6 0 ++ leBytes 8 s.ns ++ leBytes 8 s.retiredClusters.toNat ++ s.spares.flatMap (leBytes 1) ++
         leBytes 4 s.retirements ++ leBytes 32 0
       hostWrite s x (head ++ if s.firmware.assisted.getD 4 false then leBytes 64 0 else leBytes 64 (Config.sm2Sign (Config.sm3 head)).toNat))
     (fun _ => False),
   { plainRow 0x0F (.ctxmake c x lv p v)
       (fun s => x < 256 ∧ s.ctx? (named s) = none ∧ (lv = .hypervisor → slotFor s c = some 0) ∧ (s.part ((slotFor s c).getD 0)).status = .sealed)
       (fun s => { s with ctxs := mapSet s.ctxs (named s) (made lv (p &&& 0x000FFFFFFFFF0000#64) v) })
       (fun s => 256 ≤ x ∨ (s.ctx? (named s)).isSome = true ∨ (lv = .hypervisor ∧ (slotFor s c).getD 0 ≠ 0) ∨
         (s.part ((slotFor s c).getD 0)).status ≠ .sealed) with
     payload := fun s => leBytes 8 (named s), own := true },
   ctxRow c 0x06 x (.xlate c x y (4 * z))
     (fun s => y % 4 = 0 ∧ z ≠ 0 ∧ ∃ ws e, codeWords s x y z = some ws ∧ s.firn.find? (fun e => e.key == firnKey s ws && !e.stale) = some e)
     (fun s =>
       let key := firnKey s ((codeWords s x y z).getD [])
       firnPut s x y (((s.firn.find? fun e => e.key == key && !e.stale).map (·.words)).getD []) key)
     (fun s => y % 4 ≠ 0 ∨ z = 0 ∨ codeWords s x y z = none),
   { plainRow 0x07 (.xldone c x 0) (fun s => ∃ r, s.transReqs.find? (fun r => r.tag == x && r.assisted) = some r)
       (fun s => ((s.transReqs.find? fun r => r.tag == x && r.assisted).map fun r =>
         completed { s with transReqs := s.transReqs.filter fun k => k.tag != x } r.cmd 1 []).getD s)
       (fun s => s.transReqs.find? (fun r => r.tag == x && r.assisted) = none) with physical := true }]

end Sys2Proof.Machine

/-- R42, R78, R79, R273, R302, R304, R321, R332, R333, R335, R337–R339, R341: what each of the host's commands asks for, does and is answered; LOADFW,
CTXEND, PRQANS with a Fail, an ADMIT that admits, XLDONE with bytes, PAUSE, PAUSE_RESTORE and DEBUG_RESUME, whose answers come later or with other
effects. -/
def Obligations.host_commands : Prop :=
  (∀ (s : State) (c : Command) (x y z u : Nat) (f : Bool) (ports : BitVec 12) (lv : Level) (p v : Word64),
    ∀ r, IsHostRow c x y z u f ports lv p v r → r.answers c s) ∧
  (∀ (s : State) (c : Command) (x y : Nat), isNext s c 0x01 → c.fn.vf = none → holds s c.fn.port →
    let b := afterTaking s c
    (s.firmware.loaded = true ∨ s.firmware.verifying ≠ none → exec (.loadfw c x y) s = .next (completed b c 4 [])) ∧
    (s.firmware.loaded = false → s.firmware.verifying = none →
      exec (.loadfw c x y) s = .next { b with firmware := { s.firmware with verifying := some (c, x, y) } })) ∧
  (∀ (s : State) (c : Command) (n : Nat) (k : Context), isNext s c 0x10 → isReady s c → n < 256 →
    let b := afterTaking s c
    let ctx := (slotFor s c).getD 0 * 256 + n
    (c.fn.vf ≠ none → (slotFor s c).getD 0 ≠ 0) →
    s.ctx? ctx = some k → k.ending = none →
    ∃ t, exec (.ctxend c n) s = .next t ∧
      (∃ k', t.ctx? ctx = some k' ∧ k'.ending = some (s.qcount + 2) ∧ k'.demand = []) ∧
      (∀ e ∈ t.tlb, e.ctx ≠ ctx) ∧
      t.delayed = b.delayed ++ [(fnKey c.fn, s.qcount + 2, { kind := 1, tag := c.tag, status := 0, payload := [] })]) ∧
  (∀ (s : State) (c : Command) (n : Nat) (r : PageReq) (w : Walker), isNext s c 0x03 → isReady s c → c.fn.vf = none →
    mapGet s.requests n = some r → r.assisted = true → r.waiters = [w] →
    (∀ key lane q, w = .fetch key lane → s.squad? key = some q → q.glide = none) →
    ∃ t, exec (.prqans c n true) s = .next (completed t c 0 []) ∧ afterFail (withoutRequest (afterTaking s c) n) r w (.next t)) ∧
  (∀ (s : State) (c : Command) (x y id : Nat) (g : Grid) (t : State), isNext s c 0x04 → isReady s c → inReach s c x →
    s.grids.find? (fun (_, g) => g.ctx == x && g.queue == y && g.status == .requested) = some (id, g) →
    exec .gridAdmit ((afterTaking s c).modGrid id fun g => { g with status := .granted }) = .next t →
    exec (.admitAnswer c x y false) s = .next (completed t c 0 [])) ∧
  (∀ (s : State) (c : Command) (n addr : Nat) (r : TransReq), isNext s c 0x07 → isReady s c → c.fn.vf = none → addr ≠ 0 →
    s.transReqs.find? (fun r => r.tag == n && r.assisted) = some r →
    let b : State := { afterTaking s c with transReqs := s.transReqs.filter fun k => k.tag != r.tag }
    let ws := wordsOfBytes (hostRead s addr r.len)
    (∀ vs, walferOf s r = some vs → scheduledOk vs.length vs ws = true →
      exec (.xldone c n addr) s = .next (completed (completed (firnPut b r.ctx r.start ws r.key) r.cmd 0 []) c 0 [])) ∧
    ((∀ vs, walferOf s r = some vs → scheduledOk vs.length vs ws = false) →
      exec (.xldone c n addr) s = .next (completed (completed b r.cmd 1 []) c 1 []))) ∧
  ((∀ ws : List Word32, scheduledOk ws.length ws ws = true) ∧
    ∀ w0 w1 v0 v1 : Word32, w0.toNat % 4 = 1 →
      let free (w v : Nat) : Prop := w % 256 = v % 256 ∨ 0xF0 ≤ v % 256 ∧ v % 256 ≤ 0xF3 ∧ w % 256 < 0xD0
      (scheduledOk 2 [w0, w1] [v0, v1] = true ↔
        w0.toNat % 2 ^ 12 = v0.toNat % 2 ^ 12 ∧ w0.toNat / 2 ^ 31 = v0.toNat / 2 ^ 31 ∧ free (w0.toNat / 2 ^ 12 % 512) (v0.toNat / 2 ^ 12 % 512) ∧
        free (w0.toNat / 2 ^ 21 % 512) (v0.toNat / 2 ^ 21 % 512) ∧
        (if 0x380 ≤ w0.toNat / 4 % 1024 ∨ w0.toNat / 4 % 1024 ∈ numberOps then w1.toNat % 512 = v1.toNat % 512
          else free (w1.toNat % 512) (v1.toNat % 512)) ∧
        w1.toNat / 512 % 256 = v1.toNat / 512 % 256 ∧ w1.toNat / 2 ^ 18 = v1.toNat / 2 ^ 18)) ∧
  (∀ (s : State) (c : Command) (ctx : Nat) (k : Context), isNext s c 0x09 → isReady s c → inReach s c ctx → s.ctx? ctx = some k → k.pausing = none →
    let b := afterTaking s c
    let placed : Prop := ∃ x ∈ s.groups, ctxOfGroup s x.2 = ctx ∧ x.2.status = .placed
    (¬placed → exec (.pause c ctx) s = .next (completed (b.modCtx ctx fun x => { x with pausedAt := some (x.pausedAt.getD s.ns) }) c 0 [])) ∧
    (placed → ∃ t, exec (.pause c ctx) s = .next t ∧ t = { b with squads := t.squads, ctxs := t.ctxs } ∧
      t.ctx? ctx = some { k with pausing := some c } ∧
      ∀ n q, s.squad? n = some q → ∃ q', t.squad? n = some q' ∧
        q' = if q.here ∧ s.ctxOf q = ctx ∧ q.evictSince = none then { q with evictSince := some s.cycle } else q)) ∧
  (∀ (s : State) (c : Command) (ctx : Nat) (k : Context), s.ctx? ctx = some k → k.pausing = some c →
    (∀ x ∈ s.groups, ctxOfGroup s x.2 = ctx → x.2.status ≠ .placed) →
    exec (.pause c ctx) s = .next (completed (s.modCtx ctx fun x => { x with pausing := none, pausedAt := some (x.pausedAt.getD s.ns) }) c 0 [])) ∧
  (∀ (s : State) (c : Command) (ctx : Nat) (k : Context), isNext s c 0x09 → isReady s c → inReach s c ctx → s.ctx? ctx = some k → k.pausing = none →
    (∀ x ∈ s.groups, ctxOfGroup s x.2 = ctx → x.2.status ≠ .evicted ∧ x.2.status ≠ .discarded) →
    exec (.pauseRestore c ctx []) s = .next (completed ((afterTaking s c).modCtx ctx fun x =>
      match x.pausedAt with
      | none => x
      | some u => { x with pausedAt := none, toffset := if x.frozen then x.toffset - BitVec.ofNat 64 (s.ns - u) else x.toffset }) c 0 [])) ∧
  (∀ (s : State) (c : Command) (ctx : Nat), isNext s c 0x09 → ¬isReady s c → (∀ k, s.ctx? ctx = some k → k.pausing ≠ some c) → ∀ i,
    (i = .pause c ctx ∨ ∃ cores, i = .pauseRestore c ctx cores) → exec i s = .next (completed (afterTaking s c) c 2 [])) ∧
  ∀ (s : State) (c : Command) (ctx gk : Nat) (k : Context) (g : Group), isNext s c 0x08 → isReady s c → inReach s c ctx → s.ctx? ctx = some k →
    (k.debugger ≠ some c.fn → exec (.debugResume c ctx) s = .next (completed (afterTaking s c) c 1 [])) ∧
    (k.debugger = some c.fn → haltedOf s ctx = [gk] → s.group? gk = some g → (∀ n q, groupOfSquad n = gk → s.squad? n = some q → q.events = []) →
      exec (.debugResume c ctx) s = .next (completed ((afterTaking s c).modGroup gk fun x => { x with halted := false }) c 0 []))

namespace Sys2Proof.Machine

/-- R331, R336: a port's accesses to memory are accepted: firmware is loaded and CXL.mem enabled. -/
def Accepts (s : State) (p : HostPort) : Prop := s.firmware.loaded = true ∧ s.cxlMem.getD (match p with | .h0 => 0 | .h1 => 1) false = true

/-- R316: and none has to wait for a cluster of the address's die. -/
def Opened (s : State) (p : HostPort) (a : Nat) : Prop :=
  Accepts s p ∧ ∀ c, c / 16 = a / 2 ^ 38 → (s.cluster c).permafrost = false

end Sys2Proof.Machine

/-- R316, R327, R330–R332, R336: a host's accesses: the semaphore's register, and the device's LPDDR6 memory, which it reads as ciphertext where a key
wrote it; a host access wakes the clusters of its die and waits for them (the model's reading, log 26); none is made before firmware is loaded or where
its port is not enabled. -/
def Obligations.host_accesses : Prop :=
  (∀ (s : State) (p : HostPort),
    let me : Nat := match p with | .h0 => 1 | .h1 => 2
    let mine : Semaphore := { owner := me, leaseEnd := s.ns + 100000000 }
    let shown (m : Semaphore) : State :=
      { s with sem := m, hostReply := leBytes 8 (m.owner + 2 ^ 32 * Nat.min 100000 ((m.leaseEnd - s.ns) / 1000)) }
    exec (.hpsemRead p) s = .next (shown s.sem) ∧
    exec (.hpsemAcquire p) s = .next (shown (if s.sem.owner ≠ 0 ∧ s.ns < s.sem.leaseEnd then s.sem else mine)) ∧
    exec (.hpsemRenew p) s = .next (shown (if s.sem.owner = me then mine else s.sem)) ∧
    exec (.hpsemRelease p) s = .next (shown (if s.sem.owner = me then { owner := 0, leaseEnd := 0 } else s.sem))) ∧
  (∀ (s : State) (p : HostPort) (a n : Nat), a + n ≤ 2 ^ 40 → Opened s p a → ∃ t, exec (.hostMemoryAccess ⟨p, a⟩ n none) s = .next t ∧ t.mem = s.mem ∧
    t.unitKeys = s.unitKeys ∧ t.hostReply.length = n ∧ ∀ i, i < n → t.hostReply[i]? = some (match s.unitKey ((a + i) / 32) with
      | none => memRead s.mem (a + i)
      | some 0 => memRead s.mem (a + i)
      | some k => Config.cipherUnit k ((a + i) / 32) (memReadN s.mem ((a + i) / 32 * 32) 32) ((a + i) % 32))) ∧
  (∀ (s : State) (p : HostPort) (a n : Nat) (bs : List Byte), a + bs.length ≤ 2 ^ 40 → Opened s p a →
    ∃ t, exec (.hostMemoryAccess ⟨p, a⟩ n (some bs)) s = .next t ∧
    (∀ k x, k = 0 → a ≤ x → x < a + bs.length → t.readPhys k x = bs.getD (x - a) 0#8) ∧
    ∀ x, (x / 32 < a / 32 ∨ (a + bs.length + 31) / 32 ≤ x / 32) → memRead t.mem x = memRead s.mem x ∧
      mapGet t.unitKeys (x / 32) = mapGet s.unitKeys (x / 32)) ∧
  (∀ (s : State) (p : HostPort) (a n c : Nat) (d : Option (List Byte)), a + (d.map (·.length)).getD n ≤ 2 ^ 40 → Accepts s p → c / 16 = a / 2 ^ 38 →
    (s.cluster c).permafrost = true →
    ((s.cluster c).wakeAt = none →
      ∃ t, exec (.hostMemoryAccess ⟨p, a⟩ n d) s = .next t ∧ t = { s with clusters := t.clusters } ∧
        t.cluster c = { s.cluster c with wakeAt := some s.cycle }) ∧
    ((∀ k, k / 16 = c / 16 → (s.cluster k).permafrost = true → (s.cluster k).wakeAt ≠ none) →
      ∃ name, exec (.hostMemoryAccess ⟨p, a⟩ n d) s = .refused (.notDue name))) ∧
  (∀ (s : State) (p : HostPort) (a n : Nat) (d : Option (List Byte)), a + (d.map (·.length)).getD n ≤ 2 ^ 40 → ¬Accepts s p →
    ∃ name, exec (.hostMemoryAccess ⟨p, a⟩ n d) s = .refused (.notDue name)) ∧
  ∀ (s : State) (p : HostPort) (a n : Nat) (d : Option (List Byte)), 2 ^ 40 < a + (d.map (·.length)).getD n →
    exec (.hostMemoryAccess ⟨p, a⟩ n d) s = .fault .hostRange
end

