-- ==== Sys2Proof/Laws/Maps.lean ====
section
/-!
SUPPORT. Maps and memories: what a read gives after a write, and that every memory operation keeps the canonical form.
-/
namespace Sys2Proof.Machine

/-! ### Reads after writes -/

@[simp] theorem mapGet_nil {V : Type} (a : Nat) : mapGet ([] : Map V) a = none := rfl

@[simp] theorem mapGet_cons {V : Type} (k : Nat) (v : V) (m : Map V) (a : Nat) :
    mapGet ((k, v) :: m) a = if a = k then some v else mapGet m a := rfl

@[simp] theorem mapGet_set_self {V : Type} (m : Map V) (a : Nat) (x : V) : mapGet (mapSet m a x) a = some x := by
  induction m with
  | nil => simp [mapSet]
  | cons c m ih => obtain ⟨k, v⟩ := c; simp only [mapSet]; split <;> (try split) <;> simp_all

theorem mapGet_set_ne {V : Type} {a b : Nat} (m : Map V) (x : V) (h : b ≠ a) : mapGet (mapSet m a x) b = mapGet m b := by
  induction m with
  | nil => simp [mapSet, h]
  | cons c m ih => obtain ⟨k, v⟩ := c; simp only [mapSet]; split <;> (try split) <;> simp_all

theorem mapGet_set {V : Type} (m : Map V) (a b : Nat) (x : V) :
    mapGet (mapSet m a x) b = if b = a then some x else mapGet m b := by
  split
  · subst_vars; simp
  · exact mapGet_set_ne m x ‹_›

theorem mapGet_filter_ne {V : Type} (m : Map V) (p : Nat → Bool) (b : Nat) :
    mapGet (List.filter (fun c => p c.1) m) b = if p b then mapGet m b else none := by
  induction m with
  | nil => simp
  | cons c m ih =>
    obtain ⟨k, v⟩ := c
    by_cases hp : p k <;> by_cases hb : b = k <;> simp_all [List.filter]

theorem mapGet_erase {V : Type} (m : Map V) (a b : Nat) : mapGet (mapErase m a) b = if b = a then none else mapGet m b := by
  rw [mapErase, mapGet_filter_ne m (· != a)]; by_cases h : b = a <;> simp [h]

@[simp] theorem mapGet_erase_self {V : Type} (m : Map V) (a : Nat) : mapGet (mapErase m a) a = none := by simp [mapGet_erase]

theorem mapGet_mod {V : Type} (m : Map V) (a b : Nat) (f : V → V) :
    mapGet (mapMod m a f) b = if b = a then (mapGet m a).map f else mapGet m b := by
  unfold mapMod
  split <;> by_cases h : b = a <;> simp_all [mapGet_set]

@[simp] theorem mapGet_mod_self {V : Type} (m : Map V) (a : Nat) (f : V → V) :
    mapGet (mapMod m a f) a = (mapGet m a).map f := by simp [mapGet_mod]

theorem mapGet_upd {V : Type} (m : Map V) (a b : Nat) (d : V) (f : V → V) :
    mapGet (mapUpd m a d f) b = if b = a then some (f ((mapGet m a).getD d)) else mapGet m b := by
  rw [mapUpd, mapGet_set]

theorem mapGet_all {V : Type} (m : Map V) (f : Nat → V → V) (a : Nat) : mapGet (mapAll m f) a = (mapGet m a).map (f a) := by
  induction m with
  | nil => rfl
  | cons c m ih =>
    obtain ⟨k, v⟩ := c
    have : mapAll ((k, v) :: m) f = (k, f k v) :: mapAll m f := rfl
    rw [this, mapGet_cons, mapGet_cons, ih]; by_cases h : a = k <;> simp [h]

/-! ### The canonical form -/

/-- Every key of a map lies above a bound. -/
def mapAbove {V : Type} (a : Nat) (m : Map V) : Prop := ∀ c ∈ m, a < c.1

theorem mapSorted_cons {V : Type} (k : Nat) (v : V) (m : Map V) :
    mapSorted ((k, v) :: m) = true ↔ mapAbove k m ∧ mapSorted m = true := by
  induction m generalizing k v with
  | nil => simp [mapSorted, mapAbove]
  | cons c m ih =>
    obtain ⟨k', v'⟩ := c
    simp only [mapSorted, Bool.and_eq_true, decide_eq_true_eq]
    constructor
    · rintro ⟨h, hs⟩
      refine ⟨?_, hs⟩
      intro c hc
      rcases List.mem_cons.1 hc with rfl | hc
      · exact h
      · exact Nat.lt_trans h ((ih k' v').1 hs |>.1 c hc)
    · rintro ⟨h, hs⟩
      exact ⟨h _ (List.mem_cons_self ..), hs⟩

theorem mapSorted_filter {V : Type} (m : Map V) (p : Nat × V → Bool) (h : mapSorted m = true) :
    mapSorted (List.filter p m) = true := by
  induction m with
  | nil => rfl
  | cons c m ih =>
    obtain ⟨k, v⟩ := c
    obtain ⟨ha, hs⟩ := (mapSorted_cons k v m).1 h
    by_cases hp : p (k, v)
    · simp only [List.filter_cons, hp, if_true]
      exact (mapSorted_cons ..).2 ⟨fun c hc => ha c (List.mem_filter.1 hc).1, ih hs⟩
    · simp only [List.filter_cons, hp]; exact ih hs

theorem mapAbove_set {V : Type} (m : Map V) (b a : Nat) (x : V) (h : mapAbove b m) (hb : b < a) : mapAbove b (mapSet m a x) := by
  induction m with
  | nil => simp [mapSet, mapAbove, hb]
  | cons c m ih =>
    obtain ⟨k, v⟩ := c
    have hm : mapAbove b m := fun c hc => h c (List.mem_cons_of_mem _ hc)
    have hk : b < k := h (k, v) (List.mem_cons_self ..)
    simp only [mapSet]
    split
    · intro c hc; rcases List.mem_cons.1 hc with rfl | hc
      · exact hb
      · exact h c hc
    · split
      · intro c hc; rcases List.mem_cons.1 hc with rfl | hc
        · exact hb
        · exact hm c hc
      · intro c hc; rcases List.mem_cons.1 hc with rfl | hc
        · exact hk
        · exact ih hm c hc

theorem mapSorted_set {V : Type} (m : Map V) (a : Nat) (x : V) (h : mapSorted m = true) : mapSorted (mapSet m a x) = true := by
  induction m with
  | nil => rfl
  | cons c m ih =>
    obtain ⟨k, v⟩ := c
    obtain ⟨ha, hs⟩ := (mapSorted_cons k v m).1 h
    simp only [mapSet]
    split
    · refine (mapSorted_cons ..).2 ⟨?_, h⟩
      intro c hc; rcases List.mem_cons.1 hc with rfl | hc
      · assumption
      · exact Nat.lt_trans ‹_› (ha c hc)
    · split
      · subst_vars; exact (mapSorted_cons ..).2 ⟨ha, hs⟩
      · exact (mapSorted_cons ..).2 ⟨mapAbove_set m k a x ha (by omega), ih hs⟩

theorem mem_mapSet {V : Type} (m : Map V) (a : Nat) (x : V) (c : Nat × V) (h : c ∈ mapSet m a x) : c = (a, x) ∨ c ∈ m := by
  induction m with
  | nil => simpa [mapSet] using h
  | cons d m ih =>
    obtain ⟨k, v⟩ := d
    simp only [mapSet] at h
    split at h
    · simpa using h
    · split at h
      · rcases List.mem_cons.1 h with h | h
        · exact .inl h
        · exact .inr (List.mem_cons_of_mem _ h)
      · rcases List.mem_cons.1 h with h | h
        · exact .inr (h ▸ List.mem_cons_self ..)
        · rcases ih h with h | h
          · exact .inl h
          · exact .inr (List.mem_cons_of_mem _ h)

/-! ### Memories -/

theorem memRead_write (m : Memory) (a b : Nat) (x : Byte) : memRead (memWrite m a x) b = if b = a then x else memRead m b := by
  unfold memRead memWrite
  split
  · rw [mapGet_erase]; split <;> simp_all
  · rw [mapGet_set]; split <;> rfl

@[simp] theorem memRead_write_self (m : Memory) (a : Nat) (x : Byte) : memRead (memWrite m a x) a = x := by simp [memRead_write]

theorem memRead_writeN (m : Memory) (a : Nat) (bs : List Byte) (b : Nat) :
    memRead (memWriteN m a bs) b = if a ≤ b ∧ b < a + bs.length then bs.getD (b - a) 0#8 else memRead m b := by
  induction bs generalizing m a with
  | nil => simp [memWriteN] <;> omega
  | cons x xs ih =>
    rw [memWriteN, ih, memRead_write]
    by_cases h : b = a
    · subst h; simp <;> omega
    · by_cases h2 : a + 1 ≤ b ∧ b < a + 1 + xs.length
      · have e : b - a = (b - (a + 1)) + 1 := by omega
        have h3 : a ≤ b ∧ b < a + (x :: xs).length := by simp; omega
        rw [if_pos h2, if_pos h3, e]; simp [List.getD]
      · have h3 : ¬(a ≤ b ∧ b < a + (x :: xs).length) := by simp; omega
        rw [if_neg h2, if_neg h3, if_neg h]

/-- Bytes outside a write read as before. -/
theorem memRead_writeN_outside (m : Memory) (a : Nat) (bs : List Byte) (b : Nat) (h : b < a ∨ a + bs.length ≤ b) :
    memRead (memWriteN m a bs) b = memRead m b := by
  rw [memRead_writeN, if_neg (by omega)]

@[simp] theorem memReadN_length (m : Memory) (a n : Nat) : (memReadN m a n).length = n := by
  induction n generalizing a with
  | zero => rfl
  | succ n ih => simp [memReadN, ih]

theorem memReadN_getElem (m : Memory) (a n i : Nat) (h : i < n) : (memReadN m a n)[i]? = some (memRead m (a + i)) := by
  induction n generalizing a i with
  | zero => omega
  | succ n ih =>
    cases i with
    | zero => simp [memReadN]
    | succ i => simp only [memReadN, List.getElem?_cons_succ]; rw [ih (a + 1) i (by omega)]; congr 2; omega

/-- A read of what was just written gives it back. -/
theorem memReadN_writeN (m : Memory) (a : Nat) (bs : List Byte) : memReadN (memWriteN m a bs) a bs.length = bs := by
  apply List.ext_getElem? ; intro i
  by_cases h : i < bs.length
  · rw [memReadN_getElem _ _ _ _ h, memRead_writeN, if_pos (by omega)]
    simp [List.getD, h]
  · simp [h]

theorem memWf_nil : memWf [] = true := rfl

theorem memWf_iff (m : Memory) : memWf m = true ↔ mapSorted m = true ∧ ∀ c ∈ m, c.2 ≠ 0#8 := by
  simp [memWf]

theorem memWf_filter (m : Memory) (p : Host.Cell → Bool) (h : memWf m = true) : memWf (List.filter p m) = true := by
  rw [memWf_iff] at *
  exact ⟨mapSorted_filter m p h.1, fun c hc => h.2 c (List.mem_filter.1 hc).1⟩

theorem memWf_write (m : Memory) (a : Nat) (x : Byte) (h : memWf m = true) : memWf (memWrite m a x) = true := by
  unfold memWrite
  split
  · exact memWf_filter m _ h
  · rw [memWf_iff] at *
    refine ⟨mapSorted_set m a x h.1, fun c hc => ?_⟩
    rcases mem_mapSet m a x c hc with rfl | hc
    · assumption
    · exact h.2 c hc

theorem memWf_writeN (m : Memory) (a : Nat) (bs : List Byte) (h : memWf m = true) : memWf (memWriteN m a bs) = true := by
  induction bs generalizing m a with
  | nil => exact h
  | cons x xs ih => exact ih _ _ (memWf_write m a x h)

theorem memWf_zero (m : Memory) (a n : Nat) (h : memWf m = true) : memWf (memZero m a n) = true := memWf_filter m _ h

theorem memRead_zero (m : Memory) (a n b : Nat) : memRead (memZero m a n) b = if b < a ∨ a + n ≤ b then memRead m b else 0#8 := by
  have e := mapGet_filter_ne (V := Byte) m (fun k => decide (k < a) || decide (a + n ≤ k)) b
  have e2 : mapGet (memZero m a n) b = if decide (b < a) || decide (a + n ≤ b) then mapGet m b else none := e
  unfold memRead
  rw [e2]
  by_cases h : b < a ∨ a + n ≤ b
  · rw [if_pos h, if_pos (by simpa using h)]
  · rw [if_neg h, if_neg (by simpa using h)]; rfl

/-! ### Bytes and numbers -/

@[simp] theorem leBytes_length (n v : Nat) : (leBytes n v).length = n := by
  induction n generalizing v with
  | zero => rfl
  | succ n ih => simp [leBytes, ih]

theorem leNat_leBytes (n v : Nat) : leNat (leBytes n v) = v % 2 ^ (8 * n) := by
  induction n generalizing v with
  | zero => simp [leBytes, leNat]; omega
  | succ n ih =>
    rw [leBytes, leNat, ih]
    have : 2 ^ (8 * (n + 1)) = 256 * 2 ^ (8 * n) := by rw [show 8 * (n + 1) = 8 + 8 * n by omega, Nat.pow_add]
    rw [this, Nat.mod_mul]; simp

end Sys2Proof.Machine
end

