-- ==== Sys2Proof/Laws/Lanes.lean ====
section
/-!
SUPPORT. Lane masks, the lanes of a squad, and what meetings may change.
-/
namespace Sys2Proof.Machine

theorem foldr_mask (p : Nat → Bool) (l : List Nat) (i : Nat) :
    (l.foldr (fun i m => if p i then m ||| BitVec.twoPow 32 i else m) 0#32).getLsbD i = (decide (i < 32) && p i && decide (i ∈ l)) := by
  induction l with
  | nil => simp
  | cons x xs ih =>
    rw [List.foldr_cons]
    by_cases hp : p x
    · simp only [hp, if_true, BitVec.getLsbD_or, ih, BitVec.getLsbD_twoPow]
      by_cases hx : i = x
      · subst hx; simp [hp]; exact fun h _ => h
      · have : ¬x = i := fun h => hx h.symm
        simp [hx, this]
    · rw [if_neg hp, ih]
      by_cases hx : i = x
      · subst hx; simp [hp]
      · simp [hx]

@[simp] theorem maskOf_get (p : Nat → Bool) (i : Nat) : (maskOf p).getLsbD i = (decide (i < 32) && p i) := by
  rw [maskOf, foldr_mask]
  by_cases h : i < 32 <;> simp [h]

theorem mem_lanesOf (m : LaneMask) (i : Nat) : i ∈ lanesOf m ↔ m.getLsbD i = true := by
  simp only [lanesOf, List.mem_filter, List.mem_range]
  refine ⟨fun h => h.2, fun h => ⟨?_, h⟩⟩
  by_cases hi : i < 32
  · exact hi
  · rw [BitVec.getLsbD_of_ge m i (by omega)] at h; cases h

@[simp] theorem atLanes_length {α : Type} (m : LaneMask) (f : Nat → α → α) (k : Nat) (l : List α) :
    (atLanes m f k l).length = l.length := by
  induction l generalizing k with
  | nil => rfl
  | cons x xs ih => simp [atLanes, ih]

theorem atLanes_get {α : Type} (m : LaneMask) (f : Nat → α → α) (k : Nat) (l : List α) (i : Nat) :
    (atLanes m f k l)[i]? = (l[i]?).map fun x => if m.getLsbD (k + i) then f (k + i) x else x := by
  induction l generalizing k i with
  | nil => simp [atLanes]
  | cons x xs ih =>
    cases i with
    | zero => simp [atLanes]
    | succ i => simp only [atLanes, List.getElem?_cons_succ, ih]; congr 2; funext y; rw [show k + 1 + i = k + (i + 1) by omega]

/-- A lane of a squad after a change of the lanes of a mask. -/
theorem lane_onLanes (q : Squad) (m : LaneMask) (f : Lane → Lane) (i : Nat) (h : i < q.lanes.length) :
    (q.onLanes m f).lane i = if m.getLsbD i then f (q.lane i) else q.lane i := by
  simp only [Squad.lane, Squad.onLanes, List.getD_eq_getElem?_getD, atLanes_get, Nat.zero_add]
  rw [List.getElem?_eq_getElem h]; rfl

theorem lane_onLanesI (q : Squad) (m : LaneMask) (f : Nat → Lane → Lane) (i : Nat) (h : i < q.lanes.length) :
    (q.onLanesI m f).lane i = if m.getLsbD i then f i (q.lane i) else q.lane i := by
  simp only [Squad.lane, Squad.onLanesI, List.getD_eq_getElem?_getD, atLanes_get, Nat.zero_add]
  rw [List.getElem?_eq_getElem h]; rfl

@[simp] theorem perLane_get {α : Type} (f : Nat → α) (i : Nat) (d : α) (h : i < 32) : (perLane f).getD i d = f i := by
  simp [perLane, List.getD_eq_getElem?_getD, h]

/-! ### Meetings (R217, R218) -/

/-- What a meeting may change of a squad: whether lanes are held, their meeting addresses, and the bundles. -/
structure Settled (q q' : Squad) : Prop where
  rest : q' = { q with lanes := q'.lanes, bundles := q'.bundles }
  length : q'.lanes.length = q.lanes.length
  lane : ∀ i, i < q.lanes.length → q'.lane i = { q.lane i with hold := (q'.lane i).hold, meetAt := (q'.lane i).meetAt }

theorem Settled.refl (q : Squad) : Settled q q := ⟨rfl, rfl, fun _ _ => rfl⟩

theorem Settled.trans {a b c : Squad} (h : Settled a b) (k : Settled b c) : Settled a c where
  rest := by rw [k.rest, h.rest]
  length := by rw [k.length, h.length]
  lane i hi := by rw [k.lane i (by rw [h.length]; exact hi), h.lane i hi]

theorem settled_onLanes (q : Squad) (m : LaneMask) (f : Lane → Lane)
    (hf : ∀ l, f l = { l with hold := (f l).hold, meetAt := (f l).meetAt }) : Settled q (q.onLanes m f) where
  rest := rfl
  length := by simp [Squad.onLanes]
  lane i hi := by
    rw [lane_onLanes q m f i hi]
    split
    · exact hf _
    · rfl

theorem settled_leaveBundles (q : Squad) (m : LaneMask) : Settled q (q.leaveBundles m) := ⟨rfl, rfl, fun _ _ => rfl⟩

theorem settled_holdMeet (q : Squad) : Settled q q.holdMeet := by
  unfold Squad.holdMeet
  simp only
  split
  · exact .refl q
  · exact (settled_onLanes q _ _ fun _ => rfl).trans (settled_leaveBundles _ _)

theorem settled_tryRelease (q : Squad) (x : Word64) : Settled q (q.tryRelease x) := by
  unfold Squad.tryRelease
  simp only
  split
  · exact settled_onLanes q _ _ fun _ => rfl
  · exact .refl q

theorem settled_settle (q : Squad) : Settled q q.settle := by
  have key : ∀ (l : List Nat) (a : Squad), Settled q a →
      Settled q (l.foldl (fun q i => match (q.lane i).meetAt with | some x => q.tryRelease x | none => q) a) := by
    intro l
    induction l with
    | nil => exact fun a h => h
    | cons i l ih =>
      intro a h
      rw [List.foldl_cons]
      apply ih
      split
      · exact h.trans (settled_tryRelease _ _)
      · exact h
  exact key _ _ (settled_holdMeet q)

end Sys2Proof.Machine
end

