-- ==== Sys2Proof/Laws/Files.lean ====
section
/-!
SUPPORT. Register files: what a read gives after a write, a release, a flush of a latch; together, `AfterFiles`.
-/
namespace Sys2Proof.Machine

/-! ### Writes of one register -/

theorem mask_ne_zero {m : LaneMask} {L : Nat} (h : m.getLsbD L = true) : m ≠ 0#32 := by rintro rfl; simp at h

theorem lt_of_mask {m : LaneMask} {L : Nat} (h : m.getLsbD L = true) : L < 32 := by
  by_cases hl : L < 32
  · exact hl
  · rw [BitVec.getLsbD_of_ge m L (by omega)] at h; cases h

theorem readV_writeV (f : Files) (n k : Nat) (m : LaneMask) (vs : List Word32) (L : Nat) (hL : L < 32) :
    ((f.writeV n m vs).readV k).getD L 0#32 = if k = n ∧ m.getLsbD L = true then vs.getD L 0#32 else (f.readV k).getD L 0#32 := by
  unfold Files.writeV
  simp only
  split
  · next h => subst h; simp
  · by_cases hk : k = n
    · subst hk
      simp only [Files.readV, mapGet_set_self, Option.map_some, Option.getD_some, true_and]
      rw [perLane_get _ _ _ hL]
    · simp only [Files.readV, mapGet_set_ne _ _ hk, hk, false_and, if_false]

@[simp] theorem readS_writeV (f : Files) (n k : Nat) (m : LaneMask) (vs : List Word32) : (f.writeV n m vs).readS k = f.readS k := by
  unfold Files.writeV; simp only; split <;> rfl
@[simp] theorem readA_writeV (f : Files) (n k : Nat) (m : LaneMask) (vs : List Word32) : (f.writeV n m vs).readA k = f.readA k := by
  unfold Files.writeV; simp only; split <;> rfl
theorem readS_writeS (f : Files) (n k : Nat) (w : Word64) : (f.writeS n w).readS k = if k = n then w else f.readS k := by
  simp only [Files.readS, Files.writeS, mapGet_set]; split <;> rfl
@[simp] theorem readV_writeS (f : Files) (n k : Nat) (w : Word64) : (f.writeS n w).readV k = f.readV k := rfl
@[simp] theorem readA_writeS (f : Files) (n k : Nat) (w : Word64) : (f.writeS n w).readA k = f.readA k := rfl
theorem readA_writeA (f : Files) (n k : Nat) (b : Word64) (st : Word32) :
    (f.writeA n b st).readA k = if k = n then (b, st) else f.readA k := by
  simp only [Files.readA, Files.writeA, mapGet_set]; split <;> rfl
@[simp] theorem readV_writeA (f : Files) (n k : Nat) (b : Word64) (st : Word32) : (f.writeA n b st).readV k = f.readV k := rfl
@[simp] theorem readS_writeA (f : Files) (n k : Nat) (b : Word64) (st : Word32) : (f.writeA n b st).readS k = f.readS k := rfl

/-! ### Consecutive registers -/

theorem readV_writeRegs (f : Files) (n k : Nat) (m : LaneMask) (regs : List (List Word32)) (L : Nat) (hL : L < 32) :
    ((writeRegs f n m regs).readV k).getD L 0#32 =
      if n ≤ k ∧ k < n + regs.length ∧ m.getLsbD L = true then (regs.getD (k - n) []).getD L 0#32 else (f.readV k).getD L 0#32 := by
  induction regs generalizing f n with
  | nil => simp [writeRegs] <;> omega
  | cons vs rest ih =>
    rw [writeRegs, ih, readV_writeV _ _ _ _ _ _ hL]
    by_cases hm : m.getLsbD L = true
    · by_cases hk : k = n
      · subst hk; simp [hm] <;> omega
      · by_cases h : n + 1 ≤ k ∧ k < n + 1 + rest.length
        · have e : k - n = (k - (n + 1)) + 1 := by omega
          have h2 : n ≤ k ∧ k < n + (vs :: rest).length := by simp; omega
          simp [hm, h, h2, e, List.getD_eq_getElem?_getD]
          intro hc; omega
        · have h2 : ¬(n ≤ k ∧ k < n + (vs :: rest).length) := by simp; omega
          rw [if_neg (by omega), if_neg (by omega), if_neg (by omega)]
    · simp [hm]

@[simp] theorem readS_writeRegs (f : Files) (n k : Nat) (m : LaneMask) (regs : List (List Word32)) :
    (writeRegs f n m regs).readS k = f.readS k := by
  induction regs generalizing f n with
  | nil => rfl
  | cons vs rest ih => rw [writeRegs, ih, readS_writeV]
@[simp] theorem readA_writeRegs (f : Files) (n k : Nat) (m : LaneMask) (regs : List (List Word32)) :
    (writeRegs f n m regs).readA k = f.readA k := by
  induction regs generalizing f n with
  | nil => rfl
  | cons vs rest ih => rw [writeRegs, ih, readA_writeV]

/-! ### Releases (R24) -/

theorem readV_release (f : Files) (x : Name) (n : Fin 128) (h : x ≠ .v n) : (f.release x).readV n.val = f.readV n.val := by
  cases x <;> simp only [Files.release, Files.readV]
  next k => rw [mapGet_erase, if_neg]; intro e; exact h (by rw [Fin.ext e])
theorem readS_release (f : Files) (x : Name) (n : Fin 64) (h : x ≠ .s n) : (f.release x).readS n.val = f.readS n.val := by
  cases x <;> simp only [Files.release, Files.readS]
  next k => rw [mapGet_erase, if_neg]; intro e; exact h (by rw [Fin.ext e])
theorem readA_release (f : Files) (x : Name) (n : Fin 16) (h : x ≠ .a n) : (f.release x).readA n.val = f.readA n.val := by
  cases x <;> simp only [Files.release, Files.readA]
  next k => rw [mapGet_erase, if_neg]; intro e; exact h (by rw [Fin.ext e])

theorem readV_release_self (f : Files) (n : Fin 128) (L : Nat) : ((f.release (.v n)).readV n.val).getD L 0#32 = 0#32 := by
  simp only [Files.release, Files.readV, mapGet_erase, if_true, Option.map_none, Option.getD_none, zeros, List.getD_eq_getElem?_getD,
    List.getElem?_replicate]
  split <;> rfl
theorem readS_release_self (f : Files) (n : Fin 64) : (f.release (.s n)).readS n.val = 0#64 := by
  simp [Files.release, Files.readS]
theorem readA_release_self (f : Files) (n : Fin 16) : (f.release (.a n)).readA n.val = (0#64, 0#32) := by
  simp [Files.release, Files.readA]

/-- A property that one element of a list sets and every element keeps. -/
theorem foldl_sets {α β : Type} (f : α → β → α) (p : α → Prop) (y : β) (h1 : ∀ a, p (f a y)) (h2 : ∀ a x, p a → p (f a x)) (xs : List β)
    (hy : y ∈ xs) (a : α) : p (xs.foldl f a) := by
  have keep : ∀ (xs : List β) a, p a → p (xs.foldl f a) := by
    intro xs
    induction xs with
    | nil => exact fun _ h => h
    | cons x xs ih => exact fun a h => ih _ (h2 a x h)
  induction xs generalizing a with
  | nil => cases hy
  | cons x xs ih =>
    rcases List.mem_cons.1 hy with rfl | hy
    · exact keep xs _ (h1 a)
    · exact ih hy _

theorem lastV_releases (f : Files) (xs : List Name) (n : Fin 128) (L : Nat) (h : .v n ∈ xs) :
    ((xs.foldl Files.release f).readV n.val).getD L 0#32 = 0#32 :=
  foldl_sets Files.release (fun f => (f.readV n.val).getD L 0#32 = 0#32) (.v n) (fun a => readV_release_self a n L)
    (fun a x ha => by
      by_cases hx : x = .v n
      · subst hx; exact readV_release_self a n L
      · rw [readV_release a x n hx]; exact ha) xs h f
theorem lastS_releases (f : Files) (xs : List Name) (n : Fin 64) (h : .s n ∈ xs) : (xs.foldl Files.release f).readS n.val = 0#64 :=
  foldl_sets Files.release (fun f => f.readS n.val = 0#64) (.s n) (fun a => readS_release_self a n)
    (fun a x ha => by
      by_cases hx : x = .s n
      · subst hx; exact readS_release_self a n
      · rw [readS_release a x n hx]; exact ha) xs h f
theorem lastA_releases (f : Files) (xs : List Name) (n : Fin 16) (h : .a n ∈ xs) : (xs.foldl Files.release f).readA n.val = (0#64, 0#32) :=
  foldl_sets Files.release (fun f => f.readA n.val = (0#64, 0#32)) (.a n) (fun a => readA_release_self a n)
    (fun a x ha => by
      by_cases hx : x = .a n
      · subst hx; exact readA_release_self a n
      · rw [readA_release a x n hx]; exact ha) xs h f

theorem foldl_keeps {α β γ : Type} (f : α → β → α) (g : α → γ) (xs : List β) (a : α) (h : ∀ a, ∀ x ∈ xs, g (f a x) = g a) :
    g (xs.foldl f a) = g a := by
  induction xs generalizing a with
  | nil => rfl
  | cons x xs ih =>
    rw [List.foldl_cons, ih _ fun a y hy => h a y (List.mem_cons_of_mem _ hy)]
    exact h a x (List.mem_cons_self ..)

theorem readV_releases (f : Files) (xs : List Name) (n : Fin 128) (h : .v n ∉ xs) :
    (xs.foldl Files.release f).readV n.val = f.readV n.val :=
  foldl_keeps Files.release (·.readV n.val) xs f fun _ x hx => readV_release _ x n fun e => h (e ▸ hx)
theorem readS_releases (f : Files) (xs : List Name) (n : Fin 64) (h : .s n ∉ xs) :
    (xs.foldl Files.release f).readS n.val = f.readS n.val :=
  foldl_keeps Files.release (·.readS n.val) xs f fun _ x hx => readS_release _ x n fun e => h (e ▸ hx)
theorem readA_releases (f : Files) (xs : List Name) (n : Fin 16) (h : .a n ∉ xs) :
    (xs.foldl Files.release f).readA n.val = f.readA n.val :=
  foldl_keeps Files.release (·.readA n.val) xs f fun _ x hx => readA_release _ x n fun e => h (e ▸ hx)

/-! ### Flushes of a latch (R41) -/

theorem readV_flush (f : Files) (m : LaneMask) (o : Option Fill) (n : Fin 128) (L : Nat) (hL : L < 32)
    (h : ∀ fl, o = some fl → fl.pending = true → ¬fillNames fl (.v n)) :
    ((flushFill f m o).readV n.val).getD L 0#32 = (f.readV n.val).getD L 0#32 := by
  cases o with
  | none => rfl
  | some fl =>
    simp only [flushFill]
    by_cases hp : fl.pending = true
    · have hn := h fl rfl hp
      simp only [hp, Bool.not_true, Bool.false_eq_true, if_false]
      cases hv : fl.val with
      | varying lo hi =>
        cases hd : fl.name <;> simp only [writeResult]
        next k =>
          rw [readV_writeRegs _ _ _ _ _ _ hL, if_neg]
          rintro ⟨h1, h2, -⟩
          apply hn
          by_cases hpair : fl.pair = true
          · simp only [hpair, if_true, List.length_cons, List.length_nil] at h2
            by_cases hk : n.val = k.val
            · exact .inl (by rw [hd, Fin.ext hk])
            · exact .inr ⟨hpair, k, n, hd, rfl, by omega⟩
          · simp only [hpair] at h2
            exact .inl (by rw [hd]; congr 1; exact Fin.ext (by simp at h2; omega))
      | uniform w => cases hd : fl.name <;> simp [writeResult]
      | affine b st => cases hd : fl.name <;> simp [writeResult]
    · simp [hp]

theorem readS_flush (f : Files) (m : LaneMask) (o : Option Fill) (n : Fin 64)
    (h : ∀ fl, o = some fl → fl.pending = true → ¬fillNames fl (.s n)) : (flushFill f m o).readS n.val = f.readS n.val := by
  cases o with
  | none => rfl
  | some fl =>
    simp only [flushFill]
    by_cases hp : fl.pending = true
    · have hn := h fl rfl hp
      simp only [hp, Bool.not_true, Bool.false_eq_true, if_false]
      cases hv : fl.val <;> cases hd : fl.name <;> simp [writeResult]
      next w k => rw [readS_writeS, if_neg]; intro e; exact hn (.inl (by rw [hd, Fin.ext e]))
    · simp [hp]

theorem readA_flush (f : Files) (m : LaneMask) (o : Option Fill) (n : Fin 16)
    (h : ∀ fl, o = some fl → fl.pending = true → ¬fillNames fl (.a n)) : (flushFill f m o).readA n.val = f.readA n.val := by
  cases o with
  | none => rfl
  | some fl =>
    simp only [flushFill]
    by_cases hp : fl.pending = true
    · have hn := h fl rfl hp
      simp only [hp, Bool.not_true, Bool.false_eq_true, if_false]
      cases hv : fl.val <;> cases hd : fl.name <;> simp [writeResult]
      next b st k => rw [readA_writeA, if_neg]; intro e; exact hn (.inl (by rw [hd, Fin.ext e]))
    · simp [hp]

/-- What a pending fill of varying registers leaves in the lanes of its bundle. -/
theorem readV_flush_self (f : Files) (m : LaneMask) (fl : Fill) (k : Fin 128) (lo hi : List Word32) (hp : fl.pending = true)
    (hn : fl.name = .v k) (hv : fl.val = .varying lo hi) (L : Nat) (hL : m.getLsbD L = true) :
    ((flushFill f m (some fl)).readV k.val).getD L 0#32 = lo.getD L 0#32 ∧
      (fl.pair = true → ((flushFill f m (some fl)).readV (k.val + 1)).getD L 0#32 = hi.getD L 0#32) := by
  have h32 := lt_of_mask hL
  simp only [flushFill, hp, Bool.not_true, Bool.false_eq_true, if_false, hn, hv, writeResult]
  constructor
  · rw [readV_writeRegs _ _ _ _ _ _ h32, if_pos ⟨Nat.le_refl _, by split <;> simp, hL⟩]
    split <;> simp
  · intro hpair
    rw [readV_writeRegs _ _ _ _ _ _ h32, if_pos ⟨by omega, by simp [hpair], hL⟩]
    simp [hpair]

theorem readS_flush_self (f : Files) (m : LaneMask) (fl : Fill) (k : Fin 64) (w : Word64) (hp : fl.pending = true) (hn : fl.name = .s k)
    (hv : fl.val = .uniform w) : (flushFill f m (some fl)).readS k.val = w := by
  simp [flushFill, hp, hn, hv, writeResult, readS_writeS]

theorem readA_flush_self (f : Files) (m : LaneMask) (fl : Fill) (k : Fin 16) (b : Word64) (st : Word32) (hp : fl.pending = true)
    (hn : fl.name = .a k) (hv : fl.val = .affine b st) : (flushFill f m (some fl)).readA k.val = (b, st) := by
  simp [flushFill, hp, hn, hv, writeResult, readA_writeA]

/-! ### Results -/

/-- The registers of an instruction that writes `d`: released, then its latch flushed, then written. -/
def filesOf (f : Files) (d : Name) (rel : List Name) (m : LaneMask) (fills held : Bool) (o : Option Fill) (r : Result) : Files :=
  let f := rel.foldl Files.release f
  let f := if fills then flushFill f m o else f
  if held then writeRest f d r else writeResult f d r

/-- What writing a result leaves of a lane of a varying register that it does not reach. -/
theorem readV_result (f : Files) (d : Name) (held : Bool) (r : Result) (n L : Nat) (hL : L < 32) (h : ¬writesLane d r held n L) :
    (((if held then writeRest f d r else writeResult f d r)).readV n).getD L 0#32 = (f.readV n).getD L 0#32 := by
  split
  · next hh =>
    cases d <;> cases r <;> simp only [writeRest]
    next k m regs =>
      rw [readV_writeRegs _ _ _ _ _ _ hL, if_neg]
      rintro ⟨a, b, c⟩
      simp only [List.length_drop] at b
      exact h ⟨by omega, by omega, c, fun _ => by omega⟩
  · next hh =>
    cases d <;> cases r <;> simp only [writeResult, readV_writeS, readV_writeA]
    next k m regs =>
      rw [readV_writeRegs _ _ _ _ _ _ hL, if_neg]
      rintro ⟨a, b, c⟩
      exact h ⟨a, b, c, fun h => absurd h hh⟩

theorem readS_result (f : Files) (d : Name) (held : Bool) (r : Result) (n : Fin 64) (h : ¬(d = .s n ∧ held = false ∧ ∃ w, r = .uniform w)) :
    ((if held then writeRest f d r else writeResult f d r)).readS n.val = f.readS n.val := by
  split
  · cases d <;> cases r <;> simp only [writeRest, readS_writeRegs]
  · next hh =>
    cases d <;> cases r <;> simp only [writeResult, readS_writeRegs, readS_writeA]
    next k w =>
      rw [readS_writeS, if_neg]
      intro e; exact h ⟨by rw [Fin.ext e], by simpa using hh, w, rfl⟩

theorem readA_result (f : Files) (d : Name) (held : Bool) (r : Result) (n : Fin 16)
    (h : ¬(d = .a n ∧ held = false ∧ ∃ b st, r = .affine b st)) :
    ((if held then writeRest f d r else writeResult f d r)).readA n.val = f.readA n.val := by
  split
  · cases d <;> cases r <;> simp only [writeRest, readA_writeRegs]
  · next hh =>
    cases d <;> cases r <;> simp only [writeResult, readA_writeRegs, readA_writeS]
    next k b st =>
      rw [readA_writeA, if_neg]
      intro e; exact h ⟨by rw [Fin.ext e], by simpa using hh, b, st, rfl⟩

theorem afterFiles_filesOf (run : Option Run) (lanes : LaneMask) (f : Files) (d : Name) (rel : List Name) (fills held : Bool) (r : Result)
    (o : Option Fill) (hr : fills = true → reaches d r = true)
    (ho : ∀ fl, o = some fl → fl.pending = true → (∃ u, run = some u ∧ u.fills.getD (latchOf d) none = some fl) ∧ fl.name ∉ rel)
    (hd : fills = true → ∀ fl, displaces run d rel r fl → o = some fl) :
    AfterFiles run lanes d rel fills held r f (filesOf f d rel lanes fills held o r) := by
  have base : ∀ (n : Name), ¬(fills = true ∧ flushes run d rel r n) → fills = true → ∀ fl, o = some fl → fl.pending = true →
      ¬fillNames fl n := by
    intro n hn hf fl h1 h2 h3
    obtain ⟨h4, h5⟩ := ho fl h1 h2
    exact hn ⟨hf, fl, ⟨hr hf, h4, h2, h5⟩, h3⟩
  have keepV : ∀ (n : Fin 128) L, L < 32 → ¬(fills = true ∧ flushes run d rel r (.v n)) →
      ((if fills then flushFill (rel.foldl Files.release f) lanes o else rel.foldl Files.release f).readV n.val).getD L 0#32
        = ((rel.foldl Files.release f).readV n.val).getD L 0#32 := by
    intro n L hL hfl
    split
    · next hf => rw [readV_flush _ _ _ _ _ hL (base _ hfl hf)]
    · rfl
  have keepS : ∀ (n : Fin 64), ¬(fills = true ∧ flushes run d rel r (.s n)) →
      (if fills then flushFill (rel.foldl Files.release f) lanes o else rel.foldl Files.release f).readS n.val
        = (rel.foldl Files.release f).readS n.val := by
    intro n hfl
    split
    · next hf => rw [readS_flush _ _ _ _ (base _ hfl hf)]
    · rfl
  have keepA : ∀ (n : Fin 16), ¬(fills = true ∧ flushes run d rel r (.a n)) →
      (if fills then flushFill (rel.foldl Files.release f) lanes o else rel.foldl Files.release f).readA n.val
        = (rel.foldl Files.release f).readA n.val := by
    intro n hfl
    split
    · next hf => rw [readA_flush _ _ _ _ (base _ hfl hf)]
    · rfl
  -- a fill whose register has been released is displaced no more
  have goneS : ∀ (n : Fin 64), Name.s n ∈ rel → ¬(fills = true ∧ flushes run d rel r (.s n)) := by
    rintro n hn ⟨-, fl, h, h2 | ⟨-, k, k', -, h3, -⟩⟩
    · exact h.2.2.2 (h2 ▸ hn)
    · cases h3
  have goneA : ∀ (n : Fin 16), Name.a n ∈ rel → ¬(fills = true ∧ flushes run d rel r (.a n)) := by
    rintro n hn ⟨-, fl, h, h2 | ⟨-, k, k', -, h3, -⟩⟩
    · exact h.2.2.2 (h2 ▸ hn)
    · cases h3
  refine ⟨?_, ?_, ?_, ?_, ?_, ?_, ?_, ?_, ?_, ?_⟩
  · rintro n m' regs k vs rfl rfl hk hh L hL
    have h32 := lt_of_mask hL
    have hlen : k < regs.length := by
      rcases List.getElem?_eq_some_iff.1 hk with ⟨h, -⟩; exact h
    have hgd : regs.getD k [] = vs := by simp [List.getD_eq_getElem?_getD, hk]
    unfold filesOf
    by_cases hheld : held = true
    · have := hh hheld
      simp only [hheld, if_true, writeRest]
      have hd : (regs.drop 2).getD (k - 2) [] = vs := by
        rw [List.getD_eq_getElem?_getD, List.getElem?_drop, show 2 + (k - 2) = k by omega, hk]; rfl
      rw [readV_writeRegs _ _ _ _ _ _ h32, if_pos ⟨by omega, by simp only [List.length_drop]; omega, hL⟩,
        show n.val + k - (n.val + 2) = k - 2 by omega, hd]
    · simp only [hheld, writeResult]
      rw [if_neg (by simp), readV_writeRegs _ _ _ _ _ _ h32, if_pos ⟨by omega, by omega, hL⟩, show n.val + k - n.val = k by omega, hgd]
  · rintro n w rfl rfl rfl
    simp only [filesOf, writeResult, Bool.false_eq_true, if_false, readS_writeS, if_true]
  · rintro n b st rfl rfl rfl
    simp only [filesOf, writeResult, Bool.false_eq_true, if_false, readA_writeA, if_true]
  · intro n L hL hrel hw hfl
    rw [filesOf, readV_result _ _ _ _ _ _ hL hw, keepV _ _ hL hfl, readV_releases _ _ _ hrel]
  · intro n hrel hw hfl
    rw [filesOf, readS_result _ _ _ _ _ hw, keepS _ hfl, readS_releases _ _ _ hrel]
  · intro n hrel hw hfl
    rw [filesOf, readA_result _ _ _ _ _ hw, keepA _ hfl, readA_releases _ _ _ hrel]
  · intro n L hL hrel hw hfl
    rw [filesOf, readV_result _ _ _ _ _ _ hL hw, keepV _ _ hL hfl, lastV_releases _ _ _ _ hrel]
  · intro n hrel hw
    rw [filesOf, readS_result _ _ _ _ _ hw, keepS _ (goneS n hrel), lastS_releases _ _ _ hrel]
  · intro n hrel hw
    rw [filesOf, readA_result _ _ _ _ _ hw, keepA _ (goneA n hrel), lastA_releases _ _ _ hrel]
  · intro hf fl hdf
    have ho := hd hf fl hdf
    obtain ⟨-, -, hp, -⟩ := hdf
    simp only [filesOf, hf, if_true, ho]
    refine ⟨?_, ?_, ?_⟩
    · intro k lo hi hn hv L hL
      obtain ⟨h1, h2⟩ := readV_flush_self (rel.foldl Files.release f) lanes fl k lo hi hp hn hv L hL
      exact ⟨fun hw => by rw [readV_result _ _ _ _ _ _ (lt_of_mask hL) hw, h1],
        fun hpair hw => by rw [readV_result _ _ _ _ _ _ (lt_of_mask hL) hw, h2 hpair]⟩
    · intro k w hn hv hw
      rw [readS_result _ _ _ _ _ hw, readS_flush_self _ _ _ _ _ hp hn hv]
    · intro k b st hn hv hw
      rw [readA_result _ _ _ _ _ hw, readA_flush_self _ _ _ _ _ _ hp hn hv]

/-- An instruction without a result leaves the registers it does not release. -/
theorem afterFiles_released (run : Option Run) (lanes : LaneMask) (f : Files) (d : Name) (rel : List Name) (fills held : Bool) (r : Result)
    (h : reaches d r = false) : AfterFiles run lanes d rel fills held r f (rel.foldl Files.release f) where
  varying n m regs k vs h1 h2 := by subst h1 h2; cases h
  uniform n w h1 h2 := by subst h1 h2; cases h
  affine n b st h1 h2 := by subst h1 h2; cases h
  sameV n L _ hrel _ _ := by rw [readV_releases _ _ _ hrel]
  sameS n hrel _ _ := readS_releases _ _ _ hrel
  sameA n hrel _ _ := readA_releases _ _ _ hrel
  lastV n L _ hrel _ _ := lastV_releases _ _ _ _ hrel
  lastS n hrel _ := lastS_releases _ _ _ hrel
  lastA n hrel _ := lastA_releases _ _ _ hrel
  displaced _ fl hd := by rw [hd.1] at h; cases h

end Sys2Proof.Machine
end

