-- ==== Sys2Proof/Laws/Retire.lean ====
section
/-!
SUPPORT. How an instruction retires: releases, the result and its latch, program counters; together, `Retired`.
-/
namespace Sys2Proof.Machine

/-! ### What the retirement of a squad's instruction touches -/

/-- Two states that differ in one squad and in the run of one slot of one core. -/
structure Touches (key core slot : Nat) (s t : State) : Prop where
  others : t = { s with squads := t.squads, cores := t.cores }
  squads : ∀ k, k ≠ key → t.squad? k = s.squad? k
  cores : ∀ c, t.core c = { s.core c with runs := (t.core c).runs }
  runs : ∀ c n, ¬(c = core ∧ n = slot) → mapGet (t.core c).runs n = mapGet (s.core c).runs n

theorem Touches.refl (key core slot : Nat) (s : State) : Touches key core slot s s := ⟨rfl, fun _ _ => rfl, fun _ => rfl, fun _ _ _ => rfl⟩

theorem Touches.trans {key core slot : Nat} {a b c : State} (h : Touches key core slot a b) (k : Touches key core slot b c) :
    Touches key core slot a c where
  others := by rw [k.others, h.others]
  squads x hx := by rw [k.squads x hx, h.squads x hx]
  cores x := by rw [k.cores x, h.cores x]
  runs x n hn := by rw [k.runs x n hn, h.runs x n hn]

theorem touches_setSquad (key core slot : Nat) (s : State) (q : Squad) : Touches key core slot s (s.setSquad key q) where
  others := rfl
  squads k hk := by simp only [State.squad?, State.setSquad]; exact mapGet_set_ne _ _ hk
  cores _ := rfl
  runs _ _ _ := rfl

theorem touches_modSquad (key core slot : Nat) (s : State) (f : Squad → Squad) : Touches key core slot s (s.modSquad key f) where
  others := rfl
  squads k hk := by simp only [State.squad?, State.modSquad, mapGet_mod, if_neg hk]
  cores _ := rfl
  runs _ _ _ := rfl

theorem core_modCore (s : State) (c d : Nat) (f : Core → Core) : (s.modCore c f).core d = if d = c then f (s.core c) else s.core d := by
  simp only [State.core, State.modCore, mapGet_upd]; split <;> rfl

theorem touches_modRuns (key core slot : Nat) (s : State) (f : Map Run → Map Run)
    (hf : ∀ m n, n ≠ slot → mapGet (f m) n = mapGet m n) :
    Touches key core slot s (s.modCore core fun c => { c with runs := f c.runs }) where
  others := rfl
  squads _ _ := rfl
  cores c := by rw [core_modCore]; split
                · next h => subst h; rfl
                · rfl
  runs c n hn := by
    rw [core_modCore]; split
    · next h => subst h; exact hf _ n fun e => hn ⟨rfl, e⟩
    · rfl

@[simp] theorem squad_setSquad_self (s : State) (k : Nat) (q : Squad) : (s.setSquad k q).squad? k = some q := by
  simp [State.squad?, State.setSquad]
@[simp] theorem squad_modSquad_self (s : State) (k : Nat) (f : Squad → Squad) : (s.modSquad k f).squad? k = (s.squad? k).map f := by
  simp [State.squad?, State.modSquad]
@[simp] theorem squad_modCore (s : State) (c k : Nat) (f : Core → Core) : (s.modCore c f).squad? k = s.squad? k := rfl
@[simp] theorem coreOf_setSquad (s : State) (k : Nat) (q q' : Squad) : (s.setSquad k q).coreOf q' = s.coreOf q' := rfl
@[simp] theorem coreOf_modSquad (s : State) (k : Nat) (f : Squad → Squad) (q' : Squad) : (s.modSquad k f).coreOf q' = s.coreOf q' := rfl
@[simp] theorem coreOf_modCore (s : State) (c : Nat) (f : Core → Core) (q' : Squad) : (s.modCore c f).coreOf q' = s.coreOf q' := rfl

theorem Touches.coreOf {key core slot : Nat} {s t : State} (h : Touches key core slot s t) (q : Squad) : t.coreOf q = s.coreOf q := by
  rw [h.others]; rfl

/-! ### Releases (R24) -/

/-- R41: a fill whose register is released is not written any more. -/
def clearFill (names : List Name) (fl : Option Fill) : Option Fill :=
  fl.map fun fl => if names.contains fl.name then { fl with pending := false } else fl

theorem releaseNames_touches (s : State) (cx : Cx) (names : List Name) (q : Squad) (hq : s.squad? cx.key = some q) :
    Touches cx.key (s.coreOf q) q.issueSlot s (releaseNames s cx names) := by
  unfold releaseNames
  split
  · exact .refl ..
  · rw [hq]
    exact (touches_setSquad cx.key _ _ s { q with files := names.foldl Files.release q.files }).trans
      (touches_modRuns _ _ _ _ (fun m => mapMod m q.issueSlot fun r => { r with fills := r.fills.map (clearFill names) })
        fun m n hn => by simp only [mapGet_mod, if_neg hn])

theorem releaseNames_squad (s : State) (cx : Cx) (names : List Name) (q : Squad) (hq : s.squad? cx.key = some q) :
    (releaseNames s cx names).squad? cx.key = some { q with files := names.foldl Files.release q.files } := by
  unfold releaseNames
  split
  · next h => rw [List.isEmpty_iff.1 h]; simp [hq]
  · rw [hq]; simp

/-- R41: the run of the slot after a release. -/
theorem releaseNames_run (s : State) (cx : Cx) (names : List Name) (q : Squad) (hq : s.squad? cx.key = some q) :
    mapGet ((releaseNames s cx names).core (s.coreOf q)).runs q.issueSlot =
      (mapGet (s.core (s.coreOf q)).runs q.issueSlot).map fun r => { r with fills := r.fills.map (clearFill names) } := by
  unfold releaseNames
  split
  · next h =>
    have : (fun r : Run => { r with fills := r.fills.map (clearFill names) }) = id := by
      funext r
      have : clearFill names = id := by
        funext fl; rw [List.isEmpty_iff.1 h]; cases fl <;> simp [clearFill]
      rw [this]; simp
    rw [this]; simp
  · rw [hq]
    simp only [coreOf_setSquad, core_modCore, if_true, mapGet_mod_self]
    rfl

/-- R41: which fill stands in a latch unwritten after a release: one that stood so before and whose register is not released. -/
theorem clearFill_pending (names : List Name) (fills : List (Option Fill)) (k : Nat) (fl : Fill) :
    (fills.map (clearFill names)).getD k none = some fl ∧ fl.pending = true ↔
      fills.getD k none = some fl ∧ fl.pending = true ∧ fl.name ∉ names := by
  simp only [List.getD_eq_getElem?_getD, List.getElem?_map]
  rcases fills[k]? with _ | _ | x
  · simp
  · simp [clearFill]
  · simp only [Option.map_some, Option.getD_some, clearFill, Option.some.injEq]
    split
    · next h =>
      constructor
      · rintro ⟨rfl, h2⟩; cases h2
      · rintro ⟨rfl, -, h2⟩; exact absurd (by simpa using h) h2
    · next h =>
      constructor
      · rintro ⟨rfl, h2⟩; exact ⟨rfl, h2, by simpa using h⟩
      · rintro ⟨rfl, h2, -⟩; exact ⟨rfl, h2⟩

/-! ### The result and its latch (R38, R41) -/

theorem writeDest_none (s : State) (cx : Cx) (fills : Bool) (bad : LaneMask) (r : Result) (h : reaches cx.o.d r = false) (q : Squad)
    (hq : s.squad? cx.key = some q) (hr : r = .none ∨ cx.o.d = .none) : writeDest s cx fills bad r = s := by
  unfold writeDest
  rcases hr with rfl | hd
  · rw [hq]
  · rw [hq, hd]; cases r <;> rfl

/-- A destination and a result of its class, a result that is discarded, or none. -/
def fits (d : Name) (r : Result) : Prop := reaches d r = true ∨ r = .none ∨ d = .none

/-- What stands in a slot's run for the bundle of an instruction that writes a latch. -/
def runFor (s : State) (cx : Cx) (q : Squad) : Run :=
  (currentRun s cx.key q cx.lanes).getD { squad := cx.key, lanes := cx.lanes, fills := [none, none, none, none] }

theorem reaches_dest (d : Name) (r : Result) (h : reaches d r = true) : (nameIsDest d && d != .none && r != .none) = true := by
  cases d <;> cases r <;> simp_all [reaches, nameIsDest]

/-- The registers once the latch of D has been flushed, the fill, the run and the squad that writing D leaves. -/
def destFiles (s : State) (cx : Cx) (q : Squad) : Files :=
  flushFill q.files cx.lanes ((runFor s cx q).fills.getD (latchOf cx.o.d) none)
def destFill (s : State) (cx : Cx) (r : Result) (q : Squad) : Fill :=
  { name := cx.o.d, pair := r.pair, val := capture (destFiles s cx q) cx.o.d r, pending := cx.o.nwb && !r.isKept }
def destRun (s : State) (cx : Cx) (r : Result) (q : Squad) : Run :=
  { runFor s cx q with fills := (runFor s cx q).fills.set (latchOf cx.o.d) (some (destFill s cx r q)) }
def noteRecord (cx : Cx) (r : Result) (l : Lane) : Lane :=
  { l with latchRec := l.latchRec.set (latchOf cx.o.d) (some { name := cx.o.d, pair := r.pair }) }
def destSquad (s : State) (cx : Cx) (bad : LaneMask) (r : Result) (q : Squad) : Squad :=
  { q with files := if cx.o.nwb then writeRest (destFiles s cx q) cx.o.d r else writeResult (destFiles s cx q) cx.o.d r }.onLanes
    (cx.lanes &&& ~~~bad) (noteRecord cx r)

theorem writeDest_spec (s : State) (cx : Cx) (fills : Bool) (bad : LaneMask) (r : Result) (h : reaches cx.o.d r = true) (q : Squad)
    (hq : s.squad? cx.key = some q) :
    writeDest s cx fills bad r =
      if fills then
        (s.setSquad cx.key (destSquad s cx bad r q)).modCore (s.coreOf q) fun c => { c with runs := mapSet c.runs q.issueSlot (destRun s cx r q) }
      else s.setSquad cx.key { q with files := writeResult q.files cx.o.d r } := by
  have hd := reaches_dest _ _ h
  simp only [Bool.and_eq_true, bne_iff_ne, ne_eq] at hd
  obtain ⟨⟨h1, h2⟩, h3⟩ := hd
  unfold writeDest
  rw [hq]
  have h4 : (!nameIsDest cx.o.d || cx.o.d == .none) = false := by simp [h1, h2]
  cases r with
  | none => exact absurd rfl h3
  | _ => simp only [h4, Bool.false_eq_true, if_false]; cases fills <;> rfl

theorem lane_onLanes_recs (q : Squad) (m : LaneMask) (f : Lane → Lane) (i : Nat) (h : i < q.lanes.length)
    (hf : ∀ l, f l = { l with latchRec := (f l).latchRec }) :
    (q.onLanes m f).lane i = { q.lane i with latchRec := ((q.onLanes m f).lane i).latchRec } := by
  rw [lane_onLanes _ _ _ _ h]
  split
  · exact hf _
  · rfl

theorem capture_holds (f : Files) (d : Name) (r : Result) (h : reaches d r = true) : holdsResult (capture f d r) r := by
  cases d <;> cases r <;> simp only [reaches, Bool.false_eq_true] at h <;> simp only [holdsResult, capture]
  next n m regs =>
    refine ⟨_, _, rfl, fun L hL => ⟨fun vs h0 => ?_, fun vs h1 => ?_⟩⟩
    · simp only [h0]; rw [perLane_get _ _ _ (lt_of_mask hL), if_pos hL]
    · simp only [h1]; rw [perLane_get _ _ _ (lt_of_mask hL), if_pos hL]

/-! ### The whole -/

theorem charge_touch (s : State) (ctx n k : Nat) :
    ((s.charge ctx n).ctx? k).map (fun c => { c with energy := 0#64 }) = (s.ctx? k).map fun c => { c with energy := 0#64 } := by
  simp only [State.charge, State.modCtx, State.ctx?, mapGet_mod]
  split
  · next h => subst h; cases mapGet s.ctxs k <;> rfl
  · rfl

/-- A charge changes the energy counter alone. -/
theorem Retired.charge {e : Env} {fills jumped : Bool} {s1 : State} {r : Result} {t : State} (h : Retired e fills jumped s1 r t) (ctx n : Nat) :
    Retired e fills jumped s1 r (t.charge ctx n) where
  others := by rw [h.others]; rfl
  squads := h.squads
  cores := h.cores
  ctxs k := by rw [charge_touch, h.ctxs]
  runs := h.runs
  latch := h.latch
  squad := h.squad

/-- The result of an instruction written, its latch filled. -/
theorem writeDest_retires (s1 : State) (cx : Cx) (fills : Bool) (bad : LaneMask) (r : Result) (rel : List Name) (q : Squad)
    (hq : s1.squad? cx.key = some q) (hfit : fits cx.o.d r) :
    ∃ s2, writeDest (releaseNames s1 cx rel) cx fills bad r = s2 ∧ Touches cx.key (s1.coreOf q) q.issueSlot s1 s2 ∧
      (∃ q2, s2.squad? cx.key = some q2 ∧ q2 = { q with lanes := q2.lanes, files := q2.files } ∧ q2.lanes.length = q.lanes.length ∧
        (∀ L, L < q.lanes.length → q2.lane L = { q.lane L with latchRec := (q2.lane L).latchRec }) ∧
        AfterFiles (currentRun s1 cx.key q cx.lanes) cx.lanes cx.o.d rel fills (fills && cx.o.nwb) r q.files q2.files) ∧
      (fills = true → reaches cx.o.d r = true →
        ∃ run' v, mapGet (s2.core (s1.coreOf q)).runs q.issueSlot = some run' ∧ run'.squad = cx.key ∧ run'.lanes = cx.lanes ∧
          (latchOf cx.o.d < run'.fills.length → run'.fills.getD (latchOf cx.o.d) none =
            some { name := cx.o.d, pair := r.pair, val := v, pending := cx.o.nwb && !r.isKept }) ∧ holdsResult v r) := by
  have ht := releaseNames_touches s1 cx rel q hq
  have hsq := releaseNames_squad s1 cx rel q hq
  by_cases hr : reaches cx.o.d r = true
  · refine ⟨_, rfl, ?_⟩
    rw [writeDest_spec _ _ _ _ _ hr _ hsq]
    have hc : (releaseNames s1 cx rel).coreOf { q with files := rel.foldl Files.release q.files } = s1.coreOf q := ht.coreOf _
    cases fills with
    | false =>
      simp only [Bool.false_eq_true, if_false]
      refine ⟨ht.trans (touches_setSquad ..), ⟨_, squad_setSquad_self .., rfl, rfl, fun _ _ => rfl, ?_⟩, fun h => by cases h⟩
      exact afterFiles_filesOf (currentRun s1 cx.key q cx.lanes) cx.lanes q.files cx.o.d rel false false r none (fun h => by cases h)
        (fun _ h => by cases h) fun h => by cases h
    | true =>
      simp only [if_true, hc]
      generalize hqr : ({ q with files := rel.foldl Files.release q.files } : Squad) = qr at hsq
      have hslot : qr.issueSlot = q.issueSlot := by rw [← hqr]; rfl
      -- the bundle's run after the release
      have hcur : currentRun (releaseNames s1 cx rel) cx.key qr cx.lanes =
          (currentRun s1 cx.key q cx.lanes).map fun u => { u with fills := u.fills.map (clearFill rel) } := by
        unfold currentRun
        rw [ht.coreOf, hslot, show s1.coreOf qr = s1.coreOf q by rw [← hqr]; rfl, releaseNames_run s1 cx rel q hq]
        rcases mapGet (s1.core (s1.coreOf q)).runs q.issueSlot with _ | u
        · rfl
        · simp only [Option.map_some]; split <;> rfl
      have hrun : (runFor (releaseNames s1 cx rel) cx qr).squad = cx.key ∧ (runFor (releaseNames s1 cx rel) cx qr).lanes = cx.lanes := by
        unfold runFor currentRun
        split
        · split
          · next h => exact h
          · exact ⟨rfl, rfl⟩
        · exact ⟨rfl, rfl⟩
      have hnone : ([none, none, none, none] : List (Option Fill)).getD (latchOf cx.o.d) none = none := by
        generalize latchOf cx.o.d = k
        match k with
        | 0 | 1 | 2 | 3 => rfl
        | k + 4 => rfl
      have hfill : ∀ fl, (runFor (releaseNames s1 cx rel) cx qr).fills.getD (latchOf cx.o.d) none = some fl ∧ fl.pending = true ↔
          (∃ u, currentRun s1 cx.key q cx.lanes = some u ∧ u.fills.getD (latchOf cx.o.d) none = some fl) ∧ fl.pending = true ∧ fl.name ∉ rel := by
        intro fl
        unfold runFor
        rw [hcur]
        rcases currentRun s1 cx.key q cx.lanes with _ | u
        · simp only [Option.map_none, Option.getD_none, hnone]; simp
        · simp only [Option.map_some, Option.getD_some, clearFill_pending, Option.some.injEq, exists_eq_left']
      rw [hslot]
      refine ⟨ht.trans ((touches_setSquad ..).trans (touches_modRuns _ _ _ _ (fun m => mapSet m q.issueSlot _) fun m n hn => mapGet_set_ne _ _ hn)), ?_, fun _ _ => ?_⟩
      · refine ⟨destSquad (releaseNames s1 cx rel) cx bad r qr, by rw [squad_modCore]; exact squad_setSquad_self .., ?_, ?_, fun L hL => ?_, ?_⟩
        · rw [← hqr]; rfl
        · rw [← hqr]; simp [destSquad, Squad.onLanes]
        · have : L < qr.lanes.length := by rw [← hqr]; exact hL
          have e := lane_onLanes_recs { qr with files := if cx.o.nwb then writeRest (destFiles (releaseNames s1 cx rel) cx qr) cx.o.d r else writeResult (destFiles (releaseNames s1 cx rel) cx qr) cx.o.d r }
            (cx.lanes &&& ~~~bad) (noteRecord cx r) L this fun _ => rfl
          have e2 : qr.lane L = q.lane L := by rw [← hqr]; rfl
          rw [← e2]; exact e
        · have hf := afterFiles_filesOf (currentRun s1 cx.key q cx.lanes) cx.lanes q.files cx.o.d rel true cx.o.nwb r
            ((runFor (releaseNames s1 cx rel) cx qr).fills.getD (latchOf cx.o.d) none) (fun _ => hr)
            (fun fl h1 h2 => by obtain ⟨a, -, c⟩ := (hfill fl).1 ⟨h1, h2⟩; exact ⟨a, c⟩)
            fun _ fl h => ((hfill fl).2 ⟨h.2.1, h.2.2⟩).1
          rw [← hqr]; rw [← hqr] at hf; exact hf
      · refine ⟨destRun (releaseNames s1 cx rel) cx r qr, _, by rw [core_modCore, if_pos rfl]; exact mapGet_set_self .., hrun.1, hrun.2, fun hk => ?_,
          capture_holds (destFiles (releaseNames s1 cx rel) cx qr) _ _ hr⟩
        simp only [destRun, List.length_set] at hk
        simp [destRun, List.getD_eq_getElem?_getD, hk, destFill]
  · have hr' : reaches cx.o.d r = false := by simpa using hr
    have hn : r = .none ∨ cx.o.d = .none := by rcases hfit with h | h; exact absurd h hr; exact h
    rw [writeDest_none _ _ _ _ _ hr' _ hsq hn]
    refine ⟨_, rfl, ht, ⟨_, hsq, rfl, rfl, fun _ _ => rfl, afterFiles_released _ _ _ _ _ _ _ _ hr'⟩, fun _ h => absurd h hr⟩

/-- What an instruction's own part leaves, once retired, its lanes without a fault. -/
theorem finish_retired (e : Env) (fills jumped : Bool) (f : Effect) (q : Squad) (hq : f.s.squad? e.cx.key = some q)
    (hl : f.faults.filter (fun (L, _) => (e.q.lane L).kind == .live) = []) (hfit : fits e.cx.o.d f.result) :
    ∃ t, finish e fills jumped f = .next t ∧ Retired e fills jumped f.s f.result t := by
  obtain ⟨s2, h2, ht, ⟨q2, hq2, hrest, hlen, hlane, hfiles⟩, hlatch⟩ := writeDest_retires f.s e.cx fills 0#32 f.result (releases e) q hq hfit
  -- program counters
  let go : Squad → Squad := fun q => if jumped then q else
    q.onLanes (e.cx.lanes &&& ~~~0#32) fun l => { l with pc := l.pc + BitVec.ofNat 64 e.cx.len, wait := .none }
  generalize hs3 : (if jumped = true then s2 else advance s2 e.cx (e.cx.lanes &&& ~~~0#32)) = s3
  have hfin : finish e fills jumped f = retire s3 e.cx e.sh.cost := by
    have hm : maskOf (fun _ => false) = 0#32 := by decide
    have hl' : (List.filter (fun (x : Nat × LaneFault) => (e.q.lane x.1).kind == .live) f.faults) = [] := hl
    unfold finish
    simp only [hl', List.isEmpty_nil, Bool.not_true, Bool.and_false, Bool.false_eq_true, if_false, if_true, firstFault, h2, List.any_nil, hm, hs3]
  have hgo : s3.squad? e.cx.key = some (go q2) := by
    rw [← hs3]
    cases jumped with
    | true => simpa [go] using hq2
    | false => simp only [Bool.false_eq_true, if_false, advance, squad_modSquad_self, hq2, Option.map_some, go]
  have htg : Touches e.cx.key (f.s.coreOf q) q.issueSlot f.s s3 := by
    rw [← hs3]
    split
    · exact ht
    · exact ht.trans (touches_modSquad ..)
  have hcore : s3.cores = s2.cores := by rw [← hs3]; split <;> rfl
  refine ⟨_, hfin, ?_⟩
  have htf := htg.trans (touches_modSquad e.cx.key (f.s.coreOf q) q.issueSlot s3 fun q => { q.settle with cost := e.sh.cost })
  have huniq : ∀ q', f.s.squad? e.cx.key = some q' → q' = q := fun q' h => Option.some.inj (h.symm.trans hq)
  refine { others := ?_, squads := htf.squads, cores := htf.cores, ctxs := ?_, runs := ?_, latch := ?_, squad := ?_ }
  · have := htg.others
    simp only [State.modSquad]
    rw [this]
  · intro k
    have : s3.ctxs = f.s.ctxs := by rw [htg.others]
    simp only [State.ctx?, State.modSquad, this]
  · intro q' hq' c n hn
    rw [huniq q' hq'] at hn
    exact htf.runs c n hn
  · intro q' hq' hf hr
    rw [huniq q' hq']
    obtain ⟨run', v, h⟩ := hlatch hf hr
    refine ⟨run', v, ?_, h.2⟩
    have e1 : ∀ c, State.core { s3.modSquad e.cx.key (fun q => { q.settle with cost := e.sh.cost }) with issuing := none } c = s2.core c := by
      intro c; simp only [State.core, State.modSquad, hcore]
    rw [e1]; exact h.1
  · intro q' hq'
    rw [huniq q' hq']
    refine ⟨{ (go q2).settle with cost := e.sh.cost }, ?_, ?_, ?_, ?_, ?_⟩
    · show (s3.modSquad e.cx.key fun q => { q.settle with cost := e.sh.cost }).squad? e.cx.key = _
      rw [squad_modSquad_self, hgo]; rfl
    · have h1 := (settled_settle (go q2)).rest
      have h2 : go q2 = { q2 with lanes := (go q2).lanes } := by simp only [go]; split <;> rfl
      rw [h1, h2, hrest]
    · have h1 := (settled_settle (go q2)).length
      have h2 : (go q2).lanes.length = q2.lanes.length := by simp only [go]; split <;> simp [Squad.onLanes]
      simp only; rw [h1, h2, hlen]
    · intro L hL32 hL
      have hL2 : L < q2.lanes.length := by omega
      have hgl : (go q2).lanes.length = q2.lanes.length := by simp only [go]; split <;> simp [Squad.onLanes]
      have e1 : (({ (go q2).settle with cost := e.sh.cost } : Squad).lane L) = (go q2).settle.lane L :=
        (show ∀ (a : Squad) (c : Nat), ({ a with cost := c } : Squad).lane L = a.lane L from fun _ _ => rfl) _ _
      have e2 := (settled_settle (go q2)).lane L (by omega)
      have e3 := hlane L hL
      have e4 : (go q2).lane L = if !jumped && e.cx.lanes.getLsbD L then
          { q2.lane L with pc := (q2.lane L).pc + BitVec.ofNat 64 e.cx.len, wait := .none } else q2.lane L := by
        simp only [go]
        cases jumped with
        | true => simp
        | false =>
          simp only [Bool.false_eq_true, if_false, Bool.not_false, Bool.true_and]
          rw [lane_onLanes _ _ _ _ hL2]
          have : (e.cx.lanes &&& ~~~0#32).getLsbD L = e.cx.lanes.getLsbD L := by
            rw [BitVec.getLsbD_and, BitVec.getLsbD_not]; simp [hL32]
          rw [this]
      rw [e1, e2]
      generalize (go q2).settle.lane L = l'
      rw [e4]
      generalize (q2.lane L).latchRec = rs at e3
      rw [e3]
      by_cases hc : (!jumped && e.cx.lanes.getLsbD L) = true
      · simp only [hc, if_true, and_self]
      · simp only [hc, Bool.false_eq_true, if_false, and_self]
    · have h1 := (settled_settle (go q2)).rest
      have h2 : (go q2).files = q2.files := by simp only [go]; split <;> rfl
      have h3 : (go q2).settle.files = q2.files := by rw [h1]; exact h2
      simp only; rw [h3]; exact hfiles

end Sys2Proof.Machine
end

