-- ==== Sys2Proof/Laws/Issue.lean ====
section
/-!
SUPPORT. The shared issue operation: what an instruction that passes every check comes to, and what each failed check comes to.
-/
namespace Sys2Proof.Machine

/-! ### The environment -/

theorem issuingEnv_eq {sh : Shape} {sForm : Bool} {o : Ops} {s : State} {e : Env} (h : issuingEnv sh sForm o s = some e) :
    ∃ cx q0, issuingCx s sForm o = some (cx, q0) ∧ e = envAt sh s cx q0 := by
  unfold issuingEnv at h
  rcases hc : issuingCx s sForm o with _ | ⟨cx, q0⟩
  · rw [hc] at h; cases h
  · rw [hc] at h; cases h; exact ⟨cx, q0, rfl, rfl⟩

theorem issuingCx_eq {sForm : Bool} {o : Ops} {s : State} {cx : Cx} {q0 : Squad} (h : issuingCx s sForm o = some (cx, q0)) :
    cx.o = o ∧ cx.sForm = sForm ∧ cx.len = (if sForm then 4 else if o.lit.isSome then 12 else 8) ∧ s.squad? cx.key = some q0 ∧
      ∃ i, s.issuing = some i ∧ cx.key = i.squad ∧ cx.lanes = i.lanes ∧ cx.pc = i.pc ∧ cx.words = i.words := by
  unfold issuingCx at h
  rcases hi : s.issuing with _ | i
  · rw [hi] at h; cases h
  · rw [hi] at h
    simp only at h
    rcases hq : s.squad? i.squad with _ | q
    · rw [hq] at h; cases h
    · rw [hq] at h; cases h
      exact ⟨rfl, rfl, rfl, hq, i, rfl, rfl, rfl, rfl, rfl⟩

theorem endRun_squad (s : State) (core slot key : Nat) :
    ∃ g, (endRun s core slot).squad? key = (s.squad? key).map g ∧ ∀ q, g q = { q with files := (g q).files } := by
  unfold endRun
  split
  · exact ⟨id, by simp, fun _ => rfl⟩
  · next r _ =>
    simp only [squad_modCore]
    by_cases hk : key = r.squad
    · subst hk
      exact ⟨_, squad_modSquad_self .., fun _ => rfl⟩
    · refine ⟨id, ?_, fun _ => rfl⟩
      simp [State.squad?, State.modSquad, mapGet_mod, hk]

theorem beginIssue_squad (sh : Shape) (s : State) (cx : Cx) (q : Squad) (hq : s.squad? cx.key = some q) :
    ∃ q', (beginIssue sh s cx q).squad? cx.key = some q' ∧ q' = { q with files := q'.files } := by
  unfold beginIssue
  split
  · split
    · exact ⟨q, hq, rfl⟩
    · obtain ⟨g, h1, h2⟩ := endRun_squad s (s.coreOf q) q.issueSlot cx.key
      rw [hq] at h1
      exact ⟨g q, h1, h2 q⟩
  · exact ⟨q, hq, rfl⟩

/-- What an instruction issues with stands in its own state. -/
theorem issuingEnv_spec {sh : Shape} {sForm : Bool} {o : Ops} {s : State} {e : Env} (h : issuingEnv sh sForm o s = some e) :
    e.sh = sh ∧ e.cx.o = o ∧ e.cx.sForm = sForm ∧ e.cx.len = (if sForm then 4 else if o.lit.isSome then 12 else 8) ∧
      e.s.squad? e.cx.key = some e.q := by
  obtain ⟨cx, q0, h1, rfl⟩ := issuingEnv_eq h
  obtain ⟨a, b, c, d, -⟩ := issuingCx_eq h1
  obtain ⟨q', h2, -⟩ := beginIssue_squad sh s cx q0 d
  refine ⟨rfl, a, b, c, ?_⟩
  show (beginIssue sh s cx q0).squad? cx.key = some (((beginIssue sh s cx q0).squad? cx.key).getD q0)
  rw [h2]; rfl

/-- What a named instruction issues with: the same instruction over the state that naming its registers leaves. -/
theorem name_ready {e e' : Env} (h : e.name = .ready e') :
    ∃ s q, nameRegs e.s e.cx.key e.q e.needs = .ready s ∧ s.squad? e.cx.key = some q ∧ e' = e.over s q := by
  unfold Env.name at h
  split at h
  · cases h
  · cases h
  · next s hs =>
    split at h
    · next q hq => cases h; exact ⟨s, q, hs, hq, rfl⟩
    · cases h

theorem namedEnv_eq {sh : Shape} {sForm : Bool} {extra : Extra} {o : Ops} {s : State} {e : Env} (h : namedEnv sh sForm extra o s = some e) :
    ∃ e0, issuingEnv sh sForm o s = some e0 ∧ hindrance extra e0 = none ∧ e0.name = .ready e := by
  unfold namedEnv at h
  split at h
  · cases h
  · next e0 h0 =>
    split at h
    · next e1 h1 h2 => cases h; exact ⟨e0, h0, h1, h2⟩
    · cases h

theorem namedEnv_spec {sh : Shape} {sForm : Bool} {extra : Extra} {o : Ops} {s : State} {e : Env}
    (h : namedEnv sh sForm extra o s = some e) :
    e.sh = sh ∧ e.cx.o = o ∧ e.cx.sForm = sForm ∧ e.cx.len = (if sForm then 4 else if o.lit.isSome then 12 else 8) ∧
      e.s.squad? e.cx.key = some e.q := by
  obtain ⟨e0, h0, -, h1⟩ := namedEnv_eq h
  obtain ⟨s', q, -, hq, rfl⟩ := name_ready h1
  obtain ⟨a, b, c, d, -⟩ := issuingEnv_spec h0
  exact ⟨a, b, c, d, hq⟩

/-- R45, R46, R101, R141, R170, R189: what passing every check means. -/
theorem hindrance_none {sh : Shape} {sForm : Bool} {extra : Extra} {o : Ops} {e : Env} (hs : e.sh = sh) (ho : e.cx.o = o)
    (hf : e.cx.sForm = sForm) (h : Clear sh sForm extra o e) : hindrance extra e = none := by
  subst hs ho hf
  have hw : (needsFull e.sh e.cx.o && e.missing != 0#32) = false := by
    rcases hn : needsFull e.sh e.cx.o with _ | _
    · rfl
    · simp [h.whole hn]
  have hg : (e.q.glide.isSome && e.sh.stalls) = false := by
    rcases hn : e.q.glide.isSome with _ | _
    · rfl
    · simp [h.glide hn]
  simp only [hindrance, h.legal, h.special, h.level, hw, hg, h.replied, h.landing, Bool.false_eq_true, if_false]

/-! ### The vector pipe's window (R309) -/

/-- What the arbiter does changes clusters and the counter of fresh numbers. -/
def OnlyClusters (s t : State) : Prop := t = { s with clusters := t.clusters, nextId := t.nextId }

theorem OnlyClusters.refl (s : State) : OnlyClusters s s := rfl
theorem OnlyClusters.trans {a b c : State} (h : OnlyClusters a b) (k : OnlyClusters b c) : OnlyClusters a c := by
  unfold OnlyClusters at *; rw [k, h]

theorem onlyClusters_want (s : State) (cl cls owner : Nat) : OnlyClusters s (s.want cl cls owner).2 := by
  unfold State.want
  split <;> rfl

theorem onlyClusters_window (s : State) (q : Squad) : OnlyClusters s (vectorWindow s q).2 := by
  unfold vectorWindow
  simp only
  refine OnlyClusters.trans ?_ (onlyClusters_want _ _ _ _)
  split
  · split <;> rfl
  · rfl

theorem onlyClusters_open (e : Env) : OnlyClusters e.s (vectorOpen e).2 := by
  unfold vectorOpen
  split
  · exact onlyClusters_window ..
  · rfl

theorem OnlyClusters.squad {s t : State} (h : OnlyClusters s t) (k : Nat) : t.squad? k = s.squad? k := by rw [h]; rfl

/-! ### An instruction that issues -/

theorem issueWith_issues {sh : Shape} {sForm : Bool} {extra : Extra} {o : Ops} {s : State} {e : Env} (eff : Env → Eff)
    (h : Issues sh sForm extra o s e) : issueWith sh sForm extra eff o s = takeEffect sForm eff e.opened := by
  obtain ⟨h1, h2, h3, -⟩ := namedEnv_spec h.env
  obtain ⟨e0, h4, h5, h6⟩ := namedEnv_eq h.env
  simp only [issueWith, h4, h5, h6, hindrance_none h1 h2 h3 h.toClear, h.window, Env.opened, Bool.false_eq_true, if_false, Bool.not_true]

theorem Issues.squad {sh : Shape} {sForm : Bool} {extra : Extra} {o : Ops} {s : State} {e : Env} (h : Issues sh sForm extra o s e) :
    e.opened.s.squad? e.cx.key = some e.q := by
  rw [show e.opened.s = (vectorOpen e).2 from rfl, (onlyClusters_open e).squad]
  exact (namedEnv_spec h.env).2.2.2.2

theorem charged_retired {e : Env} {fills jumped : Bool} {s1 : State} {r : Result} {cx : Cx} {ctx n : Nat} {x : Out}
    (h : ∃ t, x = .next t ∧ Retired e fills jumped s1 r t) : ∃ t, charged cx ctx n x = .next t ∧ Retired e fills jumped s1 r t := by
  obtain ⟨t, rfl, ht⟩ := h
  refine ⟨_, rfl, ?_⟩
  split
  · exact ht
  · exact ht.charge ..

/-- An instruction that issues and takes effect retires. -/
theorem issueWith_done {sh : Shape} {sForm : Bool} {extra : Extra} {o : Ops} {s : State} {e : Env} (eff : Env → Eff)
    (h : Issues sh sForm extra o s e) (f : Effect) (hf : eff e.opened = .done f) (q : Squad) (hq : f.s.squad? e.cx.key = some q)
    (hl : f.faults.filter (fun (L, _) => (e.q.lane L).kind == .live) = []) (hfit : fits o.d f.result) :
    ∃ t, issueWith sh sForm extra eff o s = .next t ∧ Retired e (!sForm && !sh.post) false f.s f.result t := by
  obtain ⟨h1, h2, -⟩ := namedEnv_spec h.env
  rw [issueWith_issues eff h, takeEffect, hf]
  simp only [conclude]
  apply charged_retired
  have := finish_retired e.opened (!sForm && !e.opened.sh.post) false f q hq hl (by show fits e.cx.o.d _; rw [h2]; exact hfit)
  rw [show e.opened.sh = sh from h1] at this ⊢
  exact ⟨this.choose, this.choose_spec.1, (show ∀ t, Retired e.opened _ _ f.s f.result t → Retired e _ _ f.s f.result t from fun t k =>
    ⟨k.others, k.squads, k.cores, k.ctxs, k.runs, k.latch, k.squad⟩) _ this.choose_spec.2⟩

/-- An instruction that issues and sets the program counters itself retires. -/
theorem issueWith_jumped {sh : Shape} {sForm : Bool} {extra : Extra} {o : Ops} {s : State} {e : Env} (eff : Env → Eff)
    (h : Issues sh sForm extra o s e) (f : Effect) (hf : eff e.opened = .jumped f) (q : Squad) (hq : f.s.squad? e.cx.key = some q)
    (hl : f.faults.filter (fun (L, _) => (e.q.lane L).kind == .live) = []) (hfit : fits o.d f.result) :
    ∃ t, issueWith sh sForm extra eff o s = .next t ∧ Retired e (!sForm && !sh.post) true f.s f.result t := by
  obtain ⟨h1, h2, -⟩ := namedEnv_spec h.env
  rw [issueWith_issues eff h, takeEffect, hf]
  simp only [conclude]
  apply charged_retired
  have := finish_retired e.opened (!sForm && !e.opened.sh.post) true f q hq hl (by show fits e.cx.o.d _; rw [h2]; exact hfit)
  rw [show e.opened.sh = sh from h1] at this ⊢
  exact ⟨this.choose, this.choose_spec.1, (show ∀ t, Retired e.opened _ _ f.s f.result t → Retired e _ _ f.s f.result t from fun t k =>
    ⟨k.others, k.squads, k.cores, k.ctxs, k.runs, k.latch, k.squad⟩) _ this.choose_spec.2⟩

/-- An effect on registers alone. -/
theorem issueWith_result {sh : Shape} {sForm : Bool} {extra : Extra} {o : Ops} {s : State} {e : Env} (eff : Env → Eff)
    (h : Issues sh sForm extra o s e) (r : Result) (hf : eff e.opened = e.opened.result r) (hfit : fits o.d r) :
    ∃ t, issueWith sh sForm extra eff o s = .next t ∧ Retired e (!sForm && !sh.post) false e.opened.s r t :=
  issueWith_done eff h _ hf e.q h.squad rfl hfit

/-! ### Destinations -/

theorem dest_of_defect {sh : Shape} {latch : Fin 4 → LatchSupply} {sForm : Bool} {o : Ops} (h : sh.defect latch sForm o = none) :
    (sh.d = .unused → o.d = .none) ∧ (sh.d ≠ .unused → nameIsDest o.d = true) := by
  unfold Shape.defect at h
  split at h
  · cases h
  · split at h
    · cases h
    · next hr =>
      split at h
      · cases h
      · next hb =>
        constructor
        · intro hd
          have : (o.d != .none) = false := by
            rcases hx : (o.d != .none) with _ | _
            · rfl
            · exact absurd (by unfold Shape.reserved; simp [hd, hx]) hr
          simpa using this
        · intro hd
          rcases hx : nameIsDest o.d with _ | _
          · exact absurd (by
              unfold Shape.badClass
              cases hs : sh.d with
              | unused => exact absurd hs hd
              | reg n => simp [hx]) hb
          · rfl

/-- A result fits where it is of the destination's class. -/
def ofClass (c : Cls) : Result → Prop
  | .varying _ _ => c = .varying
  | .uniform _ => c = .uniform
  | .affine _ _ => c = .affine
  | _ => True

theorem fits_of_class {sh : Shape} {latch : Fin 4 → LatchSupply} {sForm : Bool} {o : Ops} (h : sh.defect latch sForm o = none) (r : Result)
    (hr : ofClass (sh.dCls o) r) : fits o.d r := by
  obtain ⟨h1, h2⟩ := dest_of_defect h
  by_cases hd : sh.d = .unused
  · exact .inr (.inr (h1 hd))
  · have hn := h2 hd
    have hc : sh.dCls o = nameCls (fun _ => .empty) o.d := by unfold Shape.dCls; simp [hd]
    rw [hc] at hr
    unfold fits
    cases hdd : o.d <;> rw [hdd] at hn hr <;> first | (exact absurd hn (by decide)) | (cases r <;> simp_all [ofClass, nameCls, reaches, nameIsDest])

end Sys2Proof.Machine
end

