-- ==== Sys2Proof/Laws/Alu.lean ====
section
/-!
SUPPORT. The lane-by-lane instructions: what a bundle's lanes give, and what such an instruction leaves.
-/
namespace Sys2Proof.Machine

/-! ### Results that write the same -/

theorem sameResult.refl (r : Result) : sameResult r r := by cases r <;> simp [sameResult]

theorem writesLane_congr {d : Name} {r r' : Result} (hs : sameResult r r') (held : Bool) (n L : Nat) :
    writesLane d r held n L ↔ writesLane d r' held n L := by
  cases r <;> cases r' <;> simp only [sameResult, reduceCtorEq] at hs <;> try (cases hs; exact Iff.rfl)
  next m regs m' regs' =>
    obtain ⟨rfl, hl, -⟩ := hs
    cases d <;> simp only [writesLane, hl]

theorem displaces_congr {run : Option Run} {d : Name} {rel : List Name} {r r' : Result} (h : reaches d r = reaches d r') (fl : Fill) :
    displaces run d rel r fl ↔ displaces run d rel r' fl := by unfold displaces; rw [h]

theorem AfterFiles.congr {run : Option Run} {lanes : LaneMask} {d : Name} {rel : List Name} {fills held : Bool} {r r' : Result} {f f' : Files}
    (h : AfterFiles run lanes d rel fills held r f f') (hs : sameResult r r') : AfterFiles run lanes d rel fills held r' f f' := by
  cases r <;> cases r' <;> simp only [sameResult, reduceCtorEq] at hs <;> try (cases hs; exact h)
  next m regs m' regs' =>
    have hw := @writesLane_congr d (.varying m regs) (.varying m' regs') hs held
    obtain ⟨rfl, hl, hv⟩ := hs
    have hd : ∀ fl, displaces run d rel (.varying m regs') fl ↔ displaces run d rel (.varying m regs) fl :=
      fun fl => displaces_congr (by cases d <;> rfl) fl
    have hf : ∀ n, flushes run d rel (.varying m regs) n ↔ flushes run d rel (.varying m regs') n := fun n => by
      unfold flushes; simp only [hd]
    refine { varying := ?_, uniform := ?_, affine := ?_, sameV := ?_, sameS := ?_, sameA := ?_, lastV := ?_, lastS := ?_, lastA := ?_,
             displaced := ?_ }
    · intro n m1 regs1 k vs hd hr hk hh L hL
      cases hr
      have hk' : k < regs.length := by rw [hl]; exact (List.getElem?_eq_some_iff.1 hk).1
      have := h.varying n m regs k (regs.getD k []) hd rfl (by simp [List.getD_eq_getElem?_getD, hk']) hh L hL
      rw [this, hv k L hk' hL]
      simp [List.getD_eq_getElem?_getD, hk]
    · intro n w _ hr; cases hr
    · intro n b st _ hr; cases hr
    · intro n L hL h1 h2 h3
      exact h.sameV n L hL h1 (by rw [hw]; exact h2) (by rw [hf]; exact h3)
    · intro n h1 _ h3
      exact h.sameS n h1 (by rintro ⟨_, _, _, h⟩; cases h) (by rw [hf]; exact h3)
    · intro n h1 _ h3
      exact h.sameA n h1 (by rintro ⟨_, _, _, _, h⟩; cases h) (by rw [hf]; exact h3)
    · intro n L hL h1 h2 h3
      exact h.lastV n L hL h1 (by rw [hw]; exact h2) (by rw [hf]; exact h3)
    · intro n h1 _
      exact h.lastS n h1 (by rintro ⟨_, _, _, h⟩; cases h)
    · intro n h1 _
      exact h.lastA n h1 (by rintro ⟨_, _, _, _, h⟩; cases h)
    · intro hfl fl hdf
      obtain ⟨a, b, c⟩ := h.displaced hfl fl ((hd fl).1 hdf)
      refine ⟨fun k lo hi h1 h2 L hL => ?_, fun k w h1 h2 h3 => b k w h1 h2 (by rintro ⟨_, _, _, h⟩; cases h),
        fun k b' st h1 h2 h3 => c k b' st h1 h2 (by rintro ⟨_, _, _, _, h⟩; cases h)⟩
      obtain ⟨a1, a2⟩ := a k lo hi h1 h2 L hL
      exact ⟨fun h => a1 (by rw [hw]; exact h), fun hp h => a2 hp (by rw [hw]; exact h)⟩

theorem holdsResult.congr {v : LatchVal} {r r' : Result} (h : holdsResult v r) (hs : sameResult r r') : holdsResult v r' := by
  cases r <;> cases r' <;> simp only [sameResult, reduceCtorEq] at hs <;> try (cases hs; exact h)
  next m regs m' regs' =>
    obtain ⟨rfl, hl, hv⟩ := hs
    obtain ⟨lo, hi, rfl, hh⟩ := h
    have key : ∀ k vs, regs'[k]? = some vs → regs[k]? = some (regs.getD k []) ∧ regs'.getD k [] = vs ∧ k < regs.length := fun k vs hk => by
      have hk' : k < regs.length := by rw [hl]; exact (List.getElem?_eq_some_iff.1 hk).1
      exact ⟨by simp [List.getD_eq_getElem?_getD, hk'], by simp [List.getD_eq_getElem?_getD, hk], hk'⟩
    refine ⟨lo, hi, rfl, fun L hL => ⟨fun vs h0 => ?_, fun vs h1 => ?_⟩⟩
    · obtain ⟨a, b, c⟩ := key 0 vs h0
      rw [(hh L hL).1 _ a, hv 0 L c hL, b]
    · obtain ⟨a, b, c⟩ := key 1 vs h1
      rw [(hh L hL).2 _ a, hv 1 L c hL, b]

theorem sameResult.facts {r r' : Result} (hs : sameResult r r') (d : Name) :
    reaches d r = reaches d r' ∧ r.pair = r'.pair ∧ r.isKept = r'.isKept := by
  cases r <;> cases r' <;> simp only [sameResult, reduceCtorEq] at hs <;> try (cases hs; exact ⟨rfl, rfl, rfl⟩)
  next m regs m' regs' =>
    obtain ⟨rfl, hl, -⟩ := hs
    refine ⟨by cases d <;> rfl, by simp [Result.pair, hl], rfl⟩

theorem Retired.congr {e : Env} {fills jumped : Bool} {s1 : State} {r r' : Result} {t : State} (h : Retired e fills jumped s1 r t)
    (hs : sameResult r r') : Retired e fills jumped s1 r' t where
  others := h.others
  squads := h.squads
  cores := h.cores
  ctxs := h.ctxs
  runs := h.runs
  latch q hq hf hr := by
    obtain ⟨a, b, c⟩ := hs.facts e.cx.o.d
    obtain ⟨run', v, h1, h2, h3, h4, h5⟩ := h.latch q hq hf (by rw [a]; exact hr)
    exact ⟨run', v, h1, h2, h3, fun hk => by rw [h4 hk, b, c], h5.congr hs⟩
  squad q hq := by
    obtain ⟨q', h1, h2, h3, h4, h5⟩ := h.squad q hq
    exact ⟨q', h1, h2, h3, h4, h5.congr hs⟩

/-! ### One lane after another, no access made -/

/-- What a lane of an instruction on registers alone comes to. -/
structure PureLane where
  regs : List Word32
  flags : Flags
  fault : Option LaneFault

theorem semLanes_pure (sem : Sem) (e : Env) (old : List Word32) (g : Nat → PureLane)
    (hg : ∀ s L, semLane sem s e.q e.cx.key e.cx.o e.x (old.getD L 0#32) L =
      .ok { s := s, regs := (g L).regs, flags := (g L).flags, fault := (g L).fault }) (ls : List Nat) (acc : Lanes) :
    ∃ r, semLanes sem e old acc ls = .ok r ∧ r.s = acc.s ∧ r.flags = ls.foldl (fun f L => f ||| (g L).flags) acc.flags ∧
      r.faults = acc.faults ++ ls.filterMap (fun L => (g L).fault.map fun f => (L, f)) ∧
      ∀ L, mapGet r.vals L = if L ∈ ls then some (g L).regs else mapGet acc.vals L := by
  induction ls generalizing acc with
  | nil => exact ⟨acc, rfl, rfl, rfl, by simp, fun L => by simp⟩
  | cons K ls ih =>
    simp only [semLanes, hg]
    obtain ⟨r, h1, h2, h3, h4, h5⟩ := ih
      { s := acc.s, vals := mapSet acc.vals K (g K).regs, flags := acc.flags ||| (g K).flags,
        faults := match (g K).fault with
          | some f => acc.faults ++ [(K, f)]
          | none => acc.faults }
    refine ⟨r, h1, h2, by rw [h3]; rfl, ?_, fun L => ?_⟩
    · rw [h4]
      rcases hf : (g K).fault with _ | f <;> simp [hf]
    · rw [h5]
      by_cases hL : L ∈ ls
      · simp [hL]
      · simp only [hL, if_false, List.mem_cons, or_false]
        rw [mapGet_set]
        by_cases hK : L = K
        · simp [hK]
        · simp [hK]

theorem goodLanes_nil (e : Env) : goodLanes e [] = e.active := by
  apply BitVec.eq_of_getLsbD_eq
  intro i hi
  simp only [goodLanes, maskOf_get, hi, decide_true, Bool.true_and, List.all_nil, Bool.or_true, Bool.and_true]

theorem mem_lanes (e : Env) (L : Nat) : L ∈ e.lanes ↔ e.active.getLsbD L = true := mem_lanesOf _ _

/-- An instruction on registers alone none of whose lanes faults, with a varying destination or none. -/
theorem semVarying_pure (sem : Sem) (e : Env) (g : Nat → PureLane) (hs : spanFaults sem e = false)
    (hg : ∀ s L, semLane sem s e.q e.cx.key e.cx.o e.x (e.oldD.getD L 0#32) L =
      .ok { s := s, regs := (g L).regs, flags := (g L).flags, fault := (g L).fault })
    (hf : ∀ L, e.active.getLsbD L = true → (g L).fault = none) :
    ∃ r, semVarying sem e = .done { s := e.s.orFlags e.cx.key (e.lanes.foldl (fun f L => f ||| (g L).flags) 0#5), result := r, faults := [] } ∧
      sameResult r (lanesResult e ((List.range sem.regs).map fun i L => (g L).regs.getD i 0#32)) := by
  obtain ⟨r, h1, h2, h3, h4, h5⟩ := semLanes_pure sem e e.oldD g hg e.lanes { s := e.s, vals := [], faults := [], flags := 0#5 }
  have h6 : r.faults = [] := by
    rw [h4]
    simp only [List.nil_append, List.filterMap_eq_nil_iff]
    intro L hL
    rw [hf L ((mem_lanes e L).1 hL)]; rfl
  unfold semVarying
  rw [hs]
  simp only [Bool.false_eq_true, if_false, h1, h2, h3, h6, goodLanes_nil]
  refine ⟨_, rfl, ?_⟩
  unfold lanesResult
  by_cases hd : e.dCls = .varying
  · simp only [hd, beq_self_eq_true, if_true, sameResult, true_and, List.length_map, List.length_range]
    intro k L hk hL
    have h32 := lt_of_mask hL
    have hL' : L ∈ e.lanes := (mem_lanes e L).2 hL
    have ha : ((List.range sem.regs).map fun i => perLane fun L => ((mapGet r.vals L).getD []).getD i 0#32).getD k [] =
        perLane fun L => ((mapGet r.vals L).getD []).getD k 0#32 := by
      rw [List.getD_eq_getElem?_getD, List.getElem?_map, List.getElem?_range hk]; rfl
    have hb : (((List.range sem.regs).map fun i L => (g L).regs.getD i 0#32).map perLane).getD k [] =
        perLane fun L => (g L).regs.getD k 0#32 := by
      rw [List.getD_eq_getElem?_getD, List.getElem?_map, List.getElem?_map, List.getElem?_range hk]; rfl
    rw [ha, hb, perLane_get _ _ _ h32, perLane_get _ _ _ h32, h5, if_pos hL']
    rfl
  · have : (e.dCls == .varying) = false := by simpa using hd
    simp [this, hd, sameResult]

/-! ### Whole instructions -/

/-- The class of the destination, judged when the instruction issues. -/
theorem Issues.dCls {sh : Shape} {sForm : Bool} {extra : Extra} {o : Ops} {s : State} {e : Env} (h : Issues sh sForm extra o s e) :
    e.dCls = sh.dCls o := by
  obtain ⟨h1, h2, -⟩ := namedEnv_spec h.env
  unfold Env.dCls; rw [h1, h2]

/-- An instruction whose effect is known up to what its result writes. -/
theorem issueWith_same {sh : Shape} {sForm : Bool} {extra : Extra} {o : Ops} {s : State} {e : Env} (eff : Env → Eff)
    (h : Issues sh sForm extra o s e) (s1 : State) (r r' : Result)
    (hf : eff e.opened = .done { s := s1, result := r, faults := [] }) (hs : sameResult r r') (hq : ∃ q, s1.squad? e.cx.key = some q)
    (hfit : ofClass e.dCls r) :
    ∃ t, issueWith sh sForm extra eff o s = .next t ∧ Retired e (!sForm && !sh.post) false s1 r' t := by
  obtain ⟨q, hq⟩ := hq
  obtain ⟨t, h1, h2⟩ := issueWith_done eff h _ hf q hq rfl (fits_of_class h.legal _ (by rw [← h.dCls]; exact hfit))
  exact ⟨t, h1, h2.congr hs⟩

theorem squad_orFlags (s : State) (key : Nat) (fl : Flags) (q : Squad) (hq : s.squad? key = some q) :
    ∃ q', (s.orFlags key fl).squad? key = some q' := by
  unfold State.orFlags
  split
  · exact ⟨q, hq⟩
  · exact ⟨_, by rw [squad_modSquad_self, hq]; rfl⟩

theorem ofClass_lanes {e : Env} {r : Result} {regs : List (Nat → Word32)} (h : sameResult r (lanesResult e regs)) : ofClass e.dCls r := by
  unfold lanesResult at h
  by_cases hd : e.dCls = .varying
  · rw [if_pos hd] at h
    cases r <;> simp only [sameResult, reduceCtorEq] at h
    exact hd
  · rw [if_neg hd] at h
    cases r <;> simp only [sameResult, reduceCtorEq] at h
    trivial

/-! ### Integer instructions -/

/-- A function and its value in numbers. -/
def IntFn.is (f : IntFn) (v : IntVal) : Prop :=
  ∀ (w L n : Nat) (a b c d : BitVec w), w = 32 ∨ w = 64 → f w L n a b c d = BitVec.ofInt w (v w n a.toNat b.toNat c.toNat d.toNat)

theorem foldl_zero (ls : List Nat) : ls.foldl (fun (f : Flags) _ => f ||| 0#5) 0#5 = 0#5 := by
  induction ls with
  | nil => rfl
  | cons _ _ ih => exact ih

theorem orFlags_zero (s : State) (key : Nat) : s.orFlags key 0#5 = s := rfl

/-- R177: an integer instruction. -/
theorem issue_int {sh : Shape} {sForm : Bool} {extra : Extra} {o : Ops} {s : State} {e : Env} (h : Issues sh sForm extra o s e)
    {f : IntFn} {v : IntVal} (hf : IntFn.is f v) :
    ∃ t, issueWith sh sForm extra (semEff (.int f)) o s = .next t ∧ Retired e (!sForm && !sh.post) false e.opened.s (intResult e v) t := by
  by_cases hu : e.dCls = .uniform
  · have hr : semEff (.int f) e.opened = .done { s := e.opened.s, result := intResult e v, faults := [] } := by
      unfold semEff
      rw [show e.opened.dCls = .uniform from hu]
      simp only [semUniform, intResult, hu, onceResult, Env.runs]
      by_cases ha : e.active = 0#32
      · simp only [show e.opened.active = 0#32 from ha, ha, bne_self_eq_false, Bool.not_false, if_true]; rfl
      · have hb : (e.active != 0#32) = true := by simpa using ha
        simp only [show (e.opened.active != 0#32) = true from hb, ha, Bool.not_true, Bool.false_eq_true, if_false, Env.result,
          hf 64 _ _ _ _ _ _ (.inr rfl)]
        rfl
    refine issueWith_same _ h _ _ _ hr (sameResult.refl _) ⟨_, h.squad⟩ ?_
    rw [hu]; simp only [intResult, hu, onceResult]; split <;> trivial
  · obtain ⟨r, h1, h2⟩ := semVarying_pure (.int f) e.opened
      (fun L => { regs := [f 32 L e.cx.o.c.bits (e.x.a.at32 L) (e.x.b.at32 L) (e.x.c.at32 L) (e.oldD.getD L 0#32)], flags := 0#5, fault := none })
      rfl (fun _ _ => rfl) fun _ _ => rfl
    have he : semEff (.int f) e.opened = semVarying (.int f) e.opened := by
      unfold semEff
      split
      · next hx => exact absurd hx hu
      · rfl
    rw [foldl_zero, orFlags_zero] at h1
    have hi : intResult e v = lanesResult e [fun L => f 32 L e.cx.o.c.bits (e.x.a.at32 L) (e.x.b.at32 L) (e.x.c.at32 L) (e.oldD.getD L 0#32)] := by
      unfold intResult
      split
      · next hx => exact absurd hx hu
      · show lanesResult e [_] = _
        congr 2; funext L; exact (hf 32 _ _ _ _ _ _ (.inl rfl)).symm
    have h3 : sameResult r (intResult e v) := by rw [hi]; exact h2
    exact issueWith_same _ h _ _ _ (he.trans h1) h3 ⟨_, h.squad⟩ (ofClass_lanes h2)

/-- R180: pairs. -/
theorem issue_wide {sh : Shape} {sForm : Bool} {extra : Extra} {o : Ops} {s : State} {e : Env} (h : Issues sh sForm extra o s e)
    (pairs : Bool) (f : Word64 → Word64 → Word64) (hu : e.dCls ≠ .uniform) :
    ∃ t, issueWith sh sForm extra (semEff (.wide pairs f)) o s = .next t ∧
      Retired e (!sForm && !sh.post) false e.opened.s
        (let rd (y : Opnd) (L : Nat) : Word64 := if pairs then y.pairAt L else (y.at32 L).signExtend 64
         lanesResult e [fun L => (f (rd e.x.a L) (rd e.x.b L)).truncate 32, fun L => (f (rd e.x.a L) (rd e.x.b L) >>> 32).truncate 32]) t := by
  let rd (y : Opnd) (L : Nat) : Word64 := if pairs then y.pairAt L else (y.at32 L).signExtend 64
  obtain ⟨r, h1, h2⟩ := semVarying_pure (.wide pairs f) e.opened
    (fun L => { regs := [(f (rd e.x.a L) (rd e.x.b L)).truncate 32, (f (rd e.x.a L) (rd e.x.b L) >>> 32).truncate 32], flags := 0#5, fault := none })
    rfl (fun _ _ => rfl) fun _ _ => rfl
  have he : semEff (.wide pairs f) e.opened = semVarying (.wide pairs f) e.opened := by
    unfold semEff
    split
    · next hx => exact absurd hx hu
    · rfl
  rw [foldl_zero, orFlags_zero] at h1
  exact issueWith_same _ h _ _ _ (he.trans h1) h2 ⟨_, h.squad⟩ (ofClass_lanes h2)

/-- R43: no result. -/
theorem issue_nop {sh : Shape} {sForm : Bool} {extra : Extra} {o : Ops} {s : State} {e : Env} (h : Issues sh sForm extra o s e)
    (hu : e.dCls ≠ .uniform) (hv : e.dCls ≠ .varying) :
    ∃ t, issueWith sh sForm extra (semEff .nop) o s = .next t ∧ Retired e (!sForm && !sh.post) false e.opened.s .none t := by
  obtain ⟨r, h1, h2⟩ := semVarying_pure .nop e.opened (fun _ => { regs := [], flags := 0#5, fault := none })
    rfl (fun _ _ => rfl) fun _ _ => rfl
  have he : semEff .nop e.opened = semVarying .nop e.opened := by
    unfold semEff
    split
    · next hx => exact absurd hx hu
    · rfl
  rw [foldl_zero, orFlags_zero] at h1
  have h3 : sameResult r .none := by
    unfold lanesResult at h2
    rw [if_neg (show e.opened.dCls ≠ .varying from hv)] at h2
    exact h2
  exact issueWith_same _ h _ _ _ (he.trans h1) h3 ⟨_, h.squad⟩ (ofClass_lanes h2)

/-! ### Floating instructions -/

theorem or_and_zero {x y z : Flags} : (x ||| y) &&& z = 0#5 ↔ x &&& z = 0#5 ∧ y &&& z = 0#5 := by
  constructor
  · intro h
    constructor <;>
    · apply BitVec.eq_of_getLsbD_eq
      intro i hi
      have := congrArg (fun v => BitVec.getLsbD v i) h
      simp only [BitVec.getLsbD_and, BitVec.getLsbD_or, BitVec.getLsbD_zero] at this ⊢
      revert this
      cases x.getLsbD i <;> cases y.getLsbD i <;> cases z.getLsbD i <;> simp
  · rintro ⟨h1, h2⟩
    apply BitVec.eq_of_getLsbD_eq
    intro i hi
    have a := congrArg (fun v => BitVec.getLsbD v i) h1
    have b := congrArg (fun v => BitVec.getLsbD v i) h2
    simp only [BitVec.getLsbD_and, BitVec.getLsbD_or, BitVec.getLsbD_zero] at a b ⊢
    revert a b
    cases x.getLsbD i <;> cases y.getLsbD i <;> cases z.getLsbD i <;> simp

theorem quiet_foldl (g : Nat → Flags) (z : Flags) (ls : List Nat) (x : Flags)
    (h : ls.foldl (fun f L => f ||| g L) x &&& z = 0#5) : x &&& z = 0#5 ∧ ∀ L ∈ ls, g L &&& z = 0#5 := by
  induction ls generalizing x with
  | nil => exact ⟨h, by simp⟩
  | cons K ls ih =>
    obtain ⟨h1, h2⟩ := ih _ h
    obtain ⟨a, b⟩ := or_and_zero.1 h1
    refine ⟨a, fun L hL => ?_⟩
    rcases List.mem_cons.1 hL with rfl | hL
    · exact b
    · exact h2 L hL

/-- R190–R192: a floating instruction that raises no flag whose trap is enabled. -/
theorem issue_float {sh : Shape} {sForm : Bool} {extra : Extra} {o : Ops} {s : State} {e : Env} (h : Issues sh sForm extra o s e)
    (signed : Bool) (f : FloatVal) (hq : floatQuiet e f) :
    ∃ t, issueWith sh sForm extra (semEff (.float signed f)) o s = .next t ∧
      Retired e (!sForm && !sh.post) false (e.opened.s.orFlags e.cx.key (floatFlags e f)) (floatResult e signed f) t := by
  unfold floatQuiet at hq
  by_cases hu : e.dCls = .uniform
  · have hr : semEff (.float signed f) e.opened =
        .done { s := e.opened.s.orFlags e.cx.key (floatFlags e f), result := floatResult e signed f, faults := [] } := by
      unfold semEff
      rw [show e.opened.dCls = .uniform from hu]
      simp only [semUniform, floatResult, floatFlags, hu, onceResult, Env.runs] at hq ⊢
      by_cases ha : e.active = 0#32
      · simp only [show e.opened.active = 0#32 from ha, ha, bne_self_eq_false, Bool.not_false, if_true]; rfl
      · have hb : (e.active != 0#32) = true := by simpa using ha
        simp only [ha, if_false] at hq
        have hz : floatFault e.opened.q (floatOnce e f) = none := by
          show floatFault e.q (floatOnce e f) = none
          unfold floatFault; rw [if_pos hq]
        simp only [show (e.opened.active != 0#32) = true from hb, ha, Bool.not_true, Bool.false_eq_true, if_false]
        show (match floatFault e.opened.q (floatOnce e f) with | some f => _ | none => _) = _
        rw [hz]; rfl
    refine issueWith_same _ h _ _ _ hr (sameResult.refl _) (squad_orFlags _ _ _ _ h.squad) ?_
    rw [hu]; simp only [floatResult, hu, onceResult]; split <;> trivial
  · have hfl : floatFlags e f =
        e.lanes.foldl (fun fl L => fl ||| if (e.q.lane L).kind = .helper then 0#5 else (floatLane e f L).flags) 0#5 := by
      unfold floatFlags
      split
      · next hx => exact absurd hx hu
      · rfl
    rw [hfl] at hq
    obtain ⟨-, hq'⟩ := quiet_foldl (fun L => if (e.q.lane L).kind = .helper then 0#5 else (floatLane e f L).flags) _ _ _ hq
    obtain ⟨r, h1, h2⟩ := semVarying_pure (.float signed f) e.opened
      (fun L => { regs := [BitVec.ofNat 32 (floatLane e f L).bits],
                  flags := if (e.q.lane L).kind = .helper then 0#5 else (floatLane e f L).flags,
                  fault := if (e.q.lane L).kind = .helper then none else floatFault e.q (floatLane e f L) })
      rfl (fun s L => by
        simp only [semLane, floatLane, beq_iff_eq]; rfl) fun L hL => by
        have := hq' L ((mem_lanes e L).2 hL)
        simp only at this ⊢
        split
        · rfl
        · next hk => rw [if_neg hk] at this; unfold floatFault; rw [if_pos this]
    have he : semEff (.float signed f) e.opened = semVarying (.float signed f) e.opened := by
      unfold semEff
      split
      · next hx => exact absurd hx hu
      · rfl
    have hi : floatResult e signed f = lanesResult e [fun L => BitVec.ofNat 32 (floatLane e f L).bits] := by
      unfold floatResult
      split
      · next hx => exact absurd hx hu
      · rfl
    rw [hfl, hi]
    exact issueWith_same _ h _ _ _ (he.trans h1) h2 (squad_orFlags _ _ _ _ h.squad) (ofClass_lanes h2)

/-! ### Affine results (R169) -/

/-- An affine result whose exact stride fits. -/
theorem issue_affine {sh : Shape} {sForm : Bool} {extra : Extra} {o : Ops} {s : State} {e : Env} (h : Issues sh sForm extra o s e)
    (sem : Sem) (f : AffFn) (hd : e.dCls = .affine) (ha : e.active ≠ 0#32) (h1 : -(2 ^ 31) ≤ (f e.x.a e.x.b).2)
    (h2 : (f e.x.a e.x.b).2 < 2 ^ 31) :
    ∃ t, issueWith sh sForm extra (semOrAff sem f) o s = .next t ∧
      Retired e (!sForm && !sh.post) false e.opened.s (.affine (f e.x.a e.x.b).1 (BitVec.ofInt 32 (f e.x.a e.x.b).2)) t := by
  have hb : (e.active != 0#32) = true := by simpa using ha
  have hn : ¬((f e.x.a e.x.b).2 < -(2 ^ 31) ∨ 2 ^ 31 ≤ (f e.x.a e.x.b).2) := by omega
  have hr : semOrAff sem f e.opened =
      .done { s := e.opened.s, result := .affine (f e.x.a e.x.b).1 (BitVec.ofInt 32 (f e.x.a e.x.b).2), faults := [] } := by
    unfold semOrAff affEff Env.runs
    rw [show e.opened.dCls = .affine from hd]
    simp only [beq_self_eq_true, if_true, show (e.opened.active != 0#32) = true from hb, Bool.not_true, Bool.false_eq_true, if_false]
    show (if (f e.x.a e.x.b).2 < -(2 ^ 31) ∨ 2 ^ 31 ≤ (f e.x.a e.x.b).2 then _ else _) = _
    rw [if_neg hn]; rfl
  exact issueWith_same _ h _ _ _ hr (sameResult.refl _) ⟨_, h.squad⟩ hd

theorem semOrAff_other {sem : Sem} {f : AffFn} {e : Env} (hd : e.dCls ≠ .affine) : semOrAff sem f e = semEff sem e := by
  unfold semOrAff
  rw [if_neg (by simpa using hd)]

/-- An instruction with affine forms, into another destination. -/
theorem issue_orAff {sh : Shape} {sForm : Bool} {extra : Extra} {o : Ops} {s : State} {e : Env} (h : Issues sh sForm extra o s e)
    {f : IntFn} {v : IntVal} (g : AffFn) (hf : IntFn.is f v) (hd : e.dCls ≠ .affine) :
    ∃ t, issueWith sh sForm extra (semOrAff (.int f) g) o s = .next t ∧ Retired e (!sForm && !sh.post) false e.opened.s (intResult e v) t := by
  have := issue_int h hf
  rw [issueWith_issues _ h] at this ⊢
  unfold takeEffect at this ⊢
  rw [semOrAff_other (show e.opened.dCls ≠ .affine from hd)]
  exact this

end Sys2Proof.Machine
end

