-- ==== Sys2Proof/Laws/Race.lean ====
section
/-!
SUPPORT. Race bookkeeping: clocks only grow, an access of a squad never races its own squad's, and what an access by a squad may
change (`OwnAccess`).
-/
namespace Sys2Proof.Machine

/-! ### Clocks grow -/

theorem Clock.Le.refl (c : Clock) : c.Le c := ⟨fun _ => Nat.le_refl _, fun _ => Nat.le_refl _, fun _ h => h, Nat.le_refl _, fun _ h => h, Nat.le_refl _⟩
theorem Clock.Le.trans {a b c : Clock} (h : a.Le b) (k : b.Le c) : a.Le c :=
  ⟨fun x => Nat.le_trans (h.squads x) (k.squads x), fun x => Nat.le_trans (h.groups x) (k.groups x), fun x hx => k.ops x (h.ops x hx),
   Nat.le_trans h.floor k.floor, fun x hx => k.codes x (h.codes x hx), Nat.le_trans h.code k.code⟩

theorem mapUpd_le (m : Map Nat) (a : Nat) (f : Nat → Nat) (hf : ∀ x, x ≤ f x) (k : Nat) :
    (mapGet m k).getD 0 ≤ (mapGet (mapUpd m a 0 f) k).getD 0 := by
  rw [mapGet_upd]
  split
  · next h => subst h; exact hf _
  · exact Nat.le_refl _

theorem mapJoin_le (m n : Map Nat) (k : Nat) : (mapGet m k).getD 0 ≤ (mapGet (mapJoin m n) k).getD 0 := by
  unfold mapJoin
  induction n generalizing m with
  | nil => exact Nat.le_refl _
  | cons x n ih => exact Nat.le_trans (mapUpd_le m x.1 _ (fun y => Nat.le_max_right x.2 y) k) (ih _)

theorem joinOps_le (xs ys : List Nat) : ∀ x ∈ xs, x ∈ ys.foldl (fun acc x => if x ∈ acc then acc else x :: acc) xs := by
  induction ys generalizing xs with
  | nil => exact fun _ h => h
  | cons y ys ih =>
    intro x hx
    refine ih _ x ?_
    show x ∈ if y ∈ xs then xs else y :: xs
    split
    · exact hx
    · exact List.mem_cons_of_mem _ hx

theorem Clock.le_join (c d : Clock) : c.Le (c.join d) :=
  ⟨mapJoin_le _ _, mapJoin_le _ _, joinOps_le _ _, Nat.le_max_left _ _, joinOps_le _ _, Nat.le_max_left _ _⟩

theorem Clock.Le.knows {c d : Clock} (h : c.Le d) (tok : Nat) (hk : c.knows tok = true) : d.knows tok = true := by
  simp only [Clock.knows, Bool.or_eq_true, decide_eq_true_eq] at hk ⊢
  rcases hk with (hk | hk) | hk
  · exact .inl (.inl (h.ops _ hk))
  · exact .inl (.inr (h.ops _ hk))
  · exact .inr (Nat.lt_of_lt_of_le hk h.floor)

/-! ### The ordering test -/

/-- An agent as another, knowing at least as much. -/
structure Agent.Better (a b : Agent) : Prop where
  group : b.acc.group = a.acc.group
  squad : b.acc.squad = a.acc.squad
  kind : b.acc.kind = a.acc.kind
  op : b.acc.op = a.acc.op
  cls : b.acc.cls = a.acc.cls
  grid : b.grid = a.grid
  clock : a.clock.Le b.clock

/-- An earlier access that the present one conflicts with and that is not ordered before it. -/
def fails (e : Access) (eWrites : Bool) (me : Agent) (writes : Bool) : Bool := conflicts e eWrites me.acc writes && !orderedBefore e me

theorem orderedBefore_better {a b : Agent} (h : a.Better b) (e : Access) (ho : orderedBefore e a = true) : orderedBefore e b = true := by
  have hg : ∀ k, (!e.sameGroup a.acc && decide (e.groupEpoch ≤ (mapGet a.clock.groups k).getD 0)) = true →
      (!e.sameGroup b.acc && decide (e.groupEpoch ≤ (mapGet b.clock.groups k).getD 0)) = true := fun k hk => by
    simp only [Access.sameGroup, h.group, Bool.and_eq_true, decide_eq_true_eq] at hk ⊢
    exact ⟨hk.1, Nat.le_trans hk.2 (h.clock.groups _)⟩
  have hs : e.sameGroup b.acc = e.sameGroup a.acc := by simp only [Access.sameGroup, h.group]
  unfold orderedBefore at ho ⊢
  simp only [h.grid] at ho ⊢
  rcases hop : e.op with _ | tok
  · simp only [hop, hs] at ho hg ⊢
    rcases hx : e.sameGroup a.acc with _ | _
    · simp only [hx, Bool.false_eq_true, if_false] at ho hg ⊢; exact hg _ ho
    · simp only [hx, if_true, decide_eq_true_eq] at ho ⊢; exact Nat.le_trans ho (h.clock.squads _)
  · simp only [hop, Bool.or_eq_true] at ho ⊢
    rcases ho with ho | ho
    · exact .inl (h.clock.knows _ ho)
    · exact .inr (hg _ ho)

theorem conflicts_better {a b : Agent} (h : a.Better b) (e : Access) (eW w : Bool) : conflicts e eW b.acc w = conflicts e eW a.acc w := by
  simp only [conflicts, Access.syncTowards, Access.fenceIn, Access.shared, Access.sameSquad, Access.sameGroup, Access.sameAgent,
    h.group, h.squad, h.kind, h.op, h.cls]
  rfl

theorem fails_better {a b : Agent} (h : a.Better b) (e : Access) (eW w : Bool) (hf : fails e eW a w = false) : fails e eW b w = false := by
  unfold fails at hf ⊢
  rw [conflicts_better h]
  rcases hc : conflicts e eW a.acc w with _ | _
  · rfl
  · rw [hc] at hf
    simp only [Bool.true_and, Bool.not_eq_false'] at hf ⊢
    exact orderedBefore_better h e hf

/-- An access of a squad's own. -/
def Access.ownOf (e : Access) (me : Agent) : Prop := e.group = me.acc.group ∧ e.squad = me.acc.squad ∧ e.kind ≤ 1

theorem fails_own (e : Access) (me : Agent) (h : e.ownOf me) (hk : me.acc.kind ≤ 1) (eW w : Bool) : fails e eW me w = false := by
  obtain ⟨h1, h2, h3⟩ := h
  simp [fails, conflicts, Access.sameAgent, Access.sameGroup, h1, h2, h3, hk]

theorem firstAccess_none (l : List Access) : firstAccess l = none ↔ l = [] := by
  cases l with
  | nil => simp [firstAccess]
  | cons a l => simp only [firstAccess, reduceCtorEq, iff_false]; split <;> (try split) <;> simp

/-- R155: when an access meets no race. -/
theorem checkTag_none (t : WordTag) (me : Agent) (w : Bool) :
    checkTag t me w = none ↔ (w = true → ∀ e ∈ t.readers, fails e false me true = false) ∧ ∀ e, t.writer = some e → fails e true me w = false := by
  have hw : ∀ kind, (match t.writer with
      | some e => if fails e true me w then some (mkRace kind e me.acc) else none
      | none => none) = none ↔ ∀ e, t.writer = some e → fails e true me w = false := fun kind => by
    rcases t.writer with _ | e
    · simp
    · simp
  cases w with
  | false =>
    simp only [Bool.false_eq_true, false_implies, true_and]
    exact hw 1
  | true =>
    simp only [true_implies]
    show (match firstAccess (t.readers.filter fun e => fails e false me true) with
      | some e => some (mkRace 2 e me.acc)
      | none => _) = none ↔ _
    rcases hf : firstAccess (t.readers.filter fun e => fails e false me true) with _ | e
    · rw [firstAccess_none, List.filter_eq_nil_iff] at hf
      have : ∀ e ∈ t.readers, fails e false me true = false := fun e he => by simpa using hf e he
      exact ⟨fun h => ⟨this, (hw 3).1 h⟩, fun h => (hw 3).2 h.2⟩
    · simp only [reduceCtorEq, false_iff, not_and]
      intro h
      exfalso
      have : t.readers.filter (fun e => fails e false me true) = [] := by
        rw [List.filter_eq_nil_iff]; intro e he; rw [h e he]; simp
      rw [this] at hf; cases hf

/-- A tag whose entries are of an earlier tag's or of the squad itself. -/
structure WordTag.From (t t' : WordTag) (own : Access → Prop) : Prop where
  writer : ∀ e, t'.writer = some e → t.writer = some e ∨ own e
  readers : ∀ e ∈ t'.readers, e ∈ t.readers ∨ own e

theorem WordTag.From.refl (t : WordTag) (own : Access → Prop) : t.From t own := ⟨fun _ h => .inl h, fun _ h => .inl h⟩
theorem WordTag.From.trans {a b c : WordTag} {own : Access → Prop} (h : a.From b own) (k : b.From c own) : a.From c own where
  writer e he := by rcases k.writer e he with h1 | h1; exact h.writer e h1; exact .inr h1
  readers e he := by rcases k.readers e he with h1 | h1; exact h.readers e h1; exact .inr h1

theorem checkTag_from {t t' : WordTag} {a b : Agent} {own : Access → Prop} (h : t.From t' own) (hb : a.Better b) (hk : b.acc.kind ≤ 1)
    (ho : ∀ e, own e → e.ownOf b) (w : Bool) (hc : checkTag t a w = none) : checkTag t' b w = none := by
  rw [checkTag_none] at hc ⊢
  refine ⟨fun hw e he => ?_, fun e he => ?_⟩
  · rcases h.readers e he with h1 | h1
    · exact fails_better hb _ _ _ (hc.1 hw e h1)
    · exact fails_own _ _ (ho e h1) hk _ _
  · rcases h.writer e he with h1 | h1
    · exact fails_better hb _ _ _ (hc.2 e h1)
    · exact fails_own _ _ (ho e h1) hk _ _

theorem tagRead_from (t : WordTag) (me : Access) (own : Access → Prop) (h : own me) : t.From (tagRead t me) own where
  writer e he := .inl he
  readers e he := by
    simp only [tagRead, List.mem_append, List.mem_filter, List.mem_singleton] at he
    rcases he with he | rfl
    · exact .inl he.1
    · exact .inr h

theorem tagWrite_from (t : WordTag) (me : Access) (own : Access → Prop) (h : own me) : t.From (tagWrite t me) own where
  writer e he := by simp only [tagWrite, Option.some.injEq] at he; subst he; exact .inr h
  readers e he := by
    simp only [tagWrite] at he
    split at he
    · cases he
    · exact .inl (List.mem_filter.1 he).1

theorem tagPublish_from (t : WordTag) (me : Access) (sc : Nat) (c : Clock) (own : Access → Prop) : t.From (tagPublish t me sc c) own :=
  ⟨fun _ h => .inl h, fun _ h => .inl h⟩

end Sys2Proof.Machine
end

