-- ==== Sys2Proof/Laws/Window.lean ====
section
/-!
SUPPORT. Accesses to the windows: what one lane's load, store and atomic come to when they meet neither a defect nor a race, and that
a squad's earlier accesses never make a later one race.
-/
namespace Sys2Proof.Machine

/-- A squad's access records. -/
def ownRec (q : Squad) (e : Access) : Prop := e.group = q.group ∧ e.squad = q.sq ∧ e.kind ≤ 1

/-- A state that a squad's own accesses lead to. -/
structure OwnAccess (key : Nat) (q : Squad) (s t : State) : Prop where
  acc : Accessed key s t
  clock : ∀ a, s.squad? key = some a → ∃ b, t.squad? key = some b ∧ a.clock.Le b.clock
  tags : ∀ sp w, (winTag s q sp w).From (winTag t q sp w) (ownRec q)
  still : NoGlides s → NoGlides t

theorem Accessed.refl (key : Nat) (s : State) : Accessed key s s := ⟨rfl, fun _ _ => rfl, rfl, fun _ => rfl, fun _ => rfl, fun _ => rfl⟩
theorem Accessed.trans {key : Nat} {a b c : State} (h : Accessed key a b) (k : Accessed key b c) : Accessed key a c where
  others := by rw [k.others, h.others]
  squads x hx := by rw [k.squads x hx, h.squads x hx]
  own := by rw [k.own, h.own]
  groups x := by rw [k.groups x, h.groups x]
  spans x := by rw [k.spans x, h.spans x]
  cores x := by rw [k.cores x, h.cores x]

theorem OwnAccess.refl (key : Nat) (q : Squad) (s : State) : OwnAccess key q s s :=
  ⟨.refl _ _, fun a h => ⟨a, h, .refl _⟩, fun _ _ => .refl _ _, id⟩
theorem OwnAccess.trans {key : Nat} {q : Squad} {a b c : State} (h : OwnAccess key q a b) (k : OwnAccess key q b c) : OwnAccess key q a c where
  acc := h.acc.trans k.acc
  clock x hx := by
    obtain ⟨y, h1, h2⟩ := h.clock x hx
    obtain ⟨z, h3, h4⟩ := k.clock y h1
    exact ⟨z, h3, h2.trans h4⟩
  tags sp w := (h.tags sp w).trans (k.tags sp w)
  still x := k.still (h.still x)

/-! ### Where the windows stand -/

theorem Accessed.spanOf {key : Nat} {s t : State} (h : Accessed key s t) (q : Squad) : t.spanOf q = s.spanOf q := by
  have := h.groups (Machine.groupKey q.grid q.group)
  unfold State.spanOf
  rcases ht : t.group? (Machine.groupKey q.grid q.group) with _ | g <;> rcases hs : s.group? (Machine.groupKey q.grid q.group) with _ | g' <;>
    rw [ht, hs] at this <;> simp only [Option.map_none, Option.map_some, Option.some.injEq, reduceCtorEq] at this ⊢
  simp only [Group.mk.injEq] at this
  simp [this]

theorem Accessed.coreOf {key : Nat} {s t : State} (h : Accessed key s t) (q : Squad) : t.coreOf q = s.coreOf q := by
  have := h.groups (Machine.groupKey q.grid q.group)
  unfold State.coreOf
  rcases ht : t.group? (Machine.groupKey q.grid q.group) with _ | g <;> rcases hs : s.group? (Machine.groupKey q.grid q.group) with _ | g' <;>
    rw [ht, hs] at this <;> simp only [Option.map_none, Option.map_some, Option.some.injEq, reduceCtorEq] at this ⊢
  simp only [Group.mk.injEq] at this
  simp [this]

theorem Accessed.winSize {key : Nat} {s t : State} (h : Accessed key s t) (q : Squad) (sp : Space) : winSize t q sp = winSize s q sp := by
  cases sp with
  | shared =>
    have := h.groups q.groupKey
    unfold Machine.winSize
    rcases ht : t.group? q.groupKey with _ | g <;> rcases hs : s.group? q.groupKey with _ | g' <;>
      rw [ht, hs] at this <;> simp only [Option.map_none, Option.map_some, Option.some.injEq, reduceCtorEq] at this ⊢
    simp only [Group.mk.injEq] at this
    simp [this]
  | scratch =>
    have := h.spans (s.spanOf q)
    unfold Machine.winSize
    rw [h.spanOf]
    rcases ht : t.span? (s.spanOf q) with _ | g <;> rcases hs : s.span? (s.spanOf q) with _ | g' <;>
      simp only [ht, hs] at this ⊢ <;> simp only [Option.map_none, Option.map_some, Option.some.injEq, reduceCtorEq] at this ⊢
    simp only [Span.mk.injEq] at this
    simp [this]

/-- The squad, but for what its accesses change. -/
theorem Accessed.squad {key : Nat} {s t : State} (h : Accessed key s t) {q : Squad} (hq : s.squad? key = some q) :
    ∃ q', t.squad? key = some q' ∧ q' = { q with clock := q'.clock, fenceSeen := q'.fenceSeen, misses := q'.misses } := by
  have := h.own
  rw [hq] at this
  rcases ht : t.squad? key with _ | q'
  · rw [ht] at this; cases this
  · rw [ht] at this
    simp only [Option.map_some, Option.some.injEq, Squad.mk.injEq] at this
    refine ⟨q', rfl, ?_⟩
    cases q; cases q'
    simp_all

/-! ### The pieces of an access -/

theorem accessed_modSquad (key : Nat) (s : State) (f : Squad → Squad)
    (hf : ∀ q, f q = { q with clock := (f q).clock, fenceSeen := (f q).fenceSeen, misses := (f q).misses }) : Accessed key s (s.modSquad key f) where
  others := rfl
  squads k hk := by simp only [State.squad?, State.modSquad, mapGet_mod, if_neg hk]
  own := by
    rw [squad_modSquad_self]
    rcases s.squad? key with _ | q
    · rfl
    · simp only [Option.map_some]; rw [hf q]
  groups _ := rfl
  spans _ := rfl
  cores _ := rfl

theorem winTag_of_eq {s t : State} (hg : t.groups = s.groups) (hp : t.spans = s.spans) (q : Squad) (sp : Space) (w : Nat) :
    winTag t q sp w = winTag s q sp w := by
  cases sp <;> simp only [winTag, winTags, State.spanOf, State.group?, State.span?, hg, hp]

theorem mem_of_mapGet {V : Type} (m : Map V) (k : Nat) (v : V) (h : mapGet m k = some v) : (k, v) ∈ m := by
  induction m with
  | nil => cases h
  | cons c m ih =>
    obtain ⟨k', v'⟩ := c
    simp only [mapGet] at h
    split at h
    · next hk => cases h; subst hk; exact List.mem_cons_self ..
    · exact List.mem_cons_of_mem _ (ih h)

theorem noGlides_set (s : State) (key : Nat) (q : Squad) (hq : NoGlides s → q.glide = none) (h : NoGlides s) : NoGlides (s.setSquad key q) := by
  intro c hc
  rcases mem_mapSet _ _ _ _ hc with rfl | hc
  · exact hq h
  · exact h c hc

theorem noGlides_mod (s : State) (key : Nat) (f : Squad → Squad) (hf : ∀ q : Squad, (f q).glide = q.glide) (h : NoGlides s) : NoGlides (s.modSquad key f) := by
  unfold State.modSquad mapMod
  rcases hm : mapGet s.squads key with _ | q
  · exact h
  · exact noGlides_set s key (f q) (fun _ => (hf q).trans (h _ (mem_of_mapGet _ _ _ hm))) h

theorem own_modSquad (key : Nat) (q : Squad) (s : State) (f : Squad → Squad)
    (hf : ∀ q, f q = { q with clock := (f q).clock, fenceSeen := (f q).fenceSeen, misses := (f q).misses }) (hc : ∀ q : Squad, q.clock.Le (f q).clock) :
    OwnAccess key q s (s.modSquad key f) where
  acc := accessed_modSquad key s f hf
  clock a ha := ⟨f a, by rw [squad_modSquad_self, ha]; rfl, hc a⟩
  tags sp w := by rw [winTag_of_eq rfl rfl]; exact .refl _ _
  still := noGlides_mod _ _ _ fun q => by rw [hf q]

theorem own_acquire (key : Nat) (q : Squad) (s : State) (c : Clock) : OwnAccess key q s (acquire s key c) :=
  own_modSquad key q s _ (fun _ => rfl) fun _ => Clock.le_join _ _

theorem own_setRecs (key : Nat) (q : Squad) (s : State) (t : Table) (recs : List SyncRec) (lost : List Nat) :
    OwnAccess key q s (s.setRecs t recs lost) := by
  cases t with
  | core n =>
    refine ⟨⟨rfl, fun _ _ => rfl, rfl, fun _ => rfl, fun _ => rfl, fun c => ?_⟩, fun a ha => ⟨a, ha, .refl _⟩, fun sp w => ?_, id⟩
    · show { (s.modCore n fun c => { c with sync := recs }).core c with sync := [] } = _
      rw [core_modCore]; split
      · next h => subst h; rfl
      · rfl
    · rw [winTag_of_eq rfl rfl]; exact .refl _ _
  | die n =>
    exact ⟨⟨rfl, fun _ _ => rfl, rfl, fun _ => rfl, fun _ => rfl, fun _ => rfl⟩, fun a ha => ⟨a, ha, .refl _⟩, fun sp w => by
      rw [winTag_of_eq rfl rfl]; exact .refl _ _, id⟩

theorem own_releaseTo (key : Nat) (q : Squad) (s : State) (t : Table) (obj : Nat) (c : Clock) : OwnAccess key q s (releaseTo s t obj c) :=
  own_setRecs ..

theorem own_acquireFrom (key : Nat) (q : Squad) (s : State) (t : Table) (obj gk : Nat) : OwnAccess key q s (acquireFrom s t obj gk).2.2 := by
  unfold acquireFrom
  simp only
  split
  · exact .refl ..
  · split
    · exact own_setRecs ..
    · exact .refl ..

theorem own_acquireObj (key : Nat) (q : Squad) (s : State) (t : Table) (obj : Nat) : OwnAccess key q s (acquireObj s key t obj) := by
  unfold acquireObj
  split
  · exact .refl ..
  · next q' _ =>
    have h := (own_acquireFrom key q s t obj q'.groupKey).trans (own_acquire key q _ (acquireFrom s t obj q'.groupKey).1)
    simp only
    split
    · exact h.trans (own_modSquad key q _ _ (fun _ => rfl) fun _ => .refl _)
    · exact h

theorem group_modGroup (s : State) (k g : Nat) (f : Group → Group) :
    (s.modGroup k f).group? g = if g = k then (s.group? g).map f else s.group? g := by
  simp only [State.group?, State.modGroup, mapGet_mod]
  split
  · next h => subst h; rfl
  · rfl
theorem span_modSpan (s : State) (k g : Nat) (f : Span → Span) :
    (s.modSpan k f).span? g = if g = k then (s.span? g).map f else s.span? g := by
  simp only [State.span?, State.modSpan, mapGet_mod]
  split
  · next h => subst h; rfl
  · rfl

theorem accessed_modGroup (key k : Nat) (s : State) (f : Group → Group)
    (hf : ∀ g, f g = { g with shared := (f g).shared, tags := (f g).tags, epoch := (f g).epoch }) : Accessed key s (s.modGroup k f) where
  others := rfl
  squads _ _ := rfl
  own := rfl
  groups g := by
    rw [group_modGroup]
    split
    · rcases s.group? g with _ | x
      · rfl
      · simp only [Option.map_some]; rw [hf x]
    · rfl
  spans _ := rfl
  cores _ := rfl

theorem accessed_modSpan (key k : Nat) (s : State) (f : Span → Span) (hf : ∀ p, f p = { p with mem := (f p).mem, tags := (f p).tags }) :
    Accessed key s (s.modSpan k f) where
  others := rfl
  squads _ _ := rfl
  own := rfl
  groups _ := rfl
  spans g := by
    rw [span_modSpan]
    split
    · rcases s.span? g with _ | x
      · rfl
      · simp only [Option.map_some]; rw [hf x]
    · rfl
  cores _ := rfl

theorem release_spec (key : Nat) (q : Squad) (s : State) (scope : Nat) : OwnAccess key q s (release s key scope).2 := by
  unfold release
  split
  · exact .refl ..
  · next q' hq' =>
    have h1 : OwnAccess key q s (s.setSquad key { q' with clock := { q'.clock with squads := mapUpd q'.clock.squads key 0 (· + 1) } }) := by
      refine ⟨⟨rfl, fun k hk => by simp only [State.squad?, State.setSquad]; exact mapGet_set_ne _ _ hk, ?_, fun _ => rfl, fun _ => rfl, fun _ => rfl⟩,
        fun a ha => ⟨_, squad_setSquad_self .., ?_⟩, fun sp w => ?_,
        noGlides_set _ _ _ fun hn => hn _ (mem_of_mapGet _ _ _ hq')⟩
      · rw [squad_setSquad_self, hq']; rfl
      · rw [hq'] at ha; cases ha
        exact ⟨mapUpd_le _ _ _ fun _ => Nat.le_succ _, fun _ => Nat.le_refl _, fun _ h => h, Nat.le_refl _, fun _ h => h, Nat.le_refl _⟩
      · rw [winTag_of_eq rfl rfl]; exact .refl _ _
    simp only
    split
    · refine h1.trans ⟨accessed_modGroup _ _ _ _ fun _ => rfl, fun a ha => ⟨a, ha, .refl _⟩, fun sp w => ?_, id⟩
      have hs : ∀ (t : State) (q : Squad) (gk : Nat), (t.modGroup gk fun g => { g with epoch := g.epoch + 1 }).spanOf q = t.spanOf q := fun t q gk => by
        simp only [State.spanOf, group_modGroup]; split
        · cases t.group? (Machine.groupKey q.grid q.group) <;> rfl
        · rfl
      cases sp with
      | shared =>
        simp only [winTag, winTags, group_modGroup]; split
        · rcases State.group? _ q.groupKey with _ | g <;> exact .refl _ _
        · exact .refl _ _
      | scratch => simp only [winTag, winTags, hs]; exact .refl _ _
    · exact h1

theorem spanOf_modTag (s : State) (q q' : Squad) (sp : Space) (w : Nat) (f : WordTag → WordTag) :
    (s.modTag q sp w f).spanOf q' = s.spanOf q' := by
  cases sp
  · simp only [State.modTag, State.spanOf, group_modGroup]; split
    · cases s.group? (Machine.groupKey q'.grid q'.group) <;> rfl
    · rfl
  · rfl

theorem winTag_modTag (s : State) (q : Squad) (sp sp' : Space) (w w' : Nat) (f : WordTag → WordTag) :
    winTag (s.modTag q sp w f) q sp' w' = winTag s q sp' w' ∨
      sp' = sp ∧ w' = w ∧ winTag (s.modTag q sp w f) q sp' w' = f (winTag s q sp' w') := by
  cases sp <;> cases sp'
  · simp only [winTag, winTags, State.modTag, group_modGroup, if_true]
    rcases s.group? q.groupKey with _ | g
    · exact .inl rfl
    · simp only [Option.map_some, Option.getD_some, mapGet_upd]
      by_cases h : w' = w
      · subst h; exact .inr (by simp)
      · exact .inl (by rw [if_neg h])
  · left
    simp only [winTag, winTags, spanOf_modTag]; rfl
  · left
    rfl
  · simp only [winTag, winTags, spanOf_modTag]
    simp only [State.modTag, span_modSpan, if_true]
    rcases s.span? (s.spanOf q) with _ | g
    · exact .inl rfl
    · simp only [Option.map_some, Option.getD_some, mapGet_upd]
      by_cases h : w' = w
      · subst h; exact .inr (by simp)
      · exact .inl (by rw [if_neg h])

theorem own_modTag (key : Nat) (q : Squad) (s : State) (sp : Space) (w : Nat) (f : WordTag → WordTag)
    (hf : ∀ t : WordTag, t.From (f t) (ownRec q)) : OwnAccess key q s (s.modTag q sp w f) where
  acc := by
    cases sp
    · exact accessed_modGroup _ _ _ _ fun _ => rfl
    · exact accessed_modSpan _ _ _ _ fun _ => rfl
  clock a ha := ⟨a, by cases sp <;> exact ha, .refl _⟩
  tags sp' w' := by
    rcases winTag_modTag s q sp sp' w w' f with h | ⟨-, -, h⟩
    · rw [h]; exact .refl _ _
    · rw [h]; exact hf _
  still h := by cases sp <;> exact h

theorem modTag_congr (s : State) (q q' : Squad) (hg : q'.grid = q.grid) (hp : q'.group = q.group) (sp : Space) (w : Nat) (f : WordTag → WordTag) :
    s.modTag q' sp w f = s.modTag q sp w f := by
  cases sp <;> simp only [State.modTag, State.spanOf, Squad.groupKey, hg, hp]

theorem winTag_congr (s : State) (q q' : Squad) (hg : q'.grid = q.grid) (hp : q'.group = q.group) (sp : Space) (w : Nat) :
    winTag s q' sp w = winTag s q sp w := by
  cases sp <;> simp only [winTag, winTags, State.spanOf, Squad.groupKey, hg, hp]

/-! ### The windows' bytes -/

theorem sharedBytes_of_eq {s t : State} (h : t.groups = s.groups) (gk : Nat) : sharedBytes t gk = sharedBytes s gk := by
  simp only [sharedBytes, State.group?, h]
theorem scratchBytes_of_eq {s t : State} (h : t.spans = s.spans) (k : Nat) : scratchBytes t k = scratchBytes s k := by
  simp only [scratchBytes, State.span?, h]

theorem SameBytes.refl (s : State) : SameBytes s s := ⟨fun _ => rfl, fun _ => rfl⟩
theorem SameBytes.trans {a b c : State} (h : SameBytes a b) (k : SameBytes b c) : SameBytes a c :=
  ⟨fun x => (k.1 x).trans (h.1 x), fun x => (k.2 x).trans (h.2 x)⟩
theorem SameBytes.of_eq {s t : State} (hg : t.groups = s.groups) (hp : t.spans = s.spans) : SameBytes s t :=
  ⟨sharedBytes_of_eq hg, scratchBytes_of_eq hp⟩

theorem same_modGroup (s : State) (k : Nat) (f : Group → Group) (hf : ∀ g : Group, (f g).shared = g.shared) : SameBytes s (s.modGroup k f) := by
  refine ⟨fun gk => ?_, fun _ => rfl⟩
  simp only [sharedBytes, group_modGroup]; split
  · cases s.group? gk <;> simp [hf]
  · rfl
theorem same_modSpan (s : State) (k : Nat) (f : Span → Span) (hf : ∀ g : Span, (f g).mem = g.mem) : SameBytes s (s.modSpan k f) := by
  refine ⟨fun _ => rfl, fun gk => ?_⟩
  simp only [scratchBytes, span_modSpan]; split
  · cases s.span? gk <;> simp [hf]
  · rfl
theorem same_modTag (s : State) (q : Squad) (sp : Space) (w : Nat) (f : WordTag → WordTag) : SameBytes s (s.modTag q sp w f) := by
  cases sp
  · exact same_modGroup _ _ _ fun _ => rfl
  · exact same_modSpan _ _ _ fun _ => rfl
theorem same_setRecs (s : State) (t : Table) (r : List SyncRec) (l : List Nat) : SameBytes s (s.setRecs t r l) := by
  cases t <;> exact .of_eq rfl rfl
theorem same_acquireFrom (s : State) (t : Table) (obj gk : Nat) : SameBytes s (acquireFrom s t obj gk).2.2 := by
  unfold acquireFrom; simp only; split
  · exact .refl _
  · split
    · exact same_setRecs ..
    · exact .refl _
theorem same_acquireObj (s : State) (key : Nat) (t : Table) (obj : Nat) : SameBytes s (acquireObj s key t obj) := by
  unfold acquireObj; split
  · exact .refl _
  · next q _ =>
    have h := (same_acquireFrom s t obj q.groupKey).trans (.of_eq (t := acquire _ key (acquireFrom s t obj q.groupKey).1) rfl rfl)
    simp only; split
    · exact h.trans (.of_eq rfl rfl)
    · exact h
theorem same_release (s : State) (key scope : Nat) : SameBytes s (release s key scope).2 := by
  unfold release; split
  · exact .refl _
  · simp only; split
    · exact SameBytes.trans (.of_eq rfl rfl) (same_modGroup _ _ _ fun _ => rfl)
    · exact .of_eq rfl rfl

theorem winMem_same {key : Nat} {s t : State} (h : SameBytes s t) (ha : Accessed key s t) (q : Squad) (sp : Space) : winMem t q sp = winMem s q sp := by
  cases sp with
  | shared => exact h.1 q.groupKey
  | scratch => unfold winMem; rw [ha.spanOf]; exact h.2 _

/-! ### Noting accesses -/

/-- What holds from the state before a squad's accesses on. -/
structure Ready (key : Nat) (q : Squad) (s t : State) : Prop where
  own : OwnAccess key q s t
  squad : s.squad? key = some q

theorem Ready.now {key : Nat} {q : Squad} {s t : State} (h : Ready key q s t) :
    ∃ q', t.squad? key = some q' ∧ q' = { q with clock := q'.clock, fenceSeen := q'.fenceSeen, misses := q'.misses } ∧ q.clock.Le q'.clock := by
  obtain ⟨q', h1, h2⟩ := h.own.acc.squad h.squad
  obtain ⟨b, h3, h4⟩ := h.own.clock q h.squad
  rw [h1] at h3; cases h3
  exact ⟨q', h1, h2, h4⟩

theorem Ready.step {key : Nat} {q : Squad} {s t u : State} (h : Ready key q s t) (k : OwnAccess key q t u) : Ready key q s u :=
  ⟨h.own.trans k, h.squad⟩

theorem own_noteFence (key : Nat) (q q' : Squad) (s : State) (sp : Space) (me : Access) (w : Nat) :
    OwnAccess key q s (noteFence s key q' sp me w) := by
  unfold noteFence
  split
  · exact .refl ..
  · exact own_modSquad key q _ _ (fun _ => rfl) fun _ => .refl _
theorem same_noteFence (s : State) (key : Nat) (q' : Squad) (sp : Space) (me : Access) (w : Nat) : SameBytes s (noteFence s key q' sp me w) := by
  unfold noteFence
  split
  · exact .refl ..
  · exact .of_eq rfl rfl

theorem own_noteWrite (key : Nat) (q q' : Squad) (hg : q'.grid = q.grid) (hp : q'.group = q.group) (s : State) (L : Nat) (sp : Space) (me : Access)
    (w : Nat) (hme : ownRec q me) : OwnAccess key q s (noteWrite s key q' L sp me w) := by
  have h : OwnAccess key q s (s.modTag q' sp w (tagWrite · me)) := by
    rw [modTag_congr s q q' hg hp]; exact own_modTag _ _ _ _ _ _ fun t => tagWrite_from t me _ hme
  unfold noteWrite
  simp only
  split
  · rw [modTag_congr _ q q' hg hp]
    exact h.trans (own_modTag _ _ _ _ _ _ fun t => tagPublish_from t me _ _ _)
  · exact (h.trans (release_spec ..)).trans (own_releaseTo ..)
  · exact h
theorem same_noteWrite (s : State) (key : Nat) (q' : Squad) (L : Nat) (sp : Space) (me : Access) (w : Nat) :
    SameBytes s (noteWrite s key q' L sp me w) := by
  have h := same_modTag s q' sp w (tagWrite · me)
  unfold noteWrite
  simp only
  split
  · exact h.trans (same_modTag ..)
  · exact (h.trans (same_release ..)).trans (same_setRecs ..)
  · exact h

theorem own_foldl {key : Nat} {q : Squad} (f : State → Nat → State) (hf : ∀ s w, OwnAccess key q s (f s w)) (ws : List Nat) (s : State) :
    OwnAccess key q s (ws.foldl f s) := by
  induction ws generalizing s with
  | nil => exact .refl ..
  | cons w ws ih => exact (hf s w).trans (ih _)
theorem same_foldl (f : State → Nat → State) (hf : ∀ s w, SameBytes s (f s w)) (ws : List Nat) (s : State) : SameBytes s (ws.foldl f s) := by
  induction ws generalizing s with
  | nil => exact .refl ..
  | cons w ws ih => exact (hf s w).trans (ih _)

/-! ### Races do not arise later -/

theorem better_squadAgent {key : Nat} {q q' : Squad} {s t : State} (cls : AccessClass)
    (h : q' = { q with clock := q'.clock, fenceSeen := q'.fenceSeen, misses := q'.misses }) (hc : q.clock.Le q'.clock) :
    (squadAgent s key q cls).Better (squadAgent t key q' cls) := by
  rw [h]
  exact ⟨rfl, rfl, rfl, rfl, rfl, rfl, hc⟩

theorem firstRace_later {key : Nat} {q q' : Squad} {s t : State} (h : OwnAccess key q s t)
    (hq : q' = { q with clock := q'.clock, fenceSeen := q'.fenceSeen, misses := q'.misses }) (hc : q.clock.Le q'.clock) (sp : Space)
    (cls : AccessClass) (writes : Bool) (ws : List Nat) (hr : firstRace s q sp (squadAgent s key q cls) writes ws = none) :
    firstRace t q' sp (squadAgent t key q' cls) writes ws = none := by
  have hg : q'.grid = q.grid ∧ q'.group = q.group ∧ q'.sq = q.sq := by rw [hq]; exact ⟨rfl, rfl, rfl⟩
  induction ws with
  | nil => rfl
  | cons w ws ih =>
    simp only [firstRace] at hr ⊢
    rcases hx : checkTag (winTag s q sp w) (squadAgent s key q cls) writes with _ | r
    · rw [hx] at hr
      rw [winTag_congr t q q' hg.1 hg.2.1]
      rw [checkTag_from (h.tags sp w) (better_squadAgent cls hq hc) (by show 0 ≤ 1; omega) (fun e he => ?_) writes hx]
      · exact ih hr
      · obtain ⟨a, b, c⟩ := he
        exact ⟨a.trans hg.2.1.symm, b.trans hg.2.2.symm, c⟩
    · rw [hx] at hr; cases hr

theorem ownRec_agent {q q' : Squad} (hg : q'.group = q.group ∧ q'.sq = q.sq) (s : State) (key : Nat) (cls : AccessClass) :
    ownRec q (squadAgent s key q' cls).acc := ⟨hg.1, hg.2, by show 0 ≤ 1; omega⟩

/-! ### One lane's load -/

theorem winMem_congr (s : State) (q q' : Squad) (hg : q'.grid = q.grid) (hp : q'.group = q.group) (sp : Space) : winMem s q' sp = winMem s q sp := by
  cases sp <;> simp only [winMem, State.spanOf, Squad.groupKey, hg, hp]
theorem winSize_congr (s : State) (q q' : Squad) (hg : q'.grid = q.grid) (hp : q'.group = q.group) (sp : Space) : winSize s q' sp = winSize s q sp := by
  cases sp <;> simp only [winSize, State.spanOf, Squad.groupKey, hg, hp]

/-- R120: a load that meets neither a defect nor a race; a helper lane's is not checked. -/
theorem loadWin_ok {key : Nat} {q : Squad} {s t : State} (h : Ready key q s t) (L : Nat) (sp : Space) (x n al : Nat) (cls : AccessClass)
    (hgl : glidesAt q sp = false) (hc : checkAddr (winSize s q sp) x n al = none)
    (hr : (q.lane L).kind = .helper ∨ firstRace s q sp (squadAgent s key q cls) false (wordsOf x n) = none) :
    ∃ u, loadWin t key L sp x n al cls = (.ok (memReadN (winMem t q sp) x n), u) ∧ OwnAccess key q t u ∧ SameBytes t u := by
  obtain ⟨q', h1, h2, h3⟩ := h.now
  have hg : q'.grid = q.grid ∧ q'.group = q.group ∧ q'.sq = q.sq := by rw [h2]; exact ⟨rfl, rfl, rfl⟩
  have hlane : q'.lane L = q.lane L := by rw [h2]; rfl
  have hglide : q'.glide = q.glide := by rw [h2]
  unfold loadWin
  rw [h1]
  simp only
  rw [winSize_congr t q q' hg.1 hg.2.1, h.own.acc.winSize, hc]
  simp only [hlane, hglide, winMem_congr t q q' hg.1 hg.2.1]
  have plain : ∃ u, (if ((q.lane L).kind == .helper) = true then (Except.ok (memReadN (winMem t q sp) x n), t)
      else
        match firstRace t q' sp (squadAgent t key q' cls) false (wordsOf x n) with
        | some (r, w) => (Except.error (raceFault t q'.grid sp w r), t)
        | none =>
          let s := (wordsOf x n).foldl (fun s w => noteFence s key q' sp (squadAgent t key q' cls).acc w) t
          let s := (wordsOf x n).foldl (fun s w => s.modTag q' sp w (tagRead · (squadAgent t key q' cls).acc)) s
          let s := if cls == .sync then acquireObj s key (wordTable s q' sp) (wordObj s q' sp (x / 4 * 4)) else s
          (Except.ok (memReadN (winMem s q' sp) x n), s)) = (.ok (memReadN (winMem t q sp) x n), u) ∧ OwnAccess key q t u ∧ SameBytes t u := by
    rcases hr with hr | hr
    · rw [if_pos (by simpa using hr)]
      exact ⟨t, rfl, .refl .., .refl _⟩
    · by_cases hk : (q.lane L).kind = .helper
      · rw [if_pos (by simpa using hk)]
        exact ⟨t, rfl, .refl .., .refl _⟩
      · rw [if_neg (by simpa using hk), firstRace_later h.own h2 h3 sp cls false _ hr]
        simp only
        generalize ha : (wordsOf x n).foldl (fun s w => noteFence s key q' sp (squadAgent t key q' cls).acc w) t = t1
        generalize hb : (wordsOf x n).foldl (fun s w => s.modTag q' sp w (tagRead · (squadAgent t key q' cls).acc)) t1 = t2
        have o1 : OwnAccess key q t t1 := by rw [← ha]; exact own_foldl _ (fun s w => own_noteFence ..) _ _
        have b1 : SameBytes t t1 := by rw [← ha]; exact same_foldl _ (fun s w => same_noteFence ..) _ _
        have o2 : OwnAccess key q t1 t2 := by
          rw [← hb]
          exact own_foldl _ (fun s w => by
            rw [modTag_congr s q q' hg.1 hg.2.1]
            exact own_modTag _ _ _ _ _ _ fun tg => tagRead_from tg _ _ (ownRec_agent hg.2 _ _ _)) _ _
        have b2 : SameBytes t1 t2 := by rw [← hb]; exact same_foldl _ (fun s w => same_modTag ..) _ _
        have o3 : OwnAccess key q t2 (if cls == .sync then acquireObj t2 key (wordTable t2 q' sp) (wordObj t2 q' sp (x / 4 * 4)) else t2) := by
          split
          · exact own_acquireObj ..
          · exact .refl ..
        have b3 : SameBytes t2 (if cls == .sync then acquireObj t2 key (wordTable t2 q' sp) (wordObj t2 q' sp (x / 4 * 4)) else t2) := by
          split
          · exact same_acquireObj ..
          · exact .refl ..
        have o := (o1.trans o2).trans o3
        have b := (b1.trans b2).trans b3
        exact ⟨_, by rw [winMem_congr _ q q' hg.1 hg.2.1, winMem_same b o.acc], o, b⟩
  cases sp with
  | scratch => cases q.glide <;> exact plain
  | shared =>
    have : q.glide = none := by
      rcases hh : q.glide with _ | g
      · rfl
      · simp [glidesAt, hh] at hgl
    rw [this]
    exact plain

/-! ### One lane's store -/

theorem squads_modWin (s : State) (q : Squad) (sp : Space) (f : Memory → Memory) : (s.modWin q sp f).squads = s.squads := by cases sp <;> rfl
theorem squad_modWin (s : State) (q : Squad) (sp : Space) (f : Memory → Memory) (k : Nat) : (s.modWin q sp f).squad? k = s.squad? k := by
  cases sp <;> rfl
theorem spanOf_modWin (s : State) (q q' : Squad) (sp : Space) (f : Memory → Memory) : (s.modWin q sp f).spanOf q' = s.spanOf q' := by
  cases sp
  · simp only [State.modWin, State.spanOf, group_modGroup]; split
    · cases s.group? (Machine.groupKey q'.grid q'.group) <;> rfl
    · rfl
  · rfl

theorem winTag_modWin (s : State) (q q' : Squad) (sp sp' : Space) (f : Memory → Memory) (w : Nat) :
    winTag (s.modWin q sp f) q' sp' w = winTag s q' sp' w := by
  cases sp' with
  | shared =>
    cases sp with
    | shared =>
      simp only [winTag, winTags, State.modWin, group_modGroup]; split
      · cases s.group? q'.groupKey <;> rfl
      · rfl
    | scratch => rfl
  | scratch =>
    simp only [winTag, winTags, spanOf_modWin]
    cases sp with
    | shared => rfl
    | scratch =>
      simp only [State.modWin, span_modSpan]; split
      · cases s.span? (s.spanOf q') <;> rfl
      · rfl

theorem own_modWin (key : Nat) (q q' : Squad) (s : State) (sp : Space) (f : Memory → Memory) : OwnAccess key q s (s.modWin q' sp f) where
  acc := by
    cases sp
    · exact accessed_modGroup _ _ _ _ fun _ => rfl
    · exact accessed_modSpan _ _ _ _ fun _ => rfl
  clock a ha := ⟨a, by rw [squad_modWin]; exact ha, .refl _⟩
  tags sp' w := by rw [winTag_modWin]; exact .refl _ _
  still h := by unfold NoGlides; rw [squads_modWin]; exact h

/-- The squad has the window it accesses. -/
def HasWindow (s : State) (q : Squad) : Space → Prop
  | .shared => (s.group? q.groupKey).isSome = true
  | .scratch => (s.span? (s.spanOf q)).isSome = true

theorem hasWindow_of_check {s : State} {q : Squad} {sp : Space} {x n al : Nat} (hn : 0 < n) (h : checkAddr (winSize s q sp) x n al = none) :
    HasWindow s q sp := by
  have hs : 0 < winSize s q sp := by
    unfold checkAddr at h
    split at h
    · cases h
    · omega
  cases sp with
  | shared => unfold winSize at hs; unfold HasWindow; rcases hg : s.group? q.groupKey with _ | g <;> simp_all
  | scratch => unfold winSize at hs; unfold HasWindow; rcases hg : s.span? (s.spanOf q) with _ | g <;> simp_all

theorem HasWindow.later {key : Nat} {s t : State} (h : Accessed key s t) {q : Squad} {sp : Space} (hw : HasWindow s q sp) : HasWindow t q sp := by
  cases sp with
  | shared =>
    have := h.groups q.groupKey
    unfold HasWindow at hw ⊢
    rcases hs : s.group? q.groupKey with _ | g <;> rcases ht : t.group? q.groupKey with _ | g' <;> simp_all
  | scratch =>
    have := h.spans (s.spanOf q)
    unfold HasWindow at hw ⊢
    simp only [h.spanOf]
    rcases hs : s.span? (s.spanOf q) with _ | g <;> rcases ht : t.span? (s.spanOf q) with _ | g' <;> simp_all

theorem winMem_modWin (s : State) (q : Squad) (sp : Space) (f : Memory → Memory) (hw : HasWindow s q sp) :
    winMem (s.modWin q sp f) q sp = f (winMem s q sp) := by
  cases sp with
  | shared =>
    unfold HasWindow at hw
    simp only [winMem, State.modWin, group_modGroup, if_true]
    rcases hs : s.group? q.groupKey with _ | g
    · rw [hs] at hw; cases hw
    · rfl
  | scratch =>
    unfold HasWindow at hw
    simp only [winMem, spanOf_modWin]
    simp only [State.modWin, span_modSpan, if_true]
    rcases hs : s.span? (s.spanOf q) with _ | g
    · rw [hs] at hw; cases hw
    · rfl

theorem others_modWin (s : State) (q : Squad) (sp : Space) (f : Memory → Memory) : OtherWindows q sp s (s.modWin q sp f) where
  shared gk h := by
    cases sp with
    | shared =>
      have : gk ≠ q.groupKey := fun e => h ⟨rfl, e⟩
      simp only [sharedBytes, State.modWin, group_modGroup, if_neg this]
    | scratch => rfl
  scratch k h := by
    cases sp with
    | shared => rfl
    | scratch =>
      have : k ≠ s.spanOf q := fun e => h ⟨rfl, e⟩
      simp only [scratchBytes, State.modWin, span_modSpan, if_neg this]

theorem OtherWindows.refl (q : Squad) (sp : Space) (s : State) : OtherWindows q sp s s := ⟨fun _ _ => rfl, fun _ _ => rfl⟩
theorem OtherWindows.trans {q : Squad} {sp : Space} {a b c : State} (hs : b.spanOf q = a.spanOf q) (h : OtherWindows q sp a b)
    (k : OtherWindows q sp b c) : OtherWindows q sp a c :=
  ⟨fun gk hn => (k.shared gk hn).trans (h.shared gk hn), fun x hn => (k.scratch x (by rw [hs]; exact hn)).trans (h.scratch x hn)⟩
theorem SameBytes.others {s t : State} (h : SameBytes s t) (q : Squad) (sp : Space) : OtherWindows q sp s t :=
  ⟨fun gk _ => h.1 gk, fun k _ => h.2 k⟩

theorem squadHits_still (s : State) (key : Nat) (q : Squad) (x n : Nat) (h : NoGlides s) : squadHits s key q x n = s := by
  unfold squadHits hitGlides
  generalize hp : s.squads.filter _ = l
  have hl : l = [] := by
    rw [← hp, List.filter_eq_nil_iff]
    intro c hc
    have := h c hc
    simp [this]
  subst hl; rfl

/-- R120: a store that meets neither a defect nor a race, while no squad glides. -/
theorem storeWin_ok {key : Nat} {q : Squad} {s t : State} (h : Ready key q s t) (L : Nat) (sp : Space) (x al : Nat) (bs : List Byte)
    (cls : AccessClass) (hgl : NoGlides s) (hk : (q.lane L).kind ≠ .helper) (hn : 0 < bs.length)
    (hc : checkAddr (winSize s q sp) x bs.length al = none)
    (hr : firstRace s q sp (squadAgent s key q (storeCls q L cls)) true (wordsOf x bs.length) = none) :
    ∃ u, storeWin t key L sp x al bs cls = (none, u) ∧ OwnAccess key q t u ∧ OtherWindows q sp t u ∧
      winMem u q sp = memWriteN (winMem t q sp) x bs := by
  obtain ⟨q', h1, h2, h3⟩ := h.now
  have hg : q'.grid = q.grid ∧ q'.group = q.group ∧ q'.sq = q.sq := by rw [h2]; exact ⟨rfl, rfl, rfl⟩
  have hlane : q'.lane L = q.lane L := by rw [h2]; rfl
  have hglide : q'.glide = none := by
    have := h.own.still hgl _ (mem_of_mapGet _ _ _ h1); exact this
  have hcls : storeCls q' L cls = storeCls q L cls := by unfold storeCls; rw [hlane]
  have hmw : ∀ u : State, ∀ f, u.modWin q' sp f = u.modWin q sp f := fun u f => by
    cases sp <;> simp only [State.modWin, State.spanOf, Squad.groupKey, hg.1, hg.2.1]
  unfold storeWin
  rw [h1]
  simp only [hlane, hglide, hcls]
  rw [if_neg (by simpa using hk), winSize_congr t q q' hg.1 hg.2.1, h.own.acc.winSize, hc]
  simp only
  rw [firstRace_later h.own h2 h3 sp _ true _ hr]
  simp only [hmw]
  generalize ha : (wordsOf x bs.length).foldl (fun s w => noteWrite s key q' L sp (squadAgent t key q' (storeCls q L cls)).acc w)
    (t.modWin q sp fun m => memWriteN m x bs) = t1
  have o0 : OwnAccess key q t (t.modWin q sp fun m => memWriteN m x bs) := own_modWin ..
  have o1 : OwnAccess key q (t.modWin q sp fun m => memWriteN m x bs) t1 := by
    rw [← ha]; exact own_foldl _ (fun s w => own_noteWrite key q q' hg.1 hg.2.1 s L sp _ w (ownRec_agent hg.2 _ _ _)) _ _
  have b1 : SameBytes (t.modWin q sp fun m => memWriteN m x bs) t1 := by rw [← ha]; exact same_foldl _ (fun s w => same_noteWrite ..) _ _
  have hng : NoGlides t1 := o1.still (o0.still (h.own.still hgl))
  refine ⟨t1, ?_, o0.trans o1, (others_modWin t q sp _).trans (spanOf_modWin ..) (b1.others q sp), ?_⟩
  · cases sp with
    | shared => simp only [beq_self_eq_true, if_true, squadHits_still _ _ _ _ _ hng]
    | scratch => rfl
  · rw [winMem_same b1 o1.acc, winMem_modWin]
    exact (hasWindow_of_check hn hc).later h.own.acc

/-! ### One lane's atomic -/

/-- An access that may write may read. -/
theorem checkTag_read {t : WordTag} {me : Agent} (h : checkTag t me true = none) : checkTag t me false = none := by
  rw [checkTag_none] at h ⊢
  refine ⟨(fun h => by cases h), fun e he => ?_⟩
  have := h.2 e he
  unfold fails at this ⊢
  rcases ho : orderedBefore e me with _ | _
  · rw [ho] at this
    simp only [Bool.not_false, Bool.and_true] at this ⊢
    unfold conflicts at this ⊢
    revert this
    simp only [Bool.true_or, Bool.and_true, Bool.not_true, Bool.and_false, Bool.false_and, Bool.not_false, Bool.true_and]
    rcases e.sameAgent me.acc with _ | _ <;>
      rcases (!e.syncTowards me.acc || !me.acc.syncTowards e) with _ | _ <;> simp
  · simp

/-- R123: an atomic that meets neither a defect nor a race, while no squad glides. -/
theorem atomWin_ok {key : Nat} {q : Squad} {s t : State} (h : Ready key q s t) (L : Nat) (sp : Space) (op : AtomOp) (x : Nat) (c c1 : Word32)
    (hgl : NoGlides s) (hk : (q.lane L).kind ≠ .helper) (hc : checkAddr (winSize s q sp) x 4 4 = none)
    (hr : checkTag (winTag s q sp x) (squadAgent s key q .sync) true = none) :
    ∃ u, atomWin t key L sp op x c c1 = (.ok (BitVec.ofNat 32 (memNat (winMem t q sp) x 4)), u) ∧ OwnAccess key q t u ∧ OtherWindows q sp t u ∧
      winMem u q sp = match op.apply (BitVec.ofNat 32 (memNat (winMem t q sp) x 4)) c c1 with
        | some v => memWriteN (winMem t q sp) x (leBytes 4 v.toNat)
        | none => winMem t q sp := by
  obtain ⟨q', h1, h2, h3⟩ := h.now
  have hg : q'.grid = q.grid ∧ q'.group = q.group ∧ q'.sq = q.sq := by rw [h2]; exact ⟨rfl, rfl, rfl⟩
  have hlane : q'.lane L = q.lane L := by rw [h2]; rfl
  have hmw : ∀ u : State, ∀ f, u.modWin q' sp f = u.modWin q sp f := fun u f => by
    cases sp <;> simp only [State.modWin, State.spanOf, Squad.groupKey, hg.1, hg.2.1]
  have hrt : ∀ w, checkTag (winTag t q' sp x) (squadAgent t key q' .sync) w = none := fun w => by
    rw [winTag_congr t q q' hg.1 hg.2.1]
    refine checkTag_from (a := squadAgent s key q .sync) (h.own.tags sp x) (better_squadAgent .sync h2 h3) (by show 0 ≤ 1; omega)
      (fun e he => ⟨he.1.trans hg.2.1.symm, he.2.1.trans hg.2.2.symm, he.2.2⟩) w ?_
    cases w
    · exact checkTag_read hr
    · exact hr
  unfold atomWin
  rw [h1]
  simp only [hlane]
  rw [if_neg (by simpa using hk), winSize_congr t q q' hg.1 hg.2.1, h.own.acc.winSize, hc]
  simp only [winMem_congr t q q' hg.1 hg.2.1, hrt]
  generalize ho : BitVec.ofNat 32 (memNat (winMem t q sp) x 4) = old
  generalize hm : (squadAgent t key q' .sync).acc = me
  have hme : ownRec q me := by rw [← hm]; exact ownRec_agent hg.2 _ _ _
  generalize hx : acquireObj ((noteFence t key q' sp me x).modTag q' sp x (tagRead · me)) key
    (wordTable ((noteFence t key q' sp me x).modTag q' sp x (tagRead · me)) q' sp)
    (wordObj ((noteFence t key q' sp me x).modTag q' sp x (tagRead · me)) q' sp x) = t1
  have o1 : OwnAccess key q t t1 := by
    rw [← hx]
    refine ((own_noteFence key q q' t sp me x).trans ?_).trans (own_acquireObj ..)
    rw [modTag_congr _ q q' hg.1 hg.2.1]
    exact own_modTag _ _ _ _ _ _ fun tg => tagRead_from tg _ _ hme
  have b1 : SameBytes t t1 := by
    rw [← hx]
    exact ((same_noteFence ..).trans (same_modTag ..)).trans (same_acquireObj ..)
  rcases hv : op.apply old c c1 with _ | v
  · exact ⟨t1, rfl, o1, b1.others q sp, winMem_same b1 o1.acc q sp⟩
  · simp only [hmw]
    have o2 : OwnAccess key q t1 (t1.modWin q sp fun m => memWriteN m x (leBytes 4 v.toNat)) := own_modWin ..
    generalize ht : noteWrite (t1.modWin q sp fun m => memWriteN m x (leBytes 4 v.toNat)) key q' L sp me x = t3
    have o3 : OwnAccess key q (t1.modWin q sp fun m => memWriteN m x (leBytes 4 v.toNat)) t3 := by
      rw [← ht]; exact own_noteWrite key q q' hg.1 hg.2.1 _ L sp _ x hme
    have b3 : SameBytes (t1.modWin q sp fun m => memWriteN m x (leBytes 4 v.toNat)) t3 := by rw [← ht]; exact same_noteWrite ..
    have hng : NoGlides t3 := o3.still (o2.still (o1.still (h.own.still hgl)))
    have hsp : t1.spanOf q = t.spanOf q := o1.acc.spanOf q
    refine ⟨t3, ?_, (o1.trans o2).trans o3,
      (b1.others q sp).trans hsp ((others_modWin t1 q sp _).trans (spanOf_modWin ..) (b3.others q sp)), ?_⟩
    · cases sp with
      | shared => simp only [beq_self_eq_true, if_true, squadHits_still _ _ _ _ _ hng]
      | scratch => rfl
    · rw [winMem_same b3 o3.acc, winMem_modWin _ _ _ _ ((hasWindow_of_check (by omega) hc).later (h.own.acc.trans o1.acc)), winMem_same b1 o1.acc]

end Sys2Proof.Machine
end

