-- ==== Sys2Proof/Laws/Access.lean ====
section
/-!
SUPPORT. Loads, stores and atomics by a bundle: what the lanes come to one after another.
-/
namespace Sys2Proof.Machine

theorem opened_active (e : Env) : e.opened.active = e.active := rfl

theorem memReadN_drop (m : Memory) (a n k : Nat) : (memReadN m a n).drop k = memReadN m (a + k) (n - k) := by
  induction n generalizing a k with
  | zero => simp [memReadN]
  | succ n ih =>
    cases k with
    | zero => rfl
    | succ k =>
      simp only [memReadN, List.drop_succ_cons, ih]
      congr 1 <;> omega

theorem memReadN_take (m : Memory) (a n k : Nat) : (memReadN m a n).take k = memReadN m a (min k n) := by
  induction n generalizing a k with
  | zero => simp [memReadN]
  | succ n ih =>
    cases k with
    | zero => simp [memReadN]
    | succ k =>
      simp only [memReadN, List.take_succ_cons, ih]
      rw [Nat.succ_min_succ]; rfl

/-! ### Loads -/

theorem Ready.start {key : Nat} {q : Squad} {s : State} (h : s.squad? key = some q) : Ready key q s s := ⟨.refl .., h⟩

theorem semLane_load (sp : Space) (n : Nat) (cls : AccessClass) (s : State) (q : Squad) (key : Nat) (o : Ops) (x : Opnds) (d0 : Word32) (L : Nat)
    (bs : List Byte) (u : State) (h : loadWin s key L sp (addressAt x.a x.b L).toNat n n cls = (.ok bs, u)) :
    semLane (.load sp n cls) s q key o x d0 L = .ok { s := u, regs := loadedWords n bs, flags := 0#5, fault := none } := by
  simp only [semLane, h]

theorem semLane_load_bad (sp : Space) (n : Nat) (cls : AccessClass) (s : State) (q : Squad) (key : Nat) (o : Ops) (x : Opnds) (d0 : Word32) (L : Nat)
    (f : LaneFault) (u : State) (h : loadWin s key L sp (addressAt x.a x.b L).toNat n n cls = (.error f, u)) :
    semLane (.load sp n cls) s q key o x d0 L =
      .ok { s := u, regs := List.replicate ((n + 3) / 4) 0#32, flags := 0#5, fault := some f } := by
  simp only [semLane, h]

theorem loadWin_bad {key : Nat} {q : Squad} {s t : State} (h : Ready key q s t) (L : Nat) (sp : Space) (x n al : Nat) (cls : AccessClass)
    (f : LaneFault) (hc : checkAddr (winSize s q sp) x n al = some f) : loadWin t key L sp x n al cls = (.error f, t) := by
  obtain ⟨q', h1, h2, -⟩ := h.now
  have hg : q'.grid = q.grid ∧ q'.group = q.group := by rw [h2]; exact ⟨rfl, rfl⟩
  unfold loadWin
  rw [h1]
  simp only
  rw [winSize_congr t q q' hg.1 hg.2, h.own.acc.winSize, hc]

/-- What the lanes of a load have come to, one after another. -/
theorem semLanes_load (e : Env) (s0 : State) (old : List Word32) (sp : Space) (n : Nat) (cls : AccessClass)
    (hgl : glidesAt e.q sp = false) (ls : List Nat)
    (hl : ∀ L ∈ ls, (e.q.lane L).kind = .helper ∨ (checkAddr (winSize s0 e.q sp) (addrOf e L) n n = none ∧
      firstRace s0 e.q sp (squadAgent s0 e.cx.key e.q cls) false (wordsOf (addrOf e L) n) = none))
    (acc : Lanes) (ha : Ready e.cx.key e.q s0 acc.s) (hb : SameBytes s0 acc.s) (hf : acc.flags = 0#5) :
    ∃ r, semLanes (.load sp n cls) e old acc ls = .ok r ∧ Ready e.cx.key e.q s0 r.s ∧ SameBytes s0 r.s ∧ r.flags = 0#5 ∧
      (∃ more, r.faults = acc.faults ++ more ∧ ∀ c ∈ more, (e.q.lane c.1).kind = .helper) ∧
      ∀ L, mapGet r.vals L = if L ∈ ls then
          some (if checkAddr (winSize s0 e.q sp) (addrOf e L) n n = none then loadedWords n (memReadN (winMem s0 e.q sp) (addrOf e L) n)
            else List.replicate ((n + 3) / 4) 0#32)
        else mapGet acc.vals L := by
  induction ls generalizing acc with
  | nil => exact ⟨acc, rfl, ha, hb, hf, ⟨[], by simp, by simp⟩, fun L => by simp⟩
  | cons K ls ih =>
    have hK := hl K (List.mem_cons_self ..)
    have hrest : ∀ L ∈ ls, _ := fun L hL => hl L (List.mem_cons_of_mem _ hL)
    rcases hc : checkAddr (winSize s0 e.q sp) (addrOf e K) n n with _ | f
    · obtain ⟨u, h1, h2, h3⟩ := loadWin_ok ha K sp (addrOf e K) n n cls hgl hc (hK.imp id (·.2))
      have hm : winMem acc.s e.q sp = winMem s0 e.q sp := winMem_same hb ha.own.acc _ _
      rw [hm] at h1
      simp only [semLanes, semLane_load sp n cls acc.s e.q e.cx.key e.cx.o e.x (old.getD K 0#32) K _ u h1]
      obtain ⟨r, g1, g2, g3, g4, ⟨more, g5, g6⟩, g7⟩ := ih hrest
        { s := u, vals := mapSet acc.vals K (loadedWords n (memReadN (winMem s0 e.q sp) (addrOf e K) n)), flags := acc.flags ||| 0#5, faults := acc.faults }
        (ha.step h2) (hb.trans h3) (by rw [hf]; rfl)
      refine ⟨r, g1, g2, g3, g4, ⟨more, g5, g6⟩, fun L => ?_⟩
      rw [g7]
      by_cases hL : L ∈ ls
      · simp [hL]
      · simp only [hL, if_false, List.mem_cons, or_false]
        rw [mapGet_set]
        by_cases hK' : L = K
        · subst hK'; simp [hc]
        · simp [hK']
    · have hk : (e.q.lane K).kind = .helper := by
        rcases hK with h | h
        · exact h
        · rw [hc] at h; cases h.1
      have h1 := loadWin_bad ha K sp (addrOf e K) n n cls f hc
      simp only [semLanes, semLane_load_bad sp n cls acc.s e.q e.cx.key e.cx.o e.x (old.getD K 0#32) K f _ h1]
      obtain ⟨r, g1, g2, g3, g4, ⟨more, g5, g6⟩, g7⟩ := ih hrest
        { s := acc.s, vals := mapSet acc.vals K (List.replicate ((n + 3) / 4) 0#32), flags := acc.flags ||| 0#5, faults := acc.faults ++ [(K, f)] }
        ha hb (by rw [hf]; rfl)
      refine ⟨r, g1, g2, g3, g4, ⟨(K, f) :: more, by rw [g5]; simp, fun c hc => ?_⟩, fun L => ?_⟩
      · rcases List.mem_cons.1 hc with rfl | hc
        · exact hk
        · exact g6 c hc
      · rw [g7]
        by_cases hL : L ∈ ls
        · simp [hL]
        · simp only [hL, if_false, List.mem_cons, or_false]
          rw [mapGet_set]
          by_cases hK' : L = K
          · subst hK'; simp [hc]
          · simp [hK']

theorem goodLanes_helpers (e : Env) (fs : List (Nat × LaneFault)) (h : ∀ c ∈ fs, (e.q.lane c.1).kind = .helper) : goodLanes e fs = e.active := by
  apply BitVec.eq_of_getLsbD_eq
  intro i hi
  simp only [goodLanes, maskOf_get, hi, decide_true, Bool.true_and]
  rcases ha : e.active.getLsbD i with _ | _
  · rfl
  · simp only [Bool.true_and, Bool.or_eq_true, beq_iff_eq]
    by_cases hk : (e.q.lane i).kind = .helper
    · exact .inl hk
    · right
      rw [List.all_eq_true]
      intro c hc
      have := h c hc
      simp only [bne_iff_ne, ne_eq]
      rintro rfl
      exact hk this

theorem loadedWords_getD (m : Memory) (a n i : Nat) (h : i < wordsIn n) :
    (loadedWords n (memReadN m a n)).getD i 0#32 = BitVec.ofNat 32 (memNat m (a + 4 * i) (min 4 (n - 4 * i))) := by
  unfold loadedWords
  rw [List.getD_eq_getElem?_getD, List.getElem?_map, List.getElem?_range (show i < (n + 3) / 4 from h)]
  simp only [Option.map_some, Option.getD_some, memReadN_drop, memReadN_take, memNat]

theorem liveFaults_none (e : Env) (fs : List (Nat × LaneFault)) (h : ∀ c ∈ fs, (e.q.lane c.1).kind = .helper) :
    fs.filter (fun (L, _) => (e.q.lane L).kind == .live) = [] := by
  rw [List.filter_eq_nil_iff]
  intro c hc
  simp [h c hc]

/-- R120: a load by a bundle. -/
theorem issue_load {sh : Shape} {sForm : Bool} {extra : Extra} {o : Ops} {s : State} {e : Env} (h : Issues sh sForm extra o s e)
    (sp : Space) (n : Nat) (cls : AccessClass) (hn : n ≤ 8 ∨ e.dCls ≠ .uniform) (hm : MayLoad e.opened sp n cls) :
    ∃ s1 t, issueWith sh sForm extra (semEff (.load sp n cls)) o s = .next t ∧ Accessed e.cx.key e.opened.s s1 ∧ SameBytes e.opened.s s1 ∧
      Retired e (!sForm && !sh.post) false s1 (loadResult e.opened sp n) t := by
  have key := fun old => semLanes_load e.opened e.opened.s old sp n cls hm.still e.opened.lanes
    (fun L hL => hm.lanes L ((mem_lanes e.opened L).1 hL)) { s := e.opened.s, vals := [], faults := [], flags := 0#5 }
    (Ready.start h.squad) (.refl _) rfl
  by_cases hu : e.dCls = .uniform
  · have hn8 : n ≤ 8 := hn.resolve_right (fun h => h hu)
    by_cases ha : e.active = 0#32
    · refine ⟨e.opened.s, ?_⟩
      have hr : semEff (.load sp n cls) e.opened = .done { s := e.opened.s, result := loadResult e.opened sp n, faults := [] } := by
        unfold semEff
        rw [show e.opened.dCls = .uniform from hu]
        simp only [semUniform, Env.runs, show e.opened.active = 0#32 from ha, bne_self_eq_false, Bool.not_false, if_true, loadResult,
          show e.opened.dCls = .uniform from hu, onceResult]
        rfl
      obtain ⟨t, h1, h2⟩ := issueWith_same _ h _ _ _ hr (sameResult.refl _) ⟨_, h.squad⟩ (by
        simp only [loadResult, show e.opened.dCls = .uniform from hu, onceResult, show e.opened.active = 0#32 from ha, if_true]; trivial)
      exact ⟨t, h1, .refl _ _, .refl _, h2⟩
    · obtain ⟨r, g1, g2, g3, g4, ⟨more, g5, g6⟩, g7⟩ := key zeros
      simp only [List.nil_append] at g5
      have hfl : ∀ c ∈ r.faults, (e.opened.q.lane c.1).kind = .helper := by rw [g5]; exact g6
      have hlow : lowLane e.opened.active ∈ e.opened.lanes := by
        unfold lowLane
        show (lanesOf e.active).headD 0 ∈ lanesOf e.active
        rcases hl : lanesOf e.active with _ | ⟨a, l⟩
        · exfalso; apply ha
          apply BitVec.eq_of_getLsbD_eq
          intro i hi
          rcases hb : e.active.getLsbD i with _ | _
          · simp
          · have := (mem_lanesOf e.active i).2 hb
            rw [hl] at this; cases this
        · simp
      have hb : (e.opened.active != 0#32) = true := by
        show (e.active != 0#32) = true
        simpa using ha
      have hr : semEff (.load sp n cls) e.opened = .done { s := r.s, result := loadResult e.opened sp n, faults := r.faults } := by
        unfold semEff
        rw [show e.opened.dCls = .uniform from hu]
        simp only [semUniform, Env.runs, hb, Bool.not_true, Bool.false_eq_true, if_false, g1]
        have hl := liveFaults_none e.opened r.faults hfl
        simp only [hl, List.isEmpty_nil, if_true, goodLanes_helpers _ _ hfl, g7, hlow, Option.getD_some]
        congr 2
        simp only [loadResult, show e.opened.dCls = .uniform from hu, onceResult]
        rw [if_neg (show ¬e.opened.active = 0#32 from ha)]
        congr 1
        unfold wordsVal loadWord
        split
        · by_cases h4 : 4 < n
          · have hw : wordsIn n = 2 := by unfold wordsIn; omega
            rw [loadedWords_getD _ _ _ _ (by omega), loadedWords_getD _ _ _ _ (by omega), if_pos h4]
          · by_cases h0 : n = 0
            · subst h0; simp [loadedWords, memNat, memReadN, leNat]
            · have hw : wordsIn n = 1 := by unfold wordsIn; omega
              rw [loadedWords_getD _ _ _ _ (by omega), if_neg h4]
              have : (loadedWords n (memReadN (winMem e.opened.s e.opened.q sp) (addrOf e.opened (lowLane e.opened.active)) n)).getD 1 0#32 = 0#32 := by
                unfold loadedWords
                rw [show (n + 3) / 4 = 1 by omega]; rfl
              rw [this]; rfl
        · have hz : ∀ i, (List.replicate ((n + 3) / 4) 0#32).getD i 0#32 = 0#32 := fun i => by
            rw [List.getD_eq_getElem?_getD, List.getElem?_replicate]; split <;> rfl
          rw [hz, hz]; simp
      obtain ⟨q1, hq1⟩ := g2.now
      obtain ⟨t, h1, h2⟩ := issueWith_done _ h _ hr q1 hq1.1 (liveFaults_none e.opened r.faults hfl) (fits_of_class h.legal _ (by
        rw [← h.dCls, hu]
        simp only [loadResult, show e.opened.dCls = .uniform from hu, onceResult]; split <;> trivial))
      exact ⟨r.s, t, h1, g2.own.acc, g3, h2⟩
  · obtain ⟨r, g1, g2, g3, g4, ⟨more, g5, g6⟩, g7⟩ := key e.opened.oldD
    simp only [List.nil_append] at g5
    have hfl : ∀ c ∈ r.faults, (e.opened.q.lane c.1).kind = .helper := by rw [g5]; exact g6
    have hsp : spanFaults (.load sp n cls) e.opened = false := by
      simp only [spanFaults, hm.spans, Bool.not_true]
    let regs := (List.range (wordsIn n)).map fun i => perLane fun L => ((mapGet r.vals L).getD []).getD i 0#32
    have hr : semEff (.load sp n cls) e.opened =
        .done { s := r.s, faults := r.faults, result := if e.opened.dCls == .varying then .varying e.opened.active regs else .none } := by
      have he : semEff (.load sp n cls) e.opened = semVarying (.load sp n cls) e.opened := by
        unfold semEff
        split
        · next hx => exact absurd hx hu
        · rfl
      rw [he]
      unfold semVarying
      rw [hsp]
      simp only [Bool.false_eq_true, if_false, g1, g4, orFlags_zero, goodLanes_helpers _ _ hfl]
      rfl
    have hi : loadResult e.opened sp n = lanesResult e.opened ((List.range (wordsIn n)).map fun i L => loadWord e.opened sp n i L) := by
      unfold loadResult
      split
      · next hx => exact absurd hx hu
      · rfl
    have hs : sameResult (if e.opened.dCls == .varying then .varying e.opened.active regs else .none) (loadResult e.opened sp n) := by
      rw [hi]
      unfold lanesResult
      by_cases hd : e.opened.dCls = .varying
      · simp only [hd, beq_self_eq_true, if_true, sameResult, true_and, regs, List.length_map, List.length_range]
        intro k L hk hL
        have hL' : L ∈ e.opened.lanes := (mem_lanes e.opened L).2 hL
        have ha : ((List.range (wordsIn n)).map fun i => perLane fun L => ((mapGet r.vals L).getD []).getD i 0#32).getD k [] =
            perLane fun L => ((mapGet r.vals L).getD []).getD k 0#32 := by
          rw [List.getD_eq_getElem?_getD, List.getElem?_map, List.getElem?_range hk]; rfl
        have hb : (((List.range (wordsIn n)).map fun i L => loadWord e.opened sp n i L).map perLane).getD k [] =
            perLane fun L => loadWord e.opened sp n k L := by
          rw [List.getD_eq_getElem?_getD, List.getElem?_map, List.getElem?_map, List.getElem?_range hk]; rfl
        rw [ha, hb, perLane_get _ _ _ (lt_of_mask hL), perLane_get _ _ _ (lt_of_mask hL), g7, if_pos hL']
        simp only [Option.getD_some, loadWord]
        split
        · exact loadedWords_getD _ _ _ _ hk
        · rw [List.getD_eq_getElem?_getD, List.getElem?_replicate]; split <;> rfl
      · have : (e.opened.dCls == .varying) = false := by simpa using hd
        simp [this, hd, sameResult]
    obtain ⟨q1, hq1⟩ := g2.now
    obtain ⟨t, h1, h2⟩ := issueWith_done _ h _ hr q1 hq1.1 (liveFaults_none e.opened r.faults hfl) (fits_of_class h.legal _ (by
      rw [← h.dCls]; rw [hi] at hs; exact ofClass_lanes hs))
    exact ⟨r.s, t, h1, g2.own.acc, g3, h2.congr hs⟩

/-! ### Stores -/

theorem mem_workLanes (e : Env) (L : Nat) : L ∈ workLanes e ↔ e.active.getLsbD L = true ∧ (e.q.lane L).kind ≠ .helper := by
  unfold workLanes
  simp only [List.mem_filter, List.mem_range, Bool.and_eq_true, bne_iff_ne, ne_eq]
  constructor
  · rintro ⟨_, h⟩; exact h
  · intro h; exact ⟨lt_of_mask h.1, h⟩

theorem leFlat_length (ws : List Word32) : (ws.flatMap fun w => leBytes 4 w.toNat).length = 4 * ws.length := by
  induction ws with
  | nil => rfl
  | cons w ws ih => simp only [List.flatMap_cons, List.length_append, leBytes_length, ih, List.length_cons]; omega

theorem dataBytes_length (e : Env) (n L : Nat) : (dataBytes e n L).length = n := by
  unfold dataBytes
  split
  · simp only [List.length_take]
    have : ∀ (g : Nat → Word32) (k : Nat), ((List.range k).flatMap fun i => leBytes 4 (g i).toNat).length = 4 * k := fun g k => by
      have := leFlat_length ((List.range k).map g)
      rw [List.flatMap_map] at this
      simpa using this
    rw [this]
    unfold wordsIn; omega
  · exact leBytes_length _ _

theorem storeWin_helper (s : State) (key L : Nat) (sp : Space) (x al : Nat) (bs : List Byte) (cls : AccessClass) (q : Squad)
    (hq : s.squad? key = some q) (hk : (q.lane L).kind = .helper) : storeWin s key L sp x al bs cls = (none, s) := by
  unfold storeWin
  rw [hq]
  simp only [hk, beq_self_eq_true, if_true]

theorem filter_work (e : Env) : e.lanes.filter (fun L => (e.q.lane L).kind != .helper) = workLanes e := by
  unfold workLanes Env.lanes lanesOf
  rw [List.filter_filter]
  congr 1
  funext L
  exact Bool.and_comm _ _

theorem foldl_storeLane (e : Env) (s0 : State) (sp : Space) (n : Nat) (hn : 0 < n) (cls : AccessClass)
    (hgl : NoGlides s0) (ls : List Nat)
    (hl : ∀ L ∈ ls, (e.q.lane L).kind ≠ .helper → checkAddr (winSize s0 e.q sp) (addrOf e L) n n = none ∧
      firstRace s0 e.q sp (squadAgent s0 e.cx.key e.q (storeCls e.q L cls)) true (wordsOf (addrOf e L) n) = none)
    (a : Acc) (ha : Ready e.cx.key e.q s0 a.s) (ho : OtherWindows e.q sp s0 a.s) :
    let r := ls.foldl (storeLane e sp n cls) a
    Ready e.cx.key e.q s0 r.s ∧ OtherWindows e.q sp s0 r.s ∧ r.faults = a.faults ∧
      winMem r.s e.q sp = (ls.filter fun L => (e.q.lane L).kind != .helper).foldl (fun m L => memWriteN m (addrOf e L) (dataBytes e n L)) (winMem a.s e.q sp) := by
  induction ls generalizing a with
  | nil => exact ⟨ha, ho, rfl, rfl⟩
  | cons K ls ih =>
    have hrest : ∀ L ∈ ls, _ := fun L hL => hl L (List.mem_cons_of_mem _ hL)
    by_cases hk : (e.q.lane K).kind = .helper
    · obtain ⟨q', h1, h2, -⟩ := ha.now
      have hlane : (q'.lane K).kind = .helper := by rw [h2]; exact hk
      have hs : storeLane e sp n cls a K = a := by
        unfold storeLane
        rw [storeWin_helper a.s e.cx.key K sp _ n _ cls q' h1 hlane]
        rfl
      have hfil : ((K :: ls).filter fun L => (e.q.lane L).kind != .helper) = ls.filter fun L => (e.q.lane L).kind != .helper := by
        rw [List.filter_cons_of_neg]; simp [hk]
      simp only [List.foldl_cons, hs, hfil]
      exact ih hrest a ha ho
    · obtain ⟨hc, hr⟩ := hl K (List.mem_cons_self ..) hk
      have hlen : (dataBytes e n K).length = n := dataBytes_length e n K
      obtain ⟨u, h1, h2, h3, h4⟩ := storeWin_ok ha K sp (addrOf e K) n (dataBytes e n K) cls hgl hk (by omega) (by rw [hlen]; exact hc)
        (by rw [hlen]; exact hr)
      have hs : storeLane e sp n cls a K = { a with s := u } := by
        unfold storeLane
        rw [h1]; rfl
      have hfil : ((K :: ls).filter fun L => (e.q.lane L).kind != .helper) = K :: ls.filter fun L => (e.q.lane L).kind != .helper := by
        rw [List.filter_cons_of_pos]; simp [hk]
      simp only [List.foldl_cons, hs, hfil]
      obtain ⟨g1, g2, g3, g4⟩ := ih hrest { a with s := u } (ha.step h2) (ho.trans (ha.own.acc.spanOf _) h3)
      exact ⟨g1, g2, g3, by rw [g4, h4]⟩

/-- R120, R122: a store by a bundle. -/
theorem issue_store {sh : Shape} {sForm : Bool} {extra : Extra} {o : Ops} {s : State} {e : Env} (h : Issues sh sForm extra o s e)
    (sp : Space) (n : Nat) (hn : 0 < n) (cls : AccessClass) (hm : MayStore e.opened sp n cls) :
    ∃ s1 t, issueWith sh sForm extra (storeEff sp n cls) o s = .next t ∧ Accessed e.cx.key e.opened.s s1 ∧ OtherWindows e.q sp e.opened.s s1 ∧
      winMem s1 e.q sp = storedWindow e.opened n (winMem e.opened.s e.q sp) ∧ Retired e (!sForm && !sh.post) false s1 .none t := by
  obtain ⟨g1, g2, g3, g4⟩ := foldl_storeLane e.opened e.opened.s sp n hn cls hm.still e.opened.lanes
    (fun L hL hk => hm.lanes L ((mem_workLanes e.opened L).2 ⟨(mem_lanes e.opened L).1 hL, hk⟩))
    { s := e.opened.s, faults := [], vals := [] } (Ready.start h.squad) (.refl _ _ _)
  have hgl : e.opened.q.glide = none := hm.still _ (mem_of_mapGet _ _ _ h.squad)
  have hr : storeEff sp n cls e.opened =
      .done { s := (e.opened.lanes.foldl (storeLane e.opened sp n cls) { s := e.opened.s, faults := [], vals := [] }).s, result := .none, faults := [] } := by
    unfold storeEff
    rw [hm.spans]
    have : glideFits e.opened n = true := by unfold glideFits; rw [hgl]
    simp only [this, Bool.not_true, Bool.and_false, Bool.false_eq_true, if_false, g3]
  obtain ⟨q1, hq1⟩ := g1.now
  obtain ⟨t, h1, h2⟩ := issueWith_done _ h _ hr q1 hq1.1 rfl (.inr (.inl rfl))
  refine ⟨_, t, h1, g1.own.acc, g2, ?_, h2⟩
  rw [filter_work] at g4
  exact g4

/-! ### Atomics -/

theorem atomWin_helper (s : State) (key L : Nat) (sp : Space) (op : AtomOp) (x : Nat) (c c1 : Word32) (q : Squad)
    (hq : s.squad? key = some q) (hk : (q.lane L).kind = .helper) : atomWin s key L sp op x c c1 = (.ok 0#32, s) := by
  unfold atomWin
  rw [hq]
  simp only [hk, beq_self_eq_true, if_true]

/-- What the lanes of an atomic have come to, one after another. -/
theorem foldl_atomLane (e : Env) (s0 : State) (sp : Space) (op : AtomOp) (hgl : NoGlides s0) (ls : List Nat)
    (hd : ls.Nodup)
    (hl : ∀ L ∈ ls, (e.q.lane L).kind ≠ .helper → checkAddr (winSize s0 e.q sp) (addrOf e L) 4 4 = none ∧
      checkTag (winTag s0 e.q sp (addrOf e L)) (squadAgent s0 e.cx.key e.q .sync) true = none)
    (a : Acc) (ha : Ready e.cx.key e.q s0 a.s) (ho : OtherWindows e.q sp s0 a.s) :
    let r := ls.foldl (atomLane e sp op) a
    let m := atomsRun e op.apply (winMem a.s e.q sp) (ls.filter fun L => (e.q.lane L).kind != .helper)
    Ready e.cx.key e.q s0 r.s ∧ OtherWindows e.q sp s0 r.s ∧ r.faults = a.faults ∧ winMem r.s e.q sp = m.1 ∧
      ∀ L, (mapGet r.vals L).getD 0#32 = if L ∈ ls then (mapGet m.2 L).getD 0#32 else (mapGet a.vals L).getD 0#32 := by
  induction ls generalizing a with
  | nil => exact ⟨ha, ho, rfl, rfl, fun L => by simp⟩
  | cons K ls ih =>
    have hrest : ∀ L ∈ ls, _ := fun L hL => hl L (List.mem_cons_of_mem _ hL)
    obtain ⟨hnot, hd'⟩ := List.nodup_cons.1 hd
    by_cases hk : (e.q.lane K).kind = .helper
    · obtain ⟨q', h1, h2, -⟩ := ha.now
      have hlane : (q'.lane K).kind = .helper := by rw [h2]; exact hk
      have hs : atomLane e sp op a K = { a with vals := mapSet a.vals K 0#32 } := by
        unfold atomLane
        rw [atomWin_helper a.s e.cx.key K sp op _ _ _ q' h1 hlane]
      have hfil : ((K :: ls).filter fun L => (e.q.lane L).kind != .helper) = ls.filter fun L => (e.q.lane L).kind != .helper := by
        rw [List.filter_cons_of_neg]; simp [hk]
      simp only [List.foldl_cons, hs, hfil]
      obtain ⟨g1, g2, g3, g4, g5⟩ := ih hd' hrest { a with vals := mapSet a.vals K 0#32 } ha ho
      refine ⟨g1, g2, g3, g4, fun L => ?_⟩
      rw [g5]
      by_cases hL : L ∈ ls
      · simp [hL]
      · simp only [hL, if_false, List.mem_cons, or_false]
        rw [mapGet_set]
        by_cases hK' : L = K
        · subst hK'
          simp only [if_true, Option.getD_some]
          have : mapGet (atomsRun e op.apply (winMem a.s e.q sp) (ls.filter fun L => (e.q.lane L).kind != .helper)).2 L = none := by
            have hmem : ∀ (xs : List Nat) (m : Memory), L ∉ xs → mapGet (atomsRun e op.apply m xs).2 L = none := by
              intro xs
              induction xs with
              | nil => intros; rfl
              | cons x xs ihx =>
                intro m hx
                simp only [List.mem_cons, not_or] at hx
                simp only [atomsRun, mapGet, if_neg hx.1]
                exact ihx _ hx.2
            exact hmem _ _ fun hx => hnot (List.mem_filter.1 hx).1
          rw [this]; rfl
        · simp [hK']
    · obtain ⟨hc, hr⟩ := hl K (List.mem_cons_self ..) hk
      obtain ⟨u, h1, h2, h3, h4⟩ := atomWin_ok ha K sp op (addrOf e K) (e.x.c.at32 K) (casNew e K) hgl hk hc hr
      have hs : atomLane e sp op a K = { a with s := u, vals := mapSet a.vals K (BitVec.ofNat 32 (memNat (winMem a.s e.q sp) (addrOf e K) 4)) } := by
        unfold atomLane
        rw [h1]
      have hfil : ((K :: ls).filter fun L => (e.q.lane L).kind != .helper) = K :: ls.filter fun L => (e.q.lane L).kind != .helper := by
        rw [List.filter_cons_of_pos]; simp [hk]
      simp only [List.foldl_cons, hs, hfil]
      obtain ⟨g1, g2, g3, g4, g5⟩ := ih hd' hrest
        { a with s := u, vals := mapSet a.vals K (BitVec.ofNat 32 (memNat (winMem a.s e.q sp) (addrOf e K) 4)) } (ha.step h2)
        (ho.trans (ha.own.acc.spanOf _) h3)
      simp only [h4] at g4 g5
      refine ⟨g1, g2, g3, by rw [g4]; rfl, fun L => ?_⟩
      rw [g5]
      simp only [atomsRun, mapGet, List.mem_cons]
      by_cases hK' : L = K
      · subst hK'
        simp only [hnot, if_false, true_or, if_true, mapGet_set_self]
      · by_cases hL : L ∈ ls
        · simp only [hL, hK', if_true, or_true, if_false] <;> rfl
        · simp only [hL, hK', if_false, or_self, mapGet_set]

/-- R123: an atomic by a bundle; into the scratchpad it taints an idempotent region (R222). -/
theorem issue_atom {sh : Shape} {sForm : Bool} {extra : Extra} {o : Ops} {s : State} {e : Env} (h : Issues sh sForm extra o s e)
    (sp : Space) (op : AtomOp) (_hu : e.dCls ≠ .uniform) (hm : MayAtom e.opened sp) :
    ∃ s0 s1 t, issueWith sh sForm extra (atomEff sp op) o s = .next t ∧ Accessed e.cx.key e.opened.s s0 ∧ OtherWindows e.q sp e.opened.s s0 ∧
      winMem s0 e.q sp = (atomsRun e.opened op.apply (winMem e.opened.s e.q sp) (workLanes e)).1 ∧
      s1 = (if sp = .scratch ∧ e.active ≠ 0#32 then taint s0 e.cx.key else s0) ∧
      Retired e (!sForm && !sh.post) false s1
        (lanesResult e [fun L => (mapGet (atomsRun e.opened op.apply (winMem e.opened.s e.q sp) (workLanes e)).2 L).getD 0#32]) t := by
  have hnd : e.opened.lanes.Nodup := List.Nodup.sublist List.filter_sublist List.nodup_range
  obtain ⟨g1, g2, g3, g4, g5⟩ := foldl_atomLane e.opened e.opened.s sp op hm.still e.opened.lanes hnd
    (fun L hL hk => hm.lanes L ((mem_workLanes e.opened L).2 ⟨(mem_lanes e.opened L).1 hL, hk⟩))
    { s := e.opened.s, faults := [], vals := [] } (Ready.start h.squad) (.refl _ _ _)
  generalize hr0 : e.opened.lanes.foldl (atomLane e.opened sp op) { s := e.opened.s, faults := [], vals := [] } = r at g1 g2 g3 g4 g5
  rw [filter_work] at g4 g5
  have hsc : (if (sp == .scratch && e.opened.runs) = true then taint r.s e.opened.cx.key else r.s) =
      if sp = .scratch ∧ e.active ≠ 0#32 then taint r.s e.cx.key else r.s := by
    have hx : ((sp == .scratch && e.opened.runs) = true) ↔ (sp = .scratch ∧ e.active ≠ 0#32) := by
      simp [Env.runs, show e.opened.active = e.active from rfl]
    by_cases hh : sp = .scratch ∧ e.active ≠ 0#32
    · rw [if_pos hh, if_pos (hx.2 hh)]; rfl
    · rw [if_neg hh, if_neg (fun h => hh (hx.1 h))]
  obtain ⟨q1, hq1, -⟩ := g1.now
  replace hq1 : r.s.squad? e.cx.key = some q1 := hq1
  have hq2 : ∃ q2, (if sp = .scratch ∧ e.active ≠ 0#32 then taint r.s e.cx.key else r.s).squad? e.cx.key = some q2 := by
    split
    · exact ⟨_, by unfold taint; rw [squad_modSquad_self, hq1]; rfl⟩
    · exact ⟨q1, hq1⟩
  have hs : sameResult (if e.opened.dCls == .varying then .varying e.opened.active [perLane fun L => (mapGet r.vals L).getD 0#32] else .none)
      (lanesResult e [fun L => (mapGet (atomsRun e.opened op.apply (winMem e.opened.s e.q sp) (workLanes e)).2 L).getD 0#32]) := by
    unfold lanesResult
    rw [show e.opened.dCls = e.dCls from rfl, show e.opened.active = e.active from rfl]
    by_cases hd : e.dCls = .varying
    · simp only [hd, beq_self_eq_true, if_true, sameResult, List.map_cons, List.map_nil, List.length_singleton, true_and]
      intro k L hk hL
      have : k = 0 := by omega
      subst this
      have hL' : L ∈ e.opened.lanes := (mem_lanes e.opened L).2 hL
      simp only [List.getD_cons_zero]
      rw [perLane_get _ _ _ (lt_of_mask hL), perLane_get _ _ _ (lt_of_mask hL), g5, if_pos hL']
      rfl
    · have : (e.dCls == .varying) = false := by simpa using hd
      simp [this, hd, sameResult]
  have he : atomEff sp op e.opened = .done
      { s := if sp = .scratch ∧ e.active ≠ 0#32 then taint r.s e.cx.key else r.s, faults := [],
        result := if e.opened.dCls == .varying then .varying e.opened.active [perLane fun L => (mapGet r.vals L).getD 0#32] else .none } := by
    unfold atomEff
    rw [hm.spans]
    simp only [Bool.not_true, Bool.false_eq_true, if_false, hr0, g3, goodLanes_nil, hsc]
  obtain ⟨q2, hq2⟩ := hq2
  obtain ⟨t, h1, h2⟩ := issueWith_done _ h _ he q2 hq2 rfl (fits_of_class h.legal _ (by rw [← h.dCls]; exact ofClass_lanes hs))
  exact ⟨r.s, _, t, h1, g1.own.acc, g2, g4, rfl, h2.congr hs⟩

end Sys2Proof.Machine
end

