-- ==== Sys2Proof/Laws/PerInstr.lean ====
section
/-!
SUPPORT. Per constructor of `Instr`: its code lies in the range of its form, and the decoder's table gives it back at that code (R26, R31–R33,
R43).
-/
namespace Sys2Proof

/-- The row of a two-source S form in the decoder's table. -/
def Laws.Table.sRow (op6 : Nat) (d a b : BitVec 8) (i : Instr) : Prop :=
  op6 < 64 ∧ ∃ x y z : Name, x.code = d ∧ y.code = a ∧
    ((z.code = b ∧ ∃ f, sTable.lookup op6 = some f ∧ f x y z = i) ∨ (sTable.lookup op6 = none ∧ ∃ f, sImmTable.lookup op6 = some f ∧ f x y b = i))

/-- The code of an instruction is one of its form, and its table's row there is the instruction itself, unless it shares another row's word. -/
def Laws.Table.Statement (i : Instr) : Prop :=
  match i.coded with
  | .l op o => op < 0x380 ∧ (i.sharesWord = false → ∃ f, lTable.lookup op = some f ∧ f o = i)
  | .x op eng o => 0x380 ≤ op ∧ op < 0x400 ∧ eng < 8 ∧ (i.sharesWord = false → ∃ f, xTable.lookup (8 * op + eng) = some f ∧ f o = i)
  | .s op6 b a d => (op6 = 0x00 ∧ b = 0xFF#8) ∨ op6 = 0x17 ∨ op6 = 0x19 ∨ Laws.Table.sRow op6 d a b i
  | .t _ => True
  | .event => True

theorem Laws.Table.nop (o : Ops) : Laws.Table.Statement (.nop o) := ⟨by decide, fun _ => ⟨_, rfl, rfl⟩⟩
theorem Laws.Table.mov (o : Ops) : Laws.Table.Statement (.mov o) := ⟨by decide, fun _ => ⟨_, rfl, rfl⟩⟩
theorem Laws.Table.movS (d a : Name) : Laws.Table.Statement (.movS d a) := .inl ⟨rfl, rfl⟩
theorem Laws.Table.movSi (d : Name) (imm : BitVec 16) : Laws.Table.Statement (.movSi d imm) := .inr (.inl rfl)
theorem Laws.Table.add (o : Ops) : Laws.Table.Statement (.add o) := ⟨by decide, fun _ => ⟨_, rfl, rfl⟩⟩
theorem Laws.Table.addS (d a b : Name) : Laws.Table.Statement (.addS d a b) := .inr (.inr (.inr ⟨by decide, d, a, b, rfl, rfl, .inl ⟨rfl, _, rfl, rfl⟩⟩))
theorem Laws.Table.addSi (d a : Name) (imm : Byte) : Laws.Table.Statement (.addSi d a imm) := .inr (.inr (.inr ⟨by decide, d, a, .zero, rfl, rfl, .inr ⟨rfl, _, rfl, rfl⟩⟩))
theorem Laws.Table.sub (o : Ops) : Laws.Table.Statement (.sub o) := ⟨by decide, fun _ => ⟨_, rfl, rfl⟩⟩
theorem Laws.Table.subS (d a b : Name) : Laws.Table.Statement (.subS d a b) := .inr (.inr (.inr ⟨by decide, d, a, b, rfl, rfl, .inl ⟨rfl, _, rfl, rfl⟩⟩))
theorem Laws.Table.mul (o : Ops) : Laws.Table.Statement (.mul o) := ⟨by decide, fun _ => ⟨_, rfl, rfl⟩⟩
theorem Laws.Table.mulS (d a b : Name) : Laws.Table.Statement (.mulS d a b) := .inr (.inr (.inr ⟨by decide, d, a, b, rfl, rfl, .inl ⟨rfl, _, rfl, rfl⟩⟩))
theorem Laws.Table.mulhi (o : Ops) : Laws.Table.Statement (.mulhi o) := ⟨by decide, fun _ => ⟨_, rfl, rfl⟩⟩
theorem Laws.Table.mulhiU (o : Ops) : Laws.Table.Statement (.mulhiU o) := ⟨by decide, fun _ => ⟨_, rfl, rfl⟩⟩
theorem Laws.Table.mad (o : Ops) : Laws.Table.Statement (.mad o) := ⟨by decide, fun _ => ⟨_, rfl, rfl⟩⟩
theorem Laws.Table.min (o : Ops) : Laws.Table.Statement (.min o) := ⟨by decide, fun _ => ⟨_, rfl, rfl⟩⟩
theorem Laws.Table.minS (d a b : Name) : Laws.Table.Statement (.minS d a b) := .inr (.inr (.inr ⟨by decide, d, a, b, rfl, rfl, .inl ⟨rfl, _, rfl, rfl⟩⟩))
theorem Laws.Table.max (o : Ops) : Laws.Table.Statement (.max o) := ⟨by decide, fun _ => ⟨_, rfl, rfl⟩⟩
theorem Laws.Table.maxS (d a b : Name) : Laws.Table.Statement (.maxS d a b) := .inr (.inr (.inr ⟨by decide, d, a, b, rfl, rfl, .inl ⟨rfl, _, rfl, rfl⟩⟩))
theorem Laws.Table.minU (o : Ops) : Laws.Table.Statement (.minU o) := ⟨by decide, fun _ => ⟨_, rfl, rfl⟩⟩
theorem Laws.Table.maxU (o : Ops) : Laws.Table.Statement (.maxU o) := ⟨by decide, fun _ => ⟨_, rfl, rfl⟩⟩
theorem Laws.Table.abs (o : Ops) : Laws.Table.Statement (.abs o) := ⟨by decide, fun _ => ⟨_, rfl, rfl⟩⟩
theorem Laws.Table.neg (o : Ops) : Laws.Table.Statement (.neg o) := ⟨by decide, fun _ => ⟨_, rfl, rfl⟩⟩
theorem Laws.Table.and (o : Ops) : Laws.Table.Statement (.and o) := ⟨by decide, fun _ => ⟨_, rfl, rfl⟩⟩
theorem Laws.Table.andS (d a b : Name) : Laws.Table.Statement (.andS d a b) := .inr (.inr (.inr ⟨by decide, d, a, b, rfl, rfl, .inl ⟨rfl, _, rfl, rfl⟩⟩))
theorem Laws.Table.andSi (d a : Name) (imm : Byte) : Laws.Table.Statement (.andSi d a imm) := .inr (.inr (.inr ⟨by decide, d, a, .zero, rfl, rfl, .inr ⟨rfl, _, rfl, rfl⟩⟩))
theorem Laws.Table.or (o : Ops) : Laws.Table.Statement (.or o) := ⟨by decide, fun _ => ⟨_, rfl, rfl⟩⟩
theorem Laws.Table.orS (d a b : Name) : Laws.Table.Statement (.orS d a b) := .inr (.inr (.inr ⟨by decide, d, a, b, rfl, rfl, .inl ⟨rfl, _, rfl, rfl⟩⟩))
theorem Laws.Table.orSi (d a : Name) (imm : Byte) : Laws.Table.Statement (.orSi d a imm) := .inr (.inr (.inr ⟨by decide, d, a, .zero, rfl, rfl, .inr ⟨rfl, _, rfl, rfl⟩⟩))
theorem Laws.Table.xor (o : Ops) : Laws.Table.Statement (.xor o) := ⟨by decide, fun _ => ⟨_, rfl, rfl⟩⟩
theorem Laws.Table.xorS (d a b : Name) : Laws.Table.Statement (.xorS d a b) := .inr (.inr (.inr ⟨by decide, d, a, b, rfl, rfl, .inl ⟨rfl, _, rfl, rfl⟩⟩))
theorem Laws.Table.xorSi (d a : Name) (imm : Byte) : Laws.Table.Statement (.xorSi d a imm) := .inr (.inr (.inr ⟨by decide, d, a, .zero, rfl, rfl, .inr ⟨rfl, _, rfl, rfl⟩⟩))
theorem Laws.Table.not (o : Ops) : Laws.Table.Statement (.not o) := ⟨by decide, fun _ => ⟨_, rfl, rfl⟩⟩
theorem Laws.Table.andn (o : Ops) : Laws.Table.Statement (.andn o) := ⟨by decide, fun _ => ⟨_, rfl, rfl⟩⟩
theorem Laws.Table.shl (o : Ops) : Laws.Table.Statement (.shl o) := ⟨by decide, fun _ => ⟨_, rfl, rfl⟩⟩
theorem Laws.Table.shlS (d a b : Name) : Laws.Table.Statement (.shlS d a b) := .inr (.inr (.inr ⟨by decide, d, a, b, rfl, rfl, .inl ⟨rfl, _, rfl, rfl⟩⟩))
theorem Laws.Table.shlSi (d a : Name) (imm : Byte) : Laws.Table.Statement (.shlSi d a imm) := .inr (.inr (.inr ⟨by decide, d, a, .zero, rfl, rfl, .inr ⟨rfl, _, rfl, rfl⟩⟩))
theorem Laws.Table.shr (o : Ops) : Laws.Table.Statement (.shr o) := ⟨by decide, fun _ => ⟨_, rfl, rfl⟩⟩
theorem Laws.Table.shrS (d a b : Name) : Laws.Table.Statement (.shrS d a b) := .inr (.inr (.inr ⟨by decide, d, a, b, rfl, rfl, .inl ⟨rfl, _, rfl, rfl⟩⟩))
theorem Laws.Table.shrSi (d a : Name) (imm : Byte) : Laws.Table.Statement (.shrSi d a imm) := .inr (.inr (.inr ⟨by decide, d, a, .zero, rfl, rfl, .inr ⟨rfl, _, rfl, rfl⟩⟩))
theorem Laws.Table.sra (o : Ops) : Laws.Table.Statement (.sra o) := ⟨by decide, fun _ => ⟨_, rfl, rfl⟩⟩
theorem Laws.Table.sraS (d a b : Name) : Laws.Table.Statement (.sraS d a b) := .inr (.inr (.inr ⟨by decide, d, a, b, rfl, rfl, .inl ⟨rfl, _, rfl, rfl⟩⟩))
theorem Laws.Table.sraSi (d a : Name) (imm : Byte) : Laws.Table.Statement (.sraSi d a imm) := .inr (.inr (.inr ⟨by decide, d, a, .zero, rfl, rfl, .inr ⟨rfl, _, rfl, rfl⟩⟩))
theorem Laws.Table.rotl (o : Ops) : Laws.Table.Statement (.rotl o) := ⟨by decide, fun _ => ⟨_, rfl, rfl⟩⟩
theorem Laws.Table.clz (o : Ops) : Laws.Table.Statement (.clz o) := ⟨by decide, fun _ => ⟨_, rfl, rfl⟩⟩
theorem Laws.Table.popc (o : Ops) : Laws.Table.Statement (.popc o) := ⟨by decide, fun _ => ⟨_, rfl, rfl⟩⟩
theorem Laws.Table.brev (o : Ops) : Laws.Table.Statement (.brev o) := ⟨by decide, fun _ => ⟨_, rfl, rfl⟩⟩
theorem Laws.Table.bfe (o : Ops) : Laws.Table.Statement (.bfe o) := ⟨by decide, fun _ => ⟨_, rfl, rfl⟩⟩
theorem Laws.Table.bfeS (o : Ops) : Laws.Table.Statement (.bfeS o) := ⟨by decide, fun _ => ⟨_, rfl, rfl⟩⟩
theorem Laws.Table.bfi (o : Ops) : Laws.Table.Statement (.bfi o) := ⟨by decide, fun _ => ⟨_, rfl, rfl⟩⟩
theorem Laws.Table.sel (o : Ops) : Laws.Table.Statement (.sel o) := ⟨by decide, fun _ => ⟨_, rfl, rfl⟩⟩
theorem Laws.Table.setbEq (o : Ops) : Laws.Table.Statement (.setbEq o) := ⟨by decide, fun _ => ⟨_, rfl, rfl⟩⟩
theorem Laws.Table.setbNe (o : Ops) : Laws.Table.Statement (.setbNe o) := ⟨by decide, fun _ => ⟨_, rfl, rfl⟩⟩
theorem Laws.Table.setbLt (o : Ops) : Laws.Table.Statement (.setbLt o) := ⟨by decide, fun _ => ⟨_, rfl, rfl⟩⟩
theorem Laws.Table.setbLe (o : Ops) : Laws.Table.Statement (.setbLe o) := ⟨by decide, fun _ => ⟨_, rfl, rfl⟩⟩
theorem Laws.Table.setbGt (o : Ops) : Laws.Table.Statement (.setbGt o) := ⟨by decide, fun _ => ⟨_, rfl, rfl⟩⟩
theorem Laws.Table.setbGe (o : Ops) : Laws.Table.Statement (.setbGe o) := ⟨by decide, fun _ => ⟨_, rfl, rfl⟩⟩
theorem Laws.Table.setbLtu (o : Ops) : Laws.Table.Statement (.setbLtu o) := ⟨by decide, fun _ => ⟨_, rfl, rfl⟩⟩
theorem Laws.Table.setbLeu (o : Ops) : Laws.Table.Statement (.setbLeu o) := ⟨by decide, fun _ => ⟨_, rfl, rfl⟩⟩
theorem Laws.Table.setbGtu (o : Ops) : Laws.Table.Statement (.setbGtu o) := ⟨by decide, fun _ => ⟨_, rfl, rfl⟩⟩
theorem Laws.Table.setbGeu (o : Ops) : Laws.Table.Statement (.setbGeu o) := ⟨by decide, fun _ => ⟨_, rfl, rfl⟩⟩
theorem Laws.Table.addW (o : Ops) : Laws.Table.Statement (.addW o) := ⟨by decide, fun _ => ⟨_, rfl, rfl⟩⟩
theorem Laws.Table.subW (o : Ops) : Laws.Table.Statement (.subW o) := ⟨by decide, fun _ => ⟨_, rfl, rfl⟩⟩
theorem Laws.Table.mulWide (o : Ops) : Laws.Table.Statement (.mulWide o) := ⟨by decide, fun _ => ⟨_, rfl, rfl⟩⟩
theorem Laws.Table.sext (o : Ops) : Laws.Table.Statement (.sext o) := ⟨by decide, fun _ => ⟨_, rfl, rfl⟩⟩
theorem Laws.Table.zext (o : Ops) : Laws.Table.Statement (.zext o) := ⟨by decide, fun _ => ⟨_, rfl, rfl⟩⟩
theorem Laws.Table.prom (o : Ops) : Laws.Table.Statement (.prom o) := ⟨by decide, fun _ => ⟨_, rfl, rfl⟩⟩
theorem Laws.Table.rdlane (o : Ops) : Laws.Table.Statement (.rdlane o) := ⟨by decide, fun _ => ⟨_, rfl, rfl⟩⟩
theorem Laws.Table.wrlane (o : Ops) : Laws.Table.Statement (.wrlane o) := ⟨by decide, fun _ => ⟨_, rfl, rfl⟩⟩
theorem Laws.Table.redAdd (o : Ops) : Laws.Table.Statement (.redAdd o) := ⟨by decide, fun _ => ⟨_, rfl, rfl⟩⟩
theorem Laws.Table.redMin (o : Ops) : Laws.Table.Statement (.redMin o) := ⟨by decide, fun _ => ⟨_, rfl, rfl⟩⟩
theorem Laws.Table.redMax (o : Ops) : Laws.Table.Statement (.redMax o) := ⟨by decide, fun _ => ⟨_, rfl, rfl⟩⟩
theorem Laws.Table.redMinU (o : Ops) : Laws.Table.Statement (.redMinU o) := ⟨by decide, fun _ => ⟨_, rfl, rfl⟩⟩
theorem Laws.Table.redAnd (o : Ops) : Laws.Table.Statement (.redAnd o) := ⟨by decide, fun _ => ⟨_, rfl, rfl⟩⟩
theorem Laws.Table.redOr (o : Ops) : Laws.Table.Statement (.redOr o) := ⟨by decide, fun _ => ⟨_, rfl, rfl⟩⟩
theorem Laws.Table.redXor (o : Ops) : Laws.Table.Statement (.redXor o) := ⟨by decide, fun _ => ⟨_, rfl, rfl⟩⟩
theorem Laws.Table.ballot (o : Ops) : Laws.Table.Statement (.ballot o) := ⟨by decide, fun _ => ⟨_, rfl, rfl⟩⟩
theorem Laws.Table.matchLanes (o : Ops) : Laws.Table.Statement (.matchLanes o) := ⟨by decide, fun _ => ⟨_, rfl, rfl⟩⟩
theorem Laws.Table.actmask (o : Ops) : Laws.Table.Statement (.actmask o) := ⟨by decide, fun _ => ⟨_, rfl, rfl⟩⟩
theorem Laws.Table.toaff (o : Ops) : Laws.Table.Statement (.toaff o) := ⟨by decide, fun _ => ⟨_, rfl, rfl⟩⟩
theorem Laws.Table.qswp (o : Ops) : Laws.Table.Statement (.qswp o) := ⟨by decide, fun _ => ⟨_, rfl, rfl⟩⟩
theorem Laws.Table.qbc (o : Ops) : Laws.Table.Statement (.qbc o) := ⟨by decide, fun _ => ⟨_, rfl, rfl⟩⟩
theorem Laws.Table.shflIdx (o : Ops) : Laws.Table.Statement (.shflIdx o) := ⟨by decide, fun _ => ⟨_, rfl, rfl⟩⟩
theorem Laws.Table.shflUp (o : Ops) : Laws.Table.Statement (.shflUp o) := ⟨by decide, fun _ => ⟨_, rfl, rfl⟩⟩
theorem Laws.Table.shflDown (o : Ops) : Laws.Table.Statement (.shflDown o) := ⟨by decide, fun _ => ⟨_, rfl, rfl⟩⟩
theorem Laws.Table.shflXor (o : Ops) : Laws.Table.Statement (.shflXor o) := ⟨by decide, fun _ => ⟨_, rfl, rfl⟩⟩
theorem Laws.Table.mpfx (o : Ops) : Laws.Table.Statement (.mpfx o) := ⟨by decide, fun _ => ⟨_, rfl, rfl⟩⟩
theorem Laws.Table.fadd (o : Ops) : Laws.Table.Statement (.fadd o) := ⟨by decide, fun _ => ⟨_, rfl, rfl⟩⟩
theorem Laws.Table.faddS (d a b : Name) : Laws.Table.Statement (.faddS d a b) := .inr (.inr (.inr ⟨by decide, d, a, b, rfl, rfl, .inl ⟨rfl, _, rfl, rfl⟩⟩))
theorem Laws.Table.fsub (o : Ops) : Laws.Table.Statement (.fsub o) := ⟨by decide, fun _ => ⟨_, rfl, rfl⟩⟩
theorem Laws.Table.fsubS (d a b : Name) : Laws.Table.Statement (.fsubS d a b) := .inr (.inr (.inr ⟨by decide, d, a, b, rfl, rfl, .inl ⟨rfl, _, rfl, rfl⟩⟩))
theorem Laws.Table.fmul (o : Ops) : Laws.Table.Statement (.fmul o) := ⟨by decide, fun _ => ⟨_, rfl, rfl⟩⟩
theorem Laws.Table.fmulS (d a b : Name) : Laws.Table.Statement (.fmulS d a b) := .inr (.inr (.inr ⟨by decide, d, a, b, rfl, rfl, .inl ⟨rfl, _, rfl, rfl⟩⟩))
theorem Laws.Table.ffma (o : Ops) : Laws.Table.Statement (.ffma o) := ⟨by decide, fun _ => ⟨_, rfl, rfl⟩⟩
theorem Laws.Table.fmin (o : Ops) : Laws.Table.Statement (.fmin o) := ⟨by decide, fun _ => ⟨_, rfl, rfl⟩⟩
theorem Laws.Table.fmax (o : Ops) : Laws.Table.Statement (.fmax o) := ⟨by decide, fun _ => ⟨_, rfl, rfl⟩⟩
theorem Laws.Table.fabs (o : Ops) : Laws.Table.Statement (.fabs o) := ⟨by decide, fun _ => ⟨_, rfl, rfl⟩⟩
theorem Laws.Table.fneg (o : Ops) : Laws.Table.Statement (.fneg o) := ⟨by decide, fun _ => ⟨_, rfl, rfl⟩⟩
theorem Laws.Table.fsetbEq (o : Ops) : Laws.Table.Statement (.fsetbEq o) := ⟨by decide, fun _ => ⟨_, rfl, rfl⟩⟩
theorem Laws.Table.fsetbNe (o : Ops) : Laws.Table.Statement (.fsetbNe o) := ⟨by decide, fun _ => ⟨_, rfl, rfl⟩⟩
theorem Laws.Table.fsetbLt (o : Ops) : Laws.Table.Statement (.fsetbLt o) := ⟨by decide, fun _ => ⟨_, rfl, rfl⟩⟩
theorem Laws.Table.fsetbLe (o : Ops) : Laws.Table.Statement (.fsetbLe o) := ⟨by decide, fun _ => ⟨_, rfl, rfl⟩⟩
theorem Laws.Table.fsetbGt (o : Ops) : Laws.Table.Statement (.fsetbGt o) := ⟨by decide, fun _ => ⟨_, rfl, rfl⟩⟩
theorem Laws.Table.fsetbGe (o : Ops) : Laws.Table.Statement (.fsetbGe o) := ⟨by decide, fun _ => ⟨_, rfl, rfl⟩⟩
theorem Laws.Table.fsetbUn (o : Ops) : Laws.Table.Statement (.fsetbUn o) := ⟨by decide, fun _ => ⟨_, rfl, rfl⟩⟩
theorem Laws.Table.frndRn (o : Ops) : Laws.Table.Statement (.frndRn o) := ⟨by decide, fun _ => ⟨_, rfl, rfl⟩⟩
theorem Laws.Table.frndRz (o : Ops) : Laws.Table.Statement (.frndRz o) := ⟨by decide, fun _ => ⟨_, rfl, rfl⟩⟩
theorem Laws.Table.frndRd (o : Ops) : Laws.Table.Statement (.frndRd o) := ⟨by decide, fun _ => ⟨_, rfl, rfl⟩⟩
theorem Laws.Table.frndRu (o : Ops) : Laws.Table.Statement (.frndRu o) := ⟨by decide, fun _ => ⟨_, rfl, rfl⟩⟩
theorem Laws.Table.fcvt (o : Ops) : Laws.Table.Statement (.fcvt o) := ⟨by decide, fun _ => ⟨_, rfl, rfl⟩⟩
theorem Laws.Table.f2i (o : Ops) : Laws.Table.Statement (.f2i o) := ⟨by decide, fun _ => ⟨_, rfl, rfl⟩⟩
theorem Laws.Table.f2u (o : Ops) : Laws.Table.Statement (.f2u o) := ⟨by decide, fun _ => ⟨_, rfl, rfl⟩⟩
theorem Laws.Table.i2f (o : Ops) : Laws.Table.Statement (.i2f o) := ⟨by decide, fun _ => ⟨_, rfl, rfl⟩⟩
theorem Laws.Table.u2f (o : Ops) : Laws.Table.Statement (.u2f o) := ⟨by decide, fun _ => ⟨_, rfl, rfl⟩⟩
theorem Laws.Table.hadd2 (o : Ops) : Laws.Table.Statement (.hadd2 o) := ⟨by decide, fun _ => ⟨_, rfl, rfl⟩⟩
theorem Laws.Table.hmul2 (o : Ops) : Laws.Table.Statement (.hmul2 o) := ⟨by decide, fun _ => ⟨_, rfl, rfl⟩⟩
theorem Laws.Table.hfma2 (o : Ops) : Laws.Table.Statement (.hfma2 o) := ⟨by decide, fun _ => ⟨_, rfl, rfl⟩⟩
theorem Laws.Table.bfadd2 (o : Ops) : Laws.Table.Statement (.bfadd2 o) := ⟨by decide, fun _ => ⟨_, rfl, rfl⟩⟩
theorem Laws.Table.bfmul2 (o : Ops) : Laws.Table.Statement (.bfmul2 o) := ⟨by decide, fun _ => ⟨_, rfl, rfl⟩⟩
theorem Laws.Table.bffma2 (o : Ops) : Laws.Table.Statement (.bffma2 o) := ⟨by decide, fun _ => ⟨_, rfl, rfl⟩⟩
theorem Laws.Table.rcp (o : Ops) : Laws.Table.Statement (.rcp o) := ⟨by decide, fun _ => ⟨_, rfl, rfl⟩⟩
theorem Laws.Table.rsq (o : Ops) : Laws.Table.Statement (.rsq o) := ⟨by decide, fun _ => ⟨_, rfl, rfl⟩⟩
theorem Laws.Table.sqrt (o : Ops) : Laws.Table.Statement (.sqrt o) := ⟨by decide, fun _ => ⟨_, rfl, rfl⟩⟩
theorem Laws.Table.ex2 (o : Ops) : Laws.Table.Statement (.ex2 o) := ⟨by decide, fun _ => ⟨_, rfl, rfl⟩⟩
theorem Laws.Table.lg2 (o : Ops) : Laws.Table.Statement (.lg2 o) := ⟨by decide, fun _ => ⟨_, rfl, rfl⟩⟩
theorem Laws.Table.sin (o : Ops) : Laws.Table.Statement (.sin o) := ⟨by decide, fun _ => ⟨_, rfl, rfl⟩⟩
theorem Laws.Table.cos (o : Ops) : Laws.Table.Statement (.cos o) := ⟨by decide, fun _ => ⟨_, rfl, rfl⟩⟩
theorem Laws.Table.tanh (o : Ops) : Laws.Table.Statement (.tanh o) := ⟨by decide, fun _ => ⟨_, rfl, rfl⟩⟩
theorem Laws.Table.ldsB (o : Ops) : Laws.Table.Statement (.ldsB o) := ⟨by decide, fun _ => ⟨_, rfl, rfl⟩⟩
theorem Laws.Table.ldsBS (d a : Name) (imm : Byte) : Laws.Table.Statement (.ldsBS d a imm) := .inr (.inr (.inr ⟨by decide, d, a, .zero, rfl, rfl, .inr ⟨rfl, _, rfl, rfl⟩⟩))
theorem Laws.Table.ldsH (o : Ops) : Laws.Table.Statement (.ldsH o) := ⟨by decide, fun _ => ⟨_, rfl, rfl⟩⟩
theorem Laws.Table.ldsW (o : Ops) : Laws.Table.Statement (.ldsW o) := ⟨by decide, fun _ => ⟨_, rfl, rfl⟩⟩
theorem Laws.Table.ldsWS (d a : Name) (imm : Byte) : Laws.Table.Statement (.ldsWS d a imm) := .inr (.inr (.inr ⟨by decide, d, a, .zero, rfl, rfl, .inr ⟨rfl, _, rfl, rfl⟩⟩))
theorem Laws.Table.ldsD (o : Ops) : Laws.Table.Statement (.ldsD o) := ⟨by decide, fun _ => ⟨_, rfl, rfl⟩⟩
theorem Laws.Table.ldsQ (o : Ops) : Laws.Table.Statement (.ldsQ o) := ⟨by decide, fun _ => ⟨_, rfl, rfl⟩⟩
theorem Laws.Table.stsB (o : Ops) : Laws.Table.Statement (.stsB o) := ⟨by decide, fun _ => ⟨_, rfl, rfl⟩⟩
theorem Laws.Table.stsH (o : Ops) : Laws.Table.Statement (.stsH o) := ⟨by decide, fun _ => ⟨_, rfl, rfl⟩⟩
theorem Laws.Table.stsW (o : Ops) : Laws.Table.Statement (.stsW o) := ⟨by decide, fun _ => ⟨_, rfl, rfl⟩⟩
theorem Laws.Table.stsWS (a : Name) (imm : Byte) (c : Name) : Laws.Table.Statement (.stsWS a imm c) := .inr (.inr (.inl rfl))
theorem Laws.Table.stsD (o : Ops) : Laws.Table.Statement (.stsD o) := ⟨by decide, fun _ => ⟨_, rfl, rfl⟩⟩
theorem Laws.Table.stsQ (o : Ops) : Laws.Table.Statement (.stsQ o) := ⟨by decide, fun _ => ⟨_, rfl, rfl⟩⟩
theorem Laws.Table.ldpW (o : Ops) : Laws.Table.Statement (.ldpW o) := ⟨by decide, fun _ => ⟨_, rfl, rfl⟩⟩
theorem Laws.Table.ldpWS (d a : Name) (imm : Byte) : Laws.Table.Statement (.ldpWS d a imm) := .inr (.inr (.inr ⟨by decide, d, a, .zero, rfl, rfl, .inr ⟨rfl, _, rfl, rfl⟩⟩))
theorem Laws.Table.ldpD (o : Ops) : Laws.Table.Statement (.ldpD o) := ⟨by decide, fun _ => ⟨_, rfl, rfl⟩⟩
theorem Laws.Table.ldpQ (o : Ops) : Laws.Table.Statement (.ldpQ o) := ⟨by decide, fun _ => ⟨_, rfl, rfl⟩⟩
theorem Laws.Table.stpW (o : Ops) : Laws.Table.Statement (.stpW o) := ⟨by decide, fun _ => ⟨_, rfl, rfl⟩⟩
theorem Laws.Table.stpD (o : Ops) : Laws.Table.Statement (.stpD o) := ⟨by decide, fun _ => ⟨_, rfl, rfl⟩⟩
theorem Laws.Table.stpQ (o : Ops) : Laws.Table.Statement (.stpQ o) := ⟨by decide, fun _ => ⟨_, rfl, rfl⟩⟩
theorem Laws.Table.ldk (o : Ops) : Laws.Table.Statement (.ldk o) := ⟨by decide, fun _ => ⟨_, rfl, rfl⟩⟩
theorem Laws.Table.stk (o : Ops) : Laws.Table.Statement (.stk o) := ⟨by decide, fun _ => ⟨_, rfl, rfl⟩⟩
theorem Laws.Table.ldsAcq (o : Ops) : Laws.Table.Statement (.ldsAcq o) := ⟨by decide, fun _ => ⟨_, rfl, rfl⟩⟩
theorem Laws.Table.stsRel (o : Ops) : Laws.Table.Statement (.stsRel o) := ⟨by decide, fun _ => ⟨_, rfl, rfl⟩⟩
theorem Laws.Table.ldpAcq (o : Ops) : Laws.Table.Statement (.ldpAcq o) := ⟨by decide, fun _ => ⟨_, rfl, rfl⟩⟩
theorem Laws.Table.stpRel (o : Ops) : Laws.Table.Statement (.stpRel o) := ⟨by decide, fun _ => ⟨_, rfl, rfl⟩⟩
theorem Laws.Table.atomsAdd (o : Ops) : Laws.Table.Statement (.atomsAdd o) := ⟨by decide, fun _ => ⟨_, rfl, rfl⟩⟩
theorem Laws.Table.atomsMin (o : Ops) : Laws.Table.Statement (.atomsMin o) := ⟨by decide, fun _ => ⟨_, rfl, rfl⟩⟩
theorem Laws.Table.atomsMax (o : Ops) : Laws.Table.Statement (.atomsMax o) := ⟨by decide, fun _ => ⟨_, rfl, rfl⟩⟩
theorem Laws.Table.atomsMinU (o : Ops) : Laws.Table.Statement (.atomsMinU o) := ⟨by decide, fun _ => ⟨_, rfl, rfl⟩⟩
theorem Laws.Table.atomsMaxU (o : Ops) : Laws.Table.Statement (.atomsMaxU o) := ⟨by decide, fun _ => ⟨_, rfl, rfl⟩⟩
theorem Laws.Table.atomsAnd (o : Ops) : Laws.Table.Statement (.atomsAnd o) := ⟨by decide, fun _ => ⟨_, rfl, rfl⟩⟩
theorem Laws.Table.atomsOr (o : Ops) : Laws.Table.Statement (.atomsOr o) := ⟨by decide, fun _ => ⟨_, rfl, rfl⟩⟩
theorem Laws.Table.atomsXor (o : Ops) : Laws.Table.Statement (.atomsXor o) := ⟨by decide, fun _ => ⟨_, rfl, rfl⟩⟩
theorem Laws.Table.atomsExch (o : Ops) : Laws.Table.Statement (.atomsExch o) := ⟨by decide, fun _ => ⟨_, rfl, rfl⟩⟩
theorem Laws.Table.atomsCas (o : Ops) : Laws.Table.Statement (.atomsCas o) := ⟨by decide, fun _ => ⟨_, rfl, rfl⟩⟩
theorem Laws.Table.atompAdd (o : Ops) : Laws.Table.Statement (.atompAdd o) := ⟨by decide, fun _ => ⟨_, rfl, rfl⟩⟩
theorem Laws.Table.atompMin (o : Ops) : Laws.Table.Statement (.atompMin o) := ⟨by decide, fun _ => ⟨_, rfl, rfl⟩⟩
theorem Laws.Table.atompMax (o : Ops) : Laws.Table.Statement (.atompMax o) := ⟨by decide, fun _ => ⟨_, rfl, rfl⟩⟩
theorem Laws.Table.atompMinU (o : Ops) : Laws.Table.Statement (.atompMinU o) := ⟨by decide, fun _ => ⟨_, rfl, rfl⟩⟩
theorem Laws.Table.atompMaxU (o : Ops) : Laws.Table.Statement (.atompMaxU o) := ⟨by decide, fun _ => ⟨_, rfl, rfl⟩⟩
theorem Laws.Table.atompAnd (o : Ops) : Laws.Table.Statement (.atompAnd o) := ⟨by decide, fun _ => ⟨_, rfl, rfl⟩⟩
theorem Laws.Table.atompOr (o : Ops) : Laws.Table.Statement (.atompOr o) := ⟨by decide, fun _ => ⟨_, rfl, rfl⟩⟩
theorem Laws.Table.atompXor (o : Ops) : Laws.Table.Statement (.atompXor o) := ⟨by decide, fun _ => ⟨_, rfl, rfl⟩⟩
theorem Laws.Table.atompExch (o : Ops) : Laws.Table.Statement (.atompExch o) := ⟨by decide, fun _ => ⟨_, rfl, rfl⟩⟩
theorem Laws.Table.atompCas (o : Ops) : Laws.Table.Statement (.atompCas o) := ⟨by decide, fun _ => ⟨_, rfl, rfl⟩⟩
theorem Laws.Table.fence (o : Ops) : Laws.Table.Statement (.fence o) := ⟨by decide, fun _ => ⟨_, rfl, rfl⟩⟩
theorem Laws.Table.barInit (o : Ops) : Laws.Table.Statement (.barInit o) := ⟨by decide, fun _ => ⟨_, rfl, rfl⟩⟩
theorem Laws.Table.barArv (o : Ops) : Laws.Table.Statement (.barArv o) := ⟨by decide, fun _ => ⟨_, rfl, rfl⟩⟩
theorem Laws.Table.barWait (o : Ops) : Laws.Table.Statement (.barWait o) := ⟨by decide, fun _ => ⟨_, rfl, rfl⟩⟩
theorem Laws.Table.barSync (o : Ops) : Laws.Table.Statement (.barSync o) := ⟨by decide, fun _ => ⟨_, rfl, rfl⟩⟩
theorem Laws.Table.barGlide (o : Ops) : Laws.Table.Statement (.barGlide o) := ⟨by decide, fun _ => ⟨_, rfl, rfl⟩⟩
theorem Laws.Table.spanSync (o : Ops) : Laws.Table.Statement (.spanSync o) := ⟨by decide, fun _ => ⟨_, rfl, rfl⟩⟩
theorem Laws.Table.swArm (o : Ops) : Laws.Table.Statement (.swArm o) := ⟨by decide, fun _ => ⟨_, rfl, rfl⟩⟩
theorem Laws.Table.swWait (o : Ops) : Laws.Table.Statement (.swWait o) := ⟨by decide, fun _ => ⟨_, rfl, rfl⟩⟩
theorem Laws.Table.waitc (o : Ops) : Laws.Table.Statement (.waitc o) := ⟨by decide, fun _ => ⟨_, rfl, rfl⟩⟩
theorem Laws.Table.waitl (o : Ops) : Laws.Table.Statement (.waitl o) := ⟨by decide, fun _ => ⟨_, rfl, rfl⟩⟩
theorem Laws.Table.bra (o : Ops) : Laws.Table.Statement (.bra o) := ⟨by decide, fun _ => ⟨_, rfl, rfl⟩⟩
theorem Laws.Table.brx (o : Ops) : Laws.Table.Statement (.brx o) := ⟨by decide, fun _ => ⟨_, rfl, rfl⟩⟩
theorem Laws.Table.call (o : Ops) : Laws.Table.Statement (.call o) := ⟨by decide, fun _ => ⟨_, rfl, rfl⟩⟩
theorem Laws.Table.calx (o : Ops) : Laws.Table.Statement (.calx o) := ⟨by decide, fun _ => ⟨_, rfl, rfl⟩⟩
theorem Laws.Table.ret (o : Ops) : Laws.Table.Statement (.ret o) := ⟨by decide, fun _ => ⟨_, rfl, rfl⟩⟩
theorem Laws.Table.exit (o : Ops) : Laws.Table.Statement (.exit o) := ⟨by decide, fun _ => ⟨_, rfl, rfl⟩⟩
theorem Laws.Table.meet (o : Ops) : Laws.Table.Statement (.meet o) := ⟨by decide, fun _ => ⟨_, rfl, rfl⟩⟩
theorem Laws.Table.yield (o : Ops) : Laws.Table.Statement (.yield o) := ⟨by decide, fun _ => ⟨_, rfl, rfl⟩⟩
theorem Laws.Table.trap (o : Ops) : Laws.Table.Statement (.trap o) := ⟨by decide, fun _ => ⟨_, rfl, rfl⟩⟩
theorem Laws.Table.eret (o : Ops) : Laws.Table.Statement (.eret o) := ⟨by decide, fun _ => ⟨_, rfl, rfl⟩⟩
theorem Laws.Table.svc (o : Ops) : Laws.Table.Statement (.svc o) := ⟨by decide, fun _ => ⟨_, rfl, rfl⟩⟩
theorem Laws.Table.idemBegin (o : Ops) : Laws.Table.Statement (.idemBegin o) := ⟨by decide, fun _ => ⟨_, rfl, rfl⟩⟩
theorem Laws.Table.idemEnd (o : Ops) : Laws.Table.Statement (.idemEnd o) := ⟨by decide, fun _ => ⟨_, rfl, rfl⟩⟩
theorem Laws.Table.trig (o : Ops) : Laws.Table.Statement (.trig o) := ⟨by decide, fun _ => ⟨_, rfl, rfl⟩⟩
theorem Laws.Table.brk (o : Ops) : Laws.Table.Statement (.brk o) := ⟨by decide, fun _ => ⟨_, rfl, rfl⟩⟩
theorem Laws.Table.sysr (o : Ops) : Laws.Table.Statement (.sysr o) := ⟨by decide, fun _ => ⟨_, rfl, rfl⟩⟩
theorem Laws.Table.sysw (o : Ops) : Laws.Table.Statement (.sysw o) := ⟨by decide, fun _ => ⟨_, rfl, rfl⟩⟩
theorem Laws.Table.time (o : Ops) : Laws.Table.Statement (.time o) := ⟨by decide, fun _ => ⟨_, rfl, rfl⟩⟩
theorem Laws.Table.icinv (o : Ops) : Laws.Table.Statement (.icinv o) := ⟨by decide, fun _ => ⟨_, rfl, rfl⟩⟩
theorem Laws.Table.tlbinv (o : Ops) : Laws.Table.Statement (.tlbinv o) := ⟨by decide, fun _ => ⟨_, rfl, rfl⟩⟩
theorem Laws.Table.keyLoad (o : Ops) : Laws.Table.Statement (.keyLoad o) := ⟨by decide, fun _ => ⟨_, rfl, rfl⟩⟩
theorem Laws.Table.keyBind (o : Ops) : Laws.Table.Statement (.keyBind o) := ⟨by decide, fun _ => ⟨_, rfl, rfl⟩⟩
theorem Laws.Table.scrub (o : Ops) : Laws.Table.Statement (.scrub o) := ⟨by decide, fun _ => ⟨_, rfl, rfl⟩⟩
theorem Laws.Table.rwatchSetRange (o : Ops) : Laws.Table.Statement (.rwatchSetRange o) := ⟨by decide, fun _ => ⟨_, rfl, rfl⟩⟩
theorem Laws.Table.partMake (o : Ops) : Laws.Table.Statement (.partMake o) := ⟨by decide, fun _ => ⟨_, rfl, rfl⟩⟩
theorem Laws.Table.partGive (o : Ops) : Laws.Table.Statement (.partGive o) := ⟨by decide, fun _ => ⟨_, rfl, rfl⟩⟩
theorem Laws.Table.partSlice (o : Ops) : Laws.Table.Statement (.partSlice o) := ⟨by decide, fun _ => ⟨_, rfl, rfl⟩⟩
theorem Laws.Table.partSeal (o : Ops) : Laws.Table.Statement (.partSeal o) := ⟨by decide, fun _ => ⟨_, rfl, rfl⟩⟩
theorem Laws.Table.partDrop (o : Ops) : Laws.Table.Statement (.partDrop o) := ⟨by decide, fun _ => ⟨_, rfl, rfl⟩⟩
theorem Laws.Table.mgsemRead (o : Ops) : Laws.Table.Statement (.mgsemRead o) := ⟨by decide, fun _ => ⟨_, rfl, rfl⟩⟩
theorem Laws.Table.tree (t : Tree) : Laws.Table.Statement (.tree t) := trivial
theorem Laws.Table.cp (o : Ops) : Laws.Table.Statement (.cp o) := ⟨by decide, by decide, by decide, fun _ => ⟨_, rfl, rfl⟩⟩
theorem Laws.Table.cpGat (o : Ops) : Laws.Table.Statement (.cpGat o) := ⟨by decide, by decide, by decide, fun _ => ⟨_, rfl, rfl⟩⟩
theorem Laws.Table.cpSct (o : Ops) : Laws.Table.Statement (.cpSct o) := ⟨by decide, by decide, by decide, fun _ => ⟨_, rfl, rfl⟩⟩
theorem Laws.Table.tidSet (o : Ops) : Laws.Table.Statement (.tidSet o) := ⟨by decide, by decide, by decide, fun _ => ⟨_, rfl, rfl⟩⟩
theorem Laws.Table.tidGet (o : Ops) : Laws.Table.Statement (.tidGet o) := ⟨by decide, by decide, by decide, fun _ => ⟨_, rfl, rfl⟩⟩
theorem Laws.Table.mxMma (o : Ops) : Laws.Table.Statement (.mxMma o) := ⟨by decide, by decide, by decide, fun _ => ⟨_, rfl, rfl⟩⟩
theorem Laws.Table.mxPair (o : Ops) : Laws.Table.Statement (.mxPair o) := ⟨by decide, by decide, by decide, fun _ => ⟨_, rfl, rfl⟩⟩
theorem Laws.Table.mxZero (o : Ops) : Laws.Table.Statement (.mxZero o) := ⟨by decide, by decide, by decide, fun _ => ⟨_, rfl, rfl⟩⟩
theorem Laws.Table.mxLdacc (o : Ops) : Laws.Table.Statement (.mxLdacc o) := ⟨by decide, by decide, by decide, fun _ => ⟨_, rfl, rfl⟩⟩
theorem Laws.Table.mxDrain (o : Ops) : Laws.Table.Statement (.mxDrain o) := ⟨by decide, by decide, by decide, fun _ => ⟨_, rfl, rfl⟩⟩
theorem Laws.Table.mxBurst (o : Ops) : Laws.Table.Statement (.mxBurst o) := ⟨by decide, by decide, by decide, fun _ => ⟨_, rfl, rfl⟩⟩
theorem Laws.Table.rsRow (o : Ops) : Laws.Table.Statement (.rsRow o) := ⟨by decide, by decide, by decide, fun _ => ⟨_, rfl, rfl⟩⟩
theorem Laws.Table.claClr (o : Ops) : Laws.Table.Statement (.claClr o) := ⟨by decide, by decide, by decide, fun _ => ⟨_, rfl, rfl⟩⟩
theorem Laws.Table.claLdc (o : Ops) : Laws.Table.Statement (.claLdc o) := ⟨by decide, by decide, by decide, fun _ => ⟨_, rfl, rfl⟩⟩
theorem Laws.Table.claDec (o : Ops) : Laws.Table.Statement (.claDec o) := ⟨by decide, by decide, by decide, fun _ => ⟨_, rfl, rfl⟩⟩
theorem Laws.Table.claProp (o : Ops) : Laws.Table.Statement (.claProp o) := ⟨by decide, by decide, by decide, fun _ => ⟨_, rfl, rfl⟩⟩
theorem Laws.Table.claBack (o : Ops) : Laws.Table.Statement (.claBack o) := ⟨by decide, by decide, by decide, fun _ => ⟨_, rfl, rfl⟩⟩
theorem Laws.Table.claTrl (o : Ops) : Laws.Table.Statement (.claTrl o) := ⟨by decide, by decide, by decide, fun _ => ⟨_, rfl, rfl⟩⟩
theorem Laws.Table.claCfl (o : Ops) : Laws.Table.Statement (.claCfl o) := ⟨by decide, by decide, by decide, fun _ => ⟨_, rfl, rfl⟩⟩
theorem Laws.Table.claVal (o : Ops) : Laws.Table.Statement (.claVal o) := ⟨by decide, by decide, by decide, fun _ => ⟨_, rfl, rfl⟩⟩
theorem Laws.Table.claLvl (o : Ops) : Laws.Table.Statement (.claLvl o) := ⟨by decide, by decide, by decide, fun _ => ⟨_, rfl, rfl⟩⟩
theorem Laws.Table.claStat (o : Ops) : Laws.Table.Statement (.claStat o) := ⟨by decide, by decide, by decide, fun _ => ⟨_, rfl, rfl⟩⟩
theorem Laws.Table.chnAdv (o : Ops) : Laws.Table.Statement (.chnAdv o) := ⟨by decide, by decide, by decide, fun _ => ⟨_, rfl, rfl⟩⟩
theorem Laws.Table.chnSeq (o : Ops) : Laws.Table.Statement (.chnSeq o) := ⟨by decide, by decide, by decide, fun _ => ⟨_, rfl, rfl⟩⟩
theorem Laws.Table.chnWait (o : Ops) : Laws.Table.Statement (.chnWait o) := ⟨by decide, by decide, by decide, fun _ => ⟨_, rfl, rfl⟩⟩
theorem Laws.Table.setperf (o : Ops) : Laws.Table.Statement (.setperf o) := ⟨by decide, by decide, by decide, fun _ => ⟨_, rfl, rfl⟩⟩
theorem Laws.Table.chctlWrite (o : Ops) : Laws.Table.Statement (.chctlWrite o) := ⟨by decide, fun h => nomatch h⟩
theorem Laws.Table.keyUnbind (o : Ops) : Laws.Table.Statement (.keyUnbind o) := ⟨by decide, fun h => nomatch h⟩
theorem Laws.Table.rwatchClearRange (o : Ops) : Laws.Table.Statement (.rwatchClearRange o) := ⟨by decide, fun h => nomatch h⟩
theorem Laws.Table.rwatchSetRing (o : Ops) : Laws.Table.Statement (.rwatchSetRing o) := ⟨by decide, fun h => nomatch h⟩
theorem Laws.Table.rwatchWriteHead (o : Ops) : Laws.Table.Statement (.rwatchWriteHead o) := ⟨by decide, fun h => nomatch h⟩
theorem Laws.Table.mgsemAcquire (o : Ops) : Laws.Table.Statement (.mgsemAcquire o) := ⟨by decide, fun h => nomatch h⟩
theorem Laws.Table.mgsemRenew (o : Ops) : Laws.Table.Statement (.mgsemRenew o) := ⟨by decide, fun h => nomatch h⟩
theorem Laws.Table.mgsemRelease (o : Ops) : Laws.Table.Statement (.mgsemRelease o) := ⟨by decide, fun h => nomatch h⟩
theorem Laws.Table.regroupTick (core : Nat) : Laws.Table.Statement (.regroupTick core) := trivial
theorem Laws.Table.yieldExpire (squad lane : Nat) : Laws.Table.Statement (.yieldExpire squad lane) := trivial
theorem Laws.Table.copyStart (core : Nat) : Laws.Table.Statement (.copyStart core) := trivial
theorem Laws.Table.copyPieceLand (copy piece : Nat) (dataOk : Bool) : Laws.Table.Statement (.copyPieceLand copy piece dataOk) := trivial
theorem Laws.Table.pageWalk (w : Walker) : Laws.Table.Statement (.pageWalk w) := trivial
theorem Laws.Table.stewardPageService (entry : Nat) : Laws.Table.Statement (.stewardPageService entry) := trivial
theorem Laws.Table.qcountAdvance : Laws.Table.Statement (.qcountAdvance) := trivial
theorem Laws.Table.matrixOpStart (core : Nat) : Laws.Table.Statement (.matrixOpStart core) := trivial
theorem Laws.Table.matrixOpComplete (core : Nat) : Laws.Table.Statement (.matrixOpComplete core) := trivial
theorem Laws.Table.mxBurstHoldExpire (core : Nat) : Laws.Table.Statement (.mxBurstHoldExpire core) := trivial
theorem Laws.Table.arrayRampDownEnd (core : Nat) : Laws.Table.Statement (.arrayRampDownEnd core) := trivial
theorem Laws.Table.rsRowComplete (core : Nat) : Laws.Table.Statement (.rsRowComplete core) := trivial
theorem Laws.Table.claCommandComplete (cluster : Nat) : Laws.Table.Statement (.claCommandComplete cluster) := trivial
theorem Laws.Table.reservationGrant (cluster : Nat) : Laws.Table.Statement (.reservationGrant cluster) := trivial
theorem Laws.Table.reservationReturn (cluster request : Nat) : Laws.Table.Statement (.reservationReturn cluster request) := trivial
theorem Laws.Table.chainCopyEntry (chain : Nat) : Laws.Table.Statement (.chainCopyEntry chain) := trivial
theorem Laws.Table.chainFillEntry (chain : Nat) : Laws.Table.Statement (.chainFillEntry chain) := trivial
theorem Laws.Table.chainCollectiveEntry (chain : Nat) (peers : List Peer) : Laws.Table.Statement (.chainCollectiveEntry chain peers) := trivial
theorem Laws.Table.chainGridLaunchEntry (chain : Nat) : Laws.Table.Statement (.chainGridLaunchEntry chain) := trivial
theorem Laws.Table.farBeat (engine : Nat) : Laws.Table.Statement (.farBeat engine) := trivial
theorem Laws.Table.chainEntryComplete (chain : Nat) : Laws.Table.Statement (.chainEntryComplete chain) := trivial
theorem Laws.Table.collectivePeerKill (chain rank : Nat) : Laws.Table.Statement (.collectivePeerKill chain rank) := trivial
theorem Laws.Table.floeLinkFail (port : Nat) : Laws.Table.Statement (.floeLinkFail port) := trivial
theorem Laws.Table.gridAdmit : Laws.Table.Statement (.gridAdmit) := trivial
theorem Laws.Table.groupPlace (grid : Nat) (cores : List Nat) : Laws.Table.Statement (.groupPlace grid cores) := trivial
theorem Laws.Table.gridComplete (grid : Nat) : Laws.Table.Statement (.gridComplete grid) := trivial
theorem Laws.Table.trapEntry (squad : Nat) : Laws.Table.Statement (.trapEntry squad) := trivial
theorem Laws.Table.addressBreakpoint (squad : Nat) (lanes : LaneMask) (k : Nat) : Laws.Table.Statement (.addressBreakpoint squad lanes k) := trivial
theorem Laws.Table.engineError (op : EngineOp) : Laws.Table.Statement (.engineError op) := trivial
theorem Laws.Table.squadEvict (squad : Nat) : Laws.Table.Statement (.squadEvict squad) := trivial
theorem Laws.Table.groupEvict (group : Nat) : Laws.Table.Statement (.groupEvict group) := trivial
theorem Laws.Table.fullSaveTimeout (squad : Nat) : Laws.Table.Statement (.fullSaveTimeout squad) := trivial
theorem Laws.Table.squadRestore (target : Restore) : Laws.Table.Statement (.squadRestore target) := trivial
theorem Laws.Table.groupDiscard (group : Nat) : Laws.Table.Statement (.groupDiscard group) := trivial
theorem Laws.Table.groupRestart (group core : Nat) : Laws.Table.Statement (.groupRestart group core) := trivial
theorem Laws.Table.sliceTurn (leader : Nat) : Laws.Table.Statement (.sliceTurn leader) := trivial
theorem Laws.Table.islandLevelChange (island : Nat) : Laws.Table.Statement (.islandLevelChange island) := trivial
theorem Laws.Table.frostEnter (island : Nat) : Laws.Table.Statement (.frostEnter island) := trivial
theorem Laws.Table.frostExit (island : Nat) : Laws.Table.Statement (.frostExit island) := trivial
theorem Laws.Table.permafrostEnter (cluster : Nat) : Laws.Table.Statement (.permafrostEnter cluster) := trivial
theorem Laws.Table.permafrostExit (cluster : Nat) (passed : Bool) : Laws.Table.Statement (.permafrostExit cluster passed) := trivial
theorem Laws.Table.powerReclaim (owner : Nat) : Laws.Table.Statement (.powerReclaim owner) := trivial
theorem Laws.Table.latencyWindow (missed : Bool) : Laws.Table.Statement (.latencyWindow missed) := trivial
theorem Laws.Table.logRecordClose (slot : Nat) : Laws.Table.Statement (.logRecordClose slot) := trivial
theorem Laws.Table.whiteout (slot : Nat) : Laws.Table.Statement (.whiteout slot) := trivial
theorem Laws.Table.eventPost (fn : HostFn) : Laws.Table.Statement (.eventPost fn) := trivial
theorem Laws.Table.powerOn (bad : BitVec 64) : Laws.Table.Statement (.powerOn bad) := trivial
theorem Laws.Table.conventionalReset : Laws.Table.Statement (.conventionalReset) := trivial
theorem Laws.Table.firmwareVerifyDone (expanders : List Nat) : Laws.Table.Statement (.firmwareVerifyDone expanders) := trivial
theorem Laws.Table.slamirTranslate (request : Nat) : Laws.Table.Statement (.slamirTranslate request) := trivial
theorem Laws.Table.loadfw (c : Command) (addr len : Nat) : Laws.Table.Statement (.loadfw c addr len) := trivial
theorem Laws.Table.setmode (c : Command) (function : Nat) (assisted : Bool) : Laws.Table.Statement (.setmode c function assisted) := trivial
theorem Laws.Table.prqans (c : Command) (entry : Nat) (fail : Bool) : Laws.Table.Statement (.prqans c entry fail) := trivial
theorem Laws.Table.admitAnswer (c : Command) (ctx queue : Nat) (refuse : Bool) : Laws.Table.Statement (.admitAnswer c ctx queue refuse) := trivial
theorem Laws.Table.powerset (c : Command) (slot clip budget : Nat) : Laws.Table.Statement (.powerset c slot clip budget) := trivial
theorem Laws.Table.xlate (c : Command) (ctx start len : Nat) : Laws.Table.Statement (.xlate c ctx start len) := trivial
theorem Laws.Table.xldone (c : Command) (request addr : Nat) : Laws.Table.Statement (.xldone c request addr) := trivial
theorem Laws.Table.debugAttach (c : Command) (ctx : Nat) : Laws.Table.Statement (.debugAttach c ctx) := trivial
theorem Laws.Table.debugDetach (c : Command) (ctx : Nat) : Laws.Table.Statement (.debugDetach c ctx) := trivial
theorem Laws.Table.debugHalt (c : Command) (ctx : Nat) : Laws.Table.Statement (.debugHalt c ctx) := trivial
theorem Laws.Table.debugResume (c : Command) (ctx : Nat) : Laws.Table.Statement (.debugResume c ctx) := trivial
theorem Laws.Table.debugSetBreakpoint (c : Command) (ctx k : Nat) (addr : BitVec 64) : Laws.Table.Statement (.debugSetBreakpoint c ctx k addr) := trivial
theorem Laws.Table.debugDump (c : Command) (ctx addr : Nat) : Laws.Table.Statement (.debugDump c ctx addr) := trivial
theorem Laws.Table.pause (c : Command) (ctx : Nat) : Laws.Table.Statement (.pause c ctx) := trivial
theorem Laws.Table.pauseRestore (c : Command) (ctx : Nat) (cores : List Nat) : Laws.Table.Statement (.pauseRestore c ctx cores) := trivial
theorem Laws.Table.floeroute (c : Command) (index fabid device : Nat) (ports : BitVec 12) : Laws.Table.Statement (.floeroute c index fabid device ports) := trivial
theorem Laws.Table.floeroutePod (c : Command) (fabid device : Nat) (ports : BitVec 12) : Laws.Table.Statement (.floeroutePod c fabid device ports) := trivial
theorem Laws.Table.comm (c : Command) (comm count addr : Nat) : Laws.Table.Statement (.comm c comm count addr) := trivial
theorem Laws.Table.health (c : Command) (addr : Nat) : Laws.Table.Statement (.health c addr) := trivial
theorem Laws.Table.demandRegister (c : Command) (ctx start len key : Nat) (watch : Bool) : Laws.Table.Statement (.demandRegister c ctx start len key watch) := trivial
theorem Laws.Table.demandRemove (c : Command) (ctx start len : Nat) : Laws.Table.Statement (.demandRemove c ctx start len) := trivial
theorem Laws.Table.frames (c : Command) (addr count : Nat) : Laws.Table.Statement (.frames c addr count) := trivial
theorem Laws.Table.ctxmake (c : Command) (number : Nat) (level : Level) (ptroot stvec : BitVec 64) : Laws.Table.Statement (.ctxmake c number level ptroot stvec) := trivial
theorem Laws.Table.ctxend (c : Command) (number : Nat) : Laws.Table.Statement (.ctxend c number) := trivial
theorem Laws.Table.hpsemRead (port : HostPort) : Laws.Table.Statement (.hpsemRead port) := trivial
theorem Laws.Table.hpsemAcquire (port : HostPort) : Laws.Table.Statement (.hpsemAcquire port) := trivial
theorem Laws.Table.hpsemRenew (port : HostPort) : Laws.Table.Statement (.hpsemRenew port) := trivial
theorem Laws.Table.hpsemRelease (port : HostPort) : Laws.Table.Statement (.hpsemRelease port) := trivial
theorem Laws.Table.hostMemoryAccess (at_ : PortAddr) (len : Nat) (data : Option (List Byte)) :
    Laws.Table.Statement (.hostMemoryAccess at_ len data) := trivial
theorem Laws.Table.managementSemaphoreLeaseExpiry : Laws.Table.Statement (.managementSemaphoreLeaseExpiry) := trivial

end Sys2Proof
end

