-- ==== Sys2Proof/Laws/Shared.lean ====
section
/-!
SUPPORT. What single shared operations can do, said once: translations and their caches, waiting events, the renamer when nothing is lacking, the line of
partition instructions.
-/
namespace Sys2Proof.Machine

/-! ### Translations (R75) -/

theorem cached_covers (l : Leaf) (c : Cache) (ctx va : Nat) : (l.cached c ctx va).covers c ctx va = true := by
  simp [TlbEntry.covers, Leaf.cached]

/-- A walk's translation is the one that its cache then gives for the address. -/
theorem fillTlb_find (tlb : List TlbEntry) (c : Cache) (ctx va : Nat) (l : Leaf) :
    (fillTlb tlb c ctx va l).find? (·.covers c ctx va) = some (l.cached c ctx va) := by
  have here : (l.cached c ctx va).inCache c = true := by simp [TlbEntry.inCache, Leaf.cached]
  have room (n : Nat) (h : c.room = some n) : ∃ k, n = k + 1 := by
    unfold Cache.room at h
    split at h
    · exact ⟨255, (Option.some.inj h).symm⟩
    · split at h
      · exact ⟨2047, (Option.some.inj h).symm⟩
      · cases h
  unfold fillTlb
  cases hr : c.room with
  | none => simp [cached_covers]
  | some n =>
    obtain ⟨k, rfl⟩ := room n hr
    simp only [List.filter_cons, here, if_true]
    split <;> simp [List.take, cached_covers]

/-- A translation changes the caches alone. -/
theorem translate_state (s : State) (c : Cache) (ctx va : Nat) (need : Need) :
    ∃ tlb, (translate s c ctx va need).2 = { s with tlb := tlb } := by
  have walked : ∃ tlb, (walkIn s c ctx va need).2 = { s with tlb := tlb } := by
    unfold walkIn
    split
    · exact ⟨_, rfl⟩
    · exact ⟨s.tlb, rfl⟩
  unfold translate
  split
  · dsimp only
    split
    · exact ⟨s.tlb, rfl⟩
    · exact walked
  · exact walked

/-! ### Waiting events (R287) -/

/-- Exactly one more event waits. -/
theorem queueEvent_mem (e x : TrapEvent) (l : List TrapEvent) : x ∈ queueEvent e l ↔ x = e ∨ x ∈ l := by
  induction l with
  | nil => simp [queueEvent]
  | cons y ys ih =>
    simp only [queueEvent]
    split
    · simp
    · simp only [List.mem_cons, ih]; exact or_left_comm

theorem queueEvent_length (e : TrapEvent) (l : List TrapEvent) : (queueEvent e l).length = l.length + 1 := by
  induction l with
  | nil => rfl
  | cons y ys ih =>
    simp only [queueEvent]
    split
    · rfl
    · simp [ih]

/-! ### The renamer (R173) -/

/-- With every name at hand the renamer only notes what was used. -/
theorem nameRegs_at_hand (s : State) (key : Nat) (q : Squad) (n : Needs) (hb : n.back q.files = []) (hf : n.fresh q = []) :
    nameRegs s key q n = .ready (s.modSquad key fun q => q.used (renamedNames (n.reads ++ n.writes)) (renamedNames n.writes)) := by
  simp [nameRegs, hb, hf]

/-! ### The line of partition instructions (R319) -/

/-- Whoever stands in the line keeps its place, and who joins comes last. -/
theorem standIn_queue (s : State) (key : Nat) :
    (standIn s key).partQueue = if key ∈ partLine s then partLine s else partLine s ++ [key] := by
  simp [standIn]

end Sys2Proof.Machine
end

