-- ==== Sys2Proof/Laws/State.lean ====
section
/-!
SUPPORT. What each named update of the state leaves of every field and of every reader: all but its own stand. Each is by unfolding; no later proof
unfolds a record update.
-/
namespace Sys2Proof.Machine

/-! ### modSquad -/

@[simp] theorem State.modSquad_agenda (s : State) (k : Nat) (f : Squad → Squad) : (s.modSquad k f).agenda = s.agenda := rfl
@[simp] theorem State.modSquad_issuing (s : State) (k : Nat) (f : Squad → Squad) : (s.modSquad k f).issuing = s.issuing := rfl
@[simp] theorem State.modSquad_free (s : State) (k : Nat) (f : Squad → Squad) : (s.modSquad k f).free = s.free := rfl
@[simp] theorem State.modSquad_nextId (s : State) (k : Nat) (f : Squad → Squad) : (s.modSquad k f).nextId = s.nextId := rfl
@[simp] theorem State.modSquad_cycle (s : State) (k : Nat) (f : Squad → Squad) : (s.modSquad k f).cycle = s.cycle := rfl
@[simp] theorem State.modSquad_ns (s : State) (k : Nat) (f : Squad → Squad) : (s.modSquad k f).ns = s.ns := rfl
@[simp] theorem State.modSquad_mem (s : State) (k : Nat) (f : Squad → Squad) : (s.modSquad k f).mem = s.mem := rfl
@[simp] theorem State.modSquad_unitKeys (s : State) (k : Nat) (f : Squad → Squad) : (s.modSquad k f).unitKeys = s.unitKeys := rfl
@[simp] theorem State.modSquad_clearings (s : State) (k : Nat) (f : Squad → Squad) : (s.modSquad k f).clearings = s.clearings := rfl
@[simp] theorem State.modSquad_keyring (s : State) (k : Nat) (f : Squad → Squad) : (s.modSquad k f).keyring = s.keyring := rfl
@[simp] theorem State.modSquad_spoiled (s : State) (k : Nat) (f : Squad → Squad) : (s.modSquad k f).spoiled = s.spoiled := rfl
@[simp] theorem State.modSquad_outcopies (s : State) (k : Nat) (f : Squad → Squad) : (s.modSquad k f).outcopies = s.outcopies := rfl
@[simp] theorem State.modSquad_stale (s : State) (k : Nat) (f : Squad → Squad) : (s.modSquad k f).stale = s.stale := rfl
@[simp] theorem State.modSquad_icinvs (s : State) (k : Nat) (f : Squad → Squad) : (s.modSquad k f).icinvs = s.icinvs := rfl
@[simp] theorem State.modSquad_codeRelease (s : State) (k : Nat) (f : Squad → Squad) : (s.modSquad k f).codeRelease = s.codeRelease := rfl
@[simp] theorem State.modSquad_tlb (s : State) (k : Nat) (f : Squad → Squad) : (s.modSquad k f).tlb = s.tlb := rfl
@[simp] theorem State.modSquad_qcount (s : State) (k : Nat) (f : Squad → Squad) : (s.modSquad k f).qcount = s.qcount := rfl
@[simp] theorem State.modSquad_moraine (s : State) (k : Nat) (f : Squad → Squad) : (s.modSquad k f).moraine = s.moraine := rfl
@[simp] theorem State.modSquad_requests (s : State) (k : Nat) (f : Squad → Squad) : (s.modSquad k f).requests = s.requests := rfl
@[simp] theorem State.modSquad_refused (s : State) (k : Nat) (f : Squad → Squad) : (s.modSquad k f).refused = s.refused := rfl
@[simp] theorem State.modSquad_keys (s : State) (k : Nat) (f : Squad → Squad) : (s.modSquad k f).keys = s.keys := rfl
@[simp] theorem State.modSquad_parts (s : State) (k : Nat) (f : Squad → Squad) : (s.modSquad k f).parts = s.parts := rfl
@[simp] theorem State.modSquad_ctxs (s : State) (k : Nat) (f : Squad → Squad) : (s.modSquad k f).ctxs = s.ctxs := rfl
@[simp] theorem State.modSquad_grids (s : State) (k : Nat) (f : Squad → Squad) : (s.modSquad k f).grids = s.grids := rfl
@[simp] theorem State.modSquad_spans (s : State) (k : Nat) (f : Squad → Squad) : (s.modSquad k f).spans = s.spans := rfl
@[simp] theorem State.modSquad_groups (s : State) (k : Nat) (f : Squad → Squad) : (s.modSquad k f).groups = s.groups := rfl
@[simp] theorem State.modSquad_cores (s : State) (k : Nat) (f : Squad → Squad) : (s.modSquad k f).cores = s.cores := rfl
@[simp] theorem State.modSquad_clusters (s : State) (k : Nat) (f : Squad → Squad) : (s.modSquad k f).clusters = s.clusters := rfl
@[simp] theorem State.modSquad_islands (s : State) (k : Nat) (f : Squad → Squad) : (s.modSquad k f).islands = s.islands := rfl
@[simp] theorem State.modSquad_chains (s : State) (k : Nat) (f : Squad → Squad) : (s.modSquad k f).chains = s.chains := rfl
@[simp] theorem State.modSquad_rounds (s : State) (k : Nat) (f : Squad → Squad) : (s.modSquad k f).rounds = s.rounds := rfl
@[simp] theorem State.modSquad_sharedLost (s : State) (k : Nat) (f : Squad → Squad) : (s.modSquad k f).sharedLost = s.sharedLost := rfl
@[simp] theorem State.modSquad_dieSync (s : State) (k : Nat) (f : Squad → Squad) : (s.modSquad k f).dieSync = s.dieSync := rfl
@[simp] theorem State.modSquad_dieLost (s : State) (k : Nat) (f : Squad → Squad) : (s.modSquad k f).dieLost = s.dieLost := rfl
@[simp] theorem State.modSquad_fns (s : State) (k : Nat) (f : Squad → Squad) : (s.modSquad k f).fns = s.fns := rfl
@[simp] theorem State.modSquad_delayed (s : State) (k : Nat) (f : Squad → Squad) : (s.modSquad k f).delayed = s.delayed := rfl
@[simp] theorem State.modSquad_firmware (s : State) (k : Nat) (f : Squad → Squad) : (s.modSquad k f).firmware = s.firmware := rfl
@[simp] theorem State.modSquad_firn (s : State) (k : Nat) (f : Squad → Squad) : (s.modSquad k f).firn = s.firn := rfl
@[simp] theorem State.modSquad_transReqs (s : State) (k : Nat) (f : Squad → Squad) : (s.modSquad k f).transReqs = s.transReqs := rfl
@[simp] theorem State.modSquad_sem (s : State) (k : Nat) (f : Squad → Squad) : (s.modSquad k f).sem = s.sem := rfl
@[simp] theorem State.modSquad_routes (s : State) (k : Nat) (f : Squad → Squad) : (s.modSquad k f).routes = s.routes := rfl
@[simp] theorem State.modSquad_podNumber (s : State) (k : Nat) (f : Squad → Squad) : (s.modSquad k f).podNumber = s.podNumber := rfl
@[simp] theorem State.modSquad_comms (s : State) (k : Nat) (f : Squad → Squad) : (s.modSquad k f).comms = s.comms := rfl
@[simp] theorem State.modSquad_spares (s : State) (k : Nat) (f : Squad → Squad) : (s.modSquad k f).spares = s.spares := rfl
@[simp] theorem State.modSquad_retirements (s : State) (k : Nat) (f : Squad → Squad) : (s.modSquad k f).retirements = s.retirements := rfl
@[simp] theorem State.modSquad_retiredClusters (s : State) (k : Nat) (f : Squad → Squad) : (s.modSquad k f).retiredClusters = s.retiredClusters := rfl
@[simp] theorem State.modSquad_powerCap (s : State) (k : Nat) (f : Squad → Squad) : (s.modSquad k f).powerCap = s.powerCap := rfl
@[simp] theorem State.modSquad_windowEnd (s : State) (k : Nat) (f : Squad → Squad) : (s.modSquad k f).windowEnd = s.windowEnd := rfl
@[simp] theorem State.modSquad_partQueue (s : State) (k : Nat) (f : Squad → Squad) : (s.modSquad k f).partQueue = s.partQueue := rfl
@[simp] theorem State.modSquad_doorbells (s : State) (k : Nat) (f : Squad → Squad) : (s.modSquad k f).doorbells = s.doorbells := rfl
@[simp] theorem State.modSquad_cxlMem (s : State) (k : Nat) (f : Squad → Squad) : (s.modSquad k f).cxlMem = s.cxlMem := rfl
@[simp] theorem State.modSquad_hostReply (s : State) (k : Nat) (f : Squad → Squad) : (s.modSquad k f).hostReply = s.hostReply := rfl
@[simp] theorem State.modSquad_read_group (s : State) (k j : Nat) (f : Squad → Squad) : (s.modSquad k f).group? j = s.group? j := rfl
@[simp] theorem State.modSquad_read_grid (s : State) (k j : Nat) (f : Squad → Squad) : (s.modSquad k f).grid? j = s.grid? j := rfl
@[simp] theorem State.modSquad_read_span (s : State) (k j : Nat) (f : Squad → Squad) : (s.modSquad k f).span? j = s.span? j := rfl
@[simp] theorem State.modSquad_read_ctx (s : State) (k j : Nat) (f : Squad → Squad) : (s.modSquad k f).ctx? j = s.ctx? j := rfl
@[simp] theorem State.modSquad_read_part (s : State) (k j : Nat) (f : Squad → Squad) : (s.modSquad k f).part j = s.part j := rfl
@[simp] theorem State.modSquad_read_core (s : State) (k j : Nat) (f : Squad → Squad) : (s.modSquad k f).core j = s.core j := rfl
@[simp] theorem State.modSquad_read_cluster (s : State) (k j : Nat) (f : Squad → Squad) : (s.modSquad k f).cluster j = s.cluster j := rfl
@[simp] theorem State.modSquad_read_island (s : State) (k j : Nat) (f : Squad → Squad) : (s.modSquad k f).island j = s.island j := rfl
@[simp] theorem State.modSquad_read_chain (s : State) (k j : Nat) (f : Squad → Squad) : (s.modSquad k f).chain j = s.chain j := rfl
@[simp] theorem State.modSquad_read_key (s : State) (k j : Nat) (f : Squad → Squad) : (s.modSquad k f).key j = s.key j := rfl
@[simp] theorem State.modSquad_read_fn (s : State) (k j : Nat) (f : Squad → Squad) : (s.modSquad k f).fn j = s.fn j := rfl
theorem State.modSquad_at (s : State) (k j : Nat) (f : Squad → Squad) :
    (s.modSquad k f).squad? j = if j = k then (s.squad? k).map f else s.squad? j := mapGet_mod ..

/-! ### modGroup -/

@[simp] theorem State.modGroup_agenda (s : State) (k : Nat) (f : Group → Group) : (s.modGroup k f).agenda = s.agenda := rfl
@[simp] theorem State.modGroup_issuing (s : State) (k : Nat) (f : Group → Group) : (s.modGroup k f).issuing = s.issuing := rfl
@[simp] theorem State.modGroup_free (s : State) (k : Nat) (f : Group → Group) : (s.modGroup k f).free = s.free := rfl
@[simp] theorem State.modGroup_nextId (s : State) (k : Nat) (f : Group → Group) : (s.modGroup k f).nextId = s.nextId := rfl
@[simp] theorem State.modGroup_cycle (s : State) (k : Nat) (f : Group → Group) : (s.modGroup k f).cycle = s.cycle := rfl
@[simp] theorem State.modGroup_ns (s : State) (k : Nat) (f : Group → Group) : (s.modGroup k f).ns = s.ns := rfl
@[simp] theorem State.modGroup_mem (s : State) (k : Nat) (f : Group → Group) : (s.modGroup k f).mem = s.mem := rfl
@[simp] theorem State.modGroup_unitKeys (s : State) (k : Nat) (f : Group → Group) : (s.modGroup k f).unitKeys = s.unitKeys := rfl
@[simp] theorem State.modGroup_clearings (s : State) (k : Nat) (f : Group → Group) : (s.modGroup k f).clearings = s.clearings := rfl
@[simp] theorem State.modGroup_keyring (s : State) (k : Nat) (f : Group → Group) : (s.modGroup k f).keyring = s.keyring := rfl
@[simp] theorem State.modGroup_spoiled (s : State) (k : Nat) (f : Group → Group) : (s.modGroup k f).spoiled = s.spoiled := rfl
@[simp] theorem State.modGroup_outcopies (s : State) (k : Nat) (f : Group → Group) : (s.modGroup k f).outcopies = s.outcopies := rfl
@[simp] theorem State.modGroup_stale (s : State) (k : Nat) (f : Group → Group) : (s.modGroup k f).stale = s.stale := rfl
@[simp] theorem State.modGroup_icinvs (s : State) (k : Nat) (f : Group → Group) : (s.modGroup k f).icinvs = s.icinvs := rfl
@[simp] theorem State.modGroup_codeRelease (s : State) (k : Nat) (f : Group → Group) : (s.modGroup k f).codeRelease = s.codeRelease := rfl
@[simp] theorem State.modGroup_tlb (s : State) (k : Nat) (f : Group → Group) : (s.modGroup k f).tlb = s.tlb := rfl
@[simp] theorem State.modGroup_qcount (s : State) (k : Nat) (f : Group → Group) : (s.modGroup k f).qcount = s.qcount := rfl
@[simp] theorem State.modGroup_moraine (s : State) (k : Nat) (f : Group → Group) : (s.modGroup k f).moraine = s.moraine := rfl
@[simp] theorem State.modGroup_requests (s : State) (k : Nat) (f : Group → Group) : (s.modGroup k f).requests = s.requests := rfl
@[simp] theorem State.modGroup_refused (s : State) (k : Nat) (f : Group → Group) : (s.modGroup k f).refused = s.refused := rfl
@[simp] theorem State.modGroup_keys (s : State) (k : Nat) (f : Group → Group) : (s.modGroup k f).keys = s.keys := rfl
@[simp] theorem State.modGroup_parts (s : State) (k : Nat) (f : Group → Group) : (s.modGroup k f).parts = s.parts := rfl
@[simp] theorem State.modGroup_ctxs (s : State) (k : Nat) (f : Group → Group) : (s.modGroup k f).ctxs = s.ctxs := rfl
@[simp] theorem State.modGroup_grids (s : State) (k : Nat) (f : Group → Group) : (s.modGroup k f).grids = s.grids := rfl
@[simp] theorem State.modGroup_spans (s : State) (k : Nat) (f : Group → Group) : (s.modGroup k f).spans = s.spans := rfl
@[simp] theorem State.modGroup_squads (s : State) (k : Nat) (f : Group → Group) : (s.modGroup k f).squads = s.squads := rfl
@[simp] theorem State.modGroup_cores (s : State) (k : Nat) (f : Group → Group) : (s.modGroup k f).cores = s.cores := rfl
@[simp] theorem State.modGroup_clusters (s : State) (k : Nat) (f : Group → Group) : (s.modGroup k f).clusters = s.clusters := rfl
@[simp] theorem State.modGroup_islands (s : State) (k : Nat) (f : Group → Group) : (s.modGroup k f).islands = s.islands := rfl
@[simp] theorem State.modGroup_chains (s : State) (k : Nat) (f : Group → Group) : (s.modGroup k f).chains = s.chains := rfl
@[simp] theorem State.modGroup_rounds (s : State) (k : Nat) (f : Group → Group) : (s.modGroup k f).rounds = s.rounds := rfl
@[simp] theorem State.modGroup_sharedLost (s : State) (k : Nat) (f : Group → Group) : (s.modGroup k f).sharedLost = s.sharedLost := rfl
@[simp] theorem State.modGroup_dieSync (s : State) (k : Nat) (f : Group → Group) : (s.modGroup k f).dieSync = s.dieSync := rfl
@[simp] theorem State.modGroup_dieLost (s : State) (k : Nat) (f : Group → Group) : (s.modGroup k f).dieLost = s.dieLost := rfl
@[simp] theorem State.modGroup_fns (s : State) (k : Nat) (f : Group → Group) : (s.modGroup k f).fns = s.fns := rfl
@[simp] theorem State.modGroup_delayed (s : State) (k : Nat) (f : Group → Group) : (s.modGroup k f).delayed = s.delayed := rfl
@[simp] theorem State.modGroup_firmware (s : State) (k : Nat) (f : Group → Group) : (s.modGroup k f).firmware = s.firmware := rfl
@[simp] theorem State.modGroup_firn (s : State) (k : Nat) (f : Group → Group) : (s.modGroup k f).firn = s.firn := rfl
@[simp] theorem State.modGroup_transReqs (s : State) (k : Nat) (f : Group → Group) : (s.modGroup k f).transReqs = s.transReqs := rfl
@[simp] theorem State.modGroup_sem (s : State) (k : Nat) (f : Group → Group) : (s.modGroup k f).sem = s.sem := rfl
@[simp] theorem State.modGroup_routes (s : State) (k : Nat) (f : Group → Group) : (s.modGroup k f).routes = s.routes := rfl
@[simp] theorem State.modGroup_podNumber (s : State) (k : Nat) (f : Group → Group) : (s.modGroup k f).podNumber = s.podNumber := rfl
@[simp] theorem State.modGroup_comms (s : State) (k : Nat) (f : Group → Group) : (s.modGroup k f).comms = s.comms := rfl
@[simp] theorem State.modGroup_spares (s : State) (k : Nat) (f : Group → Group) : (s.modGroup k f).spares = s.spares := rfl
@[simp] theorem State.modGroup_retirements (s : State) (k : Nat) (f : Group → Group) : (s.modGroup k f).retirements = s.retirements := rfl
@[simp] theorem State.modGroup_retiredClusters (s : State) (k : Nat) (f : Group → Group) : (s.modGroup k f).retiredClusters = s.retiredClusters := rfl
@[simp] theorem State.modGroup_powerCap (s : State) (k : Nat) (f : Group → Group) : (s.modGroup k f).powerCap = s.powerCap := rfl
@[simp] theorem State.modGroup_windowEnd (s : State) (k : Nat) (f : Group → Group) : (s.modGroup k f).windowEnd = s.windowEnd := rfl
@[simp] theorem State.modGroup_partQueue (s : State) (k : Nat) (f : Group → Group) : (s.modGroup k f).partQueue = s.partQueue := rfl
@[simp] theorem State.modGroup_doorbells (s : State) (k : Nat) (f : Group → Group) : (s.modGroup k f).doorbells = s.doorbells := rfl
@[simp] theorem State.modGroup_cxlMem (s : State) (k : Nat) (f : Group → Group) : (s.modGroup k f).cxlMem = s.cxlMem := rfl
@[simp] theorem State.modGroup_hostReply (s : State) (k : Nat) (f : Group → Group) : (s.modGroup k f).hostReply = s.hostReply := rfl
@[simp] theorem State.modGroup_read_squad (s : State) (k j : Nat) (f : Group → Group) : (s.modGroup k f).squad? j = s.squad? j := rfl
@[simp] theorem State.modGroup_read_grid (s : State) (k j : Nat) (f : Group → Group) : (s.modGroup k f).grid? j = s.grid? j := rfl
@[simp] theorem State.modGroup_read_span (s : State) (k j : Nat) (f : Group → Group) : (s.modGroup k f).span? j = s.span? j := rfl
@[simp] theorem State.modGroup_read_ctx (s : State) (k j : Nat) (f : Group → Group) : (s.modGroup k f).ctx? j = s.ctx? j := rfl
@[simp] theorem State.modGroup_read_part (s : State) (k j : Nat) (f : Group → Group) : (s.modGroup k f).part j = s.part j := rfl
@[simp] theorem State.modGroup_read_core (s : State) (k j : Nat) (f : Group → Group) : (s.modGroup k f).core j = s.core j := rfl
@[simp] theorem State.modGroup_read_cluster (s : State) (k j : Nat) (f : Group → Group) : (s.modGroup k f).cluster j = s.cluster j := rfl
@[simp] theorem State.modGroup_read_island (s : State) (k j : Nat) (f : Group → Group) : (s.modGroup k f).island j = s.island j := rfl
@[simp] theorem State.modGroup_read_chain (s : State) (k j : Nat) (f : Group → Group) : (s.modGroup k f).chain j = s.chain j := rfl
@[simp] theorem State.modGroup_read_key (s : State) (k j : Nat) (f : Group → Group) : (s.modGroup k f).key j = s.key j := rfl
@[simp] theorem State.modGroup_read_fn (s : State) (k j : Nat) (f : Group → Group) : (s.modGroup k f).fn j = s.fn j := rfl
theorem State.modGroup_at (s : State) (k j : Nat) (f : Group → Group) :
    (s.modGroup k f).group? j = if j = k then (s.group? k).map f else s.group? j := mapGet_mod ..

/-! ### modGrid -/

@[simp] theorem State.modGrid_agenda (s : State) (k : Nat) (f : Grid → Grid) : (s.modGrid k f).agenda = s.agenda := rfl
@[simp] theorem State.modGrid_issuing (s : State) (k : Nat) (f : Grid → Grid) : (s.modGrid k f).issuing = s.issuing := rfl
@[simp] theorem State.modGrid_free (s : State) (k : Nat) (f : Grid → Grid) : (s.modGrid k f).free = s.free := rfl
@[simp] theorem State.modGrid_nextId (s : State) (k : Nat) (f : Grid → Grid) : (s.modGrid k f).nextId = s.nextId := rfl
@[simp] theorem State.modGrid_cycle (s : State) (k : Nat) (f : Grid → Grid) : (s.modGrid k f).cycle = s.cycle := rfl
@[simp] theorem State.modGrid_ns (s : State) (k : Nat) (f : Grid → Grid) : (s.modGrid k f).ns = s.ns := rfl
@[simp] theorem State.modGrid_mem (s : State) (k : Nat) (f : Grid → Grid) : (s.modGrid k f).mem = s.mem := rfl
@[simp] theorem State.modGrid_unitKeys (s : State) (k : Nat) (f : Grid → Grid) : (s.modGrid k f).unitKeys = s.unitKeys := rfl
@[simp] theorem State.modGrid_clearings (s : State) (k : Nat) (f : Grid → Grid) : (s.modGrid k f).clearings = s.clearings := rfl
@[simp] theorem State.modGrid_keyring (s : State) (k : Nat) (f : Grid → Grid) : (s.modGrid k f).keyring = s.keyring := rfl
@[simp] theorem State.modGrid_spoiled (s : State) (k : Nat) (f : Grid → Grid) : (s.modGrid k f).spoiled = s.spoiled := rfl
@[simp] theorem State.modGrid_outcopies (s : State) (k : Nat) (f : Grid → Grid) : (s.modGrid k f).outcopies = s.outcopies := rfl
@[simp] theorem State.modGrid_stale (s : State) (k : Nat) (f : Grid → Grid) : (s.modGrid k f).stale = s.stale := rfl
@[simp] theorem State.modGrid_icinvs (s : State) (k : Nat) (f : Grid → Grid) : (s.modGrid k f).icinvs = s.icinvs := rfl
@[simp] theorem State.modGrid_codeRelease (s : State) (k : Nat) (f : Grid → Grid) : (s.modGrid k f).codeRelease = s.codeRelease := rfl
@[simp] theorem State.modGrid_tlb (s : State) (k : Nat) (f : Grid → Grid) : (s.modGrid k f).tlb = s.tlb := rfl
@[simp] theorem State.modGrid_qcount (s : State) (k : Nat) (f : Grid → Grid) : (s.modGrid k f).qcount = s.qcount := rfl
@[simp] theorem State.modGrid_moraine (s : State) (k : Nat) (f : Grid → Grid) : (s.modGrid k f).moraine = s.moraine := rfl
@[simp] theorem State.modGrid_requests (s : State) (k : Nat) (f : Grid → Grid) : (s.modGrid k f).requests = s.requests := rfl
@[simp] theorem State.modGrid_refused (s : State) (k : Nat) (f : Grid → Grid) : (s.modGrid k f).refused = s.refused := rfl
@[simp] theorem State.modGrid_keys (s : State) (k : Nat) (f : Grid → Grid) : (s.modGrid k f).keys = s.keys := rfl
@[simp] theorem State.modGrid_parts (s : State) (k : Nat) (f : Grid → Grid) : (s.modGrid k f).parts = s.parts := rfl
@[simp] theorem State.modGrid_ctxs (s : State) (k : Nat) (f : Grid → Grid) : (s.modGrid k f).ctxs = s.ctxs := rfl
@[simp] theorem State.modGrid_spans (s : State) (k : Nat) (f : Grid → Grid) : (s.modGrid k f).spans = s.spans := rfl
@[simp] theorem State.modGrid_groups (s : State) (k : Nat) (f : Grid → Grid) : (s.modGrid k f).groups = s.groups := rfl
@[simp] theorem State.modGrid_squads (s : State) (k : Nat) (f : Grid → Grid) : (s.modGrid k f).squads = s.squads := rfl
@[simp] theorem State.modGrid_cores (s : State) (k : Nat) (f : Grid → Grid) : (s.modGrid k f).cores = s.cores := rfl
@[simp] theorem State.modGrid_clusters (s : State) (k : Nat) (f : Grid → Grid) : (s.modGrid k f).clusters = s.clusters := rfl
@[simp] theorem State.modGrid_islands (s : State) (k : Nat) (f : Grid → Grid) : (s.modGrid k f).islands = s.islands := rfl
@[simp] theorem State.modGrid_chains (s : State) (k : Nat) (f : Grid → Grid) : (s.modGrid k f).chains = s.chains := rfl
@[simp] theorem State.modGrid_rounds (s : State) (k : Nat) (f : Grid → Grid) : (s.modGrid k f).rounds = s.rounds := rfl
@[simp] theorem State.modGrid_sharedLost (s : State) (k : Nat) (f : Grid → Grid) : (s.modGrid k f).sharedLost = s.sharedLost := rfl
@[simp] theorem State.modGrid_dieSync (s : State) (k : Nat) (f : Grid → Grid) : (s.modGrid k f).dieSync = s.dieSync := rfl
@[simp] theorem State.modGrid_dieLost (s : State) (k : Nat) (f : Grid → Grid) : (s.modGrid k f).dieLost = s.dieLost := rfl
@[simp] theorem State.modGrid_fns (s : State) (k : Nat) (f : Grid → Grid) : (s.modGrid k f).fns = s.fns := rfl
@[simp] theorem State.modGrid_delayed (s : State) (k : Nat) (f : Grid → Grid) : (s.modGrid k f).delayed = s.delayed := rfl
@[simp] theorem State.modGrid_firmware (s : State) (k : Nat) (f : Grid → Grid) : (s.modGrid k f).firmware = s.firmware := rfl
@[simp] theorem State.modGrid_firn (s : State) (k : Nat) (f : Grid → Grid) : (s.modGrid k f).firn = s.firn := rfl
@[simp] theorem State.modGrid_transReqs (s : State) (k : Nat) (f : Grid → Grid) : (s.modGrid k f).transReqs = s.transReqs := rfl
@[simp] theorem State.modGrid_sem (s : State) (k : Nat) (f : Grid → Grid) : (s.modGrid k f).sem = s.sem := rfl
@[simp] theorem State.modGrid_routes (s : State) (k : Nat) (f : Grid → Grid) : (s.modGrid k f).routes = s.routes := rfl
@[simp] theorem State.modGrid_podNumber (s : State) (k : Nat) (f : Grid → Grid) : (s.modGrid k f).podNumber = s.podNumber := rfl
@[simp] theorem State.modGrid_comms (s : State) (k : Nat) (f : Grid → Grid) : (s.modGrid k f).comms = s.comms := rfl
@[simp] theorem State.modGrid_spares (s : State) (k : Nat) (f : Grid → Grid) : (s.modGrid k f).spares = s.spares := rfl
@[simp] theorem State.modGrid_retirements (s : State) (k : Nat) (f : Grid → Grid) : (s.modGrid k f).retirements = s.retirements := rfl
@[simp] theorem State.modGrid_retiredClusters (s : State) (k : Nat) (f : Grid → Grid) : (s.modGrid k f).retiredClusters = s.retiredClusters := rfl
@[simp] theorem State.modGrid_powerCap (s : State) (k : Nat) (f : Grid → Grid) : (s.modGrid k f).powerCap = s.powerCap := rfl
@[simp] theorem State.modGrid_windowEnd (s : State) (k : Nat) (f : Grid → Grid) : (s.modGrid k f).windowEnd = s.windowEnd := rfl
@[simp] theorem State.modGrid_partQueue (s : State) (k : Nat) (f : Grid → Grid) : (s.modGrid k f).partQueue = s.partQueue := rfl
@[simp] theorem State.modGrid_doorbells (s : State) (k : Nat) (f : Grid → Grid) : (s.modGrid k f).doorbells = s.doorbells := rfl
@[simp] theorem State.modGrid_cxlMem (s : State) (k : Nat) (f : Grid → Grid) : (s.modGrid k f).cxlMem = s.cxlMem := rfl
@[simp] theorem State.modGrid_hostReply (s : State) (k : Nat) (f : Grid → Grid) : (s.modGrid k f).hostReply = s.hostReply := rfl
@[simp] theorem State.modGrid_read_squad (s : State) (k j : Nat) (f : Grid → Grid) : (s.modGrid k f).squad? j = s.squad? j := rfl
@[simp] theorem State.modGrid_read_group (s : State) (k j : Nat) (f : Grid → Grid) : (s.modGrid k f).group? j = s.group? j := rfl
@[simp] theorem State.modGrid_read_span (s : State) (k j : Nat) (f : Grid → Grid) : (s.modGrid k f).span? j = s.span? j := rfl
@[simp] theorem State.modGrid_read_ctx (s : State) (k j : Nat) (f : Grid → Grid) : (s.modGrid k f).ctx? j = s.ctx? j := rfl
@[simp] theorem State.modGrid_read_part (s : State) (k j : Nat) (f : Grid → Grid) : (s.modGrid k f).part j = s.part j := rfl
@[simp] theorem State.modGrid_read_core (s : State) (k j : Nat) (f : Grid → Grid) : (s.modGrid k f).core j = s.core j := rfl
@[simp] theorem State.modGrid_read_cluster (s : State) (k j : Nat) (f : Grid → Grid) : (s.modGrid k f).cluster j = s.cluster j := rfl
@[simp] theorem State.modGrid_read_island (s : State) (k j : Nat) (f : Grid → Grid) : (s.modGrid k f).island j = s.island j := rfl
@[simp] theorem State.modGrid_read_chain (s : State) (k j : Nat) (f : Grid → Grid) : (s.modGrid k f).chain j = s.chain j := rfl
@[simp] theorem State.modGrid_read_key (s : State) (k j : Nat) (f : Grid → Grid) : (s.modGrid k f).key j = s.key j := rfl
@[simp] theorem State.modGrid_read_fn (s : State) (k j : Nat) (f : Grid → Grid) : (s.modGrid k f).fn j = s.fn j := rfl
theorem State.modGrid_at (s : State) (k j : Nat) (f : Grid → Grid) :
    (s.modGrid k f).grid? j = if j = k then (s.grid? k).map f else s.grid? j := mapGet_mod ..

/-! ### modSpan -/

@[simp] theorem State.modSpan_agenda (s : State) (k : Nat) (f : Span → Span) : (s.modSpan k f).agenda = s.agenda := rfl
@[simp] theorem State.modSpan_issuing (s : State) (k : Nat) (f : Span → Span) : (s.modSpan k f).issuing = s.issuing := rfl
@[simp] theorem State.modSpan_free (s : State) (k : Nat) (f : Span → Span) : (s.modSpan k f).free = s.free := rfl
@[simp] theorem State.modSpan_nextId (s : State) (k : Nat) (f : Span → Span) : (s.modSpan k f).nextId = s.nextId := rfl
@[simp] theorem State.modSpan_cycle (s : State) (k : Nat) (f : Span → Span) : (s.modSpan k f).cycle = s.cycle := rfl
@[simp] theorem State.modSpan_ns (s : State) (k : Nat) (f : Span → Span) : (s.modSpan k f).ns = s.ns := rfl
@[simp] theorem State.modSpan_mem (s : State) (k : Nat) (f : Span → Span) : (s.modSpan k f).mem = s.mem := rfl
@[simp] theorem State.modSpan_unitKeys (s : State) (k : Nat) (f : Span → Span) : (s.modSpan k f).unitKeys = s.unitKeys := rfl
@[simp] theorem State.modSpan_clearings (s : State) (k : Nat) (f : Span → Span) : (s.modSpan k f).clearings = s.clearings := rfl
@[simp] theorem State.modSpan_keyring (s : State) (k : Nat) (f : Span → Span) : (s.modSpan k f).keyring = s.keyring := rfl
@[simp] theorem State.modSpan_spoiled (s : State) (k : Nat) (f : Span → Span) : (s.modSpan k f).spoiled = s.spoiled := rfl
@[simp] theorem State.modSpan_outcopies (s : State) (k : Nat) (f : Span → Span) : (s.modSpan k f).outcopies = s.outcopies := rfl
@[simp] theorem State.modSpan_stale (s : State) (k : Nat) (f : Span → Span) : (s.modSpan k f).stale = s.stale := rfl
@[simp] theorem State.modSpan_icinvs (s : State) (k : Nat) (f : Span → Span) : (s.modSpan k f).icinvs = s.icinvs := rfl
@[simp] theorem State.modSpan_codeRelease (s : State) (k : Nat) (f : Span → Span) : (s.modSpan k f).codeRelease = s.codeRelease := rfl
@[simp] theorem State.modSpan_tlb (s : State) (k : Nat) (f : Span → Span) : (s.modSpan k f).tlb = s.tlb := rfl
@[simp] theorem State.modSpan_qcount (s : State) (k : Nat) (f : Span → Span) : (s.modSpan k f).qcount = s.qcount := rfl
@[simp] theorem State.modSpan_moraine (s : State) (k : Nat) (f : Span → Span) : (s.modSpan k f).moraine = s.moraine := rfl
@[simp] theorem State.modSpan_requests (s : State) (k : Nat) (f : Span → Span) : (s.modSpan k f).requests = s.requests := rfl
@[simp] theorem State.modSpan_refused (s : State) (k : Nat) (f : Span → Span) : (s.modSpan k f).refused = s.refused := rfl
@[simp] theorem State.modSpan_keys (s : State) (k : Nat) (f : Span → Span) : (s.modSpan k f).keys = s.keys := rfl
@[simp] theorem State.modSpan_parts (s : State) (k : Nat) (f : Span → Span) : (s.modSpan k f).parts = s.parts := rfl
@[simp] theorem State.modSpan_ctxs (s : State) (k : Nat) (f : Span → Span) : (s.modSpan k f).ctxs = s.ctxs := rfl
@[simp] theorem State.modSpan_grids (s : State) (k : Nat) (f : Span → Span) : (s.modSpan k f).grids = s.grids := rfl
@[simp] theorem State.modSpan_groups (s : State) (k : Nat) (f : Span → Span) : (s.modSpan k f).groups = s.groups := rfl
@[simp] theorem State.modSpan_squads (s : State) (k : Nat) (f : Span → Span) : (s.modSpan k f).squads = s.squads := rfl
@[simp] theorem State.modSpan_cores (s : State) (k : Nat) (f : Span → Span) : (s.modSpan k f).cores = s.cores := rfl
@[simp] theorem State.modSpan_clusters (s : State) (k : Nat) (f : Span → Span) : (s.modSpan k f).clusters = s.clusters := rfl
@[simp] theorem State.modSpan_islands (s : State) (k : Nat) (f : Span → Span) : (s.modSpan k f).islands = s.islands := rfl
@[simp] theorem State.modSpan_chains (s : State) (k : Nat) (f : Span → Span) : (s.modSpan k f).chains = s.chains := rfl
@[simp] theorem State.modSpan_rounds (s : State) (k : Nat) (f : Span → Span) : (s.modSpan k f).rounds = s.rounds := rfl
@[simp] theorem State.modSpan_sharedLost (s : State) (k : Nat) (f : Span → Span) : (s.modSpan k f).sharedLost = s.sharedLost := rfl
@[simp] theorem State.modSpan_dieSync (s : State) (k : Nat) (f : Span → Span) : (s.modSpan k f).dieSync = s.dieSync := rfl
@[simp] theorem State.modSpan_dieLost (s : State) (k : Nat) (f : Span → Span) : (s.modSpan k f).dieLost = s.dieLost := rfl
@[simp] theorem State.modSpan_fns (s : State) (k : Nat) (f : Span → Span) : (s.modSpan k f).fns = s.fns := rfl
@[simp] theorem State.modSpan_delayed (s : State) (k : Nat) (f : Span → Span) : (s.modSpan k f).delayed = s.delayed := rfl
@[simp] theorem State.modSpan_firmware (s : State) (k : Nat) (f : Span → Span) : (s.modSpan k f).firmware = s.firmware := rfl
@[simp] theorem State.modSpan_firn (s : State) (k : Nat) (f : Span → Span) : (s.modSpan k f).firn = s.firn := rfl
@[simp] theorem State.modSpan_transReqs (s : State) (k : Nat) (f : Span → Span) : (s.modSpan k f).transReqs = s.transReqs := rfl
@[simp] theorem State.modSpan_sem (s : State) (k : Nat) (f : Span → Span) : (s.modSpan k f).sem = s.sem := rfl
@[simp] theorem State.modSpan_routes (s : State) (k : Nat) (f : Span → Span) : (s.modSpan k f).routes = s.routes := rfl
@[simp] theorem State.modSpan_podNumber (s : State) (k : Nat) (f : Span → Span) : (s.modSpan k f).podNumber = s.podNumber := rfl
@[simp] theorem State.modSpan_comms (s : State) (k : Nat) (f : Span → Span) : (s.modSpan k f).comms = s.comms := rfl
@[simp] theorem State.modSpan_spares (s : State) (k : Nat) (f : Span → Span) : (s.modSpan k f).spares = s.spares := rfl
@[simp] theorem State.modSpan_retirements (s : State) (k : Nat) (f : Span → Span) : (s.modSpan k f).retirements = s.retirements := rfl
@[simp] theorem State.modSpan_retiredClusters (s : State) (k : Nat) (f : Span → Span) : (s.modSpan k f).retiredClusters = s.retiredClusters := rfl
@[simp] theorem State.modSpan_powerCap (s : State) (k : Nat) (f : Span → Span) : (s.modSpan k f).powerCap = s.powerCap := rfl
@[simp] theorem State.modSpan_windowEnd (s : State) (k : Nat) (f : Span → Span) : (s.modSpan k f).windowEnd = s.windowEnd := rfl
@[simp] theorem State.modSpan_partQueue (s : State) (k : Nat) (f : Span → Span) : (s.modSpan k f).partQueue = s.partQueue := rfl
@[simp] theorem State.modSpan_doorbells (s : State) (k : Nat) (f : Span → Span) : (s.modSpan k f).doorbells = s.doorbells := rfl
@[simp] theorem State.modSpan_cxlMem (s : State) (k : Nat) (f : Span → Span) : (s.modSpan k f).cxlMem = s.cxlMem := rfl
@[simp] theorem State.modSpan_hostReply (s : State) (k : Nat) (f : Span → Span) : (s.modSpan k f).hostReply = s.hostReply := rfl
@[simp] theorem State.modSpan_read_squad (s : State) (k j : Nat) (f : Span → Span) : (s.modSpan k f).squad? j = s.squad? j := rfl
@[simp] theorem State.modSpan_read_group (s : State) (k j : Nat) (f : Span → Span) : (s.modSpan k f).group? j = s.group? j := rfl
@[simp] theorem State.modSpan_read_grid (s : State) (k j : Nat) (f : Span → Span) : (s.modSpan k f).grid? j = s.grid? j := rfl
@[simp] theorem State.modSpan_read_ctx (s : State) (k j : Nat) (f : Span → Span) : (s.modSpan k f).ctx? j = s.ctx? j := rfl
@[simp] theorem State.modSpan_read_part (s : State) (k j : Nat) (f : Span → Span) : (s.modSpan k f).part j = s.part j := rfl
@[simp] theorem State.modSpan_read_core (s : State) (k j : Nat) (f : Span → Span) : (s.modSpan k f).core j = s.core j := rfl
@[simp] theorem State.modSpan_read_cluster (s : State) (k j : Nat) (f : Span → Span) : (s.modSpan k f).cluster j = s.cluster j := rfl
@[simp] theorem State.modSpan_read_island (s : State) (k j : Nat) (f : Span → Span) : (s.modSpan k f).island j = s.island j := rfl
@[simp] theorem State.modSpan_read_chain (s : State) (k j : Nat) (f : Span → Span) : (s.modSpan k f).chain j = s.chain j := rfl
@[simp] theorem State.modSpan_read_key (s : State) (k j : Nat) (f : Span → Span) : (s.modSpan k f).key j = s.key j := rfl
@[simp] theorem State.modSpan_read_fn (s : State) (k j : Nat) (f : Span → Span) : (s.modSpan k f).fn j = s.fn j := rfl
theorem State.modSpan_at (s : State) (k j : Nat) (f : Span → Span) :
    (s.modSpan k f).span? j = if j = k then (s.span? k).map f else s.span? j := mapGet_mod ..

/-! ### modCtx -/

@[simp] theorem State.modCtx_agenda (s : State) (k : Nat) (f : Context → Context) : (s.modCtx k f).agenda = s.agenda := rfl
@[simp] theorem State.modCtx_issuing (s : State) (k : Nat) (f : Context → Context) : (s.modCtx k f).issuing = s.issuing := rfl
@[simp] theorem State.modCtx_free (s : State) (k : Nat) (f : Context → Context) : (s.modCtx k f).free = s.free := rfl
@[simp] theorem State.modCtx_nextId (s : State) (k : Nat) (f : Context → Context) : (s.modCtx k f).nextId = s.nextId := rfl
@[simp] theorem State.modCtx_cycle (s : State) (k : Nat) (f : Context → Context) : (s.modCtx k f).cycle = s.cycle := rfl
@[simp] theorem State.modCtx_ns (s : State) (k : Nat) (f : Context → Context) : (s.modCtx k f).ns = s.ns := rfl
@[simp] theorem State.modCtx_mem (s : State) (k : Nat) (f : Context → Context) : (s.modCtx k f).mem = s.mem := rfl
@[simp] theorem State.modCtx_unitKeys (s : State) (k : Nat) (f : Context → Context) : (s.modCtx k f).unitKeys = s.unitKeys := rfl
@[simp] theorem State.modCtx_clearings (s : State) (k : Nat) (f : Context → Context) : (s.modCtx k f).clearings = s.clearings := rfl
@[simp] theorem State.modCtx_keyring (s : State) (k : Nat) (f : Context → Context) : (s.modCtx k f).keyring = s.keyring := rfl
@[simp] theorem State.modCtx_spoiled (s : State) (k : Nat) (f : Context → Context) : (s.modCtx k f).spoiled = s.spoiled := rfl
@[simp] theorem State.modCtx_outcopies (s : State) (k : Nat) (f : Context → Context) : (s.modCtx k f).outcopies = s.outcopies := rfl
@[simp] theorem State.modCtx_stale (s : State) (k : Nat) (f : Context → Context) : (s.modCtx k f).stale = s.stale := rfl
@[simp] theorem State.modCtx_icinvs (s : State) (k : Nat) (f : Context → Context) : (s.modCtx k f).icinvs = s.icinvs := rfl
@[simp] theorem State.modCtx_codeRelease (s : State) (k : Nat) (f : Context → Context) : (s.modCtx k f).codeRelease = s.codeRelease := rfl
@[simp] theorem State.modCtx_tlb (s : State) (k : Nat) (f : Context → Context) : (s.modCtx k f).tlb = s.tlb := rfl
@[simp] theorem State.modCtx_qcount (s : State) (k : Nat) (f : Context → Context) : (s.modCtx k f).qcount = s.qcount := rfl
@[simp] theorem State.modCtx_moraine (s : State) (k : Nat) (f : Context → Context) : (s.modCtx k f).moraine = s.moraine := rfl
@[simp] theorem State.modCtx_requests (s : State) (k : Nat) (f : Context → Context) : (s.modCtx k f).requests = s.requests := rfl
@[simp] theorem State.modCtx_refused (s : State) (k : Nat) (f : Context → Context) : (s.modCtx k f).refused = s.refused := rfl
@[simp] theorem State.modCtx_keys (s : State) (k : Nat) (f : Context → Context) : (s.modCtx k f).keys = s.keys := rfl
@[simp] theorem State.modCtx_parts (s : State) (k : Nat) (f : Context → Context) : (s.modCtx k f).parts = s.parts := rfl
@[simp] theorem State.modCtx_grids (s : State) (k : Nat) (f : Context → Context) : (s.modCtx k f).grids = s.grids := rfl
@[simp] theorem State.modCtx_spans (s : State) (k : Nat) (f : Context → Context) : (s.modCtx k f).spans = s.spans := rfl
@[simp] theorem State.modCtx_groups (s : State) (k : Nat) (f : Context → Context) : (s.modCtx k f).groups = s.groups := rfl
@[simp] theorem State.modCtx_squads (s : State) (k : Nat) (f : Context → Context) : (s.modCtx k f).squads = s.squads := rfl
@[simp] theorem State.modCtx_cores (s : State) (k : Nat) (f : Context → Context) : (s.modCtx k f).cores = s.cores := rfl
@[simp] theorem State.modCtx_clusters (s : State) (k : Nat) (f : Context → Context) : (s.modCtx k f).clusters = s.clusters := rfl
@[simp] theorem State.modCtx_islands (s : State) (k : Nat) (f : Context → Context) : (s.modCtx k f).islands = s.islands := rfl
@[simp] theorem State.modCtx_chains (s : State) (k : Nat) (f : Context → Context) : (s.modCtx k f).chains = s.chains := rfl
@[simp] theorem State.modCtx_rounds (s : State) (k : Nat) (f : Context → Context) : (s.modCtx k f).rounds = s.rounds := rfl
@[simp] theorem State.modCtx_sharedLost (s : State) (k : Nat) (f : Context → Context) : (s.modCtx k f).sharedLost = s.sharedLost := rfl
@[simp] theorem State.modCtx_dieSync (s : State) (k : Nat) (f : Context → Context) : (s.modCtx k f).dieSync = s.dieSync := rfl
@[simp] theorem State.modCtx_dieLost (s : State) (k : Nat) (f : Context → Context) : (s.modCtx k f).dieLost = s.dieLost := rfl
@[simp] theorem State.modCtx_fns (s : State) (k : Nat) (f : Context → Context) : (s.modCtx k f).fns = s.fns := rfl
@[simp] theorem State.modCtx_delayed (s : State) (k : Nat) (f : Context → Context) : (s.modCtx k f).delayed = s.delayed := rfl
@[simp] theorem State.modCtx_firmware (s : State) (k : Nat) (f : Context → Context) : (s.modCtx k f).firmware = s.firmware := rfl
@[simp] theorem State.modCtx_firn (s : State) (k : Nat) (f : Context → Context) : (s.modCtx k f).firn = s.firn := rfl
@[simp] theorem State.modCtx_transReqs (s : State) (k : Nat) (f : Context → Context) : (s.modCtx k f).transReqs = s.transReqs := rfl
@[simp] theorem State.modCtx_sem (s : State) (k : Nat) (f : Context → Context) : (s.modCtx k f).sem = s.sem := rfl
@[simp] theorem State.modCtx_routes (s : State) (k : Nat) (f : Context → Context) : (s.modCtx k f).routes = s.routes := rfl
@[simp] theorem State.modCtx_podNumber (s : State) (k : Nat) (f : Context → Context) : (s.modCtx k f).podNumber = s.podNumber := rfl
@[simp] theorem State.modCtx_comms (s : State) (k : Nat) (f : Context → Context) : (s.modCtx k f).comms = s.comms := rfl
@[simp] theorem State.modCtx_spares (s : State) (k : Nat) (f : Context → Context) : (s.modCtx k f).spares = s.spares := rfl
@[simp] theorem State.modCtx_retirements (s : State) (k : Nat) (f : Context → Context) : (s.modCtx k f).retirements = s.retirements := rfl
@[simp] theorem State.modCtx_retiredClusters (s : State) (k : Nat) (f : Context → Context) : (s.modCtx k f).retiredClusters = s.retiredClusters := rfl
@[simp] theorem State.modCtx_powerCap (s : State) (k : Nat) (f : Context → Context) : (s.modCtx k f).powerCap = s.powerCap := rfl
@[simp] theorem State.modCtx_windowEnd (s : State) (k : Nat) (f : Context → Context) : (s.modCtx k f).windowEnd = s.windowEnd := rfl
@[simp] theorem State.modCtx_partQueue (s : State) (k : Nat) (f : Context → Context) : (s.modCtx k f).partQueue = s.partQueue := rfl
@[simp] theorem State.modCtx_doorbells (s : State) (k : Nat) (f : Context → Context) : (s.modCtx k f).doorbells = s.doorbells := rfl
@[simp] theorem State.modCtx_cxlMem (s : State) (k : Nat) (f : Context → Context) : (s.modCtx k f).cxlMem = s.cxlMem := rfl
@[simp] theorem State.modCtx_hostReply (s : State) (k : Nat) (f : Context → Context) : (s.modCtx k f).hostReply = s.hostReply := rfl
@[simp] theorem State.modCtx_read_squad (s : State) (k j : Nat) (f : Context → Context) : (s.modCtx k f).squad? j = s.squad? j := rfl
@[simp] theorem State.modCtx_read_group (s : State) (k j : Nat) (f : Context → Context) : (s.modCtx k f).group? j = s.group? j := rfl
@[simp] theorem State.modCtx_read_grid (s : State) (k j : Nat) (f : Context → Context) : (s.modCtx k f).grid? j = s.grid? j := rfl
@[simp] theorem State.modCtx_read_span (s : State) (k j : Nat) (f : Context → Context) : (s.modCtx k f).span? j = s.span? j := rfl
@[simp] theorem State.modCtx_read_part (s : State) (k j : Nat) (f : Context → Context) : (s.modCtx k f).part j = s.part j := rfl
@[simp] theorem State.modCtx_read_core (s : State) (k j : Nat) (f : Context → Context) : (s.modCtx k f).core j = s.core j := rfl
@[simp] theorem State.modCtx_read_cluster (s : State) (k j : Nat) (f : Context → Context) : (s.modCtx k f).cluster j = s.cluster j := rfl
@[simp] theorem State.modCtx_read_island (s : State) (k j : Nat) (f : Context → Context) : (s.modCtx k f).island j = s.island j := rfl
@[simp] theorem State.modCtx_read_chain (s : State) (k j : Nat) (f : Context → Context) : (s.modCtx k f).chain j = s.chain j := rfl
@[simp] theorem State.modCtx_read_key (s : State) (k j : Nat) (f : Context → Context) : (s.modCtx k f).key j = s.key j := rfl
@[simp] theorem State.modCtx_read_fn (s : State) (k j : Nat) (f : Context → Context) : (s.modCtx k f).fn j = s.fn j := rfl
theorem State.modCtx_at (s : State) (k j : Nat) (f : Context → Context) :
    (s.modCtx k f).ctx? j = if j = k then (s.ctx? k).map f else s.ctx? j := mapGet_mod ..

/-! ### modPart -/

@[simp] theorem State.modPart_agenda (s : State) (k : Nat) (f : Partition → Partition) : (s.modPart k f).agenda = s.agenda := rfl
@[simp] theorem State.modPart_issuing (s : State) (k : Nat) (f : Partition → Partition) : (s.modPart k f).issuing = s.issuing := rfl
@[simp] theorem State.modPart_free (s : State) (k : Nat) (f : Partition → Partition) : (s.modPart k f).free = s.free := rfl
@[simp] theorem State.modPart_nextId (s : State) (k : Nat) (f : Partition → Partition) : (s.modPart k f).nextId = s.nextId := rfl
@[simp] theorem State.modPart_cycle (s : State) (k : Nat) (f : Partition → Partition) : (s.modPart k f).cycle = s.cycle := rfl
@[simp] theorem State.modPart_ns (s : State) (k : Nat) (f : Partition → Partition) : (s.modPart k f).ns = s.ns := rfl
@[simp] theorem State.modPart_mem (s : State) (k : Nat) (f : Partition → Partition) : (s.modPart k f).mem = s.mem := rfl
@[simp] theorem State.modPart_unitKeys (s : State) (k : Nat) (f : Partition → Partition) : (s.modPart k f).unitKeys = s.unitKeys := rfl
@[simp] theorem State.modPart_clearings (s : State) (k : Nat) (f : Partition → Partition) : (s.modPart k f).clearings = s.clearings := rfl
@[simp] theorem State.modPart_keyring (s : State) (k : Nat) (f : Partition → Partition) : (s.modPart k f).keyring = s.keyring := rfl
@[simp] theorem State.modPart_spoiled (s : State) (k : Nat) (f : Partition → Partition) : (s.modPart k f).spoiled = s.spoiled := rfl
@[simp] theorem State.modPart_outcopies (s : State) (k : Nat) (f : Partition → Partition) : (s.modPart k f).outcopies = s.outcopies := rfl
@[simp] theorem State.modPart_stale (s : State) (k : Nat) (f : Partition → Partition) : (s.modPart k f).stale = s.stale := rfl
@[simp] theorem State.modPart_icinvs (s : State) (k : Nat) (f : Partition → Partition) : (s.modPart k f).icinvs = s.icinvs := rfl
@[simp] theorem State.modPart_codeRelease (s : State) (k : Nat) (f : Partition → Partition) : (s.modPart k f).codeRelease = s.codeRelease := rfl
@[simp] theorem State.modPart_tlb (s : State) (k : Nat) (f : Partition → Partition) : (s.modPart k f).tlb = s.tlb := rfl
@[simp] theorem State.modPart_qcount (s : State) (k : Nat) (f : Partition → Partition) : (s.modPart k f).qcount = s.qcount := rfl
@[simp] theorem State.modPart_moraine (s : State) (k : Nat) (f : Partition → Partition) : (s.modPart k f).moraine = s.moraine := rfl
@[simp] theorem State.modPart_requests (s : State) (k : Nat) (f : Partition → Partition) : (s.modPart k f).requests = s.requests := rfl
@[simp] theorem State.modPart_refused (s : State) (k : Nat) (f : Partition → Partition) : (s.modPart k f).refused = s.refused := rfl
@[simp] theorem State.modPart_keys (s : State) (k : Nat) (f : Partition → Partition) : (s.modPart k f).keys = s.keys := rfl
@[simp] theorem State.modPart_ctxs (s : State) (k : Nat) (f : Partition → Partition) : (s.modPart k f).ctxs = s.ctxs := rfl
@[simp] theorem State.modPart_grids (s : State) (k : Nat) (f : Partition → Partition) : (s.modPart k f).grids = s.grids := rfl
@[simp] theorem State.modPart_spans (s : State) (k : Nat) (f : Partition → Partition) : (s.modPart k f).spans = s.spans := rfl
@[simp] theorem State.modPart_groups (s : State) (k : Nat) (f : Partition → Partition) : (s.modPart k f).groups = s.groups := rfl
@[simp] theorem State.modPart_squads (s : State) (k : Nat) (f : Partition → Partition) : (s.modPart k f).squads = s.squads := rfl
@[simp] theorem State.modPart_cores (s : State) (k : Nat) (f : Partition → Partition) : (s.modPart k f).cores = s.cores := rfl
@[simp] theorem State.modPart_clusters (s : State) (k : Nat) (f : Partition → Partition) : (s.modPart k f).clusters = s.clusters := rfl
@[simp] theorem State.modPart_islands (s : State) (k : Nat) (f : Partition → Partition) : (s.modPart k f).islands = s.islands := rfl
@[simp] theorem State.modPart_chains (s : State) (k : Nat) (f : Partition → Partition) : (s.modPart k f).chains = s.chains := rfl
@[simp] theorem State.modPart_rounds (s : State) (k : Nat) (f : Partition → Partition) : (s.modPart k f).rounds = s.rounds := rfl
@[simp] theorem State.modPart_sharedLost (s : State) (k : Nat) (f : Partition → Partition) : (s.modPart k f).sharedLost = s.sharedLost := rfl
@[simp] theorem State.modPart_dieSync (s : State) (k : Nat) (f : Partition → Partition) : (s.modPart k f).dieSync = s.dieSync := rfl
@[simp] theorem State.modPart_dieLost (s : State) (k : Nat) (f : Partition → Partition) : (s.modPart k f).dieLost = s.dieLost := rfl
@[simp] theorem State.modPart_fns (s : State) (k : Nat) (f : Partition → Partition) : (s.modPart k f).fns = s.fns := rfl
@[simp] theorem State.modPart_delayed (s : State) (k : Nat) (f : Partition → Partition) : (s.modPart k f).delayed = s.delayed := rfl
@[simp] theorem State.modPart_firmware (s : State) (k : Nat) (f : Partition → Partition) : (s.modPart k f).firmware = s.firmware := rfl
@[simp] theorem State.modPart_firn (s : State) (k : Nat) (f : Partition → Partition) : (s.modPart k f).firn = s.firn := rfl
@[simp] theorem State.modPart_transReqs (s : State) (k : Nat) (f : Partition → Partition) : (s.modPart k f).transReqs = s.transReqs := rfl
@[simp] theorem State.modPart_sem (s : State) (k : Nat) (f : Partition → Partition) : (s.modPart k f).sem = s.sem := rfl
@[simp] theorem State.modPart_routes (s : State) (k : Nat) (f : Partition → Partition) : (s.modPart k f).routes = s.routes := rfl
@[simp] theorem State.modPart_podNumber (s : State) (k : Nat) (f : Partition → Partition) : (s.modPart k f).podNumber = s.podNumber := rfl
@[simp] theorem State.modPart_comms (s : State) (k : Nat) (f : Partition → Partition) : (s.modPart k f).comms = s.comms := rfl
@[simp] theorem State.modPart_spares (s : State) (k : Nat) (f : Partition → Partition) : (s.modPart k f).spares = s.spares := rfl
@[simp] theorem State.modPart_retirements (s : State) (k : Nat) (f : Partition → Partition) : (s.modPart k f).retirements = s.retirements := rfl
@[simp] theorem State.modPart_retiredClusters (s : State) (k : Nat) (f : Partition → Partition) : (s.modPart k f).retiredClusters = s.retiredClusters := rfl
@[simp] theorem State.modPart_powerCap (s : State) (k : Nat) (f : Partition → Partition) : (s.modPart k f).powerCap = s.powerCap := rfl
@[simp] theorem State.modPart_windowEnd (s : State) (k : Nat) (f : Partition → Partition) : (s.modPart k f).windowEnd = s.windowEnd := rfl
@[simp] theorem State.modPart_partQueue (s : State) (k : Nat) (f : Partition → Partition) : (s.modPart k f).partQueue = s.partQueue := rfl
@[simp] theorem State.modPart_doorbells (s : State) (k : Nat) (f : Partition → Partition) : (s.modPart k f).doorbells = s.doorbells := rfl
@[simp] theorem State.modPart_cxlMem (s : State) (k : Nat) (f : Partition → Partition) : (s.modPart k f).cxlMem = s.cxlMem := rfl
@[simp] theorem State.modPart_hostReply (s : State) (k : Nat) (f : Partition → Partition) : (s.modPart k f).hostReply = s.hostReply := rfl
@[simp] theorem State.modPart_read_squad (s : State) (k j : Nat) (f : Partition → Partition) : (s.modPart k f).squad? j = s.squad? j := rfl
@[simp] theorem State.modPart_read_group (s : State) (k j : Nat) (f : Partition → Partition) : (s.modPart k f).group? j = s.group? j := rfl
@[simp] theorem State.modPart_read_grid (s : State) (k j : Nat) (f : Partition → Partition) : (s.modPart k f).grid? j = s.grid? j := rfl
@[simp] theorem State.modPart_read_span (s : State) (k j : Nat) (f : Partition → Partition) : (s.modPart k f).span? j = s.span? j := rfl
@[simp] theorem State.modPart_read_ctx (s : State) (k j : Nat) (f : Partition → Partition) : (s.modPart k f).ctx? j = s.ctx? j := rfl
@[simp] theorem State.modPart_read_core (s : State) (k j : Nat) (f : Partition → Partition) : (s.modPart k f).core j = s.core j := rfl
@[simp] theorem State.modPart_read_cluster (s : State) (k j : Nat) (f : Partition → Partition) : (s.modPart k f).cluster j = s.cluster j := rfl
@[simp] theorem State.modPart_read_island (s : State) (k j : Nat) (f : Partition → Partition) : (s.modPart k f).island j = s.island j := rfl
@[simp] theorem State.modPart_read_chain (s : State) (k j : Nat) (f : Partition → Partition) : (s.modPart k f).chain j = s.chain j := rfl
@[simp] theorem State.modPart_read_key (s : State) (k j : Nat) (f : Partition → Partition) : (s.modPart k f).key j = s.key j := rfl
@[simp] theorem State.modPart_read_fn (s : State) (k j : Nat) (f : Partition → Partition) : (s.modPart k f).fn j = s.fn j := rfl
theorem State.modPart_at (s : State) (k j : Nat) (f : Partition → Partition) :
    (s.modPart k f).part j = if j = k then f (s.part k) else s.part j := by
  unfold State.part State.modPart; rw [mapGet_upd]; split <;> rfl

/-! ### modCore -/

@[simp] theorem State.modCore_agenda (s : State) (k : Nat) (f : Core → Core) : (s.modCore k f).agenda = s.agenda := rfl
@[simp] theorem State.modCore_issuing (s : State) (k : Nat) (f : Core → Core) : (s.modCore k f).issuing = s.issuing := rfl
@[simp] theorem State.modCore_free (s : State) (k : Nat) (f : Core → Core) : (s.modCore k f).free = s.free := rfl
@[simp] theorem State.modCore_nextId (s : State) (k : Nat) (f : Core → Core) : (s.modCore k f).nextId = s.nextId := rfl
@[simp] theorem State.modCore_cycle (s : State) (k : Nat) (f : Core → Core) : (s.modCore k f).cycle = s.cycle := rfl
@[simp] theorem State.modCore_ns (s : State) (k : Nat) (f : Core → Core) : (s.modCore k f).ns = s.ns := rfl
@[simp] theorem State.modCore_mem (s : State) (k : Nat) (f : Core → Core) : (s.modCore k f).mem = s.mem := rfl
@[simp] theorem State.modCore_unitKeys (s : State) (k : Nat) (f : Core → Core) : (s.modCore k f).unitKeys = s.unitKeys := rfl
@[simp] theorem State.modCore_clearings (s : State) (k : Nat) (f : Core → Core) : (s.modCore k f).clearings = s.clearings := rfl
@[simp] theorem State.modCore_keyring (s : State) (k : Nat) (f : Core → Core) : (s.modCore k f).keyring = s.keyring := rfl
@[simp] theorem State.modCore_spoiled (s : State) (k : Nat) (f : Core → Core) : (s.modCore k f).spoiled = s.spoiled := rfl
@[simp] theorem State.modCore_outcopies (s : State) (k : Nat) (f : Core → Core) : (s.modCore k f).outcopies = s.outcopies := rfl
@[simp] theorem State.modCore_stale (s : State) (k : Nat) (f : Core → Core) : (s.modCore k f).stale = s.stale := rfl
@[simp] theorem State.modCore_icinvs (s : State) (k : Nat) (f : Core → Core) : (s.modCore k f).icinvs = s.icinvs := rfl
@[simp] theorem State.modCore_codeRelease (s : State) (k : Nat) (f : Core → Core) : (s.modCore k f).codeRelease = s.codeRelease := rfl
@[simp] theorem State.modCore_tlb (s : State) (k : Nat) (f : Core → Core) : (s.modCore k f).tlb = s.tlb := rfl
@[simp] theorem State.modCore_qcount (s : State) (k : Nat) (f : Core → Core) : (s.modCore k f).qcount = s.qcount := rfl
@[simp] theorem State.modCore_moraine (s : State) (k : Nat) (f : Core → Core) : (s.modCore k f).moraine = s.moraine := rfl
@[simp] theorem State.modCore_requests (s : State) (k : Nat) (f : Core → Core) : (s.modCore k f).requests = s.requests := rfl
@[simp] theorem State.modCore_refused (s : State) (k : Nat) (f : Core → Core) : (s.modCore k f).refused = s.refused := rfl
@[simp] theorem State.modCore_keys (s : State) (k : Nat) (f : Core → Core) : (s.modCore k f).keys = s.keys := rfl
@[simp] theorem State.modCore_parts (s : State) (k : Nat) (f : Core → Core) : (s.modCore k f).parts = s.parts := rfl
@[simp] theorem State.modCore_ctxs (s : State) (k : Nat) (f : Core → Core) : (s.modCore k f).ctxs = s.ctxs := rfl
@[simp] theorem State.modCore_grids (s : State) (k : Nat) (f : Core → Core) : (s.modCore k f).grids = s.grids := rfl
@[simp] theorem State.modCore_spans (s : State) (k : Nat) (f : Core → Core) : (s.modCore k f).spans = s.spans := rfl
@[simp] theorem State.modCore_groups (s : State) (k : Nat) (f : Core → Core) : (s.modCore k f).groups = s.groups := rfl
@[simp] theorem State.modCore_squads (s : State) (k : Nat) (f : Core → Core) : (s.modCore k f).squads = s.squads := rfl
@[simp] theorem State.modCore_clusters (s : State) (k : Nat) (f : Core → Core) : (s.modCore k f).clusters = s.clusters := rfl
@[simp] theorem State.modCore_islands (s : State) (k : Nat) (f : Core → Core) : (s.modCore k f).islands = s.islands := rfl
@[simp] theorem State.modCore_chains (s : State) (k : Nat) (f : Core → Core) : (s.modCore k f).chains = s.chains := rfl
@[simp] theorem State.modCore_rounds (s : State) (k : Nat) (f : Core → Core) : (s.modCore k f).rounds = s.rounds := rfl
@[simp] theorem State.modCore_sharedLost (s : State) (k : Nat) (f : Core → Core) : (s.modCore k f).sharedLost = s.sharedLost := rfl
@[simp] theorem State.modCore_dieSync (s : State) (k : Nat) (f : Core → Core) : (s.modCore k f).dieSync = s.dieSync := rfl
@[simp] theorem State.modCore_dieLost (s : State) (k : Nat) (f : Core → Core) : (s.modCore k f).dieLost = s.dieLost := rfl
@[simp] theorem State.modCore_fns (s : State) (k : Nat) (f : Core → Core) : (s.modCore k f).fns = s.fns := rfl
@[simp] theorem State.modCore_delayed (s : State) (k : Nat) (f : Core → Core) : (s.modCore k f).delayed = s.delayed := rfl
@[simp] theorem State.modCore_firmware (s : State) (k : Nat) (f : Core → Core) : (s.modCore k f).firmware = s.firmware := rfl
@[simp] theorem State.modCore_firn (s : State) (k : Nat) (f : Core → Core) : (s.modCore k f).firn = s.firn := rfl
@[simp] theorem State.modCore_transReqs (s : State) (k : Nat) (f : Core → Core) : (s.modCore k f).transReqs = s.transReqs := rfl
@[simp] theorem State.modCore_sem (s : State) (k : Nat) (f : Core → Core) : (s.modCore k f).sem = s.sem := rfl
@[simp] theorem State.modCore_routes (s : State) (k : Nat) (f : Core → Core) : (s.modCore k f).routes = s.routes := rfl
@[simp] theorem State.modCore_podNumber (s : State) (k : Nat) (f : Core → Core) : (s.modCore k f).podNumber = s.podNumber := rfl
@[simp] theorem State.modCore_comms (s : State) (k : Nat) (f : Core → Core) : (s.modCore k f).comms = s.comms := rfl
@[simp] theorem State.modCore_spares (s : State) (k : Nat) (f : Core → Core) : (s.modCore k f).spares = s.spares := rfl
@[simp] theorem State.modCore_retirements (s : State) (k : Nat) (f : Core → Core) : (s.modCore k f).retirements = s.retirements := rfl
@[simp] theorem State.modCore_retiredClusters (s : State) (k : Nat) (f : Core → Core) : (s.modCore k f).retiredClusters = s.retiredClusters := rfl
@[simp] theorem State.modCore_powerCap (s : State) (k : Nat) (f : Core → Core) : (s.modCore k f).powerCap = s.powerCap := rfl
@[simp] theorem State.modCore_windowEnd (s : State) (k : Nat) (f : Core → Core) : (s.modCore k f).windowEnd = s.windowEnd := rfl
@[simp] theorem State.modCore_partQueue (s : State) (k : Nat) (f : Core → Core) : (s.modCore k f).partQueue = s.partQueue := rfl
@[simp] theorem State.modCore_doorbells (s : State) (k : Nat) (f : Core → Core) : (s.modCore k f).doorbells = s.doorbells := rfl
@[simp] theorem State.modCore_cxlMem (s : State) (k : Nat) (f : Core → Core) : (s.modCore k f).cxlMem = s.cxlMem := rfl
@[simp] theorem State.modCore_hostReply (s : State) (k : Nat) (f : Core → Core) : (s.modCore k f).hostReply = s.hostReply := rfl
@[simp] theorem State.modCore_read_squad (s : State) (k j : Nat) (f : Core → Core) : (s.modCore k f).squad? j = s.squad? j := rfl
@[simp] theorem State.modCore_read_group (s : State) (k j : Nat) (f : Core → Core) : (s.modCore k f).group? j = s.group? j := rfl
@[simp] theorem State.modCore_read_grid (s : State) (k j : Nat) (f : Core → Core) : (s.modCore k f).grid? j = s.grid? j := rfl
@[simp] theorem State.modCore_read_span (s : State) (k j : Nat) (f : Core → Core) : (s.modCore k f).span? j = s.span? j := rfl
@[simp] theorem State.modCore_read_ctx (s : State) (k j : Nat) (f : Core → Core) : (s.modCore k f).ctx? j = s.ctx? j := rfl
@[simp] theorem State.modCore_read_part (s : State) (k j : Nat) (f : Core → Core) : (s.modCore k f).part j = s.part j := rfl
@[simp] theorem State.modCore_read_cluster (s : State) (k j : Nat) (f : Core → Core) : (s.modCore k f).cluster j = s.cluster j := rfl
@[simp] theorem State.modCore_read_island (s : State) (k j : Nat) (f : Core → Core) : (s.modCore k f).island j = s.island j := rfl
@[simp] theorem State.modCore_read_chain (s : State) (k j : Nat) (f : Core → Core) : (s.modCore k f).chain j = s.chain j := rfl
@[simp] theorem State.modCore_read_key (s : State) (k j : Nat) (f : Core → Core) : (s.modCore k f).key j = s.key j := rfl
@[simp] theorem State.modCore_read_fn (s : State) (k j : Nat) (f : Core → Core) : (s.modCore k f).fn j = s.fn j := rfl
theorem State.modCore_at (s : State) (k j : Nat) (f : Core → Core) :
    (s.modCore k f).core j = if j = k then f (s.core k) else s.core j := by
  unfold State.core State.modCore; rw [mapGet_upd]; split <;> rfl

/-! ### modCluster -/

@[simp] theorem State.modCluster_agenda (s : State) (k : Nat) (f : Cluster → Cluster) : (s.modCluster k f).agenda = s.agenda := rfl
@[simp] theorem State.modCluster_issuing (s : State) (k : Nat) (f : Cluster → Cluster) : (s.modCluster k f).issuing = s.issuing := rfl
@[simp] theorem State.modCluster_free (s : State) (k : Nat) (f : Cluster → Cluster) : (s.modCluster k f).free = s.free := rfl
@[simp] theorem State.modCluster_nextId (s : State) (k : Nat) (f : Cluster → Cluster) : (s.modCluster k f).nextId = s.nextId := rfl
@[simp] theorem State.modCluster_cycle (s : State) (k : Nat) (f : Cluster → Cluster) : (s.modCluster k f).cycle = s.cycle := rfl
@[simp] theorem State.modCluster_ns (s : State) (k : Nat) (f : Cluster → Cluster) : (s.modCluster k f).ns = s.ns := rfl
@[simp] theorem State.modCluster_mem (s : State) (k : Nat) (f : Cluster → Cluster) : (s.modCluster k f).mem = s.mem := rfl
@[simp] theorem State.modCluster_unitKeys (s : State) (k : Nat) (f : Cluster → Cluster) : (s.modCluster k f).unitKeys = s.unitKeys := rfl
@[simp] theorem State.modCluster_clearings (s : State) (k : Nat) (f : Cluster → Cluster) : (s.modCluster k f).clearings = s.clearings := rfl
@[simp] theorem State.modCluster_keyring (s : State) (k : Nat) (f : Cluster → Cluster) : (s.modCluster k f).keyring = s.keyring := rfl
@[simp] theorem State.modCluster_spoiled (s : State) (k : Nat) (f : Cluster → Cluster) : (s.modCluster k f).spoiled = s.spoiled := rfl
@[simp] theorem State.modCluster_outcopies (s : State) (k : Nat) (f : Cluster → Cluster) : (s.modCluster k f).outcopies = s.outcopies := rfl
@[simp] theorem State.modCluster_stale (s : State) (k : Nat) (f : Cluster → Cluster) : (s.modCluster k f).stale = s.stale := rfl
@[simp] theorem State.modCluster_icinvs (s : State) (k : Nat) (f : Cluster → Cluster) : (s.modCluster k f).icinvs = s.icinvs := rfl
@[simp] theorem State.modCluster_codeRelease (s : State) (k : Nat) (f : Cluster → Cluster) : (s.modCluster k f).codeRelease = s.codeRelease := rfl
@[simp] theorem State.modCluster_tlb (s : State) (k : Nat) (f : Cluster → Cluster) : (s.modCluster k f).tlb = s.tlb := rfl
@[simp] theorem State.modCluster_qcount (s : State) (k : Nat) (f : Cluster → Cluster) : (s.modCluster k f).qcount = s.qcount := rfl
@[simp] theorem State.modCluster_moraine (s : State) (k : Nat) (f : Cluster → Cluster) : (s.modCluster k f).moraine = s.moraine := rfl
@[simp] theorem State.modCluster_requests (s : State) (k : Nat) (f : Cluster → Cluster) : (s.modCluster k f).requests = s.requests := rfl
@[simp] theorem State.modCluster_refused (s : State) (k : Nat) (f : Cluster → Cluster) : (s.modCluster k f).refused = s.refused := rfl
@[simp] theorem State.modCluster_keys (s : State) (k : Nat) (f : Cluster → Cluster) : (s.modCluster k f).keys = s.keys := rfl
@[simp] theorem State.modCluster_parts (s : State) (k : Nat) (f : Cluster → Cluster) : (s.modCluster k f).parts = s.parts := rfl
@[simp] theorem State.modCluster_ctxs (s : State) (k : Nat) (f : Cluster → Cluster) : (s.modCluster k f).ctxs = s.ctxs := rfl
@[simp] theorem State.modCluster_grids (s : State) (k : Nat) (f : Cluster → Cluster) : (s.modCluster k f).grids = s.grids := rfl
@[simp] theorem State.modCluster_spans (s : State) (k : Nat) (f : Cluster → Cluster) : (s.modCluster k f).spans = s.spans := rfl
@[simp] theorem State.modCluster_groups (s : State) (k : Nat) (f : Cluster → Cluster) : (s.modCluster k f).groups = s.groups := rfl
@[simp] theorem State.modCluster_squads (s : State) (k : Nat) (f : Cluster → Cluster) : (s.modCluster k f).squads = s.squads := rfl
@[simp] theorem State.modCluster_cores (s : State) (k : Nat) (f : Cluster → Cluster) : (s.modCluster k f).cores = s.cores := rfl
@[simp] theorem State.modCluster_islands (s : State) (k : Nat) (f : Cluster → Cluster) : (s.modCluster k f).islands = s.islands := rfl
@[simp] theorem State.modCluster_chains (s : State) (k : Nat) (f : Cluster → Cluster) : (s.modCluster k f).chains = s.chains := rfl
@[simp] theorem State.modCluster_rounds (s : State) (k : Nat) (f : Cluster → Cluster) : (s.modCluster k f).rounds = s.rounds := rfl
@[simp] theorem State.modCluster_sharedLost (s : State) (k : Nat) (f : Cluster → Cluster) : (s.modCluster k f).sharedLost = s.sharedLost := rfl
@[simp] theorem State.modCluster_dieSync (s : State) (k : Nat) (f : Cluster → Cluster) : (s.modCluster k f).dieSync = s.dieSync := rfl
@[simp] theorem State.modCluster_dieLost (s : State) (k : Nat) (f : Cluster → Cluster) : (s.modCluster k f).dieLost = s.dieLost := rfl
@[simp] theorem State.modCluster_fns (s : State) (k : Nat) (f : Cluster → Cluster) : (s.modCluster k f).fns = s.fns := rfl
@[simp] theorem State.modCluster_delayed (s : State) (k : Nat) (f : Cluster → Cluster) : (s.modCluster k f).delayed = s.delayed := rfl
@[simp] theorem State.modCluster_firmware (s : State) (k : Nat) (f : Cluster → Cluster) : (s.modCluster k f).firmware = s.firmware := rfl
@[simp] theorem State.modCluster_firn (s : State) (k : Nat) (f : Cluster → Cluster) : (s.modCluster k f).firn = s.firn := rfl
@[simp] theorem State.modCluster_transReqs (s : State) (k : Nat) (f : Cluster → Cluster) : (s.modCluster k f).transReqs = s.transReqs := rfl
@[simp] theorem State.modCluster_sem (s : State) (k : Nat) (f : Cluster → Cluster) : (s.modCluster k f).sem = s.sem := rfl
@[simp] theorem State.modCluster_routes (s : State) (k : Nat) (f : Cluster → Cluster) : (s.modCluster k f).routes = s.routes := rfl
@[simp] theorem State.modCluster_podNumber (s : State) (k : Nat) (f : Cluster → Cluster) : (s.modCluster k f).podNumber = s.podNumber := rfl
@[simp] theorem State.modCluster_comms (s : State) (k : Nat) (f : Cluster → Cluster) : (s.modCluster k f).comms = s.comms := rfl
@[simp] theorem State.modCluster_spares (s : State) (k : Nat) (f : Cluster → Cluster) : (s.modCluster k f).spares = s.spares := rfl
@[simp] theorem State.modCluster_retirements (s : State) (k : Nat) (f : Cluster → Cluster) : (s.modCluster k f).retirements = s.retirements := rfl
@[simp] theorem State.modCluster_retiredClusters (s : State) (k : Nat) (f : Cluster → Cluster) : (s.modCluster k f).retiredClusters = s.retiredClusters := rfl
@[simp] theorem State.modCluster_powerCap (s : State) (k : Nat) (f : Cluster → Cluster) : (s.modCluster k f).powerCap = s.powerCap := rfl
@[simp] theorem State.modCluster_windowEnd (s : State) (k : Nat) (f : Cluster → Cluster) : (s.modCluster k f).windowEnd = s.windowEnd := rfl
@[simp] theorem State.modCluster_partQueue (s : State) (k : Nat) (f : Cluster → Cluster) : (s.modCluster k f).partQueue = s.partQueue := rfl
@[simp] theorem State.modCluster_doorbells (s : State) (k : Nat) (f : Cluster → Cluster) : (s.modCluster k f).doorbells = s.doorbells := rfl
@[simp] theorem State.modCluster_cxlMem (s : State) (k : Nat) (f : Cluster → Cluster) : (s.modCluster k f).cxlMem = s.cxlMem := rfl
@[simp] theorem State.modCluster_hostReply (s : State) (k : Nat) (f : Cluster → Cluster) : (s.modCluster k f).hostReply = s.hostReply := rfl
@[simp] theorem State.modCluster_read_squad (s : State) (k j : Nat) (f : Cluster → Cluster) : (s.modCluster k f).squad? j = s.squad? j := rfl
@[simp] theorem State.modCluster_read_group (s : State) (k j : Nat) (f : Cluster → Cluster) : (s.modCluster k f).group? j = s.group? j := rfl
@[simp] theorem State.modCluster_read_grid (s : State) (k j : Nat) (f : Cluster → Cluster) : (s.modCluster k f).grid? j = s.grid? j := rfl
@[simp] theorem State.modCluster_read_span (s : State) (k j : Nat) (f : Cluster → Cluster) : (s.modCluster k f).span? j = s.span? j := rfl
@[simp] theorem State.modCluster_read_ctx (s : State) (k j : Nat) (f : Cluster → Cluster) : (s.modCluster k f).ctx? j = s.ctx? j := rfl
@[simp] theorem State.modCluster_read_part (s : State) (k j : Nat) (f : Cluster → Cluster) : (s.modCluster k f).part j = s.part j := rfl
@[simp] theorem State.modCluster_read_core (s : State) (k j : Nat) (f : Cluster → Cluster) : (s.modCluster k f).core j = s.core j := rfl
@[simp] theorem State.modCluster_read_island (s : State) (k j : Nat) (f : Cluster → Cluster) : (s.modCluster k f).island j = s.island j := rfl
@[simp] theorem State.modCluster_read_chain (s : State) (k j : Nat) (f : Cluster → Cluster) : (s.modCluster k f).chain j = s.chain j := rfl
@[simp] theorem State.modCluster_read_key (s : State) (k j : Nat) (f : Cluster → Cluster) : (s.modCluster k f).key j = s.key j := rfl
@[simp] theorem State.modCluster_read_fn (s : State) (k j : Nat) (f : Cluster → Cluster) : (s.modCluster k f).fn j = s.fn j := rfl
theorem State.modCluster_at (s : State) (k j : Nat) (f : Cluster → Cluster) :
    (s.modCluster k f).cluster j = if j = k then f (s.cluster k) else s.cluster j := by
  unfold State.cluster State.modCluster; rw [mapGet_upd]; split <;> rfl

/-! ### modIsland -/

@[simp] theorem State.modIsland_agenda (s : State) (k : Nat) (f : Island → Island) : (s.modIsland k f).agenda = s.agenda := rfl
@[simp] theorem State.modIsland_issuing (s : State) (k : Nat) (f : Island → Island) : (s.modIsland k f).issuing = s.issuing := rfl
@[simp] theorem State.modIsland_free (s : State) (k : Nat) (f : Island → Island) : (s.modIsland k f).free = s.free := rfl
@[simp] theorem State.modIsland_nextId (s : State) (k : Nat) (f : Island → Island) : (s.modIsland k f).nextId = s.nextId := rfl
@[simp] theorem State.modIsland_cycle (s : State) (k : Nat) (f : Island → Island) : (s.modIsland k f).cycle = s.cycle := rfl
@[simp] theorem State.modIsland_ns (s : State) (k : Nat) (f : Island → Island) : (s.modIsland k f).ns = s.ns := rfl
@[simp] theorem State.modIsland_mem (s : State) (k : Nat) (f : Island → Island) : (s.modIsland k f).mem = s.mem := rfl
@[simp] theorem State.modIsland_unitKeys (s : State) (k : Nat) (f : Island → Island) : (s.modIsland k f).unitKeys = s.unitKeys := rfl
@[simp] theorem State.modIsland_clearings (s : State) (k : Nat) (f : Island → Island) : (s.modIsland k f).clearings = s.clearings := rfl
@[simp] theorem State.modIsland_keyring (s : State) (k : Nat) (f : Island → Island) : (s.modIsland k f).keyring = s.keyring := rfl
@[simp] theorem State.modIsland_spoiled (s : State) (k : Nat) (f : Island → Island) : (s.modIsland k f).spoiled = s.spoiled := rfl
@[simp] theorem State.modIsland_outcopies (s : State) (k : Nat) (f : Island → Island) : (s.modIsland k f).outcopies = s.outcopies := rfl
@[simp] theorem State.modIsland_stale (s : State) (k : Nat) (f : Island → Island) : (s.modIsland k f).stale = s.stale := rfl
@[simp] theorem State.modIsland_icinvs (s : State) (k : Nat) (f : Island → Island) : (s.modIsland k f).icinvs = s.icinvs := rfl
@[simp] theorem State.modIsland_codeRelease (s : State) (k : Nat) (f : Island → Island) : (s.modIsland k f).codeRelease = s.codeRelease := rfl
@[simp] theorem State.modIsland_tlb (s : State) (k : Nat) (f : Island → Island) : (s.modIsland k f).tlb = s.tlb := rfl
@[simp] theorem State.modIsland_qcount (s : State) (k : Nat) (f : Island → Island) : (s.modIsland k f).qcount = s.qcount := rfl
@[simp] theorem State.modIsland_moraine (s : State) (k : Nat) (f : Island → Island) : (s.modIsland k f).moraine = s.moraine := rfl
@[simp] theorem State.modIsland_requests (s : State) (k : Nat) (f : Island → Island) : (s.modIsland k f).requests = s.requests := rfl
@[simp] theorem State.modIsland_refused (s : State) (k : Nat) (f : Island → Island) : (s.modIsland k f).refused = s.refused := rfl
@[simp] theorem State.modIsland_keys (s : State) (k : Nat) (f : Island → Island) : (s.modIsland k f).keys = s.keys := rfl
@[simp] theorem State.modIsland_parts (s : State) (k : Nat) (f : Island → Island) : (s.modIsland k f).parts = s.parts := rfl
@[simp] theorem State.modIsland_ctxs (s : State) (k : Nat) (f : Island → Island) : (s.modIsland k f).ctxs = s.ctxs := rfl
@[simp] theorem State.modIsland_grids (s : State) (k : Nat) (f : Island → Island) : (s.modIsland k f).grids = s.grids := rfl
@[simp] theorem State.modIsland_spans (s : State) (k : Nat) (f : Island → Island) : (s.modIsland k f).spans = s.spans := rfl
@[simp] theorem State.modIsland_groups (s : State) (k : Nat) (f : Island → Island) : (s.modIsland k f).groups = s.groups := rfl
@[simp] theorem State.modIsland_squads (s : State) (k : Nat) (f : Island → Island) : (s.modIsland k f).squads = s.squads := rfl
@[simp] theorem State.modIsland_cores (s : State) (k : Nat) (f : Island → Island) : (s.modIsland k f).cores = s.cores := rfl
@[simp] theorem State.modIsland_clusters (s : State) (k : Nat) (f : Island → Island) : (s.modIsland k f).clusters = s.clusters := rfl
@[simp] theorem State.modIsland_chains (s : State) (k : Nat) (f : Island → Island) : (s.modIsland k f).chains = s.chains := rfl
@[simp] theorem State.modIsland_rounds (s : State) (k : Nat) (f : Island → Island) : (s.modIsland k f).rounds = s.rounds := rfl
@[simp] theorem State.modIsland_sharedLost (s : State) (k : Nat) (f : Island → Island) : (s.modIsland k f).sharedLost = s.sharedLost := rfl
@[simp] theorem State.modIsland_dieSync (s : State) (k : Nat) (f : Island → Island) : (s.modIsland k f).dieSync = s.dieSync := rfl
@[simp] theorem State.modIsland_dieLost (s : State) (k : Nat) (f : Island → Island) : (s.modIsland k f).dieLost = s.dieLost := rfl
@[simp] theorem State.modIsland_fns (s : State) (k : Nat) (f : Island → Island) : (s.modIsland k f).fns = s.fns := rfl
@[simp] theorem State.modIsland_delayed (s : State) (k : Nat) (f : Island → Island) : (s.modIsland k f).delayed = s.delayed := rfl
@[simp] theorem State.modIsland_firmware (s : State) (k : Nat) (f : Island → Island) : (s.modIsland k f).firmware = s.firmware := rfl
@[simp] theorem State.modIsland_firn (s : State) (k : Nat) (f : Island → Island) : (s.modIsland k f).firn = s.firn := rfl
@[simp] theorem State.modIsland_transReqs (s : State) (k : Nat) (f : Island → Island) : (s.modIsland k f).transReqs = s.transReqs := rfl
@[simp] theorem State.modIsland_sem (s : State) (k : Nat) (f : Island → Island) : (s.modIsland k f).sem = s.sem := rfl
@[simp] theorem State.modIsland_routes (s : State) (k : Nat) (f : Island → Island) : (s.modIsland k f).routes = s.routes := rfl
@[simp] theorem State.modIsland_podNumber (s : State) (k : Nat) (f : Island → Island) : (s.modIsland k f).podNumber = s.podNumber := rfl
@[simp] theorem State.modIsland_comms (s : State) (k : Nat) (f : Island → Island) : (s.modIsland k f).comms = s.comms := rfl
@[simp] theorem State.modIsland_spares (s : State) (k : Nat) (f : Island → Island) : (s.modIsland k f).spares = s.spares := rfl
@[simp] theorem State.modIsland_retirements (s : State) (k : Nat) (f : Island → Island) : (s.modIsland k f).retirements = s.retirements := rfl
@[simp] theorem State.modIsland_retiredClusters (s : State) (k : Nat) (f : Island → Island) : (s.modIsland k f).retiredClusters = s.retiredClusters := rfl
@[simp] theorem State.modIsland_powerCap (s : State) (k : Nat) (f : Island → Island) : (s.modIsland k f).powerCap = s.powerCap := rfl
@[simp] theorem State.modIsland_windowEnd (s : State) (k : Nat) (f : Island → Island) : (s.modIsland k f).windowEnd = s.windowEnd := rfl
@[simp] theorem State.modIsland_partQueue (s : State) (k : Nat) (f : Island → Island) : (s.modIsland k f).partQueue = s.partQueue := rfl
@[simp] theorem State.modIsland_doorbells (s : State) (k : Nat) (f : Island → Island) : (s.modIsland k f).doorbells = s.doorbells := rfl
@[simp] theorem State.modIsland_cxlMem (s : State) (k : Nat) (f : Island → Island) : (s.modIsland k f).cxlMem = s.cxlMem := rfl
@[simp] theorem State.modIsland_hostReply (s : State) (k : Nat) (f : Island → Island) : (s.modIsland k f).hostReply = s.hostReply := rfl
@[simp] theorem State.modIsland_read_squad (s : State) (k j : Nat) (f : Island → Island) : (s.modIsland k f).squad? j = s.squad? j := rfl
@[simp] theorem State.modIsland_read_group (s : State) (k j : Nat) (f : Island → Island) : (s.modIsland k f).group? j = s.group? j := rfl
@[simp] theorem State.modIsland_read_grid (s : State) (k j : Nat) (f : Island → Island) : (s.modIsland k f).grid? j = s.grid? j := rfl
@[simp] theorem State.modIsland_read_span (s : State) (k j : Nat) (f : Island → Island) : (s.modIsland k f).span? j = s.span? j := rfl
@[simp] theorem State.modIsland_read_ctx (s : State) (k j : Nat) (f : Island → Island) : (s.modIsland k f).ctx? j = s.ctx? j := rfl
@[simp] theorem State.modIsland_read_part (s : State) (k j : Nat) (f : Island → Island) : (s.modIsland k f).part j = s.part j := rfl
@[simp] theorem State.modIsland_read_core (s : State) (k j : Nat) (f : Island → Island) : (s.modIsland k f).core j = s.core j := rfl
@[simp] theorem State.modIsland_read_cluster (s : State) (k j : Nat) (f : Island → Island) : (s.modIsland k f).cluster j = s.cluster j := rfl
@[simp] theorem State.modIsland_read_chain (s : State) (k j : Nat) (f : Island → Island) : (s.modIsland k f).chain j = s.chain j := rfl
@[simp] theorem State.modIsland_read_key (s : State) (k j : Nat) (f : Island → Island) : (s.modIsland k f).key j = s.key j := rfl
@[simp] theorem State.modIsland_read_fn (s : State) (k j : Nat) (f : Island → Island) : (s.modIsland k f).fn j = s.fn j := rfl
theorem State.modIsland_at (s : State) (k j : Nat) (f : Island → Island) :
    (s.modIsland k f).island j = if j = k then f (s.island k) else s.island j := by
  unfold State.island State.modIsland; rw [mapGet_upd]; split <;> rfl

/-! ### modChain -/

@[simp] theorem State.modChain_agenda (s : State) (k : Nat) (f : FarCtx → FarCtx) : (s.modChain k f).agenda = s.agenda := rfl
@[simp] theorem State.modChain_issuing (s : State) (k : Nat) (f : FarCtx → FarCtx) : (s.modChain k f).issuing = s.issuing := rfl
@[simp] theorem State.modChain_free (s : State) (k : Nat) (f : FarCtx → FarCtx) : (s.modChain k f).free = s.free := rfl
@[simp] theorem State.modChain_nextId (s : State) (k : Nat) (f : FarCtx → FarCtx) : (s.modChain k f).nextId = s.nextId := rfl
@[simp] theorem State.modChain_cycle (s : State) (k : Nat) (f : FarCtx → FarCtx) : (s.modChain k f).cycle = s.cycle := rfl
@[simp] theorem State.modChain_ns (s : State) (k : Nat) (f : FarCtx → FarCtx) : (s.modChain k f).ns = s.ns := rfl
@[simp] theorem State.modChain_mem (s : State) (k : Nat) (f : FarCtx → FarCtx) : (s.modChain k f).mem = s.mem := rfl
@[simp] theorem State.modChain_unitKeys (s : State) (k : Nat) (f : FarCtx → FarCtx) : (s.modChain k f).unitKeys = s.unitKeys := rfl
@[simp] theorem State.modChain_clearings (s : State) (k : Nat) (f : FarCtx → FarCtx) : (s.modChain k f).clearings = s.clearings := rfl
@[simp] theorem State.modChain_keyring (s : State) (k : Nat) (f : FarCtx → FarCtx) : (s.modChain k f).keyring = s.keyring := rfl
@[simp] theorem State.modChain_spoiled (s : State) (k : Nat) (f : FarCtx → FarCtx) : (s.modChain k f).spoiled = s.spoiled := rfl
@[simp] theorem State.modChain_outcopies (s : State) (k : Nat) (f : FarCtx → FarCtx) : (s.modChain k f).outcopies = s.outcopies := rfl
@[simp] theorem State.modChain_stale (s : State) (k : Nat) (f : FarCtx → FarCtx) : (s.modChain k f).stale = s.stale := rfl
@[simp] theorem State.modChain_icinvs (s : State) (k : Nat) (f : FarCtx → FarCtx) : (s.modChain k f).icinvs = s.icinvs := rfl
@[simp] theorem State.modChain_codeRelease (s : State) (k : Nat) (f : FarCtx → FarCtx) : (s.modChain k f).codeRelease = s.codeRelease := rfl
@[simp] theorem State.modChain_tlb (s : State) (k : Nat) (f : FarCtx → FarCtx) : (s.modChain k f).tlb = s.tlb := rfl
@[simp] theorem State.modChain_qcount (s : State) (k : Nat) (f : FarCtx → FarCtx) : (s.modChain k f).qcount = s.qcount := rfl
@[simp] theorem State.modChain_moraine (s : State) (k : Nat) (f : FarCtx → FarCtx) : (s.modChain k f).moraine = s.moraine := rfl
@[simp] theorem State.modChain_requests (s : State) (k : Nat) (f : FarCtx → FarCtx) : (s.modChain k f).requests = s.requests := rfl
@[simp] theorem State.modChain_refused (s : State) (k : Nat) (f : FarCtx → FarCtx) : (s.modChain k f).refused = s.refused := rfl
@[simp] theorem State.modChain_keys (s : State) (k : Nat) (f : FarCtx → FarCtx) : (s.modChain k f).keys = s.keys := rfl
@[simp] theorem State.modChain_parts (s : State) (k : Nat) (f : FarCtx → FarCtx) : (s.modChain k f).parts = s.parts := rfl
@[simp] theorem State.modChain_ctxs (s : State) (k : Nat) (f : FarCtx → FarCtx) : (s.modChain k f).ctxs = s.ctxs := rfl
@[simp] theorem State.modChain_grids (s : State) (k : Nat) (f : FarCtx → FarCtx) : (s.modChain k f).grids = s.grids := rfl
@[simp] theorem State.modChain_spans (s : State) (k : Nat) (f : FarCtx → FarCtx) : (s.modChain k f).spans = s.spans := rfl
@[simp] theorem State.modChain_groups (s : State) (k : Nat) (f : FarCtx → FarCtx) : (s.modChain k f).groups = s.groups := rfl
@[simp] theorem State.modChain_squads (s : State) (k : Nat) (f : FarCtx → FarCtx) : (s.modChain k f).squads = s.squads := rfl
@[simp] theorem State.modChain_cores (s : State) (k : Nat) (f : FarCtx → FarCtx) : (s.modChain k f).cores = s.cores := rfl
@[simp] theorem State.modChain_clusters (s : State) (k : Nat) (f : FarCtx → FarCtx) : (s.modChain k f).clusters = s.clusters := rfl
@[simp] theorem State.modChain_islands (s : State) (k : Nat) (f : FarCtx → FarCtx) : (s.modChain k f).islands = s.islands := rfl
@[simp] theorem State.modChain_rounds (s : State) (k : Nat) (f : FarCtx → FarCtx) : (s.modChain k f).rounds = s.rounds := rfl
@[simp] theorem State.modChain_sharedLost (s : State) (k : Nat) (f : FarCtx → FarCtx) : (s.modChain k f).sharedLost = s.sharedLost := rfl
@[simp] theorem State.modChain_dieSync (s : State) (k : Nat) (f : FarCtx → FarCtx) : (s.modChain k f).dieSync = s.dieSync := rfl
@[simp] theorem State.modChain_dieLost (s : State) (k : Nat) (f : FarCtx → FarCtx) : (s.modChain k f).dieLost = s.dieLost := rfl
@[simp] theorem State.modChain_fns (s : State) (k : Nat) (f : FarCtx → FarCtx) : (s.modChain k f).fns = s.fns := rfl
@[simp] theorem State.modChain_delayed (s : State) (k : Nat) (f : FarCtx → FarCtx) : (s.modChain k f).delayed = s.delayed := rfl
@[simp] theorem State.modChain_firmware (s : State) (k : Nat) (f : FarCtx → FarCtx) : (s.modChain k f).firmware = s.firmware := rfl
@[simp] theorem State.modChain_firn (s : State) (k : Nat) (f : FarCtx → FarCtx) : (s.modChain k f).firn = s.firn := rfl
@[simp] theorem State.modChain_transReqs (s : State) (k : Nat) (f : FarCtx → FarCtx) : (s.modChain k f).transReqs = s.transReqs := rfl
@[simp] theorem State.modChain_sem (s : State) (k : Nat) (f : FarCtx → FarCtx) : (s.modChain k f).sem = s.sem := rfl
@[simp] theorem State.modChain_routes (s : State) (k : Nat) (f : FarCtx → FarCtx) : (s.modChain k f).routes = s.routes := rfl
@[simp] theorem State.modChain_podNumber (s : State) (k : Nat) (f : FarCtx → FarCtx) : (s.modChain k f).podNumber = s.podNumber := rfl
@[simp] theorem State.modChain_comms (s : State) (k : Nat) (f : FarCtx → FarCtx) : (s.modChain k f).comms = s.comms := rfl
@[simp] theorem State.modChain_spares (s : State) (k : Nat) (f : FarCtx → FarCtx) : (s.modChain k f).spares = s.spares := rfl
@[simp] theorem State.modChain_retirements (s : State) (k : Nat) (f : FarCtx → FarCtx) : (s.modChain k f).retirements = s.retirements := rfl
@[simp] theorem State.modChain_retiredClusters (s : State) (k : Nat) (f : FarCtx → FarCtx) : (s.modChain k f).retiredClusters = s.retiredClusters := rfl
@[simp] theorem State.modChain_powerCap (s : State) (k : Nat) (f : FarCtx → FarCtx) : (s.modChain k f).powerCap = s.powerCap := rfl
@[simp] theorem State.modChain_windowEnd (s : State) (k : Nat) (f : FarCtx → FarCtx) : (s.modChain k f).windowEnd = s.windowEnd := rfl
@[simp] theorem State.modChain_partQueue (s : State) (k : Nat) (f : FarCtx → FarCtx) : (s.modChain k f).partQueue = s.partQueue := rfl
@[simp] theorem State.modChain_doorbells (s : State) (k : Nat) (f : FarCtx → FarCtx) : (s.modChain k f).doorbells = s.doorbells := rfl
@[simp] theorem State.modChain_cxlMem (s : State) (k : Nat) (f : FarCtx → FarCtx) : (s.modChain k f).cxlMem = s.cxlMem := rfl
@[simp] theorem State.modChain_hostReply (s : State) (k : Nat) (f : FarCtx → FarCtx) : (s.modChain k f).hostReply = s.hostReply := rfl
@[simp] theorem State.modChain_read_squad (s : State) (k j : Nat) (f : FarCtx → FarCtx) : (s.modChain k f).squad? j = s.squad? j := rfl
@[simp] theorem State.modChain_read_group (s : State) (k j : Nat) (f : FarCtx → FarCtx) : (s.modChain k f).group? j = s.group? j := rfl
@[simp] theorem State.modChain_read_grid (s : State) (k j : Nat) (f : FarCtx → FarCtx) : (s.modChain k f).grid? j = s.grid? j := rfl
@[simp] theorem State.modChain_read_span (s : State) (k j : Nat) (f : FarCtx → FarCtx) : (s.modChain k f).span? j = s.span? j := rfl
@[simp] theorem State.modChain_read_ctx (s : State) (k j : Nat) (f : FarCtx → FarCtx) : (s.modChain k f).ctx? j = s.ctx? j := rfl
@[simp] theorem State.modChain_read_part (s : State) (k j : Nat) (f : FarCtx → FarCtx) : (s.modChain k f).part j = s.part j := rfl
@[simp] theorem State.modChain_read_core (s : State) (k j : Nat) (f : FarCtx → FarCtx) : (s.modChain k f).core j = s.core j := rfl
@[simp] theorem State.modChain_read_cluster (s : State) (k j : Nat) (f : FarCtx → FarCtx) : (s.modChain k f).cluster j = s.cluster j := rfl
@[simp] theorem State.modChain_read_island (s : State) (k j : Nat) (f : FarCtx → FarCtx) : (s.modChain k f).island j = s.island j := rfl
@[simp] theorem State.modChain_read_key (s : State) (k j : Nat) (f : FarCtx → FarCtx) : (s.modChain k f).key j = s.key j := rfl
@[simp] theorem State.modChain_read_fn (s : State) (k j : Nat) (f : FarCtx → FarCtx) : (s.modChain k f).fn j = s.fn j := rfl
theorem State.modChain_at (s : State) (k j : Nat) (f : FarCtx → FarCtx) :
    (s.modChain k f).chain j = if j = k then f (s.chain k) else s.chain j := by
  unfold State.chain State.modChain; rw [mapGet_upd]; split <;> rfl

/-! ### modKey -/

@[simp] theorem State.modKey_agenda (s : State) (k : Nat) (f : KeySlot → KeySlot) : (s.modKey k f).agenda = s.agenda := rfl
@[simp] theorem State.modKey_issuing (s : State) (k : Nat) (f : KeySlot → KeySlot) : (s.modKey k f).issuing = s.issuing := rfl
@[simp] theorem State.modKey_free (s : State) (k : Nat) (f : KeySlot → KeySlot) : (s.modKey k f).free = s.free := rfl
@[simp] theorem State.modKey_nextId (s : State) (k : Nat) (f : KeySlot → KeySlot) : (s.modKey k f).nextId = s.nextId := rfl
@[simp] theorem State.modKey_cycle (s : State) (k : Nat) (f : KeySlot → KeySlot) : (s.modKey k f).cycle = s.cycle := rfl
@[simp] theorem State.modKey_ns (s : State) (k : Nat) (f : KeySlot → KeySlot) : (s.modKey k f).ns = s.ns := rfl
@[simp] theorem State.modKey_mem (s : State) (k : Nat) (f : KeySlot → KeySlot) : (s.modKey k f).mem = s.mem := rfl
@[simp] theorem State.modKey_unitKeys (s : State) (k : Nat) (f : KeySlot → KeySlot) : (s.modKey k f).unitKeys = s.unitKeys := rfl
@[simp] theorem State.modKey_clearings (s : State) (k : Nat) (f : KeySlot → KeySlot) : (s.modKey k f).clearings = s.clearings := rfl
@[simp] theorem State.modKey_keyring (s : State) (k : Nat) (f : KeySlot → KeySlot) : (s.modKey k f).keyring = s.keyring := rfl
@[simp] theorem State.modKey_spoiled (s : State) (k : Nat) (f : KeySlot → KeySlot) : (s.modKey k f).spoiled = s.spoiled := rfl
@[simp] theorem State.modKey_outcopies (s : State) (k : Nat) (f : KeySlot → KeySlot) : (s.modKey k f).outcopies = s.outcopies := rfl
@[simp] theorem State.modKey_stale (s : State) (k : Nat) (f : KeySlot → KeySlot) : (s.modKey k f).stale = s.stale := rfl
@[simp] theorem State.modKey_icinvs (s : State) (k : Nat) (f : KeySlot → KeySlot) : (s.modKey k f).icinvs = s.icinvs := rfl
@[simp] theorem State.modKey_codeRelease (s : State) (k : Nat) (f : KeySlot → KeySlot) : (s.modKey k f).codeRelease = s.codeRelease := rfl
@[simp] theorem State.modKey_tlb (s : State) (k : Nat) (f : KeySlot → KeySlot) : (s.modKey k f).tlb = s.tlb := rfl
@[simp] theorem State.modKey_qcount (s : State) (k : Nat) (f : KeySlot → KeySlot) : (s.modKey k f).qcount = s.qcount := rfl
@[simp] theorem State.modKey_moraine (s : State) (k : Nat) (f : KeySlot → KeySlot) : (s.modKey k f).moraine = s.moraine := rfl
@[simp] theorem State.modKey_requests (s : State) (k : Nat) (f : KeySlot → KeySlot) : (s.modKey k f).requests = s.requests := rfl
@[simp] theorem State.modKey_refused (s : State) (k : Nat) (f : KeySlot → KeySlot) : (s.modKey k f).refused = s.refused := rfl
@[simp] theorem State.modKey_parts (s : State) (k : Nat) (f : KeySlot → KeySlot) : (s.modKey k f).parts = s.parts := rfl
@[simp] theorem State.modKey_ctxs (s : State) (k : Nat) (f : KeySlot → KeySlot) : (s.modKey k f).ctxs = s.ctxs := rfl
@[simp] theorem State.modKey_grids (s : State) (k : Nat) (f : KeySlot → KeySlot) : (s.modKey k f).grids = s.grids := rfl
@[simp] theorem State.modKey_spans (s : State) (k : Nat) (f : KeySlot → KeySlot) : (s.modKey k f).spans = s.spans := rfl
@[simp] theorem State.modKey_groups (s : State) (k : Nat) (f : KeySlot → KeySlot) : (s.modKey k f).groups = s.groups := rfl
@[simp] theorem State.modKey_squads (s : State) (k : Nat) (f : KeySlot → KeySlot) : (s.modKey k f).squads = s.squads := rfl
@[simp] theorem State.modKey_cores (s : State) (k : Nat) (f : KeySlot → KeySlot) : (s.modKey k f).cores = s.cores := rfl
@[simp] theorem State.modKey_clusters (s : State) (k : Nat) (f : KeySlot → KeySlot) : (s.modKey k f).clusters = s.clusters := rfl
@[simp] theorem State.modKey_islands (s : State) (k : Nat) (f : KeySlot → KeySlot) : (s.modKey k f).islands = s.islands := rfl
@[simp] theorem State.modKey_chains (s : State) (k : Nat) (f : KeySlot → KeySlot) : (s.modKey k f).chains = s.chains := rfl
@[simp] theorem State.modKey_rounds (s : State) (k : Nat) (f : KeySlot → KeySlot) : (s.modKey k f).rounds = s.rounds := rfl
@[simp] theorem State.modKey_sharedLost (s : State) (k : Nat) (f : KeySlot → KeySlot) : (s.modKey k f).sharedLost = s.sharedLost := rfl
@[simp] theorem State.modKey_dieSync (s : State) (k : Nat) (f : KeySlot → KeySlot) : (s.modKey k f).dieSync = s.dieSync := rfl
@[simp] theorem State.modKey_dieLost (s : State) (k : Nat) (f : KeySlot → KeySlot) : (s.modKey k f).dieLost = s.dieLost := rfl
@[simp] theorem State.modKey_fns (s : State) (k : Nat) (f : KeySlot → KeySlot) : (s.modKey k f).fns = s.fns := rfl
@[simp] theorem State.modKey_delayed (s : State) (k : Nat) (f : KeySlot → KeySlot) : (s.modKey k f).delayed = s.delayed := rfl
@[simp] theorem State.modKey_firmware (s : State) (k : Nat) (f : KeySlot → KeySlot) : (s.modKey k f).firmware = s.firmware := rfl
@[simp] theorem State.modKey_firn (s : State) (k : Nat) (f : KeySlot → KeySlot) : (s.modKey k f).firn = s.firn := rfl
@[simp] theorem State.modKey_transReqs (s : State) (k : Nat) (f : KeySlot → KeySlot) : (s.modKey k f).transReqs = s.transReqs := rfl
@[simp] theorem State.modKey_sem (s : State) (k : Nat) (f : KeySlot → KeySlot) : (s.modKey k f).sem = s.sem := rfl
@[simp] theorem State.modKey_routes (s : State) (k : Nat) (f : KeySlot → KeySlot) : (s.modKey k f).routes = s.routes := rfl
@[simp] theorem State.modKey_podNumber (s : State) (k : Nat) (f : KeySlot → KeySlot) : (s.modKey k f).podNumber = s.podNumber := rfl
@[simp] theorem State.modKey_comms (s : State) (k : Nat) (f : KeySlot → KeySlot) : (s.modKey k f).comms = s.comms := rfl
@[simp] theorem State.modKey_spares (s : State) (k : Nat) (f : KeySlot → KeySlot) : (s.modKey k f).spares = s.spares := rfl
@[simp] theorem State.modKey_retirements (s : State) (k : Nat) (f : KeySlot → KeySlot) : (s.modKey k f).retirements = s.retirements := rfl
@[simp] theorem State.modKey_retiredClusters (s : State) (k : Nat) (f : KeySlot → KeySlot) : (s.modKey k f).retiredClusters = s.retiredClusters := rfl
@[simp] theorem State.modKey_powerCap (s : State) (k : Nat) (f : KeySlot → KeySlot) : (s.modKey k f).powerCap = s.powerCap := rfl
@[simp] theorem State.modKey_windowEnd (s : State) (k : Nat) (f : KeySlot → KeySlot) : (s.modKey k f).windowEnd = s.windowEnd := rfl
@[simp] theorem State.modKey_partQueue (s : State) (k : Nat) (f : KeySlot → KeySlot) : (s.modKey k f).partQueue = s.partQueue := rfl
@[simp] theorem State.modKey_doorbells (s : State) (k : Nat) (f : KeySlot → KeySlot) : (s.modKey k f).doorbells = s.doorbells := rfl
@[simp] theorem State.modKey_cxlMem (s : State) (k : Nat) (f : KeySlot → KeySlot) : (s.modKey k f).cxlMem = s.cxlMem := rfl
@[simp] theorem State.modKey_hostReply (s : State) (k : Nat) (f : KeySlot → KeySlot) : (s.modKey k f).hostReply = s.hostReply := rfl
@[simp] theorem State.modKey_read_squad (s : State) (k j : Nat) (f : KeySlot → KeySlot) : (s.modKey k f).squad? j = s.squad? j := rfl
@[simp] theorem State.modKey_read_group (s : State) (k j : Nat) (f : KeySlot → KeySlot) : (s.modKey k f).group? j = s.group? j := rfl
@[simp] theorem State.modKey_read_grid (s : State) (k j : Nat) (f : KeySlot → KeySlot) : (s.modKey k f).grid? j = s.grid? j := rfl
@[simp] theorem State.modKey_read_span (s : State) (k j : Nat) (f : KeySlot → KeySlot) : (s.modKey k f).span? j = s.span? j := rfl
@[simp] theorem State.modKey_read_ctx (s : State) (k j : Nat) (f : KeySlot → KeySlot) : (s.modKey k f).ctx? j = s.ctx? j := rfl
@[simp] theorem State.modKey_read_part (s : State) (k j : Nat) (f : KeySlot → KeySlot) : (s.modKey k f).part j = s.part j := rfl
@[simp] theorem State.modKey_read_core (s : State) (k j : Nat) (f : KeySlot → KeySlot) : (s.modKey k f).core j = s.core j := rfl
@[simp] theorem State.modKey_read_cluster (s : State) (k j : Nat) (f : KeySlot → KeySlot) : (s.modKey k f).cluster j = s.cluster j := rfl
@[simp] theorem State.modKey_read_island (s : State) (k j : Nat) (f : KeySlot → KeySlot) : (s.modKey k f).island j = s.island j := rfl
@[simp] theorem State.modKey_read_chain (s : State) (k j : Nat) (f : KeySlot → KeySlot) : (s.modKey k f).chain j = s.chain j := rfl
@[simp] theorem State.modKey_read_fn (s : State) (k j : Nat) (f : KeySlot → KeySlot) : (s.modKey k f).fn j = s.fn j := rfl
theorem State.modKey_at (s : State) (k j : Nat) (f : KeySlot → KeySlot) :
    (s.modKey k f).key j = if j = k then f (s.key k) else s.key j := by
  unfold State.key State.modKey; rw [mapGet_upd]; split <;> rfl

/-! ### modFn -/

@[simp] theorem State.modFn_agenda (s : State) (k : Nat) (f : FnRegs → FnRegs) : (s.modFn k f).agenda = s.agenda := rfl
@[simp] theorem State.modFn_issuing (s : State) (k : Nat) (f : FnRegs → FnRegs) : (s.modFn k f).issuing = s.issuing := rfl
@[simp] theorem State.modFn_free (s : State) (k : Nat) (f : FnRegs → FnRegs) : (s.modFn k f).free = s.free := rfl
@[simp] theorem State.modFn_nextId (s : State) (k : Nat) (f : FnRegs → FnRegs) : (s.modFn k f).nextId = s.nextId := rfl
@[simp] theorem State.modFn_cycle (s : State) (k : Nat) (f : FnRegs → FnRegs) : (s.modFn k f).cycle = s.cycle := rfl
@[simp] theorem State.modFn_ns (s : State) (k : Nat) (f : FnRegs → FnRegs) : (s.modFn k f).ns = s.ns := rfl
@[simp] theorem State.modFn_mem (s : State) (k : Nat) (f : FnRegs → FnRegs) : (s.modFn k f).mem = s.mem := rfl
@[simp] theorem State.modFn_unitKeys (s : State) (k : Nat) (f : FnRegs → FnRegs) : (s.modFn k f).unitKeys = s.unitKeys := rfl
@[simp] theorem State.modFn_clearings (s : State) (k : Nat) (f : FnRegs → FnRegs) : (s.modFn k f).clearings = s.clearings := rfl
@[simp] theorem State.modFn_keyring (s : State) (k : Nat) (f : FnRegs → FnRegs) : (s.modFn k f).keyring = s.keyring := rfl
@[simp] theorem State.modFn_spoiled (s : State) (k : Nat) (f : FnRegs → FnRegs) : (s.modFn k f).spoiled = s.spoiled := rfl
@[simp] theorem State.modFn_outcopies (s : State) (k : Nat) (f : FnRegs → FnRegs) : (s.modFn k f).outcopies = s.outcopies := rfl
@[simp] theorem State.modFn_stale (s : State) (k : Nat) (f : FnRegs → FnRegs) : (s.modFn k f).stale = s.stale := rfl
@[simp] theorem State.modFn_icinvs (s : State) (k : Nat) (f : FnRegs → FnRegs) : (s.modFn k f).icinvs = s.icinvs := rfl
@[simp] theorem State.modFn_codeRelease (s : State) (k : Nat) (f : FnRegs → FnRegs) : (s.modFn k f).codeRelease = s.codeRelease := rfl
@[simp] theorem State.modFn_tlb (s : State) (k : Nat) (f : FnRegs → FnRegs) : (s.modFn k f).tlb = s.tlb := rfl
@[simp] theorem State.modFn_qcount (s : State) (k : Nat) (f : FnRegs → FnRegs) : (s.modFn k f).qcount = s.qcount := rfl
@[simp] theorem State.modFn_moraine (s : State) (k : Nat) (f : FnRegs → FnRegs) : (s.modFn k f).moraine = s.moraine := rfl
@[simp] theorem State.modFn_requests (s : State) (k : Nat) (f : FnRegs → FnRegs) : (s.modFn k f).requests = s.requests := rfl
@[simp] theorem State.modFn_refused (s : State) (k : Nat) (f : FnRegs → FnRegs) : (s.modFn k f).refused = s.refused := rfl
@[simp] theorem State.modFn_keys (s : State) (k : Nat) (f : FnRegs → FnRegs) : (s.modFn k f).keys = s.keys := rfl
@[simp] theorem State.modFn_parts (s : State) (k : Nat) (f : FnRegs → FnRegs) : (s.modFn k f).parts = s.parts := rfl
@[simp] theorem State.modFn_ctxs (s : State) (k : Nat) (f : FnRegs → FnRegs) : (s.modFn k f).ctxs = s.ctxs := rfl
@[simp] theorem State.modFn_grids (s : State) (k : Nat) (f : FnRegs → FnRegs) : (s.modFn k f).grids = s.grids := rfl
@[simp] theorem State.modFn_spans (s : State) (k : Nat) (f : FnRegs → FnRegs) : (s.modFn k f).spans = s.spans := rfl
@[simp] theorem State.modFn_groups (s : State) (k : Nat) (f : FnRegs → FnRegs) : (s.modFn k f).groups = s.groups := rfl
@[simp] theorem State.modFn_squads (s : State) (k : Nat) (f : FnRegs → FnRegs) : (s.modFn k f).squads = s.squads := rfl
@[simp] theorem State.modFn_cores (s : State) (k : Nat) (f : FnRegs → FnRegs) : (s.modFn k f).cores = s.cores := rfl
@[simp] theorem State.modFn_clusters (s : State) (k : Nat) (f : FnRegs → FnRegs) : (s.modFn k f).clusters = s.clusters := rfl
@[simp] theorem State.modFn_islands (s : State) (k : Nat) (f : FnRegs → FnRegs) : (s.modFn k f).islands = s.islands := rfl
@[simp] theorem State.modFn_chains (s : State) (k : Nat) (f : FnRegs → FnRegs) : (s.modFn k f).chains = s.chains := rfl
@[simp] theorem State.modFn_rounds (s : State) (k : Nat) (f : FnRegs → FnRegs) : (s.modFn k f).rounds = s.rounds := rfl
@[simp] theorem State.modFn_sharedLost (s : State) (k : Nat) (f : FnRegs → FnRegs) : (s.modFn k f).sharedLost = s.sharedLost := rfl
@[simp] theorem State.modFn_dieSync (s : State) (k : Nat) (f : FnRegs → FnRegs) : (s.modFn k f).dieSync = s.dieSync := rfl
@[simp] theorem State.modFn_dieLost (s : State) (k : Nat) (f : FnRegs → FnRegs) : (s.modFn k f).dieLost = s.dieLost := rfl
@[simp] theorem State.modFn_delayed (s : State) (k : Nat) (f : FnRegs → FnRegs) : (s.modFn k f).delayed = s.delayed := rfl
@[simp] theorem State.modFn_firmware (s : State) (k : Nat) (f : FnRegs → FnRegs) : (s.modFn k f).firmware = s.firmware := rfl
@[simp] theorem State.modFn_firn (s : State) (k : Nat) (f : FnRegs → FnRegs) : (s.modFn k f).firn = s.firn := rfl
@[simp] theorem State.modFn_transReqs (s : State) (k : Nat) (f : FnRegs → FnRegs) : (s.modFn k f).transReqs = s.transReqs := rfl
@[simp] theorem State.modFn_sem (s : State) (k : Nat) (f : FnRegs → FnRegs) : (s.modFn k f).sem = s.sem := rfl
@[simp] theorem State.modFn_routes (s : State) (k : Nat) (f : FnRegs → FnRegs) : (s.modFn k f).routes = s.routes := rfl
@[simp] theorem State.modFn_podNumber (s : State) (k : Nat) (f : FnRegs → FnRegs) : (s.modFn k f).podNumber = s.podNumber := rfl
@[simp] theorem State.modFn_comms (s : State) (k : Nat) (f : FnRegs → FnRegs) : (s.modFn k f).comms = s.comms := rfl
@[simp] theorem State.modFn_spares (s : State) (k : Nat) (f : FnRegs → FnRegs) : (s.modFn k f).spares = s.spares := rfl
@[simp] theorem State.modFn_retirements (s : State) (k : Nat) (f : FnRegs → FnRegs) : (s.modFn k f).retirements = s.retirements := rfl
@[simp] theorem State.modFn_retiredClusters (s : State) (k : Nat) (f : FnRegs → FnRegs) : (s.modFn k f).retiredClusters = s.retiredClusters := rfl
@[simp] theorem State.modFn_powerCap (s : State) (k : Nat) (f : FnRegs → FnRegs) : (s.modFn k f).powerCap = s.powerCap := rfl
@[simp] theorem State.modFn_windowEnd (s : State) (k : Nat) (f : FnRegs → FnRegs) : (s.modFn k f).windowEnd = s.windowEnd := rfl
@[simp] theorem State.modFn_partQueue (s : State) (k : Nat) (f : FnRegs → FnRegs) : (s.modFn k f).partQueue = s.partQueue := rfl
@[simp] theorem State.modFn_doorbells (s : State) (k : Nat) (f : FnRegs → FnRegs) : (s.modFn k f).doorbells = s.doorbells := rfl
@[simp] theorem State.modFn_cxlMem (s : State) (k : Nat) (f : FnRegs → FnRegs) : (s.modFn k f).cxlMem = s.cxlMem := rfl
@[simp] theorem State.modFn_hostReply (s : State) (k : Nat) (f : FnRegs → FnRegs) : (s.modFn k f).hostReply = s.hostReply := rfl
@[simp] theorem State.modFn_read_squad (s : State) (k j : Nat) (f : FnRegs → FnRegs) : (s.modFn k f).squad? j = s.squad? j := rfl
@[simp] theorem State.modFn_read_group (s : State) (k j : Nat) (f : FnRegs → FnRegs) : (s.modFn k f).group? j = s.group? j := rfl
@[simp] theorem State.modFn_read_grid (s : State) (k j : Nat) (f : FnRegs → FnRegs) : (s.modFn k f).grid? j = s.grid? j := rfl
@[simp] theorem State.modFn_read_span (s : State) (k j : Nat) (f : FnRegs → FnRegs) : (s.modFn k f).span? j = s.span? j := rfl
@[simp] theorem State.modFn_read_ctx (s : State) (k j : Nat) (f : FnRegs → FnRegs) : (s.modFn k f).ctx? j = s.ctx? j := rfl
@[simp] theorem State.modFn_read_part (s : State) (k j : Nat) (f : FnRegs → FnRegs) : (s.modFn k f).part j = s.part j := rfl
@[simp] theorem State.modFn_read_core (s : State) (k j : Nat) (f : FnRegs → FnRegs) : (s.modFn k f).core j = s.core j := rfl
@[simp] theorem State.modFn_read_cluster (s : State) (k j : Nat) (f : FnRegs → FnRegs) : (s.modFn k f).cluster j = s.cluster j := rfl
@[simp] theorem State.modFn_read_island (s : State) (k j : Nat) (f : FnRegs → FnRegs) : (s.modFn k f).island j = s.island j := rfl
@[simp] theorem State.modFn_read_chain (s : State) (k j : Nat) (f : FnRegs → FnRegs) : (s.modFn k f).chain j = s.chain j := rfl
@[simp] theorem State.modFn_read_key (s : State) (k j : Nat) (f : FnRegs → FnRegs) : (s.modFn k f).key j = s.key j := rfl
theorem State.modFn_at (s : State) (k j : Nat) (f : FnRegs → FnRegs) :
    (s.modFn k f).fn j = if j = k then f (s.fn k) else s.fn j := by
  unfold State.fn State.modFn; rw [mapGet_upd]; split <;> rfl

/-! ### setSquad, fresh -/

@[simp] theorem State.setSquad_agenda (s : State) (k : Nat) (q : Squad) : (s.setSquad k q).agenda = s.agenda := rfl
@[simp] theorem State.setSquad_issuing (s : State) (k : Nat) (q : Squad) : (s.setSquad k q).issuing = s.issuing := rfl
@[simp] theorem State.setSquad_free (s : State) (k : Nat) (q : Squad) : (s.setSquad k q).free = s.free := rfl
@[simp] theorem State.setSquad_nextId (s : State) (k : Nat) (q : Squad) : (s.setSquad k q).nextId = s.nextId := rfl
@[simp] theorem State.setSquad_cycle (s : State) (k : Nat) (q : Squad) : (s.setSquad k q).cycle = s.cycle := rfl
@[simp] theorem State.setSquad_ns (s : State) (k : Nat) (q : Squad) : (s.setSquad k q).ns = s.ns := rfl
@[simp] theorem State.setSquad_mem (s : State) (k : Nat) (q : Squad) : (s.setSquad k q).mem = s.mem := rfl
@[simp] theorem State.setSquad_unitKeys (s : State) (k : Nat) (q : Squad) : (s.setSquad k q).unitKeys = s.unitKeys := rfl
@[simp] theorem State.setSquad_clearings (s : State) (k : Nat) (q : Squad) : (s.setSquad k q).clearings = s.clearings := rfl
@[simp] theorem State.setSquad_keyring (s : State) (k : Nat) (q : Squad) : (s.setSquad k q).keyring = s.keyring := rfl
@[simp] theorem State.setSquad_spoiled (s : State) (k : Nat) (q : Squad) : (s.setSquad k q).spoiled = s.spoiled := rfl
@[simp] theorem State.setSquad_outcopies (s : State) (k : Nat) (q : Squad) : (s.setSquad k q).outcopies = s.outcopies := rfl
@[simp] theorem State.setSquad_stale (s : State) (k : Nat) (q : Squad) : (s.setSquad k q).stale = s.stale := rfl
@[simp] theorem State.setSquad_icinvs (s : State) (k : Nat) (q : Squad) : (s.setSquad k q).icinvs = s.icinvs := rfl
@[simp] theorem State.setSquad_codeRelease (s : State) (k : Nat) (q : Squad) : (s.setSquad k q).codeRelease = s.codeRelease := rfl
@[simp] theorem State.setSquad_tlb (s : State) (k : Nat) (q : Squad) : (s.setSquad k q).tlb = s.tlb := rfl
@[simp] theorem State.setSquad_qcount (s : State) (k : Nat) (q : Squad) : (s.setSquad k q).qcount = s.qcount := rfl
@[simp] theorem State.setSquad_moraine (s : State) (k : Nat) (q : Squad) : (s.setSquad k q).moraine = s.moraine := rfl
@[simp] theorem State.setSquad_requests (s : State) (k : Nat) (q : Squad) : (s.setSquad k q).requests = s.requests := rfl
@[simp] theorem State.setSquad_refused (s : State) (k : Nat) (q : Squad) : (s.setSquad k q).refused = s.refused := rfl
@[simp] theorem State.setSquad_keys (s : State) (k : Nat) (q : Squad) : (s.setSquad k q).keys = s.keys := rfl
@[simp] theorem State.setSquad_parts (s : State) (k : Nat) (q : Squad) : (s.setSquad k q).parts = s.parts := rfl
@[simp] theorem State.setSquad_ctxs (s : State) (k : Nat) (q : Squad) : (s.setSquad k q).ctxs = s.ctxs := rfl
@[simp] theorem State.setSquad_grids (s : State) (k : Nat) (q : Squad) : (s.setSquad k q).grids = s.grids := rfl
@[simp] theorem State.setSquad_spans (s : State) (k : Nat) (q : Squad) : (s.setSquad k q).spans = s.spans := rfl
@[simp] theorem State.setSquad_groups (s : State) (k : Nat) (q : Squad) : (s.setSquad k q).groups = s.groups := rfl
@[simp] theorem State.setSquad_cores (s : State) (k : Nat) (q : Squad) : (s.setSquad k q).cores = s.cores := rfl
@[simp] theorem State.setSquad_clusters (s : State) (k : Nat) (q : Squad) : (s.setSquad k q).clusters = s.clusters := rfl
@[simp] theorem State.setSquad_islands (s : State) (k : Nat) (q : Squad) : (s.setSquad k q).islands = s.islands := rfl
@[simp] theorem State.setSquad_chains (s : State) (k : Nat) (q : Squad) : (s.setSquad k q).chains = s.chains := rfl
@[simp] theorem State.setSquad_rounds (s : State) (k : Nat) (q : Squad) : (s.setSquad k q).rounds = s.rounds := rfl
@[simp] theorem State.setSquad_sharedLost (s : State) (k : Nat) (q : Squad) : (s.setSquad k q).sharedLost = s.sharedLost := rfl
@[simp] theorem State.setSquad_dieSync (s : State) (k : Nat) (q : Squad) : (s.setSquad k q).dieSync = s.dieSync := rfl
@[simp] theorem State.setSquad_dieLost (s : State) (k : Nat) (q : Squad) : (s.setSquad k q).dieLost = s.dieLost := rfl
@[simp] theorem State.setSquad_fns (s : State) (k : Nat) (q : Squad) : (s.setSquad k q).fns = s.fns := rfl
@[simp] theorem State.setSquad_delayed (s : State) (k : Nat) (q : Squad) : (s.setSquad k q).delayed = s.delayed := rfl
@[simp] theorem State.setSquad_firmware (s : State) (k : Nat) (q : Squad) : (s.setSquad k q).firmware = s.firmware := rfl
@[simp] theorem State.setSquad_firn (s : State) (k : Nat) (q : Squad) : (s.setSquad k q).firn = s.firn := rfl
@[simp] theorem State.setSquad_transReqs (s : State) (k : Nat) (q : Squad) : (s.setSquad k q).transReqs = s.transReqs := rfl
@[simp] theorem State.setSquad_sem (s : State) (k : Nat) (q : Squad) : (s.setSquad k q).sem = s.sem := rfl
@[simp] theorem State.setSquad_routes (s : State) (k : Nat) (q : Squad) : (s.setSquad k q).routes = s.routes := rfl
@[simp] theorem State.setSquad_podNumber (s : State) (k : Nat) (q : Squad) : (s.setSquad k q).podNumber = s.podNumber := rfl
@[simp] theorem State.setSquad_comms (s : State) (k : Nat) (q : Squad) : (s.setSquad k q).comms = s.comms := rfl
@[simp] theorem State.setSquad_spares (s : State) (k : Nat) (q : Squad) : (s.setSquad k q).spares = s.spares := rfl
@[simp] theorem State.setSquad_retirements (s : State) (k : Nat) (q : Squad) : (s.setSquad k q).retirements = s.retirements := rfl
@[simp] theorem State.setSquad_retiredClusters (s : State) (k : Nat) (q : Squad) : (s.setSquad k q).retiredClusters = s.retiredClusters := rfl
@[simp] theorem State.setSquad_powerCap (s : State) (k : Nat) (q : Squad) : (s.setSquad k q).powerCap = s.powerCap := rfl
@[simp] theorem State.setSquad_windowEnd (s : State) (k : Nat) (q : Squad) : (s.setSquad k q).windowEnd = s.windowEnd := rfl
@[simp] theorem State.setSquad_partQueue (s : State) (k : Nat) (q : Squad) : (s.setSquad k q).partQueue = s.partQueue := rfl
@[simp] theorem State.setSquad_doorbells (s : State) (k : Nat) (q : Squad) : (s.setSquad k q).doorbells = s.doorbells := rfl
@[simp] theorem State.setSquad_cxlMem (s : State) (k : Nat) (q : Squad) : (s.setSquad k q).cxlMem = s.cxlMem := rfl
@[simp] theorem State.setSquad_hostReply (s : State) (k : Nat) (q : Squad) : (s.setSquad k q).hostReply = s.hostReply := rfl
theorem State.setSquad_at (s : State) (k j : Nat) (q : Squad) : (s.setSquad k q).squad? j = if j = k then some q else s.squad? j := mapGet_set ..
@[simp] theorem State.fresh_agenda (s : State) : s.fresh.2.agenda = s.agenda := rfl
@[simp] theorem State.fresh_issuing (s : State) : s.fresh.2.issuing = s.issuing := rfl
@[simp] theorem State.fresh_free (s : State) : s.fresh.2.free = s.free := rfl
@[simp] theorem State.fresh_cycle (s : State) : s.fresh.2.cycle = s.cycle := rfl
@[simp] theorem State.fresh_ns (s : State) : s.fresh.2.ns = s.ns := rfl
@[simp] theorem State.fresh_mem (s : State) : s.fresh.2.mem = s.mem := rfl
@[simp] theorem State.fresh_unitKeys (s : State) : s.fresh.2.unitKeys = s.unitKeys := rfl
@[simp] theorem State.fresh_clearings (s : State) : s.fresh.2.clearings = s.clearings := rfl
@[simp] theorem State.fresh_keyring (s : State) : s.fresh.2.keyring = s.keyring := rfl
@[simp] theorem State.fresh_spoiled (s : State) : s.fresh.2.spoiled = s.spoiled := rfl
@[simp] theorem State.fresh_outcopies (s : State) : s.fresh.2.outcopies = s.outcopies := rfl
@[simp] theorem State.fresh_stale (s : State) : s.fresh.2.stale = s.stale := rfl
@[simp] theorem State.fresh_icinvs (s : State) : s.fresh.2.icinvs = s.icinvs := rfl
@[simp] theorem State.fresh_codeRelease (s : State) : s.fresh.2.codeRelease = s.codeRelease := rfl
@[simp] theorem State.fresh_tlb (s : State) : s.fresh.2.tlb = s.tlb := rfl
@[simp] theorem State.fresh_qcount (s : State) : s.fresh.2.qcount = s.qcount := rfl
@[simp] theorem State.fresh_moraine (s : State) : s.fresh.2.moraine = s.moraine := rfl
@[simp] theorem State.fresh_requests (s : State) : s.fresh.2.requests = s.requests := rfl
@[simp] theorem State.fresh_refused (s : State) : s.fresh.2.refused = s.refused := rfl
@[simp] theorem State.fresh_keys (s : State) : s.fresh.2.keys = s.keys := rfl
@[simp] theorem State.fresh_parts (s : State) : s.fresh.2.parts = s.parts := rfl
@[simp] theorem State.fresh_ctxs (s : State) : s.fresh.2.ctxs = s.ctxs := rfl
@[simp] theorem State.fresh_grids (s : State) : s.fresh.2.grids = s.grids := rfl
@[simp] theorem State.fresh_spans (s : State) : s.fresh.2.spans = s.spans := rfl
@[simp] theorem State.fresh_groups (s : State) : s.fresh.2.groups = s.groups := rfl
@[simp] theorem State.fresh_squads (s : State) : s.fresh.2.squads = s.squads := rfl
@[simp] theorem State.fresh_cores (s : State) : s.fresh.2.cores = s.cores := rfl
@[simp] theorem State.fresh_clusters (s : State) : s.fresh.2.clusters = s.clusters := rfl
@[simp] theorem State.fresh_islands (s : State) : s.fresh.2.islands = s.islands := rfl
@[simp] theorem State.fresh_chains (s : State) : s.fresh.2.chains = s.chains := rfl
@[simp] theorem State.fresh_rounds (s : State) : s.fresh.2.rounds = s.rounds := rfl
@[simp] theorem State.fresh_sharedLost (s : State) : s.fresh.2.sharedLost = s.sharedLost := rfl
@[simp] theorem State.fresh_dieSync (s : State) : s.fresh.2.dieSync = s.dieSync := rfl
@[simp] theorem State.fresh_dieLost (s : State) : s.fresh.2.dieLost = s.dieLost := rfl
@[simp] theorem State.fresh_fns (s : State) : s.fresh.2.fns = s.fns := rfl
@[simp] theorem State.fresh_delayed (s : State) : s.fresh.2.delayed = s.delayed := rfl
@[simp] theorem State.fresh_firmware (s : State) : s.fresh.2.firmware = s.firmware := rfl
@[simp] theorem State.fresh_firn (s : State) : s.fresh.2.firn = s.firn := rfl
@[simp] theorem State.fresh_transReqs (s : State) : s.fresh.2.transReqs = s.transReqs := rfl
@[simp] theorem State.fresh_sem (s : State) : s.fresh.2.sem = s.sem := rfl
@[simp] theorem State.fresh_routes (s : State) : s.fresh.2.routes = s.routes := rfl
@[simp] theorem State.fresh_podNumber (s : State) : s.fresh.2.podNumber = s.podNumber := rfl
@[simp] theorem State.fresh_comms (s : State) : s.fresh.2.comms = s.comms := rfl
@[simp] theorem State.fresh_spares (s : State) : s.fresh.2.spares = s.spares := rfl
@[simp] theorem State.fresh_retirements (s : State) : s.fresh.2.retirements = s.retirements := rfl
@[simp] theorem State.fresh_retiredClusters (s : State) : s.fresh.2.retiredClusters = s.retiredClusters := rfl
@[simp] theorem State.fresh_powerCap (s : State) : s.fresh.2.powerCap = s.powerCap := rfl
@[simp] theorem State.fresh_windowEnd (s : State) : s.fresh.2.windowEnd = s.windowEnd := rfl
@[simp] theorem State.fresh_partQueue (s : State) : s.fresh.2.partQueue = s.partQueue := rfl
@[simp] theorem State.fresh_doorbells (s : State) : s.fresh.2.doorbells = s.doorbells := rfl
@[simp] theorem State.fresh_cxlMem (s : State) : s.fresh.2.cxlMem = s.cxlMem := rfl
@[simp] theorem State.fresh_hostReply (s : State) : s.fresh.2.hostReply = s.hostReply := rfl

end Sys2Proof.Machine
end

