-- ==== Sys2Proof/Tests/Slice0.lean ====
section
/-!
SUPPORT. The model's own tests: terms that no words stand for; words of the manual's grids and examples, decoded and encoded; one step of
many instructions; and, for each statement, states and operands that meet its hypotheses together. Expected values come from the manual.
-/
namespace Sys2Proof.Tests
set_option Elab.async false
open Sys2Proof Sys2Proof.Machine

/-! ### Well-formed terms -/

/-- R22, R24, R27: the code of a name that is not a reserved one, in any field, is refused; a reserved code is a field like any other. -/
theorem test_wf_names :
    let bad : Name := .reserved 0x10#8
    ([{ sOps (.v 1) (.v 2) (.v 3) with a := Src.mk bad false }, sOps (.v 1) (.v 2) bad, sOps bad (.v 2) (.v 3),
      { sOps (.v 1) (.v 2) (.v 3) with c := Src.mk bad false },
      { sOps (.v 1) (.v 2) (.v 3) with guard := { reg := bad, bit := 0#5, sense := false } }].all
        fun o => !(Instr.add o).wellFormed) = true ∧
      (Instr.add (sOps (.v 1) (.v 2) (.reserved 0xDD#8))).wellFormed = true := by decide +kernel

/-- R26: the same in the S forms. -/
theorem test_wf_short :
    (Instr.addS (.v 1) (.reserved 0#8) (.v 3)).wellFormed = false ∧ (Instr.stsWS (.v 1) 0#8 (.reserved 0#8)).wellFormed = false ∧
      (Instr.addS (.v 1) (.v 2) (.v 3)).wellFormed = true := by decide +kernel

/-- R32: the engine's number stands in C[2:0]. -/
theorem test_wf_engine :
    let x (n : Nat) : Ops := { sOps (.s 10) (.s 1) (.s 2) with c := Src.ofNat n }
    (Instr.mxMma (x 0)).wellFormed = false ∧ (Instr.mxMma (x 1)).wellFormed = true := by decide +kernel

/-- R34: as many words as LEN says. -/
theorem test_wf_tree :
    let t (n : Nat) : Tree :=
      { top := 0#16, stem := 1#2, nodeMask := 1#7, len := 6#5, top1 := 0#4, arcMap := 0#28, body := List.replicate n 0#32 }
    (Instr.tree (t 3)).wellFormed = false ∧ (Instr.tree (t 4)).wellFormed = true := by decide +kernel

/-- R324, R327, R330: rows that share another row's word. -/
theorem test_wf_shared_words :
    let o := sOps (.s 3) (.s 1) (.s 2)
    [Instr.keyUnbind o, .rwatchClearRange o, .rwatchSetRing o, .rwatchWriteHead o, .mgsemAcquire o, .mgsemRenew o, .mgsemRelease o,
      .chctlWrite o].all (fun i => !i.wellFormed) = true := by decide +kernel

/-! ### Words -/

/-- Words decode to an instruction, whole, and are what it is encoded as. -/
def codes (ws : List Word32) (i : Instr) : Bool :=
  encode i == ws && match decodeWords ws with
    | .ok (j, []) => j == i
    | _ => false

/-- R27, R43: A = v2, B = v3, C = `none`, D = v1, unguarded. -/
theorem test_words_arithmetic :
    let o := sOps (.v 1) (.v 2) (.v 3)
    let rows : List (Word32 × Instr) :=
     [(0x00602001#32, .nop o), (0x00602005#32, .mov o), (0x00602009#32, .add o), (0x0060200D#32, .sub o), (0x00602011#32, .mul o),
      (0x00602015#32, .mulhi o), (0x00602019#32, .mulhiU o), (0x0060201D#32, .mad o), (0x00602021#32, .min o), (0x00602025#32, .max o),
      (0x00602029#32, .minU o), (0x0060202D#32, .maxU o), (0x00602031#32, .abs o), (0x00602035#32, .neg o), (0x00602039#32, .and o),
      (0x0060203D#32, .or o)]
    rows.all (fun r => codes [r.1, 0x03FC02FF#32] r.2) = true := by decide +kernel

/-- R27, R43: A = v2, B = v3, C = `none`, D = v1, unguarded. -/
theorem test_words_logic :
    let o := sOps (.v 1) (.v 2) (.v 3)
    let rows : List (Word32 × Instr) :=
     [(0x00602041#32, .xor o), (0x00602045#32, .not o), (0x00602049#32, .andn o), (0x0060204D#32, .shl o), (0x00602051#32, .shr o),
      (0x00602055#32, .sra o), (0x00602059#32, .rotl o), (0x0060205D#32, .clz o), (0x00602061#32, .popc o), (0x00602065#32, .brev o),
      (0x00602069#32, .bfe o), (0x0060206D#32, .bfeS o), (0x00602071#32, .bfi o), (0x00602075#32, .sel o)]
    rows.all (fun r => codes [r.1, 0x03FC02FF#32] r.2) = true := by decide +kernel

/-- R27, R43: A = v2, B = v3, C = `none`, D = v1, unguarded. -/
theorem test_words_compares :
    let o := sOps (.v 1) (.v 2) (.v 3)
    let rows : List (Word32 × Instr) :=
     [(0x00602081#32, .setbEq o), (0x00602085#32, .setbNe o), (0x00602089#32, .setbLt o), (0x0060208D#32, .setbLe o),
      (0x00602091#32, .setbGt o), (0x00602095#32, .setbGe o), (0x00602099#32, .setbLtu o), (0x0060209D#32, .setbLeu o),
      (0x006020A1#32, .setbGtu o), (0x006020A5#32, .setbGeu o), (0x006020B1#32, .addW o), (0x006020B5#32, .subW o),
      (0x006020B9#32, .mulWide o), (0x006020BD#32, .sext o)]
    rows.all (fun r => codes [r.1, 0x03FC02FF#32] r.2) = true := by decide +kernel

/-- R27, R43: A = v2, B = v3, C = `none`, D = v1, unguarded. -/
theorem test_words_extensions :
    let o := sOps (.v 1) (.v 2) (.v 3)
    let rows : List (Word32 × Instr) :=
     [(0x006020C1#32, .zext o)]
    rows.all (fun r => codes [r.1, 0x03FC02FF#32] r.2) = true := by decide +kernel

/-- R27, R43: A = v2, B = v3, C = `none`, D = v1, unguarded. -/
theorem test_words_lanes :
    let o := sOps (.v 1) (.v 2) (.v 3)
    let rows : List (Word32 × Instr) :=
     [(0x00602101#32, .prom o), (0x00602105#32, .rdlane o), (0x00602109#32, .wrlane o), (0x0060210D#32, .redAdd o),
      (0x00602111#32, .redMin o), (0x00602115#32, .redMax o), (0x00602119#32, .redMinU o), (0x0060211D#32, .redAnd o),
      (0x00602121#32, .redOr o), (0x00602125#32, .redXor o), (0x00602129#32, .ballot o), (0x0060212D#32, .matchLanes o),
      (0x00602131#32, .actmask o), (0x00602135#32, .toaff o), (0x00602139#32, .qswp o), (0x0060213D#32, .qbc o)]
    rows.all (fun r => codes [r.1, 0x03FC02FF#32] r.2) = true := by decide +kernel

/-- R27, R43: A = v2, B = v3, C = `none`, D = v1, unguarded. -/
theorem test_words_shuffles :
    let o := sOps (.v 1) (.v 2) (.v 3)
    let rows : List (Word32 × Instr) :=
     [(0x00602141#32, .shflIdx o), (0x00602145#32, .shflUp o), (0x00602149#32, .shflDown o), (0x0060214D#32, .shflXor o),
      (0x00602151#32, .mpfx o)]
    rows.all (fun r => codes [r.1, 0x03FC02FF#32] r.2) = true := by decide +kernel

/-- R27, R43: A = v2, B = v3, C = `none`, D = v1, unguarded. -/
theorem test_words_float :
    let o := sOps (.v 1) (.v 2) (.v 3)
    let rows : List (Word32 × Instr) :=
     [(0x00602201#32, .fadd o), (0x00602205#32, .fsub o), (0x00602209#32, .fmul o), (0x0060220D#32, .ffma o), (0x00602211#32, .fmin o),
      (0x00602215#32, .fmax o), (0x00602219#32, .fabs o), (0x0060221D#32, .fneg o), (0x00602221#32, .fsetbEq o),
      (0x00602225#32, .fsetbNe o), (0x00602229#32, .fsetbLt o), (0x0060222D#32, .fsetbLe o), (0x00602231#32, .fsetbGt o),
      (0x00602235#32, .fsetbGe o), (0x00602239#32, .fsetbUn o), (0x0060223D#32, .frndRn o)]
    rows.all (fun r => codes [r.1, 0x03FC02FF#32] r.2) = true := by decide +kernel

/-- R27, R43: A = v2, B = v3, C = `none`, D = v1, unguarded. -/
theorem test_words_convert :
    let o := sOps (.v 1) (.v 2) (.v 3)
    let rows : List (Word32 × Instr) :=
     [(0x00602241#32, .frndRz o), (0x00602245#32, .frndRd o), (0x00602249#32, .frndRu o), (0x0060224D#32, .fcvt o), (0x00602251#32, .f2i o),
      (0x00602255#32, .f2u o), (0x00602259#32, .i2f o), (0x0060225D#32, .u2f o), (0x00602261#32, .hadd2 o), (0x00602265#32, .hmul2 o),
      (0x00602269#32, .hfma2 o), (0x0060226D#32, .bfadd2 o), (0x00602271#32, .bfmul2 o), (0x00602275#32, .bffma2 o)]
    rows.all (fun r => codes [r.1, 0x03FC02FF#32] r.2) = true := by decide +kernel

/-- R27, R43: A = v2, B = v3, C = `none`, D = v1, unguarded. -/
theorem test_words_special :
    let o := sOps (.v 1) (.v 2) (.v 3)
    let rows : List (Word32 × Instr) :=
     [(0x00602281#32, .rcp o), (0x00602285#32, .rsq o), (0x00602289#32, .sqrt o), (0x0060228D#32, .ex2 o), (0x00602291#32, .lg2 o),
      (0x00602295#32, .sin o), (0x00602299#32, .cos o), (0x0060229D#32, .tanh o)]
    rows.all (fun r => codes [r.1, 0x03FC02FF#32] r.2) = true := by decide +kernel

/-- R27, R43: A = v2, B = v3, C = `none`, D = v1, unguarded. -/
theorem test_words_windows :
    let o := sOps (.v 1) (.v 2) (.v 3)
    let rows : List (Word32 × Instr) :=
     [(0x00602401#32, .ldsB o), (0x00602405#32, .ldsH o), (0x00602409#32, .ldsW o), (0x0060240D#32, .ldsD o), (0x00602411#32, .ldsQ o),
      (0x00602415#32, .stsB o), (0x00602419#32, .stsH o), (0x0060241D#32, .stsW o), (0x00602421#32, .stsD o), (0x00602425#32, .stsQ o),
      (0x00602429#32, .ldpW o), (0x0060242D#32, .ldpD o), (0x00602431#32, .ldpQ o), (0x00602435#32, .stpW o), (0x00602439#32, .stpD o),
      (0x0060243D#32, .stpQ o)]
    rows.all (fun r => codes [r.1, 0x03FC02FF#32] r.2) = true := by decide +kernel

/-- R27, R43: A = v2, B = v3, C = `none`, D = v1, unguarded. -/
theorem test_words_stack_atomics :
    let o := sOps (.v 1) (.v 2) (.v 3)
    let rows : List (Word32 × Instr) :=
     [(0x00602441#32, .ldk o), (0x00602445#32, .stk o), (0x00602449#32, .ldsAcq o), (0x0060244D#32, .stsRel o), (0x00602451#32, .ldpAcq o),
      (0x00602455#32, .stpRel o), (0x00602461#32, .atomsAdd o), (0x00602465#32, .atomsMin o), (0x00602469#32, .atomsMax o),
      (0x0060246D#32, .atomsMinU o), (0x00602471#32, .atomsMaxU o), (0x00602475#32, .atomsAnd o), (0x00602479#32, .atomsOr o),
      (0x0060247D#32, .atomsXor o)]
    rows.all (fun r => codes [r.1, 0x03FC02FF#32] r.2) = true := by decide +kernel

/-- R27, R43: A = v2, B = v3, C = `none`, D = v1, unguarded. -/
theorem test_words_atomics :
    let o := sOps (.v 1) (.v 2) (.v 3)
    let rows : List (Word32 × Instr) :=
     [(0x00602481#32, .atomsExch o), (0x00602485#32, .atomsCas o), (0x00602489#32, .atompAdd o), (0x0060248D#32, .atompMin o),
      (0x00602491#32, .atompMax o), (0x00602495#32, .atompMinU o), (0x00602499#32, .atompMaxU o), (0x0060249D#32, .atompAnd o),
      (0x006024A1#32, .atompOr o), (0x006024A5#32, .atompXor o), (0x006024A9#32, .atompExch o), (0x006024AD#32, .atompCas o)]
    rows.all (fun r => codes [r.1, 0x03FC02FF#32] r.2) = true := by decide +kernel

/-- R27, R43: A = v2, B = v3, C = `none`, D = v1, unguarded. -/
theorem test_words_fence :
    let o := sOps (.v 1) (.v 2) (.v 3)
    let rows : List (Word32 × Instr) :=
     [(0x006024C1#32, .fence o)]
    rows.all (fun r => codes [r.1, 0x03FC02FF#32] r.2) = true := by decide +kernel

/-- R27, R43: A = v2, B = v3, C = `none`, D = v1, unguarded. -/
theorem test_words_barriers :
    let o := sOps (.v 1) (.v 2) (.v 3)
    let rows : List (Word32 × Instr) :=
     [(0x00602501#32, .barInit o), (0x00602505#32, .barArv o), (0x00602509#32, .barWait o), (0x0060250D#32, .barSync o),
      (0x00602511#32, .barGlide o), (0x00602515#32, .spanSync o), (0x00602519#32, .swArm o), (0x0060251D#32, .swWait o),
      (0x00602521#32, .waitc o), (0x00602525#32, .waitl o)]
    rows.all (fun r => codes [r.1, 0x03FC02FF#32] r.2) = true := by decide +kernel

/-- R27, R43: A = v2, B = v3, C = `none`, D = v1, unguarded. -/
theorem test_words_control :
    let o := sOps (.v 1) (.v 2) (.v 3)
    let rows : List (Word32 × Instr) :=
     [(0x00602581#32, .bra o), (0x00602585#32, .brx o), (0x00602589#32, .call o), (0x0060258D#32, .calx o), (0x00602591#32, .ret o),
      (0x00602595#32, .exit o), (0x00602599#32, .meet o), (0x0060259D#32, .yield o), (0x006025A1#32, .trap o), (0x006025A5#32, .eret o),
      (0x006025A9#32, .svc o), (0x006025AD#32, .idemBegin o), (0x006025B1#32, .idemEnd o), (0x006025B5#32, .trig o),
      (0x006025B9#32, .brk o)]
    rows.all (fun r => codes [r.1, 0x03FC02FF#32] r.2) = true := by decide +kernel

/-- R27, R43: A = v2, B = v3, C = `none`, D = v1, unguarded. -/
theorem test_words_system :
    let o := sOps (.v 1) (.v 2) (.v 3)
    let rows : List (Word32 × Instr) :=
     [(0x00602801#32, .sysr o), (0x00602805#32, .sysw o), (0x00602809#32, .time o), (0x0060280D#32, .icinv o), (0x00602811#32, .tlbinv o),
      (0x00602815#32, .keyLoad o), (0x00602819#32, .keyBind o), (0x0060281D#32, .scrub o), (0x00602821#32, .rwatchSetRange o),
      (0x00602825#32, .partMake o), (0x00602829#32, .partGive o), (0x0060282D#32, .partSlice o), (0x00602831#32, .partSeal o),
      (0x00602835#32, .partDrop o), (0x00602839#32, .mgsemRead o)]
    rows.all (fun r => codes [r.1, 0x03FC02FF#32] r.2) = true := by decide +kernel

/-- R32, R33: A = s1, B = s2, D = s10. -/
theorem test_words_posts :
    let x (e : Nat) : Ops := { sOps (.s 10) (.s 1) (.s 2) with c := Src.ofNat e }
    let rows : List (Word32 × Word32 × Instr) :=
     [(0x10481E01#32, 0x03FD1400#32, .cp (x 0)), (0x10481E19#32, 0x03FD1400#32, .cpGat (x 0)), (0x10481E1D#32, 0x03FD1400#32, .cpSct (x 0)),
      (0x10481E41#32, 0x03FD1400#32, .tidSet (x 0)), (0x10481E45#32, 0x03FD1400#32, .tidGet (x 0)),
      (0x10481E01#32, 0x03FD1401#32, .mxMma (x 1)), (0x10481E05#32, 0x03FD1401#32, .mxPair (x 1)),
      (0x10481E09#32, 0x03FD1401#32, .mxZero (x 1)), (0x10481E0D#32, 0x03FD1401#32, .mxLdacc (x 1)),
      (0x10481E11#32, 0x03FD1401#32, .mxDrain (x 1)), (0x10481E15#32, 0x03FD1401#32, .mxBurst (x 1)),
      (0x10481E01#32, 0x03FD1402#32, .rsRow (x 2)), (0x10481E01#32, 0x03FD1403#32, .claClr (x 3)),
      (0x10481E09#32, 0x03FD1403#32, .claLdc (x 3)), (0x10481E0D#32, 0x03FD1403#32, .claDec (x 3)),
      (0x10481E11#32, 0x03FD1403#32, .claProp (x 3)), (0x10481E15#32, 0x03FD1403#32, .claBack (x 3)),
      (0x10481E19#32, 0x03FD1403#32, .claTrl (x 3)), (0x10481E1D#32, 0x03FD1403#32, .claCfl (x 3)),
      (0x10481E21#32, 0x03FD1403#32, .claVal (x 3)), (0x10481E25#32, 0x03FD1403#32, .claLvl (x 3)),
      (0x10481E29#32, 0x03FD1403#32, .claStat (x 3)), (0x10481E01#32, 0x03FD1404#32, .chnAdv (x 4)),
      (0x10481E05#32, 0x03FD1404#32, .chnSeq (x 4)), (0x10481E09#32, 0x03FD1404#32, .chnWait (x 4)),
      (0x10481E01#32, 0x03FD1406#32, .setperf (x 6))]
    rows.all (fun r => codes [r.1, r.2.1] r.2.2) = true := by decide +kernel

/-- R25, R26: D = v4, A = a3, B = s5 or the immediate 0x9C. -/
theorem test_words_short :
    let rows : List (Word32 × Instr) :=
     [(0xFFC30400#32, .movS (.v 4) (.a 3)), (0x85C30404#32, .addS (.v 4) (.a 3) (.s 5)), (0x85C30408#32, .subS (.v 4) (.a 3) (.s 5)),
      (0x85C3040C#32, .mulS (.v 4) (.a 3) (.s 5)), (0x85C30410#32, .andS (.v 4) (.a 3) (.s 5)), (0x85C30414#32, .orS (.v 4) (.a 3) (.s 5)),
      (0x85C30418#32, .xorS (.v 4) (.a 3) (.s 5)), (0x85C3041C#32, .shlS (.v 4) (.a 3) (.s 5)), (0x85C30420#32, .shrS (.v 4) (.a 3) (.s 5)),
      (0x85C30424#32, .sraS (.v 4) (.a 3) (.s 5)), (0x85C30428#32, .minS (.v 4) (.a 3) (.s 5)), (0x85C3042C#32, .maxS (.v 4) (.a 3) (.s 5)),
      (0x85C30430#32, .faddS (.v 4) (.a 3) (.s 5)), (0x85C30434#32, .fmulS (.v 4) (.a 3) (.s 5)),
      (0x85C30438#32, .fsubS (.v 4) (.a 3) (.s 5)), (0x9CC30440#32, .addSi (.v 4) (.a 3) 0x9C#8),
      (0x9CC30444#32, .shlSi (.v 4) (.a 3) 0x9C#8), (0x9CC30448#32, .andSi (.v 4) (.a 3) 0x9C#8),
      (0x9CC3044C#32, .orSi (.v 4) (.a 3) 0x9C#8), (0x9CC30450#32, .xorSi (.v 4) (.a 3) 0x9C#8),
      (0x9CC30454#32, .shrSi (.v 4) (.a 3) 0x9C#8), (0x9CC30458#32, .sraSi (.v 4) (.a 3) 0x9C#8),
      (0x9CC30460#32, .ldsWS (.v 4) (.a 3) 0x9C#8), (0x9CC30468#32, .ldsBS (.v 4) (.a 3) 0x9C#8),
      (0x9CC3046C#32, .ldpWS (.v 4) (.a 3) 0x9C#8), (0x9CC30464#32, .stsWS (.a 3) 0x9C#8 (.v 4)), (0x9C12045C#32, .movSi (.v 4) 0x129C#16)]
    rows.all (fun r => codes [r.1] r.2) = true := by decide +kernel

/-- R34–R36: the manual's tree of ten words. -/
theorem test_words_tree :
    codes [0x000042AB#32, 0x00000101#32, 0x00680042#32, 0x00048042#32, 0#32, 0#32, 3#32, 0x6400095C#32, 0x01D00208#32, 0x01010204#32]
      (.tree { top := 0#16, stem := 1#2, nodeMask := 5#7, len := 10#5, top1 := 0#4, arcMap := 0x101#28,
               body := [0x00680042#32, 0x00048042#32, 0#32, 0#32, 3#32, 0x6400095C#32, 0x01D00208#32, 0x01010204#32] }) = true := by
  decide +kernel

/-- R34–R36: worked words of the manual: `bar.glide 2`, `ffma v4, v1, v2, v3`, `lds.w v4, [s1 + v2]`, `sysr s4, RACECTL`,
`bar.init 2, 3`, `tid.get s4, s1, s2` and `setperf none, s1`. -/
theorem test_words_of_examples :
    (codes [0x1FEFF511#32, 0x03FDFE02#32] (.barGlide { sOps .none .none .none with c := Src.ofNat 2 }) &&
      codes [0x0040120D#32, 0x03FC0803#32] (.ffma { sOps (.v 4) (.v 1) (.v 2) with c := Src.mk (.v 3) false }) &&
      codes [0x00481409#32, 0x03FC08FF#32] (.ldsW (sOps (.v 4) (.s 1) (.v 2))) &&
      codes [0x1DEFF802#32, 0x03FD08FF#32, 6#32] (.sysr (sImm (.s 4) .none 6#32)) &&
      codes [0x1DEFF502#32, 0x03FDFE02#32, 3#32] (.barInit { sImm .none .none 3#32 with c := Src.ofNat 2 }) &&
      codes [0x10481E45#32, 0x03FD0800#32] (.tidGet { sOps (.s 4) (.s 1) (.s 2) with c := Src.ofNat 0 }) &&
      codes [0x1FE81E01#32, 0x03FDFE06#32] (.setperf { sOps .none (.s 1) .none with c := Src.ofNat 6 })) = true := by
  decide +kernel

/-! ### States to test in -/

/-- One squad of 32 lanes, at the hypervisor's level, whose bundle issues at 0x10000 (log 7). -/
def desk : State :=
  { probeState State.reset [] with
    issuing := some { squad := 0, lanes := 0xFFFFFFFF#32, pc := 0x10000#64, words := [0#32, 0#32] } }

/-- The same with the squad changed, and with a register set. -/
def deskWith (f : Squad → Squad) : State := desk.modSquad 0 f
def withS (n : Nat) (w : Word64) (q : Squad) : Squad := { q with files := q.files.writeS n w }
def withV (n : Nat) (f : Nat → Word32) (q : Squad) : Squad := { q with files := q.files.writeV n (BitVec.allOnes 32) (perLane f) }

/-- Every check made before an instruction takes effect. -/
def checks (sh : Shape) (sForm : Bool) (extra : Extra) (o : Ops) (e : Env) : Bool :=
  (sh.defect (latchSupply e.q e.run e.cx.lanes) sForm o).isNone && (extra e).isNone && !levelLt (e.q.levelOf e.cx.lanes) sh.level
    && (!needsFull sh o || e.missing == 0#32) && (!e.q.glide.isSome || !sh.stalls) && !e.depends.any e.q.awaits && !hitsLanding e
    && (vectorOpen e).1

/-- The instruction that issues passes them, and its environment a further one. -/
def passes (sh : Shape) (sForm : Bool) (extra : Extra) (o : Ops) (s : State) (p : Env → Bool) : Bool :=
  match namedEnv sh sForm extra o s with
  | some e => checks sh sForm extra o e && p e
  | none => false

theorem ex_some {α : Type} {x : Option α} {p : α → Bool} (h : x.any p = true) : ∃ a, x = some a ∧ p a = true := by
  cases x with
  | none => simp at h
  | some a => exact ⟨a, rfl, by simpa using h⟩

theorem issues_of_passes {sh : Shape} {sForm : Bool} {extra : Extra} {o : Ops} {s : State} {p : Env → Bool}
    (h : passes sh sForm extra o s p = true) : ∃ e, Issues sh sForm extra o s e ∧ p e = true := by
  unfold passes at h
  split at h
  next e he =>
    simp only [checks, Bool.and_eq_true, Bool.or_eq_true, Bool.not_eq_true', Option.isNone_iff_eq_none, beq_iff_eq] at h
    obtain ⟨⟨⟨⟨⟨⟨⟨⟨h1, h2⟩, h3⟩, h4⟩, h5⟩, h6⟩, h7⟩, h8⟩, hp⟩ := h
    exact ⟨e, ⟨⟨h1, h2, h3, fun hn => h4.resolve_left (by simp [hn]), fun hg => h5.resolve_left (by simp [hg]), h6, h7⟩, he, h8⟩, hp⟩
  next => simp at h

/-- Each of the first n rows of a table passes a test with one of some operands. -/
def covers {α : Type} (n : Nat) (os : List Ops) (rows : Ops → List α) (test : α → Ops → Bool) : Bool :=
  (List.range n).all fun k => os.any fun o => match (rows o)[k]? with
    | some r => test r o
    | none => false

theorem of_covers {α : Type} {n : Nat} {os : List Ops} {rows : Ops → List α} {test : α → Ops → Bool} (h : covers n os rows test = true) :
    ∀ k, k < n → ∃ o r, (rows o)[k]? = some r ∧ test r o = true := by
  intro k hk
  simp only [covers, List.all_eq_true, List.mem_range, List.any_eq_true] at h
  obtain ⟨o, -, ho⟩ := h k hk
  split at ho
  next r hr => exact ⟨o, r, hr, ho⟩
  next => simp at ho

/-! ### Operands that meet the statements about registers -/

/-- Operands of one, two and three sources, with varying and with uniform registers, and with a number in C. -/
def someOps : List Ops :=
  let c (n : Nat) (o : Ops) : Ops := { o with c := Src.ofNat n }
  let r (n : Name) (o : Ops) : Ops := { o with c := Src.mk n false }
  [sOps (.v 1) (.v 2) (.v 3), sOps (.v 1) (.v 2) .none, r (.v 4) (sOps (.v 1) (.v 2) (.v 3)), c 3 (sOps (.v 1) (.v 2) (.v 3)),
   c 8 (sOps (.v 1) (.v 2) .none), sOps (.s 1) (.s 2) .none, sOps (.v 1) (.s 2) .none, sOps (.s 1) (.v 2) (.s 3), sOps (.v 1) (.s 2) (.s 3),
   sOps (.v 1) (.v 2) (.s 3), sOps (.s 1) .none .none, c 1 (sOps (.v 1) (.v 2) .none), c 4 (sOps (.v 1) (.v 2) .none), blankOps]

/-- For `integer_arithmetic`: every row. -/
theorem witness_integer_arithmetic : ∀ k, k < 13 → ∃ o r e, (arithRows o)[k]? = some r ∧
    Issues r.shape false noExtra o desk e ∧ e.dCls ≠ .affine := by
  have h : covers 13 someOps arithRows (fun r o => passes r.shape false noExtra o desk fun e => decide (e.dCls ≠ .affine)) = true := by
    decide +kernel
  intro k hk
  obtain ⟨o, r, hr, ht⟩ := of_covers h k hk
  obtain ⟨e, he, hd⟩ := issues_of_passes ht
  exact ⟨o, r, e, hr, he, of_decide_eq_true hd⟩

/-- For `integer_logic`: every row. -/
theorem witness_integer_logic : ∀ k, k < 13 → ∃ o r e, (logicRows o)[k]? = some r ∧
    Issues r.shape false noExtra o desk e ∧ e.dCls ≠ .affine := by
  have h : covers 13 someOps logicRows (fun r o => passes r.shape false noExtra o desk fun e => decide (e.dCls ≠ .affine)) = true := by
    decide +kernel
  intro k hk
  obtain ⟨o, r, hr, ht⟩ := of_covers h k hk
  obtain ⟨e, he, hd⟩ := issues_of_passes ht
  exact ⟨o, r, e, hr, he, of_decide_eq_true hd⟩

/-- For `integer_fields`: every row of both tables. -/
theorem witness_integer_fields :
    (∀ k, k < 6 → ∃ o r e, (fieldRows o)[k]? = some r ∧ Issues r.shape false noExtra o desk e ∧ e.dCls ≠ .affine) ∧
      ∀ k, k < 10 → ∃ o r e, (setbRows o)[k]? = some r ∧ Issues r.shape false noExtra o desk e := by
  have h : covers 6 someOps fieldRows (fun r o => passes r.shape false noExtra o desk fun e => decide (e.dCls ≠ .affine)) = true := by
    decide +kernel
  have h' : covers 10 someOps setbRows (fun r o => passes r.shape false noExtra o desk fun _ => true) = true := by decide +kernel
  constructor <;> intro k hk
  · obtain ⟨o, r, hr, ht⟩ := of_covers h k hk
    obtain ⟨e, he, hd⟩ := issues_of_passes ht
    exact ⟨o, r, e, hr, he, of_decide_eq_true hd⟩
  · obtain ⟨o, r, hr, ht⟩ := of_covers h' k hk
    obtain ⟨e, he, -⟩ := issues_of_passes ht
    exact ⟨o, r, e, hr, he⟩

/-- For `short_forms`: every row of both tables. -/
theorem witness_short_forms :
    (∀ k, k < 20 → ∃ r e, (sRows (.v 1) (.v 2) (.v 3) 9#8 9#16)[k]? = some r ∧ Issues r.shape true noExtra r.o desk e ∧ e.dCls ≠ .affine) ∧
      ∀ k, k < 3 → ∃ r e, (floatSRows (.v 1) (.v 2) (.v 3))[k]? = some r ∧
        Issues (shAB ruleInt) true noExtra (sOps (.v 1) (.v 2) (.v 3)) desk e ∧ floatQuiet e r.2 := by
  have h : covers 20 [blankOps] (fun _ => sRows (.v 1) (.v 2) (.v 3) 9#8 9#16)
      (fun r _ => passes r.shape true noExtra r.o desk fun e => decide (e.dCls ≠ .affine)) = true := by decide +kernel
  have h' : covers 3 [blankOps] (fun _ => floatSRows (.v 1) (.v 2) (.v 3)) (fun r _ =>
      passes (shAB ruleInt) true noExtra (sOps (.v 1) (.v 2) (.v 3)) desk fun e => floatFlags e r.2 &&& e.q.enables == 0#5) = true := by
    decide +kernel
  constructor <;> intro k hk
  · obtain ⟨o, r, hr, ht⟩ := of_covers h k hk
    obtain ⟨e, he, hd⟩ := issues_of_passes ht
    exact ⟨r, e, hr, he, of_decide_eq_true hd⟩
  · obtain ⟨o, r, hr, ht⟩ := of_covers h' k hk
    obtain ⟨e, he, hd⟩ := issues_of_passes ht
    exact ⟨r, e, hr, he, eq_of_beq hd⟩

/-- For `pair_and_lane_instructions`: every row of both tables. -/
theorem witness_pair_and_lane_instructions :
    (∀ k, k < 3 → ∃ o r e, (wideRows o)[k]? = some r ∧ Issues r.shape false noExtra o desk e) ∧
      ∀ k, k < 19 → ∃ o r e, (laneRows o)[k]? = some r ∧ Issues r.shape false noExtra o desk e := by
  have h : covers 3 [sOps (.v 6) (.v 2) (.v 4)] wideRows (fun r o => passes r.shape false noExtra o desk fun _ => true) = true := by decide +kernel
  have h' : covers 19 (sOps (.v 1) .none .none :: someOps) laneRows (fun r o => passes r.shape false noExtra o desk fun _ => true) = true := by
    decide +kernel
  constructor <;> intro k hk
  · obtain ⟨o, r, hr, ht⟩ := of_covers h k hk
    obtain ⟨e, he, -⟩ := issues_of_passes ht
    exact ⟨o, r, e, hr, he⟩
  · obtain ⟨o, r, hr, ht⟩ := of_covers h' k hk
    obtain ⟨e, he, -⟩ := issues_of_passes ht
    exact ⟨o, r, e, hr, he⟩

/-- For `nop_does_nothing`. -/
theorem witness_nop_does_nothing : ∃ e, Issues shNone false noExtra blankOps desk e := by
  obtain ⟨e, he, -⟩ := issues_of_passes (p := fun _ => true) (by decide +kernel : passes shNone false noExtra blankOps desk _ = true)
  exact ⟨e, he⟩

/-- For `float_instructions`: every row of both tables. -/
theorem witness_float_instructions :
    (∀ k, k < 30 → ∃ o r e, (floatRows o)[k]? = some r ∧ Issues r.shape false noExtra o desk e ∧ floatQuiet e r.val) ∧
      ∀ k, k < 8 → ∃ o r e, (specialRows o desk)[k]? = some r ∧ Issues r.shape false noExtra o desk e ∧ floatQuiet e r.val := by
  have h : covers 30 (sOps (.v 1) (.v 2) .none :: { sOps (.v 1) (.v 2) .none with c := Src.ofNat 0x12 } :: someOps) floatRows
      (fun r o => passes r.shape false noExtra o desk fun e => floatFlags e r.val &&& e.q.enables == 0#5) = true := by decide +kernel
  have h' : covers 8 someOps (fun o => specialRows o desk) (fun r o => passes r.shape false noExtra o desk fun e => e.q.enables == 0#5) = true := by
    decide +kernel
  constructor <;> intro k hk
  · obtain ⟨o, r, hr, ht⟩ := of_covers h k hk
    obtain ⟨e, he, hd⟩ := issues_of_passes ht
    exact ⟨o, r, e, hr, he, eq_of_beq hd⟩
  · obtain ⟨o, r, hr, ht⟩ := of_covers h' k hk
    obtain ⟨e, he, hd⟩ := issues_of_passes ht
    exact ⟨o, r, e, hr, he, by simp [floatQuiet, eq_of_beq hd]⟩

/-! ### Operands that meet the statements about accesses -/

/-- Lane L's access of n bytes reaches its window, and no race stands there. -/
def laneReaches (e : Env) (sp : Space) (n : Nat) (cls : AccessClass) (writes : Bool) (L : Nat) : Bool :=
  (checkAddr (winSize e.s e.q sp) (addrOf e L) n n).isNone &&
    (firstRace e.s e.q sp (squadAgent e.s e.cx.key e.q cls) writes (wordsOf (addrOf e L) n)).isNone

theorem mayLoad_of {e : Env} {sp : Space} {n : Nat} {cls : AccessClass}
    (h : (!glidesAt e.q sp && addrSpans e && (List.range 32).all (laneReaches e sp n cls false)) = true) : MayLoad e sp n cls := by
  simp only [Bool.and_eq_true, Bool.not_eq_true', List.all_eq_true, List.mem_range, laneReaches, Option.isNone_iff_eq_none] at h
  refine ⟨h.1.1, h.1.2, fun L hL => .inr (h.2 L ?_)⟩
  apply Classical.byContradiction
  intro hn
  rw [BitVec.getLsbD_of_ge _ _ (by omega)] at hL
  cases hL

theorem mayStore_of {e : Env} {sp : Space} {n : Nat} {cls : AccessClass}
    (h : (e.s.squads.all (·.2.glide.isNone) && addrSpans e && (workLanes e).all fun L => laneReaches e sp n (storeCls e.q L cls) true L) = true) :
    MayStore e sp n cls := by
  simp only [Bool.and_eq_true, List.all_eq_true, laneReaches, Option.isNone_iff_eq_none] at h
  exact ⟨h.1.1, h.1.2, h.2⟩

theorem mayAtom_of {e : Env} {sp : Space} (h : (e.s.squads.all (·.2.glide.isNone) && addrSpans e && (workLanes e).all fun L =>
      (checkAddr (winSize e.s e.q sp) (addrOf e L) 4 4).isNone &&
        (checkTag (winTag e.s e.q sp (addrOf e L)) (squadAgent e.s e.cx.key e.q .sync) true).isNone) = true) : MayAtom e sp := by
  simp only [Bool.and_eq_true, List.all_eq_true, Option.isNone_iff_eq_none] at h
  exact ⟨h.1.1, h.1.2, h.2⟩

/-- Operands of a load and a store: the address in A or B, the data in C. -/
def addrOps : List Ops :=
  let c (n : Name) (o : Ops) : Ops := { o with c := Src.mk n false }
  [sOps (.v 4) (.s 1) (.v 2), c (.v 4) (sOps .none (.s 1) (.v 2)), c (.v 8) (sOps (.v 4) (.s 1) (.v 2))]

/-- For `loads`: every row, S forms among them, at the last bytes of the window too. -/
theorem witness_loads :
    (∀ k, k < 13 → ∃ o r e, (loadForms o (.v 4) (.s 1) 4#8)[k]? = some r ∧ Issues r.1.shape r.1.sForm noExtra r.1.o desk e ∧
      MayLoad e.opened r.2.1 r.2.2.1 r.2.2.2) ∧
    ∃ e, let s := deskWith (withS 1 16380#64)
      Issues (shLoad 4 false) false noExtra (sImm (.v 4) (.s 1) 0#32) s e ∧ MayLoad e.opened .shared 4 .plain := by
  have h : covers 13 addrOps (fun o => loadForms o (.v 4) (.s 1) 4#8) (fun r _ => passes r.1.shape r.1.sForm noExtra r.1.o desk fun e =>
      !glidesAt e.opened.q r.2.1 && addrSpans e.opened && (List.range 32).all (laneReaches e.opened r.2.1 r.2.2.1 r.2.2.2 false)) = true := by
    decide +kernel
  have h' : passes (shLoad 4 false) false noExtra (sImm (.v 4) (.s 1) 0#32) (deskWith (withS 1 16380#64)) (fun e =>
      !glidesAt e.opened.q .shared && addrSpans e.opened && (List.range 32).all (laneReaches e.opened .shared 4 .plain false)) = true := by
    decide +kernel
  refine ⟨fun k hk => ?_, ?_⟩
  · obtain ⟨o, r, hr, ht⟩ := of_covers h k hk
    obtain ⟨e, he, hd⟩ := issues_of_passes ht
    exact ⟨o, r, e, hr, he, mayLoad_of hd⟩
  · obtain ⟨e, he, hd⟩ := issues_of_passes h'
    exact ⟨e, he, mayLoad_of hd⟩

/-- For `stores`: every row. -/
theorem witness_stores : ∀ k, k < 11 → ∃ o r e, (storeForms o (.s 1) (.v 4) 4#8)[k]? = some r ∧
    Issues r.1.shape r.1.sForm noExtra r.1.o desk e ∧ MayStore e.opened r.2.1 r.2.2.1 r.2.2.2 := by
  have h : covers 11 addrOps (fun o => storeForms o (.s 1) (.v 4) 4#8) (fun r _ => passes r.1.shape r.1.sForm noExtra r.1.o desk fun e =>
      e.opened.s.squads.all (·.2.glide.isNone) && addrSpans e.opened &&
        (workLanes e.opened).all fun L => laneReaches e.opened r.2.1 r.2.2.1 (storeCls e.opened.q L r.2.2.2) true L) = true := by
    decide +kernel
  intro k hk
  obtain ⟨o, r, hr, ht⟩ := of_covers h k hk
  obtain ⟨e, he, hd⟩ := issues_of_passes ht
  exact ⟨o, r, e, hr, he, mayStore_of hd⟩

/-- For `atomics`: every row. -/
theorem witness_atomics : ∀ k, k < 20 → ∃ o r e, (atomForms o)[k]? = some r ∧ Issues r.1.shape false noExtra o desk e ∧
    MayAtom e.opened r.2.1 := by
  have h : covers 20 addrOps atomForms (fun r o => passes r.1.shape false noExtra o desk fun e =>
      e.opened.s.squads.all (·.2.glide.isNone) && addrSpans e.opened && (workLanes e.opened).all fun L =>
        (checkAddr (winSize e.opened.s e.opened.q r.2.1) (addrOf e.opened L) 4 4).isNone &&
          (checkTag (winTag e.opened.s e.opened.q r.2.1 (addrOf e.opened L)) (squadAgent e.opened.s e.opened.cx.key e.opened.q .sync)
            true).isNone) = true := by
    decide +kernel
  intro k hk
  obtain ⟨o, r, hr, ht⟩ := of_covers h k hk
  obtain ⟨e, he, hd⟩ := issues_of_passes ht
  exact ⟨o, r, e, hr, he, mayAtom_of hd⟩

/-! ### Affine registers, the spill stack, addresses, races -/

def withA (n : Nat) (b : Word64) (st : Word32) (q : Squad) : Squad := { q with files := q.files.writeA n b st }

/-- For `affine_results`, its rows: every row with a stride in range; `shl` with one out of range. -/
theorem witness_affine_rows :
    (∀ k, k < 13 → ∃ o r e, (affRows o (.a 1) (.a 2) (.s 3) 1#8)[k]? = some r ∧
      Issues r.shape r.sForm noExtra r.o (deskWith (withA 2 0x10#64 4#32)) e ∧ e.dCls = .affine ∧ e.active ≠ 0#32 ∧
      isStride (r.stride e.x.a e.x.b)) ∧
    ∃ o r e, (affRows o (.a 1) (.a 2) (.s 3) 40#8)[11]? = some r ∧
      Issues r.shape r.sForm noExtra r.o (deskWith (withA 2 0x10#64 4#32)) e ∧ e.dCls = .affine ∧ e.active ≠ 0#32 ∧
      ¬isStride (r.stride e.x.a e.x.b) := by
  have h : covers 13 [sOps (.a 1) (.a 2) .none, sOps (.a 1) (.a 2) (.s 3), sOps (.a 1) (.s 3) .none]
      (fun o => affRows o (.a 1) (.a 2) (.s 3) 1#8) (fun r _ => passes r.shape r.sForm noExtra r.o (deskWith (withA 2 0x10#64 4#32)) fun e =>
        decide (e.dCls = .affine ∧ e.active ≠ 0#32 ∧ -(2 ^ 31) ≤ r.stride e.x.a e.x.b ∧ r.stride e.x.a e.x.b < 2 ^ 31)) = true := by
    decide +kernel
  have h' : covers 1 [blankOps] (fun o => (affRows o (.a 1) (.a 2) (.s 3) 40#8).drop 11)
      (fun r _ => passes r.shape r.sForm noExtra r.o (deskWith (withA 2 0x10#64 4#32)) fun e =>
        decide (e.dCls = .affine ∧ e.active ≠ 0#32 ∧ 2 ^ 31 ≤ r.stride e.x.a e.x.b)) = true := by decide +kernel
  refine ⟨fun k hk => ?_, ?_⟩
  · obtain ⟨o, r, hr, ht⟩ := of_covers h k hk
    obtain ⟨e, he, hd⟩ := issues_of_passes ht
    have hd := of_decide_eq_true hd
    exact ⟨o, r, e, hr, he, hd.1, hd.2.1, hd.2.2⟩
  · obtain ⟨o, r, hr, ht⟩ := of_covers h' 0 (by omega)
    obtain ⟨e, he, hd⟩ := issues_of_passes ht
    have hd := of_decide_eq_true hd
    rw [List.getElem?_drop] at hr
    exact ⟨o, r, e, hr, he, hd.1, hd.2.1, fun hs => by have := hs.2; omega⟩

/-- The lanes of v2 rise by 3 from 5. -/
def risingState : State := deskWith (withV 2 fun L => BitVec.ofNat 32 (5 + 3 * L))
/-- Lanes 0 and 1 of v2 hold 0, the others 1. -/
def unevenState : State := deskWith (withV 2 fun L => if L < 2 then 0#32 else 1#32)
def shToaff : Shape := shA fun d a _ _ => (d == .affine || d == .absent) && a == .varying

/-- For `affine_results`, `toaff`: lanes with a stride. -/
theorem witness_toaff_even : ∃ e, Issues shToaff false noExtra (sOps (.a 1) (.v 2) .none) risingState e ∧ e.active ≠ 0#32 ∧
    liveOf e = 0 :: (List.range 31).map (· + 1) ∧
    isLeast (fun u => isStride u ∧ ∀ L ∈ (List.range 31).map (· + 1), fitsLane e 0 u L) 3 := by
  obtain ⟨e, he, hd⟩ := issues_of_passes (by decide +kernel :
    passes shToaff false noExtra (sOps (.a 1) (.v 2) .none) risingState (fun e => decide (e.active ≠ 0#32 ∧
      liveOf e = 0 :: (List.range 31).map (· + 1) ∧ e.x.a.at32 1 = 8#32 ∧ e.x.a.at32 0 = 5#32 ∧
      ((List.range 31).map (· + 1)).all (fun L => e.x.a.at32 L == e.x.a.at32 0 + BitVec.ofInt 32 (3 * ((L : Int) - (0 : Nat)))) = true)) =
      true)
  have hd := of_decide_eq_true hd
  refine ⟨e, he, hd.1, hd.2.1, ⟨⟨by constructor <;> omega, fun L hL =>
    eq_of_beq (List.all_eq_true.mp hd.2.2.2.2 L hL)⟩, ?_⟩⟩
  rintro u ⟨⟨hlo, hhi⟩, hu⟩
  have h1 := hu 1 (by decide)
  have h2 : BitVec.ofInt 32 u = 3#32 := by
    simp only [fitsLane, hd.2.2.1, hd.2.2.2.1] at h1
    have : BitVec.ofInt 32 (u * (((1 : Nat) : Int) - ((0 : Nat) : Int))) = 8#32 - 5#32 := by rw [h1, BitVec.add_comm, BitVec.add_sub_cancel]
    simpa using this
  have h3 := congrArg BitVec.toInt h2
  rw [BitVec.toInt_ofInt] at h3
  have : u = 3 := by
    have : (3#32).toInt = 3 := by decide
    rw [this, Int.bmod_eq_of_le (by omega) (by omega)] at h3
    exact h3
  subst this
  exact .inr ⟨rfl, by omega⟩

/-- For `affine_results`, `toaff`: lanes without one. -/
theorem witness_toaff_uneven : ∃ e, Issues shToaff false noExtra (sOps (.a 1) (.v 2) .none) unevenState e ∧ e.active ≠ 0#32 ∧
    liveOf e = 0 :: (List.range 31).map (· + 1) ∧
    ∀ u, isStride u → ∃ L ∈ (List.range 31).map (· + 1), ¬fitsLane e 0 u L := by
  obtain ⟨e, he, hd⟩ := issues_of_passes (by decide +kernel :
    passes shToaff false noExtra (sOps (.a 1) (.v 2) .none) unevenState (fun e => decide (e.active ≠ 0#32 ∧
      liveOf e = 0 :: (List.range 31).map (· + 1) ∧ e.x.a.at32 0 = 0#32 ∧ e.x.a.at32 1 = 0#32 ∧ e.x.a.at32 2 = 1#32)) = true)
  have hd := of_decide_eq_true hd
  refine ⟨e, he, hd.1, hd.2.1, fun u ⟨hlo, hhi⟩ => ?_⟩
  by_cases h0 : u = 0
  · refine ⟨2, by decide, fun h => ?_⟩
    subst h0
    simp [fitsLane, hd.2.2.1, hd.2.2.2.2] at h
  · refine ⟨1, by decide, fun h => ?_⟩
    simp only [fitsLane, hd.2.2.1, hd.2.2.2.1] at h
    have h2 : BitVec.ofInt 32 u = 0#32 := by simpa using h.symm
    have h3 := congrArg BitVec.toInt h2
    rw [BitVec.toInt_ofInt, Int.bmod_eq_of_le (by omega) (by omega)] at h3
    exact h0 (by simpa using h3)

/-- The spill stack's page (R125, log 7), with its translation in the squad's cache. -/
def stackLeaf (x : Nat) : Leaf := { pa := 0x190000 + x, bits := 16, r := true, w := true, x := true, key := 0, watch := false }
def stackState (off : Nat) : State :=
  { deskWith (withS 1 (BitVec.ofNat 64 off)) with
    tlb := [(stackLeaf 0).cached { cluster := 0, use := .data } 0 0x20000] }

/-- Whether 8 bytes of the stack are at hand (`AtHand`). -/
def atHand (s : State) (key : Nat) (q : Squad) (x : Nat) (l : Leaf) : Bool :=
  let va := (q.spBase.toNat + x) % 2 ^ 64
  !s.waitsFor (.spill key x) && va < 2 ^ 48 && (q.spBase.toNat + x) % 65536 + 8 ≤ 65536 &&
    (match s.tlb.find? (·.covers { cluster := clusterOf (s.coreOf q), use := .data } (s.ctxOf q) va) with
     | some t => t.leaf va == l
     | none => false) &&
    (walk s (s.ctxOf q) va .both).toOption == some l && l.r && l.w && s.backs (slotOf (s.ctxOf q)) l.pa && s.keyOk (slotOf (s.ctxOf q)) l && !l.watch

theorem atHand_of {s : State} {key : Nat} {q : Squad} {x : Nat} {l : Leaf} (h : atHand s key q x l = true) : AtHand s key q x l := by
  simp only [atHand, Bool.and_eq_true, Bool.not_eq_true', decide_eq_true_eq, beq_iff_eq] at h
  obtain ⟨⟨⟨⟨⟨⟨⟨⟨⟨h1, h2⟩, h3⟩, h4⟩, h5⟩, h6⟩, h7⟩, h8⟩, h9⟩, h10⟩ := h
  split at h4
  next t ht => exact ⟨h1, h2, h3, ⟨t, ht, eq_of_beq h4⟩, h5, ⟨h6, h7⟩, h8, h9, h10⟩
  next => cases h4

/-- An offset that the stack's instructions may touch at any level. -/
def stackOffset (q : Squad) (x : Nat) : Bool := x + 8 ≤ q.spSize.toNat && x % 4 == 0 && 0x6000 ≤ x

theorem spillOffset_of {q : Squad} {level : Level} {x : Nat} (h : stackOffset q x = true) : spillOffset q level x := by
  simp only [stackOffset, Bool.and_eq_true, decide_eq_true_eq, beq_iff_eq] at h
  exact ⟨h.1.1, h.1.2, .inr h.2, fun _ => .inr (by omega)⟩

/-- For `spill_stack`: `ldk` and `stk` at the last 8 bytes of the stack. -/
theorem witness_spill_stack :
    (∃ e leaf, Issues shLdk false noExtra (sImm (.v 4) (.s 1) 0#32) (stackState 65528) e ∧ MayLdk e.opened leaf) ∧
      ∃ e leaf, Issues shStk false noExtra { sImm .none (.s 1) 0#32 with c := Src.mk (.v 4) false } (stackState 65528) e ∧
        MayStk e.opened leaf := by
  have h : passes shLdk false noExtra (sImm (.v 4) (.s 1) 0#32) (stackState 65528) (fun e => addrSpans e.opened &&
      (List.range 32).all fun L => stackOffset e.opened.q (addrOf e.opened L) &&
        atHand e.opened.s e.opened.cx.key e.opened.q (addrOf e.opened L) (stackLeaf 65528) &&
        e.opened.s.sound (stackLeaf 65528).pa 8) = true := by decide +kernel
  have h' : passes shStk false noExtra { sImm .none (.s 1) 0#32 with c := Src.mk (.v 4) false } (stackState 65528) (fun e =>
      addrSpans e.opened && decide ((workLanes e.opened).length = 32) && (List.range 32).all fun k =>
        let L := (workLanes e.opened).getD k 0
        stackOffset e.opened.q (addrOf e.opened L) &&
          atHand e.opened.s e.opened.cx.key e.opened.q (addrOf e.opened L) (stackLeaf 65528) &&
          atHand (stackAfter e.opened (fun _ => stackLeaf 65528) e.opened.s ((workLanes e.opened).take k)) e.opened.cx.key e.opened.q
            (addrOf e.opened L) (stackLeaf 65528)) = true := by
    decide +kernel
  constructor
  · obtain ⟨e, he, hd⟩ := issues_of_passes h
    simp only [Bool.and_eq_true, List.all_eq_true, List.mem_range] at hd
    refine ⟨e, fun _ => stackLeaf 65528, he, hd.1, fun L hL => .inl ?_⟩
    have hL : L < 32 := by
      apply Classical.byContradiction
      intro hn
      rw [BitVec.getLsbD_of_ge _ _ (by omega)] at hL
      cases hL
    exact ⟨spillOffset_of (hd.2 L hL).1.1, atHand_of (hd.2 L hL).1.2, (hd.2 L hL).2⟩
  · obtain ⟨e, he, hd⟩ := issues_of_passes h'
    simp only [Bool.and_eq_true, List.all_eq_true, List.mem_range, decide_eq_true_eq] at hd
    obtain ⟨⟨h1, h2⟩, h3⟩ := hd
    have hk (k : Nat) (hk : k < (workLanes e.opened).length) : (workLanes e.opened).getD k 0 = (workLanes e.opened)[k] := by
      simp [List.getD, List.getElem?_eq_getElem hk]
    refine ⟨e, fun _ => stackLeaf 65528, he, h1, fun L hL => ?_, fun pre L post hw => ?_⟩
    · obtain ⟨k, hk', rfl⟩ := List.getElem_of_mem hL
      have := h3 k (by omega)
      rw [hk k hk'] at this
      exact ⟨spillOffset_of this.1.1, atHand_of this.1.2⟩
    · have hl : pre.length < (workLanes e.opened).length := by rw [hw]; simp
      have := h3 pre.length (by omega)
      rw [hk _ hl] at this
      simp only [hw, List.take_left', List.getElem_append_right, Nat.le_refl, Nat.sub_self, List.getElem_cons_zero] at this
      exact atHand_of this.2

/-- For `access_checks`: an access past the window's end by one byte, and a misaligned one at its end. -/
theorem witness_access_checks :
    (∃ q, desk.squad? 0 = some q ∧ (q.lane 0).kind ≠ .helper ∧ winSize desk q .shared < 16381 + 4 ∧ 16381 % 4 ≠ 0) ∧
      ∃ q, desk.squad? 0 = some q ∧ (q.lane 31).kind ≠ .helper ∧ 65531 + 4 ≤ winSize desk q .scratch ∧ 65531 % 4 ≠ 0 := by
  have h : ((desk.squad? 0).map fun q => decide ((q.lane 0).kind ≠ .helper ∧ winSize desk q .shared = 16384 ∧ (q.lane 31).kind ≠ .helper ∧
      winSize desk q .scratch = 65536)) = some true := by decide +kernel
  cases hq : desk.squad? 0 with
  | none => simp [hq] at h
  | some q =>
    simp only [hq, Option.map_some, Option.some.injEq, decide_eq_true_eq] at h
    exact ⟨⟨q, rfl, h.1, by omega, by decide⟩, q, rfl, h.2.2.1, by omega, by decide⟩

/-- For `races_end_at_an_acquire`, its first part: an agent that has not acquired the writer's epoch, and one that has. -/
theorem witness_race : ∃ (w : Access) (a b : Agent), w.group = a.acc.group ∧ w.squad ≠ a.acc.squad ∧ w.op = none ∧ w.cls = .plain ∧
    a.acc.cls = .plain ∧ b.acc = a.acc ∧
    (mapGet a.clock.squads (squadKey (groupKey a.grid w.group) w.squad)).getD 0 < w.epoch ∧
    w.epoch ≤ (mapGet b.clock.squads (squadKey (groupKey b.grid w.group) w.squad)).getD 0 := by
  let acc (k n : Nat) : Access := { group := 0, squad := k, epoch := n, groupEpoch := 1, cls := .plain, kind := 0, op := none }
  exact ⟨acc 1 3, { acc := acc 0 1, clock := { Clock.zero with squads := [(1, 2)] }, grid := 0 },
    { acc := acc 0 1, clock := { Clock.zero with squads := [(1, 3)] }, grid := 0 }, by decide⟩

/-- Two squads of one group. -/
def twoSquads : State := placeGroup State.reset 0 0 0 { probeDesc with nsq := 2, lanes := 64 } [] .user

/-- For `races_end_at_an_acquire`, its second part. -/
theorem witness_release : ∃ qa qb, ∃ w : Access, twoSquads.squad? 0 = some qa ∧ twoSquads.squad? 1 = some qb ∧ 0 = squadKey qa.groupKey qa.sq ∧
    qb.grid = qa.grid ∧ qb.group = qa.group ∧ w.group = qa.group ∧ w.squad = qa.sq ∧ w.op = none ∧ w.epoch ≤ qa.epoch 0 := by
  have h : ((twoSquads.squad? 0).bind fun qa => (twoSquads.squad? 1).map fun qb => decide (0 = squadKey qa.groupKey qa.sq ∧
      qb.grid = qa.grid ∧ qb.group = qa.group ∧ 1 ≤ qa.epoch 0)) = some true := by decide +kernel
  cases ha : twoSquads.squad? 0 with
  | none => simp [ha] at h
  | some qa =>
    cases hb : twoSquads.squad? 1 with
    | none => simp [ha, hb] at h
    | some qb =>
      simp only [ha, hb, Option.bind_some, Option.map_some, Option.some.injEq, decide_eq_true_eq] at h
      exact ⟨qa, qb, { group := qa.group, squad := qa.sq, epoch := 1, groupEpoch := 1, cls := .plain, kind := 0, op := none },
        rfl, rfl, h.1, h.2.1, h.2.2.1, rfl, rfl, rfl, h.2.2.2⟩

/-! ### Instructions that act on the machine's state -/

/-- A row takes effect at once with some operands in some state. -/
def Ready (r : EffRow) (o : Ops) (s : State) : Prop := ∃ e, Issues r.shape false r.extra o s e ∧ r.when_ e.opened

theorem ready_of {r : EffRow} {o : Ops} {s : State} (d : ∀ e, Decidable (r.when_ e))
    (h : passes r.shape false r.extra o s (fun e => @decide _ (d e.opened)) = true) : Ready r o s := by
  obtain ⟨e, he, hd⟩ := issues_of_passes h
  exact ⟨e, he, @of_decide_eq_true _ (d e.opened) hd⟩

theorem ready_by {r : EffRow} {o : Ops} {s : State} (test : Env → Bool) (hw : ∀ e, test e = true → r.when_ e)
    (h : passes r.shape false r.extra o s (fun e => test e.opened) = true) : Ready r o s := by
  obtain ⟨e, he, hd⟩ := issues_of_passes h
  exact ⟨e, he, hw _ hd⟩

/-- Every lane that executes goes to a good target. -/
def allGood (t : Env → Nat → Word64) (e : Env) : Bool := (List.range 32).all fun L => !e.active.getLsbD L || goodTarget (t e L)

theorem transferReady {i : Instr} {sh : Shape} {t : Env → Nat → Word64} {res : Env → Result} {o : Ops} {s : State}
    (h : passes sh false noExtra o s (fun e => allGood t e.opened) = true) : Ready (transferRow i sh t res) o s := by
  refine ready_by (allGood t) (fun e he L hL => .inr ?_) h
  simp only [allGood, List.all_eq_true, List.mem_range, Bool.or_eq_true, Bool.not_eq_true'] at he
  have hlt : L < 32 := by
    apply Classical.byContradiction
    intro hn
    rw [BitVec.getLsbD_of_ge _ _ (by omega)] at hL
    cases hL
  exact (he L hlt).resolve_left (by simp [hL])

/-- The state with 0x1000 in s1 and s2, and the same address in the lanes of v2. -/
def targetState : State := deskWith fun q => withV 2 (fun _ => 0x1000#32) (withS 1 0x1000#64 (withS 2 0x1000#64 q))

/-- For `transfers`: a branch back to itself with all lanes, one to a register, a call and its return. -/
theorem witness_transfers :
    (∀ r ∈ (transferRows (sImm .none .none 0#32)).take 1, Ready r (sImm .none .none 0#32) targetState) ∧
    (∀ r ∈ ((transferRows (sOps .none (.v 2) .none)).drop 1).take 1, Ready r (sOps .none (.v 2) .none) targetState) ∧
    (∀ r ∈ ((transferRows (sImm (.v 4) .none 0xFFFFC000#32)).drop 2).take 1, Ready r (sImm (.v 4) .none 0xFFFFC000#32) targetState) ∧
    (∀ r ∈ ((transferRows (sOps (.v 4) (.v 2) .none)).drop 3).take 1, Ready r (sOps (.v 4) (.v 2) .none) targetState) ∧
    ∀ r ∈ (transferRows (sOps .none (.s 2) .none)).drop 4, Ready r (sOps .none (.s 2) .none) targetState := by
  refine ⟨?_, ?_, ?_, ?_, ?_⟩ <;> intro r hr <;> simp only [transferRows, List.take, List.drop, List.mem_singleton] at hr <;> subst hr <;>
    exact transferReady (by decide +kernel)

/-- Row k of a table takes effect at once with the operands in the state. -/
def ReadyAt (rows : Ops → List EffRow) (k : Nat) (o : Ops) (s : State) : Prop := ∃ r, (rows o)[k]? = some r ∧ Ready r o s

def num (n : Nat) (o : Ops) : Ops := { o with c := Src.ofNat n }

/-- Deciding over what an option holds. -/
@[reducible] def decForSome {α : Type} (x : Option α) (p : α → Prop) (d : ∀ a, Decidable (p a)) : Decidable (∀ a, x = some a → p a) :=
  match x, d with
  | none, _ => .isTrue fun _ h => by cases h
  | some a, d => match d a with
    | .isTrue h => .isTrue fun b hb => by cases hb; exact h
    | .isFalse h => .isFalse fun k => h (k a rfl)
@[reducible] def decSome {α : Type} (x : Option α) : Decidable (∃ a, x = some a) :=
  match x with
  | none => .isFalse fun ⟨_, h⟩ => by cases h
  | some a => .isTrue ⟨a, rfl⟩

/-- For `events_and_lane_state`: every row. -/
theorem witness_events_and_lane_state :
    (∀ k, k < 3 → ReadyAt eventRows k (num 255 blankOps) desk) ∧
    ReadyAt laneStateRows 0 (sImm .none (.s 1) 2#32) desk ∧ ReadyAt laneStateRows 1 blankOps desk ∧
    ReadyAt laneStateRows 2 blankOps desk ∧ ReadyAt laneStateRows 3 blankOps desk ∧ ReadyAt laneStateRows 4 blankOps desk ∧
    ReadyAt laneStateRows 5 (num 6 (sOps .none (.s 1) .none)) desk := by
  refine ⟨?_, ?_, ?_, ?_, ?_, ?_, ?_⟩
  · intro k hk
    match k, hk with
    | 0, _ => exact ⟨_, rfl, ready_of (fun e => by dsimp only [eventRow]; infer_instance) (by decide +kernel)⟩
    | 1, _ => exact ⟨_, rfl, ready_of (fun e => by dsimp only [eventRow]; infer_instance) (by decide +kernel)⟩
    | 2, _ => exact ⟨_, rfl, ready_of (fun e => by dsimp only [eventRow]; infer_instance) (by decide +kernel)⟩
  all_goals exact ⟨_, rfl, ready_of (fun e => by dsimp only; infer_instance) (by decide +kernel)⟩

/-- For `barrier_instructions`: every row, at the last barrier of the group. -/
theorem witness_barrier_instructions :
    ReadyAt barrierRows 0 (num 15 (sImm .none .none 4095#32)) desk ∧
    (∀ k, k = 1 ∨ k = 2 → ReadyAt barrierRows k (num 15 blankOps) desk) ∧
    ReadyAt barrierRows 3 (num 15 blankOps) (deskWith fun q => q.modBar 15 fun b => { b with armed := true }) ∧
    ReadyAt barrierRows 4 (num 15 blankOps) (deskWith fun q => { q with glideEn := false }) ∧
    ReadyAt barrierRows 5 blankOps desk ∧ ReadyAt barrierRows 6 (num 3 blankOps) desk := by
  refine ⟨?_, ?_, ?_, ?_, ?_, ?_⟩
  · exact ⟨_, rfl, ready_of (fun e => by dsimp only; infer_instance) (by decide +kernel)⟩
  · rintro k (rfl | rfl)
    all_goals exact ⟨_, rfl, ready_of (fun e => by dsimp only [mayArrive]; infer_instance) (by decide +kernel)⟩
  · exact ⟨_, rfl, ready_of (fun e => by have d1 := @decForSome; dsimp only [noReport]; infer_instance) (by decide +kernel)⟩
  · exact ⟨_, rfl, ready_of (fun e => by dsimp only [mayArrive]; infer_instance) (by decide +kernel)⟩
  all_goals exact ⟨_, rfl, ready_of (fun e => by dsimp only; infer_instance) (by decide +kernel)⟩

/-- For `wait_instructions`: every row. -/
theorem witness_wait_instructions :
    ReadyAt waitRows 0 (num 4 (sImm .none .none 0#32)) desk ∧ ReadyAt waitRows 1 (sOps .none (.s 1) .none) desk ∧
    ReadyAt waitRows 2 (sImm (.s 4) (.s 1) 16#32) (deskWith (withS 1 65520#64)) ∧
    ReadyAt waitRows 3 (sImm (.s 4) (.s 1) 7#32) (deskWith (withS 1 65520#64)) := by
  refine ⟨?_, ?_, ?_, ?_⟩
  all_goals exact ⟨_, rfl, ready_of (fun e => by dsimp only [syncOk, quiet]; infer_instance) (by decide +kernel)⟩

theorem ownsAll_of {s : State} {slot a n : Nat}
    (h : ((List.range ((a % 2048 + n + 2047) / 2048)).all fun i => s.owns slot (a + 2048 * i)) = true) : ownsAll s slot a n :=
  fun i hi => List.all_eq_true.mp h i (List.mem_range.mpr (by omega))

/-- For `system_instructions`: every row, `tlbinv` freeing a frame too. -/
theorem witness_system_instructions :
    ReadyAt systemRows 0 (sOps (.s 4) .none .none) desk ∧ ReadyAt systemRows 1 (sOps .none (.s 1) (.s 2)) desk ∧
    ReadyAt systemRows 2 ({ sOps (.s 4) (.s 1) (.s 2) with c := Src.mk (.s 3) false })
      (deskWith fun q => withS 2 0x20000#64 (withS 3 0x1B0000#64 q)) := by
  refine ⟨⟨_, rfl, ready_of (fun e => by have d1 := @decSome; dsimp only; infer_instance) (by decide +kernel)⟩,
    ⟨_, rfl, ready_of (fun e => by dsimp only; infer_instance) (by decide +kernel)⟩,
    ⟨_, rfl, ready_by (fun e => decide (e.active ≠ 0#32 ∧ e.x.a.w.toNat < 2 ^ 48 ∧ tlbFrame e % tlbBytes e = 0 ∧
        e.s.moraine.length < Config.moraineFrames) && (List.range ((tlbFrame e % 2048 + tlbBytes e + 2047) / 2048)).all fun i =>
          e.s.owns (slotOf e.ctxNo) (tlbFrame e + 2048 * i)) (fun e h => ?_) (by decide +kernel)⟩⟩
  simp only [Bool.and_eq_true, decide_eq_true_eq] at h
  exact ⟨h.1.1, .inr h.1.2.1, fun _ => ⟨h.1.2.2.1, ownsAll_of h.2, h.1.2.2.2⟩⟩

/-- For `system_instructions`: `sysr`, `sysw` and the spelling of a written CHCTL, at every register. -/
theorem witness_system_registers : ∀ r ∈ regRows,
    Ready (sysrRow (sImm (.s 4) .none (BitVec.ofNat 32 r.num)) r) (sImm (.s 4) .none (BitVec.ofNat 32 r.num)) desk ∧
    Ready (syswRow (.sysw (sImm .none (.s 1) (BitVec.ofNat 32 r.num))) r) (sImm .none (.s 1) (BitVec.ofNat 32 r.num)) desk ∧
    Ready (syswRow (.chctlWrite (sImm .none (.s 1) (BitVec.ofNat 32 r.num))) r) (sImm .none (.s 1) (BitVec.ofNat 32 r.num)) desk := by
  intro r hr
  have h : (regRows.all fun r =>
      passes shSysr false sysExtra (sImm (.s 4) .none (BitVec.ofNat 32 r.num)) desk (fun e => decide (e.opened.x.b.w.toNat % 4096 = r.num)) &&
      passes shSysw false sysExtra (sImm .none (.s 1) (BitVec.ofNat 32 r.num)) desk
        fun e => decide (e.opened.x.b.w.toNat % 4096 = r.num)) = true := by decide +kernel
  have h := List.all_eq_true.mp h r hr
  rw [Bool.and_eq_true] at h
  exact ⟨ready_by (fun e => decide (e.x.b.w.toNat % 4096 = r.num)) (fun e he => (of_decide_eq_true he : e.x.b.w.toNat % 4096 = r.num)) h.1,
    ready_by (fun e => decide (e.x.b.w.toNat % 4096 = r.num)) (fun e he => (of_decide_eq_true he : e.x.b.w.toNat % 4096 = r.num)) h.2,
    ready_by (fun e => decide (e.x.b.w.toNat % 4096 = r.num)) (fun e he => (of_decide_eq_true he : e.x.b.w.toNat % 4096 = r.num)) h.2⟩

/-- For `system_instructions`: where `icinv` and `tlbinv` trap: a range past 2^48, a bad address, a misaligned frame. -/
theorem witness_system_traps :
    (∃ e, Issues { shSys with a := src1, b := src1, rule := fun _ a b _ => a == .uniform && b == .uniform } false noExtra
        (sOps .none (.s 1) (.s 2)) (deskWith fun q => withS 1 0x1000000000000#64 (withS 2 1#64 q)) e ∧
      e.q.glide = none ∧ e.active ≠ 0#32 ∧ 2 ^ 48 < e.x.a.w.toNat + e.x.b.w.toNat) ∧
    (∃ e, Issues (shTlbinv { sOps (.s 4) (.s 1) (.s 2) with c := Src.mk (.s 3) false }) false tlbExtra
        { sOps (.s 4) (.s 1) (.s 2) with c := Src.mk (.s 3) false } (deskWith (withS 1 0x1000000000000#64)) e ∧
      e.q.glide = none ∧ e.active ≠ 0#32 ∧ e.x.b.w.getLsbD 16 = false ∧ 2 ^ 48 ≤ e.x.a.w.toNat) ∧
    ∃ e, Issues (shTlbinv { sOps (.s 4) (.s 1) (.s 2) with c := Src.mk (.s 3) false }) false tlbExtra
        { sOps (.s 4) (.s 1) (.s 2) with c := Src.mk (.s 3) false } (deskWith fun q => withS 2 0x20000#64 (withS 3 0x10001#64 q)) e ∧
      e.q.glide = none ∧ e.active ≠ 0#32 ∧ e.x.b.w.getLsbD 17 = true ∧ tlbFrame e % tlbBytes e ≠ 0 := by
  have h1 : passes { shSys with a := src1, b := src1, rule := fun _ a b _ => a == .uniform && b == .uniform } false noExtra
      (sOps .none (.s 1) (.s 2)) (deskWith fun q => withS 1 0x1000000000000#64 (withS 2 1#64 q))
      (fun e => decide (e.q.glide = none ∧ e.active ≠ 0#32 ∧ 2 ^ 48 < e.x.a.w.toNat + e.x.b.w.toNat)) = true := by decide +kernel
  have h2 : passes (shTlbinv { sOps (.s 4) (.s 1) (.s 2) with c := Src.mk (.s 3) false }) false tlbExtra
      { sOps (.s 4) (.s 1) (.s 2) with c := Src.mk (.s 3) false } (deskWith (withS 1 0x1000000000000#64))
      (fun e => decide (e.q.glide = none ∧ e.active ≠ 0#32 ∧ e.x.b.w.getLsbD 16 = false ∧ 2 ^ 48 ≤ e.x.a.w.toNat)) = true := by
    decide +kernel
  have h3 : passes (shTlbinv { sOps (.s 4) (.s 1) (.s 2) with c := Src.mk (.s 3) false }) false tlbExtra
      { sOps (.s 4) (.s 1) (.s 2) with c := Src.mk (.s 3) false } (deskWith fun q => withS 2 0x20000#64 (withS 3 0x10001#64 q))
      (fun e => decide (e.q.glide = none ∧ e.active ≠ 0#32 ∧ e.x.b.w.getLsbD 17 = true ∧ tlbFrame e % tlbBytes e ≠ 0)) = true := by
    decide +kernel
  obtain ⟨e1, i1, d1⟩ := issues_of_passes h1
  obtain ⟨e2, i2, d2⟩ := issues_of_passes h2
  obtain ⟨e3, i3, d3⟩ := issues_of_passes h3
  exact ⟨⟨e1, i1, of_decide_eq_true d1⟩, ⟨e2, i2, of_decide_eq_true d2⟩, e3, i3, of_decide_eq_true d3⟩

/-! ### Posts, chains, keys, partitions -/

def tensorOf (base : Nat) (space format : Nat) (cols rows stride : Nat) : TensorRec :=
  { base := BitVec.ofNat 64 base, space := BitVec.ofNat 8 space, format := BitVec.ofNat 8 format, block := 0#8, layout := 0#8,
    dim0 := BitVec.ofNat 16 cols, dim1 := BitVec.ofNat 16 rows, stride := BitVec.ofNat 32 stride, scaleOff := 0#32,
    tscale := 0x3F800000#32, sync := syncNone }

/-- Tensor records of matrices and vectors, and numbers in s1 and s2. -/
def benchOf (a b : Nat) : State :=
  (deskWith fun q => withS 1 (BitVec.ofNat 64 a) (withS 2 (BitVec.ofNat 64 b) q)).modCtx 0 fun c => { c with tensors :=
    [(1, tensorOf 0 1 5 32 128 64), (2, tensorOf 8192 1 5 32 64 64), (3, tensorOf 0 1 4 64 64 256), (4, tensorOf 0x20000 0 4 16 1 64),
     (5, tensorOf 0 1 4 16 1 64)] }

/-- For `copy_posts`: every row; a record at the last bytes of the window. -/
theorem witness_copy_posts :
    (∀ k, k < 3 → ReadyAt copyRows k (num 0 (sOps (.s 10) (.s 1) (.s 2))) (benchOf 0x504 0)) ∧
    ReadyAt copyRows 3 (num 0 (sOps (.s 4) (.s 1) (.s 2))) (benchOf 16352 255) ∧
    ReadyAt copyRows 4 (num 0 (sOps (.s 4) (.s 1) (.s 2))) (benchOf 255 3) := by
  refine ⟨fun k hk => ?_, ?_, ?_⟩
  · match k, hk with
    | 0, _ => exact ⟨_, rfl, ready_of (fun e => by dsimp only [copyRow, roomFor]; infer_instance) (by decide +kernel)⟩
    | 1, _ => exact ⟨_, rfl, ready_of (fun e => by dsimp only [copyRow, roomFor]; infer_instance) (by decide +kernel)⟩
    | 2, _ => exact ⟨_, rfl, ready_of (fun e => by dsimp only [copyRow, roomFor]; infer_instance) (by decide +kernel)⟩
  all_goals exact ⟨_, rfl, ready_of (fun e => by dsimp only; infer_instance) (by decide +kernel)⟩

/-- The group is a pair's. -/
def pairBench (a b : Nat) : State :=
  ((benchOf a b).modGroup 0 fun g => { g with pair := true }).modCore 1 fun c => { c with tileOwner := some 0 }

/-- For `matrix_posts`: every row. -/
theorem witness_matrix_posts :
    ReadyAt matrixRows 0 (num 1 (sOps .none (.s 1) (.s 2))) (benchOf 0xF00201 0) ∧
    ReadyAt matrixRows 1 (num 1 (sOps .none (.s 1) (.s 2))) (pairBench 0xFF0201 0) ∧
    ReadyAt matrixRows 2 (num 1 (sOps .none (.s 1) .none)) (benchOf 0xF00000 0) ∧
    ReadyAt matrixRows 3 (num 1 (sOps .none (.s 1) (.s 2))) (benchOf 0xF00003 0) ∧
    ReadyAt matrixRows 4 (num 1 (sOps .none (.s 1) (.s 2))) (benchOf 0xE00003 0) ∧
    ReadyAt matrixRows 5 (num 1 (sOps .none (.s 1) .none)) (benchOf 63 0) ∧
    ReadyAt matrixRows 6 (num 2 (sOps (.v 125) (.s 1) .none)) (benchOf 0x1F0000 0) := by
  refine ⟨?_, ?_, ?_, ?_, ?_, ?_, ?_⟩
  all_goals exact ⟨_, rfl, ready_of (fun e => by dsimp only [mxRow, mxRoom, roomFor]; infer_instance) (by decide +kernel)⟩

def roomKnown (e : Env) : Decidable (mxRoom e) := by
  unfold mxRoom roomFor
  infer_instance

/-- For `matrix_posts`: a post whose first record does not exist; one whose tile is no tile of the group. -/
theorem witness_matrix_faults :
    (∃ e x, Issues (shMx true) false noExtra (num 1 (sOps .none (.s 1) (.s 2))) (benchOf 0xF0020F 0) e ∧ mxRoom e ∧
      mxFails e (namedMx e .mma) = some x ∧ x.sub = 0x0102#16) ∧
    ∃ e x, Issues (shMx true) false noExtra (num 1 (sOps .none (.s 1) (.s 2))) (benchOf 0xFF0201 0) e ∧ mxRoom e ∧
      mxFails e (namedMx e .pair) = some x ∧ x.sub = 0x0101#16 := by
  have go {s : State} {kind : MxKind} {sub : BitVec 16} (h : passes (shMx true) false noExtra (num 1 (sOps .none (.s 1) (.s 2))) s (fun e =>
      @decide (mxRoom e) (roomKnown e) &&
        (mxFails e (namedMx e kind)).any fun x => x.sub == sub) = true) :
      ∃ e x, Issues (shMx true) false noExtra (num 1 (sOps .none (.s 1) (.s 2))) s e ∧ mxRoom e ∧ mxFails e (namedMx e kind) = some x ∧ x.sub = sub := by
    obtain ⟨e, he, hd⟩ := issues_of_passes h
    rw [Bool.and_eq_true] at hd
    obtain ⟨x, hx, hd2⟩ := ex_some hd.2
    exact ⟨e, x, he, @of_decide_eq_true _ (roomKnown e) hd.1, hx, eq_of_beq hd2⟩
  exact ⟨go (by decide +kernel), go (by decide +kernel)⟩

/-- A clause array with one decided variable, and a list of two literals in the shared window. -/
def clauseState (a b : Nat) : State :=
  ((benchOf a b).modCluster 0 fun c =>
    { c with clause := { c.clause with trail := [5], level := 1, rows := [(5, { val := true, level := 1, reason := 0xFFF, pos := 0 })] } }).modGroup
    0 fun g => { g with shared := memWriteN [] 16 [3#8, 0#8, 0#8, 0#8, 7#8, 0#8, 0#8, 0x80#8, 0xFF#8, 0xFF#8, 0xFF#8, 0xFF#8] }

def commandRows (o : Ops) : List EffRow := (clauseRows o).map commandEffRow

/-- For `clause_commands`: every row, at the ends of ranges. -/
theorem witness_clause_commands :
    ReadyAt commandRows 0 (num 3 (sOps .none (.s 1) (.s 2))) (clauseState 1024 4096) ∧
    ReadyAt commandRows 0 (num 3 (sOps .none (.s 1) (.s 2))) (clauseState 1 1) ∧
    ReadyAt commandRows 1 (num 3 (sOps (.s 4) (.s 1) .none)) (clauseState 1023 0) ∧
    ReadyAt commandRows 2 (num 3 (sOps (.s 4) .none .none)) (clauseState 0 0) ∧
    ReadyAt commandRows 3 (num 3 (sOps (.s 4) (.s 1) .none)) (clauseState 1 0) ∧
    ReadyAt commandRows 4 (num 3 (sOps (.s 4) (.s 1) .none)) (clauseState 0 0) ∧
    ReadyAt commandRows 5 (num 3 (sOps (.s 4) (.s 1) (.s 2))) (clauseState 4095 9) ∧
    ReadyAt commandRows 6 (num 3 (sOps (.s 4) (.s 1) .none)) (clauseState 1023 0) ∧
    ReadyAt commandRows 7 (num 3 (sOps (.s 4) .none .none)) (clauseState 0 0) ∧
    ReadyAt commandRows 8 (num 3 (sOps (.s 4) .none .none)) (clauseState 0 0) ∧
    ReadyAt (fun o => [loadColumnRow o]) 0 (num 3 (sOps (.s 4) (.s 1) (.s 2))) (clauseState 4095 16) := by
  refine ⟨?_, ?_, ?_, ?_, ?_, ?_, ?_, ?_, ?_, ?_, ?_⟩
  all_goals exact ⟨_, rfl, ready_of (fun e => by dsimp only [commandEffRow, loadColumnRow, arrayFree, roomFor]; infer_instance)
    (by decide +kernel)⟩

/-- For `chain_instructions`: every row, on the partition's first and last far context. -/
theorem witness_chain_instructions :
    ReadyAt chainRows 0 (num 4 (sOps (.s 4) (.s 1) (.s 2))) (benchOf 255 1) ∧
    ReadyAt chainRows 1 (num 4 (sOps (.s 4) (.s 1) .none)) (benchOf 0 0) ∧
    ReadyAt chainRows 2 (num 4 (sOps (.s 4) (.s 1) (.s 2))) (benchOf 255 0) := by
  refine ⟨?_, ?_, ?_⟩
  all_goals exact ⟨_, rfl, ready_of (fun e => by dsimp only [roomFor]; infer_instance) (by decide +kernel)⟩

/-- The shared window holds bytes from 0 on. -/
def recordState (a b : Nat) (bs : List Byte) : State := (benchOf a b).modGroup 0 fun g => { g with shared := memWriteN [] 0 bs }

/-- Slots 1 to 3 are being built, slot 1 with a cluster; slot 4 has been cleared for the squad that waits. -/
def buildState (a b : Nat) : State :=
  (((((benchOf a b).modPart 1 fun p => { p with status := .building, clusters := 2#64, keys := 2#64 }).modPart 2 fun p =>
    { p with status := .building }).modPart 3 fun p => { p with status := .building }).modKey 1 fun k => { k with keyId := 7 }).modPart 4
    fun p => { p with status := .white, whiteout := some { squad := 0, receipt := 0, startQ := 0, startNs := 0, ended := some 9, bytes := [1#8, 2#8] } }

/-- Whether a squad's turn among those instructions has come (`alone`). -/
def aloneIs (e : Env) : Bool :=
  let line := (e.s.partQueue.filter fun k => (e.s.squad? k).any fun q => !q.ended).head?
  decide (e.active ≠ 0#32 ∧ (line = none ∨ line = some e.cx.key)) && e.s.parts.all fun p => match p.2.whiteout with
    | some w => w.squad == e.cx.key || w.ended.isSome
    | none => true

theorem alone_of {e : Env} (h : aloneIs e = true) : alone e := by
  simp only [aloneIs, Bool.and_eq_true, decide_eq_true_eq, List.all_eq_true] at h
  obtain ⟨⟨h1, h2⟩, h3⟩ := h
  refine ⟨h1, h2, fun p hp w hw => ?_⟩
  have := h3 p hp
  rw [hw] at this
  simpa using this

theorem partReady {i : Instr} {sh : Shape} {w : Env → Prop} {after : Env → State} {reply : Env → Nat} {o : Ops} {s : State} (test : Env → Bool)
    (hw : ∀ e, test e = true → w e) (h : passes sh false noExtra o s (fun e => aloneIs e.opened && test e.opened.outOfLine) = true) :
    Ready (partRow i sh w after reply) o s := by
  refine ready_by (r := partRow i sh w after reply) (fun e => aloneIs e && test e.outOfLine) (fun e he => ?_) h
  rw [Bool.and_eq_true] at he
  exact ⟨alone_of he.1, hw _ he.2⟩

theorem partReadyDec {i : Instr} {sh : Shape} {w : Env → Prop} {after : Env → State} {reply : Env → Nat} {o : Ops} {s : State}
    (d : ∀ e, Decidable (w e)) (h : passes sh false noExtra o s (fun e => aloneIs e.opened && @decide _ (d e.opened.outOfLine)) = true) :
    Ready (partRow i sh w after reply) o s :=
  partReady (fun e => @decide _ (d e)) (fun _ he => @of_decide_eq_true _ (d _) he) h

/-- For `partition_instructions`: the rows about keys, `bind` in both forms. -/
theorem witness_key_instructions :
    ReadyAt keyRows 0 (sOps (.s 4) (.s 1) (.s 2)) (recordState 0 63 [2#8]) ∧
    ReadyAt keyRows 1 (sOps (.s 4) (.s 1) (.s 2)) (buildState 1 1) ∧
    ReadyAt keyRows 2 (sOps (.s 4) (.s 1) (.s 2)) (buildState 1 128) := by
  refine ⟨?_, ?_, ?_⟩
  all_goals exact ⟨_, rfl, partReadyDec (fun e => by dsimp only [bindWhen]; infer_instance) (by decide +kernel)⟩

/-- Another squad of the device holds the first place in line. -/
def lineState (a b : Nat) : State := { buildState a b with partQueue := [0, 7] }

/-- For `partition_instructions`: the rows about partitions, one for the squad that is first in line. -/
theorem witness_partition_rows :
    ReadyAt partitionRows 0 (sOps (.s 4) (.s 1) (.s 2)) (recordState 15 16256 []) ∧
    ReadyAt partitionRows 1 (sOps (.s 4) (.s 1) (.s 2)) (lineState 3 0) ∧
    ReadyAt partitionRows 2 (sOps (.s 4) (.s 1) (.s 2)) (buildState 6 100) ∧
    ReadyAt partitionRows 2 (sOps (.s 4) (.s 1) (.s 2)) (buildState 6 1000000) ∧
    ReadyAt partitionRows 3 (sOps (.s 4) (.s 1) .none) (buildState 3 0) ∧
    ReadyAt partitionRows 4 (sOps (.s 4) (.s 1) .none) (buildState 4 0) ∧
    ReadyAt partitionRows 5 (sOps (.s 4) (.s 1) (.s 2)) (buildState 4 0) := by
  refine ⟨⟨_, rfl, partReadyDec (fun e => by dsimp only; infer_instance) (by decide +kernel)⟩,
    ⟨_, rfl, partReadyDec (fun _ => inferInstance) (by decide +kernel)⟩,
    ⟨_, rfl, partReadyDec (fun e => by dsimp only; infer_instance) (by decide +kernel)⟩,
    ⟨_, rfl, partReadyDec (fun e => by dsimp only; infer_instance) (by decide +kernel)⟩,
    ⟨_, rfl, partReadyDec (fun e => by dsimp only; infer_instance) (by decide +kernel)⟩,
    ⟨_, rfl, partReadyDec (fun e => by dsimp only; infer_instance) (by decide +kernel)⟩,
    ⟨_, rfl, partReady (fun e => match (e.s.part (e.x.a.w.toNat % 16)).whiteout with
    | some w => w.squad == e.cx.key && w.ended.isSome && (e.stored e.s (w.receipt % 2 ^ 64) w.bytes).1.isNone
    | none => false) (fun e h => ?_) (by decide +kernel)⟩⟩
  split at h
  next w hw =>
    simp only [Bool.and_eq_true, beq_iff_eq, Option.isSome_iff_exists, Option.isNone_iff_eq_none] at h
    obtain ⟨⟨h1, t, ht⟩, h2⟩ := h
    exact ⟨w, t, hw, h1, ht, h2⟩
  next => cases h

/-- What a range log's instruction must meet, tested. -/
def watchIs (e : Env) : Bool :=
  let slot := e.x.c.w.toNat / 256 % 16
  let a := e.x.a.w.toNat
  let b := e.x.b.w.toNat
  let frames (owner : Nat) : Bool :=
    b % 65536 == 0 && (List.range ((a % 2048 + b + 2047) / 2048)).all fun i => e.s.owns owner (a + 2048 * i)
  match e.x.c.w.toNat / 4096 % 4 with
  | 0 => b != 0 && a % 65536 == 0 && frames slot
  | 1 => true
  | 2 => frames 0
  | _ =>
    let p := signed e.s slot (logHead e.s (e.s.part slot))
    decide (a + 128 ≤ winSize e.s e.q .shared) && (e.stored p.2 a (logHead e.s (e.s.part slot) ++ p.1)).1.isNone

theorem watch_of (e : Env) (h : watchIs e = true) : watchWhen e := by
  unfold watchIs at h
  unfold watchWhen
  dsimp only at h ⊢
  generalize e.x.c.w.toNat / 4096 % 4 = k at h ⊢
  split
  · simp only [Bool.and_eq_true, bne_iff_ne, beq_iff_eq] at h
    exact ⟨h.1.1, h.1.2, h.2.1, ownsAll_of h.2.2⟩
  · trivial
  · simp only [Bool.and_eq_true, beq_iff_eq] at h
    exact ⟨h.1, ownsAll_of h.2⟩
  · simp only [Bool.and_eq_true, decide_eq_true_eq, Option.isNone_iff_eq_none] at h
    exact h

/-- For `partition_instructions`: the range logs and the semaphore. -/
theorem witness_watch_instructions :
    let o : Ops := { sOps (.s 4) (.s 1) (.s 2) with c := Src.mk (.s 3) false }
    let st (a b c : Nat) : State := (buildState a b).modSquad 0 (withS 3 (BitVec.ofNat 64 c))
    ReadyAt (fun o => [watchRow (.rwatchSetRange o)]) 0 o (st 0x10000 0x10000 63) ∧
    ReadyAt (fun o => [watchRow (.rwatchClearRange o)]) 0 o (st 0 0 0x1000) ∧
    ReadyAt (fun o => [watchRow (.rwatchSetRing o)]) 0 o (st 0x10800 0x10000 0x2100) ∧
    ReadyAt (fun o => [watchRow (.rwatchWriteHead o)]) 0 o (st 16256 0 0x3100) ∧
    ∀ k, k < 4 → ReadyAt (fun o => [semRow (.mgsemRead o), semRow (.mgsemAcquire o), semRow (.mgsemRenew o), semRow (.mgsemRelease o)]) k
      (sOps (.s 4) (.s 1) .none) (benchOf k 0) := by
  refine ⟨⟨_, rfl, partReady watchIs watch_of (by decide +kernel)⟩, ⟨_, rfl, partReady watchIs watch_of (by decide +kernel)⟩,
    ⟨_, rfl, partReady watchIs watch_of (by decide +kernel)⟩, ⟨_, rfl, partReady watchIs watch_of (by decide +kernel)⟩, fun k hk => ?_⟩
  match k, hk with
  | 0, _ => exact ⟨_, rfl, ready_of (fun e => by dsimp only [semRow]; infer_instance) (by decide +kernel)⟩
  | 1, _ => exact ⟨_, rfl, ready_of (fun e => by dsimp only [semRow]; infer_instance) (by decide +kernel)⟩
  | 2, _ => exact ⟨_, rfl, ready_of (fun e => by dsimp only [semRow]; infer_instance) (by decide +kernel)⟩
  | 3, _ => exact ⟨_, rfl, ready_of (fun e => by dsimp only [semRow]; infer_instance) (by decide +kernel)⟩

/-! ### Trees, words, steps, checks -/

/-- R35: the manual's tree; v1 holds −1, 7 and 99 in lanes 0 to 2 and 0 elsewhere: no lane exits. -/
def someTree : Tree :=
  { top := 0#16, stem := 1#2, nodeMask := 5#7, len := 10#5, top1 := 0#4, arcMap := 0x101#28,
    body := [0x00680042#32, 0x00048042#32, 0#32, 0#32, 3#32, 0x6400095C#32, 0x01D00208#32, 0x01010204#32] }
def treeState : State :=
  { deskWith (withV 1 fun L => if L = 0 then 0xFFFFFFFF#32 else if L = 1 then 7#32 else if L = 2 then 99#32 else 0#32) with
    issuing := some { squad := 0, lanes := 0xFFFFFFFF#32, pc := 0x10000#64, words := encode (.tree someTree) } }

def treeIssuing (t : Tree) : Issuing := { squad := 0, lanes := 0xFFFFFFFF#32, pc := 0x10000#64, words := encode (.tree t) }

theorem atTree_of {s0 s : State} {i : Issuing} {q0 q : Squad} (hi : s0.issuing = some i) (h0 : s0.squad? i.squad = some q0)
    (hs : s = endRun s0 (s0.coreOf q0) q0.issueSlot) (hq : s.squad? i.squad = some q) (hl : q.lanes.length = 32) : AtTree s0 i s q :=
  ⟨hi, ⟨q0, h0, hs⟩, hq, hl⟩

/-- What a tree's run must meet, tested. -/
def treeRuns (t : Tree) (i : Issuing) (q : Squad) (s : State) : Bool :=
  match treeParts t with
  | none => false
  | some p => (treeDefect t).isNone && !((treeNeeds p none).reads ++ (treeNeeds p none).writes).any q.awaits && (vectorWindow s q).1 &&
    match treeNaming t p (treeCx t i) (vectorWindow s q).2 q with
    | .ok (.ready s2) => match s2.squad? i.squad with
      | none => false
      | some q2 => match treeLanes t p i.squad q2 s2 (lanesOf i.lanes) with
        | .ok (s1, lanes) => lanes.all (fun x =>
              x.2.fault.isNone && decide ((x.2.leaf, (mapGet p.leaves x.2.leaf).getD 0#32) ∈ p.leaves) &&
                (leafTarget i.pc t.len.toNat s1 q2 x.2.view ((mapGet p.leaves x.2.leaf).getD 0#32) x.1).toBool &&
                (leafOf ((mapGet p.leaves x.2.leaf).getD 0#32)).kind != 3#3)
        | .error _ => false
    | _ => false

theorem treeRuns_of {t : Tree} {i : Issuing} {q : Squad} {s : State} (h : treeRuns t i q s = true) :
    ∃ p s2 q2 s1 lanes, TreeRuns t p i s q s2 q2 s1 lanes := by
  unfold treeRuns at h
  split at h
  next => cases h
  next p hp =>
    rw [Bool.and_eq_true] at h
    obtain ⟨h0, h⟩ := h
    simp only [Bool.and_eq_true, Option.isNone_iff_eq_none, Bool.not_eq_true'] at h0
    split at h
    next s2 hn =>
      split at h
      next => cases h
      next q2 hq =>
        split at h
        next s1 lanes hl =>
          simp only [Bool.and_eq_true, List.all_eq_true, Option.isNone_iff_eq_none, decide_eq_true_eq, bne_iff_ne, ne_eq] at h
          refine ⟨p, s2, q2, s1, lanes, h0.1.1, hp, h0.1.2, h0.2, hn, hq, hl, fun x hx => (h x hx).1.1, fun x hx => ?_, fun x hx => (h x hx).2⟩
          have hg := (h x hx).1.2
          revert hg
          cases leafTarget i.pc t.len.toNat s1 q2 x.2.view ((mapGet p.leaves x.2.leaf).getD 0#32) x.1 with
          | error f => intro hg; cases hg
          | ok pc => exact fun _ => ⟨pc, rfl⟩
        next => cases h
    next => cases h

/-- For `tree_commits`, its first part. -/
theorem witness_tree_commits : ∃ (s : State) (q : Squad) (p : TreeParts) (s2 : State) (q2 : Squad) (s1 : State) (lanes : List (Nat × TreeLane)),
    AtTree treeState (treeIssuing someTree) s q ∧ TreeRuns someTree p (treeIssuing someTree) s q s2 q2 s1 lanes := by
  obtain ⟨p, s2, q2, s1, lanes, h⟩ := treeRuns_of (by decide +kernel : treeRuns someTree (treeIssuing someTree)
    ((endRun treeState (treeState.coreOf (treeState.squadOr 0)) (treeState.squadOr 0).issueSlot).squadOr 0)
    (endRun treeState (treeState.coreOf (treeState.squadOr 0)) (treeState.squadOr 0).issueSlot) = true)
  exact ⟨_, _, p, s2, q2, s1, lanes, atTree_of (q0 := treeState.squadOr 0) rfl (by decide +kernel) rfl (by decide +kernel) (by decide +kernel), h⟩

/-- A tree of one test, `ilt v1, zero`, whose leaves are the next instruction and its own first word. -/
def testTree : Tree :=
  { top := 0#16, stem := 0#2, nodeMask := 1#7, len := 5#5, top1 := 0#4, arcMap := 0#28, body := [0x00680042#32, 1#32, 0#32] }

/-- For `tree_commits`, its second part: a tree of tests alone, and the manual's, which writes v2, v3 and v5, mapped before. -/
theorem witness_tree_free :
    (∃ s q p, AtTree { treeState with issuing := some (treeIssuing testTree) } (treeIssuing testTree) s q ∧
      TreeFree testTree p (treeIssuing testTree) s q ∧ ∀ y ∈ p.ops, y.2 = []) := by
  let s0 : State := { treeState with issuing := some (treeIssuing testTree) }
  let s : State := endRun s0 (s0.coreOf (s0.squadOr 0)) (s0.squadOr 0).issueSlot
  let p : TreeParts := (treeParts testTree).getD { tests := [], leaves := [], ops := [] }
  refine ⟨s, s.squadOr 0, p, atTree_of (q0 := s0.squadOr 0) rfl (by decide +kernel) rfl (by decide +kernel) (by decide +kernel), ?_, by decide +kernel⟩
  exact ⟨by decide +kernel, by decide +kernel, by decide +kernel, by decide +kernel, by decide +kernel, by decide +kernel, by decide +kernel,
    fun x hx ws hw => (by
      have : ∀ y ∈ p.ops, y.2 = [] := by decide +kernel
      rw [this x hx] at hw; cases hw), by decide +kernel⟩

/-- For `words_of_every_instruction`, `every_word_means_one_thing` and `instruction_length`. -/
theorem witness_words : (Instr.add (sOps (.v 1) (.v 2) (.v 3))).wellFormed = true ∧
    (Instr.add (sOps (.v 1) (.v 2) (.v 3))).coded ≠ .event ∧
    decodeWords (encode (.add (sOps (.v 1) (.v 2) (.v 3))) ++ [5#32]) = .ok (.add (sOps (.v 1) (.v 2) (.v 3)), [5#32]) ∧
    (0x00602009#32).toNat % 4 ≠ 3 := ⟨by decide +kernel, nofun, rfl, by decide +kernel⟩

/-- The code `add v1, v2, v3` at the squad's program counter. -/
def codeState : State :=
  { probeState State.reset (bytesOfWords [0x00602009#32, 0x03FC02FF#32]) with agenda := [.issue 0 0xFFFFFFFF#32, .elapse 4 7] }

/-- What a bundle's next instruction must meet, tested. -/
def nextIs (b : State) (key : Nat) (lanes : LaneMask) (i : Instr) : Bool :=
  match b.squad? key with
  | none => false
  | some q => canIssue b key lanes && (breakAt b (b.ctxOf q) (q.lane (lowLane lanes)).pc).isNone &&
    decide ((q.lane (lowLane lanes)).pc.toNat % 4 = 0) &&
    match fetchInstr b key (lowLane lanes) q (q.lane (lowLane lanes)).pc.toNat with
    | .got ws _ => match decodeWords ws with
      | .ok (j, _) => j == i
      | .error _ => false
    | _ => false

theorem nextIs_of {b : State} {key : Nat} {lanes : LaneMask} {i : Instr} (h : nextIs b key lanes i = true) :
    ∃ q s1 words, NextIs b key lanes q s1 words i := by
  unfold nextIs at h
  split at h
  next => cases h
  next q hq =>
    rw [Bool.and_eq_true] at h
    obtain ⟨h0, h⟩ := h
    simp only [Bool.and_eq_true, Option.isNone_iff_eq_none, decide_eq_true_eq] at h0
    split at h
    next ws s1 hf =>
      split at h
      next j rest hd =>
        have := eq_of_beq h
        subst this
        exact ⟨q, s1, ws, h0.1.1, hq, h0.1.2, h0.2, hf, rest, hd⟩
      next => cases h
    next => cases h

/-- For `a_step_runs_the_instruction`: an instruction's step. -/
theorem witness_a_step : ∃ q s1 words, codeState.agenda = .issue 0 0xFFFFFFFF#32 :: [.elapse 4 7] ∧
    NextIs { codeState with agenda := [.elapse 4 7], free := codeState.free + 1, issuing := none } 0 0xFFFFFFFF#32
      q s1 words (.add (sOps (.v 1) (.v 2) (.v 3))) := by
  obtain ⟨q, s1, ws, h⟩ := nextIs_of (by decide +kernel : nextIs
    { codeState with agenda := [.elapse 4 7], free := codeState.free + 1, issuing := none } 0 0xFFFFFFFF#32
      (.add (sOps (.v 1) (.v 2) (.v 3))) = true)
  exact ⟨q, s1, ws, rfl, h⟩

/-- The state of the code, with one move before it. -/
def moved (m : Move) : State := { codeState with agenda := [m] }

/-- For `a_step_runs_the_instruction`: the other moves. -/
theorem witness_other_moves : (moved (.event .gridAdmit)).agenda = .event .gridAdmit :: [] ∧ (moved (.elapse 4 7)).agenda = .elapse 4 7 :: [] ∧
    ((moved (.hostRead { port := .h1, vf := none } 0x108)).agenda = .hostRead { port := .h1, vf := none } 0x108 :: [] ∧
      fnReg codeState { port := .h1, vf := none } 0x108 = some 0x701#64) ∧
    (∀ offset, offset = 0x008 ∨ offset = 0x018 ∨ offset = 0x040 → (moved (.hostWrite { port := .h0, vf := some 15 } offset 3#64)).agenda =
      .hostWrite { port := .h0, vf := some 15 } offset 3#64 :: []) ∧
    (∀ u, u = 2 ^ 35 - 1 ∨ u = 2 ^ 36 → (moved (.spoil u)).agenda = .spoil u :: []) ∧
    codeState.region (32 * (2 ^ 35 - 1)) = .lpddr 3 ∧
      ({ codeState with firmware := { codeState.firmware with expanders := [32] } } : State).region (32 * 2 ^ 36) = .expander 0 ∧
    (moved (.lend 15)).agenda = .lend 15 :: [] ∧ (moved (.enableMem .h1 true)).agenda = .enableMem .h1 true :: [] ∧
    (moved (.i3c .h1 none)).agenda = .i3c .h1 none :: [] ∧
    ((moved (.i3c .h1 (some 0x108))).agenda = .i3c .h1 (some 0x108) :: [] ∧ fnReg codeState { port := .h1, vf := none } 0x108 = some 0x701#64) ∧
    (moved (.setCap 900)).agenda = .setCap 900 :: [] ∧ powerInUse codeState ≤ 900 :=
  ⟨rfl, rfl, ⟨rfl, rfl⟩, fun _ _ => rfl, fun _ _ => rfl, by decide +kernel, by decide +kernel, rfl, rfl, rfl, ⟨rfl, rfl⟩, rfl, by decide +kernel⟩

/-- R332: the command ring's registers: a base loses its low bits, a size that is not allowed is not taken; and CMDHEAD is read-only. -/
theorem test_ring_registers : (FnRegs.zero.set 0x008 0x12345678#64).cmdBase = 0x12345000#64 ∧ (FnRegs.zero.set 0x010 48#64).cmdSize = 16 ∧
    (FnRegs.zero.set 0x010 64#64).cmdSize = 64 ∧ FnRegs.zero.set 0x020 5#64 = FnRegs.zero := by decide

/-- R336: FWWAIT after power-on, slot 0 for the physical function. -/
theorem test_fnstat_after_reset : fnReg State.reset { port := .h0, vf := none } 0x000 = some 0x002#64 := by decide

/-- For `memories_stay_canonical`: the state after reset steps. -/
theorem witness_memories_stay_canonical : Canonical State.reset ∧ ∃ t, step State.reset = .next t := by
  refine ⟨⟨by decide, ?_, ?_⟩, ?_⟩
  · intro g hg
    cases hg
  · intro p hp
    cases hp
  · have h : (match step State.reset with
      | .next _ => true
      | _ => false) = true := by decide +kernel
    split at h
    next t ht => exact ⟨t, ht⟩
    next => cases h

theorem env_of {sh : Shape} {sForm : Bool} {o : Ops} {s : State} {p : Env → Bool} (h : ((issuingEnv sh sForm o s).map p) = some true) :
    ∃ e, issuingEnv sh sForm o s = some e ∧ p e = true := by
  cases he : issuingEnv sh sForm o s with
  | none => simp [he] at h
  | some e => exact ⟨e, rfl, by simpa [he] using h⟩

def defectAt (sh : Shape) (o : Ops) (e : Env) : Option (BitVec 16) := sh.defect (latchSupply e.q e.run e.cx.lanes) false o
def addOps : Ops := sOps (.v 1) (.v 2) (.v 3)

/-- For `checks_come_in_order`: a malformed field, a defect, a number that no system register has, a level too low. -/
theorem witness_checks_first :
    (FormOf (sOps (.reserved 0xDD#8) (.v 2) (.v 3)) desk (.add (sOps (.reserved 0xDD#8) (.v 2) (.v 3))) (shAB ruleAdd) noExtra ∧
      Malformed (sOps (.reserved 0xDD#8) (.v 2) (.v 3)) ∧ (shAB ruleAdd).undefined = false ∧
      ∃ e, issuingEnv (shAB ruleAdd) false (sOps (.reserved 0xDD#8) (.v 2) (.v 3)) desk = some e) ∧
    (∃ e, issuingEnv (shAB ruleAdd) false (sOps (.a 1) (.v 2) (.v 3)) desk = some e ∧
      (defectAt (shAB ruleAdd) (sOps (.a 1) (.v 2) (.v 3)) e).isSome = true) ∧
    (∃ e, issuingEnv shSysr false (sImm (.s 4) .none 0xA#32) desk = some e ∧ defectAt shSysr (sImm (.s 4) .none 0xA#32) e = none ∧
      (sysExtra e).isSome = true) ∧
    ∃ e, issuingEnv shPart1 false (sOps (.s 4) (.s 1) .none) (deskWith fun q => { q with lanes := q.lanes.map fun l => { l with level := .user } })
        = some e ∧
      defectAt shPart1 (sOps (.s 4) (.s 1) .none) e = none ∧ levelLt (e.q.levelOf e.cx.lanes) shPart1.level = true := by
  refine ⟨⟨.inl ⟨rfl, .inl ⟨⟨.add _, shAB ruleAdd, fun _ _ a b _ _ => (a : Int) + b⟩, by simp [arithRows], rfl, rfl⟩⟩, ⟨.inr (.inl ⟨0xDD#8, by decide⟩)⟩, by decide, ?_⟩, ?_, ?_, ?_⟩
  · obtain ⟨e, he, -⟩ := env_of (p := fun _ => true) (by decide +kernel :
      (issuingEnv (shAB ruleAdd) false (sOps (.reserved 0xDD#8) (.v 2) (.v 3)) desk).map _ = some true)
    exact ⟨e, he⟩
  · exact env_of (by decide +kernel)
  · obtain ⟨e, he, h⟩ := env_of (sh := shSysr) (sForm := false) (o := sImm (.s 4) .none 0xA#32) (s := desk)
      (p := fun e => (defectAt shSysr (sImm (.s 4) .none 0xA#32) e).isNone && (sysExtra e).isSome) (by decide +kernel)
    simp only [Bool.and_eq_true, Option.isNone_iff_eq_none] at h
    exact ⟨e, he, h⟩
  · obtain ⟨e, he, h⟩ := env_of (sh := shPart1) (sForm := false) (o := sOps (.s 4) (.s 1) .none)
      (s := deskWith fun q => { q with lanes := q.lanes.map fun l => { l with level := .user } })
      (p := fun e => (defectAt shPart1 (sOps (.s 4) (.s 1) .none) e).isNone && levelLt (e.q.levelOf e.cx.lanes) shPart1.level)
      (by decide +kernel)
    simp only [Bool.and_eq_true, Option.isNone_iff_eq_none] at h
    exact ⟨e, he, h⟩

/-- The checks up to the level pass. -/
def early (sh : Shape) (o : Ops) (e : Env) : Bool :=
  (defectAt sh o e).isNone && !levelLt (e.q.levelOf e.cx.lanes) sh.level

/-- An operation that has not replied, and its landing register. -/
def postedOp : OutOp := { OutOp.new 9 0 with replies := [.v 2], landing := some 1 }
/-- A squad that glides past barrier 0. -/
def gliding (q : Squad) : Squad :=
  { q with glide := some { barrier := 0, files := q.files, renamed := [], latchRecs := q.lanes.map (·.latchRec), fflags := 0#64, pc := 0x10008#64,
                           buffer := [], sectors := [], reads := [], liveReads := [], writers := [] } }

/-- For `checks_come_in_order`: a missing lane, a gliding squad, a register that awaits its reply, a busy landing register, no window. -/
theorem witness_checks_later :
    (∃ e, issuingEnv (shAB ruleInt) false (sOps (.s 4) (.s 1) (.s 2)) { desk with issuing := some { squad := 0, lanes := 0xFFFF#32, pc := 0x10000#64, words := [] } } = some e ∧
      early (shAB ruleInt) (sOps (.s 4) (.s 1) (.s 2)) e = true ∧ needsFull (shAB ruleInt) (sOps (.s 4) (.s 1) (.s 2)) = true ∧ e.missing ≠ 0#32) ∧
    (∃ e, issuingEnv (shBar false) false (num 1 blankOps) (deskWith gliding) = some e ∧ early (shBar false) (num 1 blankOps) e = true ∧
      e.missing = 0#32 ∧ e.q.glide.isSome = true ∧ (shBar false).stalls = true) ∧
    (∃ e, issuingEnv (shAB ruleAdd) false addOps (deskWith fun q => { q with ops := [postedOp] }) = some e ∧ early (shAB ruleAdd) addOps e = true ∧
      e.missing = 0#32 ∧ e.q.glide.isSome = false ∧ (namesUsed (shAB ruleAdd) addOps).any e.q.awaits = true) ∧
    (∃ e, issuingEnv (shAB ruleInt) false (sOps (.s 1) (.s 3) (.s 2)) (deskWith fun q => withS 1 8#64 { q with ops := [postedOp] }) = some e ∧
      early (shAB ruleInt) (sOps (.s 1) (.s 3) (.s 2)) e = true ∧ e.missing = 0#32 ∧ e.q.glide.isSome = false ∧
      (namesUsed (shAB ruleInt) (sOps (.s 1) (.s 3) (.s 2))).any e.q.awaits = false ∧ hitsLanding e = true) ∧
    ∃ e, issuingEnv (shAB ruleAdd) false addOps (desk.modCluster 0 fun k => { k with budget := 0 }) = some e ∧
      early (shAB ruleAdd) addOps e = true ∧ e.missing = 0#32 ∧ e.q.glide.isSome = false ∧ hitsLanding e = false ∧ (vectorOpen e).1 = false := by
  refine ⟨?_, ?_, ?_, ?_, ?_⟩
  · obtain ⟨e, he, h⟩ := env_of (sh := shAB ruleInt) (sForm := false) (o := sOps (.s 4) (.s 1) (.s 2))
      (s := { desk with issuing := some { squad := 0, lanes := 0xFFFF#32, pc := 0x10000#64, words := [] } })
      (p := fun e => decide (early (shAB ruleInt) (sOps (.s 4) (.s 1) (.s 2)) e = true ∧
        needsFull (shAB ruleInt) (sOps (.s 4) (.s 1) (.s 2)) = true ∧ e.missing ≠ 0#32)) (by decide +kernel)
    exact ⟨e, he, of_decide_eq_true h⟩
  · obtain ⟨e, he, h⟩ := env_of (sh := shBar false) (sForm := false) (o := num 1 blankOps) (s := deskWith gliding)
      (p := fun e => decide (early (shBar false) (num 1 blankOps) e = true ∧ e.missing = 0#32 ∧ e.q.glide.isSome = true ∧
        (shBar false).stalls = true)) (by decide +kernel)
    exact ⟨e, he, of_decide_eq_true h⟩
  · obtain ⟨e, he, h⟩ := env_of (sh := shAB ruleAdd) (sForm := false) (o := addOps) (s := deskWith fun q => { q with ops := [postedOp] })
      (p := fun e => decide (early (shAB ruleAdd) addOps e = true ∧ e.missing = 0#32 ∧ e.q.glide.isSome = false ∧
        (namesUsed (shAB ruleAdd) addOps).any e.q.awaits = true)) (by decide +kernel)
    exact ⟨e, he, of_decide_eq_true h⟩
  · obtain ⟨e, he, h⟩ := env_of (sh := shAB ruleInt) (sForm := false) (o := sOps (.s 1) (.s 3) (.s 2))
      (s := deskWith fun q => withS 1 8#64 { q with ops := [postedOp] })
      (p := fun e => decide (early (shAB ruleInt) (sOps (.s 1) (.s 3) (.s 2)) e = true ∧ e.missing = 0#32 ∧ e.q.glide.isSome = false ∧
        (namesUsed (shAB ruleInt) (sOps (.s 1) (.s 3) (.s 2))).any e.q.awaits = false ∧ hitsLanding e = true)) (by decide +kernel)
    exact ⟨e, he, of_decide_eq_true h⟩
  · obtain ⟨e, he, h⟩ := env_of (sh := shAB ruleAdd) (sForm := false) (o := addOps) (s := desk.modCluster 0 fun k => { k with budget := 0 })
      (p := fun e => decide (early (shAB ruleAdd) addOps e = true ∧ e.missing = 0#32 ∧ e.q.glide.isSome = false ∧ hitsLanding e = false ∧
        (vectorOpen e).1 = false)) (by decide +kernel)
    exact ⟨e, he, of_decide_eq_true h⟩

/-- For `checks_come_in_order`: an instruction whose names all stand in registers, its destination mapped. -/
theorem witness_checks_naming : ∃ e, issuingEnv (shAB ruleAdd) false (sOps (.v 1) (.v 2) (.v 3))
      (deskWith fun q => withV 1 (fun _ => 0#32) (withV 2 (fun _ => 0#32) (withV 3 (fun _ => 0#32) q))) = some e ∧
    e.s.squad? e.cx.key = some e.q ∧ e.q.glide = none ∧
    (∀ n ∈ renamedNames (e.needs.reads ++ e.needs.writes), e.q.files.stateOf n ≠ some true) ∧
    (∀ n ∈ renamedNames e.needs.writes, e.q.files.stateOf n = some false) ∧ renamedNames e.needs.writes = [.v 1] := by
  obtain ⟨e, he, hd⟩ := ex_some (x := issuingEnv (shAB ruleAdd) false (sOps (.v 1) (.v 2) (.v 3))
      (deskWith fun q => withV 1 (fun _ => 0#32) (withV 2 (fun _ => 0#32) (withV 3 (fun _ => 0#32) q))))
    (p := fun e => decide (e.s.squad? e.cx.key = some e.q ∧ e.q.glide = none ∧
      (∀ n ∈ renamedNames (e.needs.reads ++ e.needs.writes), e.q.files.stateOf n ≠ some true) ∧
      (∀ n ∈ renamedNames e.needs.writes, e.q.files.stateOf n = some false) ∧ renamedNames e.needs.writes = [.v 1])) (by decide +kernel)
  exact ⟨e, he, of_decide_eq_true hd⟩

/-- For `checks_come_in_order`: the S forms. -/
theorem witness_checks_short : ShortFormOf (.v 1) (.v 2) (.v 3) 9#8 9#16 (.addS (.v 1) (.v 2) (.v 3)) addOps (shAB ruleAdd) ∧
    ∃ e, issuingEnv (shAB ruleAdd) true addOps desk = some e := by
  obtain ⟨e, he, -⟩ := env_of (p := fun _ => true) (by decide +kernel : (issuingEnv (shAB ruleAdd) true addOps desk).map _ = some true)
  exact ⟨.inl ⟨⟨.addS (.v 1) (.v 2) (.v 3), addOps, shAB ruleAdd, fun _ _ a b _ _ => (a : Int) + b⟩, by simp [sRows, addOps], rfl, rfl, rfl⟩, e, he⟩

/-! ### Exceptions, exits -/

def isDone {α : Type} (x : SpillOut α) : Bool :=
  match x with
  | .done _ _ => true
  | _ => false

theorem done_of {α : Type} {x : SpillOut α} (h : isDone x = true) : ∃ v s, x = .done v s := by
  cases x with
  | done v s => exact ⟨v, s, rfl⟩
  | wait s => cases h
  | dead s => cases h

def someEvent : TrapEvent := { TrapEvent.base with cause := 0x10#16, lanes := 0xFFFFFFFF#32, pc := 0x10000#64, resume := 0x10000#64 }

/-- For `trap_frame`. -/
theorem witness_trap_frame : someEvent.lane < 256 ∧ ({ someEvent with level := 255, node := 255, slot := 255, lane := 255 } : TrapEvent).level < 256 ∧
    someEvent.node < 256 ∧ someEvent.slot < 256 := by decide

/-- A squad with an event that waits, its vectors, and its stack's page at hand. -/
def eventState (tvec stvec : Word64) : State :=
  ((stackState 0).modSquad 0 fun q => { q with tvec := tvec, events := [someEvent] }).modCtx 0 fun c => { c with stvec := stvec }

theorem takes_of {s : State} {key : Nat} (h : (s.squad? key = some (s.squadOr key) ∧ (s.squadOr key).residency = .resident ∧
    (s.squadOr key).ended = false ∧ (s.group? (s.squadOr key).groupKey).all (fun g => !g.halted) = true)) : Takes s key (s.squadOr key) := by
  refine ⟨h.1, h.2.1, h.2.2.1, fun g hg => ?_⟩
  have := h.2.2.2
  simpa [hg] using this

/-- For `an_event_enters`: both vectors zero, the TVEC handler, the STVEC handler. -/
theorem witness_an_event_enters :
    (Takes (eventState 0#64 0#64) 0 ((eventState 0#64 0#64).squadOr 0) ∧ ((eventState 0#64 0#64).squadOr 0).events = [someEvent] ∧
      ((eventState 0#64 0#64).squadOr 0).sBusy = none ∧ toSupervisor ((eventState 0#64 0#64).squadOr 0) someEvent = true ∧
      (eventState 0#64 0#64).stvecOf ((eventState 0#64 0#64).squadOr 0) = 0#64) ∧
    (∃ u, Takes (eventState 0x30000#64 0#64) 0 ((eventState 0x30000#64 0#64).squadOr 0) ∧
      ((eventState 0x30000#64 0#64).squadOr 0).events = [someEvent] ∧ ((eventState 0x30000#64 0#64).squadOr 0).tBusy = none ∧
      toSupervisor ((eventState 0x30000#64 0#64).squadOr 0) someEvent = false ∧
      spillWrite (eventState 0x30000#64 0#64) 0 ((eventState 0x30000#64 0#64).squadOr 0) 0
        (someEvent.frame (((eventState 0x30000#64 0#64).squadOr 0).levelOf someEvent.lanes) false) = .done () u) ∧
    ∃ u, Takes (eventState 0#64 0x30000#64) 0 ((eventState 0#64 0x30000#64).squadOr 0) ∧
      ((eventState 0#64 0x30000#64).squadOr 0).events = [someEvent] ∧ ((eventState 0#64 0x30000#64).squadOr 0).sBusy = none ∧
      toSupervisor ((eventState 0#64 0x30000#64).squadOr 0) someEvent = true ∧
      (eventState 0#64 0x30000#64).stvecOf ((eventState 0#64 0x30000#64).squadOr 0) ≠ 0#64 ∧
      spillWrite (eventState 0#64 0x30000#64) 0 ((eventState 0#64 0x30000#64).squadOr 0) 0x0F80
        (someEvent.frame (((eventState 0#64 0x30000#64).squadOr 0).levelOf someEvent.lanes) true) = .done () u := by
  refine ⟨⟨takes_of (by decide +kernel), by decide +kernel⟩, ?_, ?_⟩
  · obtain ⟨⟨⟩, u, hu⟩ := done_of (by decide +kernel : isDone (spillWrite (eventState 0x30000#64 0#64) 0 ((eventState 0x30000#64 0#64).squadOr 0) 0
        (someEvent.frame (((eventState 0x30000#64 0#64).squadOr 0).levelOf someEvent.lanes) false)) = true)
    exact ⟨u, takes_of (by decide +kernel), by decide +kernel, by decide +kernel, by decide +kernel, hu⟩
  · obtain ⟨⟨⟩, u, hu⟩ := done_of (by decide +kernel : isDone (spillWrite (eventState 0#64 0x30000#64) 0 ((eventState 0#64 0x30000#64).squadOr 0) 0x0F80
        (someEvent.frame (((eventState 0#64 0x30000#64).squadOr 0).levelOf someEvent.lanes) true)) = true)
    exact ⟨u, takes_of (by decide +kernel), by decide +kernel, by decide +kernel, by decide +kernel, by decide +kernel, hu⟩

def inHandler (h : Handler) (q : Squad) : Squad :=
  { q with lanes := q.lanes.map fun l => { l with handler := h, parked := true }, tBusy := some .user, sBusy := some .user, tvec := 0x30000#64 }

/-- Lanes of the STVEC handler held at a barrier that waits for the lanes of an event. -/
def stuckState : State :=
  (stackState 0).modSquad 0 fun q => { (q.onLanes 0xFFFF#32 fun l => { l with handler := .stvec, parked := true, hold := .barrier 3 }).modBar 3
      (fun b => { b with larr := 0xFFFF#32 }) with sBusy := some .user, events := [{ someEvent with lanes := 0xFFFF0000#32 }] }

/-- For `an_event_enters`: a squad whose handler cannot go on. -/
theorem witness_an_event_cannot_enter :
    let q := stuckState.squadOr 0
    Takes stuckState 0 q ∧ (∀ e ∈ q.events, e.halts = false ∧ (if toSupervisor q e then q.sBusy else q.tBusy).isSome = true) ∧
      ∃ e ∈ q.events, toSupervisor q e = true ∧ ∃ L n, (q.handlers .stvec).getLsbD L = true ∧ (q.lane L).hold = .barrier n ∧
        (q.bar n).pend = false ∧ (q.bar n).larr.getLsbD L = true ∧ e.lanes &&& q.live &&& ~~~(q.bar n).larr ≠ 0#32 :=
  ⟨takes_of (by decide +kernel), by decide +kernel, { someEvent with lanes := 0xFFFF0000#32 }, by decide +kernel, by decide +kernel, 0, 3, by decide +kernel⟩

/-- For `an_event_is_raised`: no live lane, lanes of the STVEC handler, a busy frame. -/
theorem witness_an_event_is_raised :
    (∃ q, desk.squad? 0 = some q ∧ ({ someEvent with lanes := 0#32 } : TrapEvent).lanes &&& q.live = 0#32) ∧
    (∃ q, (deskWith (inHandler .stvec)).squad? 0 = some q ∧
      someEvent.lanes &&& q.live &&& (q.handlers .stvec ||| q.handlers .stvecOverTvec) ≠ 0#32) ∧
    ∃ q q1, let s := deskWith fun q => { q with tvec := 0x30000#64, tBusy := some .user, events := [{ someEvent with lanes := 1#32 }] }
      s.squad? 0 = some q ∧ someEvent.lanes &&& q.live ≠ 0#32 ∧
      someEvent.lanes &&& q.live &&& (q.handlers .stvec ||| q.handlers .stvecOverTvec) = 0#32 ∧ (endRunOf s 0).squad? 0 = some q1 ∧
      q.events = [{ someEvent with lanes := 1#32 }] ∧ (∀ x ∈ q.events, x.halts = false ∧ (if toSupervisor q x then q.sBusy else q.tBusy).isSome = true) ∧
      someEvent.cause ≠ 0x0F#16 ∧ q.entered = [] ∧ q.handlers .stvec ||| q.handlers .stvecOverTvec = 0#32 ∧
      (if someEvent.toStvec || someEvent.lanes &&& q.live &&& q.handlers .tvec != 0#32 || q.tvec == 0#64 then q.sBusy else q.tBusy).isSome = true :=
  ⟨⟨desk.squadOr 0, by decide +kernel⟩, ⟨(deskWith (inHandler .stvec)).squadOr 0, by decide +kernel⟩,
    (deskWith fun q => { q with tvec := 0x30000#64, tBusy := some .user, events := [{ someEvent with lanes := 1#32 }] }).squadOr 0,
    (endRunOf (deskWith fun q => { q with tvec := 0x30000#64, tBusy := some .user, events := [{ someEvent with lanes := 1#32 }] }) 0).squadOr 0,
    by decide +kernel⟩

def shEret : Shape := { shNone with uniGuard := true, stalls := true }
/-- The stack's page at hand, the squad in a handler, the first lanes of it in the bundle. -/
def handlerState (h : Handler) (lanes : LaneMask) : State :=
  { (stackState 0).modSquad 0 (inHandler h) with issuing := some { squad := 0, lanes := lanes, pc := 0x10000#64, words := [] } }

/-- For `return_from_a_handler`: no handler, part of one, whole ones. -/
theorem witness_return_from_a_handler :
    (∃ e, Issues shEret false noExtra blankOps desk e ∧ e.active ≠ 0#32 ∧ (e.q.lane (lowLane e.cx.lanes)).handler = .none) ∧
    (∃ e, Issues shEret false noExtra blankOps (handlerState .tvec 1#32) e ∧ e.active ≠ 0#32 ∧
      (e.q.lane (lowLane e.cx.lanes)).handler ≠ .none ∧ requiredLanes e.q e.cx.lanes &&& ~~~e.cx.lanes ≠ 0#32) ∧
    ∀ h, h = .tvec ∨ h = .stvec ∨ h = .stvecOverTvec → ∃ e bs s1, Issues shEret false noExtra blankOps (handlerState h 0xFFFFFFFF#32) e ∧
      e.active ≠ 0#32 ∧ (e.q.lane (lowLane e.cx.lanes)).handler = h ∧ requiredLanes e.q e.cx.lanes &&& ~~~e.cx.lanes = 0#32 ∧ e.q.events = [] ∧
      spillRead e.s e.cx.key e.q (if inStvec h then 0x0F80 + 28 else 28) 8 = .done bs s1 := by
  have go (h : Handler) (hp : passes shEret false noExtra blankOps (handlerState h 0xFFFFFFFF#32) (fun e => decide (e.active ≠ 0#32 ∧
        (e.q.lane (lowLane e.cx.lanes)).handler = h ∧ requiredLanes e.q e.cx.lanes &&& ~~~e.cx.lanes = 0#32 ∧ e.q.events = [] ∧
        isDone (spillRead e.s e.cx.key e.q (if inStvec h then 0x0F80 + 28 else 28) 8) = true)) = true) :
      ∃ e bs s1, Issues shEret false noExtra blankOps (handlerState h 0xFFFFFFFF#32) e ∧ e.active ≠ 0#32 ∧
        (e.q.lane (lowLane e.cx.lanes)).handler = h ∧ requiredLanes e.q e.cx.lanes &&& ~~~e.cx.lanes = 0#32 ∧ e.q.events = [] ∧
        spillRead e.s e.cx.key e.q (if inStvec h then 0x0F80 + 28 else 28) 8 = .done bs s1 := by
    obtain ⟨e, he, hd⟩ := issues_of_passes hp
    have hd := of_decide_eq_true hd
    obtain ⟨bs, s1, hr⟩ := done_of hd.2.2.2.2
    exact ⟨e, bs, s1, he, hd.1, hd.2.1, hd.2.2.1, hd.2.2.2.1, hr⟩
  refine ⟨?_, ?_, ?_⟩
  · obtain ⟨e, he, hd⟩ := issues_of_passes (by decide +kernel : passes shEret false noExtra blankOps desk (fun e =>
      decide (e.active ≠ 0#32 ∧ (e.q.lane (lowLane e.cx.lanes)).handler = .none)) = true)
    exact ⟨e, he, of_decide_eq_true hd⟩
  · obtain ⟨e, he, hd⟩ := issues_of_passes (by decide +kernel : passes shEret false noExtra blankOps (handlerState .tvec 1#32) (fun e =>
      decide (e.active ≠ 0#32 ∧ (e.q.lane (lowLane e.cx.lanes)).handler ≠ .none ∧ requiredLanes e.q e.cx.lanes &&& ~~~e.cx.lanes ≠ 0#32)) =
        true)
    exact ⟨e, he, of_decide_eq_true hd⟩
  · rintro h (rfl | rfl | rfl)
    · exact go _ (by decide +kernel)
    · exact go _ (by decide +kernel)
    · exact go _ (by decide +kernel)

def shExit : Shape := { shNone with stalls := true }

theorem quietLeave_of {e : Env} (h : ((e.q.bars.all fun b => b.larr == 0#32) && (e.q.lanes.all fun l => l.handler == .none) && e.q.events == [] &&
    (e.s.squads.all fun c => c.2.lanes.all fun l => l.hold != .spanBarrier && l.heldAt != .spanBarrier) && (e.s.grid? e.q.grid).all (·.triggered)) = true) :
    QuietLeave e := by
  simp only [Bool.and_eq_true, List.all_eq_true, beq_iff_eq, bne_iff_ne] at h
  obtain ⟨⟨⟨⟨h1, h2⟩, h3⟩, h4⟩, h5⟩ := h
  refine ⟨fun n => ?_, fun L => ?_, h3, h4, fun g hg => by simpa [hg] using h5⟩
  · rcases Nat.lt_or_ge n e.q.bars.length with hn | hn
    · simpa [Squad.bar, hn] using h1 _ (List.getElem_mem hn)
    · simp [Squad.bar, List.getElem?_eq_none hn, squadBarNone]
  · rcases Nat.lt_or_ge L e.q.lanes.length with hn | hn
    · simpa [Squad.lane, hn] using h2 _ (List.getElem_mem hn)
    · simp [Squad.lane, List.getElem?_eq_none hn, Lane.blank]

/-- The grid's trigger is over. -/
def leaveState (lanes : LaneMask) (f : Squad → Squad) : State :=
  { deskWith f with
    grids := mapSet desk.grids 0 { probeGrid with triggered := true },
    issuing := some { squad := 0, lanes := lanes, pc := 0x10000#64, words := [] } }

/-- For `lanes_exit`: the last lanes with an operation outstanding and with none; lanes before the last. -/
theorem witness_lanes_exit :
    (∃ e, Issues shExit false noExtra blankOps (leaveState 0xFFFFFFFF#32 fun q => { q with ops := [OutOp.new 9 0] }) e ∧ e.acting ≠ 0#32 ∧
      (∀ L, e.cx.lanes.getLsbD L = true → (e.q.lane L).kind = .live ∨ (e.q.lane L).kind = .helper) ∧
      e.q.live &&& ~~~e.acting = 0#32 ∧ ∃ x ∈ e.q.ops, x.done = false ∨ x.counted = false) ∧
    (∃ e, Issues shExit false noExtra blankOps (leaveState 0xFFFFFFFF#32 id) e ∧ e.acting ≠ 0#32 ∧
      (∀ L, e.cx.lanes.getLsbD L = true → (e.q.lane L).kind = .live ∨ (e.q.lane L).kind = .helper) ∧
      QuietLeave e.opened ∧ e.q.live &&& ~~~e.acting = 0#32 ∧ e.q.ops = []) ∧
    ∃ e, Issues shExit false noExtra blankOps (leaveState 0x0000FFFF#32 id) e ∧ e.acting ≠ 0#32 ∧
      (∀ L, e.cx.lanes.getLsbD L = true → (e.q.lane L).kind = .live ∨ (e.q.lane L).kind = .helper) ∧
      QuietLeave e.opened ∧ e.q.live &&& ~~~e.acting ≠ 0#32 := by
  have kinds {e : Env} (h : ((List.range 32).all fun L => (e.q.lane L).kind == .live) = true) (L : Nat) (hL : e.cx.lanes.getLsbD L = true) :
      (e.q.lane L).kind = .live ∨ (e.q.lane L).kind = .helper := by
    have hlt : L < 32 := by
      apply Classical.byContradiction
      intro hn
      rw [BitVec.getLsbD_of_ge _ _ (by omega)] at hL
      cases hL
    simp only [List.all_eq_true, List.mem_range, beq_iff_eq] at h
    exact .inl (h L hlt)
  refine ⟨?_, ?_, ?_⟩
  · obtain ⟨e, he, hd⟩ := issues_of_passes (by decide +kernel : passes shExit false noExtra blankOps
        (leaveState 0xFFFFFFFF#32 fun q => { q with ops := [OutOp.new 9 0] }) (fun e => decide (e.acting ≠ 0#32 ∧
          ((List.range 32).all fun L => (e.q.lane L).kind == .live) = true ∧ e.q.live &&& ~~~e.acting = 0#32 ∧
          ∃ x ∈ e.q.ops, x.done = false ∨ x.counted = false)) = true)
    have hd := of_decide_eq_true hd
    exact ⟨e, he, hd.1, kinds hd.2.1, hd.2.2⟩
  · obtain ⟨e, he, hd⟩ := issues_of_passes (by decide +kernel : passes shExit false noExtra blankOps (leaveState 0xFFFFFFFF#32 id) (fun e =>
        decide (e.acting ≠ 0#32 ∧ ((List.range 32).all fun L => (e.q.lane L).kind == .live) = true ∧
          ((e.opened.q.bars.all fun b => b.larr == 0#32) && (e.opened.q.lanes.all fun l => l.handler == .none) && e.opened.q.events == [] &&
            (e.opened.s.squads.all fun c => c.2.lanes.all fun l => l.hold != .spanBarrier && l.heldAt != .spanBarrier) && (e.opened.s.grid? e.opened.q.grid).all (·.triggered)) =
              true ∧ e.q.live &&& ~~~e.acting = 0#32 ∧ e.q.ops = [])) = true)
    have hd := of_decide_eq_true hd
    exact ⟨e, he, hd.1, kinds hd.2.1, quietLeave_of hd.2.2.1, hd.2.2.2⟩
  · obtain ⟨e, he, hd⟩ := issues_of_passes (by decide +kernel : passes shExit false noExtra blankOps (leaveState 0x0000FFFF#32 id) (fun e =>
        decide (e.acting ≠ 0#32 ∧ ((List.range 32).all fun L => (e.q.lane L).kind == .live) = true ∧
          ((e.opened.q.bars.all fun b => b.larr == 0#32) && (e.opened.q.lanes.all fun l => l.handler == .none) && e.opened.q.events == [] &&
            (e.opened.s.squads.all fun c => c.2.lanes.all fun l => l.hold != .spanBarrier && l.heldAt != .spanBarrier) && (e.opened.s.grid? e.opened.q.grid).all (·.triggered)) =
              true ∧ e.q.live &&& ~~~e.acting ≠ 0#32)) = true)
    have hd := of_decide_eq_true hd
    exact ⟨e, he, hd.1, kinds hd.2.1, quietLeave_of hd.2.2.1, hd.2.2.2⟩

/-! ### Phases, glides, memory, scheduling, pre-emption -/

/-- For `a_phase_completes`: the last barrier of a group of one squad. -/
theorem witness_a_phase_completes : ∃ g, desk.group? 0 = some g ∧ 15 < g.barriers.length ∧ (g.bar 15).arrived + 1 = (g.bar 15).count ∧
    NoGlides desk ∧ ∀ x ∈ desk.squads, ∀ o ∈ x.2.ops, o.race = none := by
  obtain ⟨g, hg, hd⟩ := ex_some (x := desk.group? 0) (p := fun g => decide (15 < g.barriers.length ∧ (g.bar 15).arrived + 1 = (g.bar 15).count))
    (by decide +kernel)
  have h : (desk.squads.all fun c => c.2.glide.isNone && c.2.ops.isEmpty) = true := by decide +kernel
  simp only [List.all_eq_true, Bool.and_eq_true, Option.isNone_iff_eq_none, List.isEmpty_iff] at h
  exact ⟨g, hg, (of_decide_eq_true hd).1, (of_decide_eq_true hd).2, fun c hc => (h c hc).1, fun c hc o ho => by simp [(h c hc).2] at ho⟩

/-- For `glides_leave_no_trace`: a glide past the last barrier; a buffered store at the window's last bytes. -/
theorem witness_glides_leave_no_trace :
    Ready (glideRow (num 15 blankOps)) (num 15 blankOps) (desk.modGroup 0 fun g => g.modBar 15 fun b => { b with count := 2 }) ∧
    ∃ q gl, (deskWith gliding).squad? 0 = some q ∧ q.glide = some gl ∧ (q.lane 31).kind ≠ .helper ∧
      checkAddr (winSize (deskWith gliding) q .shared) 16380 4 4 = none ∧ checkAddr (winSize (deskWith gliding) q .shared) 16376 4 4 = none := by
  refine ⟨ready_by (fun e => decide (e.acting ≠ 0#32 ∧ 15 < e.bars.length ∧ e.acting &&& (e.q.bar 15).larr = 0#32 ∧
    (e.q.bar 15).pend = false ∧ e.q.glideEn = true ∧ e.q.live &&& ~~~e.cx.lanes = 0#32 ∧
    e.q.live &&& ~~~((e.q.bar 15).larr ||| e.acting) = 0#32 ∧ 15 < e.q.bars.length ∧
    (e.bars.getD 15 barNone).arrived + 1 ≠ (e.bars.getD 15 barNone).count)) (fun e h => ?_) (by decide +kernel), ?_⟩
  · obtain ⟨h1, h2, h3, h4, h5, h6, h7, h8, h9⟩ := of_decide_eq_true h
    exact ⟨⟨h1, h2, h3, h4⟩, h5, h6, h7, h8, h9⟩
  · obtain ⟨q, hq, hd⟩ := ex_some (x := (deskWith gliding).squad? 0) (p := fun q => q.glide.isSome && decide ((q.lane 31).kind ≠ .helper ∧
      checkAddr (winSize (deskWith gliding) q .shared) 16380 4 4 = none ∧ checkAddr (winSize (deskWith gliding) q .shared) 16376 4 4 = none))
      (by decide +kernel)
    simp only [Bool.and_eq_true, decide_eq_true_eq, Option.isSome_iff_exists] at hd
    obtain ⟨⟨gl, hg⟩, hd⟩ := hd
    exact ⟨q, gl, hq, hg, hd⟩

/-- A glide that read word 0, which another squad of its group has written since. -/
def lateWriter : Access := { group := 0, squad := 1, epoch := 3, groupEpoch := 1, cls := .plain, kind := 0, op := none }
def racingState : State :=
  (deskWith fun q => { gliding q with glide := (gliding q).glide.map fun g => { g with liveReads := [0] } }).modGroup 0 fun g =>
    { g with tags := [(0, { writer := some lateWriter, readers := [], pubs := [] })] }

/-- For `glides_leave_no_trace`: a glide that read and wrote nothing commits; one that read what another wrote does not. -/
theorem witness_glides_commit :
    (∃ q gl, (deskWith gliding).squad? 0 = some q ∧ q.glide = some gl ∧ (∀ x ∈ (deskWith gliding).squads, x.1 ≠ 0 → x.2.glide = none) ∧
      GlideClean (deskWith gliding) 0 q Clock.zero [] gl ∧ mapSorted gl.buffer = true ∧
      ∃ g, (deskWith gliding).group? q.groupKey = some g ∧ Memory.wf g.shared = true) ∧
    ∃ q gl, racingState.squad? 0 = some q ∧ q.glide = some gl ∧ (∀ x ∈ racingState.squads, x.1 ≠ 0 → x.2.glide = none) ∧
      ¬GlideClean racingState 0 q Clock.zero [] gl := by
  constructor
  · obtain ⟨q, hq, hd⟩ := ex_some (x := (deskWith gliding).squad? 0) (p := fun q => q.glide.any (fun gl => gl.liveReads.isEmpty && gl.writers.isEmpty &&
      mapSorted gl.buffer) && ((deskWith gliding).group? q.groupKey).any fun g => @decide (Memory.wf g.shared = true) inferInstance) (by decide +kernel)
    rw [Bool.and_eq_true] at hd
    obtain ⟨gl, hg, hd1⟩ := ex_some hd.1
    obtain ⟨g, hgr, hw⟩ := ex_some hd.2
    simp only [Bool.and_eq_true, List.isEmpty_iff] at hd1
    exact ⟨q, gl, hq, hg, by decide +kernel, ⟨by simp [hd1.1.1], by simp [hd1.1.1], by simp [hd1.1.2]⟩, hd1.2, g, hgr, of_decide_eq_true hw⟩
  · obtain ⟨q, hq, hd⟩ := ex_some (x := racingState.squad? 0) (p := fun q => q.glide.any fun gl => gl.liveReads.contains 0 &&
      (checkTag (winTag racingState q .shared 0) (squadAgent (acquire racingState 0 Clock.zero) 0 { q with clock := q.clock.join Clock.zero } .plain)
        false).isSome) (by decide +kernel)
    obtain ⟨gl, hg, hd⟩ := ex_some hd
    rw [Bool.and_eq_true] at hd
    refine ⟨q, gl, hq, hg, by decide +kernel, fun h => ?_⟩
    have := h.reads 0 (by simpa using hd.1)
    rw [this] at hd
    simp at hd

/-- For `keyed_memory`: the last byte of the device, of a unit that no key wrote. -/
theorem witness_keyed_memory : 2 ^ 51 - 1 < 2 ^ 51 ∧ desk.unitKey ((2 ^ 51 - 1) / 32) = none := by decide +kernel

theorem only_of {α : Type} {l : List α} (h : l.length = 1) : ∃ c ∈ l, ∀ d ∈ l, d = c := by
  match l, h with
  | [c], _ => exact ⟨c, List.mem_singleton.mpr rfl, fun d hd => List.mem_singleton.mp hd⟩

/-- For `bundles_and_breakpoints`: no bundle that could issue, and one. -/
theorem witness_candidates :
    (State.reset.agenda = [] ∧ candidates exec { State.reset with free := 1, issuing := none } = []) ∧
    ∃ c ∈ candidates exec { codeState with agenda := [], free := codeState.free + 1, issuing := none },
      ∀ d ∈ candidates exec { codeState with agenda := [], free := codeState.free + 1, issuing := none }, d = c ∨ preferred c d := by
  refine ⟨by decide +kernel, ?_⟩
  have h : (candidates exec { codeState with agenda := [], free := codeState.free + 1, issuing := none }).length = 1 := by decide +kernel
  obtain ⟨c, hc, hd⟩ := only_of h
  exact ⟨c, hc, fun d h => .inl (hd d h)⟩

/-- A breakpoint at the squad's program counter; a lane under `yield`. -/
def breakState (f : Squad → Squad) : State := (codeState.modSquad 0 f).modCtx 0 fun c => { c with breaks := [(3, 0x10000#64)] }

/-- For `bundles_and_breakpoints`: a regroup tick, a yield's end, breakpoints. -/
theorem witness_regroup_yield_break :
    (desk.cycle % 4 = 0 ∧ ∃ q, desk.squad? 0 = some q ∧ desk.coreOf q = 0 ∧ q.residency = .resident ∧ q.ended = false) ∧
    (∃ q, (deskWith fun q => q.onLanes 0x80000000#32 fun l => { l with yieldUntil := some 0 }).squad? 0 = some q ∧ 31 < q.lanes.length ∧
      (q.lane 31).yieldUntil = some 0 ∧ 0 ≤ desk.cycle) ∧
    (∃ q, canIssue (breakState id) 0 0xFFFFFFFF#32 = true ∧ (breakState id).squad? 0 = some q ∧
      breakAt (breakState id) ((breakState id).ctxOf q) (q.lane (lowLane 0xFFFFFFFF#32)).pc = some 3 ∧ q.glide = none) ∧
    ∃ q, canIssue (breakState gliding) 0 0xFFFFFFFF#32 = true ∧ (breakState gliding).squad? 0 = some q ∧
      breakAt (breakState gliding) ((breakState gliding).ctxOf q) (q.lane (lowLane 0xFFFFFFFF#32)).pc = some 3 ∧ q.glide ≠ none :=
  ⟨⟨by decide +kernel, desk.squadOr 0, by decide +kernel⟩,
    ⟨(deskWith fun q => q.onLanes 0x80000000#32 fun l => { l with yieldUntil := some 0 }).squadOr 0, by decide +kernel⟩,
    ⟨(breakState id).squadOr 0, by decide +kernel⟩, (breakState gliding).squadOr 0, by decide +kernel⟩

/-- Grids 5 and 6 wait in queues 3 and 9 of context 0; grid 5 depends on the word at virtual address 0x20000, which a far context's
translation reaches. -/
def queueState (word : List Byte) (assist : Bool) : State :=
  let g : Grid := { probeGrid with status := .queued, queue := 3, desc := { probeDesc with dep0 := 0x20000#64, val0 := 1#64 }, next := 0 }
  let k (prio id : Nat) : GridQueue := { en := true, prio := prio, admitted := 0, waiting := [id] }
  { desk.modCtx 0 (fun c => { c with queues := [(3, k 7 5), (9, k 0 6)] }) with
    grids := [(5, g), (6, { g with queue := 9, desc := probeDesc })], mem := memWriteN desk.mem 0x190000 word,
    unitKeys := [(0x190000 / 32, 1)],
    tlb := [(stackLeaf 0).cached (farReach 0 0 0).cache 0 0x20000],
    firmware := { desk.firmware with assisted := [false, false, assist, false, false] } }

/-- How the dependences of a head's grid stand. -/
def depIs (s : State) (h : Head) (d : Dep) : Bool :=
  match s.grid? h.grid with
  | some g => (readDeps s h.grid g).1 == d && (readDeps s h.grid g).2.firmware == s.firmware && g.status == .queued &&
    match (readDeps s h.grid g).2.ctx? g.ctx, (readDeps s h.grid g).2.grid? h.grid with
    | some c, some g1 => (mapGet c.queues g.queue).isSome && g1.ctx == g.ctx && g1.queue == g.queue
    | _, _ => false
  | none => false

theorem depIs_of {s : State} {h : Head} {d : Dep} (hs : depIs s h d = true) : ∃ g s1 c k g1, s.grid? h.grid = some g ∧
    readDeps s h.grid g = (d, s1) ∧ s1.firmware = s.firmware ∧ g.status = .queued ∧ s1.ctx? g.ctx = some c ∧ mapGet c.queues g.queue = some k ∧
    s1.grid? h.grid = some g1 ∧ g1.ctx = g.ctx ∧ g1.queue = g.queue := by
  unfold depIs at hs
  split at hs
  next g hg =>
    rw [Bool.and_eq_true, Bool.and_eq_true, Bool.and_eq_true] at hs
    obtain ⟨⟨⟨h2, h3⟩, h7⟩, h4⟩ := hs
    split at h4
    next c g1 hc hg1 =>
      simp only [Bool.and_eq_true, beq_iff_eq, Option.isSome_iff_exists] at h4
      obtain ⟨⟨⟨k, hk⟩, h5⟩, h6⟩ := h4
      exact ⟨g, (readDeps s h.grid g).2, c, k, g1, hg, Prod.ext (eq_of_beq h2) rfl, eq_of_beq h3, eq_of_beq h7, hc, hk, hg1, h5, h6⟩
    next => cases h4
  next => cases hs

def first : Head := { prio := 7, grid := 5 }
def second : Head := { prio := 0, grid := 6 }
/-- Grid 5's dependence word holds 0. -/
def unmetState : State := queueState [] false

/-- For `grid_admission`: a dependence met at its value, without and with the host's help; one that was cancelled; a second head behind one
whose dependence is not satisfied. -/
theorem witness_grid_admission :
    (∀ s ∈ [queueState [1#8] false, queueState [1#8] true], s.heads = [] ++ first :: [second] ∧
      ∃ g s1 c k g1, s.grid? first.grid = some g ∧ readDeps s first.grid g = (.met, s1) ∧ s1.firmware = s.firmware ∧ g.status = .queued ∧
        s1.ctx? g.ctx = some c ∧ mapGet c.queues g.queue = some k ∧ s1.grid? first.grid = some g1 ∧ g1.ctx = g.ctx ∧ g1.queue = g.queue) ∧
    (queueState [1#8] false).firmware.assisted.getD 2 false = false ∧ (queueState [1#8] true).firmware.assisted.getD 2 false = true ∧
    (let s := queueState [0#8, 0#8, 0#8, 0#8, 0#8, 0#8, 0#8, 0x80#8] false
     s.heads = [] ++ first :: [second] ∧ ∃ g s1 c k g1, s.grid? first.grid = some g ∧ readDeps s first.grid g = (.cancelled, s1) ∧
       s1.firmware = s.firmware ∧ g.status = .queued ∧ s1.ctx? g.ctx = some c ∧ mapGet c.queues g.queue = some k ∧
       s1.grid? first.grid = some g1 ∧ g1.ctx = g.ctx ∧ g1.queue = g.queue) ∧
    unmetState.heads = [first] ++ second :: [] ∧ ∃ s0, PassedOver unmetState [first] s0 ∧
      ∃ g s1 c k g1, s0.grid? second.grid = some g ∧ readDeps s0 second.grid g = (.met, s1) ∧ s1.firmware = s0.firmware ∧ g.status = .queued ∧
        s1.ctx? g.ctx = some c ∧ mapGet c.queues g.queue = some k ∧ s1.grid? second.grid = some g1 ∧ g1.ctx = g.ctx ∧ g1.queue = g.queue := by
  refine ⟨?_, by decide +kernel, by decide +kernel, ⟨by decide +kernel, depIs_of (by decide +kernel)⟩, by decide +kernel, ?_⟩
  · intro s hs
    simp only [List.mem_cons, List.not_mem_nil, or_false] at hs
    rcases hs with rfl | rfl
    · exact ⟨by decide +kernel, depIs_of (by decide +kernel)⟩
    · exact ⟨by decide +kernel, depIs_of (by decide +kernel)⟩
  · obtain ⟨g, s1, -, -, -, hg, hr, -⟩ := depIs_of (s := unmetState) (h := first) (d := .unmet) (by decide +kernel)
    have hs : s1 = (readDeps unmetState first.grid ((unmetState.grid? first.grid).getD probeGrid)).2 := by rw [hg]; simp [hr]
    refine ⟨s1, .one _ _ _ _ _ g hg hr (.none _), ?_⟩
    rw [hs]
    exact depIs_of (by decide +kernel)

/-- A context with an admitted grid of three groups, its last one next, of a squad of 32 lanes and one of a single lane. -/
def placeDesc : LaunchDesc := { probeDesc with ngx := 3, nsq := 2, lanes := 33, spanSync := false, spanSz := 2 }
def placeState : State :=
  { State.reset with
    ctxs := [(0, newContext .user 0x100000#64 0#64)],
    grids := [(5, { probeGrid with desc := placeDesc, next := 2, args := [1#8, 2#8, 3#8, 4#8, 5#8, 6#8, 7#8, 8#8] })] }

/-- For `group_placement`. -/
theorem witness_group_placement : ∃ g s1, MayPlace placeState 5 64 1 g s1 := by
  obtain ⟨s1, hs, -⟩ := ex_some (x := openSpan placeState 5 (2 / placeDesc.perSpan) 1 placeDesc) (p := fun _ => true) (by decide +kernel)
  exact ⟨{ probeGrid with desc := placeDesc, next := 2, args := [1#8, 2#8, 3#8, 4#8, 5#8, 6#8, 7#8, 8#8] }, s1, by decide +kernel,
    by decide +kernel, ⟨newContext .user 0x100000#64 0#64, by decide +kernel⟩, by decide +kernel, by decide +kernel, by decide +kernel, hs,
    by decide +kernel⟩

/-- A grid whose only group has ended. -/
def overState (triggered : Bool) : State :=
  { (desk.modGroup 0 fun g => { g with status := .ended }).modSquad 0 (fun q => { q with ended := true, trig := true }) with
    grids := [(0, { probeGrid with triggered := triggered })] }

/-- The same with a trigger word at 0x20000, its page at hand; and cancelled. -/
def triggerState (status : GridStatus) : State :=
  { overState false with
    grids := [(0, { probeGrid with desc := { probeDesc with trig := 0x20000#64 }, status := status })],
    tlb := [(stackLeaf 0).cached (gridReach 0 0 0 0).cache 0 0x20000] }

/-- For `grid_completion`: before its trigger and after; a trigger word that is written, of a grid that is over and of one that is cancelled. -/
theorem witness_grid_completion :
    (∃ g, (overState false).grid? 0 = some g ∧ gridOver (overState false) 0 g = true ∧ gridPending (overState false) 0 = false ∧
      g.triggered = false ∧ g.desc.trig = 0#64 ∧ gridTriggers (overState false) 0 = true) ∧
    (∃ g, (overState true).grid? 0 = some g ∧ gridOver (overState true) 0 g = true ∧ gridPending (overState true) 0 = false ∧
      g.triggered = true) ∧
    ∀ status, status = .admitted ∨ status = .cancelled → ∃ g s1, let s := triggerState status
      s.grid? 0 = some g ∧ g.status = status ∧ g.triggered = false ∧ g.desc.trig ≠ 0#64 ∧
        (status = .admitted → gridOver s 0 g = true ∧ gridPending s 0 = false ∧ gridTriggers s 0 = true) ∧
        plainWrite s (gridReach g.chain g.ctx 0 0) (g.chain / 64) g.desc.trig
          (leBytes 8 (if status = .admitted then g.seq else g.seq ||| 0x8000000000000000#64).toNat) = .done () s1 ∧ s1.grids = s.grids := by
  refine ⟨⟨{ probeGrid with triggered := false }, by decide +kernel⟩, ⟨{ probeGrid with triggered := true }, by decide +kernel⟩, ?_⟩
  have go (x : MemOut Unit) (gs : Map Grid) (h : (match x with
      | .done _ s1 => decide (s1.grids = gs)
      | _ => false) = true) : ∃ s1, x = .done () s1 ∧ s1.grids = gs := by
    cases x with
    | done v s => exact ⟨s, rfl, of_decide_eq_true h⟩
    | wait s => cases h
    | fail c a s => cases h
  rintro status (rfl | rfl)
  · obtain ⟨s1, h⟩ := go (plainWrite (triggerState .admitted) (gridReach 0 0 0 0) 0 0x20000#64 (leBytes 8 (0#64).toNat)) (triggerState .admitted).grids
      (by decide +kernel)
    exact ⟨{ probeGrid with desc := { probeDesc with trig := 0x20000#64 }, status := .admitted }, s1, by decide +kernel, rfl, by decide +kernel,
      by decide +kernel, by decide +kernel, h⟩
  · obtain ⟨s1, h⟩ := go (plainWrite (triggerState .cancelled) (gridReach 0 0 0 0) 0 0x20000#64 (leBytes 8 (0#64 ||| 0x8000000000000000#64).toNat))
      (triggerState .cancelled).grids (by decide +kernel)
    exact ⟨{ probeGrid with desc := { probeDesc with trig := 0x20000#64 }, status := .cancelled }, s1, by decide +kernel, rfl, by decide +kernel,
      by decide +kernel, by decide +kernel, h⟩

def someCommand : Command := { fn := { port := .h0, vf := none }, tag := 7#16 }

/-- A squad with a register mapped in each file, its stack's page at hand, in a context that is to be paused. -/
def evictState (f : Squad → Squad) (halted : Bool) : State :=
  (((stackState 0).modSquad 0 fun q => f (withS 63 5#64 (withA 15 9#64 4#32 { q with files := { v := [(127, { lanes := List.replicate 32 7#32, spilled := false })], s := [], a := [] } }))).modCtx 0
    fun c => { c with pausing := some someCommand }).modGroup 0 fun g => { g with halted := halted }

theorem mem_of_mapGet {V : Type} {m : Map V} {a : Nat} {v : V} (h : mapGet m a = some v) : (a, v) ∈ m := by
  induction m with
  | nil => cases h
  | cons c m ih =>
    obtain ⟨k, w⟩ := c
    rw [mapGet_cons] at h
    split at h
    next hk => cases h; subst hk; exact List.mem_cons_self
    next => exact List.mem_cons_of_mem _ (ih h)

theorem maySave_of {s : State} (h : s.squad? 0 = some (s.squadOr 0) ∧ (s.squadOr 0).residency = .resident ∧ (s.squadOr 0).ended = false ∧
    (s.squadOr 0).glide = none ∧ s.cores.all (fun c => c.2.runs.isEmpty) = true ∧
    isDone (writeSlots s 0 (s.squadOr 0) (s.squadOr 0).files.toSlots) = true) : ∃ s1, MaySave s 0 (s.squadOr 0) s1 := by
  obtain ⟨h1, h2, h3, h4, h5, h6⟩ := h
  obtain ⟨⟨⟩, s1, h6⟩ := done_of h6
  refine ⟨s1, h1, ⟨h2, h3⟩, h4, fun c n r hr => ?_, h6⟩
  have hn : (s.core c).runs = [] := by
    simp only [State.core]
    cases hm : mapGet s.cores c with
    | none => rfl
    | some k =>
      have := mem_of_mapGet hm
      simp only [List.all_eq_true, List.isEmpty_iff] at h5
      exact h5 _ this
  rw [hn] at hr
  cases hr

/-- For `squad_eviction`: a sound file; reconverged, of a halted group, not reconverged, 36,000 cycles after the request. -/
theorem witness_squad_eviction :
    Files.Sound { v := [(127, { lanes := List.replicate 32 7#32, spilled := false })], s := [(63, { val := 5#64, spilled := false })],
                  a := [(15, { base := 9#64, stride := 4#32, spilled := false })] } ∧
    (∃ s1, MaySave (evictState id false) 0 ((evictState id false).squadOr 0) s1 ∧
      squadWanted (evictState id false) ((evictState id false).squadOr 0) = true ∧ ((evictState id false).squadOr 0).reconverged = true ∧
      ((evictState id false).group? ((evictState id false).squadOr 0).groupKey).all (fun g => !g.halted) = true) ∧
    (∃ s1, MaySave (evictState id true) 0 ((evictState id true).squadOr 0) s1 ∧
      squadWanted (evictState id true) ((evictState id true).squadOr 0) = true ∧
      ((evictState id true).group? ((evictState id true).squadOr 0).groupKey).any (·.halted) = true) ∧
    (∃ s1, let s := evictState (fun q => { q with tBusy := some .user }) false
      MaySave s 0 (s.squadOr 0) s1 ∧ squadWanted s (s.squadOr 0) = true ∧ (s.squadOr 0).reconverged = false ∧ (s.squadOr 0).evictSince = none) ∧
    ∃ s1, let s := { evictState (fun q => { q with evictSince := some 0 }) false with cycle := 36000 }
      MaySave s 0 (s.squadOr 0) s1 ∧ squadWanted s (s.squadOr 0) = true ∧ (s.squadOr 0).evictSince = some 0 ∧ 0 + 36000 ≤ s.cycle := by
  refine ⟨⟨by decide, by decide, by decide⟩, ?_, ?_, ?_, ?_⟩
  · obtain ⟨s1, h⟩ := maySave_of (s := evictState id false) (by decide +kernel)
    exact ⟨s1, h, by decide +kernel⟩
  · obtain ⟨s1, h⟩ := maySave_of (s := evictState id true) (by decide +kernel)
    exact ⟨s1, h, by decide +kernel⟩
  · obtain ⟨s1, h⟩ := maySave_of (s := evictState (fun q => { q with tBusy := some .user }) false) (by decide +kernel)
    exact ⟨s1, h, by decide +kernel⟩
  · obtain ⟨s1, h⟩ := maySave_of (s := { evictState (fun q => { q with evictSince := some 0 }) false with cycle := 36000 }) (by decide +kernel)
    exact ⟨s1, h, by decide +kernel⟩

/-- The squad is away, and its context is to be paused. -/
def awayState : State := (deskWith (away false)).modCtx 0 fun c => { c with pausing := some someCommand }

/-- For `group_eviction`: a group with tiles and a clause array. -/
theorem witness_group_eviction : ∃ x, awayState.group? 0 = some x ∧ x.status = .placed ∧ groupWanted awayState x = true ∧
    squadsAway awayState 0 = true ∧ groupWork awayState 0 false = false ∧ (∀ r ∈ (awayState.core x.core).rs, groupOfSquad r.squad ≠ 0) ∧
    x.pair = false ∧ x.matrix = true ∧ x.clause = true := by
  obtain ⟨x, hx, hd⟩ := ex_some (x := awayState.group? 0) (p := fun x => decide (x.status = .placed ∧ groupWanted awayState x = true ∧
    squadsAway awayState 0 = true ∧ groupWork awayState 0 false = false ∧ (awayState.core x.core).rs = [] ∧ x.pair = false ∧
    x.matrix = true ∧ x.clause = true)) (by decide +kernel)
  obtain ⟨h1, h2, h3, h4, h5, h6⟩ := of_decide_eq_true hd
  exact ⟨x, hx, h1, h2, h3, h4, by simp [h5], h6⟩

/-- The group is in a status, its squad changed, its core's engines free. -/
def goneState (st : GroupStatus) (saved : Option SavedGroup) (f : Squad → Squad) : State :=
  (((deskWith f).modGroup 0 fun g => { g with status := st, saved := saved }).modCore 0 fun c => { c with tileOwner := none }).modCluster 0
    fun c => { c with clauseOwner := none }

theorem quietSquads {s : State} {gk : Nat} (h : (s.squads.all fun c => !c.2.ended && c.2.events.isEmpty) = true) :
    ∀ k q, groupOfSquad k = gk → s.squad? k = some q → q.ended = false ∧ q.events = [] := by
  intro k q _ hq
  simp only [List.all_eq_true, Bool.and_eq_true, Bool.not_eq_true', List.isEmpty_iff] at h
  exact h _ (mem_of_mapGet hq)

def savedHere : SavedGroup := { tiles := [], followerTiles := [], clause := some (Clause.cleared 1024 4096) }
def regionHere : Region :=
  { taint := false, entry := 0x10008#64, lanes := 0xFFFFFFFF#32, fctl := 0#64, fflags := 0#64, glideEn := true }

/-- For `groups_come_back`: a squad, a group, a group that is discarded, and one that restarts, on the die's last core. -/
theorem witness_groups_come_back :
    (∃ q g d, (deskWith (away false)).squad? 0 = some q ∧ q.ended = false ∧ q.residency ≠ .resident ∧
      (deskWith (away false)).group? q.groupKey = some g ∧ g.status = .placed ∧ squadFits (deskWith (away false)) q = true ∧
      (deskWith (away false)).grid? q.grid = some d ∧ ctxPaused (deskWith (away false)) d.ctx = false ∧
      yieldsTo (deskWith (away false)) d = false ∧ q.events = []) ∧
    (∃ x d v, let s := goneState .evicted (some savedHere) (away false)
      s.group? 0 = some x ∧ x.status = .evicted ∧ x.saved = some v ∧ groupFits s x 63 = true ∧ s.grid? x.grid = some d ∧
      ctxPaused s d.ctx = false ∧ yieldsTo s d = false ∧
      (∀ k q, groupOfSquad k = 0 → s.squad? k = some q → q.ended = false ∧ q.events = []) ∧ x.pair = false) ∧
    (∃ x d, let s := (deskWith fun q => { q with region := some regionHere }).modCtx 0 fun c => { c with pausing := some someCommand }
      s.group? 0 = some x ∧ x.status = .placed ∧ groupWanted s x = true ∧ idempotent s 0 x = true ∧ groupWork s 0 true = false ∧
      s.grid? x.grid = some d) ∧
    ∃ x d, let s := goneState .discarded none fun q => away false { q with region := some regionHere }
      s.group? 0 = some x ∧ x.status = .discarded ∧ groupFits s x 63 = true ∧ s.grid? x.grid = some d ∧ ctxPaused s d.ctx = false ∧
      yieldsTo s d = false ∧ ∀ k q, groupOfSquad k = 0 → s.squad? k = some q → q.ended = false ∧ q.events = [] := by
  refine ⟨?_, ?_, ?_, ?_⟩
  · obtain ⟨g, hg, hd⟩ := ex_some (x := (deskWith (away false)).group? ((deskWith (away false)).squadOr 0).groupKey)
      (p := fun g => g.status == .placed) (by decide +kernel)
    exact ⟨(deskWith (away false)).squadOr 0, g, probeGrid, by decide +kernel, by decide +kernel, by decide +kernel, hg, eq_of_beq hd,
      by decide +kernel, by decide +kernel, by decide +kernel, by decide +kernel, by decide +kernel⟩
  · obtain ⟨x, hx, hd⟩ := ex_some (x := (goneState .evicted (some savedHere) (away false)).group? 0) (p := fun x =>
      decide (x.status = .evicted ∧ x.saved = some savedHere ∧ groupFits (goneState .evicted (some savedHere) (away false)) x 63 = true ∧
        (goneState .evicted (some savedHere) (away false)).grid? x.grid = some probeGrid ∧ x.pair = false)) (by decide +kernel)
    obtain ⟨h1, h2, h3, h4, h5⟩ := of_decide_eq_true hd
    exact ⟨x, probeGrid, savedHere, hx, h1, h2, h3, h4, by decide +kernel, by decide +kernel, quietSquads (by decide +kernel), h5⟩
  · obtain ⟨x, hx, hd⟩ := ex_some (x := ((deskWith fun q => { q with region := some regionHere }).modCtx 0 fun c =>
        { c with pausing := some someCommand }).group? 0) (p := fun x =>
      let s := (deskWith fun q => { q with region := some regionHere }).modCtx 0 fun c => { c with pausing := some someCommand }
      decide (x.status = .placed ∧ groupWanted s x = true ∧ idempotent s 0 x = true ∧ groupWork s 0 true = false ∧
        s.grid? x.grid = some probeGrid)) (by decide +kernel)
    exact ⟨x, probeGrid, hx, of_decide_eq_true hd⟩
  · obtain ⟨x, hx, hd⟩ := ex_some (x := (goneState .discarded none fun q => away false { q with region := some regionHere }).group? 0)
      (p := fun x => decide (x.status = .discarded ∧
        groupFits (goneState .discarded none fun q => away false { q with region := some regionHere }) x 63 = true ∧
        (goneState .discarded none fun q => away false { q with region := some regionHere }).grid? x.grid = some probeGrid)) (by decide +kernel)
    obtain ⟨h1, h2, h3⟩ := of_decide_eq_true hd
    exact ⟨x, probeGrid, hx, h1, h2, h3, by decide +kernel, by decide +kernel, quietSquads (by decide +kernel)⟩

/-! ### Engines at work -/

/-- A copy of 16 words of main memory to the shared window, with a landing register and a sync word. -/
def someCopy : Copy :=
  { id := 9, squad := 0, kind := .plain, srcTid := 4, dstTid := 5, src := tensorOf 0x20000 0 4 16 1 64,
    dst := { tensorOf 0 1 4 16 1 64 with sync := 65520#32 }, c0 := 0, r0 := 0, indexOff := 0, index := [], sync := true, landing := some 10,
    reserved := false, started := true, landed := [], taken := [], issued := [], broken := [], clock := Clock.zero, epoch := 1,
    arrivedAt := [] }
def copyOp : OutOp := { OutOp.new 9 0 with landing := some 10, sync := some 65520 }

/-- The copy in its core's queue, its squad's operation outstanding, its source's page and its current at hand. -/
def copyState (c : Copy) : State :=
  ((((stackState 0).modSquad 0 fun q => withS 10 64#64 { q with ops := [copyOp] }).modCore 0 fun k => { k with copies := [c] }).modCluster 0
    fun k => { k with queue := [{ id := 1, cls := 2, owner := 9 * 2 ^ 32, units := 1, granted := true, at_ := 0 }] })

/-- Whether piece p of the state's copy may land (`MayLand`), and what a read of it finds passes a test. -/
def mayLand (s : State) (copy p : Nat) (test : State → Copy → Pages → Bool) : Bool :=
  match s.findCopy copy with
  | none => false
  | some (core, c) => c.open_ s p && c.broken.isEmpty &&
    match piecePages s core c p with
    | .ok ps s1 => ps.all (fun x => !x.2.2.2) && (s1.reservation (clusterOf core) resCopy (sliceOwner c (c.slice p))).any (·.granted) &&
        s1.squads.all (fun x => x.2.glide.isNone) &&
        match s1.squad? c.squad with
        | some q => !q.ended && (s1.group? q.groupKey).isSome && (s1.span? (s1.spanOf q)).isSome && test s1 c ps
        | none => false
    | _ => false

theorem mayLand_of {s : State} {copy p : Nat} {test : State → Copy → Pages → Bool} (h : mayLand s copy p test = true) :
    ∃ core c ps q s1, MayLand s copy p core c ps q s1 ∧ s.findCopy copy = some (core, c) ∧ test s1 c ps = true := by
  unfold mayLand at h
  split at h
  next => cases h
  next core c hc =>
    rw [Bool.and_eq_true, Bool.and_eq_true] at h
    obtain ⟨⟨h1, h2⟩, h⟩ := h
    split at h
    next ps s1 hp =>
      rw [Bool.and_eq_true, Bool.and_eq_true, Bool.and_eq_true] at h
      obtain ⟨⟨⟨h4, h5⟩, h6⟩, h⟩ := h
      obtain ⟨r, hr, hg⟩ := ex_some h5
      split at h
      next q hq =>
        simp only [Bool.and_eq_true, Bool.not_eq_true', List.all_eq_true, Option.isNone_iff_eq_none, List.isEmpty_iff] at h h2 h4 h6
        exact ⟨core, c, ps, q, s1, ⟨hc, h1, hp, h4, ⟨r, hr, hg⟩, h2, ⟨hq, h.1.1.1⟩, ⟨h.1.1.2, h.1.2⟩, h6⟩, hc, h.2⟩
      next => cases h
    next => cases h

/-- For `copies_run`: a copy that starts, one that its records stop, records of each fault, a piece that lands or cannot be read, its first
and its last. -/
theorem witness_copies_run :
    (∃ c, ((copyState { someCopy with started := false }).core 0).copies.find? (!·.started) = some c ∧
      c.recordFault (copyState { someCopy with started := false }) = none) ∧
    (∃ c f q, let s := copyState { someCopy with started := false, r0 := 1 }
      (s.core 0).copies.find? (!·.started) = some c ∧ c.recordFault s = some f ∧ s.squad? c.squad = some q ∧ q.ended = false ∧ q.glide = none ∧
      c.landing = some 10 ∧ ∃ o ∈ q.ops, o.id = c.id ∧ o.done = false) ∧
    (({ someCopy with src := tensorOf 0 3 4 16 1 64 } : Copy).src.code ≠ 0 ∧
      (someCopy.src.code = 0 ∧ ({ someCopy with dst := tensorOf 0 1 4 0 1 64 } : Copy).dst.code ≠ 0) ∧
      (({ someCopy with dst := tensorOf 0 1 5 16 1 64 } : Copy).dst.code = 0 ∧ someCopy.src.format ≠ (tensorOf 0 1 5 16 1 64).format) ∧
      (someCopy.dst.code = 0 ∧ someCopy.src.format = someCopy.dst.format ∧ someCopy.src.block = someCopy.dst.block ∧
        someCopy.src.rows < 1 + someCopy.dst.rows)) ∧
    (∃ core c ps q s1, MayLand (copyState someCopy) 9 0 core c ps q s1 ∧ lostByte s1 c 0 ps = none ∧ (∃ a, readsDram s1 c 0 ps = some a) ∧
      ∀ x ∈ c.due, c.rank x < c.rank 0 → x ∈ c.landed) ∧
    (∃ core c ps q s1, MayLand { copyState someCopy with spoiled := [0x190000 / 32] } 9 0 core c ps q s1 ∧ ∃ a, lostByte s1 c 0 ps = some a) ∧
    (∃ core c ps q s1, MayLand (copyState { someCopy with landed := (List.range 15) }) 9 15 core c ps q s1 ∧ lostByte s1 c 15 ps = none ∧
      c.landed.length + 1 = c.due.length) ∧
    (someCopy.kind ≠ .scatter ∧ someCopy.src.layout = 0#8 ∧ someCopy.dst.layout = 0#8 ∧ someCopy.src.width % 8 = 0 ∧ 0 < someCopy.src.width ∧
      someCopy.src.width = someCopy.dst.width ∧ someCopy.src.mx = false ∧ someCopy.dst.mx = false ∧ 0 < someCopy.dst.rows ∧
      4 * 15 < someCopy.dst.cols * (someCopy.dst.width / 8)) := by
  refine ⟨⟨{ someCopy with started := false }, by decide +kernel⟩, ?_, by decide +kernel, ?_, ?_, ?_, by decide +kernel⟩
  · obtain ⟨f, hf, -⟩ := ex_some (x := ({ someCopy with started := false, r0 := 1 } : Copy).recordFault
      (copyState { someCopy with started := false, r0 := 1 })) (p := fun _ => true) (by decide +kernel)
    exact ⟨{ someCopy with started := false, r0 := 1 }, f, (copyState { someCopy with started := false, r0 := 1 }).squadOr 0, by decide +kernel,
      hf, by decide +kernel, by decide +kernel, by decide +kernel, rfl, copyOp, by decide +kernel⟩
  · obtain ⟨core, c, ps, q, s1, h, hc, hr⟩ := mayLand_of (by decide +kernel : mayLand (copyState someCopy) 9 0
      (fun s c ps => (lostByte s c 0 ps).isNone && (readsDram s c 0 ps).isSome) = true)
    have he : (copyState someCopy).findCopy 9 = some (0, someCopy) := by decide +kernel
    rw [he] at hc
    cases hc
    simp only [Bool.and_eq_true, Option.isNone_iff_eq_none, Option.isSome_iff_exists] at hr
    exact ⟨_, _, ps, q, s1, h, hr.1, hr.2, fun x _ hx => absurd hx (by
      have : someCopy.rank 0 = 0 := by decide +kernel
      omega)⟩
  · obtain ⟨core, c, ps, q, s1, h, -, hr⟩ := mayLand_of (by decide +kernel :
      mayLand { copyState someCopy with spoiled := [0x190000 / 32] } 9 0 (fun s c ps => (lostByte s c 0 ps).isSome) = true)
    exact ⟨core, c, ps, q, s1, h, Option.isSome_iff_exists.mp hr⟩
  · obtain ⟨core, c, ps, q, s1, h, hc, hr⟩ := mayLand_of (by decide +kernel :
      mayLand (copyState { someCopy with landed := (List.range 15) }) 9 15 (fun s c ps => (lostByte s c 15 ps).isNone) = true)
    have he : (copyState { someCopy with landed := (List.range 15) }).findCopy 9 = some (0, { someCopy with landed := (List.range 15) }) := by
      decide +kernel
    rw [he] at hc
    cases hc
    exact ⟨_, _, ps, q, s1, h, Option.isNone_iff_eq_none.mp hr, by decide +kernel⟩

def someMx (kind : MxKind) : MxOp :=
  { id := 9, squad := 0, kind := kind, tile := 15, barrier := 15, acc := true, a := tensorOf 0 1 4 64 64 256, b := tensorOf 0 1 4 64 64 256,
    off := 0, row := 0, reserved := false, started := true, startedAt := 0, clock := Clock.zero, epoch := 1 }
def someRs : RsOp := { id := 9, squad := 0, d := 125, tile := 15, half := true, lanes := 0xFFFFFFFF#32, startedAt := some 0 }
def waitingRs : RsOp := { someRs with id := 10, startedAt := none }
def someCla : ClaRun := { squad := 0, id := 9, fn := 4, d := .s 4, reply := 7#64, cycles := 8 }

/-- Engines with the given work, at cycle n. -/
def engineState (fifo : List MxOp) (rs : List RsOp) (a : ArrayState) (burst : Option Burst) (n : Nat) : State :=
  { ((deskWith fun q => { q with ops := [OutOp.new 9 1] }).modCore 0 fun k => { k with fifo := fifo, rs := rs, array := a, burst := burst }).modCluster 0
      (fun k => { k with clauseRun := some someCla, queue := [{ id := 1, cls := 0, owner := 0, units := 16, granted := true, at_ := 0 },
                                                              { id := 2, cls := 3, owner := 9, units := 4, granted := true, at_ := 0 }] }) with
    cycle := n }

theorem noGlides_of {s : State} (h : (s.squads.all fun c => c.2.glide.isNone) = true) : NoGlides s := by
  simpa [NoGlides, Option.isNone_iff_eq_none] using h

theorem opEnds_of {s : State} {o : MxOp} (h : (s.core 0).fifo = [o] ∧ (o.started = true ∧ o.startedAt + (if o.kind = .zero then 1 else 32) ≤ s.cycle + 1)
    ∧ rsBefore s 0 o = false ∧ o.barrier = 15 ∧ (s.squad? o.squad = some (s.squadOr o.squad) ∧ (s.squadOr o.squad).ended = false) ∧
    ((s.group? (s.squadOr o.squad).groupKey).isSome = true ∧ (s.span? (s.spanOf (s.squadOr o.squad))).isSome = true) ∧
    (s.squads.all fun c => c.2.glide.isNone) = true) : OpEnds s 0 o [] (s.squadOr o.squad) :=
  ⟨h.1, h.2.1, h.2.2.1, .inl h.2.2.2.1, h.2.2.2.2.1, h.2.2.2.2.2.1, noGlides_of h.2.2.2.2.2.2⟩

/-- The squad's group with a barrier at which one arrival of `count` is made. -/
def atBarrier (s : State) (count : Nat) : State :=
  s.modGroup (groupOfSquad 0) fun g => g.modBar 3 fun x => { x with count := count, arrived := 1, epend := 1 }

def someNamed (kind : MxKind) : MxOp := { someMx kind with barrier := 3 }

/-- For `engines_complete`: operations that name a barrier, one whose arrival completes the phase and one whose arrival does not; an operation of
two arrays that starts. -/
theorem witness_operations_arrive :
    (let s := atBarrier (engineState [someNamed .mma] [] .busy none 31) 5
     ∃ q g, OpEnds s 0 (someNamed .mma) [] q ∧ s.group? (groupOfSquad 0) = some g ∧ 3 < g.barriers.length) ∧
    (let s := atBarrier (engineState [someNamed .zero] [] .busy none 0) 2
     ∃ g, (s.core 0).fifo = [someNamed .zero] ∧ rsBefore s 0 (someNamed .zero) = false ∧ s.group? (groupOfSquad 0) = some g ∧
       3 < g.barriers.length ∧ (g.bar 3).arrived + 1 = (g.bar 3).count ∧ NoGlides s ∧ ∀ x ∈ s.squads, ∀ y ∈ x.2.ops, y.race = none) ∧
    ∀ a, a = .idle ∨ a = .busy ∨ a = .rampDown 3 ∨ a = .rampUp 6 → ∃ r,
      let s := engineState [{ someMx .pair with started := false }] [] a (some { left := 1, since := 4 }) 30
      (s.core 0).fifo = [{ someMx .pair with started := false }] ∧ (s.core 1).fifo = [] ∧
      s.reservation 0 resMatrix 0 = some r ∧ r.granted = true ∧ (s.core 0).array = a ∧ (s.core 1).array = .idle := by
  refine ⟨?_, ?_, ?_⟩
  · let s := atBarrier (engineState [someNamed .mma] [] .busy none 31) 5
    obtain ⟨g, hg, hn⟩ := ex_some (x := s.group? (groupOfSquad 0))
      (p := fun g => decide ((g.bar 3).arrived + 1 ≠ (g.bar 3).count ∧ 3 < g.barriers.length)) (by decide +kernel)
    refine ⟨s.squadOr 0, g, ⟨by decide +kernel, by decide +kernel, by decide +kernel, .inr fun g h => ?_,
      by decide +kernel, by decide +kernel, noGlides_of (by decide +kernel)⟩, hg, (of_decide_eq_true hn).2⟩
    cases hg.symm.trans h
    exact (of_decide_eq_true hn).1
  · obtain ⟨g, hg, hn⟩ := ex_some (x := (atBarrier (engineState [someNamed .zero] [] .busy none 0) 2).group? (groupOfSquad 0))
      (p := fun g => decide (3 < g.barriers.length ∧ (g.bar 3).arrived + 1 = (g.bar 3).count)) (by decide +kernel)
    exact ⟨g, by decide +kernel, by decide +kernel, hg, (of_decide_eq_true hn).1, (of_decide_eq_true hn).2,
      noGlides_of (by decide +kernel), by decide +kernel⟩
  · rintro a (rfl | rfl | rfl | rfl) <;> exact ⟨{ id := 1, cls := 0, owner := 0, units := 16, granted := true, at_ := 0 }, by decide +kernel⟩

/-- For `engines_complete`: an operation that starts, from each state of the array; each kind's completion, in the cycle that ends it, with a row
posted after it; the hold of a burst; a ramp's end; row statistics, with a row behind it; a clause command. -/
theorem witness_engines_complete :
    (∀ a, a = .idle ∨ a = .busy ∨ a = .rampDown 3 ∨ a = .rampUp 6 → ∃ r,
      ((engineState [{ someMx .mma with started := false }] [] a none 30).core 0).fifo = [{ someMx .mma with started := false }] ∧
      (engineState [{ someMx .mma with started := false }] [] a none 30).reservation 0 resMatrix 0 = some r ∧ r.granted = true ∧
      ((engineState [{ someMx .mma with started := false }] [] a none 30).core 0).array = a ∧ 6 + 24 ≤ 30) ∧
    (∀ k : MxKind, ∃ q, OpEnds (engineState [someMx k] [waitingRs] .busy none 31) 0 (someMx k) [] q) ∧
    (∀ fifo, fifo = [] ∨ fifo = [{ someMx .mma with started := false }] → ∃ b,
      ((engineState fifo [] .busy (some { left := 1, since := 4 }) 260).core 0).burst = some b ∧ b.since + 256 ≤ 260) ∧
    (((engineState [] [] (.rampDown 4) none 20).core 0).array = .rampDown 4 ∧ 4 + 16 ≤ 20) ∧
    (∃ q, ((engineState [] [someRs, waitingRs] .idle none 15).core 0).rs = [someRs, waitingRs] ∧ someRs.startedAt = some 0 ∧
      (∀ x ∈ [waitingRs], x.id ≠ someRs.id) ∧ waitingRs.startedAt = none ∧
      (∀ x ∈ tileOps (engineState [] [someRs, waitingRs] .idle none 15) 0, waitingRs.id ≤ x.id) ∧
      (engineState [] [someRs, waitingRs] .idle none 15).squad? someRs.squad = some q ∧ q.ended = false ∧ q.glide = none ∧ someRs.d ≤ 125) ∧
    ∃ v q, ((engineState [] [] .idle none 7).cluster 0).clauseRun = some someCla ∧
      (engineState [] [] .idle none 7).reservation 0 resClause someCla.id = some v ∧ v.granted = true ∧ v.at_ + someCla.cycles ≤ 7 + 1 ∧
      (engineState [] [] .idle none 7).squad? someCla.squad = some q ∧ q.ended = false ∧ q.glide = none := by
  refine ⟨?_, ?_, ?_, by decide +kernel, ⟨(engineState [] [someRs, waitingRs] .idle none 15).squadOr 0, by decide +kernel⟩,
    { id := 2, cls := 3, owner := 9, units := 4, granted := true, at_ := 0 }, (engineState [] [] .idle none 7).squadOr 0, by decide +kernel⟩
  · rintro a (rfl | rfl | rfl | rfl) <;> exact ⟨{ id := 1, cls := 0, owner := 0, units := 16, granted := true, at_ := 0 }, by decide +kernel⟩
  · intro k
    cases k <;> exact ⟨_, opEnds_of (by decide +kernel)⟩
  · rintro f (rfl | rfl) <;> exact ⟨{ left := 1, since := 4 }, by decide +kernel⟩

/-- For `engine_errors`: every engine at work. -/
theorem witness_engine_errors :
    (∃ q, (engineState [someMx .drain] [someRs] .busy none 0).squad? 0 = some q ∧ q.glide = none ∧ q.ended = false) ∧
    (((engineState [someMx .drain] [someRs] .busy none 0).core 0).fifo = [someMx .drain] ∧ (someMx .drain).started = true ∧
      (someMx .drain).barrier = 15) ∧
    (((engineState [someMx .drain] [someRs] .busy none 0).core 0).rs = [someRs] ∧ someRs.d ≤ 125) ∧
    ((engineState [someMx .drain] [someRs] .busy none 0).cluster 0).clauseRun = some someCla ∧
    (copyState someCopy).findCopy 9 = some (0, someCopy) ∧ someCopy.started = true ∧
      ∃ q, (copyState someCopy).squad? someCopy.squad = some q ∧ q.ended = false :=
  ⟨⟨(engineState [someMx .drain] [someRs] .busy none 0).squadOr 0, by decide +kernel⟩, by decide +kernel, by decide +kernel, by decide +kernel,
    by decide +kernel, rfl, (copyState someCopy).squadOr 0, by decide +kernel⟩

/-! ### Chains and collectives -/

def farDone {α : Type} (x : MemOut α) : Bool :=
  match x with
  | .done _ _ => true
  | _ => false

theorem farDone_of {α : Type} {x : MemOut α} (h : farDone x = true) : ∃ v s, x = .done v s := by
  cases x with
  | done v s => exact ⟨v, s, rfl⟩
  | wait s => cases h
  | fail c a s => cases h

/-- The 64 bytes of a chain entry (R106). -/
def entryBytes (next kind flags length src dst params completion seq : Nat) : List Byte :=
  leBytes 8 next ++ leBytes 1 kind ++ leBytes 1 0 ++ leBytes 1 flags ++ leBytes 1 0 ++ leBytes 4 length ++ leBytes 8 src ++ leBytes 8 dst ++
    leBytes 8 params ++ leBytes 8 completion ++ leBytes 8 seq ++ leBytes 8 0

/-- The 128 bytes of a launch descriptor of one group of one squad (R269). -/
def descBytes (nsq : Nat) : List Byte :=
  leBytes 8 0x10000 ++ leBytes 8 0x20000 ++ List.replicate 40 0#8 ++ leBytes 2 1 ++ leBytes 2 1 ++ leBytes 2 1 ++ leBytes 2 0 ++
    leBytes 4 4096 ++ leBytes 4 0 ++ leBytes 2 32 ++ leBytes 1 nsq ++ leBytes 1 8 ++ leBytes 1 64 ++ leBytes 1 64 ++ leBytes 1 16 ++ leBytes 1 1 ++
    leBytes 4 65536 ++ List.replicate 44 0#8

/-- Far context 0 of context 0, with entries in execution, its page at hand, an entry in memory at 0x20040, a descriptor at 0x20080. -/
def chainState (entry : List Byte) (nsq : Nat) (es : List FarEntry) : State :=
  let s := desk.modChain 0 fun c => { c with run := true, pend := 2, head := 0x20040#64, entries := es, weight := 15 }
  let s := { s with tlb := [(stackLeaf 0).cached (farReach 0 0 0).cache 0 0x20000] }
  (s.writePhysN 1 0x190040 entry).writePhysN 1 0x190080 (descBytes nsq)

/-- For `chains_perform`: an entry can be fetched. -/
theorem witness_fetch : ∃ bs s1, let s := chainState (entryBytes 0 1 0 8 0x55 0x20200 0 0 1) 1 []
    s.chainOwner 0 = some 0 ∧ (s.chain 0).run = true ∧ (s.chain 0).halted = false ∧ (s.chain 0).entries.length < (s.chain 0).pend ∧
    s.waitsFor (.far 0 0) = false ∧ (s.chain 0).atEnd = false ∧ (s.chain 0).head.toNat % 64 = 0 ∧ s.ctxRuns (0 * 256 + (s.chain 0).ctx) = true ∧
    farRead s.fresh.2 { farReach 0 0 (0 * 256 + (s.chain 0).ctx) with
      by_ := some s.fresh.1, poster := advanceAt (s.chain 0).advances (s.chain 0).entries.length } (0 / 64) (s.chain 0).head 64 = .done bs s1 := by
  obtain ⟨bs, s1, h⟩ := farDone_of (by decide +kernel :
    let s := chainState (entryBytes 0 1 0 8 0x55 0x20200 0 0 1) 1 []
    farDone (farRead s.fresh.2 { farReach 0 0 (0 * 256 + (s.chain 0).ctx) with
      by_ := some s.fresh.1, poster := advanceAt (s.chain 0).advances (s.chain 0).entries.length } (0 / 64) (s.chain 0).head 64) = true)
  exact ⟨bs, s1, by decide +kernel, by decide +kernel, by decide +kernel, by decide +kernel, by decide +kernel, by decide +kernel,
    by decide +kernel, by decide +kernel, h⟩

/-- The entry at a chain's head, tested. -/
def entryNext (s : State) (h : Nat) (p : FarEntry → Word64 → State → Bool) : Bool :=
  match fetchHead s h with
  | .got e next s1 => (e.defect s1).isNone && (!e.fence || (s1.chain h).entries.isEmpty) && p e next s1
  | _ => false

theorem entryNext_of {s : State} {h : Nat} {p : FarEntry → Word64 → State → Bool} (hs : entryNext s h p = true) :
    ∃ e next s1, EntryNext s h e next s1 ∧ p e next s1 = true := by
  unfold entryNext at hs
  split at hs
  next e next s1 hf =>
    simp only [Bool.and_eq_true, Option.isNone_iff_eq_none, Bool.or_eq_true, Bool.not_eq_true', List.isEmpty_iff] at hs
    exact ⟨e, next, s1, ⟨hf, hs.1.1, fun hg => hs.1.2.resolve_left (by simp [hg])⟩, hs.2⟩
  next => cases hs

/-- For `chains_perform`: a copy, a fill behind its fence, a launch. -/
theorem witness_entries :
    (∃ e next s1, EntryNext (chainState (entryBytes 0 0 0 64 0x20200 0x20300 0 0 1) 1 []) 0 e next s1 ∧ e.kind = 0) ∧
    (∃ e next s1, EntryNext (chainState (entryBytes 0 1 1 8 0x55 0x20200 0 0 1) 1 []) 0 e next s1 ∧ e.kind = 1) ∧
    ∃ e next s1, let s := chainState (entryBytes 0 3 0 8 0x20200 0x20080 15 0 1) 1 []
      EntryNext s 0 e next s1 ∧ e.kind = 3 ∧ (∀ x ∈ (s.chain 0).entries, unlaunched x = false) ∧
      GoesOn (beginEntry s1 0 e next) 0 unlaunched (s1.chain 0).entries [] e := by
  refine ⟨?_, ?_, ?_⟩
  · obtain ⟨e, next, s1, h, hp⟩ := entryNext_of (s := chainState (entryBytes 0 0 0 64 0x20200 0x20300 0 0 1) 1 []) (h := 0)
      (p := fun e _ _ => e.kind == 0) (by decide +kernel)
    exact ⟨e, next, s1, h, eq_of_beq hp⟩
  · obtain ⟨e, next, s1, h, hp⟩ := entryNext_of (s := chainState (entryBytes 0 1 1 8 0x55 0x20200 0 0 1) 1 []) (h := 0)
      (p := fun e _ _ => e.kind == 1) (by decide +kernel)
    exact ⟨e, next, s1, h, eq_of_beq hp⟩
  · obtain ⟨e, next, s1, h, hp⟩ := entryNext_of (s := chainState (entryBytes 0 3 0 8 0x20200 0x20080 15 0 1) 1 []) (h := 0)
      (p := fun e next s1 => decide (e.kind = 3 ∧ unlaunched e = true ∧ (s1.chain 0).entries = [] ∧
        ((beginEntry s1 0 e next).chain 0).entries = [e] ∧ (beginEntry s1 0 e next).waitsFor (.far 0 e.id) = false)) (by decide +kernel)
    obtain ⟨h1, h2, h3, h4, h5⟩ := of_decide_eq_true hp
    exact ⟨e, next, s1, h, h1, by decide +kernel, ⟨by simpa [h3] using h4, by simp [h3], h2⟩, by simp [h3], h5⟩

/-- Whether a far context reaches bytes (`Reaches`), and what it finds passes a test. -/
def reaches (s : State) (r : Reach) (a : Word64) (n : Nat) (need : Need) (p : Leaf → State → Bool) : Bool :=
  decide (a.msb = false ∧ a.toNat < 2 ^ 48 ∧ 0 < n ∧ a.toNat % 65536 + n ≤ 65536 ∧ s.waitsFor r.walker = false ∧ r.walker ∉ s.refused) &&
    match translate s r.cache r.ctx a.toNat need with
    | (.ok l, s1) => s1.backs (slotOf r.ctx) l.pa && s1.keyOk (slotOf r.ctx) l && p l s1
    | _ => false

theorem reaches_of {s : State} {r : Reach} {a : Word64} {n : Nat} {need : Need} {p : Leaf → State → Bool} (h : reaches s r a n need p = true) :
    ∃ l s1, Reaches s r a n need l s1 ∧ p l s1 = true := by
  simp only [reaches, Bool.and_eq_true, decide_eq_true_eq] at h
  obtain ⟨⟨h1, h2, h3, h4, h5, h6⟩, h⟩ := h
  split at h
  next l s1 ht =>
    simp only [Bool.and_eq_true] at h
    exact ⟨l, s1, ⟨⟨h1, h2⟩, ⟨h3, h4⟩, ⟨h5, h6⟩, ht, h.1.1, h.1.2⟩, h.2⟩
  next => cases h

/-- A page with no memory behind it, at 0x70000, and one under a key slot that is bound to none, at 0x80000. -/
def farPages : State :=
  let put (m : Memory) (a v : Nat) : Memory := memWriteN m a (leBytes 8 v)
  { desk with mem := put (put desk.mem 0x160038 0x10000000017) 0x160040 (40 * 2 ^ 57 + 0x180017) }

/-- For `chains_perform`: sound data read, lost data, a write; an address outside the space, a refused page, a page with no memory behind it, one
under another's key, one with no translation. -/
theorem witness_far_accesses :
    (let s := chainState [] 1 []
     ∃ l s1, Reaches s (farReach 0 9 0) 0x20080#64 64 .read l s1 ∧ s1.sound l.pa 64 = true ∧ l.watch = false) ∧
    (let s := { chainState [] 1 [] with spoiled := [0x190080 / 32] }
     ∃ l s1, Reaches s (farReach 0 9 0) 0x20080#64 64 .read l s1 ∧ s1.sound l.pa 64 = false) ∧
    (let s := chainState [] 1 []
     ∃ l s1, Reaches s (farReach 0 9 0) 0x20080#64 (leBytes 8 5).length .write l s1 ∧ l.watch = false) ∧
    ((0x1000000000000#64).msb = false ∧ 0 < 8 ∧ 2 ^ 48 ≤ (0x1000000000000#64).toNat) ∧
    (let s := { chainState [] 1 [] with refused := [Walker.far 0 9] }
     (0x20080#64).toNat < 2 ^ 48 ∧ s.waitsFor (farReach 0 9 0).walker = false ∧ (farReach 0 9 0).walker ∈ s.refused) ∧
    (let s := farPages
     s.waitsFor (farReach 0 9 0).walker = false ∧ (farReach 0 9 0).walker ∉ s.refused ∧
       ∃ l s1, translate s (farReach 0 9 0).cache 0 (0x70000#64).toNat .read = (.ok l, s1) ∧ s1.backs (slotOf 0) l.pa = false) ∧
    (let s := farPages
     ∃ l s1, translate s (farReach 0 9 0).cache 0 (0x80000#64).toNat .read = (.ok l, s1) ∧ s1.backs (slotOf 0) l.pa = true ∧
       s1.keyOk (slotOf 0) l = false) ∧
    (let s := chainState [] 1 []
     s.waitsFor (farReach 0 9 0).walker = false ∧ (farReach 0 9 0).walker ∉ s.refused ∧
       ∃ f s1, translate s (farReach 0 9 0).cache 0 (0x60000#64).toNat .read = (.error f, s1)) := by
  have ok {x : Except WalkFail Leaf × State} {p : Leaf → State → Bool} (h : (match x with
      | (.ok l, s1) => p l s1
      | _ => false) = true) : ∃ l s1, x = (.ok l, s1) ∧ p l s1 = true := by
    split at h
    next l s1 => exact ⟨l, s1, rfl, h⟩
    next => cases h
  refine ⟨?_, ?_, ?_, by decide +kernel, by decide +kernel, ⟨by decide +kernel, by decide +kernel, ?_⟩, ?_, by decide +kernel, by decide +kernel, ?_⟩
  · obtain ⟨l, s1, h, hp⟩ := reaches_of (by decide +kernel :
      reaches (chainState [] 1 []) (farReach 0 9 0) 0x20080#64 64 .read (fun l s1 => s1.sound l.pa 64 && !l.watch) = true)
    exact ⟨l, s1, h, by simpa using hp⟩
  · exact reaches_of (p := fun l s1 => decide (s1.sound l.pa 64 = false)) (by decide +kernel) |>.imp fun _ h => h.imp fun _ h => ⟨h.1, of_decide_eq_true h.2⟩
  · exact reaches_of (p := fun l _ => decide (l.watch = false)) (by decide +kernel) |>.imp fun _ h => h.imp fun _ h => ⟨h.1, of_decide_eq_true h.2⟩
  · exact ok (p := fun l s1 => decide (s1.backs (slotOf 0) l.pa = false)) (by decide +kernel) |>.imp fun _ h => h.imp fun _ h => ⟨h.1, of_decide_eq_true h.2⟩
  · exact ok (p := fun l s1 => decide (s1.backs (slotOf 0) l.pa = true ∧ s1.keyOk (slotOf 0) l = false)) (by decide +kernel)
      |>.imp fun _ h => h.imp fun _ h => ⟨h.1, of_decide_eq_true h.2⟩
  · have bad {x : Except WalkFail Leaf × State} (h : (match x with
        | (.error _, _) => true
        | _ => false) = true) : ∃ f s1, x = (.error f, s1) := by
      split at h
      next f s1 => exact ⟨f, s1, rfl⟩
      next => cases h
    exact bad (by decide +kernel)

def someEntry (kind length : Nat) (src dst : Word64) : FarEntry :=
  { id := 9, addr := 0x20000#64, kind := kind, ctx := 0, fence := false, notify := false, length := length, src := src, dst := dst, params := 0#64,
    completion := 0x20400#64, seq := 5#64, moved := 0, done := false, fault := none, aborted := false, queued := false, peers := [], comm := none }

theorem firstOf_of {s : State} {h : Nat} {p : FarEntry → Bool} {e : FarEntry} (hc : (s.chain h).entries = [e]) (he : p e = true) :
    FirstOf s h p [] [] e := ⟨by simpa using hc, by simp, he⟩

theorem goesOn_of {s : State} {h : Nat} {p : FarEntry → Bool} {e : FarEntry}
    (hc : (s.chain h).entries = [e] ∧ p e = true ∧ s.waitsFor (.far h e.id) = false) : GoesOn s h p [] [] e :=
  ⟨firstOf_of hc.1 hc.2.1, by simp, hc.2.2⟩

/-- A launch of the descriptor at 0x20080, with its arguments at 0x20200. -/
def someLaunch (desc : Word64) : FarEntry := { someEntry 3 8 0x20200#64 desc with params := 15#64 }

/-- What the reads of a launch give. -/
def launchReads (s : State) (desc : Word64) (p : List Byte → State → Bool) : Bool :=
  let r := entryReach s 0 0 (someLaunch desc)
  match farRead s r (0 / 64) desc 128 with
  | .done bs s2 =>
    match farRead s2 r (0 / 64) (someLaunch desc).src (someLaunch desc).length with
    | .done _ s3 => p bs s3
    | _ => false
  | _ => false

theorem launchReads_of {s : State} {desc : Word64} {p : List Byte → State → Bool} (h : launchReads s desc p = true) :
    ∃ bs args s2 s3, farRead s (entryReach s 0 0 (someLaunch desc)) (0 / 64) (someLaunch desc).dst 128 = .done bs s2 ∧
      farRead s2 (entryReach s 0 0 (someLaunch desc)) (0 / 64) (someLaunch desc).src (someLaunch desc).length = .done args s3 ∧ p bs s3 = true := by
  simp only [launchReads] at h
  split at h
  next bs s2 h1 =>
    split at h
    next args s3 h2 => exact ⟨bs, args, s2, s3, h1, h2, h⟩
    next => cases h
  next => cases h

/-- For `chains_perform`: launches with a misaligned descriptor, an unreadable one, one with no page yet, a bad one, one too large, a good one. -/
theorem witness_launches :
    (let s := chainState [] 1 [someLaunch 0x20081#64]
     GoesOn s 0 unlaunched [] [] (someLaunch 0x20081#64) ∧ (someLaunch 0x20081#64).dst.toNat % 128 ≠ 0) ∧
    (let s := chainState [] 1 [someLaunch 0x1000000000000#64]
     GoesOn s 0 unlaunched [] [] (someLaunch 0x1000000000000#64) ∧
       ∃ code a s2, farRead s (entryReach s 0 0 (someLaunch 0x1000000000000#64)) (0 / 64) (someLaunch 0x1000000000000#64).dst 128 = .fail code a s2) ∧
    (let s := chainState [] 1 [someLaunch 0x60000#64]
     GoesOn s 0 unlaunched [] [] (someLaunch 0x60000#64) ∧
       ∃ s2, farRead s (entryReach s 0 0 (someLaunch 0x60000#64)) (0 / 64) (someLaunch 0x60000#64).dst 128 = .wait s2) ∧
    ((someLaunch 0x20080#64).length ≤ 4096 ∧ (someLaunch 0x20080#64).length % 8 = 0 ∧ (someLaunch 0x20080#64).params.toNat < 16 ∧
      (someLaunch 0x20080#64).dst.toNat % 128 = 0) ∧
    (∀ nsq, nsq = 0 ∨ nsq = 1 → GoesOn (chainState [] nsq [someLaunch 0x20080#64]) 0 unlaunched [] [] (someLaunch 0x20080#64)) ∧
    (let s := chainState [] 0 [someLaunch 0x20080#64]
     ∃ bs args s2 s3, farRead s (entryReach s 0 0 (someLaunch 0x20080#64)) (0 / 64) (someLaunch 0x20080#64).dst 128 = .done bs s2 ∧
       farRead s2 (entryReach s 0 0 (someLaunch 0x20080#64)) (0 / 64) (someLaunch 0x20080#64).src (someLaunch 0x20080#64).length = .done args s3 ∧
       (parseDesc bs).ok (someLaunch 0x20080#64).length = false) ∧
    (let s := chainState [] 1 [someLaunch 0x20080#64]
     ∃ bs args s2 s3, farRead s (entryReach s 0 0 (someLaunch 0x20080#64)) (0 / 64) (someLaunch 0x20080#64).dst 128 = .done bs s2 ∧
       farRead s2 (entryReach s 0 0 (someLaunch 0x20080#64)) (0 / 64) (someLaunch 0x20080#64).src (someLaunch 0x20080#64).length = .done args s3 ∧
       (parseDesc bs).ok (someLaunch 0x20080#64).length = true ∧ placeable s3 (slotOf (someLaunch 0x20080#64).ctx) (parseDesc bs) = true ∧
       (s3.chain 0).entries = (s.chain 0).entries ∧ (s3.ctx? (someLaunch 0x20080#64).ctx).isSome = true) ∧
    (let s := (chainState [] 1 [someLaunch 0x20080#64]).modPart 0 fun p => { p with clusters := 0#64 }
     ∃ bs args s2 s3, farRead s (entryReach s 0 0 (someLaunch 0x20080#64)) (0 / 64) (someLaunch 0x20080#64).dst 128 = .done bs s2 ∧
       farRead s2 (entryReach s 0 0 (someLaunch 0x20080#64)) (0 / 64) (someLaunch 0x20080#64).src (someLaunch 0x20080#64).length = .done args s3 ∧
       (parseDesc bs).ok (someLaunch 0x20080#64).length = true ∧ placeable s3 (slotOf (someLaunch 0x20080#64).ctx) (parseDesc bs) = false) := by
  have wait {α : Type} {x : MemOut α} (h : (match x with
      | .wait _ => true
      | _ => false) = true) : ∃ s, x = .wait s := by
    cases x with
    | wait s => exact ⟨s, rfl⟩
    | done v s => cases h
    | fail c a s => cases h
  have fail {α : Type} {x : MemOut α} (h : (match x with
      | .fail _ _ _ => true
      | _ => false) = true) : ∃ c a s, x = .fail c a s := by
    cases x with
    | fail c a s => exact ⟨c, a, s, rfl⟩
    | done v s => cases h
    | wait s => cases h
  refine ⟨⟨goesOn_of (by decide +kernel), by decide +kernel⟩, ⟨goesOn_of (by decide +kernel), fail (by decide +kernel)⟩,
    ⟨goesOn_of (by decide +kernel), wait (by decide +kernel)⟩, by decide +kernel, ?_, ?_, ?_, ?_⟩
  · rintro n (rfl | rfl) <;> exact goesOn_of (by decide +kernel)
  · obtain ⟨bs, args, s2, s3, h1, h2, hp⟩ := launchReads_of (s := chainState [] 0 [someLaunch 0x20080#64]) (desc := 0x20080#64)
      (p := fun bs _ => decide ((parseDesc bs).ok 8 = false)) (by decide +kernel)
    exact ⟨bs, args, s2, s3, h1, h2, of_decide_eq_true hp⟩
  · obtain ⟨bs, args, s2, s3, h1, h2, hp⟩ := launchReads_of (s := chainState [] 1 [someLaunch 0x20080#64]) (desc := 0x20080#64)
      (p := fun bs s3 => decide ((parseDesc bs).ok 8 = true ∧ placeable s3 (slotOf 0) (parseDesc bs) = true ∧
        (s3.chain 0).entries = ((chainState [] 1 [someLaunch 0x20080#64]).chain 0).entries ∧ (s3.ctx? 0).isSome = true)) (by decide +kernel)
    exact ⟨bs, args, s2, s3, h1, h2, of_decide_eq_true hp⟩
  · obtain ⟨bs, args, s2, s3, h1, h2, hp⟩ := launchReads_of
      (s := (chainState [] 1 [someLaunch 0x20080#64]).modPart 0 fun p => { p with clusters := 0#64 }) (desc := 0x20080#64)
      (p := fun bs s3 => decide ((parseDesc bs).ok 8 = true ∧ placeable s3 (slotOf 0) (parseDesc bs) = false)) (by decide +kernel)
    exact ⟨bs, args, s2, s3, h1, h2, of_decide_eq_true hp⟩

/-- For `chains_perform`: the first beat of a fill, of a copy, of one whose source lies outside the space. -/
theorem witness_beats :
    (let s := chainState [] 1 [someEntry 1 72 0x55#64 0x20200#64]
     serves s 0 { ctx := 0, beats := 14 } ∧ ((mapGet s.rounds 0).getD { ctx := 7, beats := 0 }).ctx < 8 ∧
      FirstOf s (8 * 0 + 0) FarEntry.moving [] [] (someEntry 1 72 0x55#64 0x20200#64) ∧
      ∃ s1, farWrite { s with rounds := mapSet s.rounds 0 { ctx := 0, beats := 14 } }
        (entryReach { s with rounds := mapSet s.rounds 0 { ctx := 0, beats := 14 } } 0 0 (someEntry 1 72 0x55#64 0x20200#64)) (0 / 64)
        (0x20200#64 + BitVec.ofNat 64 0) ((List.range 64).map fun i => BitVec.ofNat 8 ((0x55#64).toNat / 256 ^ ((0 + i) % 8))) = .done () s1) ∧
    (let s := chainState [] 1 [someEntry 0 64 0x20080#64 0x20200#64]
     serves s 0 { ctx := 0, beats := 14 } ∧ FirstOf s (8 * 0 + 0) FarEntry.moving [] [] (someEntry 0 64 0x20080#64 0x20200#64) ∧
      ∃ bs s1 s2, farRead { s with rounds := mapSet s.rounds 0 { ctx := 0, beats := 14 } }
        (entryReach { s with rounds := mapSet s.rounds 0 { ctx := 0, beats := 14 } } 0 0 (someEntry 0 64 0x20080#64 0x20200#64)) (0 / 64)
        (0x20080#64 + BitVec.ofNat 64 0) 64 = .done bs s1 ∧
        farWrite s1 (entryReach { s with rounds := mapSet s.rounds 0 { ctx := 0, beats := 14 } } 0 0 (someEntry 0 64 0x20080#64 0x20200#64)) (0 / 64)
        (0x20200#64 + BitVec.ofNat 64 0) bs = .done () s2) ∧
    let s := chainState [] 1 [someEntry 0 64 0x1000000000000#64 0x20200#64]
    serves s 0 { ctx := 0, beats := 14 } ∧ FirstOf s (8 * 0 + 0) FarEntry.moving [] [] (someEntry 0 64 0x1000000000000#64 0x20200#64) ∧
      ∃ code a s1, farRead { s with rounds := mapSet s.rounds 0 { ctx := 0, beats := 14 } }
        (entryReach { s with rounds := mapSet s.rounds 0 { ctx := 0, beats := 14 } } 0 0 (someEntry 0 64 0x1000000000000#64 0x20200#64)) (0 / 64)
        (0x1000000000000#64 + BitVec.ofNat 64 0) 64 = .fail code a s1 := by
  have turn (e : FarEntry) (h : (mapGet (chainState [] 1 [e]).rounds 0).getD { ctx := 7, beats := 0 } = { ctx := 7, beats := 0 } ∧
      hasWork (chainState [] 1 [e]) 0 = true ∧ ((chainState [] 1 [e]).chain 0).weight = 15 ∧
      ((List.range 8).all fun c => c == 0 || !hasWork (chainState [] 1 [e]) c) = true) : serves (chainState [] 1 [e]) 0 { ctx := 0, beats := 14 } := by
    obtain ⟨h1, h2, h3, h4⟩ := h
    refine .inr ⟨by simp [h1], by decide, h2, by simp [h3], by simp [h3], fun c hc hw _ => ?_⟩
    have h5 : c = 0 := by
      simp only [List.all_eq_true, List.mem_range, Bool.or_eq_true, beq_iff_eq, Bool.not_eq_true'] at h4
      exact (h4 c hc).resolve_right (by simpa using hw)
    subst h5
    exact Nat.le_refl _
  refine ⟨⟨turn _ (by decide +kernel), by decide +kernel, firstOf_of (by decide +kernel) (by decide +kernel), ?_⟩,
    ⟨turn _ (by decide +kernel), firstOf_of (by decide +kernel) (by decide +kernel), ?_⟩,
    turn _ (by decide +kernel), firstOf_of (by decide +kernel) (by decide +kernel), ?_⟩
  · have h : farDone (farWrite { chainState [] 1 [someEntry 1 72 0x55#64 0x20200#64] with
        rounds := mapSet (chainState [] 1 [someEntry 1 72 0x55#64 0x20200#64]).rounds 0 { ctx := 0, beats := 14 } }
        (entryReach { chainState [] 1 [someEntry 1 72 0x55#64 0x20200#64] with
          rounds := mapSet (chainState [] 1 [someEntry 1 72 0x55#64 0x20200#64]).rounds 0 { ctx := 0, beats := 14 } } 0 0
          (someEntry 1 72 0x55#64 0x20200#64)) (0 / 64)
        (0x20200#64 + BitVec.ofNat 64 0) ((List.range 64).map fun i => BitVec.ofNat 8 ((0x55#64).toNat / 256 ^ ((0 + i) % 8)))) = true := by
      decide +kernel
    obtain ⟨⟨⟩, s1, h⟩ := farDone_of h
    exact ⟨s1, h⟩
  · have go {s0 : State} {r : Reach} {a b : Word64} (h : (match farRead s0 r (0 / 64) a 64 with
        | .done bs s1 => farDone (farWrite s1 r (0 / 64) b bs)
        | _ => false) = true) : ∃ bs s1 s2, farRead s0 r (0 / 64) a 64 = .done bs s1 ∧ farWrite s1 r (0 / 64) b bs = .done () s2 := by
      split at h
      next bs s1 hr =>
        obtain ⟨⟨⟩, s2, hw⟩ := farDone_of h
        exact ⟨bs, s1, s2, hr, hw⟩
      next => cases h
    exact go (by decide +kernel)
  · have go {s0 : State} {r : Reach} {a : Word64} (h : (match farRead s0 r (0 / 64) a 64 with
        | .fail _ _ _ => true
        | _ => false) = true) : ∃ code b s1, farRead s0 r (0 / 64) a 64 = .fail code b s1 := by
      split at h
      next code b s1 hr => exact ⟨code, b, s1, hr⟩
      next => cases h
    exact go (by decide +kernel)

/-- For `chains_perform`: the first entry is done, its completion word at hand, and not; with none, and counted by an advance. -/
theorem witness_entry_completes :
    (let e : FarEntry := { someEntry 1 8 0x55#64 0x20200#64 with done := true }
     let s := chainState [] 1 [e]
     (s.chain 0).entries = e :: [] ∧ e.done = true ∧ s.waitsFor (.far 0 e.id) = false ∧ e.completion ≠ 0#64 ∧ (s.ctx? e.ctx).isSome = true ∧
      ∃ s1, (s1.chain 0).entries = (s.chain 0).entries ∧ farWrite s (entryReach s 0 0 e) (0 / 64) e.completion (leBytes 8 (5#64).toNat) = .done () s1) ∧
    (let e : FarEntry := { someEntry 1 8 0x55#64 0x20200#64 with done := true, completion := 0x1000000000000#64 }
     let s := chainState [] 1 [e]
     (s.chain 0).entries = e :: [] ∧ e.done = true ∧ s.waitsFor (.far 0 e.id) = false ∧ e.completion ≠ 0#64 ∧ (s.ctx? e.ctx).isSome = true ∧
      ∃ code a s1, (s1.chain 0).entries = (s.chain 0).entries ∧
        farWrite s (entryReach s 0 0 e) (0 / 64) e.completion (leBytes 8 (5#64).toNat) = .fail code a s1) ∧
    ∀ left, left = 1 ∨ left = 2 →
      let e : FarEntry := { someEntry 1 8 0x55#64 0x20200#64 with done := true, completion := 0#64, fault := some 0x30 }
      let s := (chainState [] 1 [e]).modChain 0 fun c => { c with advances := [{ squad := 0, op := 3, left := left, clock := Clock.zero, epoch := 1 }] }
      (s.chain 0).entries = e :: [] ∧ e.done = true ∧ s.waitsFor (.far 0 e.id) = false ∧ e.completion = 0#64 ∧
        (s.chain 0).advances = [{ squad := 0, op := 3, left := left, clock := Clock.zero, epoch := 1 }] ∧ s.squad? 0 = some (s.squadOr 0) := by
  have fail (x : MemOut Unit) (es : List FarEntry) (h : (match x with
      | .fail _ _ s => decide ((s.chain 0).entries = es)
      | _ => false) = true) : ∃ c a s, (s.chain 0).entries = es ∧ x = .fail c a s := by
    cases x with
    | fail c a s => exact ⟨c, a, s, of_decide_eq_true h, rfl⟩
    | done v s => cases h
    | wait s => cases h
  have done (x : MemOut Unit) (es : List FarEntry) (h : (match x with
      | .done _ s => decide ((s.chain 0).entries = es)
      | _ => false) = true) : ∃ s, (s.chain 0).entries = es ∧ x = .done () s := by
    cases x with
    | done v s => exact ⟨s, of_decide_eq_true h, rfl⟩
    | fail c a s => cases h
    | wait s => cases h
  refine ⟨⟨by decide +kernel, rfl, by decide +kernel, by decide +kernel, by decide +kernel, ?_⟩,
    ⟨by decide +kernel, rfl, by decide +kernel, by decide +kernel, by decide +kernel, ?_⟩, ?_⟩
  · exact done _ _ (by decide +kernel)
  · exact fail _ _ (by decide +kernel)
  · rintro n (rfl | rfl) <;> decide +kernel

def someComm (count : Nat) : Comm := { slot := 0, count := count, list := List.replicate 16 0#8 }

/-- An all-gather of two participants, of 8 bytes each; a communicator of two ranks of this device. -/
def gather (rank : Nat) (comm : Option Comm) : FarEntry :=
  { someEntry 2 8 0x20200#64 0x20300#64 with id := 9 + rank, params := BitVec.ofNat 64 (0x0000050100050002 + rank * 2 ^ 24), comm := comm }
def farPeer (count : Nat) : Peer :=
  { rank := 0, op := 2, red := 0, format := 5, count := count, length := 8, listAgrees := true, source := List.replicate 8 1#8 }
def commState (es others : List FarEntry) : State :=
  let s := { chainState (entryBytes 0 2 0 0 0x20200 0x20300 0x0000050101050002 0 1) 1 es with comms := [(5, someComm 2)] }
  (s.modChain 1 fun c => { c with entries := others })

/-- The sources of some participants, as they are read. -/
def gathered : State → List Member → Option (List Peer × State)
  | s, [] => some ([], s)
  | s, m :: ms =>
    match farRead s (collReach s m.chain m.place m.entry) (m.chain / 64) m.entry.src (m.entry.collective.srcLen m.entry.length) with
    | .done bs s1 => (gathered s1 ms).map fun (own, s2) => (peerOf m m.entry.comm bs :: own, s2)
    | _ => none

theorem gathered_of : ∀ (ms : List Member) (s : State) (own : List Peer) (s1 : State), gathered s ms = some (own, s1) → Gathers s ms own s1
  | [], s, own, s1, h => by
    simp only [gathered, Option.some.injEq, Prod.mk.injEq] at h
    exact h.1 ▸ h.2 ▸ .none s
  | m :: ms, s, own, s1, h => by
    unfold gathered at h
    split at h
    next bs s2 hr =>
      cases hg : gathered s2 ms with
      | none => rw [hg] at h; cases h
      | some x =>
        rw [hg] at h
        simp only [Option.map_some, Option.some.injEq, Prod.mk.injEq] at h
        obtain ⟨rfl, rfl⟩ := h
        exact .one _ _ _ _ _ _ _ hr (gathered_of ms s2 x.1 x.2 hg)
    next => cases h

/-- Their destinations, as they are written. -/
def scattered (srcs : List (List Byte)) : State → List Member → Option State
  | s, [] => some s
  | s, m :: ms =>
    match farWrite s (collReach s m.chain m.place m.entry) (m.chain / 64) m.entry.dst (destOf m.entry.collective m.entry.length srcs) with
    | .done _ s1 => scattered srcs s1 ms
    | _ => none

theorem scattered_of (srcs : List (List Byte)) : ∀ (ms : List Member) (s s1 : State), scattered srcs s ms = some s1 → Scatters srcs s ms s1
  | [], s, s1, h => by
    simp only [scattered, Option.some.injEq] at h
    exact h ▸ .none s
  | m :: ms, s, s1, h => by
    unfold scattered at h
    split at h
    next s2 hr => exact .one _ _ _ _ _ hr (scattered_of srcs ms s2 s1 h)
    next => cases h

/-- An entry's chain once more peers have come, and the participants then: what `collectives_perform` speaks of. -/
def withPeers (s : State) (h : Nat) (e : FarEntry) (peers : List Peer) : State := s.modEntry h e.id fun x => { x with peers := x.peers ++ peers }
def theMembers (s : State) (h : Nat) (e : FarEntry) (peers : List Peer) : List Member :=
  members (withPeers s h e peers) (slotOf e.ctx) e.collective.comm
def allPeers (s : State) (h : Nat) (e : FarEntry) (peers : List Peer) : List Peer :=
  (theMembers s h e peers).map (fun m => peerOf m e.comm []) ++ (theMembers s h e peers).flatMap (·.entry.peers)

/-- The data of a collective is moved. -/
structure Moves (s : State) (h : Nat) (e : FarEntry) (peers : List Peer) (own : List Peer) (s1 s2 : State) : Prop where
  gathers : Gathers (withPeers s h e peers) (theMembers s h e peers) own s1
  scatters : Scatters (sourcesOf e.collective.n (own ++ (theMembers s h e peers).flatMap (·.entry.peers))) s1 (theMembers s h e peers) s2
  chains : s2.chains = (withPeers s h e peers).chains

def moves (s : State) (h : Nat) (e : FarEntry) (peers : List Peer) : Bool :=
  match gathered (withPeers s h e peers) (theMembers s h e peers) with
  | some (own, s1) =>
    match scattered (sourcesOf e.collective.n (own ++ (theMembers s h e peers).flatMap (·.entry.peers))) s1 (theMembers s h e peers) with
    | some s2 => decide (s2.chains = (withPeers s h e peers).chains)
    | none => false
  | none => false

theorem moves_of {s : State} {h : Nat} {e : FarEntry} {peers : List Peer} (hm : moves s h e peers = true) : ∃ own s1 s2, Moves s h e peers own s1 s2 := by
  unfold moves at hm
  split at hm
  next own s1 hg =>
    split at hm
    next s2 hs => exact ⟨own, s1, s2, gathered_of _ _ _ _ hg, scattered_of _ _ _ _ hs, of_decide_eq_true hm⟩
    next => cases hm
  next => cases hm

/-- Participants of two devices agree in these states. -/
theorem agree_of {s : State} {slot : Nat} {e : FarEntry} {all : List Peer} {c : Comm} (hc : e.comm = some c)
    (h : (c.count = e.collective.count + 1 ∧ e.collective.op ≤ 3 ∧ 2 ≤ e.collective.op ∧ (e.collective.format = 4 → e.length % 4 = 0) ∧
      (e.collective.format = 5 ∨ e.collective.format = 6 → e.length % 2 = 0) ∧ all.length = e.collective.count + 1) ∧
      ((List.range (e.collective.count + 1)).all fun k => all.any (·.rank == k)) = true ∧
      ((List.range (e.collective.count + 1)).all fun k => leField c.list (8 * k) 1 % 64 == s.podNumber) = true ∧
      (all.all fun x => decide (x.op = e.collective.op ∧ x.red = e.collective.red ∧ x.format = e.collective.format ∧
        x.count = e.collective.count ∧ x.length = e.length ∧ x.listAgrees = true)) = true) : Agree s slot e all := by
  obtain ⟨⟨h1, h2, h3, h4, h5, h6⟩, h7, h8, h9⟩ := h
  simp only [List.all_eq_true, List.mem_range, List.any_eq_true, beq_iff_eq, decide_eq_true_eq] at h7 h8 h9
  exact ⟨c, hc, h1, h2, fun h => absurd h (by omega), h4, h5, h6, fun k hk => h7 k (by omega), fun k hk h => absurd (h8 k (by omega)) h, h9⟩

/-- For `collectives_perform`: an entry that waits for a rank, with the communicator and without. -/
theorem witness_collectives_wait :
    (let e := gather 0 (some (someComm 2))
     let s := commState [e] []
     GoesOn s 0 FarEntry.joining [] [] e ∧ e.comm = some (someComm 2) ∧ 1 ≤ e.collective.count ∧
       leField (someComm 2).list (8 * 1) 1 % 64 = s.podNumber ∧ (∀ m ∈ theMembers s 0 e [], m.entry.collective.rank ≠ 1) ∧
       (theMembers s 0 e []).length ≤ e.collective.count) ∧
    GoesOn (commState [gather 0 none] []) 0 FarEntry.joining [] [] (gather 0 none) ∧ (gather 0 none).comm = none := by
  exact ⟨⟨goesOn_of (by decide +kernel), rfl, by decide +kernel, by decide +kernel, by decide +kernel, by decide +kernel⟩,
    goesOn_of (by decide +kernel), rfl⟩

def pairGather : FarEntry := gather 0 (some (someComm 2))
def gatherState : State := commState [pairGather] [gather 1 (some (someComm 2))]

theorem gather_moves : moves gatherState 0 pairGather [] = true := by decide +kernel

theorem gather_entries : ((theMembers gatherState 0 pairGather []).all fun m =>
    ((withPeers gatherState 0 pairGather []).chain m.chain).entries.all fun x => x == m.entry) = true := by
  decide +kernel

theorem pair_agrees :
    let all := allPeers gatherState 0 pairGather []
    ((someComm 2).count = pairGather.collective.count + 1 ∧ pairGather.collective.op ≤ 3 ∧ 2 ≤ pairGather.collective.op ∧
      (pairGather.collective.format = 4 → pairGather.length % 4 = 0) ∧
      (pairGather.collective.format = 5 ∨ pairGather.collective.format = 6 → pairGather.length % 2 = 0) ∧
      all.length = pairGather.collective.count + 1) ∧
    ((List.range (pairGather.collective.count + 1)).all fun k => all.any (·.rank == k)) = true ∧
    ((List.range (pairGather.collective.count + 1)).all fun k =>
      leField (someComm 2).list (8 * k) 1 % 64 == (withPeers gatherState 0 pairGather []).podNumber) = true ∧
    (all.all fun x => decide (x.op = pairGather.collective.op ∧ x.red = pairGather.collective.red ∧ x.format = pairGather.collective.format ∧
      x.count = pairGather.collective.count ∧ x.length = pairGather.length ∧ x.listAgrees = true)) = true := by
  decide +kernel

/-- For `collectives_perform`: two participants of this device that agree and move their bytes. -/
theorem witness_collectives_move :
    GoesOn gatherState 0 FarEntry.joining [] [] pairGather ∧
    (∀ k, k ≤ pairGather.collective.count → ∃ m ∈ theMembers gatherState 0 pairGather [], m.entry.collective.rank = k) ∧
    Agree (withPeers gatherState 0 pairGather []) (slotOf pairGather.ctx) pairGather (allPeers gatherState 0 pairGather []) ∧
    (∃ own s1 s2, Moves gatherState 0 pairGather [] own s1 s2) ∧
    ∀ m ∈ theMembers gatherState 0 pairGather [], ∀ x ∈ ((withPeers gatherState 0 pairGather []).chain m.chain).entries, x.id = m.entry.id → x = m.entry := by
  have hg : (gatherState.chain 0).entries = [pairGather] ∧ pairGather.joining = true ∧ gatherState.waitsFor (.far 0 pairGather.id) = false := by
    decide +kernel
  have hb := gather_entries
  simp only [List.all_eq_true, beq_iff_eq] at hb
  have hi (m : Member) (hm : m ∈ theMembers gatherState 0 pairGather []) (x : FarEntry)
      (hx : x ∈ ((withPeers gatherState 0 pairGather []).chain m.chain).entries) (_ : x.id = m.entry.id) : x = m.entry := hb m hm x hx
  refine ⟨goesOn_of hg, ?_, agree_of rfl pair_agrees, moves_of gather_moves, hi⟩
  intro k hk
  have h2 : pairGather.collective.count = 1 := by decide +kernel
  rw [h2] at hk
  obtain rfl | rfl : k = 0 ∨ k = 1 := by omega
  all_goals decide +kernel

def wrongGather : FarEntry := gather 0 (some (someComm 3))

/-- For `collectives_perform`: a communicator of another length, all its peers come. -/
theorem witness_collectives_disagree :
    let s := commState [wrongGather] []
    GoesOn s 0 FarEntry.joining [] [] wrongGather ∧ wrongGather.collective.count < (allPeers s 0 wrongGather [farPeer 1, farPeer 1]).length ∧
      ¬Agree (withPeers s 0 wrongGather [farPeer 1, farPeer 1]) (slotOf wrongGather.ctx) wrongGather (allPeers s 0 wrongGather [farPeer 1, farPeer 1]) := by
  refine ⟨goesOn_of (by decide +kernel), by decide +kernel, ?_⟩
  rintro ⟨c, hc, hn, -⟩
  cases hc
  exact absurd hn (by decide +kernel)

/-- For `collectives_perform`: an entry of no bytes, one that begins and is performed; values; a kill; a link that crosses and one that does not. -/
theorem witness_collectives_perform :
    (∃ e next s1, EntryNext (commState [] []) 0 e next s1 ∧ e.kind = 2 ∧ e.length = 0 ∧ ∀ x ∈ ((commState [] []).chain 0).entries, x.joining = false) ∧
    (∃ e next s1, let s := (commState [] []).writePhysN 1 0x190040 (entryBytes 0 2 0 8 0x20200 0x20300 0x0000050101050002 0 1)
      EntryNext s 0 e next s1 ∧ e.kind = 2 ∧ e.length ≠ 0 ∧ (∀ x ∈ (s.chain 0).entries, x.joining = false) ∧
      let e' : FarEntry := { e with comm := mapGet s1.comms (slotOf e.ctx * 2 ^ 24 + e.collective.comm) }
      GoesOn (beginEntry s1 0 e' next) 0 FarEntry.joining (s1.chain 0).entries [] e') ∧
    (∀ op, op = 1 ∨ op = 2 ∨ op = 3 →
      let p : Params := { comm := 5, count := 1, rank := 1, format := 4, red := 0, op := op }
      let srcs := if op = 2 then [List.replicate 8 1#8, List.replicate 8 2#8] else [List.replicate 16 1#8, List.replicate 16 2#8]
      srcs.length = p.n ∧ (∀ b ∈ srcs, b.length = p.srcLen 8) ∧ p.rank < p.n ∧ p.fmt = some fp32 ∧ 8 % p.size = 0) ∧
    (let e := gather 1 (some (someComm 2))
     FirstOf (commState [e] []) 0 FarEntry.joining [] [] e ∧ 0 ≠ e.collective.rank ∧ 0 ≤ e.collective.count ∧ mapSorted (commState [e] []).chains = true ∧
       (∀ c ∈ (commState [e] []).chains, ∀ x ∈ c.2.entries, ¬(x.joining = true ∧ crosses (commState [e] []) x 11 = true))) ∧
    (let e := gather 1 (some { someComm 2 with list := leBytes 8 1 ++ leBytes 8 0 })
     let s := { (commState [e] []).modPart 0 fun p => { p with fabid := 7, floe := 0xFFF#12 } with
       routes := [(1, { fabid := 7, device := 1, ports := 0x800#12 })] }
     FirstOf s 0 FarEntry.joining [] [] e ∧ crosses s e 11 = true ∧ s.chainOwner 0 = some (slotOf e.ctx) ∧ e.length ≠ 0) := by
  refine ⟨?_, ?_, ?_, ⟨firstOf_of (by decide +kernel) (by decide +kernel), by decide +kernel, by decide +kernel, by decide +kernel, by decide +kernel⟩,
    firstOf_of (by decide +kernel) (by decide +kernel), by decide +kernel, by decide +kernel, by decide +kernel⟩
  · obtain ⟨e, next, s1, h, hp⟩ := entryNext_of (s := commState [] []) (h := 0) (p := fun e _ _ => decide (e.kind = 2 ∧ e.length = 0)) (by decide +kernel)
    have he : ((commState [] []).chain 0).entries = [] := by decide +kernel
    exact ⟨e, next, s1, h, (of_decide_eq_true hp).1, (of_decide_eq_true hp).2, by rw [he]; simp⟩
  · obtain ⟨e, next, s1, h, hp⟩ := entryNext_of
      (s := (commState [] []).writePhysN 1 0x190040 (entryBytes 0 2 0 8 0x20200 0x20300 0x0000050101050002 0 1)) (h := 0)
      (p := fun e next s1 => let e' : FarEntry := { e with comm := mapGet s1.comms (slotOf e.ctx * 2 ^ 24 + e.collective.comm) }
        decide (e.kind = 2 ∧ e.length ≠ 0 ∧ (s1.chain 0).entries = [] ∧ e'.joining = true ∧ ((beginEntry s1 0 e' next).chain 0).entries = [e'] ∧
          (beginEntry s1 0 e' next).waitsFor (.far 0 e'.id) = false)) (by decide +kernel)
    obtain ⟨h1, h2, h3, h4, h5, h6⟩ := of_decide_eq_true hp
    have he : (((commState [] []).writePhysN 1 0x190040 (entryBytes 0 2 0 8 0x20200 0x20300 0x0000050101050002 0 1)).chain 0).entries = [] := by
      decide +kernel
    exact ⟨e, next, s1, h, h1, h2, by rw [he]; simp, ⟨by simpa [h3] using h5, by simp [h3], h4⟩, by simp [h3], h6⟩
  · rintro op (rfl | rfl | rfl) <;> exact ⟨by decide +kernel, by decide +kernel, by decide +kernel, rfl, by decide +kernel⟩

/-! ### Pages and power -/

/-- Page-table entries for the virtual pages 3 (of a size its level does not have), 4 (readable alone) and 5 (a table where none may be). -/
def pageState : State :=
  let put (m : Memory) (a v : Nat) : Memory := memWriteN m a (leBytes 8 v)
  { desk with mem := put (put (put desk.mem 0x160018 0x18005F) 0x160020 0x180013) 0x160028 0x180001 }

theorem comesToLast {s : State} {va : Nat} (h : (walkable s 0x100000 ∧ (pageEntry s 1 0x100000 va).testBit 0 = true ∧
      (pageEntry s 1 0x100000 va).testBit 4 = false ∧ 0x140000 = pageFrame (pageEntry s 1 0x100000 va)) ∧
    (walkable s 0x140000 ∧ (pageEntry s 2 0x140000 va).testBit 0 = true ∧ (pageEntry s 2 0x140000 va).testBit 4 = false ∧
      0x150000 = pageFrame (pageEntry s 2 0x140000 va)) ∧
    (walkable s 0x150000 ∧ (pageEntry s 3 0x150000 va).testBit 0 = true ∧ (pageEntry s 3 0x150000 va).testBit 4 = false ∧
      0x160000 = pageFrame (pageEntry s 3 0x150000 va))) : comesTo s 0x100000 va 4 0x160000 :=
  ⟨0x150000, ⟨0x140000, ⟨0x100000, rfl, h.1⟩, h.2.1⟩, h.2.2⟩

/-- For `page_walks`: each way a walk ends. -/
theorem witness_page_walks :
    (∃ c, pageState.ctx? 0 = some c ∧ c.ptroot.toNat = 0x100000) ∧
    (∀ va, va = 0 ∨ va = 0x10000 ∨ va = 0x30000 ∨ va = 0x40000 ∨ va = 0x50000 → comesTo pageState 0x100000 va 4 0x160000) ∧
    walkable pageState 0x160000 ∧ (pageEntry pageState 4 0x160000 0).testBit 0 = false ∧
    ((pageEntry pageState 4 0x160000 0x10000).testBit 0 = true ∧ (pageEntry pageState 4 0x160000 0x10000).testBit 4 = true ∧
      pageEntry pageState 4 0x160000 0x10000 / 2 ^ 6 % 4 = 4 - 4 ∧ pageFrame (pageEntry pageState 4 0x160000 0x10000) % 2 ^ pageShift 4 = 0 ∧
      (pageEntry pageState 4 0x160000 0x10000).testBit 3 = true) ∧
    ((pageEntry pageState 4 0x160000 0x30000).testBit 4 = true ∧ pageEntry pageState 4 0x160000 0x30000 / 2 ^ 6 % 4 ≠ 4 - 4) ∧
    ((pageEntry pageState 4 0x160000 0x40000).testBit 4 = true ∧ (pageEntry pageState 4 0x160000 0x40000).testBit 2 = false) ∧
    ((pageEntry pageState 4 0x160000 0x50000).testBit 0 = true ∧ (pageEntry pageState 4 0x160000 0x50000).testBit 4 = false) ∧
    (comesTo desk (2 ^ 51) 0 1 (2 ^ 51) ∧ ¬walkable desk (2 ^ 51)) := by
  have d (s : State) (t : Nat) : Decidable (walkable s t) := by unfold walkable; infer_instance
  refine ⟨?_, ?_, ?_, by decide +kernel, by decide +kernel, by decide +kernel, by decide +kernel, by decide +kernel, rfl, ?_⟩
  · obtain ⟨c, hc, hd⟩ := ex_some (x := pageState.ctx? 0) (p := fun c => c.ptroot.toNat == 0x100000) (by decide +kernel)
    exact ⟨c, hc, eq_of_beq hd⟩
  · rintro va (rfl | rfl | rfl | rfl | rfl) <;> refine comesToLast ?_ <;> unfold walkable <;> decide +kernel
  · unfold walkable
    decide +kernel
  · unfold walkable
    decide +kernel

/-- A page request of a far context for the word at 0x60000, whose table entry is not valid, in a range filled on demand. -/
def someRange : DemandRange := { start := 0x60000, len := 0x10000, key := 63, watch := true }
def someRequest : PageReq :=
  { va := 0x60000, ctx := 0, slot := 0, kind := 1, requester := 0x8000, entryAddr := 0x160030, level := 4, outcome := 1, assisted := false,
    range := some someRange, waiters := [.far 0 9] }
def requestState (pool : List Nat) : State :=
  { ((desk.modCtx 0 fun c => { c with demand := [someRange] }).modPart 0 fun p => { p with pool := pool }) with requests := [(5, someRequest)] }

theorem ok_of {x : Except WalkFail Leaf × State} {p : Leaf → State → Bool} (h : (match x with
    | (.ok l, s1) => p l s1
    | _ => false) = true) : ∃ l s1, x = (.ok l, s1) ∧ p l s1 = true := by
  split at h
  next l s1 => exact ⟨l, s1, rfl, h⟩
  next => cases h

theorem error_of {x : Except WalkFail Leaf × State} {p : WalkFail → State → Bool} (h : (match x with
    | (.error f, s1) => p f s1
    | _ => false) = true) : ∃ f s1, x = (.error f, s1) ∧ p f s1 = true := by
  split at h
  next f s1 => exact ⟨f, s1, rfl, h⟩
  next => cases h

def squadCache : Cache := { cluster := 0, use := .data }

/-- For `pages_are_served`: an address that no entry covers, one whose entry grants and agrees with a walk, one whose entry does not grant; a
request that stands already, one with no entry left, a new one. -/
theorem witness_translations :
    (desk.tlb.find? (·.covers squadCache 0 0x20000) = none) ∧
    (∃ e, (stackState 0).tlb.find? (·.covers squadCache 0 0x20000) = some e ∧ (e.leaf 0x20000).grants .read = true ∧
      walk (stackState 0) 0 0x20000 .read = .ok (e.leaf 0x20000)) ∧
    (∃ e, ({ desk with tlb := [{ stackLeaf 0 with w := false }.cached squadCache 0 0x20000] } : State).tlb.find? (·.covers squadCache 0 0x20000) =
      some e ∧ (e.leaf 0x20000).grants .write = false) ∧
    ((requestState []).requests.find? (fun x => x.2.ctx == 0 && x.2.va / 65536 == 0x60000 / 65536 && x.2.kind == 1) = some (5, someRequest) ∧
      Walker.far 0 3 ∉ someRequest.waiters) ∧
    (let full : State := { desk with requests := ((List.range 32) ++ (List.range 256).map (512 + ·)).map fun i => (i, { someRequest with va := i * 65536 + 2 ^ 40 }) }
     full.requests.find? (fun x => x.2.ctx == 0 && x.2.va / 65536 == 0x60000 / 65536 && x.2.kind == 1) = none ∧ full.freeEntry (slotOf 0) = none) ∧
    (desk.requests.find? (fun x => x.2.ctx == 0 && x.2.va / 65536 == 0x60000 / 65536 && x.2.kind == 1) = none ∧
      desk.freeEntry (slotOf 0) = some 0 ∧ (desk.ctx? 0).isSome = true ∧ desk.firmware.assisted.getD 0 false = false) := by
  refine ⟨by decide +kernel, ⟨(stackLeaf 0).cached squadCache 0 0x20000, by decide +kernel, by decide +kernel, ?_⟩,
    ⟨{ stackLeaf 0 with w := false }.cached squadCache 0 0x20000, by decide +kernel, by decide +kernel⟩, by decide +kernel, by decide +kernel,
    by decide +kernel⟩
  have go {w : Except WalkFail Leaf} {l : Leaf} (h : (w.toOption == some l) = true) : w = .ok l := by
    cases w with
    | error f => cases h
    | ok l' => simpa [Except.toOption] using h
  exact go (by decide +kernel)

/-- For `pages_are_served`: a far context's walk that ends well, one that becomes a request. -/
theorem witness_far_walks :
    (let s := { chainState [] 1 [someEntry 0 64 0x20080#64 0x20200#64] with tlb := [] }
     farTarget s 0 9 = some (0, 0x20080#64, false) ∧ (0x20080#64).msb = false ∧ (0x20080#64).toNat < 2 ^ 48 ∧ s.waitsFor (.far 0 9) = false ∧
      .far 0 9 ∉ s.refused ∧
      ∃ l s1, translate s (farReach 0 9 0).cache 0 (0x20080#64).toNat .read = (.ok l, s1) ∧ s1.backs (slotOf 0) l.pa = true ∧
        s1.keyOk (slotOf 0) l = true) ∧
    (let s := { chainState [] 1 [someEntry 1 64 0x20080#64 0x60000#64] with tlb := [] }
     farTarget s 0 9 = some (0, 0x60000#64, true) ∧ s.waitsFor (.far 0 9) = false ∧ .far 0 9 ∉ s.refused ∧
      ∃ f s1, translate s (farReach 0 9 0).cache 0 (0x60000#64).toNat .write = (.error f, s1)) := by
  refine ⟨⟨by decide +kernel, by decide, by decide, by decide +kernel, by decide +kernel, ?_⟩, by decide +kernel, by decide +kernel, by decide +kernel, ?_⟩
  · obtain ⟨l, s1, h, hp⟩ := ok_of (x := translate { chainState [] 1 [someEntry 0 64 0x20080#64 0x20200#64] with tlb := [] } (farReach 0 9 0).cache 0
      (0x20080#64).toNat .read) (p := fun l s1 => decide (s1.backs (slotOf 0) l.pa = true ∧ s1.keyOk (slotOf 0) l = true)) (by decide +kernel)
    exact ⟨l, s1, h, of_decide_eq_true hp⟩
  · obtain ⟨f, s1, h, -⟩ := error_of (x := translate { chainState [] 1 [someEntry 1 64 0x20080#64 0x60000#64] with tlb := [] } (farReach 0 9 0).cache 0
      (0x60000#64).toNat .write) (p := fun _ _ => true) (by decide +kernel)
    exact ⟨f, s1, h⟩

/-- The copy whose source lies at a virtual address of main memory, its pages not at hand. -/
def copyFrom (base : Nat) : Copy := { someCopy with src := tensorOf base 0 4 16 1 64 }

/-- For `pages_are_served`: a copy's piece whose page is found, whose page becomes a request, and that lies outside the space; a page with no
memory behind it and one under another's key. -/
theorem witness_copy_walks :
    (let s := copyState someCopy
     s.findCopy 9 = some (0, someCopy) ∧ someCopy.open_ s 0 = true ∧ (∀ x ∈ someCopy.issued, x.piece ≠ 0) ∧
       ∃ ps s1, piecePages s 0 someCopy 0 = .ok ps s1 ∧ ps ≠ []) ∧
    (let s := copyState (copyFrom 0x60000)
     s.findCopy 9 = some (0, copyFrom 0x60000) ∧ (copyFrom 0x60000).open_ s 0 = true ∧ ∃ s1, piecePages s 0 (copyFrom 0x60000) 0 = .wait s1) ∧
    (let s := copyState (copyFrom (2 ^ 48))
     s.findCopy 9 = some (0, copyFrom (2 ^ 48)) ∧ (copyFrom (2 ^ 48)).open_ s 0 = true ∧ (copyFrom (2 ^ 48)).broken = [] ∧
       ∃ f s1, piecePages s 0 (copyFrom (2 ^ 48)) 0 = .bad f s1) ∧
    (∃ f s1, translate farPages squadCache 0 0x60000 .read = (.error f, s1)) ∧
    (∃ l s1, translate farPages squadCache 0 0x70000 .read = (.ok l, s1) ∧ s1.backs (slotOf 0) l.pa = false) ∧
    (∃ l s1, translate farPages squadCache 0 0x80000 .read = (.ok l, s1) ∧ s1.backs (slotOf 0) l.pa = true ∧ s1.keyOk (slotOf 0) l = false) ∧
    ∃ l s1, translate farPages squadCache 0 0x20000 .read = (.ok l, s1) ∧ s1.backs (slotOf 0) l.pa = true ∧ s1.keyOk (slotOf 0) l = true := by
  have ok (x : PageOut) (h : (match x with
      | .ok ps _ => !ps.isEmpty
      | _ => false) = true) : ∃ ps s1, x = .ok ps s1 ∧ ps ≠ [] := by
    cases x with
    | ok ps s => exact ⟨ps, s, rfl, by simpa using h⟩
    | wait s => cases h
    | bad f s => cases h
  have wait (x : PageOut) (h : (match x with
      | .wait _ => true
      | _ => false) = true) : ∃ s1, x = .wait s1 := by
    cases x with
    | wait s => exact ⟨s, rfl⟩
    | ok ps s => cases h
    | bad f s => cases h
  have bad (x : PageOut) (h : (match x with
      | .bad _ _ => true
      | _ => false) = true) : ∃ f s1, x = .bad f s1 := by
    cases x with
    | bad f s => exact ⟨f, s, rfl⟩
    | ok ps s => cases h
    | wait s => cases h
  refine ⟨⟨by decide +kernel, by decide +kernel, by decide +kernel, ok _ (by decide +kernel)⟩,
    ⟨by decide +kernel, by decide +kernel, wait _ (by decide +kernel)⟩, ⟨by decide +kernel, by decide +kernel, rfl, bad _ (by decide +kernel)⟩, ?_, ?_, ?_, ?_⟩
  · obtain ⟨f, s1, h, -⟩ := error_of (x := translate farPages squadCache 0 0x60000 .read) (p := fun _ _ => true) (by decide +kernel)
    exact ⟨f, s1, h⟩
  · obtain ⟨l, s1, h, hp⟩ := ok_of (x := translate farPages squadCache 0 0x70000 .read) (p := fun l s1 => decide (s1.backs (slotOf 0) l.pa = false))
      (by decide +kernel)
    exact ⟨l, s1, h, of_decide_eq_true hp⟩
  · obtain ⟨l, s1, h, hp⟩ := ok_of (x := translate farPages squadCache 0 0x80000 .read)
      (p := fun l s1 => decide (s1.backs (slotOf 0) l.pa = true ∧ s1.keyOk (slotOf 0) l = false)) (by decide +kernel)
    exact ⟨l, s1, h, of_decide_eq_true hp⟩
  · obtain ⟨l, s1, h, hp⟩ := ok_of (x := translate farPages squadCache 0 0x20000 .read)
      (p := fun l s1 => decide (s1.backs (slotOf 0) l.pa = true ∧ s1.keyOk (slotOf 0) l = true)) (by decide +kernel)
    exact ⟨l, s1, h, of_decide_eq_true hp⟩

/-- The squad with its lanes at an address, and page 4 readable alone. -/
def fetchingAt (pc : Nat) : State :=
  let s := deskWith fun q => q.onLanes (BitVec.allOnes 32) fun l => { l with pc := BitVec.ofNat 64 pc }
  { s with mem := memWriteN s.mem 0x160020 (leBytes 8 0x180013) }

/-- For `pages_are_served`: a fetch whose page is found, one whose page may not be executed, one that becomes a request. -/
theorem witness_fetch_walks :
    (∀ pc, pc = 0x10000 ∨ pc = 0x40000 ∨ pc = 0x60000 → ∃ q, let s := fetchingAt pc
      s.squad? 0 = some q ∧ q.residency = .resident ∧ (q.lane 0).issuable = true ∧ (q.lane 0).pc.toNat < 2 ^ 48 ∧
        (q.lane 0).pc = BitVec.ofNat 64 pc ∧ s.coreOf q = 0 ∧ s.ctxOf q = 0 ∧ s.waitsFor (.fetch 0 0) = false) ∧
    (∃ l s1, translate (fetchingAt 0x10000) { cluster := 0, use := .fetch } 0 0x10000 .fetch = (.ok l, s1)) ∧
    (∃ f s1, translate (fetchingAt 0x40000) { cluster := 0, use := .fetch } 0 0x40000 .fetch = (.error f, s1) ∧ f.outcome ≠ 1) ∧
    ∃ f s1, translate (fetchingAt 0x60000) { cluster := 0, use := .fetch } 0 0x60000 .fetch = (.error f, s1) ∧ f.outcome = 1 ∧
      ∃ q2, (s1.request 0x60000 0 2 0 f (.fetch 0 0)).squad? 0 = some q2 ∧ fetchesWith q2 0 (BitVec.allOnes 32) := by
  refine ⟨?_, ?_, ?_, ?_⟩
  · rintro pc (rfl | rfl | rfl)
    · exact ⟨(fetchingAt 0x10000).squadOr 0, by decide +kernel⟩
    · exact ⟨(fetchingAt 0x40000).squadOr 0, by decide +kernel⟩
    · exact ⟨(fetchingAt 0x60000).squadOr 0, by decide +kernel⟩
  · obtain ⟨l, s1, h, -⟩ := ok_of (x := translate (fetchingAt 0x10000) { cluster := 0, use := .fetch } 0 0x10000 .fetch) (p := fun _ _ => true)
      (by decide +kernel)
    exact ⟨l, s1, h⟩
  · obtain ⟨f, s1, h, hp⟩ := error_of (x := translate (fetchingAt 0x40000) { cluster := 0, use := .fetch } 0 0x40000 .fetch)
      (p := fun f _ => decide (f.outcome ≠ 1)) (by decide +kernel)
    exact ⟨f, s1, h, of_decide_eq_true hp⟩
  · obtain ⟨f, s1, h, hp⟩ := error_of (x := translate (fetchingAt 0x60000) { cluster := 0, use := .fetch } 0 0x60000 .fetch)
      (p := fun f s1 => decide (f.outcome = 1) && ((s1.request 0x60000 0 2 0 f (.fetch 0 0)).squad? 0).any fun q => (List.range 32).all fun L =>
        (q.lane L).issuable && (q.lane L).pc == (q.lane 0).pc && (q.lane L).handler == (q.lane 0).handler) (by decide +kernel)
    simp only [Bool.and_eq_true, decide_eq_true_eq] at hp
    obtain ⟨q2, hq, hp2⟩ := ex_some hp.2
    simp only [List.all_eq_true, List.mem_range, Bool.and_eq_true, beq_iff_eq] at hp2
    exact ⟨f, s1, h, hp.1, q2, hq, fun L hL => ⟨fun _ => ⟨(hp2 L hL).1.1, (hp2 L hL).1.2, (hp2 L hL).2⟩, fun _ => by rw [BitVec.getLsbD_allOnes]; simpa using hL⟩⟩

/-- The squad with its spill stack at a virtual address. -/
def spillingAt (base : Nat) (s : State) : State := s.modSquad 0 fun q => { q with spBase := BitVec.ofNat 64 base }
def readOnlyPages : State := { farPages with mem := memWriteN farPages.mem 0x160020 (leBytes 8 0x180013) }

/-- For `pages_are_served`: the spill stack's page is found, is not valid, may not be written, has no memory behind it, holds lost data. -/
theorem witness_spill_walks :
    (∀ base, base = 0x20000 ∨ base = 0x40000 ∨ base = 0x60000 ∨ base = 0x70000 → ∃ q, let s := spillingAt base readOnlyPages
      s.squad? 0 = some q ∧ s.waitsFor (.spill 0 0x6000) = false ∧ (q.spBase.toNat + 0x6000) % 2 ^ 64 = base + 0x6000 ∧ base + 0x6000 < 2 ^ 48 ∧
        s.coreOf q = 0 ∧ s.ctxOf q = 0) ∧
    (∃ f s1, translate (spillingAt 0x60000 readOnlyPages) squadCache 0 0x66000 .both = (.error f, s1) ∧ f.outcome = 1) ∧
    (∃ f s1, translate (spillingAt 0x40000 readOnlyPages) squadCache 0 0x46000 .both = (.error f, s1) ∧ f.outcome ≠ 1) ∧
    (∃ l s1, translate (spillingAt 0x70000 readOnlyPages) squadCache 0 0x76000 .both = (.ok l, s1) ∧ s1.backs (slotOf 0) l.pa = false) ∧
    (∃ l s1, translate (spillingAt 0x20000 readOnlyPages) squadCache 0 0x26000 .both = (.ok l, s1) ∧ s1.backs (slotOf 0) l.pa = true ∧
      s1.keyOk (slotOf 0) l = true) ∧
    (let s := spillingAt 0x20000 { readOnlyPages with spoiled := [0x196000 / 32] }
     ∃ l s1, 8 ≤ 65536 - (0x20000 + 0x6000) % 65536 ∧ spillLeaf s 0 (s.squadOr 0) 0x6000 = .done l s1 ∧ s1.sound l.pa 8 = false) := by
  refine ⟨?_, ?_, ?_, ?_, ?_, ?_⟩
  · rintro b (rfl | rfl | rfl | rfl)
    · exact ⟨(spillingAt 0x20000 readOnlyPages).squadOr 0, by decide +kernel⟩
    · exact ⟨(spillingAt 0x40000 readOnlyPages).squadOr 0, by decide +kernel⟩
    · exact ⟨(spillingAt 0x60000 readOnlyPages).squadOr 0, by decide +kernel⟩
    · exact ⟨(spillingAt 0x70000 readOnlyPages).squadOr 0, by decide +kernel⟩
  · obtain ⟨f, s1, h, hp⟩ := error_of (x := translate (spillingAt 0x60000 readOnlyPages) squadCache 0 0x66000 .both)
      (p := fun f _ => decide (f.outcome = 1)) (by decide +kernel)
    exact ⟨f, s1, h, of_decide_eq_true hp⟩
  · obtain ⟨f, s1, h, hp⟩ := error_of (x := translate (spillingAt 0x40000 readOnlyPages) squadCache 0 0x46000 .both)
      (p := fun f _ => decide (f.outcome ≠ 1)) (by decide +kernel)
    exact ⟨f, s1, h, of_decide_eq_true hp⟩
  · obtain ⟨l, s1, h, hp⟩ := ok_of (x := translate (spillingAt 0x70000 readOnlyPages) squadCache 0 0x76000 .both)
      (p := fun l s1 => decide (s1.backs (slotOf 0) l.pa = false)) (by decide +kernel)
    exact ⟨l, s1, h, of_decide_eq_true hp⟩
  · obtain ⟨l, s1, h, hp⟩ := ok_of (x := translate (spillingAt 0x20000 readOnlyPages) squadCache 0 0x26000 .both)
      (p := fun l s1 => decide (s1.backs (slotOf 0) l.pa = true ∧ s1.keyOk (slotOf 0) l = true)) (by decide +kernel)
    exact ⟨l, s1, h, of_decide_eq_true hp⟩
  · have go (x : SpillOut Leaf) (h : (match x with
        | .done l s1 => decide (s1.sound l.pa 8 = false)
        | _ => false) = true) : ∃ l s1, x = .done l s1 ∧ s1.sound l.pa 8 = false := by
      split at h
      next l s => exact ⟨l, s, rfl, of_decide_eq_true h⟩
      next => cases h
    obtain ⟨l, s1, h⟩ := go (spillLeaf (spillingAt 0x20000 { readOnlyPages with spoiled := [0x196000 / 32] }) 0
      ((spillingAt 0x20000 { readOnlyPages with spoiled := [0x196000 / 32] }).squadOr 0) 0x6000) (by decide +kernel)
    exact ⟨l, s1, by decide, h⟩

/-- For `pages_are_served`: a request that is filled; requests that fail, each kind of walker waiting. -/
theorem witness_service :
    (mapGet (requestState [0x1B0000]).requests 5 = some someRequest ∧ ((requestState [0x1B0000]).part someRequest.slot).pool = [0x1B0000]) ∧
    (mapGet (requestState []).requests 5 = some someRequest ∧ ((requestState []).part someRequest.slot).pool = []) ∧
    (∀ w, w = Walker.far 0 9 ∨ w = .grid 7 1 ∨ w = .spill 0 0x6000 ∨ w = .copy 9 0 ∨ w = .fetch 0 0 →
      let r : PageReq := { someRequest with range := none, waiters := [w] }
      mapGet ({ copyState (copyFrom 0x60000) with requests := [(5, r)] } : State).requests 5 = some r) ∧
    (withoutRequest { copyState (copyFrom 0x60000) with requests := [(5, someRequest)] } 5).findCopy 9 = some (0, copyFrom 0x60000) ∧
    ∃ q, let s := (fetchingAt 0x60000).modSquad 0 fun q => q.onLanes (BitVec.allOnes 32) fun l => { l with wait := .page }
      (withoutRequest s 5).squad? 0 = some q ∧ (q.lane 0).wait = .page ∧ q.glide = none ∧
        ∀ L, L < 32 → ((BitVec.allOnes 32).getLsbD L = true ↔ (q.lane L).issuable = true ∧ (q.lane L).wait = .page ∧ (q.lane L).pc = (q.lane 0).pc ∧
          (q.lane L).handler = (q.lane 0).handler) := by
  refine ⟨by decide +kernel, by decide +kernel, ?_, by decide +kernel,
    ((fetchingAt 0x60000).modSquad 0 fun q => q.onLanes (BitVec.allOnes 32) fun l => { l with wait := .page }).squadOr 0, by decide +kernel⟩
  rintro w (rfl | rfl | rfl | rfl | rfl) <;> decide +kernel

/-- For `pages_are_served`: QCOUNT's advance with nothing due, with a frame whose time has come, with a delayed event. -/
theorem witness_qcount :
    ((∀ c ∈ desk.cores, ∀ k ∈ c.2.copies, ∀ i ∈ k.issued, desk.qcount ≤ i.q) ∧ (∀ c ∈ desk.ctxs, ∀ n, c.2.ending = some n → desk.qcount + 1 < n) ∧
      desk.moraine = [] ∧ desk.delayed = []) ∧
    (let m : MoraineEntry := { frame := 0x1B0000, size := 0, slot := 0, stamp := 0 }
     let s : State := { desk with moraine := [m] }
     s.moraine = m :: [] ∧ m.stamp ≤ s.qcount ∧ s.ownerOf m.frame = some 0 ∧ (s.part 0).pool = [] ∧ pageBits m.size = 16) ∧
    let d : Nat × Nat × HostEvent := (0, 1, { kind := 1, tag := 0#16, status := 0, payload := [] })
    ({ desk with delayed := [d] } : State).delayed = [d] ∧ d.2.1 ≤ desk.qcount + 1 := by
  have h1 : (desk.cores.all fun c => c.2.copies.isEmpty) = true := by decide +kernel
  have h2 : (desk.ctxs.all fun c => c.2.ending.isNone) = true := by decide +kernel
  simp only [List.all_eq_true, List.isEmpty_iff, Option.isNone_iff_eq_none] at h1 h2
  exact ⟨⟨fun c hc k hk => by simp [h1 c hc] at hk, fun c hc n hn => by simp [h2 c hc] at hn, by decide +kernel⟩, by decide +kernel, by decide +kernel⟩

def askFor (id cls owner units : Nat) (granted : Bool) : Reservation :=
  { id := id, cls := cls, owner := owner, units := units, granted := granted, at_ := 0 }

/-- For `power_follows`: a request that fits exactly behind a granted one; a use of each class that is over. -/
theorem witness_reservations :
    (let s := desk.modCluster 63 fun k => { k with queue := [askFor 1 0 0 16 true, askFor 2 1 5 2 false, askFor 3 3 9 4 false], budget := 18 }
     (s.cluster 63).queue = [askFor 1 0 0 16 true] ++ askFor 2 1 5 2 false :: [askFor 3 3 9 4 false] ∧
      unitsUsed (s.cluster 63).queue + (askFor 2 1 5 2 false).units ≤ (s.cluster 63).budget) ∧
    let s := { desk.modCluster 63 fun k => { k with queue := [askFor 1 0 1 16 true, askFor 2 1 5 2 true, askFor 3 2 (8 * 2 ^ 32) 1 true,
                                                                  askFor 4 3 9 4 true] } with cycle := 64 }
    ((s.cluster 63).queue.find? (·.id == 1) = some (askFor 1 0 1 16 true) ∧ (s.core 1).fifo = [] ∧ (s.core 1).burst = none ∧
      (s.core 1).array = .idle) ∧
    ((s.cluster 63).queue.find? (·.id == 2) = some (askFor 2 1 5 2 true) ∧ (askFor 2 1 5 2 true).at_ + 64 ≤ s.cycle) ∧
    ((s.cluster 63).queue.find? (·.id == 3) = some (askFor 3 2 (8 * 2 ^ 32) 1 true) ∧ s.findCopy (8 * 2 ^ 32 / 2 ^ 32) = none) ∧
    (s.cluster 63).queue.find? (·.id == 4) = some (askFor 4 3 9 4 true) ∧ (s.cluster 63).clauseRun = none := by
  decide +kernel

/-- Every island of the last cluster in frost but one; time has passed. -/
def frostState (but : Nat) (n ns : Nat) : State :=
  { desk with
    islands := ((List.range 16).map fun k => (1008 + k, { level := 0, frost := k != but, idleSince := 0, waking := none })),
    cycle := n, ns := ns }

/-- For `power_follows`: an island's level, its sleep (the last of its cluster and not), its waking. -/
theorem witness_islands :
    ((desk.island 0).level ≠ islandTarget desk 0) ∧
    (let s := frostState 15 3600 0
     (s.island 1023).frost = false ∧ (s.island 1023).level = 0 ∧ islandTarget s 1023 = 0 ∧ (s.island 1023).idleSince + 3600 ≤ s.cycle ∧
      islandIdle s 1023 = true ∧ ∀ k, k < 16 → 16 * (1023 / 16) + k ≠ 1023 → (s.island (16 * (1023 / 16) + k)).frost = true) ∧
    (let s := (frostState 15 3600 0).modIsland 1008 fun i => { i with frost := false }
     (s.island 1023).frost = false ∧ islandIdle s 1023 = true ∧ 0 < 16 ∧ 16 * (1023 / 16) + 0 ≠ 1023 ∧ (s.island (16 * (1023 / 16) + 0)).frost = false) ∧
    (let s := desk.modIsland 0 fun i => { i with frost := true }
     (s.island 0).frost = true ∧ islandIdle s 0 = false ∧ (s.cluster (0 / 16)).permafrost = false ∧ (s.island 0).waking = none) ∧
    let s := { desk.modIsland 0 fun i => { i with frost := true, waking := some 0 } with ns := 150 }
    (s.island 0).frost = true ∧ islandIdle s 0 = false ∧ (s.cluster (0 / 16)).permafrost = false ∧ (s.island 0).waking = some 0 ∧ 0 + 150 ≤ s.ns := by
  decide +kernel

/-- Cluster 0 in permafrost, its wake asked for, `fails` failed checks so far, so many spares on its die. -/
def thawState (wake : Option Nat) (fails spares : Nat) : State :=
  { (desk.modGroup 0 fun g => { g with status := .ended }).modCluster 0 fun k => { k with permafrost := true, wakeAt := wake, checkFails := fails } with
    cycle := 36000, spares := [spares, 1, 1, 1] }

/-- For `power_follows`: permafrost entered and left, its check failed once, with a spare and without; what a machine loses. -/
theorem witness_permafrost :
    (let s := frostState 16 180000 0
     (s.cluster 63).permafrost = false ∧ (∀ k, k < 16 → (s.island (16 * 63 + k)).frost = true) ∧ (s.cluster 63).frostSince + 180000 ≤ s.cycle ∧
      (s.cluster 63).clauseRun = none ∧ ∀ k, k < 4 → (s.core (4 * 63 + k)).fifo = [] ∧ (s.core (4 * 63 + k)).rs = [] ∧ (s.core (4 * 63 + k)).copies = []) ∧
    ((thawState none 0 1).cluster 0).permafrost = true ∧ ((thawState none 0 1).cluster 0).wakeAt = none ∧
      islandIdle (thawState none 0 1) (16 * 0 + 0) = false ∧
    (((thawState (some 0) 0 1).cluster 0).wakeAt = some 0 ∧ 0 + 36000 ≤ (thawState (some 0) 0 1).cycle ∧
      (∀ x ∈ (thawState (some 0) 0 1).groups, ¬(x.2.status = .placed ∧ clusterOf x.2.core = 0)) ∧ ((thawState (some 0) 0 1).cluster 0).checkFails = 0) ∧
    (0 < ((thawState (some 0) 1 1).cluster 0).checkFails ∧ 0 < (thawState (some 0) 1 1).spares.getD (dieOfCluster 0) 0) ∧
    (0 < ((thawState (some 0) 1 0).cluster 0).checkFails ∧ (thawState (some 0) 1 0).spares.getD (dieOfCluster 0) 0 = 0) ∧
    ∃ q, desk.squad? 0 = some q ∧ q.here = true ∧ q.glide = none := by
  refine ⟨by decide +kernel, by decide +kernel, by decide +kernel, by decide +kernel, by decide +kernel, by decide +kernel, by decide +kernel,
    desk.squadOr 0, by decide +kernel⟩

/-- Partition 0 is sealed, and its one squad asks for more than it was seen to. -/
def askingState : State :=
  (desk.modPart 0 fun p => { p with status := .sealed, demandSeen := 0 }).modSquad 0 fun q => { q with perfReq := 7 }

/-- For `power_follows`: a partition whose demand has risen; a share that the host decides and one that the steward does; a window in which a critical
partition missed, with 99 of 101 reads in time, and one in which none did. -/
theorem witness_power_shares :
    ((askingState.part 0).status = .sealed ∧ askingState.firmware.assisted.getD 3 false = false ∧ (askingState.part 0).demandSeen < demandOf askingState 0 ∧
      mapGet askingState.parts 0 ≠ none) ∧
    ({ desk with firmware := { desk.firmware with assisted := [false, false, false, true, false] } } : State).firmware.assisted.getD 3 false = true ∧
    (∀ n, n = 1 ∨ n = 2 →
      let late (p : Partition) : Partition :=
        { p with status := .sealed, critical := true, latency := 5, latencies := List.replicate 99 5 ++ List.replicate n 6 }
      let s := { (desk.modPart 15 late).modPart 3 fun p => { p with status := .sealed, rate := 6 } with ns := 10000 }
      s.windowEnd + 10000 ≤ s.ns ∧ (∃ p, mapGet s.parts 3 = some p ∧ p.critical = false) ∧ (∃ p, mapGet s.parts 15 = some p ∧ p.critical = true) ∧
        ((∃ x ∈ s.parts, x.2.status = .sealed ∧ x.2.critical = true ∧
          100 * (x.2.latencies.filter (· ≤ x.2.latency)).length < 99 * x.2.latencies.length) ↔ n = 2)) := by
  refine ⟨by decide +kernel, by decide +kernel, ?_⟩
  rintro n (rfl | rfl)
  · refine ⟨by decide +kernel, ?_, ?_, by decide +kernel⟩
    all_goals refine ex_some (p := fun p => decide (p.critical = _)) (by decide +kernel) |>.imp fun _ h => ⟨h.1, of_decide_eq_true h.2⟩
  · refine ⟨by decide +kernel, ?_, ?_, by decide +kernel⟩
    all_goals refine ex_some (p := fun p => decide (p.critical = _)) (by decide +kernel) |>.imp fun _ h => ⟨h.1, of_decide_eq_true h.2⟩

/-! ### Partitions and bring-up -/

/-- Slots 2 and 9 share their clusters, each with a grid; slot 2 leads. -/
def sliceState (turn ns : Nat) : State :=
  { (desk.modPart 2 fun p => { p with status := .sealed, leader := some 2, quantum := 1, turn := turn }).modPart 9 fun p =>
      { p with status := .sealed, leader := some 2 } with
    grids := [(0, { probeGrid with ctx := 512 }), (1, { probeGrid with ctx := 2304 })], ns := ns }

/-- For `partitions_go_on`: a turn's end, upwards and around, and a member without work. -/
theorem witness_slice_turn :
    (((sliceState 2 1000).part 2).leader = some 2 ∧ turnTakers (sliceState 2 1000) 2 = [2, 9] ∧
      ((sliceState 2 1000).part 2).turnSince + ((sliceState 2 1000).part 2).quantum * 1000 ≤ (sliceState 2 1000).ns ∧
      ((sliceState 2 1000).part 2).turn < 9 ∧ ∀ j ∈ turnTakers (sliceState 2 1000) 2, ((sliceState 2 1000).part 2).turn < j → 9 ≤ j) ∧
    (((sliceState 9 1000).part 2).leader = some 2 ∧ 2 ∈ turnTakers (sliceState 9 1000) 2 ∧
      ∀ j ∈ turnTakers (sliceState 9 1000) 2, j ≤ ((sliceState 9 1000).part 2).turn ∧ 2 ≤ j) ∧
    (((sliceState 3 0).part 2).leader = some 2 ∧ ((sliceState 3 0).part 2).turn ∉ turnTakers (sliceState 3 0) 2 ∧
      ((sliceState 3 0).part 2).turn < 9 ∧ ∀ j ∈ turnTakers (sliceState 3 0) 2, ((sliceState 3 0).part 2).turn < j → 9 ≤ j) := by
  decide +kernel

def whiteRun : WhiteoutRun := { squad := 0, receipt := 0, startQ := 0, startNs := 0, ended := none, bytes := [] }

/-- For `partitions_go_on`: a whiteout that is due, of a slot with a key, clusters and a waiting squad of another slot. -/
theorem witness_whiteout :
    let s := { desk.modPart 15 fun p => { p with clusters := 1#64 <<< 63, keys := 1#64 <<< 63, whiteout := some whiteRun } with
      qcount := 2, keys := mapSet desk.keys 63 { KeySlot.zero with keyId := 7, bound := some 15 } }
    (s.part 15).whiteout = some whiteRun ∧ whiteRun.ended = none ∧ whiteRun.startQ + 2 ≤ s.qcount ∧ (∀ c ∈ s.ctxs, slotOf c.1 ≠ 15) ∧
      (s.part 15).keys.getLsbD 63 = true ∧ (s.key 63).keyId ≠ 0 ∧ (s.part 15).keys.getLsbD 0 = false ∧ (s.part 15).clusters.getLsbD 63 = true ∧
      ∃ q, s.squad? whiteRun.squad = some q ∧ (s.group? q.groupKey).isSome = true := by
  refine ⟨by decide +kernel, by decide +kernel, by decide +kernel, by decide +kernel, by decide +kernel, by decide +kernel, by decide +kernel,
    by decide +kernel, desk.squadOr 0, by decide +kernel, by decide +kernel⟩

def someRec : OpenRec := { range := 3, ctx := 0, kind := 0, first := 999999, last := 999999, bytes := 32, accesses := 1 }

def recordsState (ring : Option PhysRange) : State :=
  { desk.modPart 0 fun p => { p with openRecs := [someRec, { someRec with range := 4, first := 1000000 }], logCount := 2, ring := ring } with ns := 1000000 }

/-- For `partitions_go_on`: a record that is due, with a ring that is full and with none; a lease that is over. -/
theorem witness_records :
    (((recordsState (some { base := 0x1C0000, len := 128 })).part 0).openRecs.filter (fun r => r.first / 1000000 < 1000000 / 1000000) = [someRec] ∧
      ((recordsState (some { base := 0x1C0000, len := 128 })).part 0).ring = some { base := 0x1C0000, len := 128 } ∧
      128 / 64 ≤ ((recordsState (some { base := 0x1C0000, len := 128 })).part 0).logCount) ∧
    (((recordsState none).part 0).openRecs.filter (fun r => r.first / 1000000 < (recordsState none).ns / 1000000) = [someRec] ∧
      ((recordsState none).part 0).ring = none) ∧
    (let s := { desk with sem := { owner := 2, leaseEnd := 1000000 }, ns := 1000000 }
     s.sem.owner ≠ 0 ∧ s.sem.leaseEnd ≠ 0 ∧ s.sem.leaseEnd ≤ s.ns) := by
  decide +kernel

/-- For `device_comes_up`: an image that is too short for its header. -/
theorem witness_bad_image : ({ State.reset with firmware := { State.reset.firmware with verifying := some (someCommand, 0, 159) } } : State).firmware.verifying =
    some (someCommand, 0, 159) ∧ ¬GoodImage State.reset 0 159 :=
  ⟨by decide +kernel, fun h => absurd h.header (by decide)⟩

/-- A firmware image of no words at the host's address 0. -/
def imageState : State :=
  { State.reset with
    mem := memWriteN [] hostBase ([0x49#8, 0x5A#8, 0x4B#8, 0x46#8, 0x49#8, 0x52#8, 0x4D#8, 0#8] ++ leBytes 4 1)
    firmware := { State.reset.firmware with verifying := some (someCommand, 0, 160) } }

/-- For `device_comes_up`: a good image; nothing is known here of the digest and of the signature (log 4), which are hypotheses. -/
theorem witness_good_image
    (hk : Config.sm3 (((hostRead imageState 0 160).drop 32).take 64) = Config.firmwareKeyDigest)
    (hs : Config.sm2Verify (BitVec.ofNat 512 (leField (hostRead imageState 0 160) 32 64))
      (Config.sm3 ((hostRead imageState 0 160).take 96 ++ hostRead imageState (0 + 160) (leField (hostRead imageState 0 160) 20 4 +
        leField (hostRead imageState 0 160) 24 4 + leField (hostRead imageState 0 160) 28 4)))
      (BitVec.ofNat 512 (leField (hostRead imageState 0 160) 96 64)) = true) :
    imageState.firmware.verifying = some (someCommand, 0, 160) ∧ GoodImage imageState 0 160 :=
  ⟨rfl, by decide, by decide +kernel, by decide +kernel, by decide +kernel, hk, hs⟩

/-- Two words of code at 0x10000, whose translation is asked for. -/
def pairState : State := probeState State.reset (bytesOfWords [0x00602009#32, 0x03FC02FF#32])
def askTranslation (key : BitVec 256) (start : Nat) : TransReq :=
  { tag := 65535, ctx := 0, start := start, len := 8, key := key, cmd := someCommand, assisted := false }

theorem walfer_of {s : State} {r : TransReq} {ws : List Word32} (h : codeWords s r.ctx r.start (r.len / 4) = some ws) (hk : firnKey s ws = r.key) :
    walferOf s r = some ws := by
  simp [walferOf, h, hk, Option.filter]

theorem firnKey_transReqs (s : State) (l : List TransReq) (ws : List Word32) : firnKey { s with transReqs := l } ws = firnKey s ws := rfl

/-- For `device_comes_up`: a request whose range cannot be read, and one whose code is as it was. -/
theorem witness_translation :
    (({ pairState with transReqs := [askTranslation 0#256 (2 ^ 48)] } : State).transReqs.find? (fun r => r.tag == 65535 && !r.assisted) =
        some (askTranslation 0#256 (2 ^ 48)) ∧
      walferOf { pairState with transReqs := [askTranslation 0#256 (2 ^ 48)] } (askTranslation 0#256 (2 ^ 48)) = none) ∧
    let r := askTranslation (firnKey pairState [0x00602009#32, 0x03FC02FF#32]) 0x10000
    let s : State := { pairState with transReqs := [r] }
    s.transReqs.find? (fun r => r.tag == 65535 && !r.assisted) = some r ∧ walferOf s r = some [0x00602009#32, 0x03FC02FF#32] ∧
      4 * [0x00602009#32, 0x03FC02FF#32].length ≤ 2 ^ 32 := by
  have code : codeWords { pairState with transReqs := [askTranslation (firnKey pairState [0x00602009#32, 0x03FC02FF#32]) 0x10000] } 0 0x10000 2 =
      some [0x00602009#32, 0x03FC02FF#32] := by
    decide +kernel
  have none_ : codeWords { pairState with transReqs := [askTranslation 0#256 (2 ^ 48)] } 0 (2 ^ 48) 2 = none := by decide +kernel
  refine ⟨⟨rfl, ?_⟩, rfl, ?_, by decide⟩
  · show (codeWords _ 0 (2 ^ 48) 2).filter _ = none
    rw [none_]
    rfl
  · exact walfer_of code (firnKey_transReqs _ _ _)

/-- For `device_comes_up`: an event that waits, its ring at its end and with one place left. -/
theorem witness_event_post :
    let e : HostEvent := { kind := 4, tag := 0#16, status := 0, payload := List.replicate 56 0#8 }
    let s := desk.modFn (fnKey someCommand.fn) fun f => { f with evSize := 8, evHead := 7, evTail := 1, waiting := [e] }
    (s.fn (fnKey someCommand.fn)).waiting = e :: [] ∧
      ((s.fn (fnKey someCommand.fn)).evHead + 1) % (s.fn (fnKey someCommand.fn)).evSize ≠ (s.fn (fnKey someCommand.fn)).evTail ∧ e.payload.length ≤ 56 := by
  decide +kernel

/-- Firmware is loaded and the second port's accesses are enabled. -/
def openState : State := { desk with firmware := { desk.firmware with loaded := true }, cxlMem := [false, true] }

/-- For `host_accesses`: an access to the device's last byte, one past it; a sleeping cluster on the last die, not asked to wake and asked; a port
that is not enabled, and no firmware. -/
theorem witness_host_accesses :
    (2 ^ 40 - 1 + 1 ≤ 2 ^ 40 ∧ 2 ^ 40 - 2 + [1#8, 2#8].length ≤ 2 ^ 40 ∧ 2 ^ 40 < 2 ^ 40 - 1 + [1#8, 2#8].length) ∧
    Opened openState .h1 (2 ^ 40 - 1) ∧
    (∀ w, w = none ∨ w = some 4 → let s := openState.modCluster 63 fun k => { k with permafrost := true, wakeAt := w }
      Accepts s .h1 ∧ 63 / 16 = (2 ^ 40 - 1) / 2 ^ 38 ∧ (s.cluster 63).permafrost = true ∧ (s.cluster 63).wakeAt = w) ∧
    (∀ k, k / 16 = 63 / 16 → ((openState.modCluster 63 fun k => { k with permafrost := true, wakeAt := some 4 }).cluster k).permafrost = true →
      ((openState.modCluster 63 fun k => { k with permafrost := true, wakeAt := some 4 }).cluster k).wakeAt ≠ none) ∧
    ¬Accepts openState .h0 ∧ ¬Accepts { desk with cxlMem := [true, true] } .h0 := by
  have die {n : Nat} (h : n / 16 = 63 / 16) : n = 48 ∨ n = 49 ∨ n = 50 ∨ n = 51 ∨ n = 52 ∨ n = 53 ∨ n = 54 ∨ n = 55 ∨ n = 56 ∨ n = 57 ∨ n = 58 ∨
      n = 59 ∨ n = 60 ∨ n = 61 ∨ n = 62 ∨ n = 63 := by omega
  refine ⟨by decide +kernel, ⟨⟨by decide +kernel, by decide +kernel⟩, fun c hc => ?_⟩, ?_, fun k hk => ?_, fun h => absurd h.2 (by decide +kernel),
    fun h => absurd h.1 (by decide +kernel)⟩
  · obtain rfl | rfl | rfl | rfl | rfl | rfl | rfl | rfl | rfl | rfl | rfl | rfl | rfl | rfl | rfl | rfl := die hc <;> decide +kernel
  · rintro w (rfl | rfl) <;> exact ⟨⟨by decide +kernel, by decide +kernel⟩, by decide +kernel, by decide +kernel, by decide +kernel⟩
  · obtain rfl | rfl | rfl | rfl | rfl | rfl | rfl | rfl | rfl | rfl | rfl | rfl | rfl | rfl | rfl | rfl := die hk <;> decide +kernel

/-! ### The host's commands -/

/-- The firmware is loaded, and the first port holds the semaphore. -/
def hostState : State :=
  { desk with firmware := { desk.firmware with loaded := true }, sem := { owner := 1, leaseEnd := 1 } }
/-- The same with a debugger of the only context. -/
def heldState : State := hostState.modCtx 0 fun k => { k with debugger := some someCommand.fn }
def demandHere : DemandRange := { start := 0x60000, len := 0x10000, key := 63, watch := true }

theorem inReach_of {s : State} {c : Command} {n : Nat}
    (h : ((s.ctx? n).any (fun x => x.ending.isNone) && s.fnServes (fnKey c.fn) (slotOf n)) = true) : inReach s c n := by
  rw [Bool.and_eq_true] at h
  obtain ⟨x, hx, hd⟩ := ex_some h.1
  exact ⟨⟨x, hx, by simpa using hd⟩, h.2⟩
theorem not_reach {s : State} {c : Command} {n : Nat} (h : s.ctx? n = none) : ¬inReach s c n := by
  rintro ⟨⟨x, hx, -⟩, -⟩
  rw [h] at hx
  cases hx
theorem mine_of {s : State} {n : Nat} {f : HostFn} (h : ((s.ctx? n).any fun x => x.debugger == some f) = true) :
    ∃ x, s.ctx? n = some x ∧ x.debugger = some f := by
  obtain ⟨x, hx, hd⟩ := ex_some h
  exact ⟨x, hx, eq_of_beq hd⟩
theorem not_mine {s : State} {n : Nat} {f : HostFn} (h : ((s.ctx? n).any fun x => x.debugger == some f) = false) :
    ¬∃ x, s.ctx? n = some x ∧ x.debugger = some f := by
  rintro ⟨x, hx, hd⟩
  simp [hx, hd] at h
theorem other_of {s : State} {n : Nat} {f : HostFn} (h : ((s.ctx? n).any fun x => x.debugger.any (· != f)) = true) :
    ∃ k g, s.ctx? n = some k ∧ k.debugger = some g ∧ g ≠ f := by
  obtain ⟨x, hx, hd⟩ := ex_some h
  obtain ⟨g, hg, hd⟩ := ex_some hd
  exact ⟨x, g, hx, hg, bne_iff_ne.mp hd⟩
theorem all_some {α : Type} {x : Option α} {v : α} {p : α → Bool} (h : x.all p = true) (hv : x = some v) : p v = true := by
  subst hv
  exact h

theorem not_some {α : Type} {x : Option α} {v : α} (h : x = none) : x ≠ some v := by
  subst h
  nofun

/-- The second port's last function is bound to a slot, which is sealed. -/
def boundState (slot : Nat) : State :=
  (hostState.modPart slot fun p => { p with status := .sealed }).modFn (fnKey { port := .h1, vf := some 63 }) fun f => { f with bound := some (.slot slot) }

/-- The function's ring with a command of a code in its first entry, and the doorbell that tells of it. -/
def rungFor (c : Command) (s : State) (code : Nat) : State :=
  { s.modFn (fnKey c.fn) (fun r => { r with cmdBase := 0x100000#64 }) with
    doorbells := [(fnKey c.fn, 1)],
    mem := memWriteN s.mem (hostBase + 0x100000) (leBytes 2 code ++ leBytes 2 c.tag.toNat ++ leBytes 4 0) }
def rung (s : State) (code : Nat) : State := rungFor someCommand s code

/-- A command is the next, its function is ready and holds what it must. -/
structure Asked (s : State) (code : Nat) : Prop where
  next : isNext s someCommand code
  ready : isReady (afterTaking s someCommand) someCommand
  physical : someCommand.fn.vf = none
  holds : holds (afterTaking s someCommand) someCommand.fn.port

/-- A row of the table of commands, asked for in a state that meets a condition of the row. -/
def meets (cond : HostRow → State → Prop) (s : State) (i : Instr) : Prop :=
  ∃ x y z u f ports lv p v r, IsHostRow someCommand x y z u f ports lv p v r ∧ r.instr = i ∧ r.calm (rung s r.code) ∧ Asked (rung s r.code) r.code ∧
    cond r (afterTaking (rung s r.code) someCommand)

theorem isNext_of {s : State} {c : Command} {code : Nat} (h : s.doorbells = [(fnKey c.fn, 1)] ∧
    memNat s.mem (2 ^ 51 + ((s.fn (fnKey c.fn)).cmdBase.toNat + 64 * (s.fn (fnKey c.fn)).cmdHead) % 2 ^ 51) 2 = code ∧
    memNat s.mem (2 ^ 51 + ((s.fn (fnKey c.fn)).cmdBase.toNat + 64 * (s.fn (fnKey c.fn)).cmdHead) % 2 ^ 51 + 2) 2 = c.tag.toNat ∧
    memNat s.mem (2 ^ 51 + ((s.fn (fnKey c.fn)).cmdBase.toNat + 64 * (s.fn (fnKey c.fn)).cmdHead) % 2 ^ 51 + 4) 4 = 0) : isNext s c code :=
  ⟨⟨1, [], h.1⟩, h.2⟩

theorem asked_of {s : State} {code : Nat} (h : (s.doorbells = [(fnKey someCommand.fn, 1)] ∧
    memNat s.mem (2 ^ 51 + ((s.fn (fnKey someCommand.fn)).cmdBase.toNat + 64 * (s.fn (fnKey someCommand.fn)).cmdHead) % 2 ^ 51) 2 = code ∧
    memNat s.mem (2 ^ 51 + ((s.fn (fnKey someCommand.fn)).cmdBase.toNat + 64 * (s.fn (fnKey someCommand.fn)).cmdHead) % 2 ^ 51 + 2) 2 =
      someCommand.tag.toNat ∧
    memNat s.mem (2 ^ 51 + ((s.fn (fnKey someCommand.fn)).cmdBase.toNat + 64 * (s.fn (fnKey someCommand.fn)).cmdHead) % 2 ^ 51 + 4) 4 = 0) ∧
    (afterTaking s someCommand).firmware.loaded = true ∧ (afterTaking s someCommand).sem = { owner := 1, leaseEnd := 1 } ∧
    (afterTaking s someCommand).ns = 0) : Asked s code := by
  refine ⟨isNext_of h.1, ⟨h.2.1, .inl rfl⟩, rfl, ?_⟩
  unfold Machine.holds
  rw [h.2.2.1, h.2.2.2]
  decide

theorem calm_of {s : State} (h : ((haltedOf s 0).all fun gk => (s.group? gk).all fun g => !(s.cluster (clusterOf g.core)).permafrost) = true) :
    ∀ gk ∈ haltedOf s 0, ∀ g, s.group? gk = some g → (s.cluster (clusterOf g.core)).permafrost = false := by
  intro gk hk g hg
  have h2 := List.all_eq_true.mp h gk hk
  rw [hg] at h2
  simpa using h2

/-- For `host_commands`: each command does what it is to do. -/
theorem witness_commands_done :
    meets (fun r => r.when_) hostState (.setmode someCommand 4 true) ∧
    meets (fun r => r.when_) hostState (.floeroute someCommand 63 0 63 0#12) ∧
    meets (fun r => r.when_) hostState (.floeroutePod someCommand 0 63 0#12) ∧
    meets (fun r => r.when_) { hostState with requests := [(5, { someRequest with assisted := true })] } (.prqans someCommand 5 false) ∧
    meets (fun r => r.when_) { hostState with firmware := { hostState.firmware with assisted := [false, false, false, true, false] } } (.powerset someCommand 15 7 16) ∧
    meets (fun r => r.when_) hostState (.debugAttach someCommand 0) ∧
    meets (fun r => r.when_) heldState (.debugDetach someCommand 0) ∧
    meets (fun r => r.when_) heldState (.debugSetBreakpoint someCommand 0 3 0#64) ∧
    meets (fun r => r.when_) heldState (.debugHalt someCommand 0) ∧
    meets (fun r => r.when_) (heldState.modGroup 0 fun g => { g with halted := true }) (.debugDump someCommand 0 0) := by
  refine ⟨?_, ?_, ?_, ?_, ?_, ?_, ?_, ?_, ?_, ?_⟩
  · exact ⟨4, 0, 0, 0, true, 0#12, .hypervisor, 0#64, 0#64, _, .head _, rfl, trivial, asked_of (by decide +kernel), by dsimp only [plainRow]; decide +kernel⟩
  · exact ⟨63, 0, 63, 0, false, 0#12, .hypervisor, 0#64, 0#64, _, (.tail _ (.head _)), rfl, trivial, asked_of (by decide +kernel), by dsimp only [plainRow]; decide +kernel⟩
  · exact ⟨0, 0, 63, 0, false, 0#12, .hypervisor, 0#64, 0#64, _, (.tail _ (.tail _ (.head _))), rfl, trivial, asked_of (by decide +kernel), by dsimp only [plainRow]; decide +kernel⟩
  · exact ⟨5, 0, 0, 0, false, 0#12, .hypervisor, 0#64, 0#64, _, (.tail _ (.tail _ (.tail _ (.head _)))), rfl, trivial, asked_of (by decide +kernel), ⟨{ someRequest with assisted := true }, by decide +kernel⟩⟩
  · exact ⟨15, 7, 16, 0, false, 0#12, .hypervisor, 0#64, 0#64, _, (.tail _ (.tail _ (.tail _ (.tail _ (.head _))))), rfl, trivial, asked_of (by decide +kernel), by dsimp only [plainRow]; decide +kernel⟩
  · exact ⟨0, 0, 0, 0, false, 0#12, .hypervisor, 0#64, 0#64, _, (.tail _ (.tail _ (.tail _ (.tail _ (.tail _ (.head _)))))), rfl, trivial, asked_of (by decide +kernel), ⟨inReach_of (by decide +kernel), fun k hk => .inl (Option.isNone_iff_eq_none.mp (all_some (p := fun k => k.debugger.isNone) (by decide +kernel) hk))⟩⟩
  · exact ⟨0, 0, 0, 0, false, 0#12, .hypervisor, 0#64, 0#64, _, (.tail _ (.tail _ (.tail _ (.tail _ (.tail _ (.tail _ (.head _))))))), rfl, trivial, asked_of (by decide +kernel), ⟨inReach_of (by decide +kernel), mine_of (by decide +kernel), trivial⟩⟩
  · exact ⟨0, 3, 0, 0, false, 0#12, .hypervisor, 0#64, 0#64, _, (.tail _ (.tail _ (.tail _ (.tail _ (.tail _ (.tail _ (.tail _ (.head _)))))))), rfl, trivial, asked_of (by decide +kernel), ⟨inReach_of (by decide +kernel), mine_of (by decide +kernel), by decide⟩⟩
  · exact ⟨0, 0, 0, 0, false, 0#12, .hypervisor, 0#64, 0#64, _, (.tail _ (.tail _ (.tail _ (.tail _ (.tail _ (.tail _ (.tail _ (.tail _ (.head _))))))))), rfl, trivial, asked_of (by decide +kernel), ⟨inReach_of (by decide +kernel), mine_of (by decide +kernel), trivial⟩⟩
  · exact ⟨0, 0, 0, 0, false, 0#12, .hypervisor, 0#64, 0#64, _, (.tail _ (.tail _ (.tail _ (.tail _ (.tail _ (.tail _ (.tail _ (.tail _ (.tail _ (.head _)))))))))), rfl, calm_of (by decide +kernel), asked_of (by decide +kernel), ⟨inReach_of (by decide +kernel), mine_of (by decide +kernel), by decide +kernel⟩⟩

/-- For `host_commands`: the rest of them. -/
theorem witness_commands_done_rest :
    meets (fun r => r.when_) hostState (.demandRegister someCommand 0 458752 65536 63 false) ∧
    meets (fun r => r.when_) (hostState.modCtx 0 fun k => { k with demand := [demandHere] }) (.demandRemove someCommand 0 393216 65536) ∧
    meets (fun r => r.when_) { hostState with grids := [(9, { probeGrid with status := .requested })] } (.admitAnswer someCommand 0 0 true) ∧
    meets (fun r => r.when_) { hostState with mem := memWriteN hostState.mem hostBase (leBytes 8 0x1C0000) } (.frames someCommand 0 1) ∧
    meets (fun r => r.when_) hostState (.comm someCommand 16777215 256 0) ∧
    meets (fun r => r.when_) hostState (.health someCommand 0) ∧
    meets (fun r => r.when_) (hostState.modPart 0 fun p => { p with status := .sealed }) (.ctxmake someCommand 255 .hypervisor 0#64 0#64) ∧
    meets (fun r => r.when_) { hostState with transReqs := [{ askTranslation 0#256 0x10000 with assisted := true }] } (.xldone someCommand 65535 0) := by
  refine ⟨?_, ?_, ?_, ?_, ?_, ?_, ?_, ?_⟩
  · exact ⟨0, 458752, 65536, 63, false, 0#12, .hypervisor, 0#64, 0#64, _, (.tail _ (.tail _ (.tail _ (.tail _ (.tail _ (.tail _ (.tail _ (.tail _ (.tail _ (.tail _ (.head _))))))))))), rfl, trivial, asked_of (by decide +kernel), ⟨inReach_of (by decide +kernel), by decide +kernel⟩⟩
  · exact ⟨0, 393216, 65536, 0, false, 0#12, .hypervisor, 0#64, 0#64, _, (.tail _ (.tail _ (.tail _ (.tail _ (.tail _ (.tail _ (.tail _ (.tail _ (.tail _ (.tail _ (.tail _ (.head _)))))))))))), rfl, trivial, asked_of (by decide +kernel), ⟨inReach_of (by decide +kernel), demandHere, by decide +kernel⟩⟩
  · exact ⟨0, 0, 0, 0, false, 0#12, .hypervisor, 0#64, 0#64, _, (.tail _ (.tail _ (.tail _ (.tail _ (.tail _ (.tail _ (.tail _ (.tail _ (.tail _ (.tail _ (.tail _ (.tail _ (.head _))))))))))))), rfl, trivial, asked_of (by decide +kernel), ⟨inReach_of (by decide +kernel), 9, by decide +kernel⟩⟩
  · exact ⟨0, 0, 0, 0, false, 0#12, .hypervisor, 0#64, 0#64, _, (.tail _ (.tail _ (.tail _ (.tail _ (.tail _ (.tail _ (.tail _ (.tail _ (.tail _ (.tail _ (.tail _ (.tail _ (.tail _ (.head _)))))))))))))), rfl, trivial, asked_of (by decide +kernel), by dsimp only [plainRow]; decide +kernel⟩
  · exact ⟨16777215, 256, 0, 0, false, 0#12, .hypervisor, 0#64, 0#64, _, (.tail _ (.tail _ (.tail _ (.tail _ (.tail _ (.tail _ (.tail _ (.tail _ (.tail _ (.tail _ (.tail _ (.tail _ (.tail _ (.tail _ (.head _))))))))))))))), rfl, trivial, asked_of (by decide +kernel), by dsimp only [plainRow]; decide +kernel⟩
  · exact ⟨0, 0, 0, 0, false, 0#12, .hypervisor, 0#64, 0#64, _, (.tail _ (.tail _ (.tail _ (.tail _ (.tail _ (.tail _ (.tail _ (.tail _ (.tail _ (.tail _ (.tail _ (.tail _ (.tail _ (.tail _ (.tail _ (.head _)))))))))))))))), rfl, trivial, asked_of (by decide +kernel), trivial⟩
  · exact ⟨255, 0, 0, 0, false, 0#12, .hypervisor, 0#64, 0#64, _, (.tail _ (.tail _ (.tail _ (.tail _ (.tail _ (.tail _ (.tail _ (.tail _ (.tail _ (.tail _ (.tail _ (.tail _ (.tail _ (.tail _ (.tail _ (.tail _ (.head _))))))))))))))))), rfl, trivial, asked_of (by decide +kernel), by dsimp only [plainRow]; decide +kernel⟩
  · exact ⟨65535, 0, 0, 0, false, 0#12, .hypervisor, 0#64, 0#64, _, (.tail _ (.tail _ (.tail _ (.tail _ (.tail _ (.tail _ (.tail _ (.tail _ (.tail _ (.tail _ (.tail _ (.tail _ (.tail _ (.tail _ (.tail _ (.tail _ (.tail _ (.tail _ (.head _))))))))))))))))))), rfl, trivial, asked_of (by decide +kernel), ⟨{ askTranslation 0#256 0x10000 with assisted := true }, by decide +kernel⟩⟩

/-- For `host_commands`: each command that can be turned away is turned away (FRAMES and HEALTH never are). -/
theorem witness_commands_turned :
    meets (fun r => r.turned) hostState (.setmode someCommand 5 false) ∧
    meets (fun r => r.turned) hostState (.floeroute someCommand 64 0 0 0#12) ∧
    meets (fun r => r.turned) hostState (.floeroutePod someCommand 0 64 0#12) ∧
    meets (fun r => r.turned) hostState (.prqans someCommand 5 false) ∧
    meets (fun r => r.turned) { hostState with firmware := { hostState.firmware with assisted := [false, false, false, true, false] } } (.powerset someCommand 16 7 16) ∧
    meets (fun r => r.turned) (hostState.modCtx 0 fun k => { k with debugger := some { port := .h1, vf := none } }) (.debugAttach someCommand 0) ∧
    meets (fun r => r.turned) hostState (.debugDetach someCommand 0) ∧
    meets (fun r => r.turned) heldState (.debugSetBreakpoint someCommand 0 4 0#64) ∧
    meets (fun r => r.turned) hostState (.debugHalt someCommand 255) ∧
    meets (fun r => r.turned) heldState (.debugDump someCommand 0 0) := by
  refine ⟨?_, ?_, ?_, ?_, ?_, ?_, ?_, ?_, ?_, ?_⟩
  · exact ⟨5, 0, 0, 0, false, 0#12, .hypervisor, 0#64, 0#64, _, .head _, rfl, trivial, asked_of (by decide +kernel), by dsimp only [plainRow]; decide +kernel⟩
  · exact ⟨64, 0, 0, 0, false, 0#12, .hypervisor, 0#64, 0#64, _, (.tail _ (.head _)), rfl, trivial, asked_of (by decide +kernel), by dsimp only [plainRow]; decide +kernel⟩
  · exact ⟨0, 0, 64, 0, false, 0#12, .hypervisor, 0#64, 0#64, _, (.tail _ (.tail _ (.head _))), rfl, trivial, asked_of (by decide +kernel), by dsimp only [plainRow]; decide +kernel⟩
  · exact ⟨5, 0, 0, 0, false, 0#12, .hypervisor, 0#64, 0#64, _, (.tail _ (.tail _ (.tail _ (.head _)))), rfl, trivial, asked_of (by decide +kernel), fun r hr => absurd hr (not_some (by decide +kernel))⟩
  · exact ⟨16, 7, 16, 0, false, 0#12, .hypervisor, 0#64, 0#64, _, (.tail _ (.tail _ (.tail _ (.tail _ (.head _))))), rfl, trivial, asked_of (by decide +kernel), by dsimp only [plainRow]; decide +kernel⟩
  · exact ⟨0, 0, 0, 0, false, 0#12, .hypervisor, 0#64, 0#64, _, (.tail _ (.tail _ (.tail _ (.tail _ (.tail _ (.head _)))))), rfl, trivial, asked_of (by decide +kernel), .inr (other_of (by decide +kernel))⟩
  · exact ⟨0, 0, 0, 0, false, 0#12, .hypervisor, 0#64, 0#64, _, (.tail _ (.tail _ (.tail _ (.tail _ (.tail _ (.tail _ (.head _))))))), rfl, trivial, asked_of (by decide +kernel), .inr (.inl (not_mine (by decide +kernel)))⟩
  · exact ⟨0, 4, 0, 0, false, 0#12, .hypervisor, 0#64, 0#64, _, (.tail _ (.tail _ (.tail _ (.tail _ (.tail _ (.tail _ (.tail _ (.head _)))))))), rfl, trivial, asked_of (by decide +kernel), .inr (.inr (by decide))⟩
  · exact ⟨255, 0, 0, 0, false, 0#12, .hypervisor, 0#64, 0#64, _, (.tail _ (.tail _ (.tail _ (.tail _ (.tail _ (.tail _ (.tail _ (.tail _ (.head _))))))))), rfl, trivial, asked_of (by decide +kernel), .inl (not_reach (by decide +kernel))⟩
  · exact ⟨0, 0, 0, 0, false, 0#12, .hypervisor, 0#64, 0#64, _, (.tail _ (.tail _ (.tail _ (.tail _ (.tail _ (.tail _ (.tail _ (.tail _ (.tail _ (.head _)))))))))), rfl, calm_of (by decide +kernel), asked_of (by decide +kernel), .inr (.inr (by decide +kernel))⟩

/-- For `host_commands`: the rest of them. -/
theorem witness_commands_turned_rest :
    meets (fun r => r.turned) hostState (.demandRegister someCommand 0 458752 65536 64 false) ∧
    meets (fun r => r.turned) hostState (.demandRemove someCommand 0 393216 65536) ∧
    meets (fun r => r.turned) { hostState with grids := [] } (.admitAnswer someCommand 0 0 true) ∧
    meets (fun r => r.turned) hostState (.comm someCommand 0 1 0) ∧
    meets (fun r => r.turned) hostState (.ctxmake someCommand 256 .hypervisor 0#64 0#64) ∧
    meets (fun r => r.turned) hostState (.xlate someCommand 0 65536 0) ∧
    meets (fun r => r.turned) hostState (.xldone someCommand 5 0) := by
  refine ⟨?_, ?_, ?_, ?_, ?_, ?_, ?_⟩
  · exact ⟨0, 458752, 65536, 64, false, 0#12, .hypervisor, 0#64, 0#64, _, (.tail _ (.tail _ (.tail _ (.tail _ (.tail _ (.tail _ (.tail _ (.tail _ (.tail _ (.tail _ (.head _))))))))))), rfl, trivial, asked_of (by decide +kernel), .inr (by decide +kernel)⟩
  · exact ⟨0, 393216, 65536, 0, false, 0#12, .hypervisor, 0#64, 0#64, _, (.tail _ (.tail _ (.tail _ (.tail _ (.tail _ (.tail _ (.tail _ (.tail _ (.tail _ (.tail _ (.tail _ (.head _)))))))))))), rfl, trivial, asked_of (by decide +kernel), .inr (by decide +kernel)⟩
  · exact ⟨0, 0, 0, 0, false, 0#12, .hypervisor, 0#64, 0#64, _, (.tail _ (.tail _ (.tail _ (.tail _ (.tail _ (.tail _ (.tail _ (.tail _ (.tail _ (.tail _ (.tail _ (.tail _ (.head _))))))))))))), rfl, trivial, asked_of (by decide +kernel), .inr (fun id h => absurd h (not_some (by decide +kernel)))⟩
  · exact ⟨0, 1, 0, 0, false, 0#12, .hypervisor, 0#64, 0#64, _, (.tail _ (.tail _ (.tail _ (.tail _ (.tail _ (.tail _ (.tail _ (.tail _ (.tail _ (.tail _ (.tail _ (.tail _ (.tail _ (.tail _ (.head _))))))))))))))), rfl, trivial, asked_of (by decide +kernel), by dsimp only [plainRow]; decide +kernel⟩
  · exact ⟨256, 0, 0, 0, false, 0#12, .hypervisor, 0#64, 0#64, _, (.tail _ (.tail _ (.tail _ (.tail _ (.tail _ (.tail _ (.tail _ (.tail _ (.tail _ (.tail _ (.tail _ (.tail _ (.tail _ (.tail _ (.tail _ (.tail _ (.head _))))))))))))))))), rfl, trivial, asked_of (by decide +kernel), by dsimp only [plainRow]; decide +kernel⟩
  · exact ⟨0, 65536, 0, 0, false, 0#12, .hypervisor, 0#64, 0#64, _, (.tail _ (.tail _ (.tail _ (.tail _ (.tail _ (.tail _ (.tail _ (.tail _ (.tail _ (.tail _ (.tail _ (.tail _ (.tail _ (.tail _ (.tail _ (.tail _ (.tail _ (.head _)))))))))))))))))), rfl, trivial, asked_of (by decide +kernel), .inr (by decide +kernel)⟩
  · exact ⟨5, 0, 0, 0, false, 0#12, .hypervisor, 0#64, 0#64, _, (.tail _ (.tail _ (.tail _ (.tail _ (.tail _ (.tail _ (.tail _ (.tail _ (.tail _ (.tail _ (.tail _ (.tail _ (.tail _ (.tail _ (.tail _ (.tail _ (.tail _ (.tail _ (.head _))))))))))))))))))), rfl, trivial, asked_of (by decide +kernel), by dsimp only [plainRow]; decide +kernel⟩

/-- Code whose translation is at hand. -/
def walferHere : FirnEntry :=
  { ctx := 0, start := 0x20000, words := [0x00602009#32, 0x03FC02FF#32], key := firnKey hostState [0#32, 0#32], stale := false }
def xlateState : State := { hostState with firn := [walferHere] }

theorem found {s : State} {ws : List Word32} {e : FirnEntry} {l : List FirnEntry} (h : firnKey s ws = e.key) (hs : e.stale = false) :
    (e :: l).find? (fun x => x.key == firnKey s ws && !x.stale) = some e := by
  simp [h, hs]

/-- For `host_commands`: XLATE finds its code's translation. -/
theorem witness_xlate : meets (fun r => r.when_) xlateState (.xlate someCommand 0 0x10000 8) := by
  have code : codeWords (afterTaking (rung xlateState 0x06) someCommand) 0 0x10000 2 = some [0#32, 0#32] := by decide +kernel
  exact ⟨0, 0x10000, 2, 0, false, 0#12, .hypervisor, 0#64, 0#64, _, (.tail _ (.tail _ (.tail _ (.tail _ (.tail _ (.tail _ (.tail _ (.tail _ (.tail _ (.tail _ (.tail _ (.tail _ (.tail _ (.tail _ (.tail _ (.tail _ (.tail _ (.head _)))))))))))))))))), rfl, trivial,
    asked_of (by decide +kernel), inReach_of (by decide +kernel), by decide, by decide, [0#32, 0#32], walferHere, code, found rfl rfl⟩

/-- The second port's last function, which is virtual. -/
def otherCommand : Command := { fn := { port := .h1, vf := some 63 }, tag := 65535#16 }

/-- For `host_commands`: no doorbell; a function that is not ready; a virtual one, ready, on a slot of its own and on slot 0; the semaphore elsewhere,
and its lease over; a dump that has to wait for a sleeping cluster is no calm state. -/
theorem witness_commands_refused :
    ¬isNext hostState someCommand 0x02 ∧
    (isNext (rung desk 0x08) someCommand 0x08 ∧ ¬isReady (afterTaking (rung desk 0x08) someCommand) someCommand) ∧
    (isNext (rungFor otherCommand hostState 0x0B) otherCommand 0x0B ∧ ¬isReady (afterTaking (rungFor otherCommand hostState 0x0B) otherCommand) otherCommand) ∧
    (∀ slot, slot = 0 ∨ slot = 15 → isNext (rungFor otherCommand (boundState slot) 0x0F) otherCommand 0x0F ∧
      isReady (afterTaking (rungFor otherCommand (boundState slot) 0x0F) otherCommand) otherCommand ∧
      slotFor (afterTaking (rungFor otherCommand (boundState slot) 0x0F) otherCommand) otherCommand = some slot) ∧
    otherCommand.fn.vf ≠ none ∧
    ¬holds (afterTaking (rung { hostState with sem := { owner := 2, leaseEnd := 1 } } 0x02) someCommand) .h0 ∧
    ¬holds (afterTaking (rung { hostState with sem := { owner := 1, leaseEnd := 0 } } 0x02) someCommand) .h0 ∧
    holds { hostState with sem := { owner := 2, leaseEnd := 1 } } .h1 := by
  refine ⟨?_, ⟨isNext_of (by decide +kernel), fun h => absurd h.1 (by decide +kernel)⟩,
    ⟨isNext_of (by decide +kernel), fun h => ?_⟩, ?_, by decide,
    fun h => absurd h.1 (by decide +kernel), fun h => absurd h.2 (by decide +kernel), by decide +kernel, by decide +kernel⟩
  · rintro ⟨⟨tail, rest, h⟩, -⟩
    have h2 : hostState.doorbells = [] := by decide +kernel
    rw [h2] at h
    cases h
  · rcases h.2 with h | ⟨k, hk, -⟩
    · cases h
    · exact absurd hk (not_some (by decide +kernel))
  · rintro slot (rfl | rfl)
    · exact ⟨isNext_of (by decide +kernel), ⟨by decide +kernel, .inr ⟨0, by decide +kernel, by decide +kernel⟩⟩, by decide +kernel⟩
    · exact ⟨isNext_of (by decide +kernel), ⟨by decide +kernel, .inr ⟨15, by decide +kernel, by decide +kernel⟩⟩, by decide +kernel⟩

/-- For `host_commands`: LOADFW with the firmware loaded, with one in progress, and with none. -/
theorem witness_loadfw : someCommand.fn.vf = none ∧
    (let s := rung hostState 0x01
     isNext s someCommand 0x01 ∧ holds s someCommand.fn.port ∧ s.firmware.loaded = true) ∧
    (let s := rung { hostState with firmware := { desk.firmware with verifying := some (someCommand, 0, 160) } } 0x01
     isNext s someCommand 0x01 ∧ holds s someCommand.fn.port ∧ s.firmware.verifying ≠ none) ∧
    (let s := rung { hostState with firmware := desk.firmware } 0x01
     isNext s someCommand 0x01 ∧ holds s someCommand.fn.port ∧ s.firmware.loaded = false ∧ s.firmware.verifying = none) := by
  refine ⟨rfl, ⟨isNext_of (by decide +kernel), by unfold holds; decide +kernel, by decide +kernel⟩,
    ⟨isNext_of (by decide +kernel), by unfold holds; decide +kernel, fun h => absurd h (by decide +kernel)⟩,
    isNext_of (by decide +kernel), by unfold holds; decide +kernel, by decide +kernel, by decide +kernel⟩

def failedRequest : PageReq := { someRequest with assisted := true }
def answeredState : State := rung { hostState with requests := [(5, failedRequest)] } 0x03

/-- For `host_commands`: PRQANS with a Fail, a far context waiting. -/
theorem witness_prqans :
    isNext answeredState someCommand 0x03 ∧ isReady answeredState someCommand ∧ mapGet answeredState.requests 5 = some failedRequest ∧
      failedRequest.assisted = true ∧ failedRequest.waiters = [.far 0 9] ∧
      ∀ key lane q, Walker.far 0 9 = .fetch key lane → answeredState.squad? key = some q → q.glide = none :=
  ⟨isNext_of (by decide +kernel), ⟨by decide +kernel, .inl rfl⟩, by decide +kernel, rfl, rfl, fun _ _ _ h => by cases h⟩

def requestedGrid : Grid := { probeGrid with status := .requested, queue := 9, next := 0 }
def requestedState : State :=
  let s := hostState.modCtx 0 fun c => { c with queues := [(9, { en := true, prio := 0, admitted := 0, waiting := [6] })] }
  rung { s with grids := [(6, requestedGrid)], firmware := { s.firmware with assisted := [false, false, true, false, false] } } 0x04

theorem goes {o : Host.Outcome State Fault Refusal} (h : (match o with
    | .next _ => true
    | _ => false) = true) : ∃ t, o = .next t := by
  cases o with
  | next t => exact ⟨t, rfl⟩
  | fault f => cases h
  | refused r => cases h

/-- For `host_commands`: an ADMIT that admits. -/
theorem witness_admit :
    isNext requestedState someCommand 0x04 ∧ isReady requestedState someCommand ∧ inReach requestedState someCommand 0 ∧
      requestedState.grids.find? (fun (_, g) => g.ctx == 0 && g.queue == 9 && g.status == .requested) = some (6, requestedGrid) ∧
      ∃ t, exec .gridAdmit ((afterTaking requestedState someCommand).modGrid 6 fun g => { g with status := .granted }) = .next t :=
  ⟨isNext_of (by decide +kernel), ⟨by decide +kernel, .inl rfl⟩, inReach_of (by decide +kernel), by decide +kernel, goes (by decide +kernel)⟩

def pairWords : List Word32 := [0x00602009#32, 0x03FC02FF#32]
def bytesRequest : TransReq := { askTranslation (firnKey pairState pairWords) 0x10000 with assisted := true }
/-- The translation of the two words is answered with some words, at 0x200 of the host's memory. -/
def bytesState (ws : List Word32) : State :=
  rung { pairState with firmware := { pairState.firmware with loaded := true }, transReqs := [bytesRequest],
                        mem := memWriteN pairState.mem (hostBase + 0x200) (bytesOfWords ws) } 0x07

/-- For `host_commands`: XLDONE with bytes: the same words with HOLD set, and words of another destination. -/
theorem witness_xldone :
    isNext (bytesState [0x40602009#32, 0x03FC02FF#32]) someCommand 0x07 ∧ isReady (bytesState [0x40602009#32, 0x03FC02FF#32]) someCommand ∧
    (bytesState [0x40602009#32, 0x03FC02FF#32]).transReqs.find? (fun r => r.tag == 65535 && r.assisted) = some bytesRequest ∧
    walferOf (bytesState [0x40602009#32, 0x03FC02FF#32]) bytesRequest = some pairWords ∧
    scheduledOk pairWords.length pairWords (wordsOfBytes (hostRead (bytesState [0x40602009#32, 0x03FC02FF#32]) 0x200 bytesRequest.len)) = true ∧
    walferOf (bytesState [0x00602009#32, 0x03FC04FF#32]) bytesRequest = some pairWords ∧
    scheduledOk pairWords.length pairWords (wordsOfBytes (hostRead (bytesState [0x00602009#32, 0x03FC04FF#32]) 0x200 bytesRequest.len)) = false := by
  have h1 : codeWords (bytesState [0x40602009#32, 0x03FC02FF#32]) 0 0x10000 2 = some pairWords := by decide +kernel
  have h2 : codeWords (bytesState [0x00602009#32, 0x03FC04FF#32]) 0 0x10000 2 = some pairWords := by decide +kernel
  have hk (ws : List Word32) : firnKey (bytesState ws) pairWords = bytesRequest.key := by
    simp [firnKey, bytesState, rung, rungFor, State.modFn, bytesRequest, askTranslation]
  have h3 : (bytesState [0x40602009#32, 0x03FC02FF#32]).transReqs = [bytesRequest] := by
    simp [bytesState, rung, rungFor, State.modFn]
  refine ⟨isNext_of (by decide +kernel), ⟨by decide +kernel, .inl rfl⟩, ?_, walfer_of h1 (hk _), by decide +kernel, walfer_of h2 (hk _), by decide +kernel⟩
  rw [h3]
  rfl

/-- The only group is not on a core. -/
def quietState (status : GroupStatus) (f : Context → Context) : State :=
  rung ((hostState.modGroup 0 fun g => { g with status := status }).modCtx 0 f) 0x09

/-- For `host_commands`: CTXEND; PAUSE with a group placed, with none, and when its last has gone; PAUSE_RESTORE; a function that is not ready. -/
theorem witness_contexts :
    (let s := rung hostState 0x10
     isNext s someCommand 0x10 ∧ isReady s someCommand ∧ someCommand.fn.vf = none ∧
       ∃ k, s.ctx? ((slotFor s someCommand).getD 0 * 256 + 0) = some k ∧ k.ending = none) ∧
    (let s := rung hostState 0x09
     isNext s someCommand 0x09 ∧ isReady s someCommand ∧ inReach s someCommand 0 ∧ (∃ k, s.ctx? 0 = some k ∧ k.pausing = none) ∧
       ∃ x ∈ s.groups, ctxOfGroup s x.2 = 0 ∧ x.2.status = .placed) ∧
    (let s := quietState .evicted id
     isNext s someCommand 0x09 ∧ isReady s someCommand ∧ inReach s someCommand 0 ∧ (∃ k, s.ctx? 0 = some k ∧ k.pausing = none) ∧
      ¬∃ x ∈ s.groups, ctxOfGroup s x.2 = 0 ∧ x.2.status = .placed) ∧
    (let s := quietState .evicted fun k => { k with pausing := some someCommand }
     (∃ k, s.ctx? 0 = some k ∧ k.pausing = some someCommand) ∧ ∀ x ∈ s.groups, ctxOfGroup s x.2 = 0 → x.2.status ≠ .placed) ∧
    (let s := quietState .ended fun k => { k with pausedAt := some 0, frozen := true }
     isNext s someCommand 0x09 ∧ isReady s someCommand ∧ inReach s someCommand 0 ∧ (∃ k, s.ctx? 0 = some k ∧ k.pausing = none ∧ k.pausedAt = some 0) ∧
      ∀ x ∈ s.groups, ctxOfGroup s x.2 = 0 → x.2.status ≠ .evicted ∧ x.2.status ≠ .discarded) ∧
    (let s := rung desk 0x09
     isNext s someCommand 0x09 ∧ ¬isReady s someCommand ∧ ∀ k, s.ctx? 0 = some k → k.pausing ≠ some someCommand) := by
  have ready {s : State} (h : s.firmware.loaded = true) : isReady s someCommand := ⟨h, .inl rfl⟩
  have quiet {s : State} {n : Nat} (h : (s.ctx? n).any (fun k => k.pausing.isNone) = true) : ∃ k, s.ctx? n = some k ∧ k.pausing = none := by
    obtain ⟨k, hk, hd⟩ := ex_some h
    exact ⟨k, hk, Option.isNone_iff_eq_none.mp hd⟩
  refine ⟨⟨isNext_of (by decide +kernel), ready (by decide +kernel), rfl, ?_⟩,
    ⟨isNext_of (by decide +kernel), ready (by decide +kernel), inReach_of (by decide +kernel), quiet (by decide +kernel), by decide +kernel⟩,
    ⟨isNext_of (by decide +kernel), ready (by decide +kernel), inReach_of (by decide +kernel), quiet (by decide +kernel), by decide +kernel⟩,
    ⟨?_, by decide +kernel⟩,
    ⟨isNext_of (by decide +kernel), ready (by decide +kernel), inReach_of (by decide +kernel), ?_, by decide +kernel⟩,
    isNext_of (by decide +kernel), fun h => absurd h.1 (by decide +kernel), fun k hk => ?_⟩
  · obtain ⟨k, hk, hd⟩ := ex_some (x := (rung hostState 0x10).ctx? ((slotFor (rung hostState 0x10) someCommand).getD 0 * 256 + 0))
      (p := fun k => k.ending.isNone) (by decide +kernel)
    exact ⟨k, hk, Option.isNone_iff_eq_none.mp hd⟩
  · obtain ⟨k, hk, hd⟩ := ex_some (x := (quietState .evicted fun k => { k with pausing := some someCommand }).ctx? 0)
      (p := fun k => k.pausing == some someCommand) (by decide +kernel)
    exact ⟨k, hk, eq_of_beq hd⟩
  · obtain ⟨k, hk, hd⟩ := ex_some (x := (quietState .ended fun k => { k with pausedAt := some 0, frozen := true }).ctx? 0)
      (p := fun k => k.pausing.isNone && k.pausedAt == some 0) (by decide +kernel)
    rw [Bool.and_eq_true, Option.isNone_iff_eq_none, beq_iff_eq] at hd
    exact ⟨k, hk, hd⟩
  · have h := all_some (p := fun k => k.pausing.isNone) (by decide +kernel) hk
    rw [Option.isNone_iff_eq_none.mp h]
    nofun

theorem all_squads {s : State} {p : Squad → Bool} (h : (s.squads.all fun x => p x.2) = true) {n : Nat} {q : Squad} (hq : s.squad? n = some q) :
    p q = true :=
  List.all_eq_true.mp h _ (mem_of_mapGet hq)

/-- For `host_commands`: a halted group resumes, its squads without events; a context of which the function is no debugger. -/
theorem witness_resume :
    (let s := rung (heldState.modGroup 0 fun g => { g with halted := true }) 0x08
     isNext s someCommand 0x08 ∧ isReady s someCommand ∧ inReach s someCommand 0 ∧ (∃ k, s.ctx? 0 = some k ∧ k.debugger = some someCommand.fn) ∧
       haltedOf s 0 = [0] ∧ (∃ g, s.group? 0 = some g) ∧ ∀ n q, groupOfSquad n = 0 → s.squad? n = some q → q.events = []) ∧
    (let s := rung hostState 0x08
     isNext s someCommand 0x08 ∧ isReady s someCommand ∧ inReach s someCommand 0 ∧ ∃ k, s.ctx? 0 = some k ∧ k.debugger ≠ some someCommand.fn) := by
  refine ⟨⟨isNext_of (by decide +kernel), ⟨by decide +kernel, .inl rfl⟩, inReach_of (by decide +kernel), mine_of (by decide +kernel), by decide +kernel, ?_,
    fun n q _ hq => ?_⟩, isNext_of (by decide +kernel), ⟨by decide +kernel, .inl rfl⟩, inReach_of (by decide +kernel), ?_⟩
  · obtain ⟨g, hg, -⟩ := ex_some (x := (rung (heldState.modGroup 0 fun g => { g with halted := true }) 0x08).group? 0) (p := fun _ => true)
      (by decide +kernel)
    exact ⟨g, hg⟩
  · exact List.isEmpty_iff.mp (all_squads (p := fun q => q.events.isEmpty) (by decide +kernel) hq)
  · obtain ⟨k, hk, hd⟩ := ex_some (x := (rung hostState 0x08).ctx? 0) (p := fun k => k.debugger != some someCommand.fn) (by decide +kernel)
    exact ⟨k, hk, bne_iff_ne.mp hd⟩

/-! ### One step of some instructions; the expected values are worked out from the rules named -/

def stateOf (o : Host.Outcome State Fault Refusal) : State :=
  match o with
  | .next t => t
  | _ => State.reset
/-- The squad after an instruction. -/
def ran (s : State) (i : Instr) : Squad := (stateOf (exec i s)).squadOr 0
def laneOf (q : Squad) (n L : Nat) : Option Word32 := (q.files.readV n)[L]?
def abOps : Ops := sOps (.v 1) (.v 2) (.v 3)
def two (a b : Word32) : State := deskWith fun q => withV 2 (fun _ => a) (withV 3 (fun _ => b) q)

/-- R177: modulo 2^32. -/
theorem test_add_wraps : laneOf (ran (two 0xFFFFFFFF#32 2#32) (.add abOps)) 1 31 = some 1#32 := by decide +kernel
/-- R177: a − b, D being b. -/
theorem test_sub_into_its_source : laneOf (ran (two 1#32 3#32) (.sub (sOps (.v 3) (.v 2) (.v 3)))) 3 0 = some 0xFFFFFFFE#32 := by decide +kernel
/-- R177: (−1)(−1) = 1, and 0xFFFFFFFF² = 0xFFFFFFFE00000001. -/
theorem test_mulhi : laneOf (ran (two 0xFFFFFFFF#32 0xFFFFFFFF#32) (.mulhi abOps)) 1 0 = some 0#32 ∧
    laneOf (ran (two 0xFFFFFFFF#32 0xFFFFFFFF#32) (.mulhiU abOps)) 1 0 = some 0xFFFFFFFE#32 := by decide +kernel
/-- R177: a shift of the width or more. -/
theorem test_shifts_past_the_width : laneOf (ran (two 0x80000000#32 32#32) (.sra abOps)) 1 0 = some 0xFFFFFFFF#32 ∧
    laneOf (ran (two 0x80000000#32 32#32) (.shr abOps)) 1 0 = some 0#32 := by decide +kernel
/-- R177: −2^31 gives itself; W for 0. -/
theorem test_abs_clz : laneOf (ran (two 0x80000000#32 0#32) (.abs (sOps (.v 1) (.v 2) .none))) 1 0 = some 0x80000000#32 ∧
    laneOf (ran (two 0#32 0#32) (.clz (sOps (.v 1) (.v 2) .none))) 1 0 = some 32#32 := by decide +kernel
/-- R177: at W = 64. -/
theorem test_uniform_add : (ran (deskWith fun q => withS 4 0xFFFFFFFF#64 (withS 5 1#64 q)) (.add (sOps (.s 6) (.s 4) (.s 5)))).files.readS 6 =
    0x100000000#64 := by decide +kernel
/-- R178: p = 28, w = 8: four bits lie inside, of 0xF0000000 they are all 1. -/
theorem test_bfe_at_the_top : laneOf (ran (two 0xF0000000#32 (28 + 256 * 8)) (.bfe abOps)) 1 0 = some 0xF#32 ∧
    laneOf (ran (two 0xF0000000#32 (28 + 256 * 8)) (.bfeS abOps)) 1 0 = some 0xFFFFFFFF#32 := by decide +kernel
/-- R178: with n = 0, c. -/
theorem test_bfi_nothing : laneOf (ran (deskWith fun q => withV 2 (fun _ => 0xFF#32) (withV 3 (fun _ => 32 + 256 * 4) (withV 4 (fun _ => 0x1234#32) q)))
    (.bfi { abOps with c := Src.mk (.v 4) false })) 1 0 = some 0x1234#32 := by decide +kernel
/-- R179: bit 5 alone; signed −1 < 1, unsigned not. -/
theorem test_setb : laneOf (ran (deskWith fun q => withV 1 (fun _ => 0x100#32) (withV 2 (fun _ => 0xFFFFFFFF#32) (withV 3 (fun _ => 1#32) q)))
      (.setbLt (num 5 abOps))) 1 0 = some 0x120#32 ∧
    laneOf (ran (deskWith fun q => withV 1 (fun _ => 0x120#32) (withV 2 (fun _ => 0xFFFFFFFF#32) (withV 3 (fun _ => 1#32) q)))
      (.setbLtu (num 5 abOps))) 1 0 = some 0x100#32 := by decide +kernel
/-- R180: the carry goes into the upper register of the pair. -/
theorem test_add_w : laneOf (ran (deskWith fun q => withV 2 (fun _ => 0xFFFFFFFF#32) (withV 4 (fun _ => 1#32) q))
    (.addW (sOps (.v 6) (.v 2) (.v 4)))) 7 0 = some 1#32 := by decide +kernel
/-- R180: (−2)·3 = −6 in 64 bits. -/
theorem test_mul_wide : laneOf (ran (two 0xFFFFFFFE#32 3#32) (.mulWide (sOps (.v 6) (.v 2) (.v 3)))) 6 0 = some 0xFFFFFFFA#32 ∧
    laneOf (ran (two 0xFFFFFFFE#32 3#32) (.mulWide (sOps (.v 6) (.v 2) (.v 3)))) 7 0 = some 0xFFFFFFFF#32 := by decide +kernel

/-- The spec's example after R188: lanes 0–7 live with {3, 1, 3, 3, 0, 1, 3, 0} in v1, the others absent. -/
def exampleState : State :=
  let f (L : Nat) : Word32 := ([3, 1, 3, 3, 0, 1, 3, 0].map (BitVec.ofNat 32)).getD L 0#32
  { deskWith fun q => withV 1 f { q with lanes := q.lanes.take 8 ++ (q.lanes.drop 8).map fun l => { l with kind := .absent } } with
    issuing := some { squad := 0, lanes := 0xFF#32, pc := 0x10000#64, words := [0#32, 0#32] } }
/-- The example's v2, and its v3 from that v2. -/
theorem test_match_mpfx : (List.range 8).map (laneOf (ran exampleState (.matchLanes (sOps (.v 2) (.v 1) .none))) 2) =
      [0x4D, 0x22, 0x4D, 0x4D, 0x90, 0x22, 0x4D, 0x90].map (some <| BitVec.ofNat 32 ·) ∧
    laneOf (ran (deskWith (withV 2 fun _ => 0x4D#32)) (.mpfx (sOps (.v 3) (.v 2) .none))) 3 6 = some 3#32 := by decide +kernel
/-- The example's v4. -/
theorem test_shfl_down : (List.range 8).map (laneOf (ran exampleState (.shflDown { sImm (.v 4) (.v 1) 2#32 with lit := some 2#32 })) 4) =
    [3, 3, 0, 1, 3, 0, 3, 0].map (some <| BitVec.ofNat 32 ·) := by decide +kernel
/-- The example's s5 and s4. -/
theorem test_ballot_red : (ran exampleState (.ballot (sOps (.s 5) (.v 1) .zero))).files.readS 5 = 0x6F#64 ∧
    (ran exampleState (.redAdd (sOps (.s 4) (.v 1) .none))).files.readS 4 = 14#64 := by decide +kernel

/-- R193: 1 + 2^−24 is a tie, which goes to the even 1 and is inexact; 2^−24 is 0x33800000. -/
theorem test_fadd_rounds : laneOf (ran (two 0x3F800000#32 0x33800000#32) (.fadd abOps)) 1 0 = some 0x3F800000#32 ∧
    laneOf (ran (two 0x3F800001#32 0x33800000#32) (.fadd abOps)) 1 0 = some 0x3F800002#32 := by decide +kernel
/-- R193: (1 + 2^−23)² − (1 + 2^−22) = 2^−46, which one rounding keeps. -/
theorem test_ffma_rounds_once : laneOf (ran (deskWith fun q => withV 2 (fun _ => 0x3F800001#32) (withV 4 (fun _ => 0xBF800002#32) q))
    (.ffma { sOps (.v 1) (.v 2) (.v 2) with c := Src.mk (.v 4) false })) 1 0 = some 0x28800000#32 := by decide +kernel

/-- R120: little-endian, each lane at its own address. -/
theorem test_sts_w : (let s := deskWith fun q => withV 4 (fun L => BitVec.ofNat 32 (4 * L)) (withV 2 (fun L => 0x11223300#32 + BitVec.ofNat 32 L) q)
    memReadN (winMem (stateOf (exec (.stsW { sOps .none (.v 4) .zero with c := Src.mk (.v 2) false }) s)) (s.squadOr 0) .shared) 124 4) =
    [0x1F#8, 0x33#8, 0x22#8, 0x11#8] := by decide +kernel
/-- R123: 32 lanes add 1 to a word that holds 0, in ascending order, each getting what stood there. -/
theorem test_atoms_add : laneOf (ran (deskWith (withV 2 fun _ => 1#32)) (.atomsAdd { sOps (.v 1) (.s 1) .zero with c := Src.mk (.v 2) false })) 1 31 =
    some 31#32 := by decide +kernel
/-- The squad of `stackState` with a handler. -/
def handled (f : Squad → Squad) : State := (stackState 0).modSquad 0 fun q => f { q with tvec := 0x30000#64 }
/-- Bytes of the TVEC frame. -/
def frameOf (s : State) (a n : Nat) : List Byte :=
  match spillRead s 0 (s.squadOr 0) a n with
  | .done bs _ => bs
  | _ => []

/-- R116, R286, R290: an address off its size: Misaligned (0x08, Data), and the address in the frame; every lane is at the handler. -/
theorem test_misaligned_load : (let t := stateOf (exec (.ldsW (sOps (.v 4) (.s 1) .zero)) (handled (withS 1 2#64)))
    frameOf t 0 8 ++ frameOf t 16 8 = [0x08#8, 0#8, 1#8, 0#8, 0xFF#8, 0xFF#8, 0xFF#8, 0xFF#8, 2#8, 0#8, 0#8, 0#8, 0#8, 0#8, 0#8, 0#8] ∧
      ((t.squadOr 0).lane 31).pc = 0x30000#64) := by decide +kernel

/-- R134: COUNT alone. -/
theorem test_bar_init : ((stateOf (exec (.barInit (num 3 { sImm .none .none 32#32 with a := noSrc })) desk)).group? 0).map (fun g => (g.bar 3).count) =
    some 32 := by decide +kernel
/-- R206, R213: P − 4. -/
theorem test_bra : ((ran desk (.bra { sImm .none .none 0xFFFFFFFF#32 with a := noSrc })).lane 31).pc = 0xFFFC#64 := by decide +kernel
/-- R214: P + 12. -/
theorem test_call_ret : (ran desk (.call { sImm (.s 9) .none 4#32 with a := noSrc })).files.readS 9 = 0x1000C#64 ∧
    ((ran (deskWith (withS 9 0x1000C#64)) (.ret (sOps .none (.s 9) .none))).lane 0).pc = 0x1000C#64 := by decide +kernel
/-- R221, R290: SoftTrap (0x10) with the code, PC P. -/
theorem test_trap : (let t := stateOf (exec (.trap (num 255 blankOps)) (handled id))
    frameOf t 0 4 ++ frameOf t 8 8 = [0x10#8, 0#8, 0xFF#8, 0#8, 0#8, 0#8, 1#8, 0#8, 0#8, 0#8, 0#8, 0#8]) := by decide +kernel
/-- R215: the lanes issue no more. -/
theorem test_exit : (ran desk (.exit blankOps)).lanes.all (fun l => l.kind == .exited) = true := by decide +kernel
/-- R330: an acquire, then one from the other port. -/
theorem test_semaphore : (stateOf (exec (.hpsemAcquire .h0) State.reset)).sem.owner = 1 ∧
    (stateOf (exec (.hpsemAcquire .h1) (stateOf (exec (.hpsemAcquire .h0) State.reset)))).sem.owner = 1 := by decide +kernel

end Sys2Proof.Tests
end

