-- ==== Sys2Proof/Proofs/InstructionLength.lean ====
section
/-!
PROOFS. R20: the code of what each row of the decoder's tables builds (R26, R31–R33, R43), the form that each part of the decoder gives (R26,
R27, R33, R34), and from them that bits [1:0] of the first word tell an instruction's form and its length.
-/
namespace Sys2Proof

/-! ### The code of what a row of the decoder's tables builds -/

theorem mem_of_lookup {β : Type} {l : List (Nat × β)} {k : Nat} {b : β} (h : l.lookup k = some b) : (k, b) ∈ l := by
  obtain ⟨l₁, l₂, rfl, -⟩ := List.lookup_eq_some_iff.1 h
  exact List.mem_append_cons_self

theorem lTable_coded : ∀ r ∈ lTable, (fun o => (r.2 o).coded) = fun o => .l r.1 o :=
  List.map_inj_left.1 rfl

/-- R33: the key of an X row is 8 × OP + engine. -/
theorem xTable_coded : ∀ r ∈ xTable, (fun o => (r.2 o).coded) = fun o => .x (r.1 / 8) (r.1 % 8) o :=
  List.map_inj_left.1 rfl

theorem sTable_coded : ∀ r ∈ sTable, (fun d a b => (r.2 d a b).coded) = fun d a b => .s r.1 b.code a.code d.code :=
  List.map_inj_left.1 rfl

theorem sImmTable_coded : ∀ r ∈ sImmTable, (fun d a imm => (r.2 d a imm).coded) = fun d a imm => .s r.1 imm a.code d.code :=
  List.map_inj_left.1 rfl

theorem coded_of_lTable {op : Nat} {f : Ops → Instr} (h : lTable.lookup op = some f) (o : Ops) : (f o).coded = .l op o :=
  congrFun (lTable_coded _ (mem_of_lookup h)) o

theorem coded_of_xTable {n : Nat} {f : Ops → Instr} (h : xTable.lookup n = some f) (o : Ops) : (f o).coded = .x (n / 8) (n % 8) o :=
  congrFun (xTable_coded _ (mem_of_lookup h)) o

theorem coded_of_sTable {op : Nat} {f : Name → Name → Name → Instr} (h : sTable.lookup op = some f) (d a b : Name) :
    (f d a b).coded = .s op b.code a.code d.code :=
  congrFun (congrFun (congrFun (sTable_coded _ (mem_of_lookup h)) d) a) b

theorem coded_of_sImmTable {op : Nat} {f : Name → Name → Byte → Instr} (h : sImmTable.lookup op = some f) (d a : Name) (imm : Byte) :
    (f d a imm).coded = .s op imm a.code d.code :=
  congrFun (congrFun (congrFun (sImmTable_coded _ (mem_of_lookup h)) d) a) imm

/-! ### The form that each part of the decoder gives -/

theorem fieldAt_lt (w lo n : Nat) : fieldAt w lo n < 2 ^ n := Nat.mod_lt _ (Nat.two_pow_pos n)

theorem decodeS_form {w : Nat} {i : Instr} (h : decodeS w = .ok i) : ∃ op b a d, i.coded = .s op b a d := by
  unfold decodeS at h
  dsimp only at h
  split at h
  case isTrue =>
    split at h
    case isTrue => cases h; exact ⟨_, _, _, _, rfl⟩
    case isFalse => cases h
  case isFalse =>
    split at h
    case isTrue => cases h; exact ⟨_, _, _, _, rfl⟩
    case isFalse =>
      split at h
      case isTrue => cases h; exact ⟨_, _, _, _, rfl⟩
      case isFalse =>
        split at h
        next f hf => cases h; exact ⟨_, _, _, _, coded_of_sTable hf _ _ _⟩
        next =>
          split at h
          next f hf => cases h; exact ⟨_, _, _, _, coded_of_sImmTable hf _ _ _⟩
          next => cases h

/-- R27, R31, R33: an L form below OP 0x380 and an X form from there on, with the literal that was at hand. -/
theorem decodeL_form {w0 w1 : Nat} {lit : Option Word32} {i : Instr} (h : decodeL w0 w1 lit = .ok i) :
    (∃ op o, i.coded = .l op o ∧ o.lit = lit ∧ op < 0x380) ∨
    (∃ op eng o, i.coded = .x op eng o ∧ o.lit = lit ∧ 0x380 ≤ op ∧ op ≤ 0x3FF) := by
  have hop := fieldAt_lt w0 2 10
  have heng := fieldAt_lt w1 0 3
  unfold decodeL at h
  dsimp only at h
  split at h
  next f hf =>
    cases h
    split at hf
    case isTrue hlt => exact .inl ⟨_, _, coded_of_lTable hf _, rfl, hlt⟩
    case isFalse hge => exact .inr ⟨_, _, _, coded_of_xTable hf _, rfl, by omega, by omega⟩
  next => cases h

/-! ### The words taken -/

theorem formLength_of_tree {n : Nat} (h : n % 4 = 3) : formLength n = n / 4 % 32 := by
  simp only [formLength, h, fieldAt, Nat.reducePow]

theorem map_pair_ok {x : Except DecodeError Instr} {i : Instr} {ws rest : List Word32} (h : x.map (·, ws) = .ok (i, rest)) :
    x = .ok i ∧ ws = rest := by
  cases x with
  | error e => cases h
  | ok j => cases h; exact ⟨rfl, rfl⟩

/-- R20: bits [1:0] of the first word `w` name the part of the decoder that reads an instruction off `w :: ws`, and the form's number of words is
taken. `header` is a tree whose words end with its first (log 9). -/
inductive ReadBy (w : Word32) : List Word32 → Instr → List Word32 → Prop where
  | s {i rest} (form : w.toNat % 4 = 0) (read : decodeS w.toNat = .ok i) : ReadBy w rest i rest
  | l {i rest w1} (form : w.toNat % 4 = 1) (read : decodeL w.toNat w1.toNat none = .ok i) : ReadBy w (w1 :: rest) i rest
  | k {i rest w1 w2} (form : w.toNat % 4 = 2) (read : decodeL w.toNat w1.toNat (some w2) = .ok i) : ReadBy w (w1 :: w2 :: rest) i rest
  | header (form : w.toNat % 4 = 3) (short : formLength w.toNat < 2) : ReadBy w [] (decodeT w.toNat 0 []) []
  | t {w1 body rest} (form : w.toNat % 4 = 3) (size : body.length = formLength w.toNat - 2) :
    ReadBy w (w1 :: (body ++ rest)) (decodeT w.toNat w1.toNat body) rest

theorem readBy_of_decodeWords {w : Word32} {ws : List Word32} {i : Instr} {rest : List Word32} (h : decodeWords (w :: ws) = .ok (i, rest)) :
    ReadBy w ws i rest := by
  simp only [decodeWords] at h
  split at h
  next hw =>
    obtain ⟨hr, rfl⟩ := map_pair_ok h
    exact .s hw hr
  next hw =>
    obtain ⟨hr, rfl⟩ := map_pair_ok h
    exact .l hw hr
  next hw =>
    split at h
    case isTrue hs => cases h; exact .header hw hs
    case isFalse => cases h
  next hw =>
    obtain ⟨hr, rfl⟩ := map_pair_ok h
    exact .k hw hr
  next w1 tail hw =>
    split at h
    case isTrue => cases h
    case isFalse hn =>
      cases h
      have hbody : (tail.take (formLength w.toNat - 2)).length = formLength w.toNat - 2 := List.length_take_of_le (Nat.le_of_not_lt hn)
      simpa only [List.take_append_drop] using ReadBy.t (w1 := w1) (rest := tail.drop (formLength w.toNat - 2)) hw hbody
  next => cases h

/-- R20: a tree of a LEN below 2 still has its header's two words read (log 9), so its LEN must be in range. -/
theorem ReadBy.length_eq {w : Word32} {ws : List Word32} {i : Instr} {rest : List Word32} (h : ReadBy w ws i rest)
    (hlen : w.toNat % 4 = 3 → 5 ≤ formLength w.toNat) : (w :: ws).length = formLength w.toNat + rest.length := by
  cases h with
  | s form | l form | k form =>
    simp only [formLength, form, List.length_cons]
    omega
  | header form short => exact absurd (hlen form) (by omega)
  | t form size =>
    have := hlen form
    simp only [List.length_cons, List.length_append, size]
    omega

/-- Settles O28: by the part of the decoder that reads the instruction. -/
theorem instructionLength : Obligations.instruction_length := by
  unfold Obligations.instruction_length
  intro w ws i rest hlen hd
  have hread := readBy_of_decodeWords hd
  refine ⟨hread.length_eq fun form => formLength_of_tree form ▸ hlen form, ?_⟩
  cases hread with
  | s form read =>
    obtain ⟨op, b, a, d, hc⟩ := decodeS_form read
    simpa only [hc] using form
  | l form read | k form read =>
    obtain ⟨op, o, hc, hlit, hop⟩ | ⟨op, eng, o, hc, hlit, hop⟩ := decodeL_form read
    · rw [hc]
      exact ⟨by rw [hlit]; exact form, fun hx => absurd hx.1 (Nat.not_le_of_lt hop)⟩
    · rw [hc]
      exact ⟨by rw [hlit]; exact form, hop⟩
  | header form | t form => exact form

end Sys2Proof
end

