-- ==== Sys2Proof/Proofs/PageWalks.lean ====
section
/-!
PROOFS. R71–R73: what a walk does at one table, in the terms of the entry it reads there, and from it that a walk which comes to a table
goes on as a walk from that table.
-/
namespace Sys2Proof.Machine

/-! ### The fields of an entry that are one bit wide (R72) -/

theorem fieldAt_one (w n : Nat) : fieldAt w n 1 = (w.testBit n).toNat := (Nat.toNat_testBit w n).symm

theorem fieldAt_one_eq_zero {w n : Nat} : fieldAt w n 1 = 0 ↔ w.testBit n = false := by
  rw [fieldAt_one, Bool.toNat_eq_zero]

theorem fieldAt_one_beq_one (w n : Nat) : (fieldAt w n 1 == 1) = w.testBit n := by
  rw [fieldAt_one]
  cases w.testBit n <;> rfl

/-! ### The walk at one table -/

/-- R72: what a leaf at a level gives for an address. -/
def entryLeaf (level entry va : Nat) : Leaf :=
  { pa := pageFrame entry + va % 2 ^ pageShift level, bits := pageShift level, r := entry.testBit 1, w := entry.testBit 2,
    x := entry.testBit 3, key := entry / 2 ^ 57 % 64, watch := entry.testBit 63 }

/-- R72, R73: a leaf's SIZE is its level's, and its frame is aligned to it. -/
abbrev SoundLeaf (level entry : Nat) : Prop :=
  entry / 2 ^ 6 % 4 = 4 - level ∧ pageFrame entry % 2 ^ pageShift level = 0

theorem not_soundLeaf {level entry : Nat} :
    ¬SoundLeaf level entry ↔ entry / 2 ^ 6 % 4 ≠ 4 - level ∨ pageFrame entry % 2 ^ pageShift level ≠ 0 := Decidable.not_and_iff_not_or_not

/-- R73, R78: a walk that stops at an address's entry in a table of a level, which is what it reports (log 80). -/
def stopAt (level table va outcome : Nat) : Except WalkFail Leaf :=
  .error { outcome := outcome, entry := table + 8 * pageIndex level va, level := level }

/-- R71: what is left of a walk at a table of a level; from level 1 and PTROOT it is `walk` (`walk_eq_walkAt`). -/
def walkAt (s : State) (va : Nat) (need : Need) (level table : Nat) : Except WalkFail Leaf :=
  walkFrom s va need table level (walkLevels.drop (level - 1))

/-- R71: the walk's levels are those of `pageShift` and `pageIndex`. -/
theorem walkLevels_drop {level : Nat} (h1 : 1 ≤ level) (h4 : level ≤ 4) :
    ∃ bits, walkLevels.drop (level - 1) = (pageShift level, bits, 4 - level) :: walkLevels.drop level ∧
      ∀ va, fieldAt va (pageShift level) bits = pageIndex level va := by
  obtain rfl | rfl | rfl | rfl : level = 1 ∨ level = 2 ∨ level = 3 ∨ level = 4 := by omega
  · exact ⟨15, rfl, fun _ => rfl⟩
  · exact ⟨6, rfl, fun _ => rfl⟩
  · exact ⟨6, rfl, fun _ => rfl⟩
  · exact ⟨5, rfl, fun _ => rfl⟩

section
variable {s : State} {level table : Nat} (va : Nat) (need : Need) (h1 : 1 ≤ level) (h4 : level ≤ 4)
include h1 h4

/-- R73: memory that cannot be walked is Malformed, at the place the entry would have there (log 80). -/
theorem walkAt_of_not_walkable (hw : ¬walkable s table) : walkAt s va need level table = stopAt level table va 3 := by
  obtain ⟨bits, hdrop, hindex⟩ := walkLevels_drop h1 h4
  rw [walkAt, hdrop, walkFrom, hindex]
  dsimp only
  split
  next => rfl
  next => rfl
  next hu hh => exact absurd ⟨hu, hh⟩ hw

/-- R71–R73: a table that can be walked; that a leaf's soundness is judged before its permissions is log 80's. -/
theorem walkAt_of_walkable (hw : walkable s table) : walkAt s va need level table =
    let e := pageEntry s level table va
    if e.testBit 0 then
      if e.testBit 4 then
        if SoundLeaf level e then (if (entryLeaf level e va).grants need then .ok (entryLeaf level e va) else stopAt level table va 2)
        else stopAt level table va 3
      else if level = 4 then stopAt level table va 3 else walkAt s va need (level + 1) (pageFrame e)
    else stopAt level table va 1 := by
  obtain ⟨bits, hdrop, hindex⟩ := walkLevels_drop h1 h4
  obtain ⟨hu, hh⟩ := hw
  rw [walkAt, hdrop, walkFrom, hindex]
  dsimp only
  split
  next h => exact absurd h hu
  next h => exact absurd h hh
  next =>
    simp only [fieldAt_one_eq_zero, fieldAt_one_beq_one, ← ite_not (Nat.testBit _ _ = true), Bool.not_eq_true, ← ite_not (SoundLeaf _ _),
      not_soundLeaf]
    rfl

end

/-! ### The walk to a table -/

theorem one_le_of_comesTo {s : State} {root va level table : Nat} (h : comesTo s root va level table) : 1 ≤ level := by
  cases level with
  | zero => exact h.elim
  | succ n => exact Nat.succ_pos n

/-- R71–R73: a walk goes on from each table it comes to. -/
theorem walkAt_of_comesTo {s : State} {root va level table : Nat} (need : Need) (h4 : level ≤ 4) (h : comesTo s root va level table) :
    walkAt s va need 1 root = walkAt s va need level table := by
  induction level generalizing table with
  | zero => exact h.elim
  | succ n ih =>
    cases n with
    | zero => exact congrArg (walkAt s va need 1) h.symm
    | succ level =>
      obtain ⟨t, ht, hw, hvalid, hpointer, rfl⟩ := h
      have hlast : level + 1 ≠ 4 := by omega
      rw [ih (by omega) ht, walkAt_of_walkable va need (by omega) (by omega) hw]
      exact (if_pos hvalid).trans <| (if_neg (Bool.eq_false_iff.1 hpointer)).trans (if_neg hlast)

theorem walk_eq_walkAt {s : State} {ctx : Nat} {c : Context} (hc : s.ctx? ctx = some c) (va : Nat) (need : Need) :
    walk s ctx va need = walkAt s va need 1 c.ptroot.toNat := by
  rw [walk, hc]
  rfl

/-- Settles O54: the walk goes on from the table it comes to, and stops there by what that table or its entry is. -/
theorem pageWalks : Obligations.page_walks := by
  unfold Obligations.page_walks
  intro s ctx va level table need c hc h4 hcomes at_ e l sound
  have h1 := one_le_of_comesTo hcomes
  rw [walk_eq_walkAt hc, walkAt_of_comesTo need h4 hcomes]
  refine ⟨walkAt_of_not_walkable va need h1 h4, fun hw hinvalid => ?_, fun hw hvalid hleaf hunsound => ?_,
    fun hw hvalid hleaf hsound => ⟨fun hgrants => ?_, fun hdenies => ?_⟩, fun hw hvalid hpointer hlast => ?_⟩
  all_goals rw [walkAt_of_walkable va need h1 h4 hw]
  · exact if_neg (Bool.eq_false_iff.1 hinvalid)
  · exact (if_pos hvalid).trans <| (if_pos hleaf).trans (if_neg hunsound)
  · exact (if_pos hvalid).trans <| (if_pos hleaf).trans <| (if_pos hsound).trans (if_pos hgrants)
  · exact (if_pos hvalid).trans <| (if_pos hleaf).trans <| (if_pos hsound).trans (if_neg (Bool.eq_false_iff.1 hdenies))
  · exact (if_pos hvalid).trans <| (if_neg (Bool.eq_false_iff.1 hpointer)).trans (if_pos hlast)

end Sys2Proof.Machine
end

