-- ==== Sys2Proof/Proofs/GroupPlacement.lean ====
section
/-!
PROOFS. R112, R131, R274–R276: what each part of a placement does to the state (the span's window, the group, its squads, the engines it
takes), and from that how a group stands that is placed alone.
-/
namespace Sys2Proof.Machine

/-! ### The span's window (R113) -/

/-- A span that opens changes the spans alone. -/
theorem openSpan_state {s s1 : State} {grid index die : Nat} {d : LaunchDesc} (h : openSpan s grid index die d = some s1) :
    ∃ spans, s1 = { s with spans := spans } := by
  unfold openSpan at h
  dsimp only at h
  split at h
  next => exact ⟨s.spans, (Option.some.inj h).symm⟩
  next =>
    split at h
    next => exact ⟨_, (Option.some.inj h).symm⟩
    next =>
      obtain ⟨b, -, hb⟩ := Option.map_eq_some_iff.1 h
      exact ⟨_, hb.symm⟩

/-! ### The engines taken (R230, R249) -/

/-- Taking the engines changes cores and clusters alone. -/
theorem takeEngines_state (s : State) (gk core : Nat) (matrix pair clause : Bool) :
    takeEngines s gk core matrix pair clause =
      { s with cores := (takeEngines s gk core matrix pair clause).cores,
               clusters := (takeEngines s gk core matrix pair clause).clusters } := by
  cases matrix <;> cases pair <;> cases clause <;> rfl

/-- R230: the tiles of the group's core are the group's, and zero; the second core of a pair is another one. -/
theorem takeEngines_core (s : State) (gk core : Nat) (pair clause : Bool) :
    ((takeEngines s gk core true pair clause).core core).tileOwner = some gk ∧
      ((takeEngines s gk core true pair clause).core core).tiles = [] := by
  cases pair <;> cases clause <;> simp [takeEngines, State.modCore_at]

/-- R249: the clause array of the core's cluster is the group's, and cleared. -/
theorem takeEngines_cluster (s : State) (gk core : Nat) (matrix pair : Bool) :
    ((takeEngines s gk core matrix pair true).cluster (clusterOf core)).clauseOwner = some gk ∧
      ((takeEngines s gk core matrix pair true).cluster (clusterOf core)).clause = Clause.cleared 1024 4096 := by
  simp [takeEngines, State.modCluster_at]

/-! ### The squads set (R276) -/

theorem squadKey_inj {gk j k : Nat} : squadKey gk j = squadKey gk k ↔ j = k := Nat.add_left_cancel_iff

theorem groupOfSquad_squadKey {gk k : Nat} (h : k < 32) : groupOfSquad (squadKey gk k) = gk := by
  unfold groupOfSquad squadKey
  omega

/-- Squads of a group are set, by their numbers. -/
def setSquads (s : State) (gk : Nat) (start : Nat → Squad) (ks : List Nat) : State :=
  ks.foldl (fun s k => s.setSquad (squadKey gk k) (start k)) s

section
variable (s : State) (gk : Nat) (start : Nat → Squad) (ks : List Nat)

theorem setSquads_state : setSquads s gk start ks = { s with squads := (setSquads s gk start ks).squads } := by
  induction ks generalizing s with
  | nil => rfl
  | cons k ks ih => exact ih (s.setSquad (squadKey gk k) (start k))

theorem setSquads_squad_of_mem {k : Nat} (h : k ∈ ks) : (setSquads s gk start ks).squad? (squadKey gk k) = some (start k) := by
  refine foldl_sets _ (fun s => s.squad? (squadKey gk k) = some (start k)) k (fun s => ?_) (fun s j hs => ?_) ks h s
  · rw [State.setSquad_at, if_pos rfl]
  · rw [State.setSquad_at]
    split
    next e => rw [squadKey_inj.1 e]
    next => exact hs

theorem setSquads_squad_of_ne {key : Nat} (h : ∀ k ∈ ks, key ≠ squadKey gk k) : (setSquads s gk start ks).squad? key = s.squad? key :=
  foldl_keeps _ (·.squad? key) ks s fun s k hk => by rw [State.setSquad_at, if_neg (h k hk)]

end

/-! ### A squad at its start (R276) -/

/-- R14: the group's lanes of work, and the rest of their last quad. -/
theorem laneKind_eq (lanes k : Nat) {L : Nat} (h : L < 32) :
    laneKind lanes k L = if 32 * k + L < lanes then .live else if 32 * k + 4 * (L / 4) < lanes then .helper else .absent := by
  have hlive : L < min 32 (lanes - 32 * k) ↔ 32 * k + L < lanes := by omega
  have hquad : L < roundUp (min 32 (lanes - 32 * k)) 4 ↔ 32 * k + 4 * (L / 4) < lanes := by
    unfold roundUp
    omega
  simp only [laneKind, hlive, hquad]

section
variable (grid g k slot : Nat) (d : LaunchDesc) (level : Level) (c : Clock)

/-- R131: every field of a barrier in a squad is zero. -/
theorem startSquad_bar (n : Nat) : (startSquad grid g k slot d level c).bar n = squadBarNone := by
  simp only [Squad.bar, startSquad, List.getD_eq_getElem?_getD, List.getElem?_replicate]
  split <;> rfl

theorem startSquad_lane {L : Nat} (h : L < 32) :
    (startSquad grid g k slot d level c).lane L = startLane (laneKind d.lanes k L) d.entry level :=
  perLane_get (fun i => startLane (laneKind d.lanes k i) d.entry level) L Lane.blank h

theorem startSquad_placed : Placed d g k level (startSquad grid g k slot d level c) where
  files := rfl
  registers := ⟨rfl, rfl, rfl, rfl, rfl⟩
  counters := ⟨rfl, rfl, rfl, rfl, rfl, rfl⟩
  stack := ⟨by simp [startSquad], rfl⟩
  idle := ⟨rfl, rfl, rfl, rfl, rfl, rfl, rfl, rfl, rfl⟩
  bars := ⟨List.length_replicate, fun n => by rw [startSquad_bar]; exact ⟨rfl, rfl, rfl⟩⟩
  lanes L h := by
    rw [startSquad_lane _ _ _ _ _ _ _ h, laneKind_eq _ _ h]
    exact ⟨rfl, rfl, rfl, rfl, rfl⟩

end

/-! ### A group at its start (R112, R131) -/

/-- R112: the window holds the argument block and zeros. -/
theorem startGroup_shared (grid g core unit : Nat) (d : LaunchDesc) (args : List Byte) (a : Nat) :
    memRead (startGroup grid g core unit d args).shared a = args.getD a 0#8 := by
  refine (memRead_writeN [] 0 args a).trans ?_
  split
  next => rfl
  next h =>
    have hout : args.length ≤ a := by omega
    rw [List.getD_eq_getElem?_getD, List.getElem?_eq_none hout]
    rfl

/-! ### A placed group (R276) -/

/-- The group that a placement sets: its window stands at the lowest free base (R112). -/
def newGroup (s : State) (grid g core : Nat) (d : LaunchDesc) (args : List Byte) : Group :=
  startGroup grid g core ((s.sharedBase core (sharedSize d.shared / Config.sharedUnit)).getD 0) d args

/-- Its squad k: on the k-th free slot of the core, after what its grid acquired. -/
def newSquad (s : State) (grid g core : Nat) (d : LaunchDesc) (level : Level) (k : Nat) : Squad :=
  startSquad grid g k ((s.freeSlots core).getD k 0) d level (((s.grid? grid).map (·.acquired)).getD Clock.zero)

/-- R275: a core with a free slot for each squad of a group gives every squad one. -/
theorem newSquad_slot {s : State} {core : Nat} {d : LaunchDesc} (h : d.nsq ≤ (s.freeSlots core).length) (grid g : Nat) (level : Level)
    {k : Nat} (hk : k < d.nsq) : (newSquad s grid g core d level k).slot ∈ s.freeSlots core := by
  have hfree : k < (s.freeSlots core).length := Nat.lt_of_lt_of_le hk h
  have hslot : (newSquad s grid g core d level k).slot = (s.freeSlots core)[k] := by
    change (s.freeSlots core).getD k 0 = _
    rw [List.getD_eq_getElem?_getD, List.getElem?_eq_getElem hfree, Option.getD_some]
  rw [hslot]
  exact List.getElem_mem hfree

section
variable (s : State) (grid g core : Nat) (d : LaunchDesc) (args : List Byte) (level : Level)

/-- The group and its squads are set, then the group takes its engines. -/
theorem placeGroup_eq : placeGroup s grid g core d args level =
    takeEngines
      (setSquads { s with groups := mapSet s.groups (groupKey grid g) (newGroup s grid g core d args) } (groupKey grid g)
        (newSquad s grid g core d level) (List.range d.nsq))
      (groupKey grid g) core d.matrix d.pair d.clause := rfl

theorem placeGroup_mem : (placeGroup s grid g core d args level).mem = s.mem := by
  rw [placeGroup_eq, takeEngines_state, setSquads_state]

theorem placeGroup_grid (k : Nat) : (placeGroup s grid g core d args level).grid? k = s.grid? k := by
  rw [placeGroup_eq, takeEngines_state, setSquads_state]
  rfl

theorem placeGroup_group : (placeGroup s grid g core d args level).group? (groupKey grid g) = some (newGroup s grid g core d args) := by
  rw [placeGroup_eq, takeEngines_state, setSquads_state]
  exact mapGet_set_self ..

variable {s grid g core d args level}

theorem placeGroup_squad {k : Nat} (h : k < d.nsq) : (placeGroup s grid g core d args level).squad? (squadKey (groupKey grid g) k) =
    some (newSquad s grid g core d level k) := by
  rw [placeGroup_eq, takeEngines_state]
  exact setSquads_squad_of_mem _ _ _ _ (List.mem_range.2 h)

/-- The squads of other groups stay; a group has at most 32 of its own. -/
theorem placeGroup_squad_of_ne (hnsq : d.nsq ≤ 32) {key : Nat} (h : groupOfSquad key ≠ groupKey grid g) :
    (placeGroup s grid g core d args level).squad? key = s.squad? key := by
  rw [placeGroup_eq, takeEngines_state]
  refine setSquads_squad_of_ne _ _ _ _ fun k hk e => h ?_
  have hk32 : k < 32 := Nat.lt_of_lt_of_le (List.mem_range.1 hk) hnsq
  rw [e, groupOfSquad_squadKey hk32]

theorem placeGroup_core (h : d.matrix = true) :
    ((placeGroup s grid g core d args level).core core).tileOwner = some (groupKey grid g) ∧
      ((placeGroup s grid g core d args level).core core).tiles = [] := by
  rw [placeGroup_eq, h]
  exact takeEngines_core ..

theorem placeGroup_cluster (h : d.clause = true) :
    ((placeGroup s grid g core d args level).cluster (clusterOf core)).clauseOwner = some (groupKey grid g) ∧
      ((placeGroup s grid g core d args level).cluster (clusterOf core)).clause = Clause.cleared 1024 4096 := by
  rw [placeGroup_eq, h]
  exact takeEngines_cluster ..

end

/-! ### The event (R274, R275) -/

/-- R275: a core that takes a group has a free slot for each of its squads. -/
theorem nsq_le_of_coreTakes {s : State} {g : Grid} {die core : Nat} (h : coreTakes s g die core = true) :
    g.desc.nsq ≤ (s.freeSlots core).length := by
  simp only [coreTakes, fitsCore, Bool.and_eq_true, decide_eq_true_eq] at h
  obtain ⟨-, ⟨⟨hslots, -⟩, -⟩, -⟩ := h
  exact hslots

/-- A placement of one group: its span opens, the group is placed, and the grid goes on to its next one. -/
theorem exec_groupPlace_of_mayPlace {s s1 : State} {id c die : Nat} {g : Grid} (h : MayPlace s id c die g s1) :
    exec (.groupPlace id [c]) s =
      .next ((placeGroup s1 id g.next c g.desc g.args (((s.ctx? g.ctx).map (·.level)).getD .user)).modGrid id
        fun g => { g with next := g.next + 1 }) := by
  obtain ⟨hgrid, ⟨hstatus, hfailed, hnext, hbatch⟩, ⟨x, hctx, hpaused, hpausing⟩, hfirst, hhome, hcore, hspan, -⟩ := h
  have hunplaced : g.unplaced = true := by simp [Grid.unplaced, hstatus, hfailed, hnext]
  have hplace : placeOn s id g die [c] g.next =
      some (placeGroup s1 id g.next c g.desc g.args (((s.ctx? g.ctx).map (·.level)).getD .user)) := by
    have hctx1 : s1.ctx? g.ctx = s.ctx? g.ctx := by
      obtain ⟨spans, rfl⟩ := openSpan_state hspan
      rfl
    simp [placeOn, hcore, hspan, hctx1]
  change execGroupPlace id [c] s = _
  simp [execGroupPlace, hgrid, hhome, hunplaced, hbatch, hctx, hpaused, hpausing, hfirst, hplace]

/-- Settles O44: the span that opens changes the spans alone, and on the state it leaves the group is placed, whose parts stand as
`startGroup` and `startSquad` have them. -/
theorem groupPlacement : Obligations.group_placement := by
  unfold Obligations.group_placement
  intro s s1 id c die g h gk
  have hexec := exec_groupPlace_of_mayPlace h
  obtain ⟨hgrid, -, -, -, -, hcore, hspan, -, hnsq⟩ := h
  obtain ⟨spans, rfl⟩ := openSpan_state hspan
  refine ⟨_, newGroup { s with spans := spans } id g.next c g.desc g.args, hexec, ?next, placeGroup_mem .., placeGroup_group .., rfl, rfl,
    rfl, rfl, rfl, fun a => startGroup_shared .., rfl, fun hmatrix => placeGroup_core hmatrix, fun hclause => placeGroup_cluster hclause,
    fun k hk => placeGroup_squad_of_ne hnsq hk, fun k hk => ⟨_, placeGroup_squad hk, ?slot, startSquad_placed ..⟩⟩
  case next =>
    rw [State.modGrid_at, if_pos rfl, placeGroup_grid]
    exact congrArg (Option.map _) hgrid
  case slot => exact newSquad_slot (nsq_le_of_coreTakes hcore) _ _ _ hk

end Sys2Proof.Machine
end
